-- ==== Sys2Proof/Word.lean ====
section
/-! DEFINITION. The word types of the KN4: 32-bit registers, 64-bit pairs and addresses, bytes (01 R9). -/

namespace Sys2Proof

/-- A 32-bit register value (01 Table 1-1). -/
abbrev Word := BitVec 32

/-- A 64-bit value: an address, a pair of registers, a 64-bit system register (01 R11, R14). -/
abbrev DWord := BitVec 64

/-- One byte of memory. -/
abbrev Byte := BitVec 8

/-- SInt(x) of 03 R50: the two's-complement value. -/
def sint (x : Word) : Int := x.toInt

/-- SignExt of an n-bit field to 32 bits (01 R34). -/
def sext32 {n : Nat} (x : BitVec n) : Word := x.signExtend 32

/-- SignExt of an n-bit field to 64 bits (01 R34). -/
def sext64 {n : Nat} (x : BitVec n) : DWord := x.signExtend 64

/-- ZeroExt of an n-bit field to 32 bits (01 R34). -/
def zext32 {n : Nat} (x : BitVec n) : Word := x.zeroExtend 32

/-- ZeroExt of an n-bit field to 64 bits (01 R34). -/
def zext64 {n : Nat} (x : BitVec n) : DWord := x.zeroExtend 64

end Sys2Proof
end

