-- ==== Sys2Proof/Syntax.lean ====
section
/-! DEFINITION. The instructions and steps of the KN4 as data: the operand fields of every format
(02 R35 to R38), the stimulus that each step of the other agents carries, and the one inductive of them all. -/

namespace Sys2Proof

/-- A Hawser packet: the header of 20 Table 20-2 and its payload, with what the trailer checks say. Its bytes on a link are
those of `hawserFlits`; one whose header fails its checks arrives as BADPKT_DROP. -/
structure Packet where
  dst : BitVec 12
  src : BitVec 12
  ddie : BitVec 2
  sdie : BitVec 2
  op : BitVec 6
  slack : BitVec 12
  late : Bool
  resent : Bool
  seq : BitVec 24
  ctr : BitVec 12
  part : BitVec 8
  addr : BitVec 56
  aux : BitVec 32
  tag : BitVec 32
  payload : List (BitVec 8)
  /-- for each 32-byte payload sector, whether its trailer check failed (20 R346, 21 R373) -/
  badSectors : List Bool
  /-- the Ledun header extension of a packet that a port of the Ultra Ethernet personality carries (20 R360) -/
  ext : Option (BitVec 32)
  deriving DecidableEq, Repr

/-- The delivery modes of Ultra Ethernet Transport that the KN4 uses (20 R359). -/
inductive UetMode where
  | rud
  | rudi
  deriving DecidableEq, Repr

/-- Who asks for a firmware service (21 R365). -/
inductive Requester where
  | pf
  | vf (n : Nat)
  deriving DecidableEq, Repr

/-- A host function (21 R361). -/
inductive HostFn where
  | pf
  | vf (n : Nat)
  deriving DecidableEq, Repr

/-- The AtomicOps of PCIe that the KN4 completes (21 R361). -/
inductive HostAtomic where
  | fetchAdd
  | swap
  | cas
  deriving DecidableEq, Repr

/-- What a firmware resolution names: a parked fibre, a stalled copy channel, a stalled matrix queue or a stalled
Caddy operation (18 R318, 13 R246, R376). -/
inductive Parked where
  | fibre (wk fid : Nat)
  | channel (core ch : Nat)
  | matrix (wk : Nat)
  | caddy (die n : Nat)
  deriving DecidableEq, Repr

/-- One translation entry that firmware stores before it replays (18 R318, 07 Table 7-4). -/
structure PteWrite where
  pa : Nat
  entry : BitVec 64
  deriving DecidableEq, Repr

/-- The parameters of REGISTER_MODEL: Caddy's entry (13 R253) and, when given, Kettle's (14 Table 14-1). -/
structure KettleParams where
  tmpl : BitVec 64
  ntmpl : Nat
  tb : Nat
  chunk : Nat
  gsize : Nat
  hr : Nat
  ovh : Nat
  parklim : Nat
  ib0 : BitVec 64
  ib1 : BitVec 64
  kvt : BitVec 64
  maxp : Nat
  exactok : Bool
  deriving DecidableEq, Repr

/-- A model as firmware registers it (21 Table 21-3). -/
structure ModelParams where
  model : Nat
  tenant : Nat
  ptl : Nat
  layers : Nat
  rb : Nat
  kettle : Option KettleParams
  deriving DecidableEq, Repr

/-- A ring that firmware registers (14 R262, 17 R301). -/
structure QueueParams where
  submission : Bool
  vf : Nat
  q : Nat
  base : BitVec 64
  ent : Nat
  tail : BitVec 64
  head : BitVec 64
  deriving DecidableEq, Repr

/-- Tenant budgets and limits (17 Table 17-5, 18 R318, R321). -/
structure BudgetParams where
  tenant : Nat
  cbud : Nat
  bbud : Nat
  pbud : Nat
  watchdogMs : Nat
  resolveLimit : Nat
  deriving DecidableEq, Repr

/-- A fabric window (20 Table 20-1). -/
structure FabWindow where
  v : Bool
  vbase : BitVec 40
  size : BitVec 20
  die : BitVec 2
  node : BitVec 12
  rbase : BitVec 56
  part : BitVec 8
  ctr : BitVec 12
  deriving DecidableEq, Repr

/-- One write of the fabric-setup service (21 Table 21-3; 20 R344, R345, R351). -/
inductive FabricWrite where
  | ownNode (node : BitVec 12)
  | node (n : BitVec 12) (populated : Bool)
  | partition (tenant : Nat) (part : BitVec 8)
  | nodeSet (tenant : Nat) (n : BitVec 12) (member : Bool)
  | window (tenant : Nat) (n : Nat) (w : FabWindow)
  | counter (die : Nat) (id : BitVec 12) (part : BitVec 8) (va : BitVec 64)
  deriving DecidableEq, Repr

/-- Caddy's tables and pools (21 Table 21-3; 13 R257, R258). -/
structure PoolParams where
  die : Nat
  descs : Nat
  framesHbm : Nat
  framesLp : Nat
  low : Nat
  high : Nat
  /-- KV arena bases: tenant, tier (0 HBM4, 1 LPDDR-6), global virtual address -/
  arenas : List (Nat × Nat × BitVec 64)
  deriving DecidableEq, Repr

/-- The lifecycle states of 21 Table 21-10. -/
inductive Lifecycle where
  | blank
  | provisioned
  | secure
  | rma
  deriving DecidableEq, Repr

/-- The debug states of 21 Table 21-10. -/
inductive DebugState where
  | off
  | authorised
  | opened
  deriving DecidableEq, Repr

/-- A boot image as the ROM sees it (21 R367): what its signature checks say, its security version and digest. -/
structure Image where
  rsaOk : Bool
  slhOk : Bool
  /-- the keys the signatures verify under: true the owner's, false Ledun's -/
  ownerKeys : Bool
  version : BitVec 32
  digest : BitVec 384
  deriving DecidableEq, Repr

/-- The power states of 21 Table 21-9 and what each applies to. -/
inductive PowerTarget where
  | p0 (cluster : Nat)
  | p1 (cluster : Nat)
  | coreIdle (core : Nat)
  | coreRun (core : Nat)
  | dieRetention (die : Nat)
  | dieRun (die : Nat)
  | off
  deriving DecidableEq, Repr

/-- The unit whose reset finishes (21 Table 21-8). -/
inductive ResetUnit where
  | package
  | die (n : Nat)
  | cluster (n : Nat)
  | core (n : Nat)
  | matrix (core : Nat)
  | copy (core : Nat)
  | caddy (die : Nat)
  | kettle
  | port (n : Nat)
  | vf (n : Nat)
  | samovar (core : Nat)
  deriving DecidableEq, Repr

/-- Which of the responder's algorithms an SPDM requester offers (21 R362). -/
structure AlgOffer where
  rsassa3072 : Bool
  sha384 : Bool
  aes256gcm : Bool
  deriving DecidableEq, Repr

/-- Operand fields s:2, g:2, u:1, d:6, a:6, b:6 of L_ADD, L_ADD_SAT_I32, L_ADD_SAT_N32 and others (02 R36 to R38). -/
structure SGUDAB where
  s : BitVec 2
  g : BitVec 2
  u : BitVec 1
  d : BitVec 6
  a : BitVec 6
  b : BitVec 6
  deriving DecidableEq, Repr

/-- Operand fields s:2, g:2, d:6, a:6 of L_POPC, L_CLZ, L_BREV and others (02 R36 to R38). -/
structure SGDA where
  s : BitVec 2
  g : BitVec 2
  d : BitVec 6
  a : BitVec 6
  deriving DecidableEq, Repr

/-- Operand fields s:2, g:2, f:2, u:1, d:6, a:6, b:6 of L_SEL (02 R36 to R38). -/
structure SGFUDAB where
  s : BitVec 2
  g : BitVec 2
  f : BitVec 2
  u : BitVec 1
  d : BitVec 6
  a : BitVec 6
  b : BitVec 6
  deriving DecidableEq, Repr

/-- Operand fields s:2, g:2, u:1, k:3, p:3, a:6, b:6 of L_CMP_I32, L_CMP_N32, L_FCMP and others (02 R36 to R38). -/
structure SGUKPAB where
  s : BitVec 2
  g : BitVec 2
  u : BitVec 1
  k : BitVec 3
  p : BitVec 3
  a : BitVec 6
  b : BitVec 6
  deriving DecidableEq, Repr

/-- Operand fields s:2, g:2, u:1, d:6, b:6 of L_MOV (02 R36 to R38). -/
structure SGUDB where
  s : BitVec 2
  g : BitVec 2
  u : BitVec 1
  d : BitVec 6
  b : BitVec 6
  deriving DecidableEq, Repr

/-- Operand fields s:2, g:2, d:6 of L_SID, L_LID, SLACK_REG (02 R36 to R38). -/
structure SGD where
  s : BitVec 2
  g : BitVec 2
  d : BitVec 6
  deriving DecidableEq, Repr

/-- Operand fields s:2, g:2, r:2, u:1, d:6, a:6, b:6 of L_FADD, L_FSUB, L_FMUL and others (02 R36 to R38). -/
structure SGRUDAB where
  s : BitVec 2
  g : BitVec 2
  r : BitVec 2
  u : BitVec 1
  d : BitVec 6
  a : BitVec 6
  b : BitVec 6
  deriving DecidableEq, Repr

/-- Operand fields s:2, g:2, d:6, a:6, h:1 of L_CVTF_F32_BF16, L_CVTF_F32_F16 (02 R36 to R38). -/
structure SGDAH where
  s : BitVec 2
  g : BitVec 2
  d : BitVec 6
  a : BitVec 6
  h : BitVec 1
  deriving DecidableEq, Repr

/-- Operand fields s:2, g:2, d:6, a:6, k:2 of L_CVT8_E4M3_F32, L_CVT8_E5M2_F32, L_CVT8_F32_E4M3 and others (02 R36 to R38). -/
structure SGDAK2 where
  s : BitVec 2
  g : BitVec 2
  d : BitVec 6
  a : BitVec 6
  k : BitVec 2
  deriving DecidableEq, Repr

/-- Operand fields s:2, g:2, d:6, a:6, j:4 of L_XCH_IMM, L_XCH_XOR (02 R36 to R38). -/
structure SGDAJ where
  s : BitVec 2
  g : BitVec 2
  d : BitVec 6
  a : BitVec 6
  j : BitVec 4
  deriving DecidableEq, Repr

/-- Operand fields s:2, g:2, d:6, a:6, n:4 of L_SHUP, L_SHDN, L_SHUP_WRAP and others (02 R36 to R38). -/
structure SGDAN4 where
  s : BitVec 2
  g : BitVec 2
  d : BitVec 6
  a : BitVec 6
  n : BitVec 4
  deriving DecidableEq, Repr

/-- Operand fields s:2, g:2, c:3, m:3 of L_VOTE_ANY, L_VOTE_ALL (02 R36 to R38). -/
structure SGCM where
  s : BitVec 2
  g : BitVec 2
  c : BitVec 3
  m : BitVec 3
  deriving DecidableEq, Repr

/-- Operand fields s:2, g:2, d:6, m:3 of L_BALLOT, L_PGET (02 R36 to R38). -/
structure SGDM where
  s : BitVec 2
  g : BitVec 2
  d : BitVec 6
  m : BitVec 3
  deriving DecidableEq, Repr

/-- Operand fields s:2, g:2, o:21 of L_DBR, BR, CALL (02 R36 to R38). -/
structure SGO where
  s : BitVec 2
  g : BitVec 2
  o : BitVec 21
  deriving DecidableEq, Repr

/-- Operand fields s:2, o:21 of L_DMARK (02 R36 to R38). -/
structure SO where
  s : BitVec 2
  o : BitVec 21
  deriving DecidableEq, Repr

/-- Operand fields s:2 of L_JOIN (02 R36 to R38). -/
structure S where
  s : BitVec 2
  deriving DecidableEq, Repr

/-- Operand fields s:2, g:2 of L_EXIT, RET, FCTL_END and others (02 R36 to R38). -/
structure SG where
  s : BitVec 2
  g : BitVec 2
  deriving DecidableEq, Repr

/-- Operand fields s:2, g:2, p:3, a:6 of L_PSET (02 R36 to R38). -/
structure SGPA where
  s : BitVec 2
  g : BitVec 2
  p : BitVec 3
  a : BitVec 6
  deriving DecidableEq, Repr

/-- Operand fields s:2, g:2, d:6, a:6, i:9 of L_ADDI, L_MULI (02 R36 to R38). -/
structure SGDAI where
  s : BitVec 2
  g : BitVec 2
  d : BitVec 6
  a : BitVec 6
  i : BitVec 9
  deriving DecidableEq, Repr

/-- Operand fields s:2, g:2, d:6, i:15 of L_MOVI, U_ADDI, U_LI and others (02 R36 to R38). -/
structure SGDI where
  s : BitVec 2
  g : BitVec 2
  d : BitVec 6
  i : BitVec 15
  deriving DecidableEq, Repr

/-- Operand fields s:2, g:2, z:3, d:6, a:6, b:6 of L_LD, L_ST, L_LD_NC and others (02 R36 to R38). -/
structure SGZDAB where
  s : BitVec 2
  g : BitVec 2
  z : BitVec 3
  d : BitVec 6
  a : BitVec 6
  b : BitVec 6
  deriving DecidableEq, Repr

/-- Operand fields s:2, g:2, k:3, d:6, a:6, b:6 of L_LD_ACQ, L_ST_REL, U_LD_ACQ and others (02 R36 to R38). -/
structure SGKDAB where
  s : BitVec 2
  g : BitVec 2
  k : BitVec 3
  d : BitVec 6
  a : BitVec 6
  b : BitVec 6
  deriving DecidableEq, Repr

/-- Operand fields s:2, g:2, o:3, d:6, a:6, b:6 of L_ATOM, U_ATOM (02 R36 to R38). -/
structure SGODAB where
  s : BitVec 2
  g : BitVec 2
  o : BitVec 3
  d : BitVec 6
  a : BitVec 6
  b : BitVec 6
  deriving DecidableEq, Repr

/-- Operand fields s:2, g:2, d:6, a:6, b:6 of L_ATOMX_XCHG, L_ATOMX_CAS, L_ATOMX_ADD_F32 and others (02 R36 to R38). -/
structure SGDAB where
  s : BitVec 2
  g : BitVec 2
  d : BitVec 6
  a : BitVec 6
  b : BitVec 6
  deriving DecidableEq, Repr

/-- Operand fields s:2, g:2, o:3, d:6, b:6 of L_RATOM (02 R36 to R38). -/
structure SGODB where
  s : BitVec 2
  g : BitVec 2
  o : BitVec 3
  d : BitVec 6
  b : BitVec 6
  deriving DecidableEq, Repr

/-- Operand fields s:2, g:2, d:6, b:6 of L_RATOM_ADD_F32 (02 R36 to R38). -/
structure SGDB where
  s : BitVec 2
  g : BitVec 2
  d : BitVec 6
  b : BitVec 6
  deriving DecidableEq, Repr

/-- Operand fields s:2, g:2, a:6, b:6 of L_PF (02 R36 to R38). -/
structure SGAB where
  s : BitVec 2
  g : BitVec 2
  a : BitVec 6
  b : BitVec 6
  deriving DecidableEq, Repr

/-- Operand fields s:2, g:2, i:1, d:6, a:6, b:6 of U_ADD, U_ADD_SAT_I32, U_ADD_SAT_N32 and others (02 R36 to R38). -/
structure SGIDAB where
  s : BitVec 2
  g : BitVec 2
  i : BitVec 1
  d : BitVec 6
  a : BitVec 6
  b : BitVec 6
  deriving DecidableEq, Repr

/-- Operand fields s:2, g:2, f:2, i:1, d:6, a:6, b:6 of U_SEL (02 R36 to R38). -/
structure SGFIDAB where
  s : BitVec 2
  g : BitVec 2
  f : BitVec 2
  i : BitVec 1
  d : BitVec 6
  a : BitVec 6
  b : BitVec 6
  deriving DecidableEq, Repr

/-- Operand fields s:2, g:2, i:1, k:3, c:3, a:6, b:6 of U_CMP_I32, U_CMP_N32, U_CMP64 (02 R36 to R38). -/
structure SGIKCAB where
  s : BitVec 2
  g : BitVec 2
  i : BitVec 1
  k : BitVec 3
  c : BitVec 3
  a : BitVec 6
  b : BitVec 6
  deriving DecidableEq, Repr

/-- Operand fields s:2, g:2, r:2, d:6, a:6, b:6 of U_FADD, U_FSUB, U_FMUL and others (02 R36 to R38). -/
structure SGRDAB where
  s : BitVec 2
  g : BitVec 2
  r : BitVec 2
  d : BitVec 6
  a : BitVec 6
  b : BitVec 6
  deriving DecidableEq, Repr

/-- Operand fields s:2, g:2, k:3, c:3, a:6, b:6 of U_FCMP, U_FCMP_UN (02 R36 to R38). -/
structure SGKCAB where
  s : BitVec 2
  g : BitVec 2
  k : BitVec 3
  c : BitVec 3
  a : BitVec 6
  b : BitVec 6
  deriving DecidableEq, Repr

/-- Operand fields s:2, g:2, d:6, v:32 of U_LIT (02 R36 to R38). -/
structure SGDV where
  s : BitVec 2
  g : BitVec 2
  d : BitVec 6
  v : BitVec 32
  deriving DecidableEq, Repr

/-- Operand fields s:2, g:2, k:3, c:3, a:6, i:9 of U_CMPI (02 R36 to R38). -/
structure SGKCAI where
  s : BitVec 2
  g : BitVec 2
  k : BitVec 3
  c : BitVec 3
  a : BitVec 6
  i : BitVec 9
  deriving DecidableEq, Repr

/-- Operand fields s:2, g:2, a:6 of JR, CALLR, QCLOSE and others (02 R36 to R38). -/
structure SGA where
  s : BitVec 2
  g : BitVec 2
  a : BitVec 6
  deriving DecidableEq, Repr

/-- Operand fields s:2, g:2, d:6, o:15 of LOOP (02 R36 to R38). -/
structure SGDO where
  s : BitVec 2
  g : BitVec 2
  d : BitVec 6
  o : BitVec 15
  deriving DecidableEq, Repr

/-- Operand fields s:2, g:2, i:1, b:6 of ROTSET, ROTBASE, YIELD and others (02 R36 to R38). -/
structure SGIB where
  s : BitVec 2
  g : BitVec 2
  i : BitVec 1
  b : BitVec 6
  deriving DecidableEq, Repr

/-- Operand fields s:2, g:2, z:3, d:6, b:6, o:6 of U_LD, U_ST (02 R36 to R38). -/
structure SGZDBO where
  s : BitVec 2
  g : BitVec 2
  z : BitVec 3
  d : BitVec 6
  b : BitVec 6
  o : BitVec 6
  deriving DecidableEq, Repr

/-- Operand fields s:2, g:2, i:1, a:6, b:6 of WB, INV, BAR_ARRIVE and others (02 R36 to R38). -/
structure SGIAB where
  s : BitVec 2
  g : BitVec 2
  i : BitVec 1
  a : BitVec 6
  b : BitVec 6
  deriving DecidableEq, Repr

/-- Operand fields s:2, g:2, i:1, d:6, b:6 of SUNMAP (02 R36 to R38). -/
structure SGIDB where
  s : BitVec 2
  g : BitVec 2
  i : BitVec 1
  d : BitVec 6
  b : BitVec 6
  deriving DecidableEq, Repr

/-- Operand fields s:2, g:2, d:6, r:1, k:2 of QBIND (02 R36 to R38). -/
structure SGDRK where
  s : BitVec 2
  g : BitVec 2
  d : BitVec 6
  r : BitVec 1
  k : BitVec 2
  deriving DecidableEq, Repr

/-- Operand fields s:2, g:2, i:1, c:3, a:6, b:6 of QGIVE, TKPOLL (02 R36 to R38). -/
structure SGICAB where
  s : BitVec 2
  g : BitVec 2
  i : BitVec 1
  c : BitVec 3
  a : BitVec 6
  b : BitVec 6
  deriving DecidableEq, Repr

/-- Operand fields s:2, g:2, c:3, a:6, b:6 of QTRY (02 R36 to R38). -/
structure SGCAB where
  s : BitVec 2
  g : BitVec 2
  c : BitVec 3
  a : BitVec 6
  b : BitVec 6
  deriving DecidableEq, Repr

/-- Operand fields s:2, g:2, d:6, a:6, k:3 of WATCH_ARM (02 R36 to R38). -/
structure SGDAK3 where
  s : BitVec 2
  g : BitVec 2
  d : BitVec 6
  a : BitVec 6
  k : BitVec 3
  deriving DecidableEq, Repr

/-- Operand fields s:2, g:2, c:3 of TOKQ (02 R36 to R38). -/
structure SGC where
  s : BitVec 2
  g : BitVec 2
  c : BitVec 3
  deriving DecidableEq, Repr

/-- Operand fields s:2, g:2, p:6, x:6, k:3 of MMA, CPY_MC (02 R36 to R38). -/
structure SGPXK where
  s : BitVec 2
  g : BitVec 2
  p : BitVec 6
  x : BitVec 6
  k : BitVec 3
  deriving DecidableEq, Repr

/-- Operand fields s:2, g:2, k:3 of MSWAP (02 R36 to R38). -/
structure SGK where
  s : BitVec 2
  g : BitVec 2
  k : BitVec 3
  deriving DecidableEq, Repr

/-- Operand fields s:2, g:2, v:1, k:3 of MCLR (02 R36 to R38). -/
structure SGVK where
  s : BitVec 2
  g : BitVec 2
  v : BitVec 1
  k : BitVec 3
  deriving DecidableEq, Repr

/-- Operand fields s:2, g:2, x:6, c:1, t:1, w:1, k:3 of MFLAG (02 R36 to R38). -/
structure SGXCTWK where
  s : BitVec 2
  g : BitVec 2
  x : BitVec 6
  c : BitVec 1
  t : BitVec 1
  w : BitVec 1
  k : BitVec 3
  deriving DecidableEq, Repr

/-- Operand fields s:2, g:2, p:6, k:3 of CPY, CPYR, GATH and others (02 R36 to R38). -/
structure SGPK where
  s : BitVec 2
  g : BitVec 2
  p : BitVec 6
  k : BitVec 3
  deriving DecidableEq, Repr

/-- Operand fields s:2, g:2, p:6, h:3, k:3 of LDRAIN (02 R36 to R38). -/
structure SGPHK where
  s : BitVec 2
  g : BitVec 2
  p : BitVec 6
  h : BitVec 3
  k : BitVec 3
  deriving DecidableEq, Repr

/-- Operand fields s:2, g:2, p:6, x:6 of SAMP, SEQNEXT, PGOP_ALLOC and others (02 R36 to R38). -/
structure SGPX where
  s : BitVec 2
  g : BitVec 2
  p : BitVec 6
  x : BitVec 6
  deriving DecidableEq, Repr

/-- Operand fields s:2, g:2, p:6, x:6, h:1 of RNG (02 R36 to R38). -/
structure SGPXH where
  s : BitVec 2
  g : BitVec 2
  p : BitVec 6
  x : BitVec 6
  h : BitVec 1
  deriving DecidableEq, Repr

/-- Operand fields s:2, g:2, x:6, c:1 of REP (02 R36 to R38). -/
structure SGXC where
  s : BitVec 2
  g : BitVec 2
  x : BitVec 6
  c : BitVec 1
  deriving DecidableEq, Repr

/-- Operand fields s:2, g:2, x:6 of TOKDLV (02 R36 to R38). -/
structure SGX where
  s : BitVec 2
  g : BitVec 2
  x : BitVec 6
  deriving DecidableEq, Repr

/-- Operand fields s:2, g:2, x:6, k:7 of SEQSTOP (02 R36 to R38). -/
structure SGXK where
  s : BitVec 2
  g : BitVec 2
  x : BitVec 6
  k : BitVec 7
  deriving DecidableEq, Repr

/-- Operand fields s:2, g:2, i:1, n:2, a:6, b:6 of TSET (02 R36 to R38). -/
structure SGINAB where
  s : BitVec 2
  g : BitVec 2
  i : BitVec 1
  n : BitVec 2
  a : BitVec 6
  b : BitVec 6
  deriving DecidableEq, Repr

/-- Operand fields s:2, g:2, d:6, a:6, n:2 of TANC, TDEPTH (02 R36 to R38). -/
structure SGDAN2 where
  s : BitVec 2
  g : BitVec 2
  d : BitVec 6
  a : BitVec 6
  n : BitVec 2
  deriving DecidableEq, Repr

/-- Operand fields s:2, g:2, n:2 of TCLR (02 R36 to R38). -/
structure SGN where
  s : BitVec 2
  g : BitVec 2
  n : BitVec 2
  deriving DecidableEq, Repr

/-- Operand fields s:2, g:2, r:9, d:6 of SYSR, SYSW, RDCNT (02 R36 to R38). -/
structure SGRD where
  s : BitVec 2
  g : BitVec 2
  r : BitVec 9
  d : BitVec 6
  deriving DecidableEq, Repr

/-- Operand fields s:2, g:2, i:12 of SLACK_IMM (02 R36 to R38). -/
structure SGI where
  s : BitVec 2
  g : BitVec 2
  i : BitVec 12
  deriving DecidableEq, Repr

/-- Operand fields t:5, s:5, d:5 of RGFETCH, BFEXT, SIGWAIT and others (02 R36 to R38). -/
structure TSD where
  t : BitVec 5
  s : BitVec 5
  d : BitVec 5
  deriving DecidableEq, Repr

/-- One constructor for each row of the opcode table: the words of the two Tifenko sets, the four Samovar
custom instructions, and the indivisible steps of the package's other agents (95_what_each_step_holds.md). -/
inductive Instr where
  /-- L_ADD (R102): Lane add: each active strand writes vD := (a + b) mod 2^32. -/
  | lAdd (o : SGUDAB)
  /-- L_ADD_SAT_I32 (R102): Lane signed saturating add per strand; sets FSTAT.SAT on clamp. -/
  | lAddSatI32 (o : SGUDAB)
  /-- L_ADD_SAT_N32 (R102): Lane unsigned saturating add per strand. -/
  | lAddSatN32 (o : SGUDAB)
  /-- L_SUB (R102): Lane subtract modulo 2^32 per strand. -/
  | lSub (o : SGUDAB)
  /-- L_SUB_SAT_I32 (R102): Lane signed saturating subtract per strand. -/
  | lSubSatI32 (o : SGUDAB)
  /-- L_SUB_SAT_N32 (R102): Lane unsigned saturating subtract per strand. -/
  | lSubSatN32 (o : SGUDAB)
  /-- L_MUL (R102): Lane low 32-bit multiply per strand. -/
  | lMul (o : SGUDAB)
  /-- L_MULH_I32 (R102): Lane signed high-half multiply per strand. -/
  | lMulhI32 (o : SGUDAB)
  /-- L_MULH_N32 (R102): Lane unsigned high-half multiply per strand. -/
  | lMulhN32 (o : SGUDAB)
  /-- L_MAD (R102): Lane multiply-add with vD as addend per strand. -/
  | lMad (o : SGUDAB)
  /-- L_MIN_I32 (R102): Lane signed minimum per strand. -/
  | lMinI32 (o : SGUDAB)
  /-- L_MIN_N32 (R102): Lane unsigned minimum per strand. -/
  | lMinN32 (o : SGUDAB)
  /-- L_MAX_I32 (R102): Lane signed maximum per strand. -/
  | lMaxI32 (o : SGUDAB)
  /-- L_MAX_N32 (R102): Lane unsigned maximum per strand. -/
  | lMaxN32 (o : SGUDAB)
  /-- L_AND (R102): Lane bitwise AND per strand. -/
  | lAnd (o : SGUDAB)
  /-- L_OR (R102): Lane bitwise OR per strand. -/
  | lOr (o : SGUDAB)
  /-- L_XOR (R102): Lane bitwise XOR per strand. -/
  | lXor (o : SGUDAB)
  /-- L_ANDN (R102): Lane a AND NOT b per strand. -/
  | lAndn (o : SGUDAB)
  /-- L_SHL (R102): Lane shift left by a full 32-bit amount per strand. -/
  | lShl (o : SGUDAB)
  /-- L_SHR (R102): Lane logical shift right per strand. -/
  | lShr (o : SGUDAB)
  /-- L_SAR (R102): Lane arithmetic shift right per strand. -/
  | lSar (o : SGUDAB)
  /-- L_ROL (R102): Lane rotate left per strand. -/
  | lRol (o : SGUDAB)
  /-- L_POPC (R102): Lane population count per strand. -/
  | lPopc (o : SGDA)
  /-- L_CLZ (R102): Lane count leading zeros per strand. -/
  | lClz (o : SGDA)
  /-- L_BREV (R102): Lane bit reverse per strand. -/
  | lBrev (o : SGDA)
  /-- L_FFS (R102): Lane index of lowest set bit per strand. -/
  | lFfs (o : SGDA)
  /-- L_BFX_I32 (R102): Lane signed bit-field extract per strand under R54. -/
  | lBfxI32 (o : SGUDAB)
  /-- L_BFX_N32 (R102): Lane unsigned bit-field extract per strand. -/
  | lBfxN32 (o : SGUDAB)
  /-- L_BFI (R102): Lane bit-field insert into destructive vD per strand. -/
  | lBfi (o : SGUDAB)
  /-- L_SEL (R102): Lane select b or a on predicate p(4+FN) per strand. -/
  | lSel (o : SGFUDAB)
  /-- L_CMP_I32 (R102): Lane signed compare writing a predicate per strand. -/
  | lCmpI32 (o : SGUKPAB)
  /-- L_CMP_N32 (R102): Lane unsigned compare writing a predicate per strand. -/
  | lCmpN32 (o : SGUKPAB)
  /-- L_AMIN_I32 (R102): Lane vD := signed min(vD, a+b) per strand. -/
  | lAminI32 (o : SGUDAB)
  /-- L_AMIN_N32 (R102): Lane vD := unsigned min(vD, a+b) per strand. -/
  | lAminN32 (o : SGUDAB)
  /-- L_AMAX_I32 (R102): Lane vD := signed max(vD, a+b) per strand. -/
  | lAmaxI32 (o : SGUDAB)
  /-- L_AMAX_N32 (R102): Lane vD := unsigned max(vD, a+b) per strand. -/
  | lAmaxN32 (o : SGUDAB)
  /-- L_MOV (R103): Lane move vD := vB or sB per strand. -/
  | lMov (o : SGUDB)
  /-- L_SID (R103): Writes each strand's index into vD. -/
  | lSid (o : SGD)
  /-- L_LID (R103): Writes the fibre's lane number into vD. -/
  | lLid (o : SGD)
  /-- L_FADD (R105): Lane FP32 add with rounding mode from FN. -/
  | lFadd (o : SGRUDAB)
  /-- L_FSUB (R105): Lane FP32 subtract with rounding mode from FN. -/
  | lFsub (o : SGRUDAB)
  /-- L_FMUL (R105): Lane FP32 multiply with rounding mode from FN. -/
  | lFmul (o : SGRUDAB)
  /-- L_FFMA (R105): Lane FP32 fused multiply-add into destructive vD. -/
  | lFfma (o : SGRUDAB)
  /-- L_FMIN (R105): Lane FP32 minimumNumber per strand. -/
  | lFmin (o : SGUDAB)
  /-- L_FMAX (R105): Lane FP32 maximumNumber per strand. -/
  | lFmax (o : SGUDAB)
  /-- L_FMIN_NAN (R105): Lane FP32 NaN-propagating minimum per strand. -/
  | lFminNan (o : SGUDAB)
  /-- L_FMAX_NAN (R105): Lane FP32 NaN-propagating maximum per strand. -/
  | lFmaxNan (o : SGUDAB)
  /-- L_FCMP (R105): Lane ordered FP32 compare writing a predicate. -/
  | lFcmp (o : SGUKPAB)
  /-- L_FCMP_UN (R105): Lane unordered FP32 compare writing a predicate. -/
  | lFcmpUn (o : SGUKPAB)
  /-- L_FRCP (R105): Lane correctly rounded reciprocal per strand. -/
  | lFrcp (o : SGDA)
  /-- L_FRSQ (R105): Lane reciprocal square root per strand. -/
  | lFrsq (o : SGDA)
  /-- L_FEX2 (R105): Lane 2^a per strand. -/
  | lFex2 (o : SGDA)
  /-- L_FLG2 (R105): Lane log2 a per strand. -/
  | lFlg2 (o : SGDA)
  /-- L_CVTI_I32_F32 (R105): Lane FP32 to signed integer, round toward zero. -/
  | lCvtiI32F32 (o : SGDA)
  /-- L_CVTI_N32_F32 (R105): Lane FP32 to unsigned integer, round toward zero. -/
  | lCvtiN32F32 (o : SGDA)
  /-- L_CVTI_F32_I32 (R105): Lane signed integer to FP32, RNE. -/
  | lCvtiF32I32 (o : SGDA)
  /-- L_CVTI_F32_N32 (R105): Lane unsigned integer to FP32, RNE. -/
  | lCvtiF32N32 (o : SGDA)
  /-- L_CVTF_BF16X2_F32 (R107): Packs two FP32 values into a BF16 pair. -/
  | lCvtfBf16x2F32 (o : SGUDAB)
  /-- L_CVTF_F32_BF16 (R107): Widens one BF16 half to FP32. -/
  | lCvtfF32Bf16 (o : SGDAH)
  /-- L_CVTF_F16X2_F32 (R107): Packs two FP32 values into an FP16 pair. -/
  | lCvtfF16x2F32 (o : SGUDAB)
  /-- L_CVTF_F32_F16 (R107): Widens one FP16 half to FP32. -/
  | lCvtfF32F16 (o : SGDAH)
  /-- L_CVT8_E4M3_F32 (R108): Converts FP32 to saturating E4M3 into byte k of vD. -/
  | lCvt8E4m3F32 (o : SGDAK2)
  /-- L_CVT8_E5M2_F32 (R108): Converts FP32 to E5M2 into byte k of vD. -/
  | lCvt8E5m2F32 (o : SGDAK2)
  /-- L_CVT8_F32_E4M3 (R108): Widens E4M3 byte k to FP32. -/
  | lCvt8F32E4m3 (o : SGDAK2)
  /-- L_CVT8_F32_E5M2 (R108): Widens E5M2 byte k to FP32. -/
  | lCvt8F32E5m2 (o : SGDAK2)
  /-- L_HADD2_BF16 (R109): Packed BF16 add of both halves. -/
  | lHadd2Bf16 (o : SGUDAB)
  /-- L_HADD2_F16 (R109): Packed FP16 add of both halves. -/
  | lHadd2F16 (o : SGUDAB)
  /-- L_HMUL2_BF16 (R109): Packed BF16 multiply. -/
  | lHmul2Bf16 (o : SGUDAB)
  /-- L_HMUL2_F16 (R109): Packed FP16 multiply. -/
  | lHmul2F16 (o : SGUDAB)
  /-- L_HFMA2_BF16 (R109): Packed BF16 fused multiply-add into vD. -/
  | lHfma2Bf16 (o : SGUDAB)
  /-- L_HFMA2_F16 (R109): Packed FP16 fused multiply-add into vD. -/
  | lHfma2F16 (o : SGUDAB)
  /-- L_FABS (R106): Clears the sign bit per strand. -/
  | lFabs (o : SGDA)
  /-- L_FNEG (R106): Flips the sign bit per strand. -/
  | lFneg (o : SGDA)
  /-- L_FCOPYSIGN (R106): Copies the sign of b onto a per strand. -/
  | lFcopysign (o : SGUDAB)
  /-- L_XCH (R110): Each strand reads vA of the strand named by a register index. -/
  | lXch (o : SGUDAB)
  /-- L_XCH_IMM (R110): Each strand reads vA of an immediate strand. -/
  | lXchImm (o : SGDAJ)
  /-- L_XCH_XOR (R110): Each strand reads vA of strand i XOR mask. -/
  | lXchXor (o : SGDAJ)
  /-- L_SHUP (R111): Shifts values up n strands, keeping own value at the edge. -/
  | lShup (o : SGDAN4)
  /-- L_SHDN (R111): Shifts values down n strands. -/
  | lShdn (o : SGDAN4)
  /-- L_SHUP_WRAP (R111): Rotates values up n strands. -/
  | lShupWrap (o : SGDAN4)
  /-- L_SHDN_WRAP (R111): Rotates values down n strands. -/
  | lShdnWrap (o : SGDAN4)
  /-- L_SCAN_ADD_I32 (R112): Inclusive integer add scan over Active. -/
  | lScanAddI32 (o : SGUDAB)
  /-- L_SCAN_ADD_F32 (R112): Inclusive FP32 add scan rounded per step. -/
  | lScanAddF32 (o : SGUDAB)
  /-- L_SCAN_MIN_I32 (R112): Inclusive signed minimum scan. -/
  | lScanMinI32 (o : SGUDAB)
  /-- L_SCAN_MAX_I32 (R112): Inclusive signed maximum scan. -/
  | lScanMaxI32 (o : SGUDAB)
  /-- L_RED_ADD_I32 (R113): Integer add reduction over Active into sD. -/
  | lRedAddI32 (o : SGUDAB)
  /-- L_RED_ADD_F32 (R113): FP32 add reduction over Active into sD. -/
  | lRedAddF32 (o : SGUDAB)
  /-- L_RED_AND (R113): AND reduction over Active into sD. -/
  | lRedAnd (o : SGUDAB)
  /-- L_RED_OR (R113): OR reduction over Active into sD. -/
  | lRedOr (o : SGUDAB)
  /-- L_REDIX_MIN_I32 (R114): Signed minimum and its strand index into pair sD. -/
  | lRedixMinI32 (o : SGDA)
  /-- L_REDIX_MIN_N32 (R114): Unsigned minimum and its strand index into pair sD. -/
  | lRedixMinN32 (o : SGDA)
  /-- L_REDIX_MAX_I32 (R114): Signed maximum and its strand index into pair sD. -/
  | lRedixMaxI32 (o : SGDA)
  /-- L_REDIX_MAX_N32 (R114): Unsigned maximum and its strand index into pair sD. -/
  | lRedixMaxN32 (o : SGDA)
  /-- L_PICK (R115): sD := vA of the lowest active strand. -/
  | lPick (o : SGDA)
  /-- L_VOTE_ANY (R115): Condition := OR of a predicate over Active. -/
  | lVoteAny (o : SGCM)
  /-- L_VOTE_ALL (R115): Condition := AND of a predicate over Active. -/
  | lVoteAll (o : SGCM)
  /-- L_BALLOT (R115): sD := bit mask of a predicate over Active. -/
  | lBallot (o : SGDM)
  /-- L_DBR (R118): Divergent branch: splits the active mask and pushes a deferred entry. -/
  | lDbr (o : SGO)
  /-- L_DMARK (R117): Pushes a reconvergence entry for the active mask. -/
  | lDmark (o : SO)
  /-- L_JOIN (R119): Pops or rewrites the top divergence entry and switches the mask. -/
  | lJoin (o : S)
  /-- L_EXIT (R120): Active strands leave the mask; Unwind when it empties. -/
  | lExit (o : SG)
  /-- L_PSET (R120): Sets a predicate to vA != 0 per strand. -/
  | lPset (o : SGPA)
  /-- L_PGET (R120): Writes a predicate as 0 or 1 into vD per strand. -/
  | lPget (o : SGDM)
  /-- L_ADDI (R104): Lane add of a signed 9-bit immediate. -/
  | lAddi (o : SGDAI)
  /-- L_MOVI (R104): Lane move of a signed 15-bit immediate. -/
  | lMovi (o : SGDI)
  /-- L_MULI (R104): Lane multiply by a signed 9-bit immediate. -/
  | lMuli (o : SGDAI)
  /-- L_LD (R166): Per-strand load at BASE + vA of size SZ. -/
  | lLd (o : SGZDAB)
  /-- L_ST (R166): Per-strand store at BASE + vA of size SZ. -/
  | lSt (o : SGZDAB)
  /-- L_LD_ACQ (R170): Per-strand 32-bit acquire load at scope SC. -/
  | lLdAcq (o : SGKDAB)
  /-- L_ST_REL (R170): Per-strand 32-bit release store at scope SC. -/
  | lStRel (o : SGKDAB)
  /-- L_ATOM (R171): Per-strand 32-bit atomic of the AOP operation. -/
  | lAtom (o : SGODAB)
  /-- L_ATOMX_XCHG (R172): Per-strand atomic exchange. -/
  | lAtomxXchg (o : SGDAB)
  /-- L_ATOMX_CAS (R172): Per-strand atomic compare-and-swap. -/
  | lAtomxCas (o : SGDAB)
  /-- L_ATOMX_ADD_F32 (R172): Per-strand atomic FP32 add. -/
  | lAtomxAddF32 (o : SGDAB)
  /-- L_RATOM (R174): One combined atomic packet for all active strands on one location. -/
  | lRatom (o : SGODB)
  /-- L_RATOM_ADD_F32 (R174): Combined FP32 add atomic for all active strands. -/
  | lRatomAddF32 (o : SGDB)
  /-- L_PF (R169): Requests lines into the L1; no access. -/
  | lPf (o : SGAB)
  /-- L_LD_NC (R168): Per-strand load at the point of coherence without L1. -/
  | lLdNc (o : SGZDAB)
  /-- L_ST_NC (R168): Per-strand store that invalidates the L1 copy. -/
  | lStNc (o : SGZDAB)
  /-- U_ADD (R52): Uniform add modulo 2^32. -/
  | uAdd (o : SGIDAB)
  /-- U_ADD_SAT_I32 (R52): Uniform signed saturating add. -/
  | uAddSatI32 (o : SGIDAB)
  /-- U_ADD_SAT_N32 (R52): Uniform unsigned saturating add. -/
  | uAddSatN32 (o : SGIDAB)
  /-- U_SUB (R52): Uniform subtract. -/
  | uSub (o : SGIDAB)
  /-- U_SUB_SAT_I32 (R52): Uniform signed saturating subtract. -/
  | uSubSatI32 (o : SGIDAB)
  /-- U_SUB_SAT_N32 (R52): Uniform unsigned saturating subtract. -/
  | uSubSatN32 (o : SGIDAB)
  /-- U_MUL (R52): Uniform low multiply. -/
  | uMul (o : SGIDAB)
  /-- U_MULH_I32 (R52): Uniform signed high multiply. -/
  | uMulhI32 (o : SGIDAB)
  /-- U_MULH_N32 (R52): Uniform unsigned high multiply. -/
  | uMulhN32 (o : SGIDAB)
  /-- U_MAD (R52): Uniform multiply-add with sD as addend. -/
  | uMad (o : SGIDAB)
  /-- U_MIN_I32 (R52): Uniform signed minimum. -/
  | uMinI32 (o : SGIDAB)
  /-- U_MIN_N32 (R52): Uniform unsigned minimum. -/
  | uMinN32 (o : SGIDAB)
  /-- U_MAX_I32 (R52): Uniform signed maximum. -/
  | uMaxI32 (o : SGIDAB)
  /-- U_MAX_N32 (R52): Uniform unsigned maximum. -/
  | uMaxN32 (o : SGIDAB)
  /-- U_AND (R52): Uniform AND. -/
  | uAnd (o : SGIDAB)
  /-- U_OR (R52): Uniform OR; also carries Pyster's mov sD, sA. -/
  | uOr (o : SGIDAB)
  /-- U_XOR (R52): Uniform XOR. -/
  | uXor (o : SGIDAB)
  /-- U_ANDN (R52): Uniform AND NOT. -/
  | uAndn (o : SGIDAB)
  /-- U_SHL (R53): Uniform shift left. -/
  | uShl (o : SGIDAB)
  /-- U_SHR (R53): Uniform logical shift right. -/
  | uShr (o : SGIDAB)
  /-- U_SAR (R53): Uniform arithmetic shift right. -/
  | uSar (o : SGIDAB)
  /-- U_ROL (R53): Uniform rotate left. -/
  | uRol (o : SGIDAB)
  /-- U_POPC (R52): Uniform population count. -/
  | uPopc (o : SGDA)
  /-- U_CLZ (R52): Uniform count leading zeros. -/
  | uClz (o : SGDA)
  /-- U_BREV (R52): Uniform bit reverse. -/
  | uBrev (o : SGDA)
  /-- U_FFS (R52): Uniform find first set bit. -/
  | uFfs (o : SGDA)
  /-- U_BFX_I32 (R54): Uniform signed bit-field extract. -/
  | uBfxI32 (o : SGDAB)
  /-- U_BFX_N32 (R54): Uniform unsigned bit-field extract. -/
  | uBfxN32 (o : SGDAB)
  /-- U_BFI (R54): Uniform bit-field insert into destructive sD. -/
  | uBfi (o : SGDAB)
  /-- U_SEL (R52): Uniform select on condition c(4+FN). -/
  | uSel (o : SGFIDAB)
  /-- U_CMP_I32 (R56): Uniform signed compare writing a condition. -/
  | uCmpI32 (o : SGIKCAB)
  /-- U_CMP_N32 (R56): Uniform unsigned compare writing a condition. -/
  | uCmpN32 (o : SGIKCAB)
  /-- U_AMIN_I32 (R55): Uniform sD := signed min(sD, a+b). -/
  | uAminI32 (o : SGIDAB)
  /-- U_AMIN_N32 (R55): Uniform sD := unsigned min(sD, a+b). -/
  | uAminN32 (o : SGIDAB)
  /-- U_AMAX_I32 (R55): Uniform sD := signed max(sD, a+b). -/
  | uAmaxI32 (o : SGIDAB)
  /-- U_AMAX_N32 (R55): Uniform sD := unsigned max(sD, a+b). -/
  | uAmaxN32 (o : SGIDAB)
  /-- U_DIV_I32 (R57): Signed division truncating toward zero. -/
  | uDivI32 (o : SGIDAB)
  /-- U_DIV_N32 (R57): Unsigned division. -/
  | uDivN32 (o : SGIDAB)
  /-- U_REM_I32 (R57): Signed remainder. -/
  | uRemI32 (o : SGIDAB)
  /-- U_REM_N32 (R57): Unsigned remainder. -/
  | uRemN32 (o : SGIDAB)
  /-- U_ADD64 (R58): 64-bit add of register pairs. -/
  | uAdd64 (o : SGIDAB)
  /-- U_SUB64 (R58): 64-bit subtract of register pairs. -/
  | uSub64 (o : SGIDAB)
  /-- U_CMP64 (R58): 64-bit unsigned compare writing a condition. -/
  | uCmp64 (o : SGIKCAB)
  /-- U_FADD (R60): Uniform FP32 add with rounding mode from FN. -/
  | uFadd (o : SGRDAB)
  /-- U_FSUB (R60): Uniform FP32 subtract. -/
  | uFsub (o : SGRDAB)
  /-- U_FMUL (R60): Uniform FP32 multiply. -/
  | uFmul (o : SGRDAB)
  /-- U_FFMA (R60): Uniform FP32 fused multiply-add into sD. -/
  | uFfma (o : SGRDAB)
  /-- U_FMIN (R61): Uniform FP32 minimumNumber. -/
  | uFmin (o : SGDAB)
  /-- U_FMAX (R61): Uniform FP32 maximumNumber. -/
  | uFmax (o : SGDAB)
  /-- U_FMIN_NAN (R61): Uniform FP32 NaN-propagating minimum. -/
  | uFminNan (o : SGDAB)
  /-- U_FMAX_NAN (R61): Uniform FP32 NaN-propagating maximum. -/
  | uFmaxNan (o : SGDAB)
  /-- U_FCMP (R62): Uniform ordered FP32 compare to a condition. -/
  | uFcmp (o : SGKCAB)
  /-- U_FCMP_UN (R62): Uniform unordered FP32 compare to a condition. -/
  | uFcmpUn (o : SGKCAB)
  /-- U_FRCP (R63): Uniform reciprocal. -/
  | uFrcp (o : SGDA)
  /-- U_FRSQ (R63): Uniform reciprocal square root. -/
  | uFrsq (o : SGDA)
  /-- U_FEX2 (R63): Uniform 2^a. -/
  | uFex2 (o : SGDA)
  /-- U_FLG2 (R63): Uniform log2 a. -/
  | uFlg2 (o : SGDA)
  /-- U_CVTI_I32_F32 (R64): Uniform FP32 to signed integer. -/
  | uCvtiI32F32 (o : SGDA)
  /-- U_CVTI_N32_F32 (R64): Uniform FP32 to unsigned integer. -/
  | uCvtiN32F32 (o : SGDA)
  /-- U_CVTI_F32_I32 (R64): Uniform signed integer to FP32. -/
  | uCvtiF32I32 (o : SGDA)
  /-- U_CVTI_F32_N32 (R64): Uniform unsigned integer to FP32. -/
  | uCvtiF32N32 (o : SGDA)
  /-- U_ADDI (R65): sD := sD + sign-extended imm15. -/
  | uAddi (o : SGDI)
  /-- U_LI (R65): sD := sign-extended imm15. -/
  | uLi (o : SGDI)
  /-- U_LUI (R65): Loads imm15 into the upper bits of sD, keeping the low 17. -/
  | uLui (o : SGDI)
  /-- U_LIT (R65): Loads the following 32-bit data word into sD and skips it. -/
  | uLit (o : SGDV)
  /-- U_CMPI (R65): Signed compare against imm9 writing a condition. -/
  | uCmpi (o : SGKCAI)
  /-- U_MULI (R65): sD := sD × sign-extended imm15. -/
  | uMuli (o : SGDI)
  /-- U_ADDI64 (R65): Pair sD += sign-extended imm15. -/
  | uAddi64 (o : SGDI)
  /-- BR (R67): Branch by a word offset, conditional on its guard. -/
  | br (o : SGO)
  /-- CALL (R68): Branch and write the return address to s63. -/
  | call (o : SGO)
  /-- JR (R68): Jump to the address in pair sA. -/
  | jr (o : SGA)
  /-- CALLR (R68): Call the address in pair sA, writing s63. -/
  | callr (o : SGA)
  /-- RET (R68): Return to the PC's high word plus s63. -/
  | ret (o : SG)
  /-- LOOP (R69): Decrements the counter, rotates ROTB and branches while nonzero. -/
  | loopW (o : SGDO)
  /-- ROTSET (R70): Sets the rotating-region size and clears ROTB. -/
  | rotset (o : SGIB)
  /-- ROTBASE (R70): Sets the rotation base ROTB. -/
  | rotbase (o : SGIB)
  /-- FORK (R121): Creates a new fibre of the workgroup at a start PC. -/
  | fork (o : SGIDAB)
  /-- FORK_PLACEMENT (R87): A waiting fork gets a lane slot and rows and the new fibre starts. -/
  | forkPlacement (wk : Nat) (fid : Nat)
  /-- FCTL_END (R122): Ends the fibre whatever its mask. -/
  | fctlEnd (o : SG)
  /-- YIELD (R122): Makes the fibre not ready for n cycles. -/
  | yield (o : SGIB)
  /-- VGROW (R123): Requests a larger register window. -/
  | vgrow (o : SGIB)
  /-- VGROW_GRANT (R89): A pending window request is granted, possibly moving the allocation. -/
  | vgrowGrant (wk : Nat) (fid : Nat)
  /-- VSHRINK (R123): Shrinks the register window. -/
  | vshrink (o : SGIB)
  /-- CORE_SPILL (R91): With all fibres blocked and one waiting for rows, younger fibres are spilled until it is granted. -/
  | coreSpill (core : Nat)
  /-- SPILL_RESTORE (R91): A spilled fibre is restored once its allocation fits. -/
  | spillRestore (wk : Nat) (fid : Nat)
  /-- TRAP (R72): Raises TRAP_SW with a subcode. -/
  | trap (o : SGIB)
  /-- TRET (R72): Leaves trap mode and resumes at TRAPPC from RIX. -/
  | tret (o : SG)
  /-- BRK (R72): Raises BREAK when enabled, else acts as nop. -/
  | brk (o : SGIB)
  /-- NOP (R72): No effect. -/
  | nop (o : SG)
  /-- LATE_TRAP (R143): An imprecise LATE fault is taken at the next instruction boundary. -/
  | lateTrap (wk : Nat) (fid : Nat)
  /-- ACCESS_COMPLETION (R151): A memory reply arrives; the register is written, counters fall and late completions are counted. -/
  | accessCompletion (wk : Nat) (fid : Nat)
  /-- U_LD (R71): Scalar load at BASE + offset × size. -/
  | uLd (o : SGZDBO)
  /-- U_ST (R71): Scalar store at BASE + offset × size. -/
  | uSt (o : SGZDBO)
  /-- U_LD_ACQ (R170): Scalar 32-bit acquire load at scope SC. -/
  | uLdAcq (o : SGKDAB)
  /-- U_ST_REL (R170): Scalar 32-bit release store ordering all strands' earlier accesses. -/
  | uStRel (o : SGKDAB)
  /-- U_ATOM (R171): Scalar 32-bit atomic of the AOP operation. -/
  | uAtom (o : SGODAB)
  /-- U_ATOMX_XCHG (R172): Scalar atomic exchange. -/
  | uAtomxXchg (o : SGDAB)
  /-- U_ATOMX_CAS (R172): Scalar atomic compare-and-swap. -/
  | uAtomxCas (o : SGDAB)
  /-- U_ATOMX_ADD_F32 (R172): Scalar atomic FP32 add. -/
  | uAtomxAddF32 (o : SGDAB)
  /-- WB (R175): Writes back held stash and owned lines of a range. -/
  | wb (o : SGIAB)
  /-- INV (R175): Writes back and invalidates or discards held lines of a range. -/
  | inv (o : SGIAB)
  /-- SMAP (R176): Maps a stash range to global memory. -/
  | smap (o : SGIDAB)
  /-- SUNMAP (R177): Writes back and removes a stash mapping. -/
  | sunmap (o : SGIDB)
  /-- LAZY_STASH_WRITE_BACK (R132): A dirty stash line is written back at background slack while the workgroup runs. -/
  | lazyStashWriteBack (wk : Nat) (off : Nat)
  /-- CWAIT_LD (R178): Retires only when LDO is at most n. -/
  | cwaitLd (o : SGIB)
  /-- CWAIT_ST (R178): Retires only when STO is at most n. -/
  | cwaitSt (o : SGIB)
  /-- CWAIT_ENG (R178): Retires only when ENGO is at most n. -/
  | cwaitEng (o : SGIB)
  /-- BAR_ARRIVE (R179): Arrives at a named barrier, completing the phase at the expected count. -/
  | barArrive (o : SGIAB)
  /-- BAR_WAIT (R179): Sleeps until the barrier's phase moves past the recorded parity. -/
  | barWait (o : SGIB)
  /-- BAR_SYNC (R179): Arrives at and waits on a named barrier. -/
  | barSync (o : SGIAB)
  /-- KNOT_ARRIVE (R180): The workgroup arrives at a knot barrier. -/
  | knotArrive (o : SGIB)
  /-- KNOT_WAIT (R180): Waits for the knot barrier's phase to complete. -/
  | knotWait (o : SGIB)
  /-- KNOT_SYNC (R180): Arrives at and waits on a knot barrier. -/
  | knotSync (o : SGIB)
  /-- QBIND (R184): Binds a port in or out to a knot's queue. -/
  | qbind (o : SGDRK)
  /-- QGIVE (R184): Pushes to a queue without blocking. -/
  | qgive (o : SGICAB)
  /-- QTRY (R184): Pops from a queue without blocking. -/
  | qtry (o : SGCAB)
  /-- QCLOSE (R184): Unbinds a port, closing the queue after its last out binding. -/
  | qclose (o : SGA)
  /-- TKWAIT (R187): Records a ticket claim and sleeps until SERVE equals the ticket. -/
  | tkwait (o : SGIAB)
  /-- TKPASS (R187): Advances SERVE as a release and clears the claim. -/
  | tkpass (o : SGA)
  /-- TKPOLL (R187): Records a claim and tests SERVE without sleeping. -/
  | tkpoll (o : SGICAB)
  /-- WATCH_ARM (R189): Arms a watch entry on a 64-bit word. -/
  | watchArm (o : SGDAK3)
  /-- WWAIT (R191): Sleeps until a watch entry fires, then returns the value and frees it. -/
  | wwait (o : SGDA)
  /-- DISARM (R191): Frees a watch entry. -/
  | disarm (o : SGA)
  /-- TOKPASS (R192): Passes the commit token to the next workgroup. -/
  | tokpass (o : SG)
  /-- TOKQ (R192): Writes whether the workgroup holds the commit token. -/
  | tokq (o : SGC)
  /-- TRIG (R193): Marks the workgroup triggered for dependants. -/
  | trig (o : SG)
  /-- POST (R194): Posts a job card to a cluster queue. -/
  | post (o : SGIDAB)
  /-- BCINIT (R196): Initialises a byte-count barrier object. -/
  | bcinit (o : SGIAB)
  /-- BCWAIT (R197): Sleeps until the barrier's phase differs from a parity, acquiring its bytes. -/
  | bcwait (o : SGIDAB)
  /-- BCADD (R198): Adds a count to ARRIVED as one addition. -/
  | bcadd (o : SGIAB)
  /-- BCPHASE (R198): Reads the barrier's phase bit. -/
  | bcphase (o : SGDA)
  /-- MMA (R236): Checks a matrix command and enqueues it. -/
  | mma (o : SGPXK)
  /-- MMA_START (R232): A queued matrix command starts on its bank, setting scales and zeroing. -/
  | mmaStart (wk : Nat)
  /-- MMA_GRANULE (R233): A running matrix command reaches a split granule and is arbitrated or stopped. -/
  | mmaGranule (wk : Nat)
  /-- MMA_COMPLETION (R234): A matrix command completes and adds its tile bytes to BAR. -/
  | mmaCompletion (wk : Nat)
  /-- MSWAP (R237): Exchanges working and visible banks after quiescence. -/
  | mswap (o : SGK)
  /-- MCLR (R238): Clears one bank in queue order. -/
  | mclr (o : SGVK)
  /-- MFLAG (R239): Reads and optionally clears bank flags or ACCSTK. -/
  | mflag (o : SGXCTWK)
  /-- CPY (R249): Copies, fills or drains a tile of up to three dimensions. -/
  | cpy (o : SGPK)
  /-- CPY_MC (R250): Copies to the scratchpads of several hitch members. -/
  | cpyMc (o : SGPXK)
  /-- CPYR (R252): Reduces a run of elements into global memory under a sequence word. -/
  | cpyr (o : SGPK)
  /-- CPYR_APPLY (R252): At the home slice, a cpyr whose sequence arrives is applied and the word advanced. -/
  | cpyrApply (n : Nat)
  /-- GATH (R254): Gathers K and V rows from KV pages into scratchpad. -/
  | gath (o : SGPK)
  /-- QDUAL (R255): Quantises an FP32 tile into row- and column-blocked copies. -/
  | qdual (o : SGPK)
  /-- LDRAIN (R256): Folds a logit column into a sampling record. -/
  | ldrain (o : SGPHK)
  /-- COPY_GRANULE (R243): A copy command reaches a granule and may be stopped. -/
  | copyGranule (core : Nat) (ch : Nat)
  /-- COPY_COMMAND_END (R245): A copy-engine command ends: stream performed, record written, barrier added. -/
  | copyCommandEnd (core : Nat) (ch : Nat)
  /-- ENGINE_TRANSLATION_STALL (R246): A command meets a translation fault, stalls its channel and posts a KIND 2 record. -/
  | engineTranslationStall (core : Nat) (ch : Nat)
  /-- SAMP (R284): Samples a token from an ldrain record. -/
  | samp (o : SGPX)
  /-- RNG (R283): Returns two words of the Philox generator. -/
  | rng (o : SGPXH)
  /-- REP (R278): Reads or clears a slot's repetition detector. -/
  | repW (o : SGXC)
  /-- SEQNEXT (R274): Copies a group's plan to a buffer. -/
  | seqnext (o : SGPX)
  /-- TOKDLV (R275): Commits a token to a slot and delivers or parks it. -/
  | tokdlv (o : SGX)
  /-- SEQSTOP (R277): Ends a slot at the next boundary with reason SOFT. -/
  | seqstop (o : SGXK)
  /-- PGOP_ALLOC (R259): Allocates a page descriptor and frame. -/
  | pgopAlloc (o : SGPX)
  /-- PGOP_REF (R259): Increments a page's reference count. -/
  | pgopRef (o : SGPX)
  /-- PGOP_UNREF (R259): Decrements a page's reference count, freeing at zero. -/
  | pgopUnref (o : SGPX)
  /-- PGOP_COW (R259): Prepares a write, copying a shared page to a new one. -/
  | pgopCow (o : SGPX)
  /-- PGOP_EVICT (R259): Moves a page from HBM4 to LPDDR-6. -/
  | pgopEvict (o : SGPX)
  /-- PGOP_PROMOTE (R259): Moves a page to HBM4. -/
  | pgopPromote (o : SGPX)
  /-- PGOP_SEND (R357): Hands a page to a peer node over the fabric. -/
  | pgopSend (o : SGPX)
  /-- CADDY_DATA_MOVE_DONE (R259): A page data move completes, clears MOVING and adds PAGEB to BAR. -/
  | caddyDataMoveDone (die : Nat) (n : Nat)
  /-- AUTOMATIC_EVICTION (R258): Free HBM4 frames fall below the low watermark and Caddy evicts oldest pages. -/
  | automaticEviction (die : Nat)
  /-- TSET (R288): Makes a tree node valid with a parent. -/
  | tset (o : SGINAB)
  /-- TANC (R288): Returns the ancestor mask of a node. -/
  | tanc (o : SGDAN2)
  /-- TDEPTH (R288): Returns the number of ancestors of a node. -/
  | tdepth (o : SGDAN2)
  /-- TCLR (R288): Invalidates every node of a tree register. -/
  | tclr (o : SGN)
  /-- SYSR (R73): Reads a system register. -/
  | sysr (o : SGRD)
  /-- SYSW (R73): Writes the writable fields of a system register. -/
  | sysw (o : SGRD)
  /-- SLACK_IMM (R74): Sets SLACK from a 12-bit immediate. -/
  | slackImm (o : SGI)
  /-- SLACK_REG (R74): Sets SLACK from an s register. -/
  | slackReg (o : SGD)
  /-- RDCNT (R75): Reads a counter such as CYC, LDO, STO or ENGO. -/
  | rdcnt (o : SGRD)
  /-- WORKGROUP_EXIT (R88): A workgroup's last fibre ends and its accesses complete; resources are released. -/
  | workgroupExit (wk : Nat)
  /-- HOST_LAUNCH_QUEUE_ENTRY (R301): An entry is taken from a host launch queue. -/
  | hostLaunchQueueEntry (qid : Nat)
  /-- LAUNCH_DISPATCH (R305): A launch whose predecessors are satisfied is dispatched to placers. -/
  | launchDispatch (qid : Nat)
  /-- PLACER_ROUND (R310): A placer round grants the first fitting head unit. -/
  | placerRound (die : Nat)
  /-- HEAD_RESERVATION (R311): After 64 back-fills a blocked head reserves a cluster. -/
  | headReservation (die : Nat) (qid : Nat)
  /-- TIME_SLICE_EXPIRY (R314): A launch's slice clock reaches TSLICE and its workgroups are pre-empted. -/
  | timeSliceExpiry (launch : Nat) (cluster : Nat)
  /-- CONTEXT_SAVE (R327): A workgroup is stopped, drained and written to a context image. -/
  | contextSave (wk : Nat)
  /-- CONTEXT_RESTORE (R331): A saved unit is rebuilt on cores of its die. -/
  | contextRestore (wk : Nat)
  /-- WATCHDOG_EXPIRY (R321): A workgroup exceeds the tenant watchdog limit and takes WATCHDOG. -/
  | watchdogExpiry (wk : Nat)
  /-- UNIT_TEARDOWN (R324): A fatal fault tears down the faulting unit. -/
  | unitTeardown (wk : Nat)
  /-- RESOLUTION_LIMIT_EXPIRY (R318): The tenant's resolution limit passes and the parked fault is declared unresolved. -/
  | resolutionLimitExpiry (wk : Nat) (fid : Nat)
  /-- TOKEN_PASS (R333): The holder passes the token on sleep or exit. -/
  | tokenPass (launch : Nat)
  /-- TOKEN_RECEIPT (R334): A resident quiescent workgroup receives the token and P is updated. -/
  | tokenReceipt (launch : Nat)
  /-- DETERMINISTIC_SAVE (R334): Resident workgroups are saved so the awaited token holder can be placed. -/
  | deterministicSave (launch : Nat)
  /-- SUBMISSION_TAIL_FIRE (R263): A submission queue's TAIL watch fires or is polled. -/
  | submissionTailFire (q : Nat)
  /-- SUBMIT_RECORD (R264): A submit record is consumed and checked into a slot. -/
  | submitRecord (q : Nat)
  /-- CANCEL_RECORD (R264): A cancel record is consumed and marks matching requests. -/
  | cancelRecord (q : Nat)
  /-- ITERATION_FORM (R269): Kettle forms a model iteration, writes its block and launches its template. -/
  | iterationForm (model : Nat)
  /-- CONS_WATCH_FIRE (R279): A ring's CONS watch fires showing room. -/
  | consWatchFire (slot : Nat)
  /-- PARK_LIMIT (R279): A slot parked PARKLIM iterations raises a firmware event. -/
  | parkLimit (slot : Nat)
  /-- POLL_TIMER (R281): Polled words are read every 16 µs while no iteration forms. -/
  | pollTimer
  /-- WR (R350): A Hawser write arrives at the target gateway and is performed. -/
  | fabWr (p : Packet)
  /-- WRREL (R349): A fabric release store arrives and is performed. -/
  | fabWrrel (p : Packet)
  /-- RD (R350): A fabric read arrives and is answered with RDRSP. -/
  | fabRd (p : Packet)
  /-- RDRSP (R356): Read data returns to the source. -/
  | fabRdrsp (p : Packet)
  /-- AT (R352): A fabric atomic arrives and is performed at the home slice. -/
  | fabAt (p : Packet)
  /-- ATRSP (R352): An atomic's fetched value returns to the source. -/
  | fabAtrsp (p : Packet)
  /-- DONE (R349): A performance acknowledgement reaches the source gateway. -/
  | fabDone (p : Packet)
  /-- ERR (R356): An error notice reaches the source and is reported. -/
  | fabErr (p : Packet)
  /-- PGXFER (R357): A page part arrives at the target Caddy. -/
  | fabPgxfer (p : Packet)
  /-- PGACK (R357): The target's page id returns and the sender's descriptor becomes peer. -/
  | fabPgack (p : Packet)
  /-- PGREL (R358): Releases the peer page at the target. -/
  | fabPgrel (p : Packet)
  /-- PGRD (R358): Reads from a peer page at the target. -/
  | fabPgrd (p : Packet)
  /-- CUSTODY_ACK (R347): The next hop acknowledges custody of a packet. -/
  | custodyAck (n : Nat)
  /-- CUSTODY_RESEND (R347): After 2 µs without custody a hop re-sends with RESENT. -/
  | custodyResend (n : Nat)
  /-- CUSTODY_TIMEOUT (R347): After the seventh re-send the hop sends ERR TIMEOUT. -/
  | custodyTimeout (n : Nat)
  /-- PACKAGE_COLD_RESET (R370): Resets everything including DRAM contents. -/
  | packageColdReset
  /-- PACKAGE_WARM_RESET (R370): Resets logic and SRAM, keeping DRAM. -/
  | packageWarmReset
  /-- DIE_RESET (R370): Resets one die's cores, L2, Caddy and gateway. -/
  | dieReset (die : Nat)
  /-- CLUSTER_RESET (R370): Resets a cluster's cores and translation unit. -/
  | clusterReset (cluster : Nat)
  /-- CORE_RESET (R370): Resets one core's stores and L1. -/
  | coreReset (core : Nat)
  /-- MATRIX_ENGINE_RESET (R370): Discards matrix queues and the running command. -/
  | matrixEngineReset (core : Nat)
  /-- COPY_ENGINE_RESET (R370): Resets copy channels and write pointers. -/
  | copyEngineReset (core : Nat)
  /-- CADDY_RESET (R370): Aborts Caddy operations in flight. -/
  | caddyReset (die : Nat)
  /-- KETTLE_RESET (R370): Aborts the iteration in progress. -/
  | kettleReset
  /-- FABRIC_PORT_RESET (R370): Resets a port's link and custody buffers. -/
  | fabricPortReset (port : Nat)
  /-- HOST_FUNCTION_RESET (R370): FLR or VF disable cancels the tenant's launches. -/
  | hostFunctionReset (vf : Nat)
  /-- SAMOVAR_CORE_RESET (R370): Resets one Samovar core and re-queues its services. -/
  | samovarCoreReset (core : Nat)
  /-- POWER_STATE_CHANGE (R371): Moves between P0, P1, core idle, die retention and off. -/
  | powerStateChange (target : PowerTarget)
  /-- POWER_CAP_WRITE (R375): The baseboard writes the module power cap. -/
  | powerCapWrite (watts : Nat)
  /-- THERMAL_THROTTLE (R375): Cap exceeded or 105 °C moves clusters to P1. -/
  | thermalThrottle (die : Nat)
  /-- THERMAL_DIE_RESET (R375): At 115 °C Samovar resets the die. -/
  | thermalDieReset (die : Nat)
  /-- BOOT (R367): The boot ROM verifies and loads an image from a bank. -/
  | bootRom
  /-- RECOVERY_IMAGE (R367): The PF mailbox accepts a recovery image after both banks fail. -/
  | recoveryImage (img : Image)
  /-- REQUEST_UPDATE (R368): PLDM Type 5 RequestUpdate. -/
  | requestUpdate
  /-- PASS_COMPONENT_TABLE (R368): PLDM Type 5 PassComponentTable. -/
  | passComponentTable
  /-- UPDATE_COMPONENT (R368): PLDM Type 5 UpdateComponent. -/
  | updateComponent (img : Image)
  /-- TRANSFER_COMPLETE (R368): PLDM Type 5 TransferComplete. -/
  | transferComplete
  /-- VERIFY_COMPLETE (R368): PLDM Type 5 VerifyComplete; a failing image is erased. -/
  | verifyComplete
  /-- APPLY_COMPLETE (R368): PLDM Type 5 ApplyComplete. -/
  | applyComplete
  /-- ACTIVATE_FIRMWARE (R368): Switches banks at a quiet point under a hold. -/
  | activateFirmware
  /-- UPDATE_READY_TIMEOUT (R368): A new image not ready within 1 ms is abandoned. -/
  | updateReadyTimeout
  /-- SECURITY_VERSION_FUSE (R368): After 24 hours the security version is fused. -/
  | securityVersionFuse
  /-- GET_VERSION (R362): SPDM GET_VERSION. -/
  | getVersion
  /-- GET_CAPABILITIES (R362): SPDM GET_CAPABILITIES. -/
  | getCapabilities
  /-- NEGOTIATE_ALGORITHMS (R362): SPDM NEGOTIATE_ALGORITHMS. -/
  | negotiateAlgorithms (offer : AlgOffer)
  /-- GET_DIGESTS (R362): SPDM GET_DIGESTS. -/
  | getDigests
  /-- GET_CERTIFICATE (R362): SPDM GET_CERTIFICATE. -/
  | getCertificate (slot : Nat)
  /-- CHALLENGE (R362): SPDM CHALLENGE. -/
  | spdmChallenge (nonce : Nat)
  /-- GET_MEASUREMENTS (R362): SPDM GET_MEASUREMENTS. -/
  | getMeasurements (index : Nat)
  /-- KEY_EXCHANGE (R362): SPDM KEY_EXCHANGE. -/
  | keyExchange (session : Nat)
  /-- FINISH (R362): SPDM FINISH. -/
  | spdmFinish (session : Nat)
  /-- END_SESSION (R362): SPDM END_SESSION. -/
  | endSession (session : Nat)
  /-- IDE_STREAM_INSECURE (R362): An IDE stream turns insecure and its tenants' launches are cancelled. -/
  | ideStreamInsecure (stream : Nat)
  /-- GET_SENSOR_READING (R369): PLDM Type 2 numeric sensor read. -/
  | getSensorReading (id : BitVec 16)
  /-- SET_ASID_ROOT (R365): Binds a tenant's ASID and level-A root. -/
  | setAsidRoot (who : Requester) (tenant : Nat) (asid : BitVec 16) (root : Nat)
  /-- INVALIDATE_TRANSLATION (R365): Discards TLB entries and L1 lines of an ASID range. -/
  | invalidateTranslation (who : Requester) (asid : BitVec 16) (lo : Nat) (len : Nat)
  /-- RESOLVE_FAULT (R318): Firmware makes a mapping valid and replays a parked fibre. -/
  | resolveFault (who : Requester) (place : Parked) (entries : List PteWrite)
  /-- DECLARE_UNRESOLVED (R318): Firmware raises a parked fault again as unresolved. -/
  | declareUnresolved (who : Requester) (place : Parked)
  /-- REGISTER_MODEL (R365): Writes Caddy's model table and Kettle's model entry. -/
  | registerModel (who : Requester) (p : ModelParams)
  /-- REGISTER_QUEUE (R365): Registers a submission or launch queue. -/
  | registerQueue (who : Requester) (p : QueueParams)
  /-- SET_BUDGETS (R365): Sets tenant budgets and watchdog limit. -/
  | setBudgets (who : Requester) (p : BudgetParams)
  /-- FABRIC_SETUP (R365): Writes node map, partitions, windows and counters. -/
  | fabricSetup (who : Requester) (p : FabricWrite)
  /-- PORT_PERSONALITY_SELECT (R2): Selects a port personality; refused for Hawser on a KN4-480M-E. -/
  | portPersonalitySelect (port : Nat) (hawser : Bool)
  /-- CANCEL_LAUNCH (R325): Cancels a launch by identifier with status CANCELLED. -/
  | cancelLaunch (who : Requester) (launch : Nat)
  /-- SIZE_POOLS (R365): Sizes Caddy's tables, pools, arenas and watermarks. -/
  | sizePools (who : Requester) (p : PoolParams)
  /-- DEBUG_TOKEN_REQUEST (R372): Requests a debug state, granted or refused by lifecycle. -/
  | debugTokenRequest (target : DebugState) (tenant : Nat)
  /-- LIFECYCLE_CHANGE (R372): Requests a lifecycle transition. -/
  | lifecycleChange (target : Lifecycle)
  /-- HOST_WRITE_TLP (R361): A host write TLP is performed, poisoning sectors when EP is set. -/
  | hostWriteTlp (fn : HostFn) (pa : Nat) (bytes : List (BitVec 8)) (ep : Bool)
  /-- HOST_READ_TLP (R361): A host read TLP is completed, with EP for poisoned sectors. -/
  | hostReadTlp (fn : HostFn) (pa : Nat) (len : Nat)
  /-- HOST_ATOMICOP (R361): A host PCIe AtomicOp is performed with the KN4 as completer. -/
  | hostAtomicop (fn : HostFn) (op : HostAtomic) (wide : Bool) (pa : Nat) (x : BitVec 64) (y : BitVec 64)
  /-- MMIO_REGISTER_WRITE (R361): A write to a BAR0 register without a row of its own. -/
  | mmioRegisterWrite (fn : HostFn) (off : Nat) (val : BitVec 64)
  /-- RGFETCH (R364): Samovar copies the next ring entry and advances HEAD. -/
  | rgfetch (o : TSD)
  /-- BFEXT (R364): Samovar 64-bit bit-field extract. -/
  | bfext (o : TSD)
  /-- SIGWAIT (R364): Samovar sleeps until a word changes. -/
  | sigwait (o : TSD)
  /-- DISPATCH (R364): Samovar offers a job card to a queue. -/
  | dispatch (o : TSD)
  /-- LINK_LEVEL_RETRY (R341): A flit received with a failed CRC on a splice link or Hawser port is re-sent by the link and never delivered twice. -/
  | linkLevelRetry (link : Nat)
  /-- BADPKT_DROP (R346): A Hawser packet with a reserved OP, an HCRC mismatch or a nonzero reserved field is dropped and an ERR with reason BADPKT is sent. -/
  | badpktDrop (header : List (BitVec 8))
  /-- UET_UNSUPPORTED_PACKET_DROP (R359): An Ultra Ethernet packet asking for an unsupported mode or feature is dropped and counted in telemetry. -/
  | uetUnsupportedPacketDrop (port : Nat)
  /-- TRAINING_STEP_COMPLETE (R374): A training step of bring-up completes or fails, moving the part into reduced service, full service or boot status REDUCED. -/
  | trainingStepComplete (ok : Bool)
  /-- RESET_COMPLETE (R370): A reset level finishes and the reset unit, such as a die, returns to service. -/
  | resetComplete (unit : ResetUnit)
  /-- POWER_LOSS (R368): Module power is lost, ending all activity; the next boot chooses the bank by the state the update had reached. -/
  | powerLoss
  /-- IMAGE_REPORTS_READY (R368): The newly activated image reports ready and the admission and acceptance hold is released. -/
  | imageReportsReady
  /-- IDE_KM_REQUEST (R362): An IDE_KM message sets keys and establishes an IDE stream, letting covered virtual functions accept TLPs again. -/
  | ideKmRequest (stream : Nat) (key : Nat) (vfs : BitVec 16)
  deriving DecidableEq, Repr

end Sys2Proof
end

