-- ==== Sys2Proof/WellFormed.lean ====
section
/-! DEFINITION. Which instructions are words of the KN4: the checks of decoding that look at the word alone
(02 R40 to R44, R48). The checks that need the fibre (WINDOW, the limits against WIN.W and ROTS) and the
PRIVILEGE check of R15 are made when the instruction executes. -/

namespace Sys2Proof

/-- A condition code of Table 2-4 that is not reserved. -/
def cmpOk (k : BitVec 3) : Bool := k.toNat ≤ 5

/-- An even register number (R11, R41). -/
def even (r : BitVec 6) : Bool := r.toNat % 2 == 0

/-- A pair destination: even and not s0 (R11, R41). -/
def pairDst (r : BitVec 6) : Bool := even r && r != 0

/-- An L-set SZ with its register group (R40, R41). -/
def laneSize (z : BitVec 3) (d : BitVec 6) : Bool :=
  z != 7 && (z != 5 || even d) && (z != 6 || d.toNat % 4 == 0)

/-- A U-set SZ with its register group (R40, R41). -/
def uniSize (z : BitVec 3) (d : BitVec 6) : Bool := z.toNat ≤ 5 && (z != 5 || even d)

/-- A store has no sign-extending size (R40). -/
def storeSize (z : BitVec 3) : Bool := z != 1 && z != 3

/-- A scope of Table 2-4 that is not reserved. -/
def scopeOk (k : BitVec 3) : Bool := k.toNat ≤ 4

/-- A system-register number of Table 1-2, or a firmware register (R15). -/
def sysNumOk (r : BitVec 9) : Bool :=
  let n := r.toNat
  n ≤ 0x00C || (0x010 ≤ n && n ≤ 0x01A) || 0x100 ≤ n

/-- The 64-bit system registers of Table 1-2: CYC, RETC, TRAPPC, TADDR. -/
def sysWide (r : BitVec 9) : Bool :=
  let n := r.toNat
  n == 0x008 || n == 0x009 || n == 0x018 || n == 0x01A

/-- The instruction passes every check of R40 to R44 and R48 that the word alone decides. Steps without an
encoding have no such check. -/
def Instr.wf (i : Instr) : Bool :=
  match i with
  | .lCmpI32 o => cmpOk o.k && o.p != 0
  | .lCmpN32 o => cmpOk o.k && o.p != 0
  | .lFcmp o => cmpOk o.k && o.p != 0
  | .lFcmpUn o => cmpOk o.k && o.p != 0
  | .lShup o => o.n != 0
  | .lShdn o => o.n != 0
  | .lShupWrap o => o.n != 0
  | .lShdnWrap o => o.n != 0
  | .lScanAddI32 o => o.u == 1 || o.b == 0
  | .lScanAddF32 o => o.u == 1 || o.b == 0
  | .lScanMinI32 o => o.u == 1 || o.b == 0
  | .lScanMaxI32 o => o.u == 1 || o.b == 0
  | .lRedAddI32 o => o.u == 1 || o.b == 0
  | .lRedAddF32 o => o.u == 1 || o.b == 0
  | .lRedAnd o => o.u == 1 || o.b == 0
  | .lRedOr o => o.u == 1 || o.b == 0
  | .lRedixMinI32 o => pairDst o.d
  | .lRedixMinN32 o => pairDst o.d
  | .lRedixMaxI32 o => pairDst o.d
  | .lRedixMaxN32 o => pairDst o.d
  | .uAddi64 o => pairDst o.d
  | .tanc o => pairDst o.d
  | .lVoteAny o => o.c != 0
  | .lVoteAll o => o.c != 0
  | .qgive o => o.c != 0
  | .qtry o => o.c != 0
  | .tokq o => o.c != 0
  | .lPset o => o.p != 0
  | .lLd o => even o.b && laneSize o.z o.d
  | .lLdNc o => even o.b && laneSize o.z o.d
  | .lSt o => even o.b && laneSize o.z o.d && storeSize o.z
  | .lStNc o => even o.b && laneSize o.z o.d && storeSize o.z
  | .lLdAcq o => even o.b && scopeOk o.k
  | .lStRel o => even o.b && scopeOk o.k
  | .uLdAcq o => even o.b && scopeOk o.k
  | .uStRel o => even o.b && scopeOk o.k
  | .lAtom o => even o.b
  | .lAtomxXchg o => even o.b
  | .lAtomxAddF32 o => even o.b
  | .lRatom o => even o.b
  | .lRatomAddF32 o => even o.b
  | .lPf o => even o.b
  | .uAtom o => even o.b
  | .uAtomxXchg o => even o.b
  | .uAtomxAddF32 o => even o.b
  | .lAtomxCas o => even o.b && even o.d
  | .uAtomxCas o => even o.b && even o.d
  | .uCmpI32 o => cmpOk o.k && o.c != 0
  | .uCmpN32 o => cmpOk o.k && o.c != 0
  | .uFcmp o => cmpOk o.k && o.c != 0
  | .uFcmpUn o => cmpOk o.k && o.c != 0
  | .uCmpi o => cmpOk o.k && o.c != 0
  | .uAdd64 o => pairDst o.d && even o.a && (o.i == 1 || even o.b)
  | .uSub64 o => pairDst o.d && even o.a && (o.i == 1 || even o.b)
  | .uCmp64 o => cmpOk o.k && o.c != 0 && even o.a && (o.i == 1 || even o.b)
  | .jr o => even o.a
  | .callr o => even o.a
  | .fork o => even o.a
  | .wb o => even o.a
  | .inv o => even o.a
  | .smap o => even o.a
  | .tkwait o => even o.a
  | .tkpass o => even o.a
  | .bcadd o => even o.a
  | .bcphase o => even o.a
  | .rotset o => o.i == 0 || (o.b == 0 || o.b == 8 || o.b == 16 || o.b == 32)
  | .vgrow o => o.i == 0 || (1 ≤ o.b.toNat && o.b.toNat ≤ 8)
  | .vshrink o => o.i == 0 || (1 ≤ o.b.toNat && o.b.toNat ≤ 8)
  | .uLd o => even o.b && uniSize o.z o.d && (o.z != 5 || o.d != 0)
  | .uSt o => even o.b && uniSize o.z o.d && storeSize o.z
  | .barArrive o => o.i == 0 || o.b.toNat < 16
  | .barWait o => o.i == 0 || o.b.toNat < 16
  | .barSync o => o.i == 0 || o.b.toNat < 16
  | .knotArrive o => o.i == 0 || o.b.toNat < 4
  | .knotWait o => o.i == 0 || o.b.toNat < 4
  | .knotSync o => o.i == 0 || o.b.toNat < 4
  | .qbind o => 48 ≤ o.d.toNat && o.d.toNat ≤ 55
  | .tkpoll o => o.c != 0 && even o.a
  | .watchArm o => even o.a && cmpOk o.k
  | .wwait o => even o.d
  | .post o => even o.d && even o.a && (o.i == 0 || o.b.toNat ≤ 2)
  | .bcinit o => even o.a && (o.i == 0 || o.b.toNat < 32)
  | .bcwait o => even o.a && (o.i == 0 || o.b.toNat < 2)
  | .mma o => even o.p && even o.x
  | .pgopAlloc o => even o.p && even o.x
  | .pgopRef o => even o.p && even o.x
  | .pgopUnref o => even o.p && even o.x
  | .pgopCow o => even o.p && even o.x
  | .pgopEvict o => even o.p && even o.x
  | .pgopPromote o => even o.p && even o.x
  | .pgopSend o => even o.p && even o.x
  | .mflag o => o.t == 0 || o.k == 0
  | .cpy o => even o.p
  | .cpyr o => even o.p
  | .gath o => even o.p
  | .qdual o => even o.p
  | .ldrain o => even o.p
  | .cpyMc o => even o.p && o.x != 0
  | .samp o => pairDst o.p && pairDst o.x
  | .rng o => pairDst o.p && pairDst o.x
  | .seqnext o => pairDst o.p && pairDst o.x
  | .repW o => pairDst o.x
  | .tokdlv o => pairDst o.x
  | .seqstop o => pairDst o.x
  | .sysr o => sysNumOk o.r && (!sysWide o.r || pairDst o.d)
  | .sysw o => sysNumOk o.r && (!sysWide o.r || even o.d)
  | .rdcnt o => o.r.toNat ≤ 4 && (2 ≤ o.r.toNat || pairDst o.d)
  | .lAdd _ | .lAddSatI32 _ | .lAddSatN32 _ | .lSub _ | .lSubSatI32 _ | .lSubSatN32 _ | .lMul _ | .lMulhI32 _
  | .lMulhN32 _ | .lMad _ | .lMinI32 _ | .lMinN32 _ | .lMaxI32 _ | .lMaxN32 _ | .lAnd _ | .lOr _ | .lXor _
  | .lAndn _ | .lShl _ | .lShr _ | .lSar _ | .lRol _ | .lPopc _ | .lClz _ | .lBrev _ | .lFfs _ | .lBfxI32 _
  | .lBfxN32 _ | .lBfi _ | .lSel _ | .lAminI32 _ | .lAminN32 _ | .lAmaxI32 _ | .lAmaxN32 _ | .lMov _
  | .lSid _ | .lLid _ | .lFadd _ | .lFsub _ | .lFmul _ | .lFfma _ | .lFmin _ | .lFmax _ | .lFminNan _
  | .lFmaxNan _ | .lFrcp _ | .lFrsq _ | .lFex2 _ | .lFlg2 _ | .lCvtiI32F32 _ | .lCvtiN32F32 _
  | .lCvtiF32I32 _ | .lCvtiF32N32 _ | .lCvtfBf16x2F32 _ | .lCvtfF32Bf16 _ | .lCvtfF16x2F32 _ | .lCvtfF32F16 _
  | .lCvt8E4m3F32 _ | .lCvt8E5m2F32 _ | .lCvt8F32E4m3 _ | .lCvt8F32E5m2 _ | .lHadd2Bf16 _ | .lHadd2F16 _
  | .lHmul2Bf16 _ | .lHmul2F16 _ | .lHfma2Bf16 _ | .lHfma2F16 _ | .lFabs _ | .lFneg _ | .lFcopysign _
  | .lXch _ | .lXchImm _ | .lXchXor _ | .lPick _ | .lBallot _ | .lDbr _ | .lDmark _ | .lJoin _ | .lExit _
  | .lPget _ | .lAddi _ | .lMovi _ | .lMuli _ | .uAdd _ | .uAddSatI32 _ | .uAddSatN32 _ | .uSub _
  | .uSubSatI32 _ | .uSubSatN32 _ | .uMul _ | .uMulhI32 _ | .uMulhN32 _ | .uMad _ | .uMinI32 _ | .uMinN32 _
  | .uMaxI32 _ | .uMaxN32 _ | .uAnd _ | .uOr _ | .uXor _ | .uAndn _ | .uShl _ | .uShr _ | .uSar _ | .uRol _
  | .uPopc _ | .uClz _ | .uBrev _ | .uFfs _ | .uBfxI32 _ | .uBfxN32 _ | .uBfi _ | .uSel _ | .uAminI32 _
  | .uAminN32 _ | .uAmaxI32 _ | .uAmaxN32 _ | .uDivI32 _ | .uDivN32 _ | .uRemI32 _ | .uRemN32 _ | .uFadd _
  | .uFsub _ | .uFmul _ | .uFfma _ | .uFmin _ | .uFmax _ | .uFminNan _ | .uFmaxNan _ | .uFrcp _ | .uFrsq _
  | .uFex2 _ | .uFlg2 _ | .uCvtiI32F32 _ | .uCvtiN32F32 _ | .uCvtiF32I32 _ | .uCvtiF32N32 _ | .uAddi _
  | .uLi _ | .uLui _ | .uLit _ | .uMuli _ | .br _ | .call _ | .ret _ | .loopW _ | .rotbase _
  | .forkPlacement _ _ | .fctlEnd _ | .yield _ | .vgrowGrant _ _ | .coreSpill _ | .spillRestore _ _ | .trap _
  | .tret _ | .brk _ | .nop _ | .lateTrap _ _ | .accessCompletion _ _ | .sunmap _ | .lazyStashWriteBack _ _
  | .cwaitLd _ | .cwaitSt _ | .cwaitEng _ | .qclose _ | .disarm _ | .tokpass _ | .trig _ | .mmaStart _
  | .mmaGranule _ | .mmaCompletion _ | .mswap _ | .mclr _ | .cpyrApply _ | .copyGranule _ _
  | .copyCommandEnd _ _ | .engineTranslationStall _ _ | .caddyDataMoveDone _ _ | .automaticEviction _
  | .tset _ | .tdepth _ | .tclr _ | .slackImm _ | .slackReg _ | .workgroupExit _ | .hostLaunchQueueEntry _
  | .launchDispatch _ | .placerRound _ | .headReservation _ _ | .timeSliceExpiry _ _ | .contextSave _
  | .contextRestore _ | .watchdogExpiry _ | .unitTeardown _ | .resolutionLimitExpiry _ _ | .tokenPass _
  | .tokenReceipt _ | .deterministicSave _ | .submissionTailFire _ | .submitRecord _ | .cancelRecord _
  | .iterationForm _ | .consWatchFire _ | .parkLimit _ | .pollTimer | .fabWr _ | .fabWrrel _ | .fabRd _
  | .fabRdrsp _ | .fabAt _ | .fabAtrsp _ | .fabDone _ | .fabErr _ | .fabPgxfer _ | .fabPgack _ | .fabPgrel _
  | .fabPgrd _ | .custodyAck _ | .custodyResend _ | .custodyTimeout _ | .packageColdReset | .packageWarmReset
  | .dieReset _ | .clusterReset _ | .coreReset _ | .matrixEngineReset _ | .copyEngineReset _ | .caddyReset _
  | .kettleReset | .fabricPortReset _ | .hostFunctionReset _ | .samovarCoreReset _ | .powerStateChange _
  | .powerCapWrite _ | .thermalThrottle _ | .thermalDieReset _ | .bootRom | .recoveryImage _ | .requestUpdate
  | .passComponentTable | .updateComponent _ | .transferComplete | .verifyComplete | .applyComplete
  | .activateFirmware | .updateReadyTimeout | .securityVersionFuse | .getVersion | .getCapabilities
  | .negotiateAlgorithms _ | .getDigests | .getCertificate _ | .spdmChallenge _ | .getMeasurements _
  | .keyExchange _ | .spdmFinish _ | .endSession _ | .ideStreamInsecure _ | .getSensorReading _
  | .setAsidRoot _ _ _ _ | .invalidateTranslation _ _ _ _ | .resolveFault _ _ _ | .declareUnresolved _ _
  | .registerModel _ _ | .registerQueue _ _ | .setBudgets _ _ | .fabricSetup _ _ | .portPersonalitySelect _ _
  | .cancelLaunch _ _ | .sizePools _ _ | .debugTokenRequest _ _ | .lifecycleChange _ | .hostWriteTlp _ _ _ _
  | .hostReadTlp _ _ _ | .hostAtomicop _ _ _ _ _ _ | .mmioRegisterWrite _ _ _ | .rgfetch _ | .bfext _
  | .sigwait _ | .dispatch _ | .linkLevelRetry _ | .badpktDrop _ | .uetUnsupportedPacketDrop _
  | .trainingStepComplete _ | .resetComplete _ | .powerLoss | .imageReportsReady | .ideKmRequest _ _ _ => true

end Sys2Proof
end

