-- ==== Sys2Proof/Decode.lean ====
section
/-! DEFINITION. Decoding, total on any words, rejecting by name (02 R35 to R49; 21 R364 for Samovar), and the
encoder, written from the same formats. -/

namespace Sys2Proof

/-- The faults of decoding that the word alone decides (02 R48, Table 2-7). -/
inductive DecodeError where
  /-- a reserved major or an FN value not assigned for its major -/
  | illegalOp
  /-- a reserved field value or a nonzero must-be-zero bit -/
  | reservedField
  /-- fewer bytes than an instruction has -/
  | short
  deriving DecidableEq, Repr

/-- What the maps of Tables 2-5 and 2-6 say of a word: no instruction, or the row of its major and FN, where
`none` means that a must-be-zero bit or a reserved small field rejects it. -/
inductive Mapped where
  | illegal
  | row (r : Option Instr)
  deriving DecidableEq, Repr

/-- The n-bit field of a word whose low bit is lo. -/
def fld (w : Word) (lo n : Nat) : BitVec n := w.extractLsb' lo n

/-- Table 2-5: the L-set map. -/
def mapL (w : Word) : Mapped :=
  match (fld w 21 6).toNat with
  | 0x00 => match (fld w 19 2).toNat with
    | 0 => .row (some (.lAdd ⟨fld w 29 2, fld w 27 2, fld w 18 1, fld w 12 6, fld w 6 6, fld w 0 6⟩))
    | 1 => .row (some (.lAddSatI32 ⟨fld w 29 2, fld w 27 2, fld w 18 1, fld w 12 6, fld w 6 6, fld w 0 6⟩))
    | 2 => .row (some (.lAddSatN32 ⟨fld w 29 2, fld w 27 2, fld w 18 1, fld w 12 6, fld w 6 6, fld w 0 6⟩))
    | _ => .illegal
  | 0x01 => match (fld w 19 2).toNat with
    | 0 => .row (some (.lSub ⟨fld w 29 2, fld w 27 2, fld w 18 1, fld w 12 6, fld w 6 6, fld w 0 6⟩))
    | 1 => .row (some (.lSubSatI32 ⟨fld w 29 2, fld w 27 2, fld w 18 1, fld w 12 6, fld w 6 6, fld w 0 6⟩))
    | 2 => .row (some (.lSubSatN32 ⟨fld w 29 2, fld w 27 2, fld w 18 1, fld w 12 6, fld w 6 6, fld w 0 6⟩))
    | _ => .illegal
  | 0x02 => match (fld w 19 2).toNat with
    | 0 => .row (some (.lMul ⟨fld w 29 2, fld w 27 2, fld w 18 1, fld w 12 6, fld w 6 6, fld w 0 6⟩))
    | 1 => .row (some (.lMulhI32 ⟨fld w 29 2, fld w 27 2, fld w 18 1, fld w 12 6, fld w 6 6, fld w 0 6⟩))
    | 2 => .row (some (.lMulhN32 ⟨fld w 29 2, fld w 27 2, fld w 18 1, fld w 12 6, fld w 6 6, fld w 0 6⟩))
    | _ => .illegal
  | 0x03 => match (fld w 19 2).toNat with
    | 0 => .row (some (.lMad ⟨fld w 29 2, fld w 27 2, fld w 18 1, fld w 12 6, fld w 6 6, fld w 0 6⟩))
    | _ => .illegal
  | 0x04 => match (fld w 19 2).toNat with
    | 0 => .row (some (.lMinI32 ⟨fld w 29 2, fld w 27 2, fld w 18 1, fld w 12 6, fld w 6 6, fld w 0 6⟩))
    | 1 => .row (some (.lMinN32 ⟨fld w 29 2, fld w 27 2, fld w 18 1, fld w 12 6, fld w 6 6, fld w 0 6⟩))
    | _ => .illegal
  | 0x05 => match (fld w 19 2).toNat with
    | 0 => .row (some (.lMaxI32 ⟨fld w 29 2, fld w 27 2, fld w 18 1, fld w 12 6, fld w 6 6, fld w 0 6⟩))
    | 1 => .row (some (.lMaxN32 ⟨fld w 29 2, fld w 27 2, fld w 18 1, fld w 12 6, fld w 6 6, fld w 0 6⟩))
    | _ => .illegal
  | 0x06 => match (fld w 19 2).toNat with
    | 0 => .row (some (.lAnd ⟨fld w 29 2, fld w 27 2, fld w 18 1, fld w 12 6, fld w 6 6, fld w 0 6⟩))
    | 1 => .row (some (.lOr ⟨fld w 29 2, fld w 27 2, fld w 18 1, fld w 12 6, fld w 6 6, fld w 0 6⟩))
    | 2 => .row (some (.lXor ⟨fld w 29 2, fld w 27 2, fld w 18 1, fld w 12 6, fld w 6 6, fld w 0 6⟩))
    | _ => .row (some (.lAndn ⟨fld w 29 2, fld w 27 2, fld w 18 1, fld w 12 6, fld w 6 6, fld w 0 6⟩))
  | 0x07 => match (fld w 19 2).toNat with
    | 0 => .row (some (.lShl ⟨fld w 29 2, fld w 27 2, fld w 18 1, fld w 12 6, fld w 6 6, fld w 0 6⟩))
    | 1 => .row (some (.lShr ⟨fld w 29 2, fld w 27 2, fld w 18 1, fld w 12 6, fld w 6 6, fld w 0 6⟩))
    | 2 => .row (some (.lSar ⟨fld w 29 2, fld w 27 2, fld w 18 1, fld w 12 6, fld w 6 6, fld w 0 6⟩))
    | _ => .row (some (.lRol ⟨fld w 29 2, fld w 27 2, fld w 18 1, fld w 12 6, fld w 6 6, fld w 0 6⟩))
  | 0x08 => match (fld w 19 2).toNat with
    | 0 => .row (if w &&& 0x4003f#32 = 0x0#32 then some (.lPopc ⟨fld w 29 2, fld w 27 2, fld w 12 6, fld w 6 6⟩) else none)
    | 1 => .row (if w &&& 0x4003f#32 = 0x0#32 then some (.lClz ⟨fld w 29 2, fld w 27 2, fld w 12 6, fld w 6 6⟩) else none)
    | 2 => .row (if w &&& 0x4003f#32 = 0x0#32 then some (.lBrev ⟨fld w 29 2, fld w 27 2, fld w 12 6, fld w 6 6⟩) else none)
    | _ => .row (if w &&& 0x4003f#32 = 0x0#32 then some (.lFfs ⟨fld w 29 2, fld w 27 2, fld w 12 6, fld w 6 6⟩) else none)
  | 0x09 => match (fld w 19 2).toNat with
    | 0 => .row (some (.lBfxI32 ⟨fld w 29 2, fld w 27 2, fld w 18 1, fld w 12 6, fld w 6 6, fld w 0 6⟩))
    | 1 => .row (some (.lBfxN32 ⟨fld w 29 2, fld w 27 2, fld w 18 1, fld w 12 6, fld w 6 6, fld w 0 6⟩))
    | _ => .illegal
  | 0x0a => match (fld w 19 2).toNat with
    | 0 => .row (some (.lBfi ⟨fld w 29 2, fld w 27 2, fld w 18 1, fld w 12 6, fld w 6 6, fld w 0 6⟩))
    | _ => .illegal
  | 0x0b => .row (some (.lSel ⟨fld w 29 2, fld w 27 2, fld w 19 2, fld w 18 1, fld w 12 6, fld w 6 6, fld w 0 6⟩))
  | 0x0c => match (fld w 19 2).toNat with
    | 0 => .row (some (.lCmpI32 ⟨fld w 29 2, fld w 27 2, fld w 18 1, fld w 15 3, fld w 12 3, fld w 6 6, fld w 0 6⟩))
    | 1 => .row (some (.lCmpN32 ⟨fld w 29 2, fld w 27 2, fld w 18 1, fld w 15 3, fld w 12 3, fld w 6 6, fld w 0 6⟩))
    | _ => .illegal
  | 0x0d => match (fld w 19 2).toNat with
    | 0 => .row (some (.lAminI32 ⟨fld w 29 2, fld w 27 2, fld w 18 1, fld w 12 6, fld w 6 6, fld w 0 6⟩))
    | 1 => .row (some (.lAminN32 ⟨fld w 29 2, fld w 27 2, fld w 18 1, fld w 12 6, fld w 6 6, fld w 0 6⟩))
    | 2 => .row (some (.lAmaxI32 ⟨fld w 29 2, fld w 27 2, fld w 18 1, fld w 12 6, fld w 6 6, fld w 0 6⟩))
    | _ => .row (some (.lAmaxN32 ⟨fld w 29 2, fld w 27 2, fld w 18 1, fld w 12 6, fld w 6 6, fld w 0 6⟩))
  | 0x0e => match (fld w 19 2).toNat with
    | 0 => .row (if w &&& 0xfc0#32 = 0x0#32 then some (.lMov ⟨fld w 29 2, fld w 27 2, fld w 18 1, fld w 12 6, fld w 0 6⟩) else none)
    | 1 => .row (if w &&& 0x40fff#32 = 0x0#32 then some (.lSid ⟨fld w 29 2, fld w 27 2, fld w 12 6⟩) else none)
    | 2 => .row (if w &&& 0x40fff#32 = 0x0#32 then some (.lLid ⟨fld w 29 2, fld w 27 2, fld w 12 6⟩) else none)
    | _ => .illegal
  | 0x10 => .row (some (.lFadd ⟨fld w 29 2, fld w 27 2, fld w 19 2, fld w 18 1, fld w 12 6, fld w 6 6, fld w 0 6⟩))
  | 0x11 => .row (some (.lFsub ⟨fld w 29 2, fld w 27 2, fld w 19 2, fld w 18 1, fld w 12 6, fld w 6 6, fld w 0 6⟩))
  | 0x12 => .row (some (.lFmul ⟨fld w 29 2, fld w 27 2, fld w 19 2, fld w 18 1, fld w 12 6, fld w 6 6, fld w 0 6⟩))
  | 0x13 => .row (some (.lFfma ⟨fld w 29 2, fld w 27 2, fld w 19 2, fld w 18 1, fld w 12 6, fld w 6 6, fld w 0 6⟩))
  | 0x14 => match (fld w 19 2).toNat with
    | 0 => .row (some (.lFmin ⟨fld w 29 2, fld w 27 2, fld w 18 1, fld w 12 6, fld w 6 6, fld w 0 6⟩))
    | 1 => .row (some (.lFmax ⟨fld w 29 2, fld w 27 2, fld w 18 1, fld w 12 6, fld w 6 6, fld w 0 6⟩))
    | 2 => .row (some (.lFminNan ⟨fld w 29 2, fld w 27 2, fld w 18 1, fld w 12 6, fld w 6 6, fld w 0 6⟩))
    | _ => .row (some (.lFmaxNan ⟨fld w 29 2, fld w 27 2, fld w 18 1, fld w 12 6, fld w 6 6, fld w 0 6⟩))
  | 0x15 => match (fld w 19 2).toNat with
    | 0 => .row (some (.lFcmp ⟨fld w 29 2, fld w 27 2, fld w 18 1, fld w 15 3, fld w 12 3, fld w 6 6, fld w 0 6⟩))
    | 1 => .row (some (.lFcmpUn ⟨fld w 29 2, fld w 27 2, fld w 18 1, fld w 15 3, fld w 12 3, fld w 6 6, fld w 0 6⟩))
    | _ => .illegal
  | 0x16 => match (fld w 19 2).toNat with
    | 0 => .row (if w &&& 0x4003f#32 = 0x0#32 then some (.lFrcp ⟨fld w 29 2, fld w 27 2, fld w 12 6, fld w 6 6⟩) else none)
    | 1 => .row (if w &&& 0x4003f#32 = 0x0#32 then some (.lFrsq ⟨fld w 29 2, fld w 27 2, fld w 12 6, fld w 6 6⟩) else none)
    | 2 => .row (if w &&& 0x4003f#32 = 0x0#32 then some (.lFex2 ⟨fld w 29 2, fld w 27 2, fld w 12 6, fld w 6 6⟩) else none)
    | _ => .row (if w &&& 0x4003f#32 = 0x0#32 then some (.lFlg2 ⟨fld w 29 2, fld w 27 2, fld w 12 6, fld w 6 6⟩) else none)
  | 0x17 => match (fld w 19 2).toNat with
    | 0 => .row (if w &&& 0x4003f#32 = 0x0#32 then some (.lCvtiI32F32 ⟨fld w 29 2, fld w 27 2, fld w 12 6, fld w 6 6⟩) else none)
    | 1 => .row (if w &&& 0x4003f#32 = 0x0#32 then some (.lCvtiN32F32 ⟨fld w 29 2, fld w 27 2, fld w 12 6, fld w 6 6⟩) else none)
    | 2 => .row (if w &&& 0x4003f#32 = 0x0#32 then some (.lCvtiF32I32 ⟨fld w 29 2, fld w 27 2, fld w 12 6, fld w 6 6⟩) else none)
    | _ => .row (if w &&& 0x4003f#32 = 0x0#32 then some (.lCvtiF32N32 ⟨fld w 29 2, fld w 27 2, fld w 12 6, fld w 6 6⟩) else none)
  | 0x18 => match (fld w 19 2).toNat with
    | 0 => .row (some (.lCvtfBf16x2F32 ⟨fld w 29 2, fld w 27 2, fld w 18 1, fld w 12 6, fld w 6 6, fld w 0 6⟩))
    | 1 => .row (if w &&& 0x4003e#32 = 0x0#32 then some (.lCvtfF32Bf16 ⟨fld w 29 2, fld w 27 2, fld w 12 6, fld w 6 6, fld w 0 1⟩) else none)
    | 2 => .row (some (.lCvtfF16x2F32 ⟨fld w 29 2, fld w 27 2, fld w 18 1, fld w 12 6, fld w 6 6, fld w 0 6⟩))
    | _ => .row (if w &&& 0x4003e#32 = 0x0#32 then some (.lCvtfF32F16 ⟨fld w 29 2, fld w 27 2, fld w 12 6, fld w 6 6, fld w 0 1⟩) else none)
  | 0x19 => match (fld w 19 2).toNat with
    | 0 => .row (if w &&& 0x4003c#32 = 0x0#32 then some (.lCvt8E4m3F32 ⟨fld w 29 2, fld w 27 2, fld w 12 6, fld w 6 6, fld w 0 2⟩) else none)
    | 1 => .row (if w &&& 0x4003c#32 = 0x0#32 then some (.lCvt8E5m2F32 ⟨fld w 29 2, fld w 27 2, fld w 12 6, fld w 6 6, fld w 0 2⟩) else none)
    | 2 => .row (if w &&& 0x4003c#32 = 0x0#32 then some (.lCvt8F32E4m3 ⟨fld w 29 2, fld w 27 2, fld w 12 6, fld w 6 6, fld w 0 2⟩) else none)
    | _ => .row (if w &&& 0x4003c#32 = 0x0#32 then some (.lCvt8F32E5m2 ⟨fld w 29 2, fld w 27 2, fld w 12 6, fld w 6 6, fld w 0 2⟩) else none)
  | 0x1a => match (fld w 19 2).toNat with
    | 0 => .row (some (.lHadd2Bf16 ⟨fld w 29 2, fld w 27 2, fld w 18 1, fld w 12 6, fld w 6 6, fld w 0 6⟩))
    | 1 => .row (some (.lHadd2F16 ⟨fld w 29 2, fld w 27 2, fld w 18 1, fld w 12 6, fld w 6 6, fld w 0 6⟩))
    | _ => .illegal
  | 0x1b => match (fld w 19 2).toNat with
    | 0 => .row (some (.lHmul2Bf16 ⟨fld w 29 2, fld w 27 2, fld w 18 1, fld w 12 6, fld w 6 6, fld w 0 6⟩))
    | 1 => .row (some (.lHmul2F16 ⟨fld w 29 2, fld w 27 2, fld w 18 1, fld w 12 6, fld w 6 6, fld w 0 6⟩))
    | _ => .illegal
  | 0x1c => match (fld w 19 2).toNat with
    | 0 => .row (some (.lHfma2Bf16 ⟨fld w 29 2, fld w 27 2, fld w 18 1, fld w 12 6, fld w 6 6, fld w 0 6⟩))
    | 1 => .row (some (.lHfma2F16 ⟨fld w 29 2, fld w 27 2, fld w 18 1, fld w 12 6, fld w 6 6, fld w 0 6⟩))
    | _ => .illegal
  | 0x1d => match (fld w 19 2).toNat with
    | 0 => .row (if w &&& 0x4003f#32 = 0x0#32 then some (.lFabs ⟨fld w 29 2, fld w 27 2, fld w 12 6, fld w 6 6⟩) else none)
    | 1 => .row (if w &&& 0x4003f#32 = 0x0#32 then some (.lFneg ⟨fld w 29 2, fld w 27 2, fld w 12 6, fld w 6 6⟩) else none)
    | 2 => .row (some (.lFcopysign ⟨fld w 29 2, fld w 27 2, fld w 18 1, fld w 12 6, fld w 6 6, fld w 0 6⟩))
    | _ => .illegal
  | 0x20 => match (fld w 19 2).toNat with
    | 0 => .row (some (.lXch ⟨fld w 29 2, fld w 27 2, fld w 18 1, fld w 12 6, fld w 6 6, fld w 0 6⟩))
    | 1 => .row (if w &&& 0x40030#32 = 0x0#32 then some (.lXchImm ⟨fld w 29 2, fld w 27 2, fld w 12 6, fld w 6 6, fld w 0 4⟩) else none)
    | 2 => .row (if w &&& 0x40030#32 = 0x0#32 then some (.lXchXor ⟨fld w 29 2, fld w 27 2, fld w 12 6, fld w 6 6, fld w 0 4⟩) else none)
    | _ => .illegal
  | 0x21 => match (fld w 19 2).toNat with
    | 0 => .row (if w &&& 0x40030#32 = 0x0#32 then some (.lShup ⟨fld w 29 2, fld w 27 2, fld w 12 6, fld w 6 6, fld w 0 4⟩) else none)
    | 1 => .row (if w &&& 0x40030#32 = 0x0#32 then some (.lShdn ⟨fld w 29 2, fld w 27 2, fld w 12 6, fld w 6 6, fld w 0 4⟩) else none)
    | 2 => .row (if w &&& 0x40030#32 = 0x0#32 then some (.lShupWrap ⟨fld w 29 2, fld w 27 2, fld w 12 6, fld w 6 6, fld w 0 4⟩) else none)
    | _ => .row (if w &&& 0x40030#32 = 0x0#32 then some (.lShdnWrap ⟨fld w 29 2, fld w 27 2, fld w 12 6, fld w 6 6, fld w 0 4⟩) else none)
  | 0x22 => match (fld w 19 2).toNat with
    | 0 => .row (some (.lScanAddI32 ⟨fld w 29 2, fld w 27 2, fld w 18 1, fld w 12 6, fld w 6 6, fld w 0 6⟩))
    | 1 => .row (some (.lScanAddF32 ⟨fld w 29 2, fld w 27 2, fld w 18 1, fld w 12 6, fld w 6 6, fld w 0 6⟩))
    | 2 => .row (some (.lScanMinI32 ⟨fld w 29 2, fld w 27 2, fld w 18 1, fld w 12 6, fld w 6 6, fld w 0 6⟩))
    | _ => .row (some (.lScanMaxI32 ⟨fld w 29 2, fld w 27 2, fld w 18 1, fld w 12 6, fld w 6 6, fld w 0 6⟩))
  | 0x23 => match (fld w 19 2).toNat with
    | 0 => .row (some (.lRedAddI32 ⟨fld w 29 2, fld w 27 2, fld w 18 1, fld w 12 6, fld w 6 6, fld w 0 6⟩))
    | 1 => .row (some (.lRedAddF32 ⟨fld w 29 2, fld w 27 2, fld w 18 1, fld w 12 6, fld w 6 6, fld w 0 6⟩))
    | 2 => .row (some (.lRedAnd ⟨fld w 29 2, fld w 27 2, fld w 18 1, fld w 12 6, fld w 6 6, fld w 0 6⟩))
    | _ => .row (some (.lRedOr ⟨fld w 29 2, fld w 27 2, fld w 18 1, fld w 12 6, fld w 6 6, fld w 0 6⟩))
  | 0x24 => match (fld w 19 2).toNat with
    | 0 => .row (if w &&& 0x4003f#32 = 0x0#32 then some (.lRedixMinI32 ⟨fld w 29 2, fld w 27 2, fld w 12 6, fld w 6 6⟩) else none)
    | 1 => .row (if w &&& 0x4003f#32 = 0x0#32 then some (.lRedixMinN32 ⟨fld w 29 2, fld w 27 2, fld w 12 6, fld w 6 6⟩) else none)
    | 2 => .row (if w &&& 0x4003f#32 = 0x0#32 then some (.lRedixMaxI32 ⟨fld w 29 2, fld w 27 2, fld w 12 6, fld w 6 6⟩) else none)
    | _ => .row (if w &&& 0x4003f#32 = 0x0#32 then some (.lRedixMaxN32 ⟨fld w 29 2, fld w 27 2, fld w 12 6, fld w 6 6⟩) else none)
  | 0x25 => match (fld w 19 2).toNat with
    | 0 => .row (if w &&& 0x4003f#32 = 0x0#32 then some (.lPick ⟨fld w 29 2, fld w 27 2, fld w 12 6, fld w 6 6⟩) else none)
    | 1 => .row (if w &&& 0x78e3f#32 = 0x0#32 then some (.lVoteAny ⟨fld w 29 2, fld w 27 2, fld w 12 3, fld w 6 3⟩) else none)
    | 2 => .row (if w &&& 0x78e3f#32 = 0x0#32 then some (.lVoteAll ⟨fld w 29 2, fld w 27 2, fld w 12 3, fld w 6 3⟩) else none)
    | _ => .row (if w &&& 0x40e3f#32 = 0x0#32 then some (.lBallot ⟨fld w 29 2, fld w 27 2, fld w 12 6, fld w 6 3⟩) else none)
  | 0x28 => .row (some (.lDbr ⟨fld w 29 2, fld w 27 2, fld w 0 21⟩))
  | 0x29 => .row (if w &&& 0x18000000#32 = 0x0#32 then some (.lDmark ⟨fld w 29 2, fld w 0 21⟩) else none)
  | 0x2a => .row (if w &&& 0x181fffff#32 = 0x0#32 then some (.lJoin ⟨fld w 29 2⟩) else none)
  | 0x2b => match (fld w 19 2).toNat with
    | 0 => .row (if w &&& 0x7ffff#32 = 0x0#32 then some (.lExit ⟨fld w 29 2, fld w 27 2⟩) else none)
    | 1 => .row (if w &&& 0x7803f#32 = 0x0#32 then some (.lPset ⟨fld w 29 2, fld w 27 2, fld w 12 3, fld w 6 6⟩) else none)
    | 2 => .row (if w &&& 0x40e3f#32 = 0x0#32 then some (.lPget ⟨fld w 29 2, fld w 27 2, fld w 12 6, fld w 6 3⟩) else none)
    | _ => .illegal
  | 0x2c => .row (some (.lAddi ⟨fld w 29 2, fld w 27 2, fld w 15 6, fld w 9 6, fld w 0 9⟩))
  | 0x2d => .row (some (.lMovi ⟨fld w 29 2, fld w 27 2, fld w 15 6, fld w 0 15⟩))
  | 0x2e => .row (some (.lMuli ⟨fld w 29 2, fld w 27 2, fld w 15 6, fld w 9 6, fld w 0 9⟩))
  | 0x30 => .row (some (.lLd ⟨fld w 29 2, fld w 27 2, fld w 18 3, fld w 12 6, fld w 6 6, fld w 0 6⟩))
  | 0x31 => .row (some (.lSt ⟨fld w 29 2, fld w 27 2, fld w 18 3, fld w 12 6, fld w 6 6, fld w 0 6⟩))
  | 0x32 => .row (some (.lLdAcq ⟨fld w 29 2, fld w 27 2, fld w 18 3, fld w 12 6, fld w 6 6, fld w 0 6⟩))
  | 0x33 => .row (some (.lStRel ⟨fld w 29 2, fld w 27 2, fld w 18 3, fld w 12 6, fld w 6 6, fld w 0 6⟩))
  | 0x34 => .row (some (.lAtom ⟨fld w 29 2, fld w 27 2, fld w 18 3, fld w 12 6, fld w 6 6, fld w 0 6⟩))
  | 0x35 => .row (if w &&& 0x1c0000#32 = 0x0#32 then some (.lAtomxXchg ⟨fld w 29 2, fld w 27 2, fld w 12 6, fld w 6 6, fld w 0 6⟩) else if w &&& 0x1c0000#32 = 0x40000#32 then some (.lAtomxCas ⟨fld w 29 2, fld w 27 2, fld w 12 6, fld w 6 6, fld w 0 6⟩) else if w &&& 0x1c0000#32 = 0x80000#32 then some (.lAtomxAddF32 ⟨fld w 29 2, fld w 27 2, fld w 12 6, fld w 6 6, fld w 0 6⟩) else none)
  | 0x36 => .row (if w &&& 0xfc0#32 = 0x0#32 then some (.lRatom ⟨fld w 29 2, fld w 27 2, fld w 18 3, fld w 12 6, fld w 0 6⟩) else if w &&& 0x1c0fc0#32 = 0x40#32 then some (.lRatomAddF32 ⟨fld w 29 2, fld w 27 2, fld w 12 6, fld w 0 6⟩) else none)
  | 0x37 => .row (if w &&& 0x1ff000#32 = 0x0#32 then some (.lPf ⟨fld w 29 2, fld w 27 2, fld w 6 6, fld w 0 6⟩) else none)
  | 0x38 => .row (some (.lLdNc ⟨fld w 29 2, fld w 27 2, fld w 18 3, fld w 12 6, fld w 6 6, fld w 0 6⟩))
  | 0x39 => .row (some (.lStNc ⟨fld w 29 2, fld w 27 2, fld w 18 3, fld w 12 6, fld w 6 6, fld w 0 6⟩))
  | _ => .illegal

/-- Table 2-6: the U-set map; `data` is the word that follows (used by `lit` alone, R39). -/
noncomputable def mapU (w data : Word) : Mapped :=
  match (fld w 21 6).toNat with
  | 0x00 => match (fld w 19 2).toNat with
    | 0 => .row (some (.uAdd ⟨fld w 29 2, fld w 27 2, fld w 18 1, fld w 12 6, fld w 6 6, fld w 0 6⟩))
    | 1 => .row (some (.uAddSatI32 ⟨fld w 29 2, fld w 27 2, fld w 18 1, fld w 12 6, fld w 6 6, fld w 0 6⟩))
    | 2 => .row (some (.uAddSatN32 ⟨fld w 29 2, fld w 27 2, fld w 18 1, fld w 12 6, fld w 6 6, fld w 0 6⟩))
    | _ => .illegal
  | 0x01 => match (fld w 19 2).toNat with
    | 0 => .row (some (.uSub ⟨fld w 29 2, fld w 27 2, fld w 18 1, fld w 12 6, fld w 6 6, fld w 0 6⟩))
    | 1 => .row (some (.uSubSatI32 ⟨fld w 29 2, fld w 27 2, fld w 18 1, fld w 12 6, fld w 6 6, fld w 0 6⟩))
    | 2 => .row (some (.uSubSatN32 ⟨fld w 29 2, fld w 27 2, fld w 18 1, fld w 12 6, fld w 6 6, fld w 0 6⟩))
    | _ => .illegal
  | 0x02 => match (fld w 19 2).toNat with
    | 0 => .row (some (.uMul ⟨fld w 29 2, fld w 27 2, fld w 18 1, fld w 12 6, fld w 6 6, fld w 0 6⟩))
    | 1 => .row (some (.uMulhI32 ⟨fld w 29 2, fld w 27 2, fld w 18 1, fld w 12 6, fld w 6 6, fld w 0 6⟩))
    | 2 => .row (some (.uMulhN32 ⟨fld w 29 2, fld w 27 2, fld w 18 1, fld w 12 6, fld w 6 6, fld w 0 6⟩))
    | _ => .illegal
  | 0x03 => match (fld w 19 2).toNat with
    | 0 => .row (some (.uMad ⟨fld w 29 2, fld w 27 2, fld w 18 1, fld w 12 6, fld w 6 6, fld w 0 6⟩))
    | _ => .illegal
  | 0x04 => match (fld w 19 2).toNat with
    | 0 => .row (some (.uMinI32 ⟨fld w 29 2, fld w 27 2, fld w 18 1, fld w 12 6, fld w 6 6, fld w 0 6⟩))
    | 1 => .row (some (.uMinN32 ⟨fld w 29 2, fld w 27 2, fld w 18 1, fld w 12 6, fld w 6 6, fld w 0 6⟩))
    | _ => .illegal
  | 0x05 => match (fld w 19 2).toNat with
    | 0 => .row (some (.uMaxI32 ⟨fld w 29 2, fld w 27 2, fld w 18 1, fld w 12 6, fld w 6 6, fld w 0 6⟩))
    | 1 => .row (some (.uMaxN32 ⟨fld w 29 2, fld w 27 2, fld w 18 1, fld w 12 6, fld w 6 6, fld w 0 6⟩))
    | _ => .illegal
  | 0x06 => match (fld w 19 2).toNat with
    | 0 => .row (some (.uAnd ⟨fld w 29 2, fld w 27 2, fld w 18 1, fld w 12 6, fld w 6 6, fld w 0 6⟩))
    | 1 => .row (some (.uOr ⟨fld w 29 2, fld w 27 2, fld w 18 1, fld w 12 6, fld w 6 6, fld w 0 6⟩))
    | 2 => .row (some (.uXor ⟨fld w 29 2, fld w 27 2, fld w 18 1, fld w 12 6, fld w 6 6, fld w 0 6⟩))
    | _ => .row (some (.uAndn ⟨fld w 29 2, fld w 27 2, fld w 18 1, fld w 12 6, fld w 6 6, fld w 0 6⟩))
  | 0x07 => match (fld w 19 2).toNat with
    | 0 => .row (some (.uShl ⟨fld w 29 2, fld w 27 2, fld w 18 1, fld w 12 6, fld w 6 6, fld w 0 6⟩))
    | 1 => .row (some (.uShr ⟨fld w 29 2, fld w 27 2, fld w 18 1, fld w 12 6, fld w 6 6, fld w 0 6⟩))
    | 2 => .row (some (.uSar ⟨fld w 29 2, fld w 27 2, fld w 18 1, fld w 12 6, fld w 6 6, fld w 0 6⟩))
    | _ => .row (some (.uRol ⟨fld w 29 2, fld w 27 2, fld w 18 1, fld w 12 6, fld w 6 6, fld w 0 6⟩))
  | 0x08 => match (fld w 19 2).toNat with
    | 0 => .row (if w &&& 0x4003f#32 = 0x0#32 then some (.uPopc ⟨fld w 29 2, fld w 27 2, fld w 12 6, fld w 6 6⟩) else none)
    | 1 => .row (if w &&& 0x4003f#32 = 0x0#32 then some (.uClz ⟨fld w 29 2, fld w 27 2, fld w 12 6, fld w 6 6⟩) else none)
    | 2 => .row (if w &&& 0x4003f#32 = 0x0#32 then some (.uBrev ⟨fld w 29 2, fld w 27 2, fld w 12 6, fld w 6 6⟩) else none)
    | _ => .row (if w &&& 0x4003f#32 = 0x0#32 then some (.uFfs ⟨fld w 29 2, fld w 27 2, fld w 12 6, fld w 6 6⟩) else none)
  | 0x09 => match (fld w 19 2).toNat with
    | 0 => .row (if w &&& 0x40000#32 = 0x0#32 then some (.uBfxI32 ⟨fld w 29 2, fld w 27 2, fld w 12 6, fld w 6 6, fld w 0 6⟩) else none)
    | 1 => .row (if w &&& 0x40000#32 = 0x0#32 then some (.uBfxN32 ⟨fld w 29 2, fld w 27 2, fld w 12 6, fld w 6 6, fld w 0 6⟩) else none)
    | _ => .illegal
  | 0x0a => match (fld w 19 2).toNat with
    | 0 => .row (if w &&& 0x40000#32 = 0x0#32 then some (.uBfi ⟨fld w 29 2, fld w 27 2, fld w 12 6, fld w 6 6, fld w 0 6⟩) else none)
    | _ => .illegal
  | 0x0b => .row (some (.uSel ⟨fld w 29 2, fld w 27 2, fld w 19 2, fld w 18 1, fld w 12 6, fld w 6 6, fld w 0 6⟩))
  | 0x0c => match (fld w 19 2).toNat with
    | 0 => .row (some (.uCmpI32 ⟨fld w 29 2, fld w 27 2, fld w 18 1, fld w 15 3, fld w 12 3, fld w 6 6, fld w 0 6⟩))
    | 1 => .row (some (.uCmpN32 ⟨fld w 29 2, fld w 27 2, fld w 18 1, fld w 15 3, fld w 12 3, fld w 6 6, fld w 0 6⟩))
    | _ => .illegal
  | 0x0d => match (fld w 19 2).toNat with
    | 0 => .row (some (.uAminI32 ⟨fld w 29 2, fld w 27 2, fld w 18 1, fld w 12 6, fld w 6 6, fld w 0 6⟩))
    | 1 => .row (some (.uAminN32 ⟨fld w 29 2, fld w 27 2, fld w 18 1, fld w 12 6, fld w 6 6, fld w 0 6⟩))
    | 2 => .row (some (.uAmaxI32 ⟨fld w 29 2, fld w 27 2, fld w 18 1, fld w 12 6, fld w 6 6, fld w 0 6⟩))
    | _ => .row (some (.uAmaxN32 ⟨fld w 29 2, fld w 27 2, fld w 18 1, fld w 12 6, fld w 6 6, fld w 0 6⟩))
  | 0x0e => match (fld w 19 2).toNat with
    | 0 => .row (some (.uDivI32 ⟨fld w 29 2, fld w 27 2, fld w 18 1, fld w 12 6, fld w 6 6, fld w 0 6⟩))
    | 1 => .row (some (.uDivN32 ⟨fld w 29 2, fld w 27 2, fld w 18 1, fld w 12 6, fld w 6 6, fld w 0 6⟩))
    | 2 => .row (some (.uRemI32 ⟨fld w 29 2, fld w 27 2, fld w 18 1, fld w 12 6, fld w 6 6, fld w 0 6⟩))
    | _ => .row (some (.uRemN32 ⟨fld w 29 2, fld w 27 2, fld w 18 1, fld w 12 6, fld w 6 6, fld w 0 6⟩))
  | 0x0f => match (fld w 19 2).toNat with
    | 0 => .row (some (.uAdd64 ⟨fld w 29 2, fld w 27 2, fld w 18 1, fld w 12 6, fld w 6 6, fld w 0 6⟩))
    | 1 => .row (some (.uSub64 ⟨fld w 29 2, fld w 27 2, fld w 18 1, fld w 12 6, fld w 6 6, fld w 0 6⟩))
    | 2 => .row (some (.uCmp64 ⟨fld w 29 2, fld w 27 2, fld w 18 1, fld w 15 3, fld w 12 3, fld w 6 6, fld w 0 6⟩))
    | _ => .illegal
  | 0x10 => .row (if w &&& 0x40000#32 = 0x0#32 then some (.uFadd ⟨fld w 29 2, fld w 27 2, fld w 19 2, fld w 12 6, fld w 6 6, fld w 0 6⟩) else none)
  | 0x11 => .row (if w &&& 0x40000#32 = 0x0#32 then some (.uFsub ⟨fld w 29 2, fld w 27 2, fld w 19 2, fld w 12 6, fld w 6 6, fld w 0 6⟩) else none)
  | 0x12 => .row (if w &&& 0x40000#32 = 0x0#32 then some (.uFmul ⟨fld w 29 2, fld w 27 2, fld w 19 2, fld w 12 6, fld w 6 6, fld w 0 6⟩) else none)
  | 0x13 => .row (if w &&& 0x40000#32 = 0x0#32 then some (.uFfma ⟨fld w 29 2, fld w 27 2, fld w 19 2, fld w 12 6, fld w 6 6, fld w 0 6⟩) else none)
  | 0x14 => match (fld w 19 2).toNat with
    | 0 => .row (if w &&& 0x40000#32 = 0x0#32 then some (.uFmin ⟨fld w 29 2, fld w 27 2, fld w 12 6, fld w 6 6, fld w 0 6⟩) else none)
    | 1 => .row (if w &&& 0x40000#32 = 0x0#32 then some (.uFmax ⟨fld w 29 2, fld w 27 2, fld w 12 6, fld w 6 6, fld w 0 6⟩) else none)
    | 2 => .row (if w &&& 0x40000#32 = 0x0#32 then some (.uFminNan ⟨fld w 29 2, fld w 27 2, fld w 12 6, fld w 6 6, fld w 0 6⟩) else none)
    | _ => .row (if w &&& 0x40000#32 = 0x0#32 then some (.uFmaxNan ⟨fld w 29 2, fld w 27 2, fld w 12 6, fld w 6 6, fld w 0 6⟩) else none)
  | 0x15 => match (fld w 19 2).toNat with
    | 0 => .row (if w &&& 0x40000#32 = 0x0#32 then some (.uFcmp ⟨fld w 29 2, fld w 27 2, fld w 15 3, fld w 12 3, fld w 6 6, fld w 0 6⟩) else none)
    | 1 => .row (if w &&& 0x40000#32 = 0x0#32 then some (.uFcmpUn ⟨fld w 29 2, fld w 27 2, fld w 15 3, fld w 12 3, fld w 6 6, fld w 0 6⟩) else none)
    | _ => .illegal
  | 0x16 => match (fld w 19 2).toNat with
    | 0 => .row (if w &&& 0x4003f#32 = 0x0#32 then some (.uFrcp ⟨fld w 29 2, fld w 27 2, fld w 12 6, fld w 6 6⟩) else none)
    | 1 => .row (if w &&& 0x4003f#32 = 0x0#32 then some (.uFrsq ⟨fld w 29 2, fld w 27 2, fld w 12 6, fld w 6 6⟩) else none)
    | 2 => .row (if w &&& 0x4003f#32 = 0x0#32 then some (.uFex2 ⟨fld w 29 2, fld w 27 2, fld w 12 6, fld w 6 6⟩) else none)
    | _ => .row (if w &&& 0x4003f#32 = 0x0#32 then some (.uFlg2 ⟨fld w 29 2, fld w 27 2, fld w 12 6, fld w 6 6⟩) else none)
  | 0x17 => match (fld w 19 2).toNat with
    | 0 => .row (if w &&& 0x4003f#32 = 0x0#32 then some (.uCvtiI32F32 ⟨fld w 29 2, fld w 27 2, fld w 12 6, fld w 6 6⟩) else none)
    | 1 => .row (if w &&& 0x4003f#32 = 0x0#32 then some (.uCvtiN32F32 ⟨fld w 29 2, fld w 27 2, fld w 12 6, fld w 6 6⟩) else none)
    | 2 => .row (if w &&& 0x4003f#32 = 0x0#32 then some (.uCvtiF32I32 ⟨fld w 29 2, fld w 27 2, fld w 12 6, fld w 6 6⟩) else none)
    | _ => .row (if w &&& 0x4003f#32 = 0x0#32 then some (.uCvtiF32N32 ⟨fld w 29 2, fld w 27 2, fld w 12 6, fld w 6 6⟩) else none)
  | 0x18 => .row (some (.uAddi ⟨fld w 29 2, fld w 27 2, fld w 15 6, fld w 0 15⟩))
  | 0x19 => .row (some (.uLi ⟨fld w 29 2, fld w 27 2, fld w 15 6, fld w 0 15⟩))
  | 0x1a => .row (some (.uLui ⟨fld w 29 2, fld w 27 2, fld w 15 6, fld w 0 15⟩))
  | 0x1b => .row (if w &&& 0x7fff#32 = 0x0#32 then some (.uLit ⟨fld w 29 2, fld w 27 2, fld w 15 6, data⟩) else none)
  | 0x1c => .row (some (.uCmpi ⟨fld w 29 2, fld w 27 2, fld w 18 3, fld w 15 3, fld w 9 6, fld w 0 9⟩))
  | 0x1d => .row (some (.uMuli ⟨fld w 29 2, fld w 27 2, fld w 15 6, fld w 0 15⟩))
  | 0x1e => .row (some (.uAddi64 ⟨fld w 29 2, fld w 27 2, fld w 15 6, fld w 0 15⟩))
  | 0x20 => .row (some (.br ⟨fld w 29 2, fld w 27 2, fld w 0 21⟩))
  | 0x21 => .row (some (.call ⟨fld w 29 2, fld w 27 2, fld w 0 21⟩))
  | 0x22 => match (fld w 19 2).toNat with
    | 0 => .row (if w &&& 0x7f03f#32 = 0x0#32 then some (.jr ⟨fld w 29 2, fld w 27 2, fld w 6 6⟩) else none)
    | 1 => .row (if w &&& 0x7f03f#32 = 0x0#32 then some (.callr ⟨fld w 29 2, fld w 27 2, fld w 6 6⟩) else none)
    | 2 => .row (if w &&& 0x7ffff#32 = 0x0#32 then some (.ret ⟨fld w 29 2, fld w 27 2⟩) else none)
    | _ => .illegal
  | 0x23 => .row (some (.loopW ⟨fld w 29 2, fld w 27 2, fld w 15 6, fld w 0 15⟩))
  | 0x24 => match (fld w 19 2).toNat with
    | 0 => .row (if w &&& 0x3ffc0#32 = 0x0#32 then some (.rotset ⟨fld w 29 2, fld w 27 2, fld w 18 1, fld w 0 6⟩) else none)
    | 1 => .row (if w &&& 0x3ffc0#32 = 0x0#32 then some (.rotbase ⟨fld w 29 2, fld w 27 2, fld w 18 1, fld w 0 6⟩) else none)
    | _ => .illegal
  | 0x25 => match (fld w 19 2).toNat with
    | 0 => .row (some (.fork ⟨fld w 29 2, fld w 27 2, fld w 18 1, fld w 12 6, fld w 6 6, fld w 0 6⟩))
    | _ => .illegal
  | 0x26 => match (fld w 19 2).toNat with
    | 0 => .row (if w &&& 0x7ffff#32 = 0x0#32 then some (.fctlEnd ⟨fld w 29 2, fld w 27 2⟩) else none)
    | 1 => .row (if w &&& 0x3ffc0#32 = 0x0#32 then some (.yield ⟨fld w 29 2, fld w 27 2, fld w 18 1, fld w 0 6⟩) else none)
    | 2 => .row (if w &&& 0x3ffc0#32 = 0x0#32 then some (.vgrow ⟨fld w 29 2, fld w 27 2, fld w 18 1, fld w 0 6⟩) else none)
    | _ => .row (if w &&& 0x3ffc0#32 = 0x0#32 then some (.vshrink ⟨fld w 29 2, fld w 27 2, fld w 18 1, fld w 0 6⟩) else none)
  | 0x27 => match (fld w 19 2).toNat with
    | 0 => .row (if w &&& 0x3ffc0#32 = 0x0#32 then some (.trap ⟨fld w 29 2, fld w 27 2, fld w 18 1, fld w 0 6⟩) else none)
    | 1 => .row (if w &&& 0x7ffff#32 = 0x0#32 then some (.tret ⟨fld w 29 2, fld w 27 2⟩) else none)
    | 2 => .row (if w &&& 0x3ffc0#32 = 0x0#32 then some (.brk ⟨fld w 29 2, fld w 27 2, fld w 18 1, fld w 0 6⟩) else none)
    | _ => .row (if w &&& 0x7ffff#32 = 0x0#32 then some (.nop ⟨fld w 29 2, fld w 27 2⟩) else none)
  | 0x28 => .row (some (.uLd ⟨fld w 29 2, fld w 27 2, fld w 18 3, fld w 12 6, fld w 6 6, fld w 0 6⟩))
  | 0x29 => .row (some (.uSt ⟨fld w 29 2, fld w 27 2, fld w 18 3, fld w 12 6, fld w 6 6, fld w 0 6⟩))
  | 0x2a => .row (some (.uLdAcq ⟨fld w 29 2, fld w 27 2, fld w 18 3, fld w 12 6, fld w 6 6, fld w 0 6⟩))
  | 0x2b => .row (some (.uStRel ⟨fld w 29 2, fld w 27 2, fld w 18 3, fld w 12 6, fld w 6 6, fld w 0 6⟩))
  | 0x2c => .row (some (.uAtom ⟨fld w 29 2, fld w 27 2, fld w 18 3, fld w 12 6, fld w 6 6, fld w 0 6⟩))
  | 0x2d => .row (if w &&& 0x1c0000#32 = 0x0#32 then some (.uAtomxXchg ⟨fld w 29 2, fld w 27 2, fld w 12 6, fld w 6 6, fld w 0 6⟩) else if w &&& 0x1c0000#32 = 0x40000#32 then some (.uAtomxCas ⟨fld w 29 2, fld w 27 2, fld w 12 6, fld w 6 6, fld w 0 6⟩) else if w &&& 0x1c0000#32 = 0x80000#32 then some (.uAtomxAddF32 ⟨fld w 29 2, fld w 27 2, fld w 12 6, fld w 6 6, fld w 0 6⟩) else none)
  | 0x2e => match (fld w 19 2).toNat with
    | 0 => .row (if w &&& 0x3f000#32 = 0x0#32 then some (.wb ⟨fld w 29 2, fld w 27 2, fld w 18 1, fld w 6 6, fld w 0 6⟩) else none)
    | 1 => .row (if w &&& 0x3f000#32 = 0x0#32 then some (.inv ⟨fld w 29 2, fld w 27 2, fld w 18 1, fld w 6 6, fld w 0 6⟩) else none)
    | 2 => .row (some (.smap ⟨fld w 29 2, fld w 27 2, fld w 18 1, fld w 12 6, fld w 6 6, fld w 0 6⟩))
    | _ => .row (if w &&& 0xfc0#32 = 0x0#32 then some (.sunmap ⟨fld w 29 2, fld w 27 2, fld w 18 1, fld w 12 6, fld w 0 6⟩) else none)
  | 0x2f => match (fld w 19 2).toNat with
    | 0 => .row (if w &&& 0x3ffc0#32 = 0x0#32 then some (.cwaitLd ⟨fld w 29 2, fld w 27 2, fld w 18 1, fld w 0 6⟩) else none)
    | 1 => .row (if w &&& 0x3ffc0#32 = 0x0#32 then some (.cwaitSt ⟨fld w 29 2, fld w 27 2, fld w 18 1, fld w 0 6⟩) else none)
    | 2 => .row (if w &&& 0x3ffc0#32 = 0x0#32 then some (.cwaitEng ⟨fld w 29 2, fld w 27 2, fld w 18 1, fld w 0 6⟩) else none)
    | _ => .illegal
  | 0x30 => match (fld w 19 2).toNat with
    | 0 => .row (if w &&& 0x3f000#32 = 0x0#32 then some (.barArrive ⟨fld w 29 2, fld w 27 2, fld w 18 1, fld w 6 6, fld w 0 6⟩) else none)
    | 1 => .row (if w &&& 0x3ffc0#32 = 0x0#32 then some (.barWait ⟨fld w 29 2, fld w 27 2, fld w 18 1, fld w 0 6⟩) else none)
    | 2 => .row (if w &&& 0x3f000#32 = 0x0#32 then some (.barSync ⟨fld w 29 2, fld w 27 2, fld w 18 1, fld w 6 6, fld w 0 6⟩) else none)
    | _ => .illegal
  | 0x31 => match (fld w 19 2).toNat with
    | 0 => .row (if w &&& 0x3ffc0#32 = 0x0#32 then some (.knotArrive ⟨fld w 29 2, fld w 27 2, fld w 18 1, fld w 0 6⟩) else none)
    | 1 => .row (if w &&& 0x3ffc0#32 = 0x0#32 then some (.knotWait ⟨fld w 29 2, fld w 27 2, fld w 18 1, fld w 0 6⟩) else none)
    | 2 => .row (if w &&& 0x3ffc0#32 = 0x0#32 then some (.knotSync ⟨fld w 29 2, fld w 27 2, fld w 18 1, fld w 0 6⟩) else none)
    | _ => .illegal
  | 0x32 => match (fld w 19 2).toNat with
    | 0 => .row (if w &&& 0x40fbc#32 = 0x40000#32 then some (.qbind ⟨fld w 29 2, fld w 27 2, fld w 12 6, fld w 6 1, fld w 0 2⟩) else none)
    | 1 => .row (if w &&& 0x38000#32 = 0x0#32 then some (.qgive ⟨fld w 29 2, fld w 27 2, fld w 18 1, fld w 12 3, fld w 6 6, fld w 0 6⟩) else none)
    | 2 => .row (if w &&& 0x78000#32 = 0x0#32 then some (.qtry ⟨fld w 29 2, fld w 27 2, fld w 12 3, fld w 6 6, fld w 0 6⟩) else none)
    | _ => .row (if w &&& 0x7f03f#32 = 0x0#32 then some (.qclose ⟨fld w 29 2, fld w 27 2, fld w 6 6⟩) else none)
  | 0x33 => match (fld w 19 2).toNat with
    | 0 => .row (if w &&& 0x3f000#32 = 0x0#32 then some (.tkwait ⟨fld w 29 2, fld w 27 2, fld w 18 1, fld w 6 6, fld w 0 6⟩) else none)
    | 1 => .row (if w &&& 0x7f03f#32 = 0x0#32 then some (.tkpass ⟨fld w 29 2, fld w 27 2, fld w 6 6⟩) else none)
    | 2 => .row (if w &&& 0x38000#32 = 0x0#32 then some (.tkpoll ⟨fld w 29 2, fld w 27 2, fld w 18 1, fld w 12 3, fld w 6 6, fld w 0 6⟩) else none)
    | _ => .illegal
  | 0x34 => match (fld w 19 2).toNat with
    | 0 => .row (if w &&& 0x40038#32 = 0x40000#32 then some (.watchArm ⟨fld w 29 2, fld w 27 2, fld w 12 6, fld w 6 6, fld w 0 3⟩) else none)
    | 1 => .row (if w &&& 0x4003f#32 = 0x0#32 then some (.wwait ⟨fld w 29 2, fld w 27 2, fld w 12 6, fld w 6 6⟩) else none)
    | 2 => .row (if w &&& 0x7f03f#32 = 0x0#32 then some (.disarm ⟨fld w 29 2, fld w 27 2, fld w 6 6⟩) else none)
    | _ => .illegal
  | 0x35 => match (fld w 19 2).toNat with
    | 0 => .row (if w &&& 0x7ffff#32 = 0x0#32 then some (.tokpass ⟨fld w 29 2, fld w 27 2⟩) else none)
    | 1 => .row (if w &&& 0x78fff#32 = 0x0#32 then some (.tokq ⟨fld w 29 2, fld w 27 2, fld w 12 3⟩) else none)
    | _ => .illegal
  | 0x36 => match (fld w 19 2).toNat with
    | 0 => .row (if w &&& 0x7ffff#32 = 0x0#32 then some (.trig ⟨fld w 29 2, fld w 27 2⟩) else none)
    | 1 => .row (some (.post ⟨fld w 29 2, fld w 27 2, fld w 18 1, fld w 12 6, fld w 6 6, fld w 0 6⟩))
    | _ => .illegal
  | 0x37 => match (fld w 19 2).toNat with
    | 0 => .row (if w &&& 0x3f000#32 = 0x0#32 then some (.bcinit ⟨fld w 29 2, fld w 27 2, fld w 18 1, fld w 6 6, fld w 0 6⟩) else none)
    | 1 => .row (some (.bcwait ⟨fld w 29 2, fld w 27 2, fld w 18 1, fld w 12 6, fld w 6 6, fld w 0 6⟩))
    | 2 => .row (if w &&& 0x3f000#32 = 0x0#32 then some (.bcadd ⟨fld w 29 2, fld w 27 2, fld w 18 1, fld w 6 6, fld w 0 6⟩) else none)
    | _ => .row (if w &&& 0x4003f#32 = 0x0#32 then some (.bcphase ⟨fld w 29 2, fld w 27 2, fld w 12 6, fld w 6 6⟩) else none)
  | 0x38 => match (fld w 19 2).toNat with
    | 0 => .row (if w &&& 0x78#32 = 0x0#32 then some (.mma ⟨fld w 29 2, fld w 27 2, fld w 13 6, fld w 7 6, fld w 0 3⟩) else none)
    | _ => .illegal
  | 0x39 => match (fld w 19 2).toNat with
    | 0 => .row (if w &&& 0x7fff8#32 = 0x0#32 then some (.mswap ⟨fld w 29 2, fld w 27 2, fld w 0 3⟩) else none)
    | 1 => .row (if w &&& 0x7fff0#32 = 0x0#32 then some (.mclr ⟨fld w 29 2, fld w 27 2, fld w 3 1, fld w 0 3⟩) else none)
    | 2 => .row (if w &&& 0x7e040#32 = 0x0#32 then some (.mflag ⟨fld w 29 2, fld w 27 2, fld w 7 6, fld w 5 1, fld w 4 1, fld w 3 1, fld w 0 3⟩) else none)
    | _ => .illegal
  | 0x3a => match (fld w 19 2).toNat with
    | 0 => .row (if w &&& 0x1ff8#32 = 0x0#32 then some (.cpy ⟨fld w 29 2, fld w 27 2, fld w 13 6, fld w 0 3⟩) else if w &&& 0x78#32 = 0x0#32 then some (.cpyMc ⟨fld w 29 2, fld w 27 2, fld w 13 6, fld w 7 6, fld w 0 3⟩) else none)
    | 1 => .row (if w &&& 0x1ff8#32 = 0x0#32 then some (.cpyr ⟨fld w 29 2, fld w 27 2, fld w 13 6, fld w 0 3⟩) else none)
    | 2 => .row (if w &&& 0x1ff8#32 = 0x0#32 then some (.gath ⟨fld w 29 2, fld w 27 2, fld w 13 6, fld w 0 3⟩) else none)
    | _ => .row (if w &&& 0x1ff8#32 = 0x0#32 then some (.qdual ⟨fld w 29 2, fld w 27 2, fld w 13 6, fld w 0 3⟩) else none)
  | 0x3b => match (fld w 19 2).toNat with
    | 0 => .row (if w &&& 0x1fc0#32 = 0x0#32 then some (.ldrain ⟨fld w 29 2, fld w 27 2, fld w 13 6, fld w 3 3, fld w 0 3⟩) else none)
    | 1 => .row (if w &&& 0x7f#32 = 0x0#32 then some (.samp ⟨fld w 29 2, fld w 27 2, fld w 13 6, fld w 7 6⟩) else none)
    | 2 => .row (if w &&& 0x7e#32 = 0x0#32 then some (.rng ⟨fld w 29 2, fld w 27 2, fld w 13 6, fld w 7 6, fld w 0 1⟩) else none)
    | _ => .row (if w &&& 0x7e07e#32 = 0x0#32 then some (.repW ⟨fld w 29 2, fld w 27 2, fld w 7 6, fld w 0 1⟩) else none)
  | 0x3c => match (fld w 19 2).toNat with
    | 0 => .row (if w &&& 0x7f#32 = 0x0#32 then some (.seqnext ⟨fld w 29 2, fld w 27 2, fld w 13 6, fld w 7 6⟩) else none)
    | 1 => .row (if w &&& 0x7e07f#32 = 0x0#32 then some (.tokdlv ⟨fld w 29 2, fld w 27 2, fld w 7 6⟩) else none)
    | 2 => .row (if w &&& 0x7e000#32 = 0x0#32 then some (.seqstop ⟨fld w 29 2, fld w 27 2, fld w 7 6, fld w 0 7⟩) else none)
    | _ => .row (if w &&& 0x7f#32 = 0x0#32 then some (.pgopAlloc ⟨fld w 29 2, fld w 27 2, fld w 13 6, fld w 7 6⟩) else if w &&& 0x7f#32 = 0x1#32 then some (.pgopRef ⟨fld w 29 2, fld w 27 2, fld w 13 6, fld w 7 6⟩) else if w &&& 0x7f#32 = 0x2#32 then some (.pgopUnref ⟨fld w 29 2, fld w 27 2, fld w 13 6, fld w 7 6⟩) else if w &&& 0x7f#32 = 0x3#32 then some (.pgopCow ⟨fld w 29 2, fld w 27 2, fld w 13 6, fld w 7 6⟩) else if w &&& 0x7f#32 = 0x4#32 then some (.pgopEvict ⟨fld w 29 2, fld w 27 2, fld w 13 6, fld w 7 6⟩) else if w &&& 0x7f#32 = 0x5#32 then some (.pgopPromote ⟨fld w 29 2, fld w 27 2, fld w 13 6, fld w 7 6⟩) else if w &&& 0x7f#32 = 0x6#32 then some (.pgopSend ⟨fld w 29 2, fld w 27 2, fld w 13 6, fld w 7 6⟩) else none)
  | 0x3d => match (fld w 19 2).toNat with
    | 0 => .row (if w &&& 0x3c000#32 = 0x0#32 then some (.tset ⟨fld w 29 2, fld w 27 2, fld w 18 1, fld w 12 2, fld w 6 6, fld w 0 6⟩) else none)
    | 1 => .row (if w &&& 0x4003c#32 = 0x40000#32 then some (.tanc ⟨fld w 29 2, fld w 27 2, fld w 12 6, fld w 6 6, fld w 0 2⟩) else none)
    | 2 => .row (if w &&& 0x4003c#32 = 0x40000#32 then some (.tdepth ⟨fld w 29 2, fld w 27 2, fld w 12 6, fld w 6 6, fld w 0 2⟩) else none)
    | _ => .row (if w &&& 0x7cfff#32 = 0x0#32 then some (.tclr ⟨fld w 29 2, fld w 27 2, fld w 12 2⟩) else none)
  | 0x3e => match (fld w 19 2).toNat with
    | 0 => .row (if w &&& 0xf#32 = 0x0#32 then some (.sysr ⟨fld w 29 2, fld w 27 2, fld w 10 9, fld w 4 6⟩) else none)
    | 1 => .row (if w &&& 0xf#32 = 0x0#32 then some (.sysw ⟨fld w 29 2, fld w 27 2, fld w 10 9, fld w 4 6⟩) else none)
    | 2 => .row (if w &&& 0x4003f#32 = 0x40000#32 then some (.slackImm ⟨fld w 29 2, fld w 27 2, fld w 6 12⟩) else if w &&& 0x7fc0f#32 = 0x0#32 then some (.slackReg ⟨fld w 29 2, fld w 27 2, fld w 4 6⟩) else none)
    | _ => .row (if w &&& 0xf#32 = 0x0#32 then some (.rdcnt ⟨fld w 29 2, fld w 27 2, fld w 10 9, fld w 4 6⟩) else none)
  | _ => .illegal

/-- R23: bit 31 selects the set. -/
noncomputable def mapWord (w data : Word) : Mapped := if fld w 31 1 = 0 then mapL w else mapU w data

/-- R48 and R49: the classification of a Tifenko word. -/
noncomputable def decodeTifenko (w data : Word) : Except DecodeError Instr :=
  match mapWord w data with
  | .illegal => .error .illegalOp
  | .row none => .error .reservedField
  | .row (some i) => if i.wf then .ok i else .error .reservedField

/-- The four custom-0 instructions of a Samovar core (21 R364): opcode 0x0B, funct7 zero, funct3 0 to 3. -/
noncomputable def decodeSamovar (w : Word) : Except DecodeError Instr :=
  if fld w 0 7 = 0x0B ∧ fld w 25 7 = 0 then
    match (fld w 12 3).toNat with
    | 0 => .ok (.rgfetch ⟨fld w 20 5, fld w 15 5, fld w 7 5⟩)
    | 1 => .ok (.bfext ⟨fld w 20 5, fld w 15 5, fld w 7 5⟩)
    | 2 => .ok (.sigwait ⟨fld w 20 5, fld w 15 5, fld w 7 5⟩)
    | 3 => .ok (.dispatch ⟨fld w 20 5, fld w 15 5, fld w 7 5⟩)
    | _ => .error .illegalOp
  else .error .illegalOp

/-- A little-endian word from four bytes (02: every instruction is one 32-bit little-endian word). -/
def word4 (b0 b1 b2 b3 : Byte) : Word := (b3 ++ b2 ++ b1 ++ b0 : BitVec 32)

/-- The first word of a byte sequence and what follows it. -/
def takeWord : List Byte → Option (Word × List Byte)
  | b0 :: b1 :: b2 :: b3 :: rest => some (word4 b0 b1 b2 b3, rest)
  | _ => none

/-- The word is a `lit`, whose data word follows it (R39). -/
def isLit (w : Word) : Bool := fld w 31 1 == 1 && fld w 21 6 == 0x1B

/-- Decoding of a byte sequence by a fibre: the instruction and the bytes after it. -/
noncomputable def decodeBytes (bs : List Byte) : Except DecodeError (Instr × List Byte) :=
  match takeWord bs with
  | none => .error .short
  | some (w, rest) =>
    if isLit w then
      match takeWord rest with
      | none => .error .short
      | some (d, rest') => (decodeTifenko w d).map (·, rest')
    else (decodeTifenko w 0).map (·, rest)

/-- Whether a 32-bit word is read as one of Samovar's custom-0 instructions where the reader is not given the
agent that executes it. The two instruction sets belong to different processors; the word 0x0000_000B is also the
Tifenko word `add v0, v0, v11`. Only `decodeTableWord` and `withFetchWord` use this. -/
def samovarWord (w : Word) : Bool :=
  fld w 0 7 == 0x0B && fld w 25 7 == 0 && (fld w 12 3).toNat < 4

/-- The four bytes of a word in memory order. -/
def wordBytes (w : Word) : List Byte := [fld w 0 8, fld w 8 8, fld w 16 8, fld w 24 8]

/-- The instruction that the decoder reads from an opcode-table row's bits; the bits above nbits are zero. -/
noncomputable def decodeTableWord (nbits w : Nat) : Option Instr :=
  let v : BitVec 64 := BitVec.ofNat 64 (w % 2 ^ nbits)
  let w0 : Word := v.extractLsb' 0 32
  let w1 : Word := v.extractLsb' 32 32
  if samovarWord w0 then (decodeSamovar w0).toOption
  else
    match decodeBytes (wordBytes w0 ++ wordBytes w1) with
    | .ok (i, _) => some i
    | .error _ => none

/-- The words of an instruction, from the formats of Tables 2-1 to 2-3 and R364; a step that has no encoding has
none. -/
def encode (i : Instr) : List Word :=
  match i with
  | .lAdd o => [(0x0#1 ++ o.s ++ o.g ++ 0x0#8 ++ o.u ++ o.d ++ o.a ++ o.b)]
  | .lAddSatI32 o => [(0x0#1 ++ o.s ++ o.g ++ 0x1#8 ++ o.u ++ o.d ++ o.a ++ o.b)]
  | .lAddSatN32 o => [(0x0#1 ++ o.s ++ o.g ++ 0x2#8 ++ o.u ++ o.d ++ o.a ++ o.b)]
  | .lSub o => [(0x0#1 ++ o.s ++ o.g ++ 0x4#8 ++ o.u ++ o.d ++ o.a ++ o.b)]
  | .lSubSatI32 o => [(0x0#1 ++ o.s ++ o.g ++ 0x5#8 ++ o.u ++ o.d ++ o.a ++ o.b)]
  | .lSubSatN32 o => [(0x0#1 ++ o.s ++ o.g ++ 0x6#8 ++ o.u ++ o.d ++ o.a ++ o.b)]
  | .lMul o => [(0x0#1 ++ o.s ++ o.g ++ 0x8#8 ++ o.u ++ o.d ++ o.a ++ o.b)]
  | .lMulhI32 o => [(0x0#1 ++ o.s ++ o.g ++ 0x9#8 ++ o.u ++ o.d ++ o.a ++ o.b)]
  | .lMulhN32 o => [(0x0#1 ++ o.s ++ o.g ++ 0xa#8 ++ o.u ++ o.d ++ o.a ++ o.b)]
  | .lMad o => [(0x0#1 ++ o.s ++ o.g ++ 0xc#8 ++ o.u ++ o.d ++ o.a ++ o.b)]
  | .lMinI32 o => [(0x0#1 ++ o.s ++ o.g ++ 0x10#8 ++ o.u ++ o.d ++ o.a ++ o.b)]
  | .lMinN32 o => [(0x0#1 ++ o.s ++ o.g ++ 0x11#8 ++ o.u ++ o.d ++ o.a ++ o.b)]
  | .lMaxI32 o => [(0x0#1 ++ o.s ++ o.g ++ 0x14#8 ++ o.u ++ o.d ++ o.a ++ o.b)]
  | .lMaxN32 o => [(0x0#1 ++ o.s ++ o.g ++ 0x15#8 ++ o.u ++ o.d ++ o.a ++ o.b)]
  | .lAnd o => [(0x0#1 ++ o.s ++ o.g ++ 0x18#8 ++ o.u ++ o.d ++ o.a ++ o.b)]
  | .lOr o => [(0x0#1 ++ o.s ++ o.g ++ 0x19#8 ++ o.u ++ o.d ++ o.a ++ o.b)]
  | .lXor o => [(0x0#1 ++ o.s ++ o.g ++ 0x1a#8 ++ o.u ++ o.d ++ o.a ++ o.b)]
  | .lAndn o => [(0x0#1 ++ o.s ++ o.g ++ 0x1b#8 ++ o.u ++ o.d ++ o.a ++ o.b)]
  | .lShl o => [(0x0#1 ++ o.s ++ o.g ++ 0x1c#8 ++ o.u ++ o.d ++ o.a ++ o.b)]
  | .lShr o => [(0x0#1 ++ o.s ++ o.g ++ 0x1d#8 ++ o.u ++ o.d ++ o.a ++ o.b)]
  | .lSar o => [(0x0#1 ++ o.s ++ o.g ++ 0x1e#8 ++ o.u ++ o.d ++ o.a ++ o.b)]
  | .lRol o => [(0x0#1 ++ o.s ++ o.g ++ 0x1f#8 ++ o.u ++ o.d ++ o.a ++ o.b)]
  | .lPopc o => [(0x0#1 ++ o.s ++ o.g ++ 0x40#9 ++ o.d ++ o.a ++ 0x0#6)]
  | .lClz o => [(0x0#1 ++ o.s ++ o.g ++ 0x42#9 ++ o.d ++ o.a ++ 0x0#6)]
  | .lBrev o => [(0x0#1 ++ o.s ++ o.g ++ 0x44#9 ++ o.d ++ o.a ++ 0x0#6)]
  | .lFfs o => [(0x0#1 ++ o.s ++ o.g ++ 0x46#9 ++ o.d ++ o.a ++ 0x0#6)]
  | .lBfxI32 o => [(0x0#1 ++ o.s ++ o.g ++ 0x24#8 ++ o.u ++ o.d ++ o.a ++ o.b)]
  | .lBfxN32 o => [(0x0#1 ++ o.s ++ o.g ++ 0x25#8 ++ o.u ++ o.d ++ o.a ++ o.b)]
  | .lBfi o => [(0x0#1 ++ o.s ++ o.g ++ 0x28#8 ++ o.u ++ o.d ++ o.a ++ o.b)]
  | .lSel o => [(0x0#1 ++ o.s ++ o.g ++ 0xb#6 ++ o.f ++ o.u ++ o.d ++ o.a ++ o.b)]
  | .lCmpI32 o => [(0x0#1 ++ o.s ++ o.g ++ 0x30#8 ++ o.u ++ o.k ++ o.p ++ o.a ++ o.b)]
  | .lCmpN32 o => [(0x0#1 ++ o.s ++ o.g ++ 0x31#8 ++ o.u ++ o.k ++ o.p ++ o.a ++ o.b)]
  | .lAminI32 o => [(0x0#1 ++ o.s ++ o.g ++ 0x34#8 ++ o.u ++ o.d ++ o.a ++ o.b)]
  | .lAminN32 o => [(0x0#1 ++ o.s ++ o.g ++ 0x35#8 ++ o.u ++ o.d ++ o.a ++ o.b)]
  | .lAmaxI32 o => [(0x0#1 ++ o.s ++ o.g ++ 0x36#8 ++ o.u ++ o.d ++ o.a ++ o.b)]
  | .lAmaxN32 o => [(0x0#1 ++ o.s ++ o.g ++ 0x37#8 ++ o.u ++ o.d ++ o.a ++ o.b)]
  | .lMov o => [(0x0#1 ++ o.s ++ o.g ++ 0x38#8 ++ o.u ++ o.d ++ 0x0#6 ++ o.b)]
  | .lSid o => [(0x0#1 ++ o.s ++ o.g ++ 0x72#9 ++ o.d ++ 0x0#12)]
  | .lLid o => [(0x0#1 ++ o.s ++ o.g ++ 0x74#9 ++ o.d ++ 0x0#12)]
  | .lFadd o => [(0x0#1 ++ o.s ++ o.g ++ 0x10#6 ++ o.r ++ o.u ++ o.d ++ o.a ++ o.b)]
  | .lFsub o => [(0x0#1 ++ o.s ++ o.g ++ 0x11#6 ++ o.r ++ o.u ++ o.d ++ o.a ++ o.b)]
  | .lFmul o => [(0x0#1 ++ o.s ++ o.g ++ 0x12#6 ++ o.r ++ o.u ++ o.d ++ o.a ++ o.b)]
  | .lFfma o => [(0x0#1 ++ o.s ++ o.g ++ 0x13#6 ++ o.r ++ o.u ++ o.d ++ o.a ++ o.b)]
  | .lFmin o => [(0x0#1 ++ o.s ++ o.g ++ 0x50#8 ++ o.u ++ o.d ++ o.a ++ o.b)]
  | .lFmax o => [(0x0#1 ++ o.s ++ o.g ++ 0x51#8 ++ o.u ++ o.d ++ o.a ++ o.b)]
  | .lFminNan o => [(0x0#1 ++ o.s ++ o.g ++ 0x52#8 ++ o.u ++ o.d ++ o.a ++ o.b)]
  | .lFmaxNan o => [(0x0#1 ++ o.s ++ o.g ++ 0x53#8 ++ o.u ++ o.d ++ o.a ++ o.b)]
  | .lFcmp o => [(0x0#1 ++ o.s ++ o.g ++ 0x54#8 ++ o.u ++ o.k ++ o.p ++ o.a ++ o.b)]
  | .lFcmpUn o => [(0x0#1 ++ o.s ++ o.g ++ 0x55#8 ++ o.u ++ o.k ++ o.p ++ o.a ++ o.b)]
  | .lFrcp o => [(0x0#1 ++ o.s ++ o.g ++ 0xb0#9 ++ o.d ++ o.a ++ 0x0#6)]
  | .lFrsq o => [(0x0#1 ++ o.s ++ o.g ++ 0xb2#9 ++ o.d ++ o.a ++ 0x0#6)]
  | .lFex2 o => [(0x0#1 ++ o.s ++ o.g ++ 0xb4#9 ++ o.d ++ o.a ++ 0x0#6)]
  | .lFlg2 o => [(0x0#1 ++ o.s ++ o.g ++ 0xb6#9 ++ o.d ++ o.a ++ 0x0#6)]
  | .lCvtiI32F32 o => [(0x0#1 ++ o.s ++ o.g ++ 0xb8#9 ++ o.d ++ o.a ++ 0x0#6)]
  | .lCvtiN32F32 o => [(0x0#1 ++ o.s ++ o.g ++ 0xba#9 ++ o.d ++ o.a ++ 0x0#6)]
  | .lCvtiF32I32 o => [(0x0#1 ++ o.s ++ o.g ++ 0xbc#9 ++ o.d ++ o.a ++ 0x0#6)]
  | .lCvtiF32N32 o => [(0x0#1 ++ o.s ++ o.g ++ 0xbe#9 ++ o.d ++ o.a ++ 0x0#6)]
  | .lCvtfBf16x2F32 o => [(0x0#1 ++ o.s ++ o.g ++ 0x60#8 ++ o.u ++ o.d ++ o.a ++ o.b)]
  | .lCvtfF32Bf16 o => [(0x0#1 ++ o.s ++ o.g ++ 0xc2#9 ++ o.d ++ o.a ++ 0x0#5 ++ o.h)]
  | .lCvtfF16x2F32 o => [(0x0#1 ++ o.s ++ o.g ++ 0x62#8 ++ o.u ++ o.d ++ o.a ++ o.b)]
  | .lCvtfF32F16 o => [(0x0#1 ++ o.s ++ o.g ++ 0xc6#9 ++ o.d ++ o.a ++ 0x0#5 ++ o.h)]
  | .lCvt8E4m3F32 o => [(0x0#1 ++ o.s ++ o.g ++ 0xc8#9 ++ o.d ++ o.a ++ 0x0#4 ++ o.k)]
  | .lCvt8E5m2F32 o => [(0x0#1 ++ o.s ++ o.g ++ 0xca#9 ++ o.d ++ o.a ++ 0x0#4 ++ o.k)]
  | .lCvt8F32E4m3 o => [(0x0#1 ++ o.s ++ o.g ++ 0xcc#9 ++ o.d ++ o.a ++ 0x0#4 ++ o.k)]
  | .lCvt8F32E5m2 o => [(0x0#1 ++ o.s ++ o.g ++ 0xce#9 ++ o.d ++ o.a ++ 0x0#4 ++ o.k)]
  | .lHadd2Bf16 o => [(0x0#1 ++ o.s ++ o.g ++ 0x68#8 ++ o.u ++ o.d ++ o.a ++ o.b)]
  | .lHadd2F16 o => [(0x0#1 ++ o.s ++ o.g ++ 0x69#8 ++ o.u ++ o.d ++ o.a ++ o.b)]
  | .lHmul2Bf16 o => [(0x0#1 ++ o.s ++ o.g ++ 0x6c#8 ++ o.u ++ o.d ++ o.a ++ o.b)]
  | .lHmul2F16 o => [(0x0#1 ++ o.s ++ o.g ++ 0x6d#8 ++ o.u ++ o.d ++ o.a ++ o.b)]
  | .lHfma2Bf16 o => [(0x0#1 ++ o.s ++ o.g ++ 0x70#8 ++ o.u ++ o.d ++ o.a ++ o.b)]
  | .lHfma2F16 o => [(0x0#1 ++ o.s ++ o.g ++ 0x71#8 ++ o.u ++ o.d ++ o.a ++ o.b)]
  | .lFabs o => [(0x0#1 ++ o.s ++ o.g ++ 0xe8#9 ++ o.d ++ o.a ++ 0x0#6)]
  | .lFneg o => [(0x0#1 ++ o.s ++ o.g ++ 0xea#9 ++ o.d ++ o.a ++ 0x0#6)]
  | .lFcopysign o => [(0x0#1 ++ o.s ++ o.g ++ 0x76#8 ++ o.u ++ o.d ++ o.a ++ o.b)]
  | .lXch o => [(0x0#1 ++ o.s ++ o.g ++ 0x80#8 ++ o.u ++ o.d ++ o.a ++ o.b)]
  | .lXchImm o => [(0x0#1 ++ o.s ++ o.g ++ 0x102#9 ++ o.d ++ o.a ++ 0x0#2 ++ o.j)]
  | .lXchXor o => [(0x0#1 ++ o.s ++ o.g ++ 0x104#9 ++ o.d ++ o.a ++ 0x0#2 ++ o.j)]
  | .lShup o => [(0x0#1 ++ o.s ++ o.g ++ 0x108#9 ++ o.d ++ o.a ++ 0x0#2 ++ o.n)]
  | .lShdn o => [(0x0#1 ++ o.s ++ o.g ++ 0x10a#9 ++ o.d ++ o.a ++ 0x0#2 ++ o.n)]
  | .lShupWrap o => [(0x0#1 ++ o.s ++ o.g ++ 0x10c#9 ++ o.d ++ o.a ++ 0x0#2 ++ o.n)]
  | .lShdnWrap o => [(0x0#1 ++ o.s ++ o.g ++ 0x10e#9 ++ o.d ++ o.a ++ 0x0#2 ++ o.n)]
  | .lScanAddI32 o => [(0x0#1 ++ o.s ++ o.g ++ 0x88#8 ++ o.u ++ o.d ++ o.a ++ o.b)]
  | .lScanAddF32 o => [(0x0#1 ++ o.s ++ o.g ++ 0x89#8 ++ o.u ++ o.d ++ o.a ++ o.b)]
  | .lScanMinI32 o => [(0x0#1 ++ o.s ++ o.g ++ 0x8a#8 ++ o.u ++ o.d ++ o.a ++ o.b)]
  | .lScanMaxI32 o => [(0x0#1 ++ o.s ++ o.g ++ 0x8b#8 ++ o.u ++ o.d ++ o.a ++ o.b)]
  | .lRedAddI32 o => [(0x0#1 ++ o.s ++ o.g ++ 0x8c#8 ++ o.u ++ o.d ++ o.a ++ o.b)]
  | .lRedAddF32 o => [(0x0#1 ++ o.s ++ o.g ++ 0x8d#8 ++ o.u ++ o.d ++ o.a ++ o.b)]
  | .lRedAnd o => [(0x0#1 ++ o.s ++ o.g ++ 0x8e#8 ++ o.u ++ o.d ++ o.a ++ o.b)]
  | .lRedOr o => [(0x0#1 ++ o.s ++ o.g ++ 0x8f#8 ++ o.u ++ o.d ++ o.a ++ o.b)]
  | .lRedixMinI32 o => [(0x0#1 ++ o.s ++ o.g ++ 0x120#9 ++ o.d ++ o.a ++ 0x0#6)]
  | .lRedixMinN32 o => [(0x0#1 ++ o.s ++ o.g ++ 0x122#9 ++ o.d ++ o.a ++ 0x0#6)]
  | .lRedixMaxI32 o => [(0x0#1 ++ o.s ++ o.g ++ 0x124#9 ++ o.d ++ o.a ++ 0x0#6)]
  | .lRedixMaxN32 o => [(0x0#1 ++ o.s ++ o.g ++ 0x126#9 ++ o.d ++ o.a ++ 0x0#6)]
  | .lPick o => [(0x0#1 ++ o.s ++ o.g ++ 0x128#9 ++ o.d ++ o.a ++ 0x0#6)]
  | .lVoteAny o => [(0x0#1 ++ o.s ++ o.g ++ 0x950#12 ++ o.c ++ 0x0#3 ++ o.m ++ 0x0#6)]
  | .lVoteAll o => [(0x0#1 ++ o.s ++ o.g ++ 0x960#12 ++ o.c ++ 0x0#3 ++ o.m ++ 0x0#6)]
  | .lBallot o => [(0x0#1 ++ o.s ++ o.g ++ 0x12e#9 ++ o.d ++ 0x0#3 ++ o.m ++ 0x0#6)]
  | .lDbr o => [(0x0#1 ++ o.s ++ o.g ++ 0x28#6 ++ o.o)]
  | .lDmark o => [(0x0#1 ++ o.s ++ 0x29#8 ++ o.o)]
  | .lJoin o => [(0x0#1 ++ o.s ++ 0x5400000#29)]
  | .lExit o => [(0x0#1 ++ o.s ++ o.g ++ 0x5600000#27)]
  | .lPset o => [(0x0#1 ++ o.s ++ o.g ++ 0xad0#12 ++ o.p ++ o.a ++ 0x0#6)]
  | .lPget o => [(0x0#1 ++ o.s ++ o.g ++ 0x15c#9 ++ o.d ++ 0x0#3 ++ o.m ++ 0x0#6)]
  | .lAddi o => [(0x0#1 ++ o.s ++ o.g ++ 0x2c#6 ++ o.d ++ o.a ++ o.i)]
  | .lMovi o => [(0x0#1 ++ o.s ++ o.g ++ 0x2d#6 ++ o.d ++ o.i)]
  | .lMuli o => [(0x0#1 ++ o.s ++ o.g ++ 0x2e#6 ++ o.d ++ o.a ++ o.i)]
  | .lLd o => [(0x0#1 ++ o.s ++ o.g ++ 0x30#6 ++ o.z ++ o.d ++ o.a ++ o.b)]
  | .lSt o => [(0x0#1 ++ o.s ++ o.g ++ 0x31#6 ++ o.z ++ o.d ++ o.a ++ o.b)]
  | .lLdAcq o => [(0x0#1 ++ o.s ++ o.g ++ 0x32#6 ++ o.k ++ o.d ++ o.a ++ o.b)]
  | .lStRel o => [(0x0#1 ++ o.s ++ o.g ++ 0x33#6 ++ o.k ++ o.d ++ o.a ++ o.b)]
  | .lAtom o => [(0x0#1 ++ o.s ++ o.g ++ 0x34#6 ++ o.o ++ o.d ++ o.a ++ o.b)]
  | .lAtomxXchg o => [(0x0#1 ++ o.s ++ o.g ++ 0x1a8#9 ++ o.d ++ o.a ++ o.b)]
  | .lAtomxCas o => [(0x0#1 ++ o.s ++ o.g ++ 0x1a9#9 ++ o.d ++ o.a ++ o.b)]
  | .lAtomxAddF32 o => [(0x0#1 ++ o.s ++ o.g ++ 0x1aa#9 ++ o.d ++ o.a ++ o.b)]
  | .lRatom o => [(0x0#1 ++ o.s ++ o.g ++ 0x36#6 ++ o.o ++ o.d ++ 0x0#6 ++ o.b)]
  | .lRatomAddF32 o => [(0x0#1 ++ o.s ++ o.g ++ 0x1b0#9 ++ o.d ++ 0x1#6 ++ o.b)]
  | .lPf o => [(0x0#1 ++ o.s ++ o.g ++ 0x6e00#15 ++ o.a ++ o.b)]
  | .lLdNc o => [(0x0#1 ++ o.s ++ o.g ++ 0x38#6 ++ o.z ++ o.d ++ o.a ++ o.b)]
  | .lStNc o => [(0x0#1 ++ o.s ++ o.g ++ 0x39#6 ++ o.z ++ o.d ++ o.a ++ o.b)]
  | .uAdd o => [(0x1#1 ++ o.s ++ o.g ++ 0x0#8 ++ o.i ++ o.d ++ o.a ++ o.b)]
  | .uAddSatI32 o => [(0x1#1 ++ o.s ++ o.g ++ 0x1#8 ++ o.i ++ o.d ++ o.a ++ o.b)]
  | .uAddSatN32 o => [(0x1#1 ++ o.s ++ o.g ++ 0x2#8 ++ o.i ++ o.d ++ o.a ++ o.b)]
  | .uSub o => [(0x1#1 ++ o.s ++ o.g ++ 0x4#8 ++ o.i ++ o.d ++ o.a ++ o.b)]
  | .uSubSatI32 o => [(0x1#1 ++ o.s ++ o.g ++ 0x5#8 ++ o.i ++ o.d ++ o.a ++ o.b)]
  | .uSubSatN32 o => [(0x1#1 ++ o.s ++ o.g ++ 0x6#8 ++ o.i ++ o.d ++ o.a ++ o.b)]
  | .uMul o => [(0x1#1 ++ o.s ++ o.g ++ 0x8#8 ++ o.i ++ o.d ++ o.a ++ o.b)]
  | .uMulhI32 o => [(0x1#1 ++ o.s ++ o.g ++ 0x9#8 ++ o.i ++ o.d ++ o.a ++ o.b)]
  | .uMulhN32 o => [(0x1#1 ++ o.s ++ o.g ++ 0xa#8 ++ o.i ++ o.d ++ o.a ++ o.b)]
  | .uMad o => [(0x1#1 ++ o.s ++ o.g ++ 0xc#8 ++ o.i ++ o.d ++ o.a ++ o.b)]
  | .uMinI32 o => [(0x1#1 ++ o.s ++ o.g ++ 0x10#8 ++ o.i ++ o.d ++ o.a ++ o.b)]
  | .uMinN32 o => [(0x1#1 ++ o.s ++ o.g ++ 0x11#8 ++ o.i ++ o.d ++ o.a ++ o.b)]
  | .uMaxI32 o => [(0x1#1 ++ o.s ++ o.g ++ 0x14#8 ++ o.i ++ o.d ++ o.a ++ o.b)]
  | .uMaxN32 o => [(0x1#1 ++ o.s ++ o.g ++ 0x15#8 ++ o.i ++ o.d ++ o.a ++ o.b)]
  | .uAnd o => [(0x1#1 ++ o.s ++ o.g ++ 0x18#8 ++ o.i ++ o.d ++ o.a ++ o.b)]
  | .uOr o => [(0x1#1 ++ o.s ++ o.g ++ 0x19#8 ++ o.i ++ o.d ++ o.a ++ o.b)]
  | .uXor o => [(0x1#1 ++ o.s ++ o.g ++ 0x1a#8 ++ o.i ++ o.d ++ o.a ++ o.b)]
  | .uAndn o => [(0x1#1 ++ o.s ++ o.g ++ 0x1b#8 ++ o.i ++ o.d ++ o.a ++ o.b)]
  | .uShl o => [(0x1#1 ++ o.s ++ o.g ++ 0x1c#8 ++ o.i ++ o.d ++ o.a ++ o.b)]
  | .uShr o => [(0x1#1 ++ o.s ++ o.g ++ 0x1d#8 ++ o.i ++ o.d ++ o.a ++ o.b)]
  | .uSar o => [(0x1#1 ++ o.s ++ o.g ++ 0x1e#8 ++ o.i ++ o.d ++ o.a ++ o.b)]
  | .uRol o => [(0x1#1 ++ o.s ++ o.g ++ 0x1f#8 ++ o.i ++ o.d ++ o.a ++ o.b)]
  | .uPopc o => [(0x1#1 ++ o.s ++ o.g ++ 0x40#9 ++ o.d ++ o.a ++ 0x0#6)]
  | .uClz o => [(0x1#1 ++ o.s ++ o.g ++ 0x42#9 ++ o.d ++ o.a ++ 0x0#6)]
  | .uBrev o => [(0x1#1 ++ o.s ++ o.g ++ 0x44#9 ++ o.d ++ o.a ++ 0x0#6)]
  | .uFfs o => [(0x1#1 ++ o.s ++ o.g ++ 0x46#9 ++ o.d ++ o.a ++ 0x0#6)]
  | .uBfxI32 o => [(0x1#1 ++ o.s ++ o.g ++ 0x48#9 ++ o.d ++ o.a ++ o.b)]
  | .uBfxN32 o => [(0x1#1 ++ o.s ++ o.g ++ 0x4a#9 ++ o.d ++ o.a ++ o.b)]
  | .uBfi o => [(0x1#1 ++ o.s ++ o.g ++ 0x50#9 ++ o.d ++ o.a ++ o.b)]
  | .uSel o => [(0x1#1 ++ o.s ++ o.g ++ 0xb#6 ++ o.f ++ o.i ++ o.d ++ o.a ++ o.b)]
  | .uCmpI32 o => [(0x1#1 ++ o.s ++ o.g ++ 0x30#8 ++ o.i ++ o.k ++ o.c ++ o.a ++ o.b)]
  | .uCmpN32 o => [(0x1#1 ++ o.s ++ o.g ++ 0x31#8 ++ o.i ++ o.k ++ o.c ++ o.a ++ o.b)]
  | .uAminI32 o => [(0x1#1 ++ o.s ++ o.g ++ 0x34#8 ++ o.i ++ o.d ++ o.a ++ o.b)]
  | .uAminN32 o => [(0x1#1 ++ o.s ++ o.g ++ 0x35#8 ++ o.i ++ o.d ++ o.a ++ o.b)]
  | .uAmaxI32 o => [(0x1#1 ++ o.s ++ o.g ++ 0x36#8 ++ o.i ++ o.d ++ o.a ++ o.b)]
  | .uAmaxN32 o => [(0x1#1 ++ o.s ++ o.g ++ 0x37#8 ++ o.i ++ o.d ++ o.a ++ o.b)]
  | .uDivI32 o => [(0x1#1 ++ o.s ++ o.g ++ 0x38#8 ++ o.i ++ o.d ++ o.a ++ o.b)]
  | .uDivN32 o => [(0x1#1 ++ o.s ++ o.g ++ 0x39#8 ++ o.i ++ o.d ++ o.a ++ o.b)]
  | .uRemI32 o => [(0x1#1 ++ o.s ++ o.g ++ 0x3a#8 ++ o.i ++ o.d ++ o.a ++ o.b)]
  | .uRemN32 o => [(0x1#1 ++ o.s ++ o.g ++ 0x3b#8 ++ o.i ++ o.d ++ o.a ++ o.b)]
  | .uAdd64 o => [(0x1#1 ++ o.s ++ o.g ++ 0x3c#8 ++ o.i ++ o.d ++ o.a ++ o.b)]
  | .uSub64 o => [(0x1#1 ++ o.s ++ o.g ++ 0x3d#8 ++ o.i ++ o.d ++ o.a ++ o.b)]
  | .uCmp64 o => [(0x1#1 ++ o.s ++ o.g ++ 0x3e#8 ++ o.i ++ o.k ++ o.c ++ o.a ++ o.b)]
  | .uFadd o => [(0x1#1 ++ o.s ++ o.g ++ 0x10#6 ++ o.r ++ 0x0#1 ++ o.d ++ o.a ++ o.b)]
  | .uFsub o => [(0x1#1 ++ o.s ++ o.g ++ 0x11#6 ++ o.r ++ 0x0#1 ++ o.d ++ o.a ++ o.b)]
  | .uFmul o => [(0x1#1 ++ o.s ++ o.g ++ 0x12#6 ++ o.r ++ 0x0#1 ++ o.d ++ o.a ++ o.b)]
  | .uFfma o => [(0x1#1 ++ o.s ++ o.g ++ 0x13#6 ++ o.r ++ 0x0#1 ++ o.d ++ o.a ++ o.b)]
  | .uFmin o => [(0x1#1 ++ o.s ++ o.g ++ 0xa0#9 ++ o.d ++ o.a ++ o.b)]
  | .uFmax o => [(0x1#1 ++ o.s ++ o.g ++ 0xa2#9 ++ o.d ++ o.a ++ o.b)]
  | .uFminNan o => [(0x1#1 ++ o.s ++ o.g ++ 0xa4#9 ++ o.d ++ o.a ++ o.b)]
  | .uFmaxNan o => [(0x1#1 ++ o.s ++ o.g ++ 0xa6#9 ++ o.d ++ o.a ++ o.b)]
  | .uFcmp o => [(0x1#1 ++ o.s ++ o.g ++ 0xa8#9 ++ o.k ++ o.c ++ o.a ++ o.b)]
  | .uFcmpUn o => [(0x1#1 ++ o.s ++ o.g ++ 0xaa#9 ++ o.k ++ o.c ++ o.a ++ o.b)]
  | .uFrcp o => [(0x1#1 ++ o.s ++ o.g ++ 0xb0#9 ++ o.d ++ o.a ++ 0x0#6)]
  | .uFrsq o => [(0x1#1 ++ o.s ++ o.g ++ 0xb2#9 ++ o.d ++ o.a ++ 0x0#6)]
  | .uFex2 o => [(0x1#1 ++ o.s ++ o.g ++ 0xb4#9 ++ o.d ++ o.a ++ 0x0#6)]
  | .uFlg2 o => [(0x1#1 ++ o.s ++ o.g ++ 0xb6#9 ++ o.d ++ o.a ++ 0x0#6)]
  | .uCvtiI32F32 o => [(0x1#1 ++ o.s ++ o.g ++ 0xb8#9 ++ o.d ++ o.a ++ 0x0#6)]
  | .uCvtiN32F32 o => [(0x1#1 ++ o.s ++ o.g ++ 0xba#9 ++ o.d ++ o.a ++ 0x0#6)]
  | .uCvtiF32I32 o => [(0x1#1 ++ o.s ++ o.g ++ 0xbc#9 ++ o.d ++ o.a ++ 0x0#6)]
  | .uCvtiF32N32 o => [(0x1#1 ++ o.s ++ o.g ++ 0xbe#9 ++ o.d ++ o.a ++ 0x0#6)]
  | .uAddi o => [(0x1#1 ++ o.s ++ o.g ++ 0x18#6 ++ o.d ++ o.i)]
  | .uLi o => [(0x1#1 ++ o.s ++ o.g ++ 0x19#6 ++ o.d ++ o.i)]
  | .uLui o => [(0x1#1 ++ o.s ++ o.g ++ 0x1a#6 ++ o.d ++ o.i)]
  | .uLit o => [(1#1 ++ o.s ++ o.g ++ 0x1b#6 ++ o.d ++ 0#15), o.v]
  | .uCmpi o => [(0x1#1 ++ o.s ++ o.g ++ 0x1c#6 ++ o.k ++ o.c ++ o.a ++ o.i)]
  | .uMuli o => [(0x1#1 ++ o.s ++ o.g ++ 0x1d#6 ++ o.d ++ o.i)]
  | .uAddi64 o => [(0x1#1 ++ o.s ++ o.g ++ 0x1e#6 ++ o.d ++ o.i)]
  | .br o => [(0x1#1 ++ o.s ++ o.g ++ 0x20#6 ++ o.o)]
  | .call o => [(0x1#1 ++ o.s ++ o.g ++ 0x21#6 ++ o.o)]
  | .jr o => [(0x1#1 ++ o.s ++ o.g ++ 0x4400#15 ++ o.a ++ 0x0#6)]
  | .callr o => [(0x1#1 ++ o.s ++ o.g ++ 0x4480#15 ++ o.a ++ 0x0#6)]
  | .ret o => [(0x1#1 ++ o.s ++ o.g ++ 0x4500000#27)]
  | .loopW o => [(0x1#1 ++ o.s ++ o.g ++ 0x23#6 ++ o.d ++ o.o)]
  | .rotset o => [(0x1#1 ++ o.s ++ o.g ++ 0x90#8 ++ o.i ++ 0x0#12 ++ o.b)]
  | .rotbase o => [(0x1#1 ++ o.s ++ o.g ++ 0x91#8 ++ o.i ++ 0x0#12 ++ o.b)]
  | .fork o => [(0x1#1 ++ o.s ++ o.g ++ 0x94#8 ++ o.i ++ o.d ++ o.a ++ o.b)]
  | .fctlEnd o => [(0x1#1 ++ o.s ++ o.g ++ 0x4c00000#27)]
  | .yield o => [(0x1#1 ++ o.s ++ o.g ++ 0x99#8 ++ o.i ++ 0x0#12 ++ o.b)]
  | .vgrow o => [(0x1#1 ++ o.s ++ o.g ++ 0x9a#8 ++ o.i ++ 0x0#12 ++ o.b)]
  | .vshrink o => [(0x1#1 ++ o.s ++ o.g ++ 0x9b#8 ++ o.i ++ 0x0#12 ++ o.b)]
  | .trap o => [(0x1#1 ++ o.s ++ o.g ++ 0x9c#8 ++ o.i ++ 0x0#12 ++ o.b)]
  | .tret o => [(0x1#1 ++ o.s ++ o.g ++ 0x4e80000#27)]
  | .brk o => [(0x1#1 ++ o.s ++ o.g ++ 0x9e#8 ++ o.i ++ 0x0#12 ++ o.b)]
  | .nop o => [(0x1#1 ++ o.s ++ o.g ++ 0x4f80000#27)]
  | .uLd o => [(0x1#1 ++ o.s ++ o.g ++ 0x28#6 ++ o.z ++ o.d ++ o.b ++ o.o)]
  | .uSt o => [(0x1#1 ++ o.s ++ o.g ++ 0x29#6 ++ o.z ++ o.d ++ o.b ++ o.o)]
  | .uLdAcq o => [(0x1#1 ++ o.s ++ o.g ++ 0x2a#6 ++ o.k ++ o.d ++ o.a ++ o.b)]
  | .uStRel o => [(0x1#1 ++ o.s ++ o.g ++ 0x2b#6 ++ o.k ++ o.d ++ o.a ++ o.b)]
  | .uAtom o => [(0x1#1 ++ o.s ++ o.g ++ 0x2c#6 ++ o.o ++ o.d ++ o.a ++ o.b)]
  | .uAtomxXchg o => [(0x1#1 ++ o.s ++ o.g ++ 0x168#9 ++ o.d ++ o.a ++ o.b)]
  | .uAtomxCas o => [(0x1#1 ++ o.s ++ o.g ++ 0x169#9 ++ o.d ++ o.a ++ o.b)]
  | .uAtomxAddF32 o => [(0x1#1 ++ o.s ++ o.g ++ 0x16a#9 ++ o.d ++ o.a ++ o.b)]
  | .wb o => [(0x1#1 ++ o.s ++ o.g ++ 0xb8#8 ++ o.i ++ 0x0#6 ++ o.a ++ o.b)]
  | .inv o => [(0x1#1 ++ o.s ++ o.g ++ 0xb9#8 ++ o.i ++ 0x0#6 ++ o.a ++ o.b)]
  | .smap o => [(0x1#1 ++ o.s ++ o.g ++ 0xba#8 ++ o.i ++ o.d ++ o.a ++ o.b)]
  | .sunmap o => [(0x1#1 ++ o.s ++ o.g ++ 0xbb#8 ++ o.i ++ o.d ++ 0x0#6 ++ o.b)]
  | .cwaitLd o => [(0x1#1 ++ o.s ++ o.g ++ 0xbc#8 ++ o.i ++ 0x0#12 ++ o.b)]
  | .cwaitSt o => [(0x1#1 ++ o.s ++ o.g ++ 0xbd#8 ++ o.i ++ 0x0#12 ++ o.b)]
  | .cwaitEng o => [(0x1#1 ++ o.s ++ o.g ++ 0xbe#8 ++ o.i ++ 0x0#12 ++ o.b)]
  | .barArrive o => [(0x1#1 ++ o.s ++ o.g ++ 0xc0#8 ++ o.i ++ 0x0#6 ++ o.a ++ o.b)]
  | .barWait o => [(0x1#1 ++ o.s ++ o.g ++ 0xc1#8 ++ o.i ++ 0x0#12 ++ o.b)]
  | .barSync o => [(0x1#1 ++ o.s ++ o.g ++ 0xc2#8 ++ o.i ++ 0x0#6 ++ o.a ++ o.b)]
  | .knotArrive o => [(0x1#1 ++ o.s ++ o.g ++ 0xc4#8 ++ o.i ++ 0x0#12 ++ o.b)]
  | .knotWait o => [(0x1#1 ++ o.s ++ o.g ++ 0xc5#8 ++ o.i ++ 0x0#12 ++ o.b)]
  | .knotSync o => [(0x1#1 ++ o.s ++ o.g ++ 0xc6#8 ++ o.i ++ 0x0#12 ++ o.b)]
  | .qbind o => [(0x1#1 ++ o.s ++ o.g ++ 0x191#9 ++ o.d ++ 0x0#5 ++ o.r ++ 0x0#4 ++ o.k)]
  | .qgive o => [(0x1#1 ++ o.s ++ o.g ++ 0xc9#8 ++ o.i ++ 0x0#3 ++ o.c ++ o.a ++ o.b)]
  | .qtry o => [(0x1#1 ++ o.s ++ o.g ++ 0xca0#12 ++ o.c ++ o.a ++ o.b)]
  | .qclose o => [(0x1#1 ++ o.s ++ o.g ++ 0x6580#15 ++ o.a ++ 0x0#6)]
  | .tkwait o => [(0x1#1 ++ o.s ++ o.g ++ 0xcc#8 ++ o.i ++ 0x0#6 ++ o.a ++ o.b)]
  | .tkpass o => [(0x1#1 ++ o.s ++ o.g ++ 0x6680#15 ++ o.a ++ 0x0#6)]
  | .tkpoll o => [(0x1#1 ++ o.s ++ o.g ++ 0xce#8 ++ o.i ++ 0x0#3 ++ o.c ++ o.a ++ o.b)]
  | .watchArm o => [(0x1#1 ++ o.s ++ o.g ++ 0x1a1#9 ++ o.d ++ o.a ++ 0x0#3 ++ o.k)]
  | .wwait o => [(0x1#1 ++ o.s ++ o.g ++ 0x1a2#9 ++ o.d ++ o.a ++ 0x0#6)]
  | .disarm o => [(0x1#1 ++ o.s ++ o.g ++ 0x6900#15 ++ o.a ++ 0x0#6)]
  | .tokpass o => [(0x1#1 ++ o.s ++ o.g ++ 0x6a00000#27)]
  | .tokq o => [(0x1#1 ++ o.s ++ o.g ++ 0xd50#12 ++ o.c ++ 0x0#12)]
  | .trig o => [(0x1#1 ++ o.s ++ o.g ++ 0x6c00000#27)]
  | .post o => [(0x1#1 ++ o.s ++ o.g ++ 0xd9#8 ++ o.i ++ o.d ++ o.a ++ o.b)]
  | .bcinit o => [(0x1#1 ++ o.s ++ o.g ++ 0xdc#8 ++ o.i ++ 0x0#6 ++ o.a ++ o.b)]
  | .bcwait o => [(0x1#1 ++ o.s ++ o.g ++ 0xdd#8 ++ o.i ++ o.d ++ o.a ++ o.b)]
  | .bcadd o => [(0x1#1 ++ o.s ++ o.g ++ 0xde#8 ++ o.i ++ 0x0#6 ++ o.a ++ o.b)]
  | .bcphase o => [(0x1#1 ++ o.s ++ o.g ++ 0x1be#9 ++ o.d ++ o.a ++ 0x0#6)]
  | .mma o => [(0x1#1 ++ o.s ++ o.g ++ 0xe0#8 ++ o.p ++ o.x ++ 0x0#4 ++ o.k)]
  | .mswap o => [(0x1#1 ++ o.s ++ o.g ++ 0xe40000#24 ++ o.k)]
  | .mclr o => [(0x1#1 ++ o.s ++ o.g ++ 0x728000#23 ++ o.v ++ o.k)]
  | .mflag o => [(0x1#1 ++ o.s ++ o.g ++ 0x3980#14 ++ o.x ++ 0x0#1 ++ o.c ++ o.t ++ o.w ++ o.k)]
  | .cpy o => [(0x1#1 ++ o.s ++ o.g ++ 0xe8#8 ++ o.p ++ 0x0#10 ++ o.k)]
  | .cpyMc o => [(0x1#1 ++ o.s ++ o.g ++ 0xe8#8 ++ o.p ++ o.x ++ 0x0#4 ++ o.k)]
  | .cpyr o => [(0x1#1 ++ o.s ++ o.g ++ 0xe9#8 ++ o.p ++ 0x0#10 ++ o.k)]
  | .gath o => [(0x1#1 ++ o.s ++ o.g ++ 0xea#8 ++ o.p ++ 0x0#10 ++ o.k)]
  | .qdual o => [(0x1#1 ++ o.s ++ o.g ++ 0xeb#8 ++ o.p ++ 0x0#10 ++ o.k)]
  | .ldrain o => [(0x1#1 ++ o.s ++ o.g ++ 0xec#8 ++ o.p ++ 0x0#7 ++ o.h ++ o.k)]
  | .samp o => [(0x1#1 ++ o.s ++ o.g ++ 0xed#8 ++ o.p ++ o.x ++ 0x0#7)]
  | .rng o => [(0x1#1 ++ o.s ++ o.g ++ 0xee#8 ++ o.p ++ o.x ++ 0x0#6 ++ o.h)]
  | .repW o => [(0x1#1 ++ o.s ++ o.g ++ 0x3bc0#14 ++ o.x ++ 0x0#6 ++ o.c)]
  | .seqnext o => [(0x1#1 ++ o.s ++ o.g ++ 0xf0#8 ++ o.p ++ o.x ++ 0x0#7)]
  | .tokdlv o => [(0x1#1 ++ o.s ++ o.g ++ 0x3c40#14 ++ o.x ++ 0x0#7)]
  | .seqstop o => [(0x1#1 ++ o.s ++ o.g ++ 0x3c80#14 ++ o.x ++ o.k)]
  | .pgopAlloc o => [(0x1#1 ++ o.s ++ o.g ++ 0xf3#8 ++ o.p ++ o.x ++ 0x0#7)]
  | .pgopRef o => [(0x1#1 ++ o.s ++ o.g ++ 0xf3#8 ++ o.p ++ o.x ++ 0x1#7)]
  | .pgopUnref o => [(0x1#1 ++ o.s ++ o.g ++ 0xf3#8 ++ o.p ++ o.x ++ 0x2#7)]
  | .pgopCow o => [(0x1#1 ++ o.s ++ o.g ++ 0xf3#8 ++ o.p ++ o.x ++ 0x3#7)]
  | .pgopEvict o => [(0x1#1 ++ o.s ++ o.g ++ 0xf3#8 ++ o.p ++ o.x ++ 0x4#7)]
  | .pgopPromote o => [(0x1#1 ++ o.s ++ o.g ++ 0xf3#8 ++ o.p ++ o.x ++ 0x5#7)]
  | .pgopSend o => [(0x1#1 ++ o.s ++ o.g ++ 0xf3#8 ++ o.p ++ o.x ++ 0x6#7)]
  | .tset o => [(0x1#1 ++ o.s ++ o.g ++ 0xf4#8 ++ o.i ++ 0x0#4 ++ o.n ++ o.a ++ o.b)]
  | .tanc o => [(0x1#1 ++ o.s ++ o.g ++ 0x1eb#9 ++ o.d ++ o.a ++ 0x0#4 ++ o.n)]
  | .tdepth o => [(0x1#1 ++ o.s ++ o.g ++ 0x1ed#9 ++ o.d ++ o.a ++ 0x0#4 ++ o.n)]
  | .tclr o => [(0x1#1 ++ o.s ++ o.g ++ 0x1ee0#13 ++ o.n ++ 0x0#12)]
  | .sysr o => [(0x1#1 ++ o.s ++ o.g ++ 0xf8#8 ++ o.r ++ o.d ++ 0x0#4)]
  | .sysw o => [(0x1#1 ++ o.s ++ o.g ++ 0xf9#8 ++ o.r ++ o.d ++ 0x0#4)]
  | .slackImm o => [(0x1#1 ++ o.s ++ o.g ++ 0x1f5#9 ++ o.i ++ 0x0#6)]
  | .slackReg o => [(0x1#1 ++ o.s ++ o.g ++ 0x1f400#17 ++ o.d ++ 0x0#4)]
  | .rdcnt o => [(0x1#1 ++ o.s ++ o.g ++ 0xfb#8 ++ o.r ++ o.d ++ 0x0#4)]
  | .rgfetch o => [(0x0#7 ++ o.t ++ o.s ++ 0x0#3 ++ o.d ++ 0xb#7)]
  | .bfext o => [(0x0#7 ++ o.t ++ o.s ++ 0x1#3 ++ o.d ++ 0xb#7)]
  | .sigwait o => [(0x0#7 ++ o.t ++ o.s ++ 0x2#3 ++ o.d ++ 0xb#7)]
  | .dispatch o => [(0x0#7 ++ o.t ++ o.s ++ 0x3#3 ++ o.d ++ 0xb#7)]
  | .forkPlacement _ _ | .vgrowGrant _ _ | .coreSpill _ | .spillRestore _ _ | .lateTrap _ _
  | .accessCompletion _ _ | .lazyStashWriteBack _ _ | .mmaStart _ | .mmaGranule _ | .mmaCompletion _
  | .cpyrApply _ | .copyGranule _ _ | .copyCommandEnd _ _ | .engineTranslationStall _ _
  | .caddyDataMoveDone _ _ | .automaticEviction _ | .workgroupExit _ | .hostLaunchQueueEntry _
  | .launchDispatch _ | .placerRound _ | .headReservation _ _ | .timeSliceExpiry _ _ | .contextSave _
  | .contextRestore _ | .watchdogExpiry _ | .unitTeardown _ | .resolutionLimitExpiry _ _ | .tokenPass _
  | .tokenReceipt _ | .deterministicSave _ | .submissionTailFire _ | .submitRecord _ | .cancelRecord _
  | .iterationForm _ | .consWatchFire _ | .parkLimit _ | .pollTimer | .fabWr _ | .fabWrrel _ | .fabRd _
  | .fabRdrsp _ | .fabAt _ | .fabAtrsp _ | .fabDone _ | .fabErr _ | .fabPgxfer _ | .fabPgack _ | .fabPgrel _
  | .fabPgrd _ | .custodyAck _ | .custodyResend _ | .custodyTimeout _ | .packageColdReset | .packageWarmReset
  | .dieReset _ | .clusterReset _ | .coreReset _ | .matrixEngineReset _ | .copyEngineReset _ | .caddyReset _
  | .kettleReset | .fabricPortReset _ | .hostFunctionReset _ | .samovarCoreReset _ | .powerStateChange _
  | .powerCapWrite _ | .thermalThrottle _ | .thermalDieReset _ | .bootRom | .recoveryImage _ | .requestUpdate
  | .passComponentTable | .updateComponent _ | .transferComplete | .verifyComplete | .applyComplete
  | .activateFirmware | .updateReadyTimeout | .securityVersionFuse | .getVersion | .getCapabilities
  | .negotiateAlgorithms _ | .getDigests | .getCertificate _ | .spdmChallenge _ | .getMeasurements _
  | .keyExchange _ | .spdmFinish _ | .endSession _ | .ideStreamInsecure _ | .getSensorReading _
  | .setAsidRoot _ _ _ _ | .invalidateTranslation _ _ _ _ | .resolveFault _ _ _ | .declareUnresolved _ _
  | .registerModel _ _ | .registerQueue _ _ | .setBudgets _ _ | .fabricSetup _ _ | .portPersonalitySelect _ _
  | .cancelLaunch _ _ | .sizePools _ _ | .debugTokenRequest _ _ | .lifecycleChange _ | .hostWriteTlp _ _ _ _
  | .hostReadTlp _ _ _ | .hostAtomicop _ _ _ _ _ _ | .mmioRegisterWrite _ _ _ | .linkLevelRetry _
  | .badpktDrop _ | .uetUnsupportedPacketDrop _ | .trainingStepComplete _ | .resetComplete _ | .powerLoss
  | .imageReportsReady | .ideKmRequest _ _ _ => []

end Sys2Proof
end

