-- ==== Sys2Proof/Config.lean ====
section
/-! DEFINITION. What an implementation fixes, and the free values: constants without a body, of which nothing can
be proved but that they exist. -/

namespace Sys2Proof.Config

/-- Which of n agents acts next (the n-th draw). The model uses it modulo the number of agents. -/
opaque choose : Nat → Nat

/-- 3.6 GHz cycles that pass before a step (the n-th draw). -/
opaque elapsed : Nat → Nat

/-- 8 ns ticks that a request waits in queues on its way (07 R139), the n-th draw. -/
opaque queueTicks : Nat → Nat

/-- Whether an L1 copy is still held when it is looked up (07 R131, R134), the n-th draw. -/
opaque l1Holds : Nat → Bool

/-- The pair of core-store rows in which an L1 line is put (07 R131), the n-th draw; modulo the pairs of a core. -/
opaque l1Row : Nat → Nat

/-- Whether an L2 has written a modified line back to DRAM since (07 R136), the n-th draw. -/
opaque l2Evicts : Nat → Bool

/-- Whether the instruction cache still holds a word when it is looked up (00 R3), the n-th draw. -/
opaque iHolds : Nat → Bool

/-- Which modified line an L2 slice that is full writes back (07 R136), the n-th draw. -/
opaque l2Victim : Nat → Nat

/-- Whether a request to a sector was merged with another, and with which (07 R142), the n-th draw. -/
opaque mergedWith : Nat → Nat

/-- Whether a TLB entry is still held when it is looked up (07 R133), the n-th draw. -/
opaque tlbHolds : Nat → Bool

/-- A free 32-bit value (00 R7 unpredictable), the n-th draw. -/
opaque freeWord : Nat → Word

/-- A free byte (00 R7 unpredictable), the n-th draw. -/
opaque freeByte : Nat → Byte

/-- Whether the host completes an AtomicOp with an error (09 R173), the n-th draw. -/
opaque hostAtomicFails : Nat → Bool

/-- Request bytes of a tenant that an L2 missed, of those in the last 16 µs (17 Table 17-5), the n-th draw. -/
opaque missedBytes : Nat → Nat → Nat

/-- Samovar's estimate of a tenant's power in watts (17 Table 17-5), the n-th draw. -/
opaque powerUse : Nat → Nat → Nat

/-- A cluster's power, by which clusters are throttled in descending order (21 R375), the n-th draw. -/
opaque clusterPower : Nat → Nat → Nat

/-- A sensor's reading (21 R369): sensor id and draw. -/
opaque sensorValue : Nat → Nat → Int

/-- Whether an engine command's slack had reached 0 before it started, or one of its reads returned LATE
(12 R234), the n-th draw. -/
opaque engineLate : Nat → Bool

/-- Whether an SPDM requester's signature or MAC verifies (21 R362), by session and draw. -/
opaque spdmVerifies : Nat → Nat → Bool

/-- Whether the named tenant consents to authorised debug, or the token authenticates (21 R372), the n-th draw. -/
opaque debugTokenValid : Nat → Bool

/-- Where the MSI-X table of a virtual function stands in its BAR0, in 8-byte units (21 Table 21-1). -/
opaque msixPlace : Nat

/-- What `mtval` holds after an exception of a Samovar core with a cause and what may be said of it (21 R363; RISC-V
leaves it to the implementation). -/
opaque samTval : Nat → BitVec 64 → BitVec 64

/-- Bytes of an SPDM certificate chain, digest or signature (21 R362), by draw. -/
opaque spdmBytes : Nat → Nat

/-- The decimal exponent with which a measured sensor is reported (21 Table 21-6), by sensor id. -/
opaque sensorExp : Nat → Int

/-- 8 ns ticks in a number of 3.6 GHz cycles: 28.8 cycles a tick (07 R139, 01 R14). -/
def ticksOf (cycles : Nat) : Nat := cycles * 5 / 144

/-- Microseconds in a number of 3.6 GHz cycles. -/
def microsOf (cycles : Nat) : Nat := cycles / 3600

end Sys2Proof.Config
end

