-- ==== Sys2Proof/Machine/Bits.lean ====
section
/-! DEFINITION. Bit fields and integer helpers that the meanings use (01 R34, 03 R50 to R58). -/

namespace Sys2Proof.Machine

/-- Bits [lo + n - 1 : lo] of a natural number. -/
def bitsN (x lo n : Nat) : Nat := x / 2 ^ lo % 2 ^ n

/-- Bit k of a number. -/
def bitN (x k : Nat) : Bool := x / 2 ^ k % 2 == 1

/-- Bit k of a word as a Bool. -/
def bit {w : Nat} (x : BitVec w) (k : Nat) : Bool := x.getLsbD k

/-- A word with bit k set to b. -/
def setBit {w : Nat} (x : BitVec w) (k : Nat) (b : Bool) : BitVec w :=
  if b then x ||| (1#w <<< k) else x &&& ~~~(1#w <<< k)

/-- A word whose bits [lo + n - 1 : lo] are replaced. -/
def setField {w : Nat} (x : BitVec w) (lo n v : Nat) : BitVec w :=
  (x &&& ~~~((BitVec.ofNat w (2 ^ n - 1)) <<< lo)) ||| (BitVec.ofNat w (v % 2 ^ n) <<< lo)

/-- A 1-bit field as a Bool. -/
def on (x : BitVec 1) : Bool := x == 1

/-- 1 or 0. -/
def b2w (b : Bool) : Word := if b then 1 else 0

/-- Clamp of 01 R34's exact arithmetic. -/
def clampInt (x lo hi : Int) : Int := if x < lo then lo else if hi < x then hi else x

/-- The number of 1 bits among the lowest k bits. -/
def popcount {w : Nat} (x : BitVec w) : Nat → Nat
  | 0 => 0
  | k + 1 => popcount x k + (if x.getLsbD k then 1 else 0)

/-- Index of the lowest 1 bit at or above bit i, looking at k bits; i + k when there is none. -/
def lowestFrom {w : Nat} (x : BitVec w) : Nat → Nat → Nat
  | 0, i => i
  | k + 1, i => if x.getLsbD i then i else lowestFrom x k (i + 1)

/-- Zeros above the highest 1 bit among the lowest k bits. -/
def leadingZeros {w : Nat} (x : BitVec w) : Nat → Nat
  | 0 => 0
  | k + 1 => if x.getLsbD k then 0 else leadingZeros x k + 1

/-- The word with bit k moved to bit 31 - k, built from the lowest n bits. -/
def reverseBits (x : Word) : Nat → Word
  | 0 => 0
  | n + 1 => reverseBits x n ||| (if x.getLsbD n then (0x80000000#32 >>> n) else 0)

/-- A 64-bit value of two words, low word first (01 R11). -/
def pair (lo hi : Word) : DWord := (hi ++ lo : BitVec 64)

def loWord (x : DWord) : Word := x.extractLsb' 0 32

def hiWord (x : DWord) : Word := x.extractLsb' 32 32

/-- The n low bytes of a number, least significant first (01 R34). -/
def leBytes : Nat → Nat → List Byte
  | 0, _ => []
  | n + 1, x => BitVec.ofNat 8 (x % 256) :: leBytes n (x / 256)

/-- The number that little-endian bytes make. -/
def leNat : List Byte → Nat
  | [] => 0
  | b :: bs => b.toNat + 256 * leNat bs

/-- A little-endian 32-bit word at offset o of a block of bytes. -/
def wordAt (bs : List Byte) (o : Nat) : Word := BitVec.ofNat 32 (leNat ((bs.drop o).take 4))

/-- A little-endian 64-bit value at offset o of a block of bytes. -/
def dwordAt (bs : List Byte) (o : Nat) : DWord := BitVec.ofNat 64 (leNat ((bs.drop o).take 8))

/-- The relation of a condition of Table 2-4 on two numbers: eq, ne, lt, le, gt, ge. -/
def condHolds (k : BitVec 3) (a b : Int) : Bool :=
  match k.toNat with
  | 0 => a == b
  | 1 => a != b
  | 2 => a < b
  | 3 => a ≤ b
  | 4 => b < a
  | _ => b ≤ a

/-- ceil(a / b) -/
def ceilDiv (a b : Nat) : Nat := (a + b - 1) / b

/-- The offsets from a up to b - 1 by step (fuel n). -/
def strides : Nat → Nat → Nat → List Nat
  | 0, _, _ => []
  | n + 1, a, step => a :: strides n (a + step) step

end Sys2Proof.Machine
end

