-- ==== Sys2Proof/Machine/Float.lean ====
section
/-! DEFINITION. Floating-point arithmetic, exact and then rounded once (01 R34 RoundFP32, 03 R59 to R64,
05 R106 to R109, 11 R204). -/

namespace Sys2Proof.Machine

/-! ## Formats (11 Table 11-2) -/

/-- A binary format: exponent and significand bits, bias, the greatest finite magnitude code, whether it has
infinities, and its canonical NaN. -/
structure Fmt where
  eb : Nat
  mb : Nat
  bias : Nat
  maxCode : Nat
  hasInf : Bool
  nan : Nat
  deriving DecidableEq, Repr

def fp32 : Fmt := ⟨8, 23, 127, 0x7F7FFFFF, true, 0x7FC00000⟩
def bf16 : Fmt := ⟨8, 7, 127, 0x7F7F, true, 0x7FC0⟩
def fp16 : Fmt := ⟨5, 10, 15, 0x7BFF, true, 0x7E00⟩
def e4m3 : Fmt := ⟨4, 3, 7, 0x7E, false, 0x7F⟩
def e5m2 : Fmt := ⟨5, 2, 15, 0x7B, true, 0x7E⟩
def e2m1 : Fmt := ⟨2, 1, 1, 0x7, false, 0⟩

/-- The value of a code: a NaN (signalling or not), an infinity, or (-1)^neg × m × 2^e. -/
inductive FVal where
  | nan (signalling : Bool)
  | inf (neg : Bool)
  | fin (neg : Bool) (m : Nat) (e : Int)
  deriving DecidableEq, Repr

/-- Rounding modes by FN (03 R60): RNE, RZ, RU, RD. -/
inductive RMode where
  | rne | rz | ru | rd
  deriving DecidableEq, Repr

/-- The rounding mode that the FN field selects. -/
def rmodeOf (r : BitVec 2) : RMode :=
  match r.toNat with
  | 0 => .rne
  | 1 => .rz
  | 2 => .ru
  | _ => .rd

/-! FSTAT masks of the sticky bits (01 Table 1-3). -/

def fNV : Word := 0x200#32
def fOF : Word := 0x400#32
def fUF : Word := 0x800#32
def fNX : Word := 0x1000#32
def fDZ : Word := 0x2000#32
def fSAT : Word := 0x4000#32
def fLATE : Word := 0x8000#32

/-- A mask when a condition holds. -/
def flagIf (b : Bool) (f : Word) : Word := if b then f else 0

/-- The value of a code of a format (11 R204). E2M1 has no special code, E4M3 has S.1111.111 alone. -/
def decodeF (f : Fmt) (x : Nat) : FVal :=
  let mag := x % 2 ^ (f.eb + f.mb)
  let neg := bitN x (f.eb + f.mb)
  let e := mag / 2 ^ f.mb
  let m := mag % 2 ^ f.mb
  if f.maxCode < mag then
    if f.hasInf && m == 0 then .inf neg
    else .nan (f.hasInf && m / 2 ^ (f.mb - 1) == 0)
  else if e = 0 then .fin neg m (1 - (f.bias : Int) - f.mb)
  else .fin neg (m + 2 ^ f.mb) ((e : Int) - f.bias - f.mb)

/-- The number of bits of m. -/
def bitLen (m : Nat) : Nat := if m = 0 then 0 else Nat.log2 m + 1

/-- floor(m / 2^sh) rounded by the mode on the bits shifted out; also whether any bit was lost. -/
def roundShift (rm : RMode) (neg : Bool) (m sh : Nat) : Nat × Bool :=
  let n := m / 2 ^ sh
  let r := m % 2 ^ sh
  let up :=
    match rm with
    | .rne => 2 ^ sh < 2 * r || (2 * r == 2 ^ sh && sh != 0 && n % 2 == 1)
    | .rz => false
    | .ru => r != 0 && !neg
    | .rd => r != 0 && neg
  (if up then n + 1 else n, r != 0)

/-- What rounding a nonzero magnitude m × 2^e gives: the magnitude code before overflow is judged, whether it is
inexact, and whether the result rounded to an unbounded exponent is tiny (03 R59, tininess after rounding). -/
structure Rounded where
  code : Nat
  inexact : Bool
  tiny : Bool
  deriving DecidableEq, Repr

/-- Rounds m × 2^e, m nonzero, to the precision of the format. A magnitude too large for the format has a code
beyond `maxCode`. -/
def roundMag (f : Fmt) (rm : RMode) (neg : Bool) (m : Nat) (e : Int) : Rounded :=
  let top : Int := e + bitLen m - 1
  let emin : Int := 1 - (f.bias : Int)
  let qmin : Int := emin - f.mb
  let qfree : Int := top - f.mb
  let q : Int := if qfree < qmin then qmin else qfree
  let at_ (q : Int) : Nat × Bool :=
    if q ≤ e then (m * 2 ^ (e - q).toNat, false) else roundShift rm neg m (q - e).toNat
  let r := at_ q
  let free := at_ qfree
  let tiny := top < emin && (top + 1 < emin || free.1 < 2 ^ (f.mb + 1))
  { code := (q - qmin).toNat * 2 ^ f.mb + r.1, inexact := r.2, tiny := tiny }

/-- RoundFP32 of 01 R34 for any format: the code of (-1)^neg × m × 2^e, m nonzero, and the flags OF, UF, NX. -/
def roundF (f : Fmt) (rm : RMode) (neg : Bool) (m : Nat) (e : Int) : Nat × Word :=
  let s := if neg then 2 ^ (f.eb + f.mb) else 0
  let r := roundMag f rm neg m e
  if f.maxCode < r.code then
    let toInf :=
      f.hasInf &&
      (match rm with
       | .rne => true
       | .rz => false
       | .ru => !neg
       | .rd => neg)
    (s + (if toInf then f.maxCode + 1 else f.maxCode), fOF ||| fNX)
  else (s + r.code, flagIf r.inexact fNX ||| flagIf (r.tiny && r.inexact) fUF)

/-- The code of a signed zero. -/
def zeroF (f : Fmt) (neg : Bool) : Nat := if neg then 2 ^ (f.eb + f.mb) else 0

/-- The code of an infinity. -/
def infF (f : Fmt) (neg : Bool) : Nat := zeroF f neg + f.maxCode + 1

/-- The code of an exact value (-1)^neg × m × 2^e that may be zero, rounded. -/
def packF (f : Fmt) (rm : RMode) (neg : Bool) (m : Nat) (e : Int) : Nat × Word :=
  if m = 0 then (zeroF f neg, 0) else roundF f rm neg m e

/-- Whether an operand is a signalling NaN. -/
def FVal.isSnan : FVal → Bool
  | .nan s => s
  | _ => false

def FVal.isNan : FVal → Bool
  | .nan _ => true
  | _ => false

/-- The sum of two finite values with one rounding; `rd0` decides the sign of an exact zero of opposite signs
(03 R59). -/
def addFin (f : Fmt) (rm : RMode) (n1 : Bool) (m1 : Nat) (e1 : Int) (n2 : Bool) (m2 : Nat) (e2 : Int) :
    Nat × Word :=
  let e := min e1 e2
  let x : Int := (m1 * 2 ^ (e1 - e).toNat : Nat)
  let y : Int := (m2 * 2 ^ (e2 - e).toNat : Nat)
  let z := (if n1 then -x else x) + (if n2 then -y else y)
  if z = 0 then
    (zeroF f (if m1 = 0 ∧ m2 = 0 ∧ n1 = n2 then n1 else rm == .rd), 0)
  else roundF f rm (z < 0) z.natAbs e

/-- a × b + d with one rounding (03 R60): canonical NaN and NV for the invalid cases and signalling operands. -/
def fmaV (f : Fmt) (rm : RMode) (a b d : FVal) : Nat × Word :=
  let nv := flagIf (a.isSnan || b.isSnan || d.isSnan) fNV
  match a, b with
  | .nan _, _ => (f.nan, nv)
  | _, .nan _ => (f.nan, nv)
  | .inf _, .fin _ 0 _ => (f.nan, fNV)
  | .fin _ 0 _, .inf _ => (f.nan, fNV)
  | .inf na, .inf nb => addInf (na != nb) nv
  | .inf na, .fin nb _ _ => addInf (na != nb) nv
  | .fin na _ _, .inf nb => addInf (na != nb) nv
  | .fin na ma ea, .fin nb mb eb =>
    match d with
    | .nan _ => (f.nan, nv)
    | .inf nd => (infF f nd, 0)
    | .fin nd md ed => addFin f rm (na != nb) (ma * mb) (ea + eb) nd md ed
where
  /-- an infinite product of sign n plus d -/
  addInf (n : Bool) (nv : Word) : Nat × Word :=
    match d with
    | .nan _ => (f.nan, nv)
    | .inf nd => if nd = n then (infF f n, 0) else (f.nan, fNV)
    | .fin _ _ _ => (infF f n, 0)

/-- a + b with one rounding. -/
def addV (f : Fmt) (rm : RMode) (a b : FVal) : Nat × Word :=
  match a, b with
  | .nan s, y => (f.nan, flagIf (s || y.isSnan) fNV)
  | _, .nan s => (f.nan, flagIf s fNV)
  | .inf n, .inf k => if n = k then (infF f n, 0) else (f.nan, fNV)
  | .inf n, .fin _ _ _ => (infF f n, 0)
  | .fin _ _ _, .inf n => (infF f n, 0)
  | .fin n1 m1 e1, .fin n2 m2 e2 => addFin f rm n1 m1 e1 n2 m2 e2

/-- a × b with one rounding. -/
def mulV (f : Fmt) (rm : RMode) (a b : FVal) : Nat × Word :=
  match a, b with
  | .nan s, y => (f.nan, flagIf (s || y.isSnan) fNV)
  | _, .nan s => (f.nan, flagIf s fNV)
  | .inf _, .fin _ 0 _ => (f.nan, fNV)
  | .fin _ 0 _, .inf _ => (f.nan, fNV)
  | .inf n, .inf k => (infF f (n != k), 0)
  | .inf n, .fin k _ _ => (infF f (n != k), 0)
  | .fin n _ _, .inf k => (infF f (n != k), 0)
  | .fin n1 m1 e1, .fin n2 m2 e2 => packF f rm (n1 != n2) (m1 * m2) (e1 + e2)

/-- The value with its sign flipped (a NaN is unchanged). -/
def FVal.negate : FVal → FVal
  | .nan s => .nan s
  | .inf n => .inf (!n)
  | .fin n m e => .fin (!n) m e

/-! ## binary32 on words -/

def val32 (x : Word) : FVal := decodeF fp32 x.toNat

/-- A rounded result as a word with its flags. -/
def toWord (r : Nat × Word) : Word × Word := (BitVec.ofNat 32 r.1, r.2)

def fadd (rm : RMode) (a b : Word) : Word × Word := toWord (addV fp32 rm (val32 a) (val32 b))

def fsub (rm : RMode) (a b : Word) : Word × Word := toWord (addV fp32 rm (val32 a) (val32 b).negate)

def fmul (rm : RMode) (a b : Word) : Word × Word := toWord (mulV fp32 rm (val32 a) (val32 b))

def ffma (rm : RMode) (a b d : Word) : Word × Word := toWord (fmaV fp32 rm (val32 a) (val32 b) (val32 d))

/-- A total order key of a non-NaN binary32 value in which −0 stands below +0 (03 R61). -/
def orderKey (x : Word) : Int :=
  let m : Int := (x.toNat % 2 ^ 31 : Nat)
  if bit x 31 then -m - 1 else m

/-- `fminmax` (03 R61): max or min, number form or NaN-propagating form. -/
def fminmax (isMax nanForm : Bool) (a b : Word) : Word × Word :=
  let va := val32 a
  let vb := val32 b
  let nv := flagIf (va.isSnan || vb.isSnan) fNV
  match va.isNan, vb.isNan with
  | true, true => (0x7FC00000#32, nv)
  | true, false => (if nanForm then 0x7FC00000#32 else b, nv)
  | false, true => (if nanForm then 0x7FC00000#32 else a, nv)
  | false, false =>
    let aFirst := if isMax then orderKey b ≤ orderKey a else orderKey a ≤ orderKey b
    (if aFirst then a else b, 0)

/-- A comparison key of a non-NaN value: zeros are equal, infinities beyond every number. -/
def cmpKey (x : Word) : Int :=
  let m : Int := (x.toNat % 2 ^ 31 : Nat)
  if bit x 31 then -m else m

/-- `fcmp` (03 R62): the relation and the flags, ordered or unordered form. -/
def fcmp (k : BitVec 3) (unordered : Bool) (a b : Word) : Bool × Word :=
  let va := val32 a
  let vb := val32 b
  let snan := va.isSnan || vb.isSnan
  if va.isNan || vb.isNan then
    (unordered, flagIf (if unordered then snan else snan || 2 ≤ k.toNat) fNV)
  else (condHolds k (cmpKey a) (cmpKey b), 0)

/-! ## Special functions (03 R63): the exact value correctly rounded to nearest even -/

/-- Rounds to nearest even the positive value m × 2^e of which m is the floor, `more` when something was lost
below it. m has at least 28 bits, so that one further bit stands for all that was lost. -/
def roundSticky (neg : Bool) (m : Nat) (more : Bool) (e : Int) : Nat × Word :=
  roundF fp32 .rne neg (2 * m + (if more then 1 else 0)) (e - 1)

/-- 1/a of a nonzero finite value. -/
def recipFin (neg : Bool) (m : Nat) (e : Int) : Nat × Word :=
  let k := bitLen m + 40
  roundSticky neg (2 ^ k / m) (2 ^ k % m != 0) (-(k : Int) - e)

def frcp (a : Word) : Word × Word :=
  match val32 a with
  | .nan s => (0x7FC00000#32, flagIf s fNV)
  | .inf n => toWord (zeroF fp32 n, 0)
  | .fin n 0 _ => toWord (infF fp32 n, fDZ)
  | .fin n m e => toWord (recipFin n m e)

/-- The integer square root of x, bit by bit from bit k - 1 down (r is the part found). -/
def isqrtFrom (x : Nat) : Nat → Nat → Nat
  | 0, r => r
  | k + 1, r => if (r + 2 ^ k) * (r + 2 ^ k) ≤ x then isqrtFrom x k (r + 2 ^ k) else isqrtFrom x k r

/-- 1/√(m × 2^e) of a positive value. -/
def rsqrtFin (m : Nat) (e : Int) : Nat × Word :=
  let odd := e % 2 ≠ 0
  let m' := if odd then 2 * m else m
  let e' := if odd then e - 1 else e
  let n := 2 ^ 160
  let r := isqrtFrom (n / m') 81 0
  roundSticky false r (r * r * m' != n) (-80 - e' / 2)

def frsq (a : Word) : Word × Word :=
  match val32 a with
  | .nan s => (0x7FC00000#32, flagIf s fNV)
  | .inf n => if n then (0x7FC00000#32, fNV) else (0, 0)
  | .fin n 0 _ => toWord (infF fp32 n, 0)
  | .fin true _ _ => (0x7FC00000#32, fNV)
  | .fin false m e => toWord (rsqrtFin m e)

/-- floor(2^192 ln 2). -/
def ln2Fix : Nat := 4350955369971217654477563090224794165364344896676135745069

/-- floor(2^192 / ln 2). -/
def invLn2Fix : Nat := 9055943544797870567083544809312461607371518589544137143473

/-- The terms y^i / i! from the i-th on, 192 fraction bits (fuel n). -/
def expTerms (y : Nat) : Nat → Nat → Nat → Nat
  | 0, _, _ => 0
  | n + 1, i, t => t + expTerms y n (i + 1) (t * y / 2 ^ 192 / (i + 1))

/-- floor(2^192 × 2^f) for f = x / 2^64, 0 ≤ f < 1, to within 2^-180. -/
def exp2Frac (x : Nat) : Nat := expTerms (x * ln2Fix / 2 ^ 64) 60 0 (2 ^ 192)

/-- 2^a of a finite value (03 R63). A magnitude below 2^-30 rounds to 1, and one of 2^8 or more leaves the range;
between them the value is an integer part and 64 exact fraction bits. -/
def exp2Fin (neg : Bool) (m : Nat) (e : Int) : Nat × Word :=
  let top := e + bitLen m
  if m = 0 then (0x3F800000, 0)
  else if top < -30 then (0x3F800000, fNX)
  else if 9 < top then
    if neg then roundF fp32 .rne false 1 (-1000) else roundF fp32 .rne false 1 1000
  else
    let x : Int := (m * 2 ^ (e + 64).toNat : Nat)
    let z := if neg then -x else x
    let i := z / 2 ^ 64
    let f := (z % 2 ^ 64).toNat
    if f = 0 then roundF fp32 .rne false 1 i else roundSticky false (exp2Frac f) true (i - 192)

def fex2 (a : Word) : Word × Word :=
  match val32 a with
  | .nan s => (0x7FC00000#32, flagIf s fNV)
  | .inf n => if n then (0, 0) else (0x7F800000#32, 0)
  | .fin n m e => toWord (exp2Fin n m e)

/-- The terms z^(2i+1) / (2i+1) of the inverse hyperbolic tangent, 192 fraction bits (fuel n). -/
def atanhTerms (z2 : Nat) : Nat → Nat → Nat → Nat
  | 0, _, _ => 0
  | n + 1, i, t => t / (2 * i + 1) + atanhTerms z2 n (i + 1) (t * z2 / 2 ^ 192)

/-- floor(2^192 log2 t) for t = m / 2^k, 2^k ≤ m < 2^(k+1), to within 2^-180. -/
def log2Frac (m k : Nat) : Nat :=
  let z := (m - 2 ^ k) * 2 ^ 192 / (m + 2 ^ k)
  2 * atanhTerms (z * z / 2 ^ 192) 64 0 z * invLn2Fix / 2 ^ 192

/-- log2 of a positive value (03 R63). -/
def log2Fin (m : Nat) (e : Int) : Nat × Word :=
  let k := bitLen m - 1
  let i : Int := e + k
  if m = 2 ^ k then packF fp32 .rne (i < 0) i.natAbs 0
  else
    let z : Int := i * 2 ^ 192 + (log2Frac m k : Nat)
    roundSticky (z < 0) z.natAbs true (-192)

def flg2 (a : Word) : Word × Word :=
  match val32 a with
  | .nan s => (0x7FC00000#32, flagIf s fNV)
  | .inf n => if n then (0x7FC00000#32, fNV) else (0x7F800000#32, 0)
  | .fin _ 0 _ => (0xFF800000#32, fDZ)
  | .fin true _ _ => (0x7FC00000#32, fNV)
  | .fin false m e => toWord (log2Fin m e)

/-! ## Conversions (03 R64, 05 R107, R108) -/

/-- The truncation of m × 2^e and whether a fraction was discarded. -/
def truncFin (m : Nat) (e : Int) : Nat × Bool :=
  if 0 ≤ e then (m * 2 ^ (min e 128).toNat, false)
  else (m / 2 ^ (-e).toNat, m % 2 ^ (-e).toNat != 0)

/-- f32 → integer, round toward zero, between lo and hi (03 R64). -/
def f2int (lo hi : Int) (a : Word) : Word × Word :=
  match val32 a with
  | .nan _ => (0, fNV)
  | .inf n => (BitVec.ofInt 32 (if n then lo else hi), fNV)
  | .fin n m e =>
    let t := truncFin m e
    let z : Int := if n then -(t.1 : Int) else t.1
    if z < lo then (BitVec.ofInt 32 lo, fNV)
    else if hi < z then (BitVec.ofInt 32 hi, fNV)
    else (BitVec.ofInt 32 z, flagIf t.2 fNX)

def cvtI32 (a : Word) : Word × Word := f2int (-2147483648) 2147483647 a

def cvtN32 (a : Word) : Word × Word := f2int 0 4294967295 a

/-- An exact integer to f32, RNE. -/
def int2f (z : Int) : Word × Word := toWord (packF fp32 .rne (z < 0) z.natAbs 0)

def cvtFromI32 (a : Word) : Word × Word := int2f a.toInt

def cvtFromN32 (a : Word) : Word × Word := int2f a.toNat

/-- Narrowing to a format under RNE (05 R107, R108): E4M3 saturates. -/
def narrow (f : Fmt) (a : Word) : Nat × Word :=
  match val32 a with
  | .nan s => (f.nan, flagIf s fNV)
  | .inf n => if f.hasInf then (infF f n, 0) else (zeroF f n + f.maxCode, fNX)
  | .fin n m e => packF f .rne n m e

/-- Widening a code of a format to FP32 exactly. -/
def widen (f : Fmt) (x : Nat) : Word × Word :=
  match decodeF f x with
  | .nan s => (0x7FC00000#32, flagIf s fNV)
  | .inf n => toWord (infF fp32 n, 0)
  | .fin n m e => toWord (packF fp32 .rne n m e)

/-! ## Packed halves (05 R109) -/

/-- Half h of a pair. -/
def half (x : Word) (h : Nat) : Nat := bitsN x.toNat (16 * h) 16

/-- Two 16-bit results as a word, flags ORed. -/
def packHalves (lo hi : Nat × Word) : Word × Word :=
  (BitVec.ofNat 32 (lo.1 + 65536 * hi.1), lo.2 ||| hi.2)

def hadd2 (f : Fmt) (a b : Word) : Word × Word :=
  let go (h : Nat) := addV f .rne (decodeF f (half a h)) (decodeF f (half b h))
  packHalves (go 0) (go 1)

def hmul2 (f : Fmt) (a b : Word) : Word × Word :=
  let go (h : Nat) := mulV f .rne (decodeF f (half a h)) (decodeF f (half b h))
  packHalves (go 0) (go 1)

def hfma2 (f : Fmt) (a b d : Word) : Word × Word :=
  let go (h : Nat) := fmaV f .rne (decodeF f (half a h)) (decodeF f (half b h)) (decodeF f (half d h))
  packHalves (go 0) (go 1)

end Sys2Proof.Machine
end

