-- ==== Sys2Proof/Machine/Flags.lean ====
section
/-! DEFINITION. The integer results and the FSTAT bits they raise (03 R52 to R58, R65): functions of the operand
values a, b and the old destination d, used by the uniform and the lane set alike (05 R102). A result is a word
with the mask of FSTAT bits that it sets. -/

namespace Sys2Proof.Machine

/-- A result that raises no FSTAT bit. -/
def plain (x : Word) : Word × Word := (x, 0)

/-- The saturating forms of R52: an exact value clamped to lo and hi, with SAT when it was clamped. -/
def saturate (lo hi x : Int) : Word × Word :=
  (BitVec.ofInt 32 (clampInt x lo hi), flagIf (x < lo || hi < x) fSAT)

def satI32 (x : Int) : Word × Word := saturate (-2147483648) 2147483647 x

def satN32 (x : Int) : Word × Word := saturate 0 4294967295 x

/-- Bits [63:32] of an exact product. -/
def highHalf (x : Int) : Word := (BitVec.ofInt 64 x).extractLsb' 32 32

/-- The shifts of R53. The amount is a full 32-bit unsigned value. -/
def shlW (a n : Word) : Word := if n.toNat < 32 then a <<< n.toNat else 0

def shrW (a n : Word) : Word := if n.toNat < 32 then a >>> n.toNat else 0

def sarW (a n : Word) : Word := a.sshiftRight (min n.toNat 32)

def rolW (a n : Word) : Word := a.rotateLeft (n.toNat % 32)

/-- The field descriptor of R54: position and length. -/
def fieldPos (b : Word) : Nat := bitsN b.toNat 0 5

def fieldLen (b : Word) : Nat := min (bitsN b.toNat 8 6) (32 - fieldPos b)

/-- `bfx.n32` of R54. -/
def bfxN (a b : Word) : Word := BitVec.ofNat 32 (bitsN a.toNat (fieldPos b) (fieldLen b))

/-- `bfx.i32` of R54. -/
def bfxI (a b : Word) : Word :=
  let l := fieldLen b
  let x := bitsN a.toNat (fieldPos b) l
  if l = 0 then 0
  else if bitN x (l - 1) then BitVec.ofInt 32 ((x : Int) - (2 ^ l : Nat)) else BitVec.ofNat 32 x

/-- `bfi` of R54: the field of d replaced by the low bits of a. -/
def bfiW (a b d : Word) : Word := setField d (fieldPos b) (fieldLen b) a.toNat

/-- `amin` and `amax` of R55. -/
def aminI (a b d : Word) : Word := if (a + b).toInt < d.toInt then a + b else d

def aminN (a b d : Word) : Word := if (a + b).toNat < d.toNat then a + b else d

def amaxI (a b d : Word) : Word := if d.toInt < (a + b).toInt then a + b else d

def amaxN (a b d : Word) : Word := if d.toNat < (a + b).toNat then a + b else d

def minI (a b : Word) : Word := if b.toInt < a.toInt then b else a

def minN (a b : Word) : Word := if b.toNat < a.toNat then b else a

def maxI (a b : Word) : Word := if a.toInt < b.toInt then b else a

def maxN (a b : Word) : Word := if a.toNat < b.toNat then b else a

/-- The relations of R56. -/
def cmpI (k : BitVec 3) (a b : Word) : Bool := condHolds k a.toInt b.toInt

def cmpN (k : BitVec 3) (a b : Word) : Bool := condHolds k a.toNat b.toNat

/-- The unsigned 64-bit relation of R58. -/
def cmp64 (k : BitVec 3) (x y : DWord) : Bool := condHolds k x.toNat y.toNat

/-- Table 3-3. -/
def divI (a b : Word) : Word :=
  if b = 0 then 0xFFFFFFFF else BitVec.ofInt 32 (a.toInt.tdiv b.toInt)

def divN (a b : Word) : Word := if b = 0 then 0xFFFFFFFF else BitVec.ofNat 32 (a.toNat / b.toNat)

def remI (a b : Word) : Word := if b = 0 then a else BitVec.ofInt 32 (a.toInt.tmod b.toInt)

def remN (a b : Word) : Word := if b = 0 then a else BitVec.ofNat 32 (a.toNat % b.toNat)

/-! ## The operations of Table 3-2 as functions of a, b and d -/

/-- An operation of Table 3-2 or of R59 to R64: operands a, b and old destination d to a result with its flags. -/
abbrev Alu := Word → Word → Word → Word × Word

def aAdd : Alu := fun a b _ => plain (a + b)
def aAddSatI32 : Alu := fun a b _ => satI32 (a.toInt + b.toInt)
def aAddSatN32 : Alu := fun a b _ => satN32 (a.toNat + b.toNat)
def aSub : Alu := fun a b _ => plain (a - b)
def aSubSatI32 : Alu := fun a b _ => satI32 (a.toInt - b.toInt)
def aSubSatN32 : Alu := fun a b _ => satN32 ((a.toNat : Int) - b.toNat)
def aMul : Alu := fun a b _ => plain (a * b)
def aMulhI32 : Alu := fun a b _ => plain (highHalf (a.toInt * b.toInt))
def aMulhN32 : Alu := fun a b _ => plain (BitVec.ofNat 32 (a.toNat * b.toNat / 4294967296))
def aMad : Alu := fun a b d => plain (a * b + d)
def aMinI32 : Alu := fun a b _ => plain (minI a b)
def aMinN32 : Alu := fun a b _ => plain (minN a b)
def aMaxI32 : Alu := fun a b _ => plain (maxI a b)
def aMaxN32 : Alu := fun a b _ => plain (maxN a b)
def aAnd : Alu := fun a b _ => plain (a &&& b)
def aOr : Alu := fun a b _ => plain (a ||| b)
def aXor : Alu := fun a b _ => plain (a ^^^ b)
def aAndn : Alu := fun a b _ => plain (a &&& ~~~b)
def aShl : Alu := fun a b _ => plain (shlW a b)
def aShr : Alu := fun a b _ => plain (shrW a b)
def aSar : Alu := fun a b _ => plain (sarW a b)
def aRol : Alu := fun a b _ => plain (rolW a b)
def aPopc : Alu := fun a _ _ => plain (BitVec.ofNat 32 (popcount a 32))
def aClz : Alu := fun a _ _ => plain (BitVec.ofNat 32 (leadingZeros a 32))
def aBrev : Alu := fun a _ _ => plain (reverseBits a 32)
def aFfs : Alu := fun a _ _ => plain (BitVec.ofNat 32 (lowestFrom a 32 0))
def aBfxI32 : Alu := fun a b _ => plain (bfxI a b)
def aBfxN32 : Alu := fun a b _ => plain (bfxN a b)
def aBfi : Alu := fun a b d => plain (bfiW a b d)
def aAminI32 : Alu := fun a b d => plain (aminI a b d)
def aAminN32 : Alu := fun a b d => plain (aminN a b d)
def aAmaxI32 : Alu := fun a b d => plain (amaxI a b d)
def aAmaxN32 : Alu := fun a b d => plain (amaxN a b d)
def aMov : Alu := fun _ b _ => plain b
def aDivI32 : Alu := fun a b _ => plain (divI a b)
def aDivN32 : Alu := fun a b _ => plain (divN a b)
def aRemI32 : Alu := fun a b _ => plain (remI a b)
def aRemN32 : Alu := fun a b _ => plain (remN a b)
def aFadd (r : BitVec 2) : Alu := fun a b _ => fadd (rmodeOf r) a b
def aFsub (r : BitVec 2) : Alu := fun a b _ => fsub (rmodeOf r) a b
def aFmul (r : BitVec 2) : Alu := fun a b _ => fmul (rmodeOf r) a b
def aFfma (r : BitVec 2) : Alu := fun a b d => ffma (rmodeOf r) a b d
def aFmin : Alu := fun a b _ => fminmax false false a b
def aFmax : Alu := fun a b _ => fminmax true false a b
def aFminNan : Alu := fun a b _ => fminmax false true a b
def aFmaxNan : Alu := fun a b _ => fminmax true true a b
def aFrcp : Alu := fun a _ _ => frcp a
def aFrsq : Alu := fun a _ _ => frsq a
def aFex2 : Alu := fun a _ _ => fex2 a
def aFlg2 : Alu := fun a _ _ => flg2 a
def aCvtiI32F32 : Alu := fun a _ _ => cvtI32 a
def aCvtiN32F32 : Alu := fun a _ _ => cvtN32 a
def aCvtiF32I32 : Alu := fun a _ _ => cvtFromI32 a
def aCvtiF32N32 : Alu := fun a _ _ => cvtFromN32 a
def aFabs : Alu := fun a _ _ => plain (a &&& 0x7FFFFFFF)
def aFneg : Alu := fun a _ _ => plain (a ^^^ 0x80000000)
def aFcopysign : Alu := fun a b _ => plain ((a &&& 0x7FFFFFFF) ||| (b &&& 0x80000000))
/-- `cvtf` pack (R107): two narrowed halves. -/
def aCvtfPack (f : Fmt) : Alu := fun a b _ => packHalves (narrow f a) (narrow f b)
/-- `cvtf` unpack of half h (R107). -/
def aCvtfUnpack (f : Fmt) (h : Nat) : Alu := fun a _ _ => widen f (half a h)
/-- `cvt8` packing into byte k of d (R108). -/
def aCvt8Pack (f : Fmt) (k : Nat) : Alu := fun a _ d =>
  let r := narrow f a
  (setField d (8 * k) 8 r.1, r.2)
/-- `cvt8` widening of byte k (R108). -/
def aCvt8Unpack (f : Fmt) (k : Nat) : Alu := fun a _ _ => widen f (bitsN a.toNat (8 * k) 8)
def aHadd2 (f : Fmt) : Alu := fun a b _ => hadd2 f a b
def aHmul2 (f : Fmt) : Alu := fun a b _ => hmul2 f a b
def aHfma2 (f : Fmt) : Alu := fun a b d => hfma2 f a b d

/-- A comparison: condition code, operands, relation and flags (R56, R62). -/
abbrev Cmp := BitVec 3 → Word → Word → Bool × Word

def kCmpI32 : Cmp := fun k a b => (cmpI k a b, 0)
def kCmpN32 : Cmp := fun k a b => (cmpN k a b, 0)
def kFcmp : Cmp := fun k a b => fcmp k false a b
def kFcmpUn : Cmp := fun k a b => fcmp k true a b

end Sys2Proof.Machine
end

