-- ==== Sys2Proof/Machine/Tbl.lean ====
section
/-! DEFINITION. Sparse tables: association lists with strictly rising keys, the plain data in which the state keeps
everything of which there are many (workgroups, cells of memory, table entries). -/

namespace Sys2Proof.Machine

/-- A sparse table keyed by a number, keys strictly rising. -/
abbrev Tbl (α : Type) := List (Nat × α)

/-- The entry of key k. -/
def Tbl.find {α : Type} : Tbl α → Nat → Option α
  | [], _ => none
  | (j, a) :: t, k => if j = k then some a else Tbl.find t k

/-- The entry of key k, or a default. -/
def Tbl.getD {α : Type} (t : Tbl α) (k : Nat) (d : α) : α := (Tbl.find t k).getD d

/-- Writes the entry of key k, keeping the keys rising. -/
def Tbl.put {α : Type} : Tbl α → Nat → α → Tbl α
  | [], k, a => [(k, a)]
  | (j, b) :: t, k, a =>
    if k < j then (k, a) :: (j, b) :: t
    else if k = j then (k, a) :: t
    else (j, b) :: Tbl.put t k a

/-- Removes the entry of key k. -/
def Tbl.del {α : Type} : Tbl α → Nat → Tbl α
  | [], _ => []
  | (j, b) :: t, k => if j = k then t else (j, b) :: Tbl.del t k

/-- Changes the entry of key k where there is one. -/
def Tbl.upd {α : Type} (t : Tbl α) (k : Nat) (f : α → α) : Tbl α :=
  match Tbl.find t k with
  | none => t
  | some a => Tbl.put t k (f a)

/-- Changes every entry. -/
def Tbl.each {α : Type} (t : Tbl α) (f : Nat → α → α) : Tbl α := t.map fun e => (e.1, f e.1 e.2)

/-- The entries alone, in key order. -/
def Tbl.vals {α : Type} (t : Tbl α) : List α := t.map (·.2)

/-- The keys, in order. -/
def Tbl.keys {α : Type} (t : Tbl α) : List Nat := t.map (·.1)

/-- The least number not below n that is no key of the table (fuel bounds the search). -/
def Tbl.freeFrom {α : Type} (t : Tbl α) : Nat → Nat → Nat
  | 0, n => n
  | fuel + 1, n => if (Tbl.find t n).isSome then Tbl.freeFrom t fuel (n + 1) else n

end Sys2Proof.Machine
end

