-- ==== Sys2Proof/Machine/State.lean ====
section
/-! DEFINITION. The state of a KN4 package as plain data, its faults and refusals, and the state after reset. -/

namespace Sys2Proof.Machine

/-! ## Faults of the instruction set (18 R316) -/

/-- The fault codes of 18 Table 18-1. -/
inductive Code where
  | illegalOp | reservedField | privilege | misalign | translation | protection | scratchBounds | peerInvalid
  | divstackFull | stallShort | window | queueState | poison | engineParam | ticketPoison | late | trapSw | brk
  | watchFull | peerFault | watchdog | delivery | tokenMisuse
  deriving DecidableEq, Repr

/-- A fault as an instruction raises it: code, subcode, faulting address, and whether it is the replayable
translation fault of 07 R133. -/
structure Trap where
  code : Code
  sub : Nat
  addr : DWord
  replay : Bool
  deriving DecidableEq, Repr

/-! ## The fibre (01 Table 1-1) -/

/-- A register of a fibre as a target of a write: uniform, condition, lane register by window row and strand,
predicate by strand. -/
inductive Reg where
  | s (n : Nat)
  | c (n : Nat)
  | v (row strand : Nat)
  | p (n strand : Nat)
  deriving DecidableEq, Repr

/-- A fixed-latency result in flight (01 R26 to R28): `ready` is its nominal ready cycle. -/
structure InFlight where
  reg : Reg
  ready : Nat
  val : Word
  deriving DecidableEq, Repr

/-- A queue port s48 to s55 (09 R181 to R183). -/
structure Port where
  bound : Bool
  out : Bool
  slot : Nat
  allow : Nat
  deriving DecidableEq, Repr

/-- Why a fibre does not issue (18 Table 18-6 SLEEP): the wait it is in. -/
inductive Sleep where
  | awake
  | bar (b : Nat) (parity : Bool)
  | knot (slot : Nat) (parity : Bool)
  | tkwait (obj : DWord) (ticket : Word)
  | wwait (handle : Word)
  | bcwait (obj : DWord) (parity : Bool)
  | pop (port : Nat)
  | push (port : Nat)
  | rows
  | parked
  | cwait (kind bound : Nat)
  /-- waits for something that 09 R91 does not count as sleep: a full engine queue, a quiescent bank, a reply from
  the fabric, the commit token -/
  | held
  /-- stalled before a token-class instruction (18 R332) -/
  | token
  /-- a barrier or knot phase it waited for has completed (09 R179, R180) -/
  | woken
  deriving DecidableEq, Repr

/-- A memory instruction whose accesses are not all performed (08 R151): the fibre that issued it, which counters it
stands in, the slack it carries (07 R138), when it issued, its PC, the addresses of its accesses in the order in which
they were made, each with a mark for LATE on arrival (07 R143), and the fabric packets it waits for. -/
structure Outstanding where
  uid : Nat
  ld : Bool
  st : Bool
  slack : BitVec 12
  tick : Nat
  pc : DWord
  accs : List (DWord × Bool)
  tags : List Nat
  /-- its stores, by number, of which some may still stand among the fibre's stores that are not performed -/
  stores : List Nat
  /-- its loads, by number, of which some may still stand among those whose value is not fixed (08 R145, R154) -/
  loads : List Nat
  /-- the instruction has retired: no part of it is still to be issued (04 R95) -/
  whole : Bool
  /-- a late completion of an earlier part of the instruction has been counted (07 R143) -/
  again : Bool
  deriving DecidableEq, Repr

/-- A plain store that has been issued and is not performed yet (08 R145, R150, R154): its number, the agent that made it
(a strand, or none for the uniform pipe, 08 R144), the place of its bytes (the workgroup of a scratchpad and an offset, or
none and a physical address), the location that they are, which for a mapped stash byte is the global one (08 R145), whether
it drops the L1 copy (09 R168), and whether an `Outstanding` entry names it. -/
structure PendStore where
  serial : Nat
  agent : Option Nat
  key : Option Nat
  addr : Nat
  loc : Option Nat × Nat
  bytes : List Byte
  nc : Bool
  named : Bool
  deriving DecidableEq, Repr

/-- A plain load whose value is not fixed yet (08 R145, R150, R154): what it has read stands in its registers, and while
nothing has asked for them it may still read again. Its number, its agent, the place and the location of its bytes, how
many, the SZ that gives the registers' values (09 R165), and the registers, in ascending address. -/
structure LateLoad where
  serial : Nat
  agent : Option Nat
  key : Option Nat
  addr : Nat
  loc : Option Nat × Nat
  n : Nat
  z : BitVec 3
  regs : List Reg
  deriving DecidableEq, Repr

/-- The reply to a fabric load or atomic (20 R356): the bytes, the bytes with a mark for those of a poisoned sector, or an
error reason. -/
inductive FabReply where
  | data (bytes : List Byte)
  | poisoned (bytes : List (Byte × Bool))
  | error (reason : Nat)
  deriving DecidableEq, Repr

/-- A fabric load or atomic in progress: the strand it belongs to, its tag, and the reply once it is there. -/
structure FabWait where
  strand : Nat
  tag : Nat
  late : Bool
  reply : Option FabReply
  deriving DecidableEq, Repr

/-- A request that waits for rows (04 R87, R89): a window of w registers, or a fork. -/
inductive RowsReq where
  | grow (w : Nat)
  | fork (pc : DWord) (v : Word)
  /-- the fork has been placed, as this fibre; the word retires when the fibre goes on -/
  | placed (fid : Nat)
  deriving DecidableEq, Repr

/-- An imprecise fault waiting for the next instruction boundary (07 R143, 18 R321). -/
structure Imprecise where
  code : Code
  pc : DWord
  addr : DWord
  deriving DecidableEq, Repr

/-- A fibre (01 R9, Table 1-1 and Table 1-2; 04; 05; 09; 18 Table 18-6). -/
structure Fibre where
  /-- serial number in the workgroup, so that a later fibre of the same index is told apart -/
  uid : Nat
  fid : Nat
  lane : Nat
  slot : Nat
  s : Vector Word 64
  v : Vector (Vector Word 16) 64
  p : Vector (BitVec 16) 8
  c : Vector Bool 8
  pc : DWord
  fstat : Word
  fctl : Word
  /-- WIN.BASE and WIN.W -/
  base : Nat
  win : Nat
  rots : Nat
  rotb : Nat
  /-- declared divergence depth D, DIVD, and the stack rows -/
  depth : Nat
  divd : Nat
  stack : Vector (Vector Word 16) 4
  active : BitVec 16
  exitMask : BitVec 16
  slack : BitVec 12
  latec : Word
  retc : DWord
  trappc : DWord
  tcause : Word
  taddr : DWord
  /-- s3, s7 sources are in s; the nominal issue cycle of the next word (01 R27) and the results in flight -/
  nom : Nat
  pend : List InFlight
  /-- uniform registers that an engine result will still write (12 R239, 13 R259) -/
  busy : List Nat
  outs : List Outstanding
  engo : Nat
  sleep : Sleep
  rowsReq : Option RowsReq
  /-- barrier records RV and RP, bit b for named barrier b (09 R179) -/
  rv : BitVec 16
  rp : BitVec 16
  /-- values popped and held, by port (09 R182) -/
  popped : Tbl Word
  ports : Vector Port 8
  /-- handles of the watch entries the fibre armed (09 R189) -/
  watches : List Nat
  imprecise : List Imprecise
  /-- a late completion arrived while FSTAT.TM = 1 (18 R320): PC and address of the first -/
  lateInTrap : Option (DWord × DWord)
  /-- fabric-error mark (20 R356) -/
  fabErr : Bool
  fabWait : Option FabWait
  /-- the strand at which an L word that waits for the fabric goes on; strands below it are done -/
  midStrand : Nat
  /-- RIX restricts the next L word (03 R72, 18 R318) -/
  rixLive : Bool
  /-- walk subcode of the fault that parked the fibre (18 R318) -/
  parkSub : Nat
  spilled : Bool
  /-- the cycle before which the fibre is not ready (05 R122) -/
  yieldUntil : Nat
  /-- the nominal schedule has restarted: nothing issues while a register result is in flight (01 R378) -/
  fresh : Bool
  /-- values popped by the word that a handler has interrupted, with its PC (09 R182) -/
  kept : Option (DWord × Tbl Word)
  /-- the bytes of the word under way, which a word that waits in the middle goes on with -/
  word : List Byte
  /-- rows above the window that `vshrink` has discarded and that stay taken while a register result is in flight
  (04 R90) -/
  shed : Nat
  /-- one more than the cycle of the last issue; 0: none (04 R83) -/
  issuedAt : Nat
  /-- the PC of a memory word that has not retired and of which a late completion has been counted (07 R143) -/
  lateSeen : Option DWord
  /-- plain stores that are not performed yet and plain loads whose value is not fixed, in program order, and the number of
  the next (08 R154) -/
  stq : List PendStore
  lq : List LateLoad
  nextSt : Nat
  /-- the cycle from which the lane is free again after the fibre's last pass (04 R77, R81) -/
  passEnd : Nat
  /-- the lane registers as they stood before an L memory word that goes on after a wait (04 R79) -/
  lanes : Option (Vector (Vector Word 16) 64)
  deriving DecidableEq, Repr

/-! ## The workgroup (04 R93) -/

/-- The kernel header (01 Table 1-10) and where it lies. -/
structure Header where
  addr : DWord
  det : Bool
  accm : Bool
  sbchk : Bool
  traph : Bool
  win : Nat
  rot : Nat
  ddepth : Nat
  fibres : Nat
  hitch : Nat
  accslots : Nat
  nbar : BitVec 16
  scratch : Nat
  stash : Nat
  trapoff : Nat
  qstart : Word
  knots : BitVec 4
  deriving DecidableEq, Repr

/-- A named barrier (09 R179, 18 Table 18-7). -/
structure Bar where
  phase : Bool
  arr : Nat
  exp : Nat
  wait : BitVec 32
  /-- fibres that the workgroup held at the first arrival of the open phase -/
  held : Nat
  deriving DecidableEq, Repr

/-- A stash mapping (07 R132), and the offsets of its lines that have been filled since it was made, held still or not
(09 R177). -/
structure StashMap where
  off : Nat
  len : Nat
  va : DWord
  filled : List Nat
  deriving DecidableEq, Repr

/-- A filled stash line: its offset, the physical line it holds, the W of its translation, dirty (07 R132). -/
structure StashLine where
  off : Nat
  pa : Nat
  w : Bool
  dirty : Bool
  deriving DecidableEq, Repr

/-- A bank of an accumulator slot (12 R222): elements that are not zero by index 64 i + j, flags UF SAT OF NV,
PSN, and the per-tensor scales. -/
structure Bank where
  el : Tbl Word
  flags : BitVec 4
  psn : Bool
  sca : Word
  scb : Word
  deriving DecidableEq, Repr

/-- An accumulator slot (12 R221, R223): in direct mode only `work` is used. -/
structure AccSlot where
  work : Bank
  vis : Bank
  deriving DecidableEq, Repr

/-- Who issued an engine command (13 R245): workgroup, fibre index and serial, PC of the word. -/
structure Owner where
  wk : Nat
  fid : Nat
  uid : Nat
  pc : DWord
  deriving DecidableEq, Repr

/-- When an engine command was issued: the cycle and the lane, by which words of one cycle stand in order (12 R219, 13
R241), its place in the issue order of its workgroup's commands, and the next packet tag of the fabric at that time: the
packets of earlier accesses bear lesser tags (08 R158). -/
structure Issue where
  cycle : Nat
  lane : Nat
  serial : Nat
  mark : Nat
  /-- the fibre's stores and loads with a lower serial were made before it -/
  made : Nat
  deriving DecidableEq, Repr

/-- An operand of an `mma` (12 Table 12-3), with the workgroup whose scratchpad it reads. -/
structure OpMap where
  src : Nat
  base : Nat
  stride : Nat
  sgs : Nat
  soff : Nat
  swz : Nat
  fmt : Nat
  scl : Bool
  deriving DecidableEq, Repr

/-- The decoded parameters of an `mma` (12 R225). -/
structure MmaCmd where
  slot : Nat
  m : Nat
  n : Nat
  k : Nat
  zero : Bool
  isat : Bool
  /-- k-steps of a split granule; 0: none -/
  split : Nat
  orgr : Nat
  orgc : Nat
  bar : DWord
  sa : Word
  sb : Word
  opA : OpMap
  opB : OpMap
  deriving DecidableEq, Repr

/-- What a matrix queue holds (12 R219): products, exchanges, clears, flag reads. -/
inductive MOp where
  | mma (c : MmaCmd)
  | mswap (slot : Nat)
  | mclr (slot : Nat) (vis : Bool)
  | mflag (dst slot : Nat) (clr stk wb : Bool)
  deriving DecidableEq, Repr

/-- A matrix command in its queue: where it has got to. -/
structure MCmd where
  op : MOp
  own : Owner
  iss : Issue
  slack : BitVec 12
  tick : Nat
  /-- started: the bank's scales are set and the tile zeroed (12 R232) -/
  started : Bool
  /-- the next k-step -/
  k : Nat
  psn : Bool
  late : Bool
  /-- arbitration rounds lost (07 R140) -/
  lost : Nat
  /-- the address of a write that waits for firmware (13 R376) -/
  stalled : Option DWord
  /-- firmware declared that write unresolvable -/
  failed : Bool
  deriving DecidableEq, Repr

/-! ## The copy engine (13) -/

/-- The kinds of copy-engine command with their decoded parameters (13 R249 to R256). -/
inductive CopyOp where
  | cpy (mask : Option Word) (dstk srck dfmt : Nat) (dscl dint : Bool) (slot : Nat) (src dst : DWord)
      (len0 cnt1 cnt2 sstr1 sstr2 dstr1 dstr2 : Nat)
  | cpyr (rop : Nat) (src dst : DWord) (len : Nat) (seq : Word) (seqw : DWord)
  | gath (layer parts : Nat) (bt : DWord) (t0 nt kdst vdst dstr model : Nat)
  | qdual (tfmt : Nat) (rowc colc : Bool) (src : DWord) (rows cols sstr : Nat) (gpre : Word)
      (rdst cdst rsoff csoff rstr cstr : Nat)
  | ldrain (slot kc : Nat) (gumb init : Bool) (row0 col nr : Nat) (idx0 itemp seqid : Word) (seed : DWord)
      (pos : Word)
  deriving DecidableEq, Repr

/-- A copy-engine command in its channel (13 R241 to R246). -/
structure CCmd where
  op : CopyOp
  own : Owner
  chan : Nat
  iss : Issue
  /-- slack at `tick`: of issue, and once it has started, aged to its start (07 R139) -/
  slack : BitVec 12
  tick : Nat
  bar : DWord
  crec : DWord
  /-- it has run: the late completion of R234 is decided -/
  started : Bool
  /-- bytes of the stream already written, a byte delivered to several members counted once -/
  done : Nat
  /-- of a multicast: the bytes beyond `done` that each member has received (13 R242) -/
  ahead : List Nat
  flags : BitVec 4
  /-- completion code and AUX (Table 13-4) -/
  code : Nat
  aux : DWord
  late : Bool
  /-- arbitration rounds lost at its channel's head (07 R140) -/
  lostRounds : Nat
  /-- what is still to do: 0 the stream, 1 the record, 2 the addition (13 R245) -/
  stage : Nat
  /-- the record could not be written, or the addition could not be made (13 R376) -/
  lost : Bool
  /-- the address of a translation fault that firmware has not answered, and whether it declared it unresolved -/
  stalled : Option DWord
  failed : Bool
  /-- a fabric packet of the command and its answer -/
  fab : Option FabWait
  /-- the page on which the command holds a read hold while it waits for the fabric: die and index (13 R258) -/
  hold : Option (Nat × Nat)
  /-- in direct mode, the tiles that the issuing fibre had not waited for at issue (13 R251): slot, row, column, rows,
  columns -/
  blind : List (Nat × Nat × Nat × Nat × Nat)
  /-- source bytes of a `cpyr` or a `qdual`, or the record that an `ldrain` is about to write, with a mark for a poisoned
  byte -/
  data : List (Byte × Bool)
  deriving DecidableEq, Repr

/-- Where a release leaves what happens before it for the acquire that synchronises with it (08 R152, R157): a location
(the workgroup of a scratchpad and an offset, or none and a physical address), the arrivals at a knot in a phase, or the
n-th element of a knot's queue. -/
inductive SyncPoint where
  | mem (key : Option Nat) (addr : Nat)
  | knot (entry : Nat) (phase : Bool)
  | elem (entry n : Nat)
  deriving DecidableEq, Repr

/-- A tile that a direct-mode command writes (12 R240): `done` once the command has completed; `seenBy` are the fibres
that have observed its addition or waited for it (13 R251), and `handed` is where a release has left that. -/
structure Tile where
  slot : Nat
  r0 : Nat
  c0 : Nat
  m : Nat
  n : Nat
  own : Owner
  bar : DWord
  done : Bool
  seenBy : List Nat
  handed : List SyncPoint
  deriving DecidableEq, Repr

/-- A fibre that has ended while register results were in flight to it: its lane slot and its rows stay taken until
they have drained (04 R88). -/
structure Ghost where
  uid : Nat
  lane : Nat
  slot : Nat
  /-- first row and number of rows -/
  run : Nat × Nat
  /-- registers that an engine result would still write -/
  busy : List Nat
  deriving DecidableEq, Repr

/-- A fatal fault under teardown (18 R323 to R325): the fields of its record, and the cycle in which it arose. -/
structure Fatal where
  code : Code
  sub : Nat
  strand : Nat
  impr : Bool
  fid : Nat
  pc : DWord
  addr : DWord
  rpc : DWord
  cause0 : Word
  /-- peer number that CAUSE[18:16] names, for KIND 3 -/
  kind : Nat
  peer : Nat
  cycle : Nat
  deriving DecidableEq, Repr

/-- Where a workgroup stands (17 R309, 18 R324, R327). -/
inductive Run where
  | resident
  /-- a save has been asked for -/
  | stopping
  | saved
  /-- exited, its scratchpad kept while a member of its hitch is left (12 R230) -/
  | exited
  /-- stopped by a fatal fault of its unit -/
  | dying (f : Fatal)
  deriving DecidableEq, Repr

/-- A knot-slot record (09 R180, 18 Table 18-5). -/
structure KnotRec where
  rv : Bool
  rp : Bool
  deriving DecidableEq, Repr

/-- A tree register (14 R287): its holder and the parents of its valid nodes. -/
structure TreeReg where
  holder : Option Nat
  nodes : Tbl Nat
  deriving DecidableEq, Repr

/-- A workgroup that has been admitted and has not exited. -/
structure Workgroup where
  launch : Nat
  wgid : Nat
  core : Nat
  /-- index in its hitch, and the unit number -/
  member : Nat
  unit : Nat
  tenant : Nat
  hdr : Header
  args : DWord
  group : Nat
  slack0 : BitVec 12
  scratchRow : Nat
  fibres : Tbl Fibre
  nextUid : Nat
  /-- engine commands issued so far -/
  nextCmd : Nat
  /-- accesses of fibres that have ended (04 R88), and the ports they left bound (09 R185) -/
  orphans : List Outstanding
  endedPorts : List Port
  /-- ended fibres to which register results may still be in flight -/
  ghosts : List Ghost
  /-- fatal faults of its fibres after the one that stops it (18 R323) -/
  faults : List Fatal
  /-- scratchpad and stash bytes that are not zero, by offset -/
  mem : List Host.Cell
  /-- poisoned 32-byte sectors of the scratchpad (13 R246, 21 R373) -/
  poison : List Nat
  maps : List StashMap
  lines : List StashLine
  bars : Vector Bar 16
  /-- knot table entry of each slot in use (17 R300) and its record -/
  knots : Vector (Option Nat) 4
  knotRec : Vector KnotRec 4
  acc : List AccSlot
  accstk : BitVec 4
  scale : List Host.Cell
  mq : List MCmd
  tiles : List Tile
  /-- copy-engine commands of a saved workgroup, in the order of their channels (18 R328) -/
  parked : List CCmd
  /-- the physical tree register that each of T0 to T3 names, and the registers of a saved workgroup by name
  (14 R287, 18 R331) -/
  treeAt : Vector Nat 4
  trees : Tbl TreeReg
  wp : Vector Word 8
  /-- ticket claim: object, ticket (09 R186) -/
  claim : Option (DWord × Word)
  trig : Bool
  /-- retired and published instruction counts, and the count at receipt (18 R335) -/
  retired : Nat
  published : Nat
  atReceipt : Tbl Nat
  run : Run
  /-- its image is saved: it holds nothing on a core (18 R327) -/
  stored : Bool
  /-- the other fibres that are quiescent as a `tokpass` of the workgroup issues (18 R333, R334) -/
  quiet : List Nat
  residentSince : Nat
  /-- time resident before the last save, for the watchdog (18 R321) -/
  residentBefore : Nat
  deriving DecidableEq, Repr

/-- A 128-byte line of the L1 (07 R131, R134): the rows pair it stands in (its first row), tag, physical line,
recorded permissions, and the sectors it holds, by number 0 to 3, each with its poison mark. -/
structure L1Line where
  row : Nat
  asid : Nat
  va : Nat
  pa : Nat
  w : Bool
  x : Bool
  sec : Tbl (List Byte × Bool)
  deriving DecidableEq, Repr

/-- A line of the ownership buffer (07 R134), and whether a release has recorded itself in it (08 R155). -/
structure OwnedLine where
  line : Nat
  rel : Bool
  deriving DecidableEq, Repr

/-- A word that the instruction cache of a core holds (00 R3): ASID, virtual address, the bytes as they came in. -/
structure ICacheLine where
  asid : Nat
  va : Nat
  bytes : List Byte
  deriving DecidableEq, Repr

/-- A core: what belongs to it and to no workgroup. -/
structure CoreState where
  /-- the cycle of its last reset, from which CYC counts (01 R14) -/
  resetAt : Nat
  gated : Bool
  l1 : List L1Line
  /-- the instruction cache of 64 KiB, by words, newest first (00 R3) -/
  icache : List ICacheLine
  /-- the ownership buffer, least recently used first (07 R134) -/
  owned : List OwnedLine
  chans : Vector (List CCmd) 8
  /-- the workgroup whose matrix command runs (12 R220) -/
  mrun : Option Nat
  /-- consecutive grants of the matrix engine's arbiter to traffic that is not background (07 R140) -/
  nonbg : Nat
  /-- the same of the copy engine's arbiter over its channels (13 R241) -/
  nonbgC : Nat
  tree : Vector TreeReg 4
  inReset : Bool
  /-- the deterministic launches that the core has admitted, each with the cycle of its first admission here (04 R83) -/
  det : Tbl Nat
  deriving DecidableEq, Repr

/-- A translation held by a cluster's TLB (07 R133). -/
structure TlbEntry where
  asid : Nat
  va : Nat
  size : Nat
  pa : Nat
  w : Bool
  x : Bool
  deriving DecidableEq, Repr

/-- A cluster: its translation unit and clock (07 R133, 21 R371, R375). -/
structure ClusterState where
  tlb : List TlbEntry
  p1 : Bool
  inReset : Bool
  deriving DecidableEq, Repr

/-! ## Launches (17) -/

/-- A knot queue (09 R181 to R185): `pushed` counts the elements it has taken in, `reserved` is the sum of the allowances
held by ports. -/
structure KQueue where
  cap : Nat
  elems : List Word
  pushed : Nat
  reserved : Nat
  outBinds : Nat
  hadOut : Bool
  deriving DecidableEq, Repr

/-- A knot of a launch (04 R94, 09 R180). -/
structure Knot where
  members : List Nat
  phase : Bool
  arrived : List Nat
  failed : Bool
  queue : Option KQueue
  deriving DecidableEq, Repr

/-- The commit token (18 R332 to R335): holder, else who is next; published count P. -/
structure Token where
  holder : Option Nat
  next : Nat
  p : Nat
  deriving DecidableEq, Repr

/-- Where a launch stands. -/
inductive LState where
  | accepted
  | dispatched
  deriving DecidableEq, Repr

/-- A slice clock of a launch on a cluster (17 R314): when it started, the overrun that shortens it in cycles, whether its slice has
expired, and the expiry whose saves are still being made. -/
structure SliceClock where
  start : Nat
  charge : Nat
  expired : Bool
  overFrom : Option Nat
  deriving DecidableEq, Repr

/-- A launch that has been accepted and has not ended (17 R298 to R306). -/
structure Launch where
  qid : Nat
  tenant : Nat
  hdr : Header
  args : DWord
  gridx : Nat
  gridy : Nat
  slack : BitVec 12
  tslice : Nat
  pmode : Nat
  pdie : Nat
  ksh : Nat
  kbase : DWord
  kstr : Nat
  preds : List Word
  sig : DWord
  sigval : DWord
  fq : DWord
  /-- cluster (16 die + cluster) of a posted launch -/
  posted : Option Nat
  /-- model of a Kettle launch, its iteration block and whether its grid rule is 1 (14 R272) -/
  kettle : Option (Nat × DWord × Bool)
  state : LState
  /-- order in which the launches first had a workgroup admitted (04 R89); 0: none yet -/
  serial : Nat
  ksmap : List Word
  knots : Tbl Knot
  trigd : List Nat
  /-- the cycle of the last trigger of a workgroup, and the cycles of its workgroups' fatal faults (17 R307) -/
  trigAt : Nat
  faultAt : List Nat
  exited : List Nat
  fatal : Bool
  /-- cancelled: the status with which it ends -/
  cancel : Option Nat
  /-- a reset has destroyed work of it (21 R370) -/
  lost : Bool
  /-- a launch-wide teardown and its origin (18 R325) -/
  wide : Option (Fatal × Nat × Nat)
  token : Token
  slices : Tbl SliceClock
  deriving DecidableEq, Repr

/-- An ended launch in the record of the last 4,096 (17 R305). -/
structure Ended where
  id : Nat
  status : Nat
  /-- it had triggered -/
  trig : Bool
  deriving DecidableEq, Repr

/-- A unit in a placer's input queue (17 R308, R310). -/
structure UnitEntry where
  launch : Nat
  unit : Nat
  /-- when it became the head of its queue -/
  since : Nat
  saved : Bool
  deriving DecidableEq, Repr

/-- A reserved unit (17 R311): its queue, launch and unit number. -/
structure Reserved where
  qid : Nat
  launch : Nat
  unit : Nat
  deriving DecidableEq, Repr

/-- A die's placer (17 R308 to R311): queues by QID, back-fills against a head, reservations by cluster, and one more
than the cycle of the last grant. -/
structure Placer where
  inq : Tbl (List UnitEntry)
  backfills : Tbl Nat
  reserved : Tbl Reserved
  roundAt : Nat
  deriving DecidableEq, Repr

/-- A host launch queue (17 R301) or a submission queue (14 R262). -/
structure Ring where
  tenant : Nat
  base : DWord
  ent : Nat
  tail : DWord
  head : DWord
  /-- values of TAIL last read and HEAD last written -/
  seen : Word
  taken : Word
  polled : Bool
  deriving DecidableEq, Repr

/-- A tenant (17 R312, 18 R318, R321, 20 R344, R345, 21 R365). -/
structure Tenant where
  asid : BitVec 16
  root : Option Nat
  cbud : Nat
  bbud : Nat
  pbud : Nat
  watchdogMs : Nat
  resolveLimit : Nat
  part : Option (BitVec 8)
  nodeSet : List (BitVec 12)
  windows : Vector FabWindow 16
  /-- its function accepts no TLP: an IDE stream that covered it has turned insecure (21 R362) -/
  blocked : Bool
  deriving DecidableEq, Repr

/-! ## Watches (09 R189, 21 R366) -/

/-- The waiter of a watch entry (21 Table 21-4 KIND and WAITER). -/
inductive Waiter where
  | fibre (wk fid uid : Nat)
  | kettleTail (q : Nat)
  | kettleCons (slot : Nat)
  | launchQueue (q : Nat)
  | samovar (core : Nat)
  | msix (vf vector : Nat)
  deriving DecidableEq, Repr

/-- A watch entry in use. -/
structure Watch where
  pa : Nat
  mask : DWord
  operand : DWord
  cond : BitVec 3
  waiter : Waiter
  fired : Bool
  value : DWord
  deriving DecidableEq, Repr

/-! ## Caddy (13 R253 to R260) -/

/-- A model-table entry (13 R253). -/
structure CaddyModel where
  tenant : Nat
  ptl : Nat
  layers : Nat
  rb : Nat
  deriving DecidableEq, Repr

/-- A page descriptor in use (13 Table 13-13). -/
structure Desc where
  refc : Nat
  tier : Nat
  pinned : Bool
  dirty : Bool
  moving : Bool
  model : Nat
  loc : Nat
  auxl : Nat
  stamp : Nat
  holds : Nat
  ten : Nat
  /-- slack and LATE of the last `unref`, which a release at the peer inherits (07 R142) -/
  relSlack : BitVec 12
  relLate : Bool
  deriving DecidableEq, Repr

/-- A page operation in Caddy (13 R258, R259): the K of Table 13-12, or a release by Kettle or a peer, which has no
owner. -/
structure CaddyOp where
  op : Nat
  page : Word
  arg : Word
  bt : DWord
  bar : DWord
  /-- slack at `tick`; once the operation has left Caddy's queue, aged to that time, with LATE (07 R139) -/
  slack : BitVec 12
  tick : Nat
  late : Bool
  dst : Nat
  own : Option Owner
  tenant : Nat
  /-- the slot of Kettle's whose page is unreferenced (14 R265) -/
  slot : Option Nat := none
  deriving DecidableEq, Repr

/-- What a data move does (13 Table 13-12). A promotion that a `cow` makes first carries the new page that the `cow`
has taken, if it takes one. -/
inductive MoveKind where
  /-- copy to page `new`, read hold on the source -/
  | cow (new : Nat)
  | evict (frame : Nat)
  | promote (frame : Nat) (cow : Option (Option Nat))
  /-- pulling a peer page back (20 R358): the next part to ask for, the parts asked for by tag, the bytes that came -/
  | pull (frame : Nat) (cow : Option (Option Nat)) (next : Nat) (asked : List (Nat × Nat)) (got : Tbl (List (Byte × Bool)))
  /-- handing the page over (20 R357): node, die, the transfer's tag once it has one, the next part to send -/
  | send (node : BitVec 12) (ddie : BitVec 2) (tag : Option Nat) (next : Nat)
  deriving DecidableEq, Repr

/-- A data move in flight. -/
structure Move where
  page : Nat
  kind : MoveKind
  req : Option CaddyOp
  /-- PAGEB of the page when the move began (13 R259) -/
  bytes : Nat
  /-- the data stands; only the barrier addition is left (13 R376) -/
  moved : Bool
  /-- part of the data could not be moved -/
  lost : Bool
  /-- the address of a translation fault that firmware has not answered, and whether it declared it unresolved -/
  stalled : Option DWord
  failed : Bool
  deriving DecidableEq, Repr

/-- A page at a peer that is to be released (20 R358): node, die, page index, tenant. -/
structure Release where
  node : BitVec 12
  ddie : BitVec 2
  page : Nat
  ten : Nat
  /-- slack and LATE of the operation that it derives from (07 R142) -/
  slack : BitVec 12
  late : Bool
  deriving DecidableEq, Repr

/-- Caddy of one die. -/
structure CaddyDie where
  ndesc : Nat
  framesHbm : Nat
  framesLp : Nat
  low : Nat
  high : Nat
  /-- arena bases by 2 × tenant + tier -/
  arenas : Tbl DWord
  descs : Tbl Desc
  waiting : List CaddyOp
  moves : List Move
  rels : List Release
  deriving DecidableEq, Repr

/-! ## Kettle (14) -/

/-- The states of 14 Table 14-3 other than FREE. -/
inductive SlotState where
  | waiting | prefill | decode | deliveryWait | drain
  deriving DecidableEq, Repr

/-- A plan entry of an iteration (14 R269, Table 14-5). -/
structure PlanEntry where
  slot : Nat
  kind : Nat
  ndraft : Nat
  pos : Nat
  ntok : Nat
  tokin : Nat
  deriving DecidableEq, Repr

/-- A model as Kettle holds it (14 R261). -/
structure KModel where
  tenant : Nat
  par : KettleParams
  iter : Word
  /-- launches of the iteration in progress; empty between iterations -/
  running : List Nat
  busy : Bool
  plan : List (List PlanEntry)
  slk : List Nat
  /-- a boundary has been requested since the last one found the plan empty -/
  wake : Bool
  deriving DecidableEq, Repr

/-- The repetition detector of a slot (14 R289, R290). -/
structure Detector where
  window : List Word
  /-- tokens still to be skipped after `rep.clr` before the next aligned window -/
  skip : Nat
  hist : List Word
  run : Nat
  last : Word
  deriving DecidableEq, Repr

/-- A ring entry (14 Table 14-4). -/
structure RingEntry where
  token : Word
  code : Nat
  reason : Nat
  gen : Nat
  deriving DecidableEq, Repr

/-- A slot of the request table that is not FREE (14 R264, R265). -/
structure KSlot where
  state : SlotState
  vf : Nat
  model : Nat
  tag : Word
  prompt : DWord
  plen : Nat
  maxt : Nat
  ttft : Nat
  itl : Nat
  seed : DWord
  mode : Nat
  topk : Nat
  itemp : Word
  topp : Word
  stops : List Word
  ring : DWord
  ringn : Nat
  rep : Bool
  repN : Nat
  repW : Nat
  repact : Bool
  nodes : Nat
  seqid : Word
  exact : Bool
  /-- order of consumption -/
  serial : Nat
  /-- prompt tokens processed, tokens generated, last committed token -/
  done : Nat
  g : Nat
  lastTok : Word
  home : Nat
  admitTick : Nat
  commitTick : Nat
  stalled : Bool
  /-- held entry in DELIVERY_WAIT; final entry still to be written in DRAIN -/
  held : Option RingEntry
  /-- no further ring entry is attempted (18 R321) -/
  mute : Bool
  /-- in DRAIN: its pages are being unreferenced (14 Table 14-3) -/
  leaving : Bool := false
  parkedFor : Nat
  parkEvent : Bool
  parkedNow : Bool
  committed : Nat
  cancel : Bool
  soft : Option Nat
  /-- CONS has shown room since the entry was held -/
  consRoom : Bool
  consPolled : Bool
  det : Detector
  deriving DecidableEq, Repr

/-! ## The fabric (20) -/

/-- A packet a hop of this node keeps until custody is acknowledged (20 R347). -/
structure Custody where
  /-- a packet with an extension is in the hands of UET instead (20 R360) -/
  pkt : Packet
  resends : Nat
  /-- the gateway has no route to the destination -/
  noRoute : Bool
  deriving DecidableEq, Repr

/-- Who waits for the answer to a packet (20 R356). -/
inductive FabOwner where
  | load (wk fid uid : Nat)
  | store (wk fid uid : Nat) (pc addr : DWord) (strand : Nat) (launch : Nat)
  | engine (wk core chan : Nat)
  | page (die page : Nat)
  deriving DecidableEq, Repr

/-- A packet sent and not yet answered (20 R348), with the source core of the same-sector rule (20 R349). -/
structure FabReq where
  tag : Nat
  seq : Nat
  node : BitVec 12
  sdie : Nat
  core : Nat
  /-- first 32-byte sector at the target, and how many -/
  sector : Nat
  span : Nat
  /-- a release (20 Table 20-3 WRREL) -/
  rel : Bool
  owner : FabOwner
  /-- the agent that made a fibre's store: a strand, or none for the uniform pipe (08 R144) -/
  agent : Option Nat
  deriving DecidableEq, Repr

/-- What the receiving gateway has seen of one source (20 R348). -/
structure RecvRec where
  below : Nat
  marks : List Nat
  deriving DecidableEq, Repr

/-- A page that arrives in parts (20 R357). -/
structure PageIn where
  src : BitVec 12
  sdie : BitVec 2
  tag : BitVec 32
  die : Nat
  page : Option Nat
  got : List Nat
  deriving DecidableEq, Repr

/-- A counter of a gateway (20 R351). -/
structure Counter where
  part : BitVec 8
  va : BitVec 64
  deriving DecidableEq, Repr

/-- The fabric side of the package. -/
structure Fabric where
  own : BitVec 12
  populated : List (BitVec 12)
  /-- ports of the Hawser personality: the ports in the list are Ultra Ethernet -/
  uePorts : List Nat
  portsDown : List Nat
  counters : Tbl Counter
  custody : Tbl Custody
  nextSeq : Tbl Nat
  nextTag : Nat
  reqs : List FabReq
  recv : Tbl RecvRec
  pagesIn : List PageIn
  dropped : Nat
  linkRetries : Nat
  deriving DecidableEq, Repr

/-! ## Samovar and management (21) -/

/-- Why a Samovar core stops running instructions. -/
inductive SamSleep where
  | running
  /-- in `sigwait` on a word of memory, which a watch entry watches -/
  | sigwait (entry : Nat)
  /-- in `sigwait` on a word of the private SRAM: offset, and the value it must differ from -/
  | sram (off : Nat) (old : DWord)
  deriving DecidableEq, Repr

/-- One Samovar core (21 R363, R364). -/
structure SamCore where
  x : Vector DWord 32
  pc : DWord
  userMode : Bool
  /-- MIE, MPIE and MPP, at the places of the RISC-V privileged architecture (log 9) -/
  mstatus : DWord
  mcause : DWord
  mepc : DWord
  mtval : DWord
  mtvec : DWord
  mscratch : DWord
  /-- interrupts enabled, and pending: MSI, MTI and MEI -/
  mie : DWord
  mip : DWord
  /-- the reservation of `lr`: offset in the private SRAM and size -/
  resv : Option (Nat × Nat)
  sleep : SamSleep
  deriving DecidableEq, Repr

/-- A flash bank (21 R367, R368). -/
structure FlashBank where
  image : Option Image
  deriving DecidableEq, Repr

/-- The PLDM update sequence (21 R368). -/
inductive UpdState where
  | idle | requested | table | component | transferred | verified | applied
  /-- activated, waiting for the new image to report ready -/
  | activating
  deriving DecidableEq, Repr

/-- An SPDM session (21 R362). -/
inductive SpdmState where
  | fresh | version | capabilities | negotiated
  deriving DecidableEq, Repr

/-- Boot status (21 Table 21-7). -/
inductive BootStatus where
  | off | ok | failed | reduced
  deriving DecidableEq, Repr

/-- An IDE stream (21 R362). -/
structure IdeStream where
  secure : Bool
  key : Nat
  vfs : BitVec 16
  deriving DecidableEq, Repr

/-- The firmware complex and management state. -/
structure Firmware where
  booted : Bool
  bootStatus : BootStatus
  bankA : FlashBank
  bankB : FlashBank
  activeA : Bool
  minVersion : BitVec 32
  measurement : Option (BitVec 384)
  /-- the image that runs -/
  running : Option Image
  upd : UpdState
  staged : Option Image
  /-- when the running image was activated, for the 24-hour fuse -/
  since : Nat
  /-- the activated image's version still waits for the 24-hour fuse -/
  fusePending : Bool
  hold : Bool
  warmReset : Bool
  spdm : SpdmState
  sessions : List Nat
  openSessions : List Nat
  ide : Tbl IdeStream
  lifecycle : Lifecycle
  debug : DebugState
  debugTenant : Nat
  /-- tenants whose consent to authorised debug is recorded (21 Table 21-10) -/
  consents : List Nat
  /-- training items completed, and full service reached (21 R374) -/
  trained : Nat
  trainFailed : Bool
  fullService : Bool
  capW : Nat
  /-- sensors whose STATUS is warning, and critical (21 R375) -/
  warnings : List Nat
  critical : List Nat
  /-- sensors whose STATUS is unavailable (21 Table 21-6) -/
  unavailable : List Nat
  dieRetention : List Nat
  powerOff : Bool
  corrected : Nat
  poisonedCount : Nat
  /-- greatest VALUE of each sensor (21 Table 21-6 PEAK) -/
  peaks : Tbl Int
  /-- BAR0 registers that have no row of their own, by function and offset (21 R361) -/
  mmio : Tbl DWord
  deriving DecidableEq, Repr

/-- A context image as written by a save (18 R328): launch, workgroup, bytes. -/
structure SavedImage where
  launch : Nat
  wgid : Nat
  bytes : List Byte
  deriving DecidableEq, Repr

/-- A claim whose workgroup has exited and that passes once SERVE equals its ticket (09 R188): an object in global
memory of a tenant, or in the scratchpad of a workgroup. -/
structure Lingering where
  tenant : Nat
  key : Option Nat
  addr : Nat
  ticket : Word
  deriving DecidableEq, Repr

/-- A byte-count barrier object with bytes counted into its phase (08 R159): the workgroup in whose scratchpad it lies
or none for physical memory, the offset or address, and whether a store or atomic has disturbed it since `bcinit`. -/
structure OpenBar where
  key : Option Nat
  addr : Nat
  disturbed : Bool
  deriving DecidableEq, Repr

/-- FLAGS of a byte-count barrier object as they stood at its last flip (09 R197), by the place of the object. -/
structure FlipFlags where
  key : Option Nat
  addr : Nat
  flags : Word
  deriving DecidableEq, Repr

/-- A line that the L2 of its home die holds modified: its bytes and its poisoned sectors as they stand in DRAM (07 R136;
21 Table 21-8). -/
structure L2Line where
  bytes : List Byte
  bad : List Nat
  stale : List Nat
  deriving DecidableEq, Repr

/-- Request bytes of a tenant (17 Table 17-5): when, how many, and whether they surely passed a measured port (a fabric
port); bytes of memory requests pass the port of HBM4 or LPDDR-6 only where the L2 missed. -/
structure Traffic where
  tenant : Nat
  cycle : Nat
  bytes : Nat
  sure : Bool
  deriving DecidableEq, Repr

/-! ## What a debugger reaches (21 R372) -/

/-- The kinds of state that a debugger names, each with a number where there are several. -/
inductive DebugKind where
  | memory | l2 | poison | core | cluster | workgroup | launch | ended | placer | hostQueue | submissionQueue | queueCount
  | queuePending | turns | tenant | watch | caddyModel | caddy | slice | model | slot | claims | openBars | flips | fabric
  | images | samovar | sram | firmware | diesInReset | pageClock | clock | traffic
  deriving DecidableEq, Repr

/-- What stands in a piece of state; none where there is no such thing. -/
inductive DebugData where
  | memory (b : Byte)
  | l2 (x : Option L2Line)
  | poison (bad : Bool)
  | core (x : CoreState)
  | cluster (x : ClusterState)
  | workgroup (x : Option Workgroup)
  | launch (x : Option Launch)
  | ended (x : List Ended)
  | placer (x : Placer)
  | hostQueue (x : Option Ring)
  | submissionQueue (x : Option Ring)
  | queueCount (n : Nat)
  | queuePending (x : List Nat)
  /-- the pointers and turns of the launch front end and of Kettle, its order of consumption, and its last poll -/
  | turns (frontPtr frontTurn kettlePtr kettleTurn serial lastPoll : Nat)
  | tenant (x : Tenant)
  | watch (x : Option Watch)
  | caddyModel (x : Option CaddyModel)
  | caddy (x : CaddyDie)
  | slice (x : Option CCmd)
  | model (x : Option KModel)
  | slot (x : Option KSlot)
  | claims (x : List Lingering)
  | openBars (x : List OpenBar)
  | flips (x : List FlipFlags)
  | fabric (x : Fabric)
  | images (x : List SavedImage)
  | samovar (x : SamCore)
  | sram (b : Byte)
  | firmware (x : Firmware)
  | diesInReset (x : List Nat)
  | pageClock (x : BitVec 16)
  | clock (cycles : Nat)
  | traffic (x : List Traffic)
  deriving DecidableEq, Repr

/-! ## What comes from outside -/

/-- What comes from outside: a step of the opcode table that is no word, or something that the spec gives and that has
no row of its own. -/
inductive Stimulus where
  | row (i : Instr)
  /-- ECC corrects an error (00 R4, 21 Table 21-7) -/
  | corrected
  /-- an uncorrectable ECC error, or a check that does not match, in a sector of memory (21 R373) -/
  | upset (pa : Nat)
  /-- the same in a workgroup's scratchpad, which is core store -/
  | scratchUpset (wk off : Nat)
  /-- an uncorrectable error strikes an accumulator bank (12 R222) -/
  | bankUpset (wk slot : Nat) (second : Bool)
  /-- one strikes a sector that a core's L1 holds, an element of scale memory, or a register row of a fibre (00 R4) -/
  | l1Upset (core va : Nat)
  | scaleUpset (wk off : Nat)
  | rowUpset (wk fid row : Nat)
  /-- the bytes of a sector change without a new check (21 R373) -/
  | corrupt (pa : Nat) (bytes : List Byte)
  /-- a debugger reads or writes a piece of state (21 R372) -/
  | debugRead (k : DebugKind) (n : Nat)
  | debugWrite (n : Nat) (x : DebugData)
  /-- interrupts of a Samovar core become or cease to be pending (21 R364) -/
  | samInterrupt (k : Nat) (pending : BitVec 64)
  /-- management clears PEAK of a sensor, or a sensor is lost or comes back (21 Table 21-6) -/
  | clearPeak (id : Nat)
  | sensorAway (id : Nat) (away : Bool)
  /-- the host reads a register of BAR0 (21 R361) -/
  | mmioRead (fn : HostFn) (off : Nat)
  /-- a function's registration mailbox arms a watch entry with an MSI-X vector (21 Table 21-1, Table 21-4) -/
  | armMsix (vf vector va : Nat) (mask operand : BitVec 64) (cond : BitVec 3)
  /-- an image is staged through the PF mailbox within an SPDM session (21 R368) -/
  | stageImage (session : Nat) (img : Image)
  deriving DecidableEq, Repr

/-! ## What leaves the package -/

/-- What the outside can see: packets, host completions, firmware events, SPDM and PLDM answers. -/
inductive Output where
  | packet (p : Packet)
  /-- a packet that leaves by a port of the Ultra Ethernet personality (20 R359) -/
  | uet (mode : UetMode) (p : Packet)
  | hostRead (fn : HostFn) (bytes : List Byte) (ep : Bool)
  | hostAtomic (fn : HostFn) (old : DWord) (ok : Bool)
  | hostReject (fn : HostFn)
  | serviceDone (ok : Bool) (val : Nat)
  | launchNoQueue (launch : Nat) (fq : DWord)
  | tokenEvent (slot : Nat) (tag : Word) (addr : DWord)
  | tagEvent (tag : Word)
  | modelEvent (model entry : Nat)
  | repeatEvent (slot : Nat)
  | parkEvent (slot : Nat) (tag : Word)
  | tableEvent (slot : Nat)
  | drainEvent (slot : Nat) (tag : Word) (addr : DWord)
  | firmwareNotified (wk fid : Nat) (addr : DWord)
  /-- an MSI-X vector with its table entry: address, data, vector control -/
  | msix (vf vector : Nat) (addr : DWord) (data ctl : Word)
  | mmioData (fn : HostFn) (off : Nat) (val : DWord)
  | spdm (msg : String) (ok : Bool)
  | measurements (m : Option (BitVec 384))
  | spdmBlob (what : String) (bytes : Nat)
  | pldm (msg : String) (ok : Bool)
  /-- the 16 bytes of a sensor record (21 Table 21-6) -/
  | sensor (record : List Byte)
  | sensorInvalid (id : BitVec 16)
  | refused (what : String)
  /-- what a debugger has read -/
  | debugData (n : Nat) (x : DebugData)
  deriving DecidableEq, Repr

/-- The ordering codes of 00 Table 0-1: the bare package KN4-480P, the module KN4-480M, and the module KN4-480M-E, whose
ports are fixed to Ultra Ethernet (00 R2). -/
inductive OrderingCode where
  | p | m | mE
  deriving DecidableEq, Repr

/-- Whom `exec` acts for: a fibre or a Samovar core (the model's own). -/
structure Cur where
  wk : Nat
  fid : Nat
  sam : Nat
  deriving DecidableEq, Repr

/-- The whole machine. -/
structure State where
  /-- the ordering code, and the bytes of LPDDR-6 fitted to each die: 256 GiB on the modules, what the board builder has
  attached on a KN4-480P (00 R1, 07 R135) -/
  code : OrderingCode
  lpddr : Vector Nat 4
  /-- physical memory as the home slices and host memory give it: bytes that differ from what an unlisted address reads
  as -/
  mem : List Host.Cell
  /-- the lines that an L2 holds modified (07 R136) -/
  l2 : Tbl L2Line
  /-- request bytes of the last 16 µs (17 Table 17-5) -/
  traffic : List Traffic
  /-- sectors (PA div 32) whose check fails (21 R373) -/
  poison : List Nat
  /-- sectors whose bytes no longer have the check that travels with them, which nothing has read yet (21 R373) -/
  stale : List Nat
  /-- 3.6 GHz cycles since package reset -/
  cycles : Nat
  /-- counter of the free values drawn (the model's own) -/
  free : Nat
  cur : Cur
  inbox : List Stimulus
  outbox : List Output
  cores : Tbl CoreState
  clusters : Tbl ClusterState
  wgs : Tbl Workgroup
  claims : List Lingering
  openBars : List OpenBar
  flips : List FlipFlags
  launches : Tbl Launch
  ended : List Ended
  /-- launches taken by each QID (17 R302) -/
  qcount : Tbl Nat
  /-- a host launch queue's accepted launches wait here for dispatch, oldest first, by QID -/
  pending : Tbl (List Nat)
  placers : Tbl Placer
  hostQueues : Tbl Ring
  /-- tenant pointer of the launch front end, and the queues that its turn in progress has visited (17 R301) -/
  frontPtr : Nat
  frontTurn : Nat
  tenants : Tbl Tenant
  watches : Tbl Watch
  caddyModels : Tbl CaddyModel
  caddy : Tbl CaddyDie
  /-- `cpyr` commands that wait at a slice for their sequence (13 R252), by number -/
  slices : Tbl CCmd
  pageClock : BitVec 16
  kmodels : Tbl KModel
  kslots : Tbl KSlot
  kqueues : Tbl Ring
  kettlePtr : Nat
  /-- submission queues that the turn in progress has visited (14 R263) -/
  kettleTurn : Nat
  kserial : Nat
  lastPoll : Nat
  fabric : Fabric
  images : List SavedImage
  sam : Vector SamCore 4
  /-- Samovar's private SRAM of 1 MiB: bytes that are not zero -/
  sram : List Host.Cell
  fw : Firmware
  /-- dies and units in reset (21 Table 21-8) -/
  diesInReset : List Nat
  deriving DecidableEq, Repr

/-! ## Faults and refusals of the model -/

/-- Why the model stops. -/
inductive Fault where
  /-- raised by the meaning of a word when `State.cur` names no fibre that can execute it: `exec` was applied to a
  state in which nobody issues the word. Safe: `step` never does so. -/
  | noFibre
  /-- raised by the meaning of a Samovar instruction when `State.cur` names no such core. Safe. -/
  | noSamovarCore
  deriving DecidableEq, Repr

/-- Instructions that the model rejects by name. -/
inductive Refusal where
  /-- raised by an arm of `exec` whose instruction has no meaning yet. Safe. -/
  | notModelled (mnemonic : String)
  deriving DecidableEq, Repr

/-! ## Reset (21 Table 21-8, package cold reset) -/

def Bank.clear : Bank := { el := [], flags := 0, psn := false, sca := 0, scb := 0 }

def TreeReg.clear : TreeReg := { holder := none, nodes := [] }

/-- A core after reset. -/
def CoreState.fresh (now : Nat) : CoreState :=
  { resetAt := now, gated := false, l1 := [], icache := [], owned := [], chans := Vector.replicate 8 [], mrun := none, nonbg := 0, nonbgC := 0
    tree := Vector.replicate 4 TreeReg.clear, inReset := false, det := [] }

def ClusterState.fresh : ClusterState := { tlb := [], p1 := false, inReset := false }

def FabWindow.invalid : FabWindow :=
  { v := false, vbase := 0, size := 0, die := 0, node := 0, rbase := 0, part := 0, ctr := 0 }

/-- A tenant to whom firmware has given nothing. -/
def Tenant.fresh : Tenant :=
  { asid := 0, root := none, cbud := 0, bbud := 0, pbud := 0, watchdogMs := 0, resolveLimit := 0, part := none,
    nodeSet := [], windows := Vector.replicate 16 FabWindow.invalid, blocked := false }

def CaddyDie.fresh : CaddyDie :=
  { ndesc := 0, framesHbm := 0, framesLp := 0, low := 0, high := 0, arenas := [], descs := [], waiting := [],
    moves := [], rels := [] }

def Placer.fresh : Placer := { inq := [], backfills := [], reserved := [], roundAt := 0 }

def Fabric.fresh : Fabric :=
  { own := 0, populated := [], uePorts := List.range 32, portsDown := [], counters := [],
    custody := [], nextSeq := [], nextTag := 0, reqs := [], recv := [], pagesIn := [], dropped := 0,
    linkRetries := 0 }

def SamCore.fresh : SamCore :=
  { x := Vector.replicate 32 0, pc := 0, userMode := false, mstatus := 0, mcause := 0, mepc := 0, mtval := 0, mtvec := 0
    mscratch := 0, mie := 0, mip := 0, resv := none, sleep := .running }

def Firmware.fresh : Firmware :=
  { booted := false, bootStatus := .off, bankA := ⟨none⟩, bankB := ⟨none⟩, activeA := true, minVersion := 0,
    measurement := none, running := none, upd := .idle, staged := none, since := 0, fusePending := false, hold := false,
    warmReset := false, spdm := .fresh, sessions := [], openSessions := [], ide := [], lifecycle := .blank,
    debug := .off, debugTenant := 0, consents := [], trained := 0, trainFailed := false, fullService := false, capW := 4400,
    warnings := [], critical := [], unavailable := [], dieRetention := [], powerOff := false, corrected := 0,
    poisonedCount := 0, peaks := [], mmio := [] }

/-- The machine right after a package cold reset (21 R370): nothing is resident, no table holds an entry, memory
lists nothing. The part is a KN4-480M with 256 GiB of LPDDR-6 a die: 00 R1 gives three parts, and which of them is
described is the model's choice (DESIGN CHOICE, log 64). -/
def State.reset : State :=
  { code := .m, lpddr := Vector.replicate 4 0x4000000000, mem := [], l2 := [], traffic := [], poison := [], stale := [], cycles := 0, free := 0, cur := ⟨0, 0, 4⟩, inbox := []
    outbox := [], cores := [], clusters := [], wgs := [], claims := [], openBars := [], flips := [], launches := []
    ended := [], qcount := [], pending := [], placers := []
    hostQueues := [], frontPtr := 0, frontTurn := 0, tenants := [], watches := [], caddyModels := [], caddy := [], slices := [],
    pageClock := 0, kmodels := [], kslots := [], kqueues := [], kettlePtr := 0, kettleTurn := 0, kserial := 0, lastPoll := 0,
    fabric := Fabric.fresh, images := [], sam := Vector.replicate 4 SamCore.fresh, sram := [], fw := Firmware.fresh,
    diesInReset := [] }

end Sys2Proof.Machine
end

