-- ==== Sys2Proof/Machine/Operands.lean ====
section
/-! DEFINITION. The operands of a fibre's words: reading and writing its registers under the nominal schedule
(01 R10 to R12, R22 to R28; 04 R80; 05 R97 to R99), and what each format names (02 R36, R37, R41). -/

namespace Sys2Proof.Machine

/-- Element i of a vector, or a default beyond its end. -/
def vget {α : Type} {n : Nat} (v : Vector α n) (i : Nat) (d : α) : α := (v[i]?).getD d

/-- The vector with element i replaced. -/
def vset {α : Type} {n : Nat} (v : Vector α n) (i : Nat) (a : α) : Vector α n := v.setIfInBounds i a

/-- A row of zeros. -/
def zeroRow : Vector Word 16 := Vector.replicate 16 0

/-! ## Registers and results in flight -/

/-- Phys(n) of 01 R22: the window offset of lane register n. A window has at most 64 rows, so the offset has six
bits. -/
def Fibre.phys (f : Fibre) (n : Nat) : Nat :=
  (if n < f.win - f.rots then n else (n - (f.win - f.rots) + f.rotb) % f.rots + (f.win - f.rots)) % 64

/-- What a register's storage holds. s0 is zero, c0 is one and p0 is the active mask (01 R10, R12). -/
def Fibre.stored (f : Fibre) : Reg → Word
  | .s n => if n = 0 then 0 else vget f.s n 0
  | .c n => if n = 0 then 1 else b2w (vget f.c n false)
  | .v row i => vget (vget f.v row zeroRow) i 0
  | .p n i => if n = 0 then b2w (bit f.active i) else b2w (bit (vget f.p n 0) i)

/-- Puts a value into a register's storage; writes of s0, c0 and p0 are discarded. -/
def Fibre.store (f : Fibre) (r : Reg) (x : Word) : Fibre :=
  match r with
  | .s n => if n = 0 then f else { f with s := vset f.s n x }
  | .c n => if n = 0 then f else { f with c := vset f.c n (x != 0) }
  | .v row i => { f with v := vset f.v row (vset (vget f.v row zeroRow) i x) }
  | .p n i => if n = 0 then f else { f with p := vset f.p n (setBit (vget f.p n 0) i (x != 0)) }

/-- The last result in flight to a register whose ready cycle is no later than t, else the value d (01 R28). -/
def seenAt (r : Reg) (t : Nat) : List InFlight → Word → Word
  | [], d => d
  | e :: es, d => seenAt r t es (if e.reg = r ∧ e.ready ≤ t then e.val else d)

/-- The last result in flight to a register, ready or not. -/
def newest (r : Reg) : List InFlight → Word → Word
  | [], d => d
  | e :: es, d => newest r es (if e.reg = r then e.val else d)

/-- A read at nominal cycle t (01 R28). -/
def Fibre.readAt (f : Fibre) (t : Nat) (r : Reg) : Word := seenAt r t f.pend (f.stored r)

/-- A read that waits for every result: exchange words and values that cross pipes (04 R78, R80). -/
def Fibre.readNow (f : Fibre) (r : Reg) : Word := newest r f.pend (f.stored r)

/-- A read at nominal cycle t is undersized (01 R28). -/
def Fibre.short (f : Fibre) (t : Nat) (r : Reg) : Bool := f.pend.any fun e => decide (e.reg = r ∧ t < e.ready)

/-- The ready cycle of a write after the earlier writes to the same register (01 R25). -/
def readyAfter (r : Reg) (pend : List InFlight) (t : Nat) : Nat :=
  pend.foldl (fun m e => if e.reg = r then max m e.ready else m) t

/-- A fixed-latency result that is ready at nominal cycle t. -/
def Fibre.writeAt (f : Fibre) (t : Nat) (r : Reg) (x : Word) : Fibre :=
  { f with pend := f.pend ++ [{ reg := r, ready := readyAfter r f.pend t, val := x }] }

/-- A variable-latency result: every reader waits for it (01 R26). -/
def Fibre.writeNow (f : Fibre) (r : Reg) (x : Word) : Fibre :=
  { f.store r x with pend := f.pend.filter fun e => decide (e.reg ≠ r) }

/-- Lets the results that are ready by nominal cycle t take effect. -/
def Fibre.commitTo (f : Fibre) (t : Nat) : Fibre :=
  let g := (f.pend.filter fun e => decide (e.ready ≤ t)).foldl (fun g e => g.store e.reg e.val) f
  { g with pend := f.pend.filter fun e => decide (t < e.ready) }

/-- Waits until every result in flight has been written (01 R378). -/
def Fibre.settle (f : Fibre) : Fibre :=
  { f.pend.foldl (fun g e => g.store e.reg e.val) f with pend := [], lq := [] }

/-! ## Reads and writes of the meanings -/

/-- The port number of s48 to s55. -/
def portOf (n : Nat) : Option Nat := if 48 ≤ n ∧ n ≤ 55 then some (n - 48) else none

/-- The port record of an s register, when it is bound (09 R181). -/
def Fibre.bound (f : Fibre) (n : Nat) : Option Port :=
  match portOf n with
  | none => none
  | some k => let p := vget f.ports k ⟨false, false, 0, 0⟩; if p.bound then some p else none

/-- ReadS of a U word at its nominal issue (01 R34); a bound in port gives the popped value (09 R182). -/
def Fibre.getS (f : Fibre) (n : Nat) : Word :=
  match Tbl.find f.popped n with
  | some x => x
  | none => f.readAt f.nom (.s n)

/-- ReadS64 of a U word (01 R11). -/
def Fibre.getS64 (f : Fibre) (n : Nat) : DWord := if n = 0 then 0 else pair (f.getS n) (f.getS (n + 1))

/-- ReadC of a U word. -/
def Fibre.getC (f : Fibre) (n : Nat) : Bool := f.readAt f.nom (.c n) != 0

/-- ReadS of an L word: once, at its issue, waiting for the uniform pipe (04 R78, 05 R98). -/
def Fibre.laneS (f : Fibre) (n : Nat) : Word :=
  match Tbl.find f.popped n with
  | some x => x
  | none => f.readNow (.s n)

def Fibre.laneS64 (f : Fibre) (n : Nat) : DWord := if n = 0 then 0 else pair (f.laneS n) (f.laneS (n + 1))

/-- WriteS of a fixed-latency U result. -/
def Fibre.setS (f : Fibre) (lat n : Nat) (x : Word) : Fibre :=
  if n = 0 then f else f.writeAt (f.nom + lat) (.s n) x

/-- WriteS64 of a fixed-latency U result. -/
def Fibre.setS64 (f : Fibre) (lat n : Nat) (x : DWord) : Fibre :=
  if n = 0 then f else (f.setS lat n (loWord x)).setS lat (n + 1) (hiWord x)

/-- WriteS of a variable-latency result. -/
def Fibre.putS (f : Fibre) (n : Nat) (x : Word) : Fibre := if n = 0 then f else f.writeNow (.s n) x

def Fibre.putS64 (f : Fibre) (n : Nat) (x : DWord) : Fibre :=
  if n = 0 then f else (f.putS n (loWord x)).putS (n + 1) (hiWord x)

/-- WriteC of a fixed-latency result. -/
def Fibre.setC (f : Fibre) (lat n : Nat) (x : Bool) : Fibre :=
  if n = 0 then f else f.writeAt (f.nom + lat) (.c n) (b2w x)

/-- WriteC of a variable-latency result. -/
def Fibre.putC (f : Fibre) (n : Nat) (x : Bool) : Fibre := if n = 0 then f else f.writeNow (.c n) (b2w x)

/-- ReadV of strand i at position j. -/
def Fibre.getV (f : Fibre) (i j n : Nat) : Word := f.readAt (f.nom + j) (.v (f.phys n) i)

/-- ReadV that waits for the result (04 R80). -/
def Fibre.xchV (f : Fibre) (i n : Nat) : Word := f.readNow (.v (f.phys n) i)

/-- WriteV of a fixed-latency result of strand i at position j. -/
def Fibre.setV (f : Fibre) (lat i j n : Nat) (x : Word) : Fibre := f.writeAt (f.nom + j + lat) (.v (f.phys n) i) x

/-- WriteV of a variable-latency result. -/
def Fibre.putV (f : Fibre) (i n : Nat) (x : Word) : Fibre := f.writeNow (.v (f.phys n) i) x

/-- ReadP as a data source (05 R99). -/
def Fibre.getP (f : Fibre) (i j n : Nat) : Bool := f.readAt (f.nom + j) (.p n i) != 0

def Fibre.xchP (f : Fibre) (i n : Nat) : Bool := f.readNow (.p n i) != 0

def Fibre.setP (f : Fibre) (lat i j n : Nat) (x : Bool) : Fibre :=
  if n = 0 then f else f.writeAt (f.nom + j + lat) (.p n i) (b2w x)

def Fibre.putP (f : Fibre) (i n : Nat) (x : Bool) : Fibre := if n = 0 then f else f.writeNow (.p n i) (b2w x)

/-- Sets FSTAT sticky bits (01 R16). -/
def Fibre.sticky (f : Fibre) (m : Word) : Fibre := { f with fstat := f.fstat ||| m }

/-! ## FSTAT and FCTL fields (01 Tables 1-3 and 1-4) -/

def Fibre.tm (f : Fibre) : Bool := bit f.fstat 5

def Fibre.rix (f : Fibre) : Nat := bitsN f.fstat.toNat 0 4

def Fibre.setRix (f : Fibre) (k : Nat) : Fibre := { f with fstat := setField f.fstat 0 4 k }

def Fibre.sbchk (f : Fibre) : Bool := bit f.fctl 0

def Fibre.latetrap (f : Fibre) : Bool := bit f.fctl 1

def Fibre.brken (f : Fibre) : Bool := bit f.fctl 2

def Fibre.stepping (f : Fibre) : Bool := bit f.fctl 3

/-! ## Strands -/

/-- The strand indices of a mask, ascending. -/
def strandsOf (m : BitVec 16) : List Nat := (List.range 16).filter fun i => bit m i

/-- The guard predicate of strand i at the word's nominal issue (01 R24, 05 R99). -/
def Fibre.guardP (f : Fibre) (g : BitVec 2) (i : Nat) : Bool :=
  g == 0 || f.readAt f.nom (.p g.toNat i) != 0

/-- The guard as an exchange word reads it: every value it reads is waited for (04 R80). -/
def Fibre.guardX (f : Fibre) (g : BitVec 2) (i : Nat) : Bool := g == 0 || f.readNow (.p g.toNat i) != 0

/-- The strands that RIX lets a resumed word execute (03 R72, 04 R95). -/
def Fibre.fromRix (f : Fibre) (i : Nat) : Bool := !f.rixLive || f.rix ≤ i

/-- Active (01 R23, R24): the strands of the mask whose guard holds. -/
def Fibre.actives (f : Fibre) (tracked : Bool) (g : BitVec 2) : List Nat :=
  (strandsOf f.active).filter fun i => f.fromRix i && (if tracked then f.guardX g i else f.guardP g i)

/-- Runs over strands with their positions. -/
def overStrands {α : Type} (g : Nat → Nat → α → α) : List Nat → Nat → α → α
  | [], _, a => a
  | i :: is, j, a => overStrands g is (j + 1) (g i j a)

/-! ## What a word names -/

/-- An operand as a word names it. -/
inductive Opnd where
  | s (n : Nat)
  /-- an s pair -/
  | s2 (n : Nat)
  | c (n : Nat)
  | v (n : Nat)
  | p (n : Nat)
  deriving DecidableEq, Repr

/-- What the common part of execution must know of a word: stall class, guard, the operands it reads in the order
A, B, D, and those it writes; whether its reads are all scoreboarded (04 R80); whether it is an L word; its length
in bytes; whether it makes the minimum pass whatever the mask (05 R116); and whether it has an effect when Active is
empty (05 R113 to R115). -/
structure Use where
  sc : BitVec 2
  g : BitVec 2
  reads : List Opnd
  writes : List Opnd
  tracked : Bool
  lane : Bool
  len : Nat
  fixedPass : Bool
  always : Bool
  /-- the word synchronises: what the fibre has stored comes before it (08 R157) -/
  sync : Bool
  /-- the word acquires (08 R153, R157) -/
  acq : Bool
  deriving DecidableEq, Repr

/-- The usage of a U word. -/
def uUse (s g : BitVec 2) (reads writes : List Opnd) : Use :=
  { sc := s, g := g, reads := reads, writes := writes, tracked := false, lane := false, len := 4,
    fixedPass := false, always := false, sync := false, acq := false }

/-- The usage of an L word. -/
def lUse (s g : BitVec 2) (reads writes : List Opnd) : Use :=
  { sc := s, g := g, reads := reads, writes := writes, tracked := false, lane := true, len := 4,
    fixedPass := false, always := false, sync := false, acq := false }

/-- The usage of an exchange word (04 R80). -/
def xUse (s g : BitVec 2) (reads writes : List Opnd) : Use := { lUse s g reads writes with tracked := true }

/-- A word that synchronises with other agents (08 R157, R158). -/
def Use.syncing (u : Use) : Use := { u with sync := true }

/-- A word that acquires and releases nothing (08 R157). -/
def Use.acquiring (u : Use) : Use := { u with acq := true }

/-- B of a UR word: an s register, or an immediate (02 R37). -/
def opB (i : BitVec 1) (b : BitVec 6) : List Opnd := if i = 1 then [] else [.s b.toNat]

/-- B of a UR word as a pair (03 R58). -/
def opB64 (i : BitVec 1) (b : BitVec 6) : List Opnd := if i = 1 then [] else [.s2 b.toNat]

/-- B of an LR word: a lane or an s register (02 R36). -/
def opLB (u : BitVec 1) (b : BitVec 6) : List Opnd := if u = 1 then [.s b.toNat] else [.v b.toNat]

/-- b of R50. -/
def Fibre.uB (f : Fibre) (i : BitVec 1) (b : BitVec 6) : Word := if i = 1 then zext32 b else f.getS b.toNat

/-- y of R58. -/
def Fibre.uB64 (f : Fibre) (i : BitVec 1) (b : BitVec 6) : DWord := if i = 1 then zext64 b else f.getS64 b.toNat

/-- b of R97 for strand i at position j. -/
def Fibre.lB (f : Fibre) (u : BitVec 1) (b : BitVec 6) (i j : Nat) : Word :=
  if u = 1 then f.laneS b.toNat else f.getV i j b.toNat

/-- The same, waiting for the result (05 R110). -/
def Fibre.xB (f : Fibre) (u : BitVec 1) (b : BitVec 6) (i : Nat) : Word :=
  if u = 1 then f.laneS b.toNat else f.xchV i b.toNat

/-- The lane registers d, d + 1, ... of a group of n (02 R41). -/
def vGroup (d : BitVec 6) (n : Nat) : List Opnd := (List.range n).map fun k => .v (d.toNat + k)

/-! ## Spacing (01 R27) -/

/-- L(S). -/
def classL (s : BitVec 2) : Nat := 4 * (s.toNat + 1)

/-- The spacing of a U word. -/
def classU (s : BitVec 2) : Nat := 2 ^ s.toNat

/-- Cycles for which an L word with n strands in Active occupies its lane (04 R77). -/
def Use.pass (u : Use) (n : Nat) : Nat := max 4 (if u.fixedPass then 4 else n)

/-- Cycles to the nominal issue of the next word, for a word with n strands in Active. -/
def Use.spacing (u : Use) (n : Nat) : Nat :=
  if u.lane then max (u.pass n) (classL u.sc) else classU u.sc

end Sys2Proof.Machine
end

