-- ==== Sys2Proof/Machine/Mem.lean ====
section
/-! DEFINITION. Memory: cells, the physical map, the home slice's view with stash lines, owned lines, poison and
watches, and translation (07 R130 to R136; 09 R190; 21 R366, R373). -/

namespace Sys2Proof.Machine

/-! ## Cells -/

/-- What an unlisted address reads as: DRAM is cleared by a cold reset (21 Table 21-8). -/
def emptyByte : Byte := 0

/-- The byte at an address. -/
def cellGet : List Host.Cell → Nat → Byte
  | [], _ => emptyByte
  | (k, x) :: t, a => if k = a then x else cellGet t a

/-- Writes a byte, keeping the canonical form. -/
def cellPut : List Host.Cell → Nat → Byte → List Host.Cell
  | [], a, b => if b = emptyByte then [] else [(a, b)]
  | (k, x) :: t, a, b =>
    if a < k then (if b = emptyByte then (k, x) :: t else (a, b) :: (k, x) :: t)
    else if a = k then (if b = emptyByte then t else (a, b) :: t)
    else (k, x) :: cellPut t a b

/-- n bytes from an address on. -/
def cellRead (m : List Host.Cell) (a n : Nat) : List Byte := (List.range n).map fun i => cellGet m (a + i)

/-- Writes bytes from an address on. -/
def cellWrite (m : List Host.Cell) (a : Nat) : List Byte → List Host.Cell
  | [] => m
  | b :: bs => cellWrite (cellPut m a b) (a + 1) bs

/-- The canonical form from a least address on: addresses strictly rising, no byte equal to an unlisted one. -/
def wfFrom : Nat → List Host.Cell → Bool
  | _, [] => true
  | lo, (k, x) :: t => lo ≤ k && x != emptyByte && wfFrom (k + 1) t

/-- The canonical form of a memory. -/
def Memory.wf (m : List Host.Cell) : Bool := wfFrom 0 m

/-! ## Physical map (07 Table 7-5) -/

/-- What holds a physical address. -/
inductive Tier where
  | hbm (die : Nat)
  | lpddr (die : Nat)
  | host
  | none
  deriving DecidableEq, Repr

def tierOf (pa : Nat) : Tier :=
  if pa < 4 * 0x3000000000 then .hbm (pa / 0x3000000000)
  else if 0x10000000000 ≤ pa ∧ pa < 0x10000000000 + 4 * 0x4000000000 then
    .lpddr ((pa - 0x10000000000) / 0x4000000000)
  else if 0x8000000000000 ≤ pa ∧ pa < 0x10000000000000 then .host
  else .none

/-- What holds a physical address in this part: LPDDR-6 beyond the devices fitted to its die is outside Table 7-5 (07
R135). -/
def State.tierAt (s : State) (pa : Nat) : Tier :=
  match tierOf pa with
  | .lpddr d => if (pa - 0x10000000000) % 0x4000000000 < vget s.lpddr d 0 then .lpddr d else .none
  | t => t

/-- The HBM4 stack of its die that holds an HBM4 address (07 R135). -/
def stackOf (pa : Nat) : Nat := bitsN pa 8 2 ^^^ bitsN pa 12 2

/-- The home die of a physical address; host memory is homed on D0. -/
def homeDie (pa : Nat) : Nat :=
  match tierOf pa with
  | .hbm d => d
  | .lpddr d => d
  | _ => 0

/-- SliceOf(PA) of 07 R136. -/
def sliceOf (pa : Nat) : Nat :=
  (bitsN pa 7 7 ^^^ bitsN pa 14 7 ^^^ bitsN pa 21 7 ^^^ bitsN pa 28 7 ^^^ bitsN pa 35 7)

/-! ## Parts of the state -/

/-- A free value, by the draw counter. -/
def State.draw {α : Type} (s : State) (f : Nat → α) : α × State := (f s.free, { s with free := s.free + 1 })

/-- n free bytes. -/
def freeBytes : Nat → State → List Byte × State
  | 0, s => ([], s)
  | n + 1, s =>
    let b := s.draw Config.freeByte
    let r := freeBytes n b.2
    (b.1 :: r.1, r.2)

def State.setMem (s : State) (m : List Host.Cell) : State := { s with mem := m }
def State.setPoison (s : State) (p : List Nat) : State := { s with poison := p }
def State.setStale (s : State) (p : List Nat) : State := { s with stale := p }
def State.setCores (s : State) (t : Tbl CoreState) : State := { s with cores := t }
def State.setClusters (s : State) (t : Tbl ClusterState) : State := { s with clusters := t }
def State.setWgs (s : State) (t : Tbl Workgroup) : State := { s with wgs := t }
def State.setWatches (s : State) (t : Tbl Watch) : State := { s with watches := t }
def State.setLaunches (s : State) (t : Tbl Launch) : State := { s with launches := t }
def State.emit (s : State) (o : Output) : State := { s with outbox := s.outbox ++ [o] }

def State.core (s : State) (c : Nat) : CoreState := s.cores.getD c (CoreState.fresh 0)
def State.putCore (s : State) (c : Nat) (x : CoreState) : State := s.setCores (s.cores.put c x)
def State.cluster (s : State) (c : Nat) : ClusterState := s.clusters.getD c ClusterState.fresh
def State.putCluster (s : State) (c : Nat) (x : ClusterState) : State := s.setClusters (s.clusters.put c x)
def State.tenant (s : State) (t : Nat) : Tenant := s.tenants.getD t Tenant.fresh
def State.wg (s : State) (wk : Nat) : Option Workgroup := s.wgs.find wk
def State.putWg (s : State) (wk : Nat) (w : Workgroup) : State := s.setWgs (s.wgs.put wk w)
def State.updWg (s : State) (wk : Nat) (g : Workgroup → Workgroup) : State := s.setWgs (s.wgs.upd wk g)
def State.launch (s : State) (l : Nat) : Option Launch := s.launches.find l
def State.putLaunch (s : State) (l : Nat) (x : Launch) : State := s.setLaunches (s.launches.put l x)
def State.updLaunch (s : State) (l : Nat) (g : Launch → Launch) : State := s.setLaunches (s.launches.upd l g)

/-- The cluster (16 die + cluster) of a package core number. -/
def clusterOf (core : Nat) : Nat := core / 8

/-- The die of a package core number. -/
def dieOf (core : Nat) : Nat := core / 128

/-- The die's 8 ns tick (07 R139). -/
def State.tick (s : State) : Nat := Config.ticksOf s.cycles

/-- The other members of a workgroup's unit and itself: keys of the workgroups of one hitch. -/
def State.unitKeys (s : State) (w : Workgroup) : List Nat :=
  (s.wgs.filter fun e => e.2.launch == w.launch && e.2.unit == w.unit).map (·.1)

/-- The key of hitch member m. -/
def State.memberKey (s : State) (w : Workgroup) (m : Nat) : Option Nat :=
  (s.wgs.find? fun e => e.2.launch == w.launch && e.2.unit == w.unit && e.2.member == m).map (·.1)

/-- The key of a workgroup: launch identifier and linear index. -/
def wgKey (launch wgid : Nat) : Nat := launch * 16777216 + wgid

/-! ## Bytes at the point of coherence (08 R145) -/

/-- The 128-byte line of an address. -/
def lineOf (a : Nat) : Nat := a / 128 * 128

/-- A byte of a physical line as its owner holds it: a dirty stash line stands before memory (07 R132). -/
def cohByte (wgs : Tbl Workgroup) (mem : List Host.Cell) (pa : Nat) : Byte :=
  match wgs with
  | [] => cellGet mem pa
  | (_, w) :: t =>
    match w.lines.find? fun l => l.dirty && l.pa == lineOf pa with
    | some l => cellGet w.mem (l.off + pa % 128)
    | none => cohByte t mem pa

/-- n coherent bytes. -/
def State.coh (s : State) (pa n : Nat) : List Byte := (List.range n).map fun i => cohByte s.wgs s.mem (pa + i)

/-- A 64-bit word at its point of coherence. -/
def State.cohD (s : State) (pa : Nat) : DWord := dwordAt (s.coh pa 8) 0

/-- The 32-byte sectors that n bytes touch. -/
def sectorsOf (a n : Nat) : List Nat := (List.range ((a + n + 31) / 32 - a / 32)).map (a / 32 + ·)

/-- A sector is poisoned as its owner holds it: a dirty stash line's marks stand before memory's (07 R132, 21 R373). -/
def cohBad (wgs : Tbl Workgroup) (poison : List Nat) (k : Nat) : Bool :=
  match wgs with
  | [] => poison.contains k
  | (_, w) :: t =>
    match w.lines.find? fun l => l.dirty && l.pa == 32 * k / 128 * 128 with
    | some l => w.poison.contains (l.off / 32 + k % 4)
    | none => cohBad t poison k

/-- A sector of the range is poisoned (21 R373). -/
def State.poisoned (s : State) (pa n : Nat) : Bool := (sectorsOf pa n).any fun k => cohBad s.wgs (s.poison ++ s.stale) k

/-- The sectors that a write of n bytes covers whole. -/
def wholeSectors (a n : Nat) : List Nat := (sectorsOf a n).filter fun k => a ≤ 32 * k && 32 * k + 32 ≤ a + n

/-! ## Watches (09 R190) -/

/-- The condition of a watch on a value: (word AND MASK) against OPERAND, unsigned (09 R189). -/
def Watch.test (x : Watch) (v : DWord) : Bool := cmp64 x.cond (v &&& x.mask) x.operand

/-- Evaluates a watch; a firing keeps the value it saw. -/
def Watch.eval (x : Watch) (v : DWord) : Watch := if !x.fired && x.test v then { x with fired := true, value := v } else x

/-- MSI-X vectors whose watch entries have just fired (21 Table 21-1). -/
def firedVectors : Tbl Watch → Tbl Watch → List (Nat × Nat)
  | (_, a) :: as, (_, b) :: bs =>
    match b.waiter with
    | .msix vf v => if b.fired && !a.fired then (vf, v) :: firedVectors as bs else firedVectors as bs
    | _ => firedVectors as bs
  | _, _ => []

/-- Where a function's MSI-X table stands in its BAR0: the spec does not say. -/
def msixBase : Nat := 8 * (Config.msixPlace % 130945)

/-- What the signal of a vector carries: its table entry, in the layout of PCI Express (PRESUMED, log 83). Whether a
masked vector is held back is that bus's business. -/
def State.msixSignal (s : State) (e : Nat × Nat) : Output :=
  let at_ (k : Nat) : DWord := s.fw.mmio.getD (e.1 * 2 ^ 26 + msixBase + 16 * e.2 + k) 0
  .msix e.1 e.2 (at_ 0) (loWord (at_ 8)) (hiWord (at_ 8))

/-- Evaluates the watches whose word meets the n bytes at pa. -/
def State.evalWatches (s : State) (pa n : Nat) : State :=
  let ws := s.watches.each fun _ x => if x.pa < pa + n ∧ pa < x.pa + 8 then x.eval (s.cohD x.pa) else x
  { s.setWatches ws with outbox := s.outbox ++ (firedVectors s.watches ws).map s.msixSignal }

/-! ## Lines that an L2 holds modified (07 R136; 21 Table 21-8) -/

def State.setL2 (s : State) (t : Tbl L2Line) : State := { s with l2 := t }

/-- Lines that a slice of an L2 holds: 768 sets of 16 ways. Which set a line falls in the spec does not say (07 R136; log
43). -/
def sliceLines : Nat := 768 * 16

/-- The modified lines of a line's slice. -/
def State.sliceMates (s : State) (line : Nat) : List Nat :=
  s.l2.keys.filter fun x => homeDie x == homeDie line && sliceOf x == sliceOf line

/-- Room in its slice for one more modified line: of a full slice some line is written back (07 R136). -/
def State.l2Room (s : State) (line : Nat) : State :=
  let mates := s.sliceMates line
  if mates.length < sliceLines then s
  else
    let r := s.draw Config.l2Victim
    r.2.setL2 (r.2.l2.del (mates.getD (r.1 % mates.length) line))

/-- What DRAM holds of a line that the L2 is about to modify: the line as it stands, unless the L2 holds it modified
already. Whether it has been written back in between is a free value. Host memory is never cached (07 R135). -/
def State.modifyLine (s : State) (line : Nat) : State :=
  let now : L2Line := { bytes := cellRead s.mem line 128, bad := s.poison.filter fun k => k / 4 == line / 128,
                        stale := s.stale.filter fun k => k / 4 == line / 128 }
  match s.tierAt line with
  | .host => s
  | .none => s
  | _ =>
    match s.l2.find line with
    | none => (s.l2Room line).setL2 ((s.l2Room line).l2.put line now)
    | some _ =>
      let r := s.draw Config.l2Evicts
      if r.1 then r.2.setL2 (r.2.l2.put line now) else r.2

/-- The lines that n bytes touch. -/
def linesTouched (pa n : Nat) : List Nat := (List.range ((pa + n + 127) / 128 - pa / 128)).map fun k => 128 * (pa / 128 + k)

/-- The same for every line of n bytes. -/
def State.modify (s : State) (pa n : Nat) : State := (linesTouched pa n).foldl State.modifyLine s

/-- The modified lines that a reset of the L2 of some dies loses: a line that has not been written back by then stands
again as DRAM holds it. -/
def State.loseL2 (s : State) (lost : Nat → Bool) : State :=
  s.l2.foldl (fun s e =>
    if lost (homeDie e.1) then
      let r := s.draw Config.l2Evicts
      let s := r.2.setL2 (r.2.l2.del e.1)
      if r.1 then s
      else
        { s with
          mem := cellWrite s.mem e.1 e.2.bytes
          poison := (s.poison.filter fun k => !(k / 4 == e.1 / 128)) ++ e.2.bad
          stale := (s.stale.filter fun k => !(k / 4 == e.1 / 128)) ++ e.2.stale }
    else s) s

/-! ## Stash lines and owned lines -/

/-- Writes the dirty copy of a line back to memory; `keep` leaves the stash a clean copy, otherwise the line is
invalidated (07 R132). -/
def Workgroup.recall (w : Workgroup) (keep : Bool) (line : Nat) : Workgroup :=
  { w with lines :=
      if keep then w.lines.map fun l => if l.pa = line then { l with dirty := false } else l
      else w.lines.filter fun l => l.pa != line }

/-- The poison marks once a line has been written back: those of the copy that was written (21 R373). -/
def State.poisonBack (s : State) (line : Nat) : List Nat :=
  (s.poison.filter fun k => !(k / 4 == line / 128)) ++ (sectorsOf line 128).filter fun k => cohBad s.wgs s.poison k

/-- Recall of one line: dirty data goes to L2 with its poison marks. -/
def State.recallLine (s : State) (keep : Bool) (line : Nat) : State :=
  if s.wgs.any fun e => e.2.lines.any fun l => l.pa == line then
    let t := if s.wgs.any fun e => e.2.lines.any fun l => l.dirty && l.pa == line then
        ((s.modifyLine line).setPoison (s.poisonBack line)).setStale (s.stale.filter fun k => !(k / 4 == line / 128)) else s
    (t.setMem (cellWrite s.mem line (s.coh line 128))).setWgs (s.wgs.each fun _ w => w.recall keep line)
  else s

/-- Recall of the lines that n bytes at pa touch, by an access of another agent: dirty data first goes to L2. -/
def State.recall (s : State) (keep : Bool) (pa n : Nat) : State :=
  (linesTouched pa n).foldl (fun s line => s.recallLine keep line) s

/-- A core owns a physical line. -/
def CoreState.owns (x : CoreState) (line : Nat) : Bool := x.owned.any fun o => o.line == line

/-- A core without a line in its ownership buffer. -/
def CoreState.yieldLine (x : CoreState) (line : Nat) : CoreState :=
  { x with owned := x.owned.filter fun o => o.line != line }

/-- Removes a line from the ownership buffer of every core but `keep`. -/
def State.disown (s : State) (keep : Option Nat) (line : Nat) : State :=
  if s.cores.any fun e => e.2.owns line && some e.1 != keep then
    s.setCores (s.cores.each fun c x => if some c = keep then x else x.yieldLine line)
  else s

/-- Exclusive ownership of a line by a core, most recent last; a seventeenth line displaces the oldest (07 R134).
`rel` says that a release records itself in the line (08 R155). -/
def State.own (s : State) (c line : Nat) (rel : Bool) : State :=
  let s := s.disown (some c) line
  let x := s.core c
  let o := (x.yieldLine line).owned ++ [{ line := line, rel := rel || x.owned.any fun o => o.line == line && o.rel }]
  s.putCore c { x with owned := if 16 < o.length then o.drop 1 else o }

/-- Marks sectors poisoned, and counts them for the sensor (21 R369, R373). -/
def State.poisonSectors (s : State) (ks : List Nat) : State :=
  let new := ks.filter fun k => !s.poison.contains k
  { s with poison := s.poison ++ new, stale := s.stale.filter fun k => !ks.contains k
           fw := { s.fw with poisonedCount := s.fw.poisonedCount + new.length } }

/-- The same for the sectors of n bytes. -/
def State.poisonAt (s : State) (pa n : Nat) : State := s.poisonSectors (sectorsOf pa n)

/-- The check of the sectors of n bytes is verified as they are read: a mismatch poisons (21 R373). -/
def State.verify (s : State) (pa n : Nat) : State :=
  let bad := (sectorsOf pa n).filter s.stale.contains
  if bad.isEmpty then s else s.poisonSectors bad

/-- Reads n bytes at the point of coherence for a fetch or a page walk, which update no L1 copy: a dirty stash line is
recalled and a line that another agent owns is yielded (07 R132, R133, R136). -/
def State.sliceRead (s : State) (c : Option Nat) (pa n : Nat) : List Byte × State :=
  let s := ((s.recall true pa n).disown c (lineOf pa)).verify pa n
  (cellRead s.mem pa n, s)

/-- Brings a core's L1 copies up to date with n bytes that it has read or written at the point of coherence
(07 R134, 08 R148). -/
def State.refresh (s : State) (c pa n : Nat) : State :=
  let x := s.core c
  if x.l1.any fun l => l.pa < pa + n && pa < l.pa + 128 then
    s.putCore c { x with l1 := x.l1.map fun l =>
      { l with sec := l.sec.each fun k b =>
          let a := l.pa + 32 * k
          if a < pa + n ∧ pa < a + 32 then (s.coh a 32, s.poisoned a 32) else b } }
  else s

/-- Reads at the point of coherence for an agent on core c (none: an agent without a core). -/
def State.physRead (s : State) (c : Option Nat) (pa n : Nat) : List Byte × State :=
  let s := s.recall true pa n
  let s := (s.disown c (lineOf pa)).verify pa n
  let s := match c with
    | some k => s.refresh k pa n
    | none => s
  (cellRead s.mem pa n, s)

/-- Writes at the point of coherence: recalls the line, stores, clears the poison of sectors written whole, computes the
check of those that are not poisoned anew (21 R373), updates the core's own L1 copies and evaluates the watches. -/
def State.physWrite (s : State) (c : Option Nat) (pa : Nat) (bs : List Byte) : State :=
  let n := bs.length
  let s := s.recall false pa n
  let s := (s.disown c (lineOf pa)).modify pa n
  let s := s.setMem (cellWrite s.mem pa bs)
  let s := if s.poisoned pa n then
      (s.setPoison (s.poison.filter fun k => !(wholeSectors pa n).contains k)).setStale
        (s.stale.filter fun k => !(sectorsOf pa n).contains k) else s
  let s := match c with
    | some k => s.refresh k pa n
    | none => s
  s.evalWatches pa n

/-! ## Translation (07 R133) -/

/-- A trap with nothing but its code, subcode and address. -/
def trapOf (c : Code) (sub : Nat) (a : DWord) : Trap := { code := c, sub := sub, addr := a, replay := false }

/-- The TRANSLATION fault of an invalid entry: replayable, subcode 0x01. -/
def noTranslation (a : DWord) : Trap := { code := .translation, sub := 0x01, addr := a, replay := true }

/-- The index bits, table base shift and leaf page bits of a level (Table 7-3): A 0, B 1, C 2, D 3. -/
def levelBits (lv : Nat) : Nat × Nat :=
  match lv with
  | 0 => (39, 17)
  | 1 => (30, 9)
  | 2 => (21, 9)
  | _ => (16, 5)

/-- One step of the walk and the rest of it (fuel: the levels left). `a` is the address to report. Of several things
wrong with one entry the spec does not say which faults: the model looks at reserved bits and the output address before
a LEAF at level A (DESIGN CHOICE, log 65). -/
def walkFrom (s : State) (asid : Nat) (va : Nat) (a : DWord) : Nat → Nat → Nat → Except Trap TlbEntry
  | 0, _, _ => .error (trapOf .protection 0x04 a)
  | fuel + 1, lv, table =>
    let sh := (levelBits lv).1
    let e := (s.cohD (table + 8 * bitsN va sh (levelBits lv).2)).toNat
    if !bitN e 0 then .error (noTranslation a)
    else if bitsN e 52 12 ≠ 0 ∨ bitsN e 4 4 ≠ 0 then .error (trapOf .protection 0x04 a)
    else
      let out := 256 * bitsN e 8 44
      if s.tierAt out = .none then .error (trapOf .protection 0x04 a)
      else if bitN e 1 then
        if lv = 0 then .error (noTranslation a)
        else if out % 2 ^ sh ≠ 0 then .error (trapOf .protection 0x04 a)
        else .ok { asid := asid, va := va / 2 ^ sh * 2 ^ sh, size := 2 ^ sh, pa := out, w := bitN e 2, x := bitN e 3 }
      else if lv = 3 then .error (trapOf .protection 0x04 a)
      else walkFrom s asid va a fuel (lv + 1) out

/-- The page of a virtual address for a tenant, by the walk alone. -/
def State.walk (s : State) (ten va : Nat) (a : DWord) : Except Trap TlbEntry :=
  let t := s.tenant ten
  match t.root with
  | none => .error (noTranslation a)
  | some r => walkFrom s t.asid.toNat va a 4 0 r

/-- The addresses of the table entries that a walk reads (fuel: the levels left). -/
def walkReads (s : State) (va : Nat) : Nat → Nat → Nat → List Nat
  | 0, _, _ => []
  | fuel + 1, lv, table =>
    let a := table + 8 * bitsN va (levelBits lv).1 (levelBits lv).2
    let e := (s.cohD a).toNat
    a :: (if bitN e 0 && !bitN e 1 && s.tierAt (256 * bitsN e 8 44) != .none && lv != 3 then
        walkReads s va fuel (lv + 1) (256 * bitsN e 8 44) else [])

/-- The reads of a page walk at L2: the lines of its entries are recalled from stashes and owners (07 R133, R136). -/
def State.afterWalk (s : State) (ten va : Nat) : State :=
  match (s.tenant ten).root with
  | none => s
  | some r => (walkReads s va 4 0 r).foldl (fun s a => (s.sliceRead none a 8).2) s

/-- The page of a virtual address as a cluster's translation unit gives it: an entry that it still holds, else a
walk, which it then holds. A change of a live translation takes effect only after an invalidation (07 R134). -/
def State.page (s : State) (cl ten va : Nat) (a : DWord) : Except Trap (TlbEntry × State) :=
  let x := s.cluster cl
  let asid := (s.tenant ten).asid.toNat
  match x.tlb.find? fun e => e.asid == asid && e.va ≤ va && va < e.va + e.size with
  | some e =>
    let (holds, s) := s.draw Config.tlbHolds
    if holds then .ok (e, s)
    else
      match s.walk ten va a with
      | .error t => .error t
      | .ok e' => .ok (e', (s.afterWalk ten va).putCluster cl { x with tlb := (e' :: x.tlb.filter (· != e)).take 4096 })
  | none =>
    match s.walk ten va a with
    | .error t => .error t
    | .ok e => .ok (e, (s.afterWalk ten va).putCluster cl { x with tlb := (e :: x.tlb).take 4096 })

/-- The physical address of va in its page. -/
def TlbEntry.at (e : TlbEntry) (va : Nat) : Nat := e.pa + (va - e.va)

/-- Counts request bytes of a tenant over the last 16 µs (17 Table 17-5). -/
def State.countTraffic (s : State) (ten n : Nat) (sure : Bool) : State :=
  { s with traffic := { tenant := ten, cycle := s.cycles, bytes := n, sure := sure } ::
      s.traffic.filter fun x => s.cycles ≤ x.cycle + 57600 }

/-- The bytes of a request to n bytes at a: whole sectors. -/
def requestBytes (a n : Nat) : Nat := 32 * (sectorsOf a n).length

/-- The walk of an access that faults has read its entries all the same, whatever the fault: their lines are recalled like
those of any walk (07 R133, R136); and a sector whose check has failed is poisoned (21 R373). -/
def State.faultWalk (s : State) (ten va : Nat) (t : Trap) : State :=
  let u := s.afterWalk ten va
  match t.code, s.walk ten va 0 with
  | .poison, .ok e => u.verify (e.at va) 1
  | _, _ => u

/-- Translation for an access to n bytes: physical address, W and X. An address of a die in reset is PROTECTION until the
die returns (21 Table 21-8). -/
def State.translate (s : State) (cl ten va n : Nat) (store : Bool) (a : DWord) : Except Trap (Nat × TlbEntry × State) :=
  match s.page cl ten va a with
  | .error t => .error t
  | .ok (e, s) =>
    if s.diesInReset.contains (homeDie (e.at va)) then .error (trapOf .protection 0x00 a)
    else if store && !e.w then .error (trapOf .protection 0x02 a)
    else .ok (e.at va, e, s.countTraffic ten (requestBytes va n) false)

/-! ## Rows of the core store (07 R130, R131; 04 Table 4-5) -/

/-- Rows of the divergence stack of depth d (01 R20). -/
def stackRows (d : Nat) : Nat := ceilDiv d 8

/-- Rows of a core (04 Table 4-5). -/
def coreRows : Nat := 24576

/-- The fibre has no register result in flight: nothing is owed by memory or by an engine (04 R89). Fixed results
are written within a few cycles. -/
def Fibre.noneInFlight (f : Fibre) : Bool := f.busy.isEmpty && f.outs.all fun x => !x.ld

/-- First row and length of a fibre's register allocation: the stack rows lie below v0, and rows that `vshrink` has
discarded stay in it until no result is in flight (04 R90). -/
def Fibre.run (f : Fibre) : Nat × Nat := (f.base - stackRows f.depth, f.win + stackRows f.depth + f.shed)

/-- Frees the rows discarded by `vshrink` once no register result is in flight (04 R90). -/
def Fibre.drainShed (f : Fibre) : Fibre := if f.noneInFlight then { f with shed := 0 } else f

def Workgroup.extent (w : Workgroup) : Nat := w.hdr.scratch + w.hdr.stash

/-- A register result may still be in flight to an ended fibre (04 R88). -/
def Workgroup.owes (w : Workgroup) (g : Ghost) : Bool :=
  !g.busy.isEmpty || w.orphans.any fun x => x.ld && x.uid == g.uid

/-- The ended fibres of a workgroup whose lane slots and rows are not free yet. -/
def Workgroup.haunted (w : Workgroup) : List Ghost := w.ghosts.filter w.owes

/-- The runs that a workgroup holds on its core: its fibres' allocations and its scratchpad. -/
def Workgroup.runs (w : Workgroup) : List (Nat × Nat) :=
  if w.stored ∨ w.run = .exited then []
  else
    (w.fibres.vals.filter fun f => !f.spilled).map Fibre.run ++ w.haunted.map (·.run) ++
      (if w.extent = 0 then [] else [(w.scratchRow, w.extent / 64)])

/-- The runs in use on a core. -/
def State.runsOf (s : State) (core : Nat) : List (Nat × Nat) :=
  s.wgs.vals.flatMap fun w => if w.core = core then w.runs else []

/-- A run of n rows at lo is free. -/
def runFree (runs : List (Nat × Nat)) (lo n : Nat) : Bool :=
  lo + n ≤ coreRows && runs.all fun r => lo + n ≤ r.1 || r.1 + r.2 ≤ lo

/-! ## L1 (07 R131, R134) -/

/-- The L1 line of va, if the core still holds it; a line that is gone is removed. -/
def State.l1Look (s : State) (c asid va : Nat) : Option L1Line × State :=
  let x := s.core c
  match x.l1.find? fun l => l.asid == asid && l.va == lineOf va with
  | none => (none, s)
  | some l =>
    let (holds, s) := s.draw Config.l1Holds
    if holds then (some l, s) else (none, s.putCore c { x with l1 := x.l1.filter (· != l) })

/-- A line of L2 is read to fill an L1: the line is recalled from stashes (07 R132, R136). -/
def State.fillRead (s : State) (pa : Nat) : State := (s.sliceRead none (lineOf pa) 128).2

/-- A sector of memory as the L1 takes it. -/
def State.sectorAt (s : State) (pa : Nat) : List Byte × Bool := (s.coh pa 32, s.poisoned pa 32)

/-- The lines of a core's L1 after sectors ks of the line of va have come in from the line of pa, in the row pair at
`row` if that is free and the line is new. A copy of the same physical line under another address is dropped, and what
stood in the row pair is replaced (07 R131, R134). -/
def State.l1With (s : State) (c asid va pa : Nat) (e : TlbEntry) (ks : List Nat) (row : Nat) : List L1Line :=
  let line := lineOf pa
  let old := (s.core c).l1
  let fill (t : Tbl (List Byte × Bool)) : Tbl (List Byte × Bool) :=
    ks.foldl (fun t k => t.put k (s.sectorAt (line + 32 * k))) t
  match old.find? fun l => l.asid == asid && l.va == lineOf va && l.pa == line with
  | some l => old.map fun o => if o = l then { l with w := e.w, x := e.x, sec := fill l.sec } else o
  | none =>
    let rest := old.filter fun o => o.pa != line && !(o.asid == asid && o.va == lineOf va)
    if runFree (s.runsOf c) row 2 then
      { row := row, asid := asid, va := lineOf va, pa := line, w := e.w, x := e.x, sec := fill [] } ::
        rest.filter fun o => o.row != row
    else rest

/-- Brings sectors ks of the line of va into the L1; the row pair is a free value. -/
def State.l1Fill (s : State) (c asid va pa : Nat) (e : TlbEntry) (ks : List Nat) : State :=
  let r := s.draw Config.l1Row
  r.2.putCore c { r.2.core c with l1 := r.2.l1With c asid va pa e ks (2 * (r.1 % (coreRows / 2))) }

/-- Discards the L1 lines of a core whose rows a workgroup holds now (07 R131). -/
def State.l1Trim (s : State) (c : Nat) : State :=
  s.putCore c { s.core c with l1 := (s.core c).l1.filter fun l => runFree (s.runsOf c) l.row 2 }

/-- An acquire at hitch scope or wider discards the core's plain L1 copies (08 R153), and with them what its instruction
cache holds (DESIGN CHOICE, log 92: the spec says nothing of that cache but its size). -/
def State.acquire (s : State) (c scope : Nat) : State :=
  if scope = 0 then s else s.putCore c { s.core c with l1 := [], icache := [] }

/-! ## The instruction cache (00 R3) -/

/-- The word at va that the core's instruction cache still holds; one that is gone is removed. -/
def State.iLook (s : State) (c asid va : Nat) : Option (List Byte) × State :=
  match (s.core c).icache.find? fun l => l.asid == asid && l.va == va with
  | none => (none, s)
  | some l =>
    let d := s.draw Config.iHolds
    if d.1 then (some l.bytes, d.2)
    else (none, d.2.putCore c { s.core c with icache := (s.core c).icache.filter (· != l) })

/-- A word comes into the instruction cache, which has room for 16,384. -/
def State.iFill (s : State) (c asid va : Nat) (bs : List Byte) : State :=
  s.putCore c { s.core c with icache := ({ asid := asid, va := va, bytes := bs } :: (s.core c).icache).take 16384 }

/-! ## Scratchpad and stash (07 R127, R132) -/

/-- The mapping that covers a stash offset. -/
def Workgroup.mapAt (w : Workgroup) (off : Nat) : Option StashMap :=
  w.maps.find? fun m => m.off ≤ off && off < m.off + m.len

/-- Keeps that the mapped line at an offset has been filled (09 R177). -/
def Workgroup.noteFill (w : Workgroup) (lo : Nat) : Workgroup :=
  { w with maps := w.maps.map fun m =>
      if m.off ≤ lo ∧ lo < m.off + m.len ∧ m.filled.contains lo = false then { m with filled := lo :: m.filled } else m }

/-- A line comes into the stash, without the marks of what stood there (21 R373). -/
def Workgroup.fillLine (w : Workgroup) (l : StashLine) (bs : List Byte) : Workgroup :=
  { w with mem := cellWrite w.mem l.off bs, lines := l :: w.lines, poison := w.poison.filter fun k => !(k / 4 == l.off / 128) }

/-- Makes sure that a mapped stash line is filled, by the translation unit of the workgroup's cluster; answers the
line, or none where the offset is plain scratchpad. -/
def State.stashLine (s : State) (wk off : Nat) (a : DWord) : Except Trap (Option StashLine × State) :=
  match s.wg wk with
  | none => .ok (none, s)
  | some w =>
    match w.mapAt off with
    | none => .ok (none, s)
    | some m =>
      let lo := lineOf off
      match w.lines.find? fun l => l.off == lo with
      | some l => .ok (some l, s)
      | none =>
        let va := (m.va.toNat + (lo - m.off)) % 2 ^ 56
        match s.translate (clusterOf w.core) w.tenant va 128 false a with
        | .error t => .error t
        | .ok (pa, e, s) =>
          if s.poisoned pa 128 then .error (trapOf .poison 0 a)
          else
            let s := (s.recall false pa 128).disown none pa
            let l : StashLine := { off := lo, pa := pa, w := e.w, dirty := false }
            let bs := cellRead s.mem pa 128
            .ok (some l, (s.updWg wk fun w => (w.noteFill lo).fillLine l bs).refresh w.core pa 128)

/-- Reads n bytes (within one line) of a workgroup's scratchpad or stash. -/
def State.scratchRead (s : State) (wk off n : Nat) (a : DWord) : Except Trap (List Byte × State) :=
  match s.stashLine wk off a with
  | .error t => .error t
  | .ok (_, s) =>
    match s.wg wk with
    | none => .ok (List.replicate n 0, s)
    | some w =>
      if (sectorsOf off n).any fun k => w.poison.contains k then .error (trapOf .poison 0 a)
      else .ok (cellRead w.mem off n, s)

/-- Writes bytes (within one line) of a workgroup's scratchpad or stash; a mapped line becomes dirty. -/
def State.scratchWrite (s : State) (wk off : Nat) (bs : List Byte) (a : DWord) : Except Trap State :=
  match s.stashLine wk off a with
  | .error t => .error t
  | .ok (l, s) =>
    match l with
    | some l =>
      if !l.w then .error (trapOf .protection 0x02 a)
      else
        let core := ((s.wg wk).map (·.core)).getD 0
        let s := s.updWg wk fun w => { w with
          mem := cellWrite w.mem off bs
          poison := w.poison.filter fun k => !(wholeSectors off bs.length).contains k
          lines := w.lines.map fun x => if x.off = l.off then { x with dirty := true } else x }
        .ok ((s.refresh core (l.pa + off % 128) bs.length).evalWatches (l.pa + off % 128) bs.length)
    | none =>
      .ok (s.updWg wk fun w => { w with
        mem := cellWrite w.mem off bs
        poison := w.poison.filter fun k => !(wholeSectors off bs.length).contains k })

/-- Writes a dirty stash line back; it stays mapped and clean (09 R175). -/
def State.writeBack (s : State) (l : StashLine) : State := s.recallLine true l.pa

/-- Writes back every dirty stash line of a workgroup. -/
def State.writeBackAll (s : State) (wk : Nat) : State :=
  match s.wg wk with
  | none => s
  | some w => (w.lines.filter (·.dirty)).foldl State.writeBack s

end Sys2Proof.Machine
end

