-- ==== Sys2Proof/Machine/Arbiter.lean ====
section
/-! DEFINITION. Slack in queues and the arbiter (07 R139 to R141). -/

namespace Sys2Proof.Machine

/-- The slack of a packet after it has waited, and whether it is LATE (R139). Background traffic does not age. -/
def agedSlack (slack waited : Nat) : Nat := if slack = 0xFFF then slack else slack - waited

/-- A packet at the head of its stream as an arbiter ranks it (R140, R141): the least slack, the LATE bit and the
greatest lost-round count of the stream it heads, and the time it entered the queue itself. -/
structure Bid where
  key : Nat
  slack : Nat
  late : Bool
  entered : Nat
  lost : Nat
  deriving DecidableEq, Repr

/-- A packet as it waits: the slack it entered with. -/
structure Waiting where
  slack : Nat
  late : Bool
  entered : Nat
  lost : Nat
  deriving DecidableEq, Repr

/-- The slack and the LATE bit of a waiting packet at a tick. -/
def Waiting.now (p : Waiting) (tick : Nat) : Nat × Bool :=
  let k := agedSlack p.slack (tick - p.entered)
  (k, p.late || k == 0)

/-- The bid of a stream: its head carries what R141 says. -/
def bidOf (key tick : Nat) : List Waiting → Option Bid
  | [] => none
  | p :: ps =>
    some { key := key, slack := ps.foldl (fun m q => min m (q.now tick).1) (p.now tick).1,
           late := (p :: ps).any fun q => (q.now tick).2, entered := p.entered,
           lost := ps.foldl (fun m q => max m q.lost) p.lost }

/-- The first bid that a relation puts before every later one. -/
def bestBid (before : Bid → Bid → Bool) : List Bid → Option Bid
  | [] => none
  | b :: bs =>
    match bestBid before bs with
    | none => some b
    | some c => if before c b then some c else some b

/-- The oldest bid; the first listed of those that entered in one tick (DESIGN CHOICE, log 63). -/
def oldestBid (bs : List Bid) : Option Bid := bestBid (fun c b => c.entered < b.entered) bs

/-- The bid with the least slack, the oldest of them. -/
def leastBid (bs : List Bid) : Option Bid :=
  bestBid (fun c b => c.slack < b.slack || (c.slack == b.slack && c.entered < b.entered)) bs

/-- The grant of R140, after `nonbg` consecutive grants to packets that are not background traffic. -/
def grantOf (nonbg : Nat) (bs : List Bid) : Option Bid :=
  match oldestBid (bs.filter fun b => 256 ≤ b.lost) with
  | some b => some b
  | none =>
    match if 63 ≤ nonbg then oldestBid (bs.filter fun b => b.slack == 0xFFF) else none with
    | some b => some b
    | none =>
      match oldestBid (bs.filter fun b => b.late && b.slack != 0xFFF) with
      | some b => some b
      | none => leastBid bs

/-- The count of consecutive non-background grants after a grant. -/
def nonbgAfter (nonbg : Nat) (b : Bid) : Nat := if b.slack = 0xFFF then 0 else nonbg + 1

end Sys2Proof.Machine
end

