-- ==== Sys2Proof/Machine/Formats.lean ====
section
/-! DEFINITION. Element formats, the S9 block scale, scaled elements, steps of accumulation and dual quantisation
(11 R202 to R217). -/

namespace Sys2Proof.Machine

/-! ## Format codes (11 Table 11-1) -/

/-- Bits of an element by format code. -/
def fmtBits (c : Nat) : Nat :=
  match c with
  | 0 => 32
  | 1 => 16
  | 2 => 16
  | 3 => 8
  | 4 => 8
  | 5 => 4
  | 6 => 4
  | _ => 8

/-- The rate group of a format code (R205): FP32, the 16-bit formats, the full-rate floating formats, INT8. -/
def fmtGroup (c : Nat) : Nat :=
  match c with
  | 0 => 0
  | 1 => 1
  | 2 => 1
  | 7 => 3
  | _ => 2

/-- A block scale is permitted (Table 11-1). -/
def fmtScaled (c : Nat) : Bool := 3 ≤ c && c ≤ 6

/-- The binary format of a floating code other than Q4X. -/
def fmtOf (c : Nat) : Fmt :=
  match c with
  | 0 => fp32
  | 1 => bf16
  | 2 => fp16
  | 3 => e4m3
  | 4 => e5m2
  | _ => e2m1

/-! ## Q4X (R206) -/

/-- Plain(c) of Table 11-3 for a code that is not the outlier mark. -/
def q4xPlain (c : Nat) : FVal := .fin (8 < c) (c % 8) 0

/-- The outlier that its neighbour's nibble c encodes. -/
def q4xOutlier (c : Nat) : FVal := .fin (8 ≤ c) 1 ((c % 8 : Nat) + 3)

/-- The value of the even or the odd element of a byte. -/
def q4xVal (byte : Nat) (odd : Bool) : FVal :=
  let e := byte % 16
  let o := byte / 16 % 16
  if e = 8 then (if odd then .fin false 0 0 else q4xOutlier o)
  else if o = 8 then (if odd then q4xOutlier e else .fin false 0 0)
  else q4xPlain (if odd then o else e)

/-- The value of element k of a line whose bytes from the element's first byte on are bs (R203). -/
def elemVal (fmt k : Nat) (bs : List Byte) : FVal :=
  let b := leNat bs
  match fmt with
  | 5 => decodeF e2m1 (bitsN b (4 * (k % 2)) 4)
  | 6 => q4xVal b (k % 2 == 1)
  | c => decodeF (fmtOf c) b

/-! ## S9 (R207, R208) -/

/-- The value of an S9 code as m × 2^e; none for the NaN scale. -/
def s9Val (c : Nat) : Option (Nat × Int) :=
  if c = 0x1FF then none
  else if c / 16 = 0 then some (c % 16, -18)
  else some (16 + c % 16, ((c / 16 : Nat) : Int) - 19)

/-- Scale j of a group of 36 bytes. -/
def s9At (group : List Byte) (j : Nat) : Nat := bitsN (leNat group) (9 * j) 9

/-! ## Scaled elements (R209) -/

/-- An element as the matrix engine multiplies it: its value, INT8 value, an invalid operation met on the way, and
whether one of its bytes was poisoned. -/
structure MElem where
  v : FVal
  i : Int
  nv : Bool
  bad : Bool
  deriving DecidableEq, Repr

/-- a′ := value(element) × value(scale), exact, and whether it raises NV. -/
def scaleElem (v : FVal) (s : Option (Nat × Int)) : FVal × Bool :=
  match s with
  | none => (.nan false, false)
  | some (m, e) =>
    match v with
    | .nan q => (.nan q, false)
    | .inf n => if m = 0 then (.nan false, true) else (.inf n, false)
    | .fin n m1 e1 => (.fin n (m1 * m) (e1 + e), false)

/-! ## Steps (R210, R212) and slot flags (Table 11-4) -/

/-- NV, OF and UF of FSTAT's layout in the layout of Table 11-4. -/
def slotFlags (f : Word) : BitVec 4 :=
  (if f &&& fNV ≠ 0 then 1#4 else 0) ||| (if f &&& fOF ≠ 0 then 2#4 else 0) ||| (if f &&& fUF ≠ 0 then 8#4 else 0)

/-- A floating step. -/
def floatStep (a b : MElem) (c : Word) : Word × BitVec 4 :=
  let r := fmaV fp32 .rne a.v b.v (val32 c)
  (BitVec.ofNat 32 r.1, slotFlags r.2 ||| (if a.nv || b.nv then 1#4 else 0))

/-- An INT8 step, saturating or wrapping. -/
def intStep (sat : Bool) (a b : MElem) (c : Word) : Word × BitVec 4 :=
  let x := c.toInt + a.i * b.i
  let out := x < -2147483648 || 2147483647 < x
  if sat then (BitVec.ofInt 32 (clampInt x (-2147483648) 2147483647), if out then 4#4 else 0)
  else (BitVec.ofInt 32 x, if out then 2#4 else 0)

/-! ## Drains (R213, R251) -/

/-- SInt(x) or the FP32 value x, times the product of the per-tensor scales. -/
def applyScales (int : Bool) (x sca scb : Word) : Word × Word :=
  let ps := fmul .rne sca scb
  if int then
    let r := toWord (mulV fp32 .rne (.fin (x.toInt < 0) x.toInt.natAbs 0) (val32 ps.1))
    (r.1, r.2 ||| ps.2)
  else
    let r := fmul .rne x ps.1
    (r.1, r.2 ||| ps.2)

/-- Bytes of an element by drain target. -/
def drainSize (dfmt : Nat) : Nat :=
  match dfmt with
  | 1 => 2
  | 2 => 2
  | 3 => 1
  | 4 => 1
  | _ => 4

/-- One drained element: its bytes and the flags its arithmetic raises. An INT32 zero times the scales is +0 times
them. -/
def drainElem (dfmt : Nat) (dscl dint : Bool) (x sca scb : Word) : List Byte × BitVec 4 :=
  if dfmt = 15 then (leBytes 4 x.toNat, 0)
  else
    let v := if dscl then applyScales dint x sca scb else if dint then int2f x.toInt else plain x
    if dfmt = 0 then (leBytes 4 v.1.toNat, slotFlags v.2)
    else
      let r := narrow (fmtOf dfmt) v.1
      (leBytes (drainSize dfmt) r.1, slotFlags (v.2 ||| r.2))

/-! ## Dual quantisation (R215, R216) -/

/-- A finite magnitude as m × 2^e. -/
abbrev Mag := Nat × Int

/-- a ≤ b -/
def magLe (a b : Mag) : Bool :=
  let e := min a.2 b.2
  a.1 * 2 ^ (a.2 - e).toNat ≤ b.1 * 2 ^ (b.2 - e).toNat

def magMax (a b : Mag) : Mag := if magLe a b then b else a

def magMul (n : Nat) (a : Mag) : Mag := (n * a.1, a.2)

/-- |x| of a finite value. -/
def magOf : FVal → Mag
  | .fin _ m e => (m, e)
  | _ => (0, 0)

def signOf : FVal → Bool
  | .fin n _ _ => n
  | .inf n => n
  | .nan _ => false

def FVal.isFinite : FVal → Bool
  | .fin _ _ _ => true
  | _ => false

/-- The S9 value of a finite code. -/
def s9Mag (c : Nat) : Mag := (s9Val c).getD (0, 0)

/-- The least S9 code of 0x000 to 0x1FE with n ≤ k × value; 0x1FE if none. -/
def s9Least (n : Mag) (k : Nat) : Nat :=
  ((List.range 0x1FF).find? fun c => magLe n (magMul k (s9Mag c))).getD 0x1FE

/-- The largest finite magnitude of a target: 448, 57,344, 6. -/
def quantMax (tfmt : Nat) : Nat :=
  match tfmt with
  | 3 => 448
  | 4 => 57344
  | _ => 6

/-- Twice the magnitude of a code of a target format, scaled by 2^40, so that it is a whole number. -/
def codeMag (f : Fmt) (c : Nat) : Nat :=
  match decodeF f c with
  | .fin _ m e => m * 2 ^ (e + 40).toNat
  | _ => 0

/-- The magnitude of a code as `codeMag` gives it, also for the one beyond the largest, which would stand one more step
up. -/
def stepMag (f : Fmt) (c : Nat) : Nat :=
  if c ≤ f.maxCode then codeMag f c else 2 * codeMag f f.maxCode - codeMag f (f.maxCode - 1)

/-- m × 2^e ÷ (d × 2^g) rounded to nearest, ties to the even code, then saturated to the largest code: the magnitude code
and whether it saturated (R215; 05 R108 rounds first in the same way). -/
def quantCode (f : Fmt) (a d : Mag) : Nat × Bool :=
  let e := min a.2 (d.2 - 41)
  let x := a.1 * 2 ^ (a.2 - e).toNat
  let y := d.1 * 2 ^ (d.2 - 41 - e).toNat
  -- the quotient is 2 ^ -41 × x / y; code c stands for codeMag f c / 2 ^ 40
  let above (c : Nat) : Bool :=
    -- the quotient lies beyond the midpoint of codes c and c + 1, or on it with c odd
    let mid := (stepMag f c + stepMag f (c + 1)) * y
    mid < x || (mid == x && c % 2 == 1)
  (((List.range f.maxCode).filter above).length, above f.maxCode)

/-- A quantised block: codes of its elements, scale, flags in the layout of Table 11-4. -/
structure QBlock where
  codes : List Nat
  scale : Nat
  flags : BitVec 4
  deriving DecidableEq, Repr

/-- A block of a format other than Q4X (R215). -/
def quantFloat (tfmt : Nat) (xs : List FVal) : QBlock :=
  let f := fmtOf tfmt
  if xs.any fun v => !v.isFinite then { codes := xs.map fun _ => 0, scale := 0x1FF, flags := 1 }
  else
    let amax := (xs.map magOf).foldl magMax (0, 0)
    let s := s9Least amax (quantMax tfmt)
    let one (v : FVal) : Nat × BitVec 4 :=
      let q := if (s9Mag s).1 = 0 then (0, false) else quantCode f (magOf v) (s9Mag s)
      ((if signOf v then 2 ^ (f.eb + f.mb) else 0) + q.1,
       (if q.2 then 4#4 else 0) ||| (if (magOf v).1 ≠ 0 ∧ q.1 = 0 then 8#4 else 0))
    let rs := xs.map one
    { codes := rs.map (·.1), scale := s, flags := rs.foldl (fun a r => a ||| r.2) 0 }

/-- m × 2^e ÷ (d × 2^g) rounded to the nearest whole number, ties to even. -/
def quantInt (a d : Mag) : Nat :=
  let e := min a.2 d.2
  let x := a.1 * 2 ^ (a.2 - e).toNat
  let y := d.1 * 2 ^ (d.2 - e).toNat
  let q := x / y
  let r := x % y
  if y < 2 * r ∨ (2 * r = y ∧ q % 2 = 1) then q + 1 else q

/-- |q - 2^k| for q = a ÷ d, as a whole number over the common denominator y. -/
def outDist (a d : Mag) (k : Nat) : Nat :=
  let e := min a.2 d.2
  let x := a.1 * 2 ^ (a.2 - e).toNat
  let y := d.1 * 2 ^ (d.2 - e).toNat
  let t := 2 ^ k * y
  if x ≤ t then t - x else x - t

/-- The k of 3 to 10 nearest to an outlier, the smaller on a tie. -/
def outExp (a d : Mag) : Nat :=
  ([4, 5, 6, 7, 8, 9, 10].foldl (fun b k => if outDist a d k < outDist a d b then k else b) 3)

/-- A plain Q4X nibble with its flags. -/
def q4xCode (v : FVal) (s : Mag) : Nat × BitVec 4 :=
  if s.1 = 0 then (0, if (magOf v).1 ≠ 0 then 8 else 0)
  else
    let m := quantInt (magOf v) s
    if m = 0 then (0, if (magOf v).1 ≠ 0 then 8 else 0)
    else if 7 < m then ((if signOf v then 15 else 7), 4)
    else ((if signOf v then 8 + m else m), 0)

/-- A Q4X block of four elements (R216). -/
def quantQ4x (xs : List FVal) : QBlock :=
  if xs.any fun v => !v.isFinite then { codes := xs.map fun _ => 0, scale := 0x1FF, flags := 1 }
  else
    let at_ (i : Nat) : FVal := (xs[i]?).getD (.fin false 0 0)
    let hiOdd (p : Nat) : Bool := !magLe (magOf (at_ (2 * p + 1))) (magOf (at_ (2 * p)))
    let hi (p : Nat) : FVal := if hiOdd p then at_ (2 * p + 1) else at_ (2 * p)
    let lo (p : Nat) : FVal := if hiOdd p then at_ (2 * p) else at_ (2 * p + 1)
    let t := magMax (magOf (lo 0)) (magOf (lo 1))
    let outlier (p : Nat) : Bool := t.1 != 0 && !magLe (magOf (hi p)) (magMul 8 t)
    let n := [0, 1].foldl (fun n p => if outlier p then n else magMax n (magOf (hi p))) t
    let s := s9Least n 7
    let sv := s9Mag s
    let pair (p : Nat) : List Nat × BitVec 4 :=
      let k := outExp (magOf (hi p)) sv
      if outlier p && sv.1 != 0 && hiOdd p && signOf (hi p) && k == 3 then
        -- an odd-slot -8: the pair is no outlier, and its greater element saturates to -7
        let a := q4xCode (lo p) sv
        ([a.1, 15], a.2 ||| 4)
      else if outlier p && sv.1 != 0 then
        let mark := (if signOf (hi p) then 8 else 0) + (k - 3)
        (if hiOdd p then [mark, 8] else [8, mark], 0)
      else
        let a := q4xCode (at_ (2 * p)) sv
        let b := q4xCode (at_ (2 * p + 1)) sv
        ([a.1, b.1], a.2 ||| b.2)
    { codes := (pair 0).1 ++ (pair 1).1, scale := s, flags := (pair 0).2 ||| (pair 1).2 }

/-- A block of four elements in a target format. -/
def quantBlock (tfmt : Nat) (xs : List FVal) : QBlock := if tfmt = 6 then quantQ4x xs else quantFloat tfmt xs

/-- Codes of a line packed as R203 states. -/
def packCodes (bits : Nat) : List Nat → List Byte
  | [] => []
  | [a] => [BitVec.ofNat 8 a]
  | a :: b :: cs =>
    if bits = 4 then BitVec.ofNat 8 (a % 16 + 16 * (b % 16)) :: packCodes bits cs
    else BitVec.ofNat 8 a :: BitVec.ofNat 8 b :: packCodes bits cs

/-- The groups of 36 bytes that hold the scales of a line: 32 to a group, unused slots zero. -/
def packScales (n : Nat) (cs : List Nat) : List Byte :=
  (List.range n).flatMap fun g =>
    leBytes 36 ((List.range 32).foldl (fun x j => x + ((cs[32 * g + j]?).getD 0) * 2 ^ (9 * j)) 0)

end Sys2Proof.Machine
end

