-- ==== Sys2Proof/Machine/Ops.lean ====
section
/-! DEFINITION. The shared operations of a fibre's words: issuing, retiring, queue ports, taking an exception and
returning from one (01 R24 to R28, R378; 04 R95; 09 R181 to R183; 18 R316 to R323). -/

namespace Sys2Proof.Machine

/-! ## Memory as agents without a core reach it -/

/-- Splits n bytes at address a at 128-byte lines (fuel bounds the number of parts). -/
def lineParts : Nat → Nat → Nat → List (Nat × Nat)
  | 0, _, _ => []
  | fuel + 1, a, n =>
    if n = 0 then []
    else
      let k := min n (128 - a % 128)
      (a, k) :: lineParts fuel (a + k) (n - k)

/-- The parts of a range, whatever its length. -/
def partsOf (a n : Nat) : List (Nat × Nat) := lineParts (n / 128 + 2) a n

/-- Runs over parts, stopping at the first trap. -/
def overParts {ε α : Type} (g : Nat × Nat → α → Except ε α) : List (Nat × Nat) → α → Except ε α
  | [], a => .ok a
  | p :: ps, a =>
    match g p a with
    | .error t => .error t
    | .ok a => overParts g ps a

/-- Bits [63:60] of an address. -/
def selOf (a : DWord) : Nat := a.toNat / 2 ^ 60

/-! ## Objects that a store disturbs (08 R159, 09 R186) -/

/-- Where the byte at a tenant's virtual address lies, by the walk alone. -/
def State.storageOf (s : State) (ten va : Nat) : Option (Option Nat × Nat) :=
  (s.walk ten va 0).toOption.map fun e => (none, e.at va)

/-- Where the byte at an offset of a workgroup's scratchpad lies: a mapped stash byte is the global location that it maps
(08 R145). -/
def State.scratchStorage (s : State) (wk off : Nat) : Option Nat × Nat :=
  match s.wg wk with
  | none => (some wk, off)
  | some w =>
    match w.mapAt off with
    | none => (some wk, off)
    | some m => (s.storageOf w.tenant ((m.va.toNat + (off - m.off)) % 2 ^ 56)).getD (some wk, off)

/-- Where an object lies: the workgroup of the scratchpad and the offset, or none and the physical address. -/
def State.objStorage (s : State) (wk : Nat) (w : Workgroup) (a : DWord) : Option (Option Nat × Nat) :=
  match selOf a with
  | 0x8 => some (s.scratchStorage wk (a.toNat % 2 ^ 32))
  | 0x9 => (s.memberKey w (bitsN a.toNat 57 3)).map fun k => s.scratchStorage k (a.toNat % 2 ^ 32)
  | _ => s.storageOf w.tenant (a.toNat % 2 ^ 56)

/-- Where the claimed ticket objects lie. -/
def State.claimed (s : State) : List (Option Nat × Nat) :=
  (s.wgs.filterMap fun e => e.2.claim.bind fun c => s.objStorage e.1 e.2 c.1) ++ s.claims.filterMap fun x =>
    match x.key with
    | some k => some (some k, x.addr)
    | none => s.storageOf x.tenant x.addr

/-- Ranges of n bytes at a and of m bytes at b share a byte. -/
def share (a n b m : Nat) : Bool := decide (a < b + m) && decide (b < a + n)

/-- The kinds of store (08 R146). -/
inductive StoreKind where
  | plain | release | atomic
  deriving DecidableEq, Repr

/-- The bytes that a store of n bytes makes unpredictable: a claimed ticket by a plain store (09 R186), a barrier with an
open phase by a plain store or an atomic (08 R159). -/
def State.disturbs (s : State) (x : Option Nat × Nat) (n : Nat) (k : StoreKind) : List (Nat × Nat) :=
  (if k = .plain then (s.claimed.filter fun y => y.1 == x.1 && share x.2 n y.2 8).map fun y => (y.2, 8) else []) ++
    (if k = .release then [] else
      (s.openBars.filter fun b => b.key == x.1 && share x.2 n b.addr 16).map fun b => (b.addr, 16))

/-- What a store leaves of the objects that it disturbs, by the ranges found before it: free bytes (00 R7; log 22). -/
def State.stirObjs (s : State) (core key : Option Nat) (rs : List (Nat × Nat)) : State :=
  if rs.isEmpty then s
  else
    rs.foldl (fun s r =>
      let q := freeBytes r.2 s
      match key with
      | none => q.2.physWrite core r.1 q.1
      | some k => (q.2.scratchWrite k r.1 q.1 0).toOption.getD q.2)
      { s with openBars := s.openBars.map fun b =>
          if b.key == key && rs.contains (b.addr, 16) then { b with disturbed := true } else b }

/-- A store to a barrier object other than an addition leaves no record of its last flip (09 R197). -/
def State.forgetFlips (s : State) (x : Option Nat × Nat) (n : Nat) : State :=
  { s with flips := s.flips.filter fun b => !(b.key == x.1 && share x.2 n b.addr 16) }

/-- The key of a workgroup. -/
def Workgroup.key (w : Workgroup) : Nat := wgKey w.launch w.wgid

/-- What a fibre has observed of its workgroup's tiles, it leaves at a release (12 R240, 08 R152). -/
def Workgroup.handOn (w : Workgroup) (uid : Nat) (p : SyncPoint) : Workgroup :=
  { w with tiles := w.tiles.map fun t =>
      if t.seenBy.contains uid && !t.handed.contains p then { t with handed := t.handed ++ [p] } else t }

/-- An acquire takes it up. -/
def Workgroup.takeUp (w : Workgroup) (uid : Nat) (p : SyncPoint) : Workgroup :=
  { w with tiles := w.tiles.map fun t =>
      if t.handed.contains p && !t.seenBy.contains uid then { t with seenBy := t.seenBy ++ [uid] } else t }

/-- A synchronising operation of a fibre at a point: its acquire, then its release. Only direct mode keeps tiles (12 R223). -/
def State.syncAt (s : State) (w : Workgroup) (uid : Nat) (acq rel : Bool) (p : SyncPoint) : State :=
  if w.hdr.accm then
    s.updWg w.key fun w =>
      let w := if acq then w.takeUp uid p else w
      if rel then w.handOn uid p else w
  else s

/-- What releases have left at a location. -/
def SyncPoint.within (p : SyncPoint) (x : Option Nat × Nat) (n : Nat) : Bool :=
  match p with
  | .mem k a => k == x.1 && share x.2 n a 4
  | _ => false

/-- A store that is no atomic ends what earlier releases have left at its bytes (08 R152). -/
def State.endHanded (s : State) (x : Option Nat × Nat) (n : Nat) : State :=
  if s.wgs.vals.any fun w => w.tiles.any fun t => t.handed.any fun p => p.within x n then
    s.setWgs (s.wgs.each fun _ w =>
      { w with tiles := w.tiles.map fun t => { t with handed := t.handed.filter fun p => !p.within x n } })
  else s

/-- What a store of n bytes at x leaves of synchronising objects; `old` is the state before it. -/
def State.afterStore (s old : State) (core : Option Nat) (x : Option Nat × Nat) (n : Nat) (k : StoreKind) : State :=
  let t := (s.stirObjs core x.1 (old.disturbs x n k)).forgetFlips x n
  if k = .atomic then t else t.endHanded x n

/-- The same after a write of n bytes to a tenant's virtual addresses. -/
def State.stirVa (s old : State) (ten va n : Nat) (k : StoreKind) : State :=
  (partsOf va n).foldl (fun s p =>
    match old.storageOf ten p.1 with
    | none => s
    | some x => s.afterStore old none x p.2 k) s

/-! ## Stores that are not performed yet (08 R145, R150, R154) -/

/-- Drops a core's L1 copies of a sector (09 R168). -/
def State.l1Drop (s : State) (core pa : Nat) : State :=
  let x := s.core core
  if x.l1.any fun l => l.pa == lineOf pa then
    s.putCore core { x with l1 := x.l1.map fun l => if l.pa = lineOf pa then { l with sec := l.sec.del (pa % 128 / 32) } else l }
  else s

/-- Accesses of two agents of one fibre stand in one program order: of one strand, or of the uniform pipe and any strand (08
R147). -/
def inOrder (a b : Option Nat) : Bool := a.isNone || b.isNone || a == b

/-- A store of n bytes at a location could satisfy a watch entry that a fibre has armed: it is a release at sys scope (08
Table 8-2). -/
def State.watchedAt (s : State) (x : Option Nat × Nat) (n : Nat) : Bool :=
  x.1.isNone && s.watches.vals.any fun e =>
    !e.fired && share x.2 n e.pa 8 &&
      match e.waiter with
      | .fibre _ _ _ => true
      | _ => false

/-- Performs a store at its point of coherence, for a fibre on a core. -/
def State.performSt (s : State) (core : Nat) (p : PendStore) : State :=
  match p.key with
  | none =>
    let t := s.physWrite (some core) p.addr p.bytes
    (if p.nc then t.l1Drop core p.addr else t).afterStore s (some core) (none, p.addr) p.bytes.length .plain
  | some k =>
    match s.scratchWrite k p.addr p.bytes 0 with
    | .error _ => s
    | .ok t => t.afterStore s (some core) (s.scratchStorage k p.addr) p.bytes.length .plain

/-- A store joins those that are not performed: as one part, or for a q access as four (08 R150). -/
def Fibre.buffer (f : Fibre) (who : Option Nat) (x loc : Option Nat × Nat) (bs : List Byte) (nc : Bool) : Fibre :=
  let parts := if bs.length = 16 then [0, 4, 8, 12].map fun k => (k, (bs.drop k).take 4) else [(0, bs)]
  parts.foldl (fun f e =>
    { f with
      stq := f.stq ++ [{ serial := f.nextSt, agent := who, key := x.1, addr := x.2 + e.1, loc := (loc.1, loc.2 + e.1)
                         bytes := e.2, nc := nc, named := false }]
      nextSt := f.nextSt + 1 }) f

/-- A store has a byte of n at a location. -/
def PendStore.covers (p : PendStore) (x : Option Nat × Nat) (n : Nat) : Bool :=
  p.loc.1 == x.1 && share x.2 n p.loc.2 p.bytes.length

/-- Two stores write a common byte. -/
def PendStore.meets (p q : PendStore) : Bool := p.covers q.loc q.bytes.length

/-- An earlier store p is performed before q: it has a byte of q (08 R148), or q is a release for its agent, as a store that
could satisfy a watch is (08 Table 8-2). -/
def State.storeFirst (s : State) (p q : PendStore) : Bool :=
  p.meets q || (inOrder p.agent q.agent && s.watchedAt q.loc q.bytes.length)

/-- The stores of a queue that are wanted, with those that stand before them. -/
def State.dueStores (s : State) (want : PendStore → Bool) : List PendStore → List PendStore
  | [] => []
  | p :: ps =>
    let r := s.dueStores want ps
    if want p || r.any (s.storeFirst p) then p :: r else r

/-- A load whose value is not fixed may still read when this store is performed: not if it is an earlier load of the same
program order, because no store is visible before the loads that precede it (08 R149). -/
def LateLoad.outlives (x : LateLoad) (p : PendStore) : Bool := !(decide (x.serial < p.serial) && inOrder x.agent p.agent)

/-- Some stores of a fibre's queue leave it. -/
def Fibre.without (f : Fibre) (q : List PendStore) : Fibre :=
  { f with
    stq := f.stq.filter fun p => !(q.any fun x => x.serial == p.serial)
    lq := f.lq.filter fun x => q.all x.outlives }

/-- Performs the wanted stores of a fibre in program order, with those that stand before them. -/
def Fibre.perform (f : Fibre) (want : PendStore → Bool) (core : Nat) (s : State) : Fibre × State :=
  let q := s.dueStores want f.stq
  (f.without q, q.foldl (fun s p => s.performSt core p) s)

/-- The value of every load of an agent's program order is fixed. -/
def Fibre.fixLoads (f : Fibre) (who : Option Nat) : Fibre := { f with lq := f.lq.filter fun x => !inOrder x.agent who }

/-- Performs every store of an agent's program order, and fixes its loads: so it is before a release or an atomic of that
agent is performed; for the uniform pipe all of the fibre's (08 R147, R149, R152, R157; 09 R170). -/
def Fibre.flush (f : Fibre) (who : Option Nat) (core : Nat) (s : State) : Fibre × State :=
  let r := f.perform (fun p => inOrder p.agent who) core s
  (r.1.fixLoads who, r.2)

/-- The stores that may be performed next: those that no earlier one to a common byte stands before (08 R148). -/
def ripeStores : List PendStore → List PendStore → List PendStore
  | _, [] => []
  | before, p :: ps =>
    if before.any (·.meets p) then ripeStores (before ++ [p]) ps else p :: ripeStores (before ++ [p]) ps

def Fibre.ripe (f : Fibre) : List PendStore := ripeStores [] f.stq

/-- An engine's access for a workgroup observes the stores of its fibres to the same bytes (08 R158): they are performed
first, with what stands before them. -/
def State.drainOver (s : State) (wk : Nat) (x : Option Nat × Nat) (n : Nat) : State :=
  match s.wg wk with
  | none => s
  | some w =>
    w.fibres.vals.foldl (fun s f =>
      let r := f.perform (fun p => p.covers x n) w.core s
      r.2.updWg wk fun w => { w with fibres := w.fibres.upd f.fid fun f => { f with stq := r.1.stq, lq := r.1.lq } }) s

/-- Performs every store of a workgroup's fibres, and fixes their loads. -/
def State.flushWg (s : State) (wk : Nat) : State :=
  match s.wg wk with
  | none => s
  | some w =>
    (w.fibres.vals.foldl (fun s f => f.stq.foldl (fun s p => s.performSt w.core p) s) s).updWg wk fun w =>
      { w with fibres := w.fibres.each fun _ f => { f with stq := [], lq := [] } }

/-- A load of an agent joins those whose value is not fixed; its word gives it its registers (`Fibre.awaitLoad`). -/
def Fibre.deferLoad (f : Fibre) (who : Option Nat) (x loc : Option Nat × Nat) (n : Nat) : Fibre :=
  { f with
    lq := f.lq ++ [{ serial := f.nextSt, agent := who, key := x.1, addr := x.2, loc := loc, n := n, z := 0, regs := [] }]
    nextSt := f.nextSt + 1 }

/-- The registers of the load that has just been made, if they can take a value later. -/
def Fibre.awaitLoad (f : Fibre) (z : BitVec 3) (regs : List Reg) : Fibre :=
  { f with lq := f.lq.filterMap fun x =>
      if !x.regs.isEmpty then some x else if regs.isEmpty then none else some { x with z := z, regs := regs } }

/-- An access of an agent to n bytes at a location fixes the loads of its program order from there (08 R148). -/
def Fibre.fixOver (f : Fibre) (who : Option Nat) (x : Option Nat × Nat) (n : Nat) : Fibre :=
  { f with lq := f.lq.filter fun y => !(inOrder y.agent who && y.loc.1 == x.1 && share x.2 n y.loc.2 y.n) }

/-- Fabric stores that no DONE has answered: a release at sys scope waits for them (20 R349). -/
def Fabric.storesOut (fb : Fabric) : Bool := fb.reqs.any fun q =>
  match q.owner with
  | .store _ _ _ _ _ _ _ => true
  | _ => false

/-- A fabric store of an agent's program order that no DONE has answered: its release waits for it (08 R147, R152; 20
R349). -/
def Fabric.ownStores (fb : Fabric) (wk : Nat) (f : Fibre) (who : Option Nat) : Bool := fb.reqs.any fun q =>
  match q.owner with
  | .store k fid uid _ _ _ _ => k == wk && fid == f.fid && uid == f.uid && inOrder q.agent who
  | _ => false

/-- A release of an agent's program order through a window that no DONE has answered: an acquire that follows it is not
performed before it (08 R147, R153). -/
def Fabric.releaseOut (fb : Fabric) (wk : Nat) (f : Fibre) (who : Option Nat) : Bool := fb.reqs.any fun q =>
  q.rel && inOrder q.agent who &&
    match q.owner with
    | .store k fid uid _ _ _ _ => k == wk && fid == f.fid && uid == f.uid
    | _ => false

/-- A store that a release of an agent performs could satisfy a watch: as a release at sys scope it waits for every fabric
store (08 Table 8-2, 20 R349). -/
def State.watchHold (s : State) (f : Fibre) (who : Option Nat) : Bool :=
  s.fabric.storesOut && f.stq.any fun p => inOrder p.agent who && s.watchedAt p.loc p.bytes.length

/-! ## Fabric windows (20 R345) -/

/-- A window holds the address. -/
def winHolds (x : FabWindow) (va : Nat) : Bool :=
  x.v && x.vbase.toNat * 65536 ≤ va && va < x.vbase.toNat * 65536 + x.size.toNat * 65536

/-- The window of a tenant that holds an address. -/
def State.windowOf (s : State) (ten va : Nat) : Option FabWindow :=
  (s.tenant ten).windows.toList.find? fun x => winHolds x va

/-! ## Agents without a core -/

/-- The physical address of va under a tenant's translation, by the walk; `store` asks for W. An address in a fabric window
is never walked (20 R345), and no packet carries an access of these agents: it fails like one that is not permitted
(DESIGN CHOICE, log 20). -/
def State.agentPa (s : State) (ten va : Nat) (store : Bool) : Except Trap Nat :=
  if (s.windowOf ten va).isSome then .error (trapOf .protection 0x09 (BitVec.ofNat 64 va)) else
  match s.walk ten va (BitVec.ofNat 64 va) with
  | .error t => .error t
  | .ok e =>
    if s.diesInReset.contains (homeDie (e.at va)) then .error (trapOf .protection 0x00 (BitVec.ofNat 64 va))
    else if store && !e.w then .error (trapOf .protection 0x02 (BitVec.ofNat 64 va))
    else .ok (e.at va)

/-- The walks of an agent's access to n bytes have read their entries, whether or not the access then fails (07 R133,
R136); an address in a fabric window is never walked (20 R345). -/
def State.agentWalk (s : State) (ten va n : Nat) : State :=
  (partsOf va n).foldl (fun s p => if (s.windowOf ten p.1).isSome then s else s.afterWalk ten p.1) s

/-- An agent's access to n bytes has been translated: the walk's reads (07 R133, R136), and the bytes of its request (17
Table 17-5). -/
def State.afterAgent (s : State) (ten va n : Nat) : State :=
  (s.afterWalk ten va).countTraffic ten (requestBytes va n) false

/-- Reads n bytes of a tenant's global memory at the point of coherence; the flag says that a sector is poisoned. One that
fails leaves what its walks have done. -/
def State.agentRead (s : State) (ten va n : Nat) : Except (Trap × State) (List Byte × Bool × State) :=
  (overParts (fun p (acc : List Byte × Bool × State) =>
    match acc.2.2.agentPa ten p.1 false with
    | .error t => .error t
    | .ok pa =>
      let bad := acc.2.2.poisoned pa p.2
      let r := (acc.2.2.afterAgent ten p.1 p.2).physRead none pa p.2
      .ok (acc.1 ++ r.1, acc.2.1 || bad, r.2)) (partsOf va n) ([], false, s)).mapError fun t => (t, s.agentWalk ten va n)

/-- Writes bytes of a tenant's global memory at the point of coherence, as a store of a kind: all of them, or none and what
the walks have done. -/
def State.agentPut (s : State) (ten va : Nat) (bs : List Byte) (k : StoreKind) : Except (Trap × State) State :=
  ((overParts (fun p (acc : List Byte × State) =>
    match acc.2.agentPa ten p.1 true with
    | .error t => .error t
    | .ok pa =>
      let s := acc.2.afterAgent ten p.1 p.2
      .ok (acc.1.drop p.2, (s.physWrite none pa (acc.1.take p.2)).afterStore s none (none, pa) p.2 k))
    (partsOf va bs.length) (bs, s)).map (·.2)).mapError fun t => (t, s.agentWalk ten va bs.length)

/-- Writes bytes of a tenant's global memory at the point of coherence: a plain store (08 R159). -/
def State.agentWrite (s : State) (ten va : Nat) (bs : List Byte) : Except (Trap × State) State := s.agentPut ten va bs .plain

/-- A 32-bit word of a tenant's global memory. -/
def State.agentWord (s : State) (ten va : Nat) : Except (Trap × State) (Word × State) :=
  match s.agentRead ten va 4 with
  | .error e => .error e
  | .ok (bs, bad, s) => if bad then .error (trapOf .poison 0 (BitVec.ofNat 64 va), s) else .ok (wordAt bs 0, s)

def State.putAgentWord (s : State) (ten va : Nat) (x : Word) : Except (Trap × State) State :=
  s.agentWrite ten va (leBytes 4 x.toNat)

/-- The state after a write, or after one that has failed and is dropped. -/
def eitherState (x : Except (Trap × State) State) : State :=
  match x with
  | .error e => e.2
  | .ok s => s

/-- Writes bytes of a tenant's global memory, or drops a write that fails. -/
def State.agentPutOr (s : State) (ten va : Nat) (bs : List Byte) (k : StoreKind) : State := eitherState (s.agentPut ten va bs k)

/-! ## Fault codes and records (18 Tables 18-1 to 18-3) -/

/-- The number of a fault code. -/
def Code.num : Code → Nat
  | .illegalOp => 0x01
  | .reservedField => 0x02
  | .privilege => 0x03
  | .misalign => 0x04
  | .translation => 0x05
  | .protection => 0x06
  | .scratchBounds => 0x07
  | .peerInvalid => 0x08
  | .divstackFull => 0x09
  | .stallShort => 0x0A
  | .window => 0x0B
  | .queueState => 0x0C
  | .poison => 0x0D
  | .engineParam => 0x0E
  | .ticketPoison => 0x0F
  | .late => 0x10
  | .trapSw => 0x11
  | .brk => 0x12
  | .watchFull => 0x13
  | .peerFault => 0x14
  | .watchdog => 0x15
  | .delivery => 0x16
  | .tokenMisuse => 0x17

/-- Whether Table 18-1 lets a handler take a fault. -/
def Code.handled : Code → Bool
  | .peerFault => false
  | .watchdog => false
  | _ => true

/-- TCAUSE (01 Table 1-6). -/
def causeWord (c : Code) (sub strand : Nat) (impr : Bool) : Word :=
  BitVec.ofNat 32 (strand % 16 * 1048576 + (if impr then 524288 else 0) + sub % 256 * 256 + c.num)

/-- The fields of a fault record that differ by kind (18 Table 18-3). -/
structure Record where
  cause : Word
  launch : Nat
  wgid : Nat
  fid : Nat
  chan : Nat
  core : Nat
  pc : DWord
  addr : DWord
  rpc : DWord
  cause0 : Word
  deriving DecidableEq, Repr

/-- The 64 bytes of a record. -/
def Record.bytes (r : Record) (tick : Nat) : List Byte :=
  leBytes 4 r.cause.toNat ++ leBytes 4 r.launch ++ leBytes 4 r.wgid ++
  leBytes 4 (r.fid % 32 * 16777216 + r.chan % 16 * 1048576 + r.core % 512) ++
  leBytes 8 r.pc.toNat ++ leBytes 8 r.addr.toNat ++ leBytes 8 r.rpc.toNat ++
  leBytes 4 r.cause0.toNat ++ leBytes 4 tick ++ leBytes 16 0

/-- The fault-queue header as a record write reads it (18 Table 18-2): base, entries, policy, PROD, LOST, CONS. -/
structure FqHeader where
  base : DWord
  ent : Nat
  lwide : Bool
  prod : Nat
  lost : Nat
  cons : Nat
  deriving DecidableEq, Repr

/-- Reads the header at FQ; none when it is unusable (18 R322). -/
def State.fqHeader (s : State) (ten : Nat) (fq : DWord) : Option FqHeader × State :=
  match s.agentRead ten fq.toNat 64 with
  | .error (_, s) => (none, s)
  | .ok (bs, bad, s) =>
    let h : FqHeader :=
      { base := dwordAt bs 0, ent := (wordAt bs 8).toNat, lwide := bit (wordAt bs 12) 0,
        prod := (wordAt bs 16).toNat, lost := (wordAt bs 20).toNat, cons := (wordAt bs 32).toNat }
    if bad || !(4 ≤ h.ent && h.ent ≤ 4096 && 2 ^ Nat.log2 h.ent == h.ent) || h.base.toNat % 64 != 0 ||
        h.base.toNat / 2 ^ 56 != 0 || fq.toNat / 2 ^ 56 != 0 then (none, s)
    else (some h, s)

/-- Writes a fault record to a launch's fault queue (18 R322); also whether POLICY.LWIDE stands. -/
def State.writeRecord (s : State) (ten : Nat) (fq : DWord) (launch : Nat) (r : Record) : Bool × State :=
  if fq = 0 then (false, s)
  else
    match s.fqHeader ten fq with
    | (none, s1) => (false, s1.emit (.launchNoQueue launch fq))
    | (some h, s1) =>
      if (h.prod + 4294967296 - h.cons) % 4294967296 = h.ent then
        match s1.putAgentWord ten (fq.toNat + 0x14) (BitVec.ofNat 32 (min 4294967295 (h.lost + 1))) with
        | .error (_, s2) => (false, s2.emit (.launchNoQueue launch fq))
        | .ok s2 => (h.lwide, s2)
      else
        match s1.agentWrite ten (h.base.toNat + 64 * (h.prod % h.ent)) (r.bytes s1.tick) with
        | .error (_, s2) => (false, s2.emit (.launchNoQueue launch fq))
        | .ok s2 =>
          match s2.agentPut ten (fq.toNat + 0x10) (leBytes 4 (BitVec.ofNat 32 (h.prod + 1)).toNat) .release with
          | .error (_, s3) => (false, s3.emit (.launchNoQueue launch fq))
          | .ok s3 => (h.lwide, s3)

/-- The fault queue of a launch. -/
def State.fqOf (s : State) (l : Nat) : DWord :=
  match s.launch l with
  | some x => x.fq
  | none => 0

/-! ## Taking an exception (18 R317 to R319) -/

/-- Puts a fibre back into its workgroup. -/
def State.putFibre (s : State) (wk : Nat) (f : Fibre) : State :=
  s.updWg wk fun w => { w with fibres := w.fibres.put f.fid f }

/-- Handler entry of R319: TRAPPC, TCAUSE, TADDR, the resume PC in s60:s61, TM and PC. The
nominal schedule restarts: results in flight are written first, and nothing issues while an engine result is owed (01
R378). Values that the interrupted word has popped are kept for it (09 R182). -/
def Fibre.enterHandler (f : Fibre) (h : Header) (cause : Word) (addr trappc resume : DWord) : Fibre :=
  let f := f.settle
  { f with
    trappc := trappc, tcause := cause, taddr := addr
    s := vset (vset f.s 60 (loWord resume)) 61 (hiWord resume)
    fstat := f.fstat ||| 0x20#32
    pc := h.addr + 64 + BitVec.ofNat 64 h.trapoff
    rixLive := false, sleep := .awake, rowsReq := none, fresh := true, popped := []
    kept := if f.popped.isEmpty then none else some (trappc, f.popped) }

/-- Parking of R318: the fibre keeps RIX, TRAPPC and TADDR and issues nothing; TCAUSE.STRAND names the strand (04
R95). -/
def Fibre.park (f : Fibre) (t : Trap) (strand : Nat) (pc : DWord) : Fibre :=
  { f with sleep := .parked, trappc := pc, tcause := setField f.tcause 20 4 strand, taddr := t.addr, parkSub := t.sub }

/-- The record of a park, KIND 1. -/
def parkRecord (w : Workgroup) (f : Fibre) (t : Trap) (strand : Nat) : Record :=
  { cause := causeWord t.code t.sub strand false ||| 0x01000000#32, launch := w.launch, wgid := w.wgid, fid := f.fid,
    chan := 0, core := w.core, pc := f.pc, addr := t.addr, rpc := f.pc, cause0 := 0 }

/-- Sets POISON in the ticket object that a workgroup claims (09 R188): bit 0 of word 1, wherever the object lies. -/
def State.poisonClaim (s : State) (wk : Nat) (w : Workgroup) : State :=
  match w.claim with
  | none => s
  | some (obj, _) =>
    let set (bs : List Byte) : List Byte := leBytes 4 ((wordAt bs 0 ||| 1#32).toNat)
    if obj.toNat / 2 ^ 60 = 0 then
      match s.agentRead w.tenant (obj.toNat % 2 ^ 56 + 4) 4 with
      | .error (_, s1) => s1
      | .ok (bs, _, s1) => s1.agentPutOr w.tenant (obj.toNat % 2 ^ 56 + 4) (set bs) .release
    else
      let tgt := if obj.toNat / 2 ^ 60 = 8 then some wk else s.memberKey w (bitsN obj.toNat 57 3)
      match tgt with
      | none => s
      | some k =>
        match s.scratchRead k (obj.toNat % 2 ^ 32 + 4) 4 obj with
        | .error _ => s
        | .ok (bs, s1) =>
          match s1.scratchWrite k (obj.toNat % 2 ^ 32 + 4) (set bs) obj with
          | .error _ => s
          | .ok s2 => s2

/-- Marks every knot of a workgroup failed (09 R180). -/
def Launch.failKnots (l : Launch) (wgid : Nat) : Launch :=
  { l with knots := l.knots.each fun _ k => if k.members.contains wgid then { k with failed := true } else k }

/-- Stops a workgroup for a fatal fault: no fibre issues any more, its ticket claim is poisoned and its knots fail
at once (18 R324; 09 R180, R188). -/
def State.stopWg (s : State) (wk : Nat) (x : Fatal) : State :=
  match s.wg wk with
  | none => s
  | some w =>
    match w.run with
    | .dying _ => s
    | .exited => s
    | _ =>
      let s := s.poisonClaim wk w
      let s := s.updLaunch w.launch fun l => l.failKnots w.wgid
      s.updWg wk fun w => { w with
        run := .dying x
        fibres := w.fibres.each fun _ f =>
          if x.kind = 3 then { f with tcause := causeWord x.code x.sub 0 true } else f }

/-- The lowest-indexed fibre of a workgroup. -/
def Workgroup.firstFibre (w : Workgroup) : Option Fibre := (w.fibres.head?).map (·.2)

/-- CAUSE0 of Table 18-3: TCAUSE of the fault that entered the handler, for a fibre in trap mode. -/
def Fibre.cause0 (f : Fibre) : Word := if f.tm then f.tcause else 0

/-- What a member of a unit records when another member's fault stops it: PEER_FAULT with the origin's peer
number, KIND 3 (18 R323, R324). -/
def peerFatal (w : Workgroup) (sub peer cycle : Nat) : Fatal :=
  let f := w.firstFibre
  let pc := (f.map (·.pc)).getD 0
  { code := .peerFault, sub := sub, strand := 0, impr := true, fid := (f.map (·.fid)).getD 0, pc := pc, addr := 0,
    rpc := pc, cause0 := (f.map (·.cause0)).getD 0, kind := 3, peer := peer, cycle := cycle }

/-- The origin's peer number as a stopped member records it: of members that fault in one cycle the lowest is the origin
(18 R324). -/
def Workgroup.blame (w : Workgroup) (peer cycle : Nat) : Workgroup :=
  match w.run with
  | .dying y =>
    if y.kind = 3 ∧ y.cycle = cycle ∧ y.sub < 8 ∧ peer < y.peer then
      { w with
        run := .dying { y with sub := peer, peer := peer }
        fibres := w.fibres.each fun _ f => { f with tcause := causeWord y.code peer 0 true } }
    else w
  | _ => w

/-- A fatal fault of a workgroup that is being stopped already: in the cycle in which another member's fault stopped it
it is the workgroup's own fault, otherwise one more to be recorded (18 R323, R324). -/
def State.alsoFatal (s : State) (wk : Nat) (w : Workgroup) (y x : Fatal) : State :=
  if y.kind = 3 ∧ y.cycle = x.cycle then
    (s.unitKeys w).foldl (fun s k => s.updWg k fun m => m.blame w.member x.cycle)
      (s.updWg wk fun w => { w with run := .dying x })
  else s.updWg wk fun w => { w with faults := w.faults ++ [x] }

/-- A fatal fault: the origin stops, and every other member of its unit stops with PEER_FAULT (18 R324). Its launch keeps
the cycle (17 R307). -/
def State.fatal (s : State) (wk : Nat) (x : Fatal) : State :=
  match s.wg wk with
  | none => s
  | some w =>
    let s := s.updLaunch w.launch fun l => { l with faultAt := l.faultAt ++ [x.cycle] }
    match w.run with
    | .dying y => s.alsoFatal wk w y x
    | _ =>
      (s.unitKeys w).foldl (fun s k =>
        if k = wk then s.stopWg k x
        else
          match s.wg k with
          | none => s
          | some m => s.stopWg k (peerFatal m w.member w.member x.cycle)) s

/-- Disposal of a fault by R317: park, handler, or fatal. `trappc` is the PC to report, `resume` the instruction at
which the fibre would continue. -/
def State.raise (s : State) (wk : Nat) (w : Workgroup) (f : Fibre) (t : Trap) (strand : Nat) (impr : Bool)
    (trappc resume : DWord) : State :=
  if t.code = .translation ∧ t.replay = true ∧ f.tm = false then
    let f := f.settle.park t strand trappc
    (((s.putFibre wk f).emit (.firmwareNotified wk f.fid t.addr)).writeRecord w.tenant (s.fqOf w.launch) w.launch
      (parkRecord w f t strand)).2
  else
    let cause := causeWord t.code t.sub strand impr
    if f.tm = false ∧ w.hdr.traph = true ∧ t.code.handled = true then
      s.putFibre wk (f.enterHandler w.hdr cause t.addr trappc resume)
    else
      let g := { f.settle with trappc := if f.tm then f.trappc else trappc, tcause := if f.tm then f.tcause else cause,
                               taddr := if f.tm then f.taddr else t.addr, sleep := .awake }
      (s.putFibre wk g).fatal wk
        { code := t.code, sub := t.sub, strand := strand, impr := impr, fid := f.fid, pc := trappc, addr := t.addr,
          rpc := resume, cause0 := f.cause0, kind := 0, peer := 0, cycle := s.cycles }

/-- A precise fault of the word at the fibre's PC, at a strand; RIX keeps the strand (04 R95). -/
def State.raiseAt (s : State) (wk : Nat) (w : Workgroup) (f : Fibre) (t : Trap) (strand : Nat) : State :=
  s.raise wk w { f.setRix strand with midStrand := 0, fabWait := none, word := [], lanes := none } t strand false f.pc f.pc

/-- A fault at the fetch of the word at the fibre's PC, before any strand: RIX keeps the first strand not completed of a
word that is being resumed (01 Table 1-3; 04 R95), and TCAUSE.STRAND is 0 (01 Table 1-6). -/
def State.raiseFetch (s : State) (wk : Nat) (w : Workgroup) (f : Fibre) (t : Trap) : State :=
  s.raise wk w { (if f.rixLive then f else f.setRix 0) with midStrand := 0, fabWait := none, word := [], lanes := none } t 0
    false f.pc f.pc

/-- The word that a handler interrupted is resumed at its PC, or it is given up: then nothing popped is kept for it, and
its accesses stand alone (09 R182; DESIGN CHOICE, log 66). -/
def Fibre.resumeWord (f : Fibre) : Fibre :=
  { f with
    popped := match f.kept with
      | some (pc, t) => if pc = f.trappc then t else []
      | none => []
    kept := none
    outs := f.outs.map fun x => if x.pc = f.trappc then x else { x with whole := true }
    lateSeen := if f.lateSeen = some f.trappc then f.lateSeen else none }

/-- LATE is raised once after the handler when LATETRAP is 1 now and a completion came late in the meantime (18 R320). -/
def Fibre.lateAfterTrap (f : Fibre) : List Imprecise :=
  match f.lateInTrap with
  | none => []
  | some (pc, addr) =>
    if f.latetrap && !(f.imprecise.any fun x => x.code == .late) then [{ code := .late, pc := pc, addr := addr }] else []

/-- Return from the handler, `tret` (03 R72): TM cleared, PC from TRAPPC; the word resumed uses RIX if it is an
L word. The nominal schedule restarts (01 R378). -/
def Fibre.leaveHandler (f : Fibre) : Fibre :=
  let f := f.settle.resumeWord
  { f with
    fstat := f.fstat &&& ~~~0x20#32, rixLive := true, fresh := true, lateInTrap := none
    imprecise := f.imprecise ++ f.lateAfterTrap }

/-! ## Control transfers (01 R13) -/

/-- The checks of a target: bits [1:0], then bits [63:56]. The order, for a target that breaks both, and TADDR := target
are the model's: R13 gives neither (DESIGN CHOICE, log 67). -/
def targetFault (t : DWord) : Option Trap :=
  if t.toNat % 4 ≠ 0 then some (trapOf .misalign 0 t)
  else if t.toNat / 2 ^ 56 ≠ 0 then some (trapOf .protection 0 t)
  else none

/-- PC + 4 × offset, with the offset sign-extended. -/
def branchTarget {n : Nat} (pc : DWord) (o : BitVec n) : DWord := pc + (sext64 o <<< 2)

/-! ## The commit token (18 R332) -/

/-- The workgroup holds its launch's token. -/
def State.holdsToken (s : State) (w : Workgroup) : Bool :=
  match s.launch w.launch with
  | some l => l.token.holder == some w.wgid
  | none => false

/-- A token-class operation of this workgroup must stall (18 R332). -/
def State.tokenStall (s : State) (w : Workgroup) : Bool := w.hdr.det && !s.holdsToken w

/-! ## Queue ports (09 R181 to R185) -/

/-- The knot-table entry of a knot slot. -/
def Workgroup.knotOf (w : Workgroup) (slot : Nat) : Option Nat := vget w.knots slot none

/-- The knot of a slot, with its number. -/
def State.knotAt (s : State) (w : Workgroup) (slot : Nat) : Option (Nat × Knot) :=
  match w.knotOf slot, s.launch w.launch with
  | some e, some l => (l.knots.find e).map fun k => (e, k)
  | _, _ => none

/-- The queue of a slot. -/
def State.queueAt (s : State) (w : Workgroup) (slot : Nat) : Option KQueue :=
  match s.knotAt w slot with
  | some (_, k) => k.queue
  | none => none

def KQueue.closed (q : KQueue) : Bool := q.hadOut && q.outBinds == 0

/-- Slots that neither an element nor an allowance takes. -/
def KQueue.free (q : KQueue) : Nat := q.cap - q.elems.length - q.reserved

def State.updQueue (s : State) (w : Workgroup) (slot : Nat) (g : KQueue → KQueue) : State :=
  match w.knotOf slot with
  | none => s
  | some e => s.updLaunch w.launch fun l =>
      { l with knots := l.knots.upd e fun k => { k with queue := k.queue.map g } }

/-- Port record k of a fibre. -/
def Fibre.port (f : Fibre) (k : Nat) : Port := vget f.ports k ⟨false, false, 0, 0⟩

def Fibre.setPort (f : Fibre) (k : Nat) (p : Port) : Fibre := { f with ports := vset f.ports k p }

/-- Requests slots for an out port without allowance: min(8, free) are granted (09 R183). -/
def requestSlots (s : State) (w : Workgroup) (f : Fibre) (k : Nat) : Fibre × State :=
  let p := f.port k
  if p.allow ≠ 0 then (f, s)
  else
    match s.queueAt w p.slot with
    | none => (f, s)
    | some q =>
      let n := min 8 q.free
      (f.setPort k { p with allow := n }, s.updQueue w p.slot fun q => { q with reserved := q.reserved + n })

/-- The scope at which a queue's pushes and pops synchronise (09 R181): wg, or wide enough to discard L1 copies. -/
def State.queueScope (s : State) (w : Workgroup) (slot : Nat) : Nat :=
  match s.knotAt w slot with
  | some (_, k) => if k.members.length ≤ 1 then 0 else 3
  | none => 0

/-- The push of the next element of a slot's queue releases, or the pop of the oldest acquires (08 R157). -/
def State.syncQueue (s : State) (w : Workgroup) (uid slot : Nat) (push : Bool) : State :=
  match w.knotOf slot, s.queueAt w slot with
  | some e, some q => s.syncAt w uid (!push) push (.elem e (if push then q.pushed else q.pushed - q.elems.length))
  | _, _ => s

/-- A push that takes one allowance (09 R183). -/
def pushPort (s : State) (w : Workgroup) (f : Fibre) (k : Nat) (x : Word) : Fibre × State :=
  let p := f.port k
  (f.setPort k { p with allow := p.allow - 1 },
   (s.syncQueue w f.uid p.slot true).updQueue w p.slot fun q =>
     { q with reserved := q.reserved - 1, elems := q.elems ++ [x], pushed := q.pushed + 1 })

/-- The oldest element of a queue leaves it, and the pop acquires (09 R182, R184). -/
def State.popQueue (s : State) (w : Workgroup) (uid slot : Nat) : State :=
  ((s.syncQueue w uid slot false).updQueue w slot fun q => { q with elems := q.elems.drop 1 }).acquire w.core
    (s.queueScope w slot)

/-- The single s registers that operands name. -/
def singles (l : List Opnd) : List Nat := l.filterMap fun o =>
  match o with
  | .s n => some n
  | _ => none

/-- The registers of the s pairs that operands name; the pair s0 reads zero and discards writes whole (01 R11). -/
def pairRegs (l : List Opnd) : List Nat := l.flatMap fun o =>
  match o with
  | .s2 n => if n = 0 then [] else [n, n + 1]
  | _ => []

/-- The s registers that a word names. -/
def Use.named (u : Use) : List Nat := singles (u.reads ++ u.writes) ++ pairRegs (u.reads ++ u.writes)

/-- The bound ports that a word names and has not popped: it is a queue operation (09 R182, 18 R332). -/
def portsOf (f : Fibre) (u : Use) : List Nat :=
  u.named.filter fun n => (f.bound n).isSome && (Tbl.find f.popped n).isNone

/-- A word names a register to which an engine still owes a result (01 R26). -/
def owed (f : Fibre) (u : Use) : Bool := u.named.any fun n => f.busy.contains n

/-- The bound in ports a word reads and has not popped yet. -/
def popsOf (f : Fibre) (u : Use) : List Nat :=
  (singles u.reads).dedup.filter fun n => (f.bound n).isSome && (Tbl.find f.popped n).isNone

/-- The first of the ports to be popped whose queue holds no element for it, beyond those that the ports before it take
from the same queue (09 R182). -/
def popLacks (s : State) (w : Workgroup) (f : Fibre) : List (Option Nat) → List Nat → Option Nat
  | _, [] => none
  | seen, n :: ns =>
    let e := w.knotOf (f.port (n - 48)).slot
    let have_ := ((s.queueAt w (f.port (n - 48)).slot).map (·.elems.length)).getD 0
    if have_ ≤ (seen.filter (· == e)).length then some n else popLacks s w f (e :: seen) ns

/-- The port faults of R182, before any effect: a bound port in a pair (0x03), the wrong direction (0x02), a
blocking pop from a closed and empty queue (0x05). -/
def portFault (s : State) (w : Workgroup) (f : Fibre) (u : Use) : Option Trap :=
  let bad (sub : Nat) : Option Trap := some (trapOf .queueState sub 0)
  if (pairRegs (u.reads ++ u.writes)).any fun n => (f.bound n).isSome then bad 0x03
  else if (singles u.reads).any fun n => ((f.bound n).map (·.out)).getD false then bad 0x02
  else if (singles u.writes).any fun n => ((f.bound n).map fun p => !p.out).getD false then bad 0x02
  else if ((popLacks s w f [] (popsOf f u)).bind fun n => s.queueAt w (f.port (n - 48)).slot).any KQueue.closed then bad 0x05
  else none

/-- The bound out ports a word writes. -/
def pushesOf (f : Fibre) (u : Use) : List Nat := (singles u.writes).dedup.filter fun n => (f.bound n).isSome

/-- Pops the oldest element of the queue of the port at s register n, and acquires (09 R182, R184). -/
def popPort (w : Workgroup) (n : Nat) (f : Fibre) (s : State) : Fibre × State :=
  let p := f.port (n - 48)
  match s.queueAt w p.slot with
  | none => (f, s)
  | some q =>
    ({ f with popped := f.popped.put n (q.elems.head?.getD 0) }, s.popQueue w f.uid p.slot)

/-- Pops from each port in turn. -/
def popPorts (w : Workgroup) : List Nat → Fibre → State → Fibre × State
  | [], f, s => (f, s)
  | n :: ns, f, s => popPorts w ns (popPort w n f s).1 (popPort w n f s).2

/-- Performs the pushes of a word whose results stand in the registers of its out ports, and gives those registers
back what they held (09 R183). -/
def pushPorts (w : Workgroup) (old : Fibre) : List Nat → Fibre → State → Fibre × State
  | [], f, s => (f, s)
  | n :: ns, f, s =>
    let x := f.readNow (.s n)
    let f := { f with s := vset f.s n (vget old.s n 0)
                      pend := f.pend.filter (fun e => decide (e.reg ≠ .s n)) ++ old.pend.filter fun e => decide (e.reg = .s n) }
    let r := pushPort s w f (n - 48) x
    pushPorts w old ns r.1 r.2

/-! ## Issuing a word -/

/-- WINDOW of 01 R21: a lane register at or beyond WIN.W, named or implied by a group. -/
def windowFault (f : Fibre) (u : Use) : Option Trap :=
  if (u.reads ++ u.writes).any fun o =>
      match o with
      | .v n => f.win ≤ n
      | _ => false then some (trapOf .window 0 0)
  else none

/-- STALL_SHORT subcodes (01 R28). -/
def shortTrap (sub : Nat) : Option Trap := some (trapOf .stallShort sub 0)

/-- The undersized guard (01 R28, 05 R99). -/
def guardShort (f : Fibre) (u : Use) : Option Trap :=
  if u.g = 0 ∨ u.tracked = true then none
  else if u.lane then
    if (strandsOf f.active).any fun i => f.short f.nom (.p u.g.toNat i) then shortTrap (0x40 + u.g.toNat) else none
  else if f.short f.nom (.c u.g.toNat) then shortTrap (0xC0 + u.g.toNat) else none

/-- An operand's undersized read, for the strands of Active with their positions. The pair s0 reads zero, which is no
read of s1 (01 R11). Where both registers of a pair are undersized, SUB names the low one: R28 does not say which
(DESIGN CHOICE, log 68). -/
def opndShort (f : Fibre) (lane : Bool) (act : List Nat) (o : Opnd) : Option Trap :=
  let strands (r : Nat → Reg) (sub : Nat) : Option Trap :=
    if overStrands (fun i j b => b || f.short (f.nom + j) (r i)) act 0 false then shortTrap sub else none
  match o with
  | .v n => strands (fun i => .v (f.phys n) i) n
  | .p n => strands (fun i => .p n i) (0x40 + n)
  | .s n => if !lane && (f.bound n).isNone && f.short f.nom (.s n) then shortTrap (0x80 + n) else none
  | .s2 n =>
    if lane ∨ n = 0 then none
    else if f.short f.nom (.s n) then shortTrap (0x80 + n)
    else if f.short f.nom (.s (n + 1)) then shortTrap (0x80 + n + 1)
    else none
  | .c n => if f.short f.nom (.c n) then shortTrap (0xC0 + n) else none

/-- The first undersized data read in the order A, B, D. -/
def dataShort (f : Fibre) (u : Use) (act : List Nat) : Option Trap :=
  if u.tracked then none else u.reads.findSome? (opndShort f u.lane act)

/-- The fibre as a word finds it at its nominal issue: results that are ready have taken effect, and the wait after a
restart of the nominal schedule is over (01 R378). -/
def Fibre.atIssue (f : Fibre) : Fibre := { f.commitTo f.nom with fresh := false }

/-- RIX restricts no U word (03 R72). -/
def Fibre.dropRix (f : Fibre) : Fibre := if f.rixLive then { f.setRix 0 with rixLive := false } else f

/-- The faults that stand before any fault of the operation (02 R49): `pre` gives the decode-time RESERVED_FIELD and
PRIVILEGE faults that look at the fibre. -/
def issueFault (u : Use) (pre : Option Trap) (f : Fibre) (act : List Nat) : Option Trap :=
  match pre with
  | some t => some t
  | none =>
    match windowFault f u with
    | some t => some t
    | none =>
      if f.sbchk then
        match guardShort f u with
        | some t => some t
        | none => if act.isEmpty then none else dataShort f u act
      else none

/-- The strands that execute a word; for a U word one entry stands for the fibre when its guard holds. -/
def runners (u : Use) (f : Fibre) : List Nat :=
  if u.lane then (if u.fixedPass then [0] else f.actives u.tracked u.g)
  else if u.g = 0 ∨ f.getC u.g.toNat = true then [0] else []

/-- How a word's own effect ends. -/
inductive Res where
  /-- it completes; PC goes on by the word's length -/
  | done (f : Fibre) (s : State)
  /-- it completes and PC goes elsewhere -/
  | jump (f : Fibre) (s : State) (t : DWord)
  /-- it faults at a strand, earlier strands having completed -/
  | trap (f : Fibre) (s : State) (t : Trap) (strand : Nat)
  /-- it waits and is executed again when its condition holds -/
  | wait (f : Fibre) (s : State) (why : Sleep)
  /-- it completes and the fibre ends -/
  | ends (f : Fibre) (s : State)
  deriving DecidableEq, Repr

/-- Retirement (01 R13, R14, R27): PC, RETC, the nominal schedule; an L word that RIX restricted leaves RIX 0 (03 R72), and
its pass occupies the lane (04 R77). -/
def Fibre.retire (f : Fibre) (u : Use) (n : Nat) (pc : DWord) : Fibre :=
  { (if u.lane && f.rixLive then f.setRix 0 else f) with
    pc := pc, retc := f.retc + 1, nom := f.nom + u.spacing n, popped := [], sleep := .awake,
    rixLive := f.rixLive && !u.lane, midStrand := 0, fabWait := none, word := [], lanes := none
    passEnd := if u.lane then f.issuedAt - 1 + u.pass n else f.passEnd }

/-- A word of the fibre has begun and is not done: it goes on while its workgroup is being stopped (18 R324, R327). -/
def Fibre.midWord (f : Fibre) : Bool := f.midStrand != 0 || f.fabWait.isSome

/-- Counts a retired instruction of a workgroup (18 R335). -/
def Workgroup.countRetired (w : Workgroup) : Workgroup := { w with retired := w.retired + 1 }

/-- Retires a word; with FCTL.STEP set at its start and outside trap mode BREAK follows (01 R17, 18 R319). -/
def State.retireTo (s : State) (wk : Nat) (w : Workgroup) (u : Use) (n : Nat) (old f : Fibre) (pc : DWord) : State :=
  let g := f.retire u n pc
  let s := s.updWg wk Workgroup.countRetired
  if old.stepping && !old.tm then s.raise wk w g (trapOf .brk 0xFF 0) 0 false pc pc
  else s.putFibre wk g

/-- What is left of a fibre that ends while register results are in flight to it (04 R88). -/
def Fibre.ghost (f : Fibre) : List Ghost :=
  if f.noneInFlight then []
  else [{ uid := f.uid, lane := f.lane, slot := f.slot, run := f.run, busy := f.busy }]

/-- Removes a fibre that has ended (04 R88): its results in flight are discarded, and its rows and lane slot stay taken
until they have drained; its issued accesses go on, its watch entries are freed (09 R191). -/
def State.endFibre (s : State) (wk : Nat) (f : Fibre) : State :=
  let s := (f.flush none (((s.wg wk).map (·.core)).getD 0) s).2
  let s := s.setWatches (f.watches.foldl Tbl.del s.watches)
  s.updWg wk fun w => { w with
    fibres := w.fibres.del f.fid, orphans := w.orphans ++ f.outs, ghosts := w.haunted ++ f.ghost
    atReceipt := w.atReceipt.del f.fid
    endedPorts := w.endedPorts ++ f.ports.toList.filter (·.bound) }

/-- Brings a word's outcome into the state. `w` is the workgroup and `old` the fibre before the word. -/
def settleRes (wk : Nat) (w : Workgroup) (u : Use) (n : Nat) (old : Fibre) (r : Res) : State :=
  match r with
  | .done f s =>
    let p := pushPorts w old (pushesOf old u) f s
    p.2.retireTo wk w u n old p.1 (old.pc + BitVec.ofNat 64 u.len)
  | .jump f s t =>
    let p := pushPorts w old (pushesOf old u) f s
    p.2.retireTo wk w u n old p.1 t
  | .trap f s t k => s.raiseAt wk w f t k
  | .wait f s why => s.putFibre wk { f with sleep := why }
  | .ends f s => ((s.updWg wk Workgroup.countRetired).putFibre wk f).endFibre wk f

/-- The waits and faults of a word's operands before its own effect: results that an engine still owes, port
faults, pops and allowances. `none`: the word may have its effect. -/
def operandWait (w : Workgroup) (u : Use) (f : Fibre) (s : State) : Fibre × State × Option Res :=
  if owed f u then (f, s, some (.wait f s .held))
  else if !(portsOf f u).isEmpty && s.tokenStall w then (f, s, some (.wait f s .token))
  else
    match portFault s w f u with
    | some t => (f, s, some (.trap f s t 0))
    | none =>
      let pops := popsOf f u
      let pushes := pushesOf f u
      match popLacks s w f [] pops with
      | some n => (f, s, some (.wait f s (.pop (n - 48))))
      | none =>
        let r := popPorts w pops f s
        let r := pushes.foldl (fun r n => requestSlots r.2 w r.1 (n - 48)) r
        match pushes.find? fun n => (r.1.port (n - 48)).allow == 0 with
        | some n => (r.1, r.2, some (.wait r.1 r.2 (.push (n - 48))))
        | none => (r.1, r.2, none)

/-- The registers behind the bound ports that a word writes, singly or in a pair. -/
def portTargets (f : Fibre) (u : Use) : List Nat := (singles u.writes ++ pairRegs u.writes).filter fun n => (f.bound n).isSome

/-- A word names a register. -/
def Use.touches (u : Use) (f : Fibre) (r : Reg) : Bool := (u.reads ++ u.writes).any fun o =>
  match o, r with
  | .v n, .v k _ => f.phys n == k
  | .s n, .s k => n == k
  | .s2 n, .s k => n == k || n + 1 == k
  | _, _ => false

/-- A word fixes the loads whose registers it names (01 R26). -/
def Fibre.fixNamed (f : Fibre) (u : Use) : Fibre := { f with lq := f.lq.filter fun x => !(x.regs.any (u.touches f)) }

/-- A word with an empty Active: it retires without effect, or with the effect its entry gives that case, and
performs no queue operation (01 R24, 05 R113 to R115, 09 R182). A result whose register is a bound port goes nowhere: the
spec does not say where it goes (DESIGN CHOICE, log 69). -/
def emptyRes (u : Use) (f : Fibre) (s : State) (body : List Nat → Fibre → State → Res) : Fibre × State :=
  if u.always then
    match body [] (f.fixNamed u) s with
    | .done g s => ((portTargets f u).foldl (fun g n =>
        { g with s := vset g.s n (vget f.s n 0)
                 pend := g.pend.filter (fun e => decide (e.reg ≠ .s n)) ++
                   f.pend.filter fun e => decide (e.reg = .s n) }) g, s)
    | _ => (f, s)
  else (f, s)

/-- A word that releases, or that pushes to a queue port: every store of the fibre is performed before it (08 R152, R157). -/
def Use.flushes (u : Use) (f : Fibre) : Bool := u.sync || !(pushesOf f u).isEmpty

/-- A word that acquires, or that pops from a queue port (08 R157). -/
def Use.acquires (u : Use) (f : Fibre) : Bool := u.acq || !(popsOf f u).isEmpty

/-- A releasing word waits while a fabric store of its fibre is unanswered (08 R152, 20 R349), an acquiring one while a
fabric release is (08 R153). -/
def syncHold (wk : Nat) (u : Use) (f : Fibre) (s : State) : Bool :=
  (u.flushes f && (s.fabric.ownStores wk f none || s.watchHold f none)) ||
    (u.acquires f && s.fabric.releaseOut wk f none)

/-- The fibre and the state in which a word has its effect. -/
def beforeWord (w : Workgroup) (u : Use) (f : Fibre) (s : State) : Fibre × State :=
  if u.flushes f then f.flush none w.core s else (f.fixNamed u, s)

/-- The workgroup as it stands once the stores and pops before a word's effect have been made. -/
def State.wgNow (s : State) (wk : Nat) (w : Workgroup) : Workgroup := (s.wg wk).getD w

/-- Executes a word for fibre f of workgroup w: the checks of R49, the guard, the operand waits, then its effect. -/
def runWord (wk : Nat) (w : Workgroup) (u : Use) (pre : Fibre → Option Trap)
    (body : List Nat → Fibre → State → Res) (f : Fibre) (s : State) : State :=
  let f := if u.lane then f.atIssue else f.atIssue.dropRix
  let act := runners u f
  match issueFault u (pre f) f act with
  | some t => s.raiseAt wk w f t 0
  | none =>
    if act.isEmpty then
      if u.always && owed f u then s.putFibre wk { f with sleep := .held }
      else
        let r := emptyRes u f s body
        r.2.retireTo wk w u 0 f r.1 (f.pc + BitVec.ofNat 64 u.len)
    else if syncHold wk u f s then s.putFibre wk { f with sleep := .held }
    else
      let b := beforeWord w u f s
      match operandWait w u b.1 b.2 with
      | (_, _, some r) => settleRes wk w u act.length b.1 r
      | (g, s, none) => settleRes wk w u act.length b.1 (body act g s)

/-- Executes a word for the fibre that `State.cur` names; what it reads may depend on the workgroup and the fibre. -/
def wordBy (u : Workgroup → Fibre → Use) (pre : Fibre → Option Trap) (body : Nat → Workgroup → List Nat → Fibre → State → Res)
    (s : State) : Host.Outcome State Fault Refusal :=
  match s.wg s.cur.wk with
  | none => .fault .noFibre
  | some w =>
    match w.fibres.find s.cur.fid with
    | none => .fault .noFibre
    | some f => .next (runWord s.cur.wk w (u w f) pre (body s.cur.wk w) f s)

/-- Executes a word for the fibre that `State.cur` names. -/
def word (u : Use) (pre : Fibre → Option Trap) (body : Nat → Workgroup → List Nat → Fibre → State → Res)
    (s : State) : Host.Outcome State Fault Refusal := wordBy (fun _ _ => u) pre body s

/-- The outcome of a meaning. -/
abbrev Out := Host.Outcome State Fault Refusal

/-- A word without decode-time checks on the fibre. -/
def noPre : Fibre → Option Trap := fun _ => none

end Sys2Proof.Machine
end

