-- ==== Sys2Proof/Machine/LaneInt.lean ====
section
/-! DEFINITION. The integer words of the lane set (05 R102 to R104, R120), each over the shared strand loop. -/

namespace Sys2Proof.Machine

/-- When a result can be read: fixed after a number of cycles, or tracked by the scoreboard (05 Table 5-1). -/
inductive Lat where
  | fixed (n : Nat)
  | variable
  deriving DecidableEq, Repr

/-- WriteV of strand i at position j with a latency class. -/
def Fibre.resV (f : Fibre) (l : Lat) (i j n : Nat) (x : Word) : Fibre :=
  match l with
  | .fixed c => f.setV c i j n x
  | .variable => f.putV i n x

/-- WriteP with a latency class. -/
def Fibre.resP (f : Fibre) (l : Lat) (i j n : Nat) (x : Bool) : Fibre :=
  match l with
  | .fixed c => f.setP c i j n x
  | .variable => f.putP i n x

/-- The strand loop of an L word that writes vD: `val f i j` is the result of strand i at position j with the FSTAT
bits it raises, of operands read before any result is written (05 R97, R100). -/
def laneLoop (l : Lat) (d : Nat) (val : Fibre → Nat → Nat → Word × Word) (act : List Nat) (f : Fibre) : Fibre :=
  overStrands (fun i j h => (h.resV l i j d (val f i j).1).sticky (val f i j).2) act 0 f

/-- An L word that reads the given operands and writes vD. -/
def laneWord (sc g : BitVec 2) (reads : List Opnd) (d : BitVec 6) (l : Lat)
    (val : Fibre → Nat → Nat → Word × Word) (s : State) : Out :=
  word (lUse sc g reads [.v d.toNat]) noPre (fun _ _ act f s => .done (laneLoop l d.toNat val act f) s) s

/-- An LR word of A and B, destructive or not. -/
def laneR (o : SGUDAB) (destr : Bool) (l : Lat) (op : Alu) (s : State) : Out :=
  laneWord o.s o.g ([.v o.a.toNat] ++ opLB o.u o.b ++ if destr then [.v o.d.toNat] else []) o.d l
    (fun f i j => op (f.getV i j o.a.toNat) (f.lB o.u o.b i j) (f.getV i j o.d.toNat)) s

/-- An LR word of A alone. -/
def laneA (o : SGDA) (l : Lat) (op : Alu) (s : State) : Out :=
  laneWord o.s o.g [.v o.a.toNat] o.d l (fun f i j => op (f.getV i j o.a.toNat) 0 0) s

/-- A comparison into predicate p of each strand (05 R102, R105). -/
def laneCmp (o : SGUKPAB) (l : Lat) (k : Cmp) (s : State) : Out :=
  word (lUse o.s o.g ([.v o.a.toNat] ++ opLB o.u o.b) [.p o.p.toNat]) noPre (fun _ _ act f s =>
    .done (overStrands (fun i j h =>
      (h.resP l i j o.p.toNat (k o.k (f.getV i j o.a.toNat) (f.lB o.u o.b i j)).1).sticky
        (k o.k (f.getV i j o.a.toNat) (f.lB o.u o.b i j)).2) act 0 f) s) s

/-- `add` (05 R102, Table 3-2). -/
def execLAdd (o : SGUDAB) (s : State) : Out :=
  laneR o false (.fixed 4) aAdd s

/-- `add.sat.i32` (05 R102, Table 3-2). -/
def execLAddSatI32 (o : SGUDAB) (s : State) : Out :=
  laneR o false (.fixed 4) aAddSatI32 s

/-- `add.sat.n32` (05 R102, Table 3-2). -/
def execLAddSatN32 (o : SGUDAB) (s : State) : Out :=
  laneR o false (.fixed 4) aAddSatN32 s

/-- `sub` (05 R102, Table 3-2). -/
def execLSub (o : SGUDAB) (s : State) : Out :=
  laneR o false (.fixed 4) aSub s

/-- `sub.sat.i32` (05 R102, Table 3-2). -/
def execLSubSatI32 (o : SGUDAB) (s : State) : Out :=
  laneR o false (.fixed 4) aSubSatI32 s

/-- `sub.sat.n32` (05 R102, Table 3-2). -/
def execLSubSatN32 (o : SGUDAB) (s : State) : Out :=
  laneR o false (.fixed 4) aSubSatN32 s

/-- `mul` (05 R102, Table 3-2). -/
def execLMul (o : SGUDAB) (s : State) : Out :=
  laneR o false (.fixed 4) aMul s

/-- `mulh.i32` (05 R102, Table 3-2). -/
def execLMulhI32 (o : SGUDAB) (s : State) : Out :=
  laneR o false (.fixed 4) aMulhI32 s

/-- `mulh.n32` (05 R102, Table 3-2). -/
def execLMulhN32 (o : SGUDAB) (s : State) : Out :=
  laneR o false (.fixed 4) aMulhN32 s

/-- `mad` (05 R102, Table 3-2). -/
def execLMad (o : SGUDAB) (s : State) : Out :=
  laneR o true (.fixed 4) aMad s

/-- `min.i32` (05 R102, Table 3-2). -/
def execLMinI32 (o : SGUDAB) (s : State) : Out :=
  laneR o false (.fixed 4) aMinI32 s

/-- `min.n32` (05 R102, Table 3-2). -/
def execLMinN32 (o : SGUDAB) (s : State) : Out :=
  laneR o false (.fixed 4) aMinN32 s

/-- `max.i32` (05 R102, Table 3-2). -/
def execLMaxI32 (o : SGUDAB) (s : State) : Out :=
  laneR o false (.fixed 4) aMaxI32 s

/-- `max.n32` (05 R102, Table 3-2). -/
def execLMaxN32 (o : SGUDAB) (s : State) : Out :=
  laneR o false (.fixed 4) aMaxN32 s

/-- `and` (05 R102, Table 3-2). -/
def execLAnd (o : SGUDAB) (s : State) : Out :=
  laneR o false (.fixed 4) aAnd s

/-- `or` (05 R102, Table 3-2). -/
def execLOr (o : SGUDAB) (s : State) : Out :=
  laneR o false (.fixed 4) aOr s

/-- `xor` (05 R102, Table 3-2). -/
def execLXor (o : SGUDAB) (s : State) : Out :=
  laneR o false (.fixed 4) aXor s

/-- `andn` (05 R102, Table 3-2). -/
def execLAndn (o : SGUDAB) (s : State) : Out :=
  laneR o false (.fixed 4) aAndn s

/-- `shl` (05 R102, Table 3-2). -/
def execLShl (o : SGUDAB) (s : State) : Out :=
  laneR o false (.fixed 4) aShl s

/-- `shr` (05 R102, Table 3-2). -/
def execLShr (o : SGUDAB) (s : State) : Out :=
  laneR o false (.fixed 4) aShr s

/-- `sar` (05 R102, Table 3-2). -/
def execLSar (o : SGUDAB) (s : State) : Out :=
  laneR o false (.fixed 4) aSar s

/-- `rol` (05 R102, Table 3-2). -/
def execLRol (o : SGUDAB) (s : State) : Out :=
  laneR o false (.fixed 4) aRol s

/-- `popc` (05 R102, Table 3-2). -/
def execLPopc (o : SGDA) (s : State) : Out :=
  laneA o (.fixed 4) aPopc s

/-- `clz` (05 R102, Table 3-2). -/
def execLClz (o : SGDA) (s : State) : Out :=
  laneA o (.fixed 4) aClz s

/-- `brev` (05 R102, Table 3-2). -/
def execLBrev (o : SGDA) (s : State) : Out :=
  laneA o (.fixed 4) aBrev s

/-- `ffs` (05 R102, Table 3-2). -/
def execLFfs (o : SGDA) (s : State) : Out :=
  laneA o (.fixed 4) aFfs s

/-- `bfx.i32` (05 R102, 03 R54). -/
def execLBfxI32 (o : SGUDAB) (s : State) : Out :=
  laneR o false (.fixed 4) aBfxI32 s

/-- `bfx.n32` (05 R102, 03 R54). -/
def execLBfxN32 (o : SGUDAB) (s : State) : Out :=
  laneR o false (.fixed 4) aBfxN32 s

/-- `bfi` (05 R102, 03 R54). -/
def execLBfi (o : SGUDAB) (s : State) : Out :=
  laneR o true (.fixed 4) aBfi s

/-- `sel` on p4 to p7 (05 R102). R28 does not place the read of the predicate: the model judges it after B (DESIGN CHOICE,
log 68). -/
def execLSel (o : SGFUDAB) (s : State) : Out :=
  laneWord o.s o.g ([.v o.a.toNat] ++ opLB o.u o.b ++ [.p (4 + o.f.toNat)]) o.d (.fixed 4)
    (fun f i j => plain (if f.getP i j (4 + o.f.toNat) then f.lB o.u o.b i j else f.getV i j o.a.toNat)) s

/-- `cmp.i32` (05 R102, 03 R56). -/
def execLCmpI32 (o : SGUKPAB) (s : State) : Out :=
  laneCmp o (.fixed 4) kCmpI32 s

/-- `cmp.n32` (05 R102, 03 R56). -/
def execLCmpN32 (o : SGUKPAB) (s : State) : Out :=
  laneCmp o (.fixed 4) kCmpN32 s

/-- `amin.i32` (05 R102, 03 R55). -/
def execLAminI32 (o : SGUDAB) (s : State) : Out :=
  laneR o true (.fixed 4) aAminI32 s

/-- `amin.n32` (05 R102, 03 R55). -/
def execLAminN32 (o : SGUDAB) (s : State) : Out :=
  laneR o true (.fixed 4) aAminN32 s

/-- `amax.i32` (05 R102, 03 R55). -/
def execLAmaxI32 (o : SGUDAB) (s : State) : Out :=
  laneR o true (.fixed 4) aAmaxI32 s

/-- `amax.n32` (05 R102, 03 R55). -/
def execLAmaxN32 (o : SGUDAB) (s : State) : Out :=
  laneR o true (.fixed 4) aAmaxN32 s

/-- `mov` (05 R103). -/
def execLMov (o : SGUDB) (s : State) : Out :=
  laneWord o.s o.g (opLB o.u o.b) o.d (.fixed 4) (fun f i j => plain (f.lB o.u o.b i j)) s

/-- `sid`: the strand index (05 R103). -/
def execLSid (o : SGD) (s : State) : Out :=
  laneWord o.s o.g [] o.d (.fixed 4) (fun _ i _ => plain (BitVec.ofNat 32 i)) s

/-- `lid`: the fibre's lane in its core (05 R103). -/
def execLLid (o : SGD) (s : State) : Out :=
  laneWord o.s o.g [] o.d (.fixed 4) (fun f _ _ => plain (BitVec.ofNat 32 f.lane)) s

/-- `addi` with imm9 (05 R104). -/
def execLAddi (o : SGDAI) (s : State) : Out :=
  laneWord o.s o.g [.v o.a.toNat] o.d (.fixed 4) (fun f i j => plain (f.getV i j o.a.toNat + sext32 o.i)) s

/-- `movi` with imm15 (05 R104). -/
def execLMovi (o : SGDI) (s : State) : Out :=
  laneWord o.s o.g [] o.d (.fixed 4) (fun _ _ _ => plain (sext32 o.i)) s

/-- `muli` with imm9 (05 R104). -/
def execLMuli (o : SGDAI) (s : State) : Out :=
  laneWord o.s o.g [.v o.a.toNat] o.d (.fixed 4) (fun f i j => plain (f.getV i j o.a.toNat * sext32 o.i)) s

/-- `pset`: pN := (a ≠ 0) (05 R120). -/
def execLPset (o : SGPA) (s : State) : Out :=
  word (lUse o.s o.g [.v o.a.toNat] [.p o.p.toNat]) noPre (fun _ _ act f s =>
    .done (overStrands (fun i j h => h.setP 4 i j o.p.toNat (f.getV i j o.a.toNat != 0)) act 0 f) s) s

/-- `pget`: vD := the predicate (05 R120). -/
def execLPget (o : SGDM) (s : State) : Out :=
  laneWord o.s o.g [.p o.m.toNat] o.d (.fixed 4) (fun f i j => plain (b2w (f.getP i j o.m.toNat))) s

end Sys2Proof.Machine
end

