-- ==== Sys2Proof/Machine/Uniform.lean ====
section
/-! DEFINITION. The arithmetic words of the uniform set (03 R50 to R65). -/

namespace Sys2Proof.Machine

/-- WriteS with a latency class (03 Table 3-1). -/
def Fibre.resS (f : Fibre) (l : Lat) (n : Nat) (x : Word) : Fibre :=
  match l with
  | .fixed c => f.setS c n x
  | .variable => f.putS n x

/-- WriteC with a latency class. -/
def Fibre.resC (f : Fibre) (l : Lat) (n : Nat) (x : Bool) : Fibre :=
  match l with
  | .fixed c => f.setC c n x
  | .variable => f.putC n x

/-- A U word that writes sD; `val` gives the result with the FSTAT bits it raises. -/
def uniWord (u : Use) (d : BitVec 6) (l : Lat) (val : Fibre → Word × Word) (s : State) : Out :=
  word u noPre (fun _ _ _ f s => .done ((f.resS l d.toNat (val f).1).sticky (val f).2) s) s

/-- A UR word of a and b, destructive or not (03 R50). -/
def uniR (o : SGIDAB) (destr : Bool) (l : Lat) (op : Alu) (s : State) : Out :=
  uniWord (uUse o.s o.g ([.s o.a.toNat] ++ opB o.i o.b ++ if destr then [.s o.d.toNat] else []) [.s o.d.toNat]) o.d l
    (fun f => op (f.getS o.a.toNat) (f.uB o.i o.b) (f.getS o.d.toNat)) s

/-- A UR word whose B is always a register. -/
def uniD (o : SGDAB) (destr : Bool) (l : Lat) (op : Alu) (s : State) : Out :=
  uniWord (uUse o.s o.g ([.s o.a.toNat, .s o.b.toNat] ++ if destr then [.s o.d.toNat] else []) [.s o.d.toNat]) o.d l
    (fun f => op (f.getS o.a.toNat) (f.getS o.b.toNat) (f.getS o.d.toNat)) s

/-- A UR word of a alone. -/
def uniA (o : SGDA) (l : Lat) (op : Alu) (s : State) : Out :=
  uniWord (uUse o.s o.g [.s o.a.toNat] [.s o.d.toNat]) o.d l (fun f => op (f.getS o.a.toNat) 0 0) s

/-- A UI word; `destr` says that it reads sD. -/
def uniI (o : SGDI) (destr : Bool) (val : Fibre → Word) (s : State) : Out :=
  uniWord (uUse o.s o.g (if destr then [.s o.d.toNat] else []) [.s o.d.toNat]) o.d (.fixed 2) (fun f => plain (val f)) s

/-- A comparison into cN. -/
def uniCmp (sc g : BitVec 2) (reads : List Opnd) (c : BitVec 3) (l : Lat) (val : Fibre → Bool × Word) (s : State) : Out :=
  word (uUse sc g reads [.c c.toNat]) noPre (fun _ _ _ f s => .done ((f.resC l c.toNat (val f).1).sticky (val f).2) s) s

/-- A word that writes the pair sD. -/
def uniWide (u : Use) (d : BitVec 6) (val : Fibre → DWord) (s : State) : Out :=
  word u noPre (fun _ _ _ f s => .done (f.setS64 2 d.toNat (val f)) s) s

/-- `add` (03 R52, Table 3-2). -/
def execUAdd (o : SGIDAB) (s : State) : Out :=
  uniR o false (.fixed 2) aAdd s

/-- `add.sat.i32` (03 R52, Table 3-2). -/
def execUAddSatI32 (o : SGIDAB) (s : State) : Out :=
  uniR o false (.fixed 2) aAddSatI32 s

/-- `add.sat.n32` (03 R52, Table 3-2). -/
def execUAddSatN32 (o : SGIDAB) (s : State) : Out :=
  uniR o false (.fixed 2) aAddSatN32 s

/-- `sub` (03 R52, Table 3-2). -/
def execUSub (o : SGIDAB) (s : State) : Out :=
  uniR o false (.fixed 2) aSub s

/-- `sub.sat.i32` (03 R52, Table 3-2). -/
def execUSubSatI32 (o : SGIDAB) (s : State) : Out :=
  uniR o false (.fixed 2) aSubSatI32 s

/-- `sub.sat.n32` (03 R52, Table 3-2). -/
def execUSubSatN32 (o : SGIDAB) (s : State) : Out :=
  uniR o false (.fixed 2) aSubSatN32 s

/-- `mul` (03 R52, Table 3-2). -/
def execUMul (o : SGIDAB) (s : State) : Out :=
  uniR o false (.fixed 2) aMul s

/-- `mulh.i32` (03 R52, Table 3-2). -/
def execUMulhI32 (o : SGIDAB) (s : State) : Out :=
  uniR o false (.fixed 2) aMulhI32 s

/-- `mulh.n32` (03 R52, Table 3-2). -/
def execUMulhN32 (o : SGIDAB) (s : State) : Out :=
  uniR o false (.fixed 2) aMulhN32 s

/-- `mad` (03 R52, Table 3-2). -/
def execUMad (o : SGIDAB) (s : State) : Out :=
  uniR o true (.fixed 2) aMad s

/-- `min.i32` (03 R52, Table 3-2). -/
def execUMinI32 (o : SGIDAB) (s : State) : Out :=
  uniR o false (.fixed 2) aMinI32 s

/-- `min.n32` (03 R52, Table 3-2). -/
def execUMinN32 (o : SGIDAB) (s : State) : Out :=
  uniR o false (.fixed 2) aMinN32 s

/-- `max.i32` (03 R52, Table 3-2). -/
def execUMaxI32 (o : SGIDAB) (s : State) : Out :=
  uniR o false (.fixed 2) aMaxI32 s

/-- `max.n32` (03 R52, Table 3-2). -/
def execUMaxN32 (o : SGIDAB) (s : State) : Out :=
  uniR o false (.fixed 2) aMaxN32 s

/-- `and` (03 R52, Table 3-2). -/
def execUAnd (o : SGIDAB) (s : State) : Out :=
  uniR o false (.fixed 2) aAnd s

/-- `or` (03 R52, Table 3-2). -/
def execUOr (o : SGIDAB) (s : State) : Out :=
  uniR o false (.fixed 2) aOr s

/-- `xor` (03 R52, Table 3-2). -/
def execUXor (o : SGIDAB) (s : State) : Out :=
  uniR o false (.fixed 2) aXor s

/-- `andn` (03 R52, Table 3-2). -/
def execUAndn (o : SGIDAB) (s : State) : Out :=
  uniR o false (.fixed 2) aAndn s

/-- `shl` (03 R52, Table 3-2). -/
def execUShl (o : SGIDAB) (s : State) : Out :=
  uniR o false (.fixed 2) aShl s

/-- `shr` (03 R52, Table 3-2). -/
def execUShr (o : SGIDAB) (s : State) : Out :=
  uniR o false (.fixed 2) aShr s

/-- `sar` (03 R52, Table 3-2). -/
def execUSar (o : SGIDAB) (s : State) : Out :=
  uniR o false (.fixed 2) aSar s

/-- `rol` (03 R52, Table 3-2). -/
def execURol (o : SGIDAB) (s : State) : Out :=
  uniR o false (.fixed 2) aRol s

/-- `popc` (03 R52, Table 3-2). -/
def execUPopc (o : SGDA) (s : State) : Out :=
  uniA o (.fixed 2) aPopc s

/-- `clz` (03 R52, Table 3-2). -/
def execUClz (o : SGDA) (s : State) : Out :=
  uniA o (.fixed 2) aClz s

/-- `brev` (03 R52, Table 3-2). -/
def execUBrev (o : SGDA) (s : State) : Out :=
  uniA o (.fixed 2) aBrev s

/-- `ffs` (03 R52, Table 3-2). -/
def execUFfs (o : SGDA) (s : State) : Out :=
  uniA o (.fixed 2) aFfs s

/-- `bfx.i32` (03 R54). -/
def execUBfxI32 (o : SGDAB) (s : State) : Out :=
  uniD o false (.fixed 2) aBfxI32 s

/-- `bfx.n32` (03 R54). -/
def execUBfxN32 (o : SGDAB) (s : State) : Out :=
  uniD o false (.fixed 2) aBfxN32 s

/-- `bfi` (03 R54). -/
def execUBfi (o : SGDAB) (s : State) : Out :=
  uniD o true (.fixed 2) aBfi s

/-- `sel` on c4 to c7 (03 R52). R28 does not place the read of the condition: the model judges it after B (DESIGN CHOICE,
log 68). -/
def execUSel (o : SGFIDAB) (s : State) : Out :=
  uniWord (uUse o.s o.g ([.s o.a.toNat] ++ opB o.i o.b ++ [.c (4 + o.f.toNat)]) [.s o.d.toNat]) o.d (.fixed 2)
    (fun f => plain (if f.getC (4 + o.f.toNat) then f.uB o.i o.b else f.getS o.a.toNat)) s

/-- `cmp.i32` (03 R56). -/
def execUCmpI32 (o : SGIKCAB) (s : State) : Out :=
  uniCmp o.s o.g ([.s o.a.toNat] ++ opB o.i o.b) o.c (.fixed 2)
    (fun f => kCmpI32 o.k (f.getS o.a.toNat) (f.uB o.i o.b)) s

/-- `cmp.n32` (03 R56). -/
def execUCmpN32 (o : SGIKCAB) (s : State) : Out :=
  uniCmp o.s o.g ([.s o.a.toNat] ++ opB o.i o.b) o.c (.fixed 2)
    (fun f => kCmpN32 o.k (f.getS o.a.toNat) (f.uB o.i o.b)) s

/-- `amin.i32` (03 R55). -/
def execUAminI32 (o : SGIDAB) (s : State) : Out :=
  uniR o true (.fixed 2) aAminI32 s

/-- `amin.n32` (03 R55). -/
def execUAminN32 (o : SGIDAB) (s : State) : Out :=
  uniR o true (.fixed 2) aAminN32 s

/-- `amax.i32` (03 R55). -/
def execUAmaxI32 (o : SGIDAB) (s : State) : Out :=
  uniR o true (.fixed 2) aAmaxI32 s

/-- `amax.n32` (03 R55). -/
def execUAmaxN32 (o : SGIDAB) (s : State) : Out :=
  uniR o true (.fixed 2) aAmaxN32 s

/-- `div.i32` (03 R57, Table 3-3). -/
def execUDivI32 (o : SGIDAB) (s : State) : Out :=
  uniR o false .variable aDivI32 s

/-- `div.n32` (03 R57, Table 3-3). -/
def execUDivN32 (o : SGIDAB) (s : State) : Out :=
  uniR o false .variable aDivN32 s

/-- `rem.i32` (03 R57, Table 3-3). -/
def execURemI32 (o : SGIDAB) (s : State) : Out :=
  uniR o false .variable aRemI32 s

/-- `rem.n32` (03 R57, Table 3-3). -/
def execURemN32 (o : SGIDAB) (s : State) : Out :=
  uniR o false .variable aRemN32 s

/-- `add64` (03 R58). -/
def execUAdd64 (o : SGIDAB) (s : State) : Out :=
  uniWide (uUse o.s o.g ([.s2 o.a.toNat] ++ opB64 o.i o.b) [.s2 o.d.toNat]) o.d
    (fun f => f.getS64 o.a.toNat + f.uB64 o.i o.b) s

/-- `sub64` (03 R58). -/
def execUSub64 (o : SGIDAB) (s : State) : Out :=
  uniWide (uUse o.s o.g ([.s2 o.a.toNat] ++ opB64 o.i o.b) [.s2 o.d.toNat]) o.d
    (fun f => f.getS64 o.a.toNat - f.uB64 o.i o.b) s

/-- `cmp64` (03 R58). -/
def execUCmp64 (o : SGIKCAB) (s : State) : Out :=
  uniCmp o.s o.g ([.s2 o.a.toNat] ++ opB64 o.i o.b) o.c (.fixed 2)
    (fun f => (cmp64 o.k (f.getS64 o.a.toNat) (f.uB64 o.i o.b), 0)) s

/-- `fadd` (03 R60). -/
def execUFadd (o : SGRDAB) (s : State) : Out :=
  uniD ⟨o.s, o.g, o.d, o.a, o.b⟩ false (.fixed 4) (aFadd o.r) s

/-- `fsub` (03 R60). -/
def execUFsub (o : SGRDAB) (s : State) : Out :=
  uniD ⟨o.s, o.g, o.d, o.a, o.b⟩ false (.fixed 4) (aFsub o.r) s

/-- `fmul` (03 R60). -/
def execUFmul (o : SGRDAB) (s : State) : Out :=
  uniD ⟨o.s, o.g, o.d, o.a, o.b⟩ false (.fixed 4) (aFmul o.r) s

/-- `ffma` (03 R60). -/
def execUFfma (o : SGRDAB) (s : State) : Out :=
  uniD ⟨o.s, o.g, o.d, o.a, o.b⟩ true (.fixed 4) (aFfma o.r) s

/-- `fmin` (03 R61). -/
def execUFmin (o : SGDAB) (s : State) : Out :=
  uniD o false .variable aFmin s

/-- `fmax` (03 R61). -/
def execUFmax (o : SGDAB) (s : State) : Out :=
  uniD o false .variable aFmax s

/-- `fmin.nan` (03 R61). -/
def execUFminNan (o : SGDAB) (s : State) : Out :=
  uniD o false .variable aFminNan s

/-- `fmax.nan` (03 R61). -/
def execUFmaxNan (o : SGDAB) (s : State) : Out :=
  uniD o false .variable aFmaxNan s

/-- `fcmp` (03 R62). -/
def execUFcmp (o : SGKCAB) (s : State) : Out :=
  uniCmp o.s o.g [.s o.a.toNat, .s o.b.toNat] o.c .variable
    (fun f => kFcmp o.k (f.getS o.a.toNat) (f.getS o.b.toNat)) s

/-- `fcmp.un` (03 R62). -/
def execUFcmpUn (o : SGKCAB) (s : State) : Out :=
  uniCmp o.s o.g [.s o.a.toNat, .s o.b.toNat] o.c .variable
    (fun f => kFcmpUn o.k (f.getS o.a.toNat) (f.getS o.b.toNat)) s

/-- `frcp` (03 R63). -/
def execUFrcp (o : SGDA) (s : State) : Out :=
  uniA o .variable aFrcp s

/-- `frsq` (03 R63). -/
def execUFrsq (o : SGDA) (s : State) : Out :=
  uniA o .variable aFrsq s

/-- `fex2` (03 R63). -/
def execUFex2 (o : SGDA) (s : State) : Out :=
  uniA o .variable aFex2 s

/-- `flg2` (03 R63). -/
def execUFlg2 (o : SGDA) (s : State) : Out :=
  uniA o .variable aFlg2 s

/-- `cvti.i32.f32` (03 R64). -/
def execUCvtiI32F32 (o : SGDA) (s : State) : Out :=
  uniA o .variable aCvtiI32F32 s

/-- `cvti.n32.f32` (03 R64). -/
def execUCvtiN32F32 (o : SGDA) (s : State) : Out :=
  uniA o .variable aCvtiN32F32 s

/-- `cvti.f32.i32` (03 R64). -/
def execUCvtiF32I32 (o : SGDA) (s : State) : Out :=
  uniA o .variable aCvtiF32I32 s

/-- `cvti.f32.n32` (03 R64). -/
def execUCvtiF32N32 (o : SGDA) (s : State) : Out :=
  uniA o .variable aCvtiF32N32 s

/-- `addi` (03 R65). -/
def execUAddi (o : SGDI) (s : State) : Out :=
  uniI o true (fun f => f.getS o.d.toNat + sext32 o.i) s

/-- `li` (03 R65). -/
def execULi (o : SGDI) (s : State) : Out :=
  uniI o false (fun _ => sext32 o.i) s

/-- `lui` (03 R65). -/
def execULui (o : SGDI) (s : State) : Out :=
  uniI o true (fun f => (zext32 o.i <<< 17) ||| (f.getS o.d.toNat &&& 0x0001FFFF)) s

/-- What a `lit` names: it is the one word of two words. -/
def litUse (s g : BitVec 2) (d : BitVec 6) : Use := { uUse s g [] [.s d.toNat] with len := 8 }

/-- `lit`: its data word stands after it (03 R65, 02 R39). -/
def execULit (o : SGDV) (s : State) : Out :=
  uniWord (litUse o.s o.g o.d) o.d (.fixed 2) (fun _ => plain o.v) s

/-- `cmpi` (03 R65). -/
def execUCmpi (o : SGKCAI) (s : State) : Out :=
  uniCmp o.s o.g [.s o.a.toNat] o.c (.fixed 2) (fun f => kCmpI32 o.k (f.getS o.a.toNat) (sext32 o.i)) s

/-- `muli` (03 R65). -/
def execUMuli (o : SGDI) (s : State) : Out :=
  uniI o true (fun f => f.getS o.d.toNat * sext32 o.i) s

/-- `addi64` (03 R65). -/
def execUAddi64 (o : SGDI) (s : State) : Out :=
  uniWide (uUse o.s o.g [.s2 o.d.toNat] [.s2 o.d.toNat]) o.d (fun f => f.getS64 o.d.toNat + sext64 o.i) s

end Sys2Proof.Machine
end

