-- ==== Sys2Proof/Machine/Control.lean ====
section
/-! DEFINITION. Control flow, rotation, traps and breakpoints of the uniform set (03 R67 to R70, R72). -/

namespace Sys2Proof.Machine

/-- A transfer to t by a word that leaves fibre g (01 R13): a bad target faults and leaves `f` as it was. -/
def transfer (f g : Fibre) (s : State) (t : DWord) : Res :=
  match targetFault t with
  | some x => .trap f s x 0
  | none => .jump g s t

/-- `br` (03 R67). -/
def execBr (o : SGO) (s : State) : Out :=
  word (uUse o.s o.g [] []) noPre (fun _ _ _ f s => transfer f f s (branchTarget f.pc o.o)) s

/-- The write of s63 by `call` and `callr`: the low word of the return address. -/
def Fibre.link (f : Fibre) : Fibre := f.setS 2 63 (loWord (f.pc + 4))

/-- `call` (03 R68). -/
def execCall (o : SGO) (s : State) : Out :=
  word (uUse o.s o.g [] [.s 63]) noPre (fun _ _ _ f s => transfer f f.link s (branchTarget f.pc o.o)) s

/-- `jr` (03 R68). -/
def execJr (o : SGA) (s : State) : Out :=
  word (uUse o.s o.g [.s2 o.a.toNat] []) noPre (fun _ _ _ f s => transfer f f s (f.getS64 o.a.toNat)) s

/-- `callr` (03 R68): the target is read before s63 is written. -/
def execCallr (o : SGA) (s : State) : Out :=
  word (uUse o.s o.g [.s2 o.a.toNat] [.s 63]) noPre (fun _ _ _ f s => transfer f f.link s (f.getS64 o.a.toNat)) s

/-- `ret` (03 R68): the high half of the target is that of the PC of the `ret`. -/
def execRet (o : SG) (s : State) : Out :=
  word (uUse o.s o.g [.s 63] []) noPre (fun _ _ _ f s => transfer f f s (pair (f.getS 63) (hiWord f.pc))) s

/-- The rotation of a taken `loop`: ROTB := (ROTB - 1) mod ROTS when there is a rotating region. -/
def Fibre.rotate (f : Fibre) : Fibre :=
  if f.rots = 0 then f else { f with rotb := (f.rotb + f.rots - 1) % f.rots }

/-- `loop` (03 R69). -/
def execLoopW (o : SGDO) (s : State) : Out :=
  word (uUse o.s o.g [.s o.d.toNat] [.s o.d.toNat]) noPre (fun _ _ _ f s =>
    let n := f.getS o.d.toNat - 1
    let g := f.setS 2 o.d.toNat n
    if n = 0 then .done g s else transfer f g.rotate s (branchTarget f.pc o.o)) s

/-- The values that `rotset` accepts (03 R70). -/
def Fibre.rotsetOk (f : Fibre) (v : Nat) : Bool := (v == 0 || v == 8 || v == 16 || v == 32) && v ≤ f.win

/-- The values that `rotbase` accepts (03 R70). -/
def Fibre.rotbaseOk (f : Fibre) (v : Nat) : Bool := v < f.rots || v == 0

/-- The decode-time check of an immediate (03 R70, 02 R48). -/
def immCheck (i : BitVec 1) (b : BitVec 6) (ok : Fibre → Nat → Bool) (f : Fibre) : Option Trap :=
  if i = 1 ∧ ok f b.toNat = false then some (trapOf .reservedField 0 0) else none

/-- A word of `rot`. -/
def rotWord (o : SGIB) (ok : Fibre → Nat → Bool) (act : Fibre → Nat → Fibre) (s : State) : Out :=
  word (uUse o.s o.g (opB o.i o.b) []) (immCheck o.i o.b ok) (fun _ _ _ f s =>
    let v := (f.uB o.i o.b).toNat
    if ok f v then .done (act f v) s else .trap f s (trapOf .reservedField 0x01 0) 0) s

/-- `rotset` (03 R70). -/
def execRotset (o : SGIB) (s : State) : Out :=
  rotWord o Fibre.rotsetOk (fun f v => { f with rots := v, rotb := 0 }) s

/-- `rotbase` (03 R70). -/
def execRotbase (o : SGIB) (s : State) : Out := rotWord o Fibre.rotbaseOk (fun f v => { f with rotb := v }) s

/-- The subcode of `trap` and `brk` (03 R72). -/
def Fibre.swSub (f : Fibre) (i : BitVec 1) (b : BitVec 6) : Nat := (f.uB i b).toNat % 256

/-- `trap` (03 R72). -/
def execTrap (o : SGIB) (s : State) : Out :=
  word (uUse o.s o.g (opB o.i o.b) []) noPre (fun _ _ _ f s => .trap f s (trapOf .trapSw (f.swSub o.i o.b) 0) 0) s

/-- A `brk` has its effect: breakpoints are enabled and the fibre is not in its handler. Otherwise it is a `nop`, which
reads nothing (03 R72). -/
def Fibre.brkActs (f : Fibre) : Bool := f.brken && !f.tm

/-- `brk` (03 R72). -/
def execBrk (o : SGIB) (s : State) : Out :=
  wordBy (fun _ f => uUse o.s o.g (if f.brkActs then opB o.i o.b else []) []) noPre (fun _ _ _ f s =>
    if f.brkActs then .trap f s (trapOf .brk (f.swSub o.i o.b) 0) 0 else .done f s) s

/-- The word at TRAPPC is a U word: then `tret` itself clears RIX (03 R72). -/
def State.uniformAt (s : State) (ten : Nat) (pc : DWord) : Bool :=
  match s.walk ten pc.toNat pc with
  | .error _ => false
  | .ok e => bit (wordAt (s.coh (e.at pc.toNat) 4) 0) 31

/-- A PRIVILEGE fault of a word whose guard holds (01 R24, 02 R49). -/
def privilegeIf (u : Use) (bad : Fibre → Bool) (f : Fibre) : Option Trap :=
  if bad f && !(runners u f).isEmpty then some (trapOf .privilege 0 0) else none

/-- `tret` (03 R72). -/
def execTret (o : SG) (s : State) : Out :=
  word (uUse o.s o.g [] []) (privilegeIf (uUse o.s o.g [] []) fun f => !f.tm) (fun _ w _ f s =>
    let g := f.leaveHandler
    transfer f (if s.uniformAt w.tenant f.trappc then { g.setRix 0 with rixLive := false } else g)
      (s.afterWalk w.tenant f.trappc.toNat) f.trappc) s

/-- `nop` (03 R72). -/
def execNop (o : SG) (s : State) : Out := word (uUse o.s o.g [] []) noPre (fun _ _ _ f s => .done f s) s

end Sys2Proof.Machine
end

