-- ==== Sys2Proof/Machine/Rows.lean ====
section
/-! DEFINITION. Rows of the core store, lanes and slots, the start state of a fibre, and the size of its window
(01 R20, R33; 04 R76, R87 to R91; 07 R130). -/

namespace Sys2Proof.Machine

/-- First fit from row 0 upward. -/
def fitUp (runs : List (Nat × Nat)) (n : Nat) : Option Nat :=
  ((0 :: runs.map fun r => r.1 + r.2).filter fun lo => runFree runs lo n).min?

/-- First fit from the top row downward. -/
def fitDown (runs : List (Nat × Nat)) (n : Nat) : Option Nat :=
  (((coreRows - n) :: runs.map fun r => r.1 - n).filter fun lo => runFree runs lo n).max?

def Fibre.seat (f : Fibre) : Nat × Nat := (f.lane, f.slot)

/-- The lane slots that are taken on a core: a spilled fibre keeps its own (04 R91), and an ended fibre's is free once
its register results have drained (04 R88). Until then it counts among the lane's resident fibres of R76, which no rule
says (DESIGN CHOICE, log 98). -/
def State.seated (s : State) (core : Nat) : List (Nat × Nat) :=
  s.wgs.vals.flatMap fun w =>
    if w.core = core ∧ w.stored = false then w.fibres.vals.map Fibre.seat ++ w.haunted.map fun g => (g.lane, g.slot) else []

/-- The lane with the fewest fibres, and its lowest free slot (04 R76). -/
def pickLane (seats : List (Nat × Nat)) : Option (Nat × Nat) :=
  let count (l : Nat) : Nat := (seats.filter fun e => e.1 == l).length
  let best := (List.range 16).foldl (fun (b : Nat) l => if count l < count b then l else b) 0
  ((List.range 8).find? fun k => !seats.contains (best, k)).map fun k => (best, k)

/-- The port records at start (01 Table 1-10 QSTART). -/
def startPorts (q : Word) : Vector Port 8 :=
  Vector.ofFn fun n => { bound := bit q (4 * n + 3), out := bit q (4 * n + 2), slot := bitsN q.toNat (4 * n) 2, allow := 0 }

/-- The s registers at start (01 R33). -/
def startS (w : Workgroup) (fid : Nat) : Vector Word 64 :=
  let put (v : Vector Word 64) (n : Nat) (x : Word) : Vector Word 64 := vset v n x
  let v := put (Vector.replicate 64 0) 1 (BitVec.ofNat 32 w.wgid)
  let v := put (put v 2 (BitVec.ofNat 32 fid)) 3 (BitVec.ofNat 32 w.member)
  let v := put (put v 4 (loWord w.args)) 5 (hiWord w.args)
  put (put v 6 (BitVec.ofNat 32 w.launch)) 7 (BitVec.ofNat 32 w.group)

/-- A fibre in the start state of 01 R33. -/
def startFibre (w : Workgroup) (fid : Nat) (seat : Nat × Nat) (base : Nat) (pc : DWord) (slack : BitVec 12) : Fibre :=
  { uid := w.nextUid, fid := fid, lane := seat.1, slot := seat.2, s := startS w fid
    v := Vector.replicate 64 zeroRow, p := Vector.replicate 8 0, c := Vector.replicate 8 false, pc := pc
    fstat := (if w.hdr.accm then 0x80#32 else 0) ||| (if w.hdr.det then 0x40#32 else 0)
    fctl := if w.hdr.sbchk then 5 else 4
    base := base, win := w.hdr.win, rots := w.hdr.rot, rotb := 0, depth := w.hdr.ddepth, divd := 0
    stack := Vector.replicate 4 zeroRow, active := 0xFFFF, exitMask := 0, slack := slack, latec := 0, retc := 0
    trappc := 0, tcause := 0, taddr := 0, nom := 0, pend := [], busy := [], outs := [], engo := 0, sleep := .awake
    rowsReq := none, rv := 0, rp := 0, popped := [], ports := startPorts w.hdr.qstart, watches := [],
    imprecise := [], lateInTrap := none, fabErr := false, fabWait := none, midStrand := 0, rixLive := false,
    parkSub := 0, spilled := false, yieldUntil := 0
    fresh := false, kept := none, word := [], shed := 0, issuedAt := 0, lateSeen := none, stq := [], lq := [], nextSt := 0
    passEnd := 0, lanes := none }

/-- Counts an out binding of a queue (09 R185). -/
def KQueue.bindOut (q : KQueue) : KQueue := { q with outBinds := q.outBinds + 1, hadOut := true }

/-- Counts the out bindings of a fibre that starts. -/
def State.bindStart (s : State) (w : Workgroup) (f : Fibre) : State :=
  (f.ports.toList.filter fun p => p.bound && p.out).foldl (fun s p => s.updQueue w p.slot KQueue.bindOut) s

/-- In direct mode, what one fibre of a workgroup has observed of the tiles another now observes too (12 R240). -/
def Workgroup.shareTiles (w : Workgroup) (src dst : List Nat) : Workgroup :=
  { w with tiles := w.tiles.map fun t => if t.seenBy.any fun u => src.contains u then { t with seenBy := t.seenBy ++ dst } else t }

/-- Adds a fibre that starts to its workgroup. -/
def State.addFibre (s : State) (wk : Nat) (w : Workgroup) (f : Fibre) : State :=
  (s.updWg wk fun w => { w with fibres := w.fibres.put f.fid f, nextUid := w.nextUid + 1 }).bindStart w f

/-! ## Waiting for rows (04 R87, R89, R91) -/

/-- A fibre that waits for rows, with its place in the age order: launch admission, workgroup index, fibre index. -/
structure RowWaiter where
  age : Nat × Nat × Nat
  wk : Nat
  f : Fibre
  /-- rows asked for, and whether they are for another fibre -/
  need : Nat
  other : Bool
  deriving DecidableEq, Repr

/-- Earlier in the age order. -/
def olderAge (a b : Nat × Nat × Nat) : Bool :=
  a.1 < b.1 || (a.1 == b.1 && (a.2.1 < b.2.1 || (a.2.1 == b.2.1 && a.2.2 < b.2.2)))

def State.ageOf (s : State) (w : Workgroup) (f : Fibre) : Nat × Nat × Nat :=
  (((s.launch w.launch).map (·.serial)).getD 0, w.wgid, f.fid)

/-- The request of a fibre: rows needed, and whether they are for a fork. -/
def Fibre.request (w : Workgroup) (f : Fibre) : Option (Nat × Bool) :=
  match f.rowsReq with
  | some (.grow n) => some (n + stackRows f.depth, false)
  | some (.fork _ _) => some (w.hdr.win + stackRows w.hdr.ddepth, true)
  | _ => none

/-- The fibres of a core that wait for rows. -/
def State.rowWaiters (s : State) (core : Nat) : List RowWaiter :=
  s.wgs.flatMap fun e =>
    if e.2.core = core ∧ e.2.run = .resident then
      e.2.fibres.vals.filterMap fun f =>
        (f.request e.2).map fun r => { age := s.ageOf e.2 f, wk := e.1, f := f, need := r.1, other := r.2 }
    else []

/-- Inserts by age, oldest first. -/
def insertAge (x : RowWaiter) : List RowWaiter → List RowWaiter
  | [] => [x]
  | y :: ys => if olderAge x.age y.age then x :: y :: ys else y :: insertAge x ys

def byAge (l : List RowWaiter) : List RowWaiter := l.foldr insertAge []

/-- Where a request's rows would lie: for a fork a new run; for a window the run that starts where the allocation
starts now, else some other run. The runs in use afterwards come with it. -/
def placeRows (runs : List (Nat × Nat)) (f : Fibre) (need : Nat) (other : Bool) : Option (Nat × List (Nat × Nat)) :=
  if other || f.spilled then (fitUp runs need).map fun lo => (lo, (lo, need) :: runs)
  else
    let rest := runs.filter (· != f.run)
    if runFree rest f.run.1 need then some (f.run.1, (f.run.1, need) :: rest)
    else (fitUp rest need).map fun lo => (lo, (lo, need) :: rest)

/-- The runs in use once requests have been placed one after another. -/
def placeAll (runs : List (Nat × Nat)) : List RowWaiter → Option (List (Nat × Nat))
  | [] => some runs
  | x :: xs => (placeRows runs x.f x.need x.other).bind fun r => placeAll r.2 xs

/-- The place for a request that may be granted now: a younger request is granted ahead of an older one only when
the free rows cover both (04 R89), and it leaves the older one the rows that it would take. -/
def State.grantRows (s : State) (w : Workgroup) (f : Fibre) (need : Nat) (other : Bool) : Option Nat :=
  let old := (byAge (s.rowWaiters w.core)).filter fun x => olderAge x.age (s.ageOf w f)
  (placeAll (s.runsOf w.core) old).bind fun runs => (placeRows runs f need other).map (·.1)

/-! ## The window (04 R90) -/

/-- Row o of a window resized from w to w' with a rotating region of r registers. -/
def moveRow (w w' r : Nat) (o : Nat) : Option Nat :=
  if o < min (w - r) (w' - r) then some o
  else if o < w - r then none
  else some (o + w' - w)

/-- The window resized to w' registers: the rotating region moves to its top, new rows read zero, results in flight
follow their rows, and results to discarded rows are dropped. Discarded rows stay in the allocation while a register
result is in flight (`Fibre.run`). -/
def Fibre.resize (f : Fibre) (w' : Nat) : Fibre :=
  let w := f.win
  let r := f.rots
  { f with
    win := w'
    shed := if f.noneInFlight then 0 else f.shed + (w - w')
    v := Vector.ofFn fun o =>
      if o.val < min (w - r) (w' - r) then vget f.v o.val zeroRow
      else if o.val < w' - r then zeroRow
      else if o.val < w' then vget f.v (o.val + w - w') zeroRow
      else zeroRow
    lq := []
    pend := f.pend.filterMap fun e =>
      match e.reg with
      | .v o i => (moveRow w w' r o).map fun o' => { e with reg := .v o' i }
      | _ => some e }

/-- Grants a window of w' registers, if rows are free. -/
def State.tryGrow (s : State) (w : Workgroup) (f : Fibre) (w' : Nat) : Option Fibre :=
  if f.noneInFlight then
    (s.grantRows w f (w' + stackRows f.depth) false).map fun lo =>
      { f.resize w' with base := lo + stackRows f.depth, rowsReq := none }
  else none

/-- Places a forked fibre, if the workgroup has fewer than 32 fibres and a lane slot and rows are free (04 R87, 05 R121);
answers its index. L1 lines in those rows are gone (07 R131). A fork that already waits when its workgroup comes to hold
32 fibres goes on waiting: 05 R121 gives 0xFFFF_FFFF only for a workgroup that holds 32 at the `fork` (DESIGN CHOICE,
log 85). -/
def State.tryFork (s : State) (wk : Nat) (w : Workgroup) (f : Fibre) (pc : DWord) (v : Word) : Option (Nat × State) :=
  match if w.fibres.length < 32 then pickLane (s.seated w.core) else none,
    s.grantRows w f (w.hdr.win + stackRows w.hdr.ddepth) true with
  | some seat, some lo =>
    let fid := w.fibres.freeFrom 32 0
    let g := startFibre w fid seat (lo + stackRows w.hdr.ddepth) pc f.slack
    some (fid, ((s.addFibre wk w { g with s := vset g.s 8 v }).updWg wk fun w =>
      w.shareTiles [f.uid] [g.uid]).l1Trim w.core)
  | _, _ => none

/-! ## Spilling (04 R91) -/

/-- A sleep in a synchronisation wait, as R91 counts sleep. -/
def Sleep.syncWait : Sleep → Bool
  | .bar _ _ => true
  | .knot _ _ => true
  | .tkwait _ _ => true
  | .wwait _ => true
  | .bcwait _ _ => true
  | .pop _ => true
  | .push _ => true
  | _ => false

end Sys2Proof.Machine
end

