-- ==== Sys2Proof/Machine/Fctl.lean ====
section
/-! DEFINITION. Creating and ending fibres, windows, spills (04 R87 to R91; 05 R121 to R123). -/

namespace Sys2Proof.Machine

/-- `fork` (05 R121): checks of the start PC, a full workgroup, then placement, at once or when rows are free. -/
def execFork (o : SGIDAB) (s : State) : Out :=
  word (uUse o.s o.g ([.s2 o.a.toNat] ++ opB o.i o.b) [.s o.d.toNat]).syncing noPre (fun wk w _ f s =>
    match f.rowsReq with
    | some (.placed k) => .done ({ f with rowsReq := none }.putS o.d.toNat (BitVec.ofNat 32 k)) s
    | _ =>
      let t := f.getS64 o.a.toNat
      let v := f.uB o.i o.b
      match targetFault t with
      | some x => .trap f s x 0
      | none =>
        if 32 ≤ w.fibres.length then .done (f.putS o.d.toNat 0xFFFFFFFF) s
        else
          match s.tryFork wk w f t v with
          | some (k, s) => .done (f.putS o.d.toNat (BitVec.ofNat 32 k)) s
          | none => .wait { f with rowsReq := some (.fork t v) } s .rows) s

/-- `fctl.end` (05 R122). -/
def execFctlEnd (o : SG) (s : State) : Out := word (uUse o.s o.g [] []) noPre (fun _ _ _ f s => .ends f s) s

/-- `yield` (05 R122): a delay of actual issue alone; a `nop`, which reads nothing, in deterministic mode. -/
def execYield (o : SGIB) (s : State) : Out :=
  wordBy (fun w _ => uUse o.s o.g (if w.hdr.det then [] else opB o.i o.b) []) noPre (fun _ w _ f s =>
    if w.hdr.det then .done f s
    else .done { f with yieldUntil := s.cycles + (f.uB o.i o.b).toNat % 65536 } s) s

/-- The size operand of `vgrow` and `vshrink` (05 R123). -/
def Fibre.sizeOp (f : Fibre) (i : BitVec 1) (b : BitVec 6) : Nat := if i = 1 then 8 * b.toNat else (f.getS b.toNat).toNat

/-- A window size (05 R123). -/
def sizeOk (n : Nat) : Bool := n != 0 && n ≤ 64 && n % 8 == 0

/-- The decode-time check of an immediate size. -/
def sizeCheck (i : BitVec 1) (b : BitVec 6) (ok : Fibre → Nat → Bool) (f : Fibre) : Option Trap :=
  if i = 1 ∧ ok f (8 * b.toNat) = false then some (trapOf .reservedField 0 0) else none

/-- Rows that scratchpads and stashes of the resident workgroups of a core take. -/
def State.scratchRows (s : State) (core : Nat) : Nat :=
  (s.wgs.vals.filter fun w => w.core == core && !w.stored && w.run != .exited).foldl (fun n w => n + w.extent / 64) 0

/-- `vgrow` (05 R123, 04 R89). -/
def execVgrow (o : SGIB) (s : State) : Out :=
  word (uUse o.s o.g (opB o.i o.b) []) (sizeCheck o.i o.b fun _ => sizeOk) (fun wk w _ f s =>
    let n := f.sizeOp o.i o.b
    if !sizeOk n then .trap f s (trapOf .reservedField 0x03 0) 0
    else if n ≤ f.win then .done f s
    else if coreRows - s.scratchRows w.core < n + stackRows f.depth then .trap f s (trapOf .window 0x02 0) 0
    else
      match s.tryGrow w f n with
      | some g => .done g ((s.putFibre wk g).l1Trim w.core)
      | none => .wait { f with rowsReq := some (.grow n) } s .rows) s

/-- The sizes that `vshrink` accepts. -/
def Fibre.shrinkOk (f : Fibre) (n : Nat) : Bool := sizeOk n && f.rots ≤ n

/-- `vshrink` (05 R123, 04 R90). -/
def execVshrink (o : SGIB) (s : State) : Out :=
  word (uUse o.s o.g (opB o.i o.b) []) (sizeCheck o.i o.b Fibre.shrinkOk) (fun _ _ _ f s =>
    let n := f.sizeOp o.i o.b
    if !f.shrinkOk n then .trap f s (trapOf .reservedField 0x03 0) 0
    else if f.win ≤ n then .done f s
    else .done (f.resize n) s) s

/-! ## Steps of the core -/

/-- A fibre of a resident workgroup. -/
def State.fibre (s : State) (wk fid : Nat) : Option (Workgroup × Fibre) :=
  match s.wg wk with
  | none => none
  | some w => if w.run = .resident then (w.fibres.find fid).map fun f => (w, f) else none

/-- A waiting fork is placed (04 R87): the creator goes on. -/
def State.placeFork (s : State) (wk fid : Nat) : State :=
  match s.fibre wk fid with
  | none => s
  | some (w, f) =>
    match f.rowsReq with
    | some (.fork pc v) =>
      (match s.tryFork wk w f pc v with
       | none => s
       | some (k, s) => s.putFibre wk { f with rowsReq := some (.placed k), sleep := .woken })
    | _ => s

/-- A waiting window request is granted (04 R89): the word retires when the fibre goes on. -/
def State.grantWindow (s : State) (wk fid : Nat) : State :=
  match s.fibre wk fid with
  | none => s
  | some (w, f) =>
    match f.rowsReq with
    | some (.grow n) =>
      (match s.tryGrow w f n with
       | none => s
       | some g => (s.putFibre wk { g with sleep := .woken }).l1Trim w.core)
    | _ => s

/-- FORK_PLACEMENT (04 R87). -/
def execForkPlacement (wk fid : Nat) (s : State) : Out :=
  .next (match s.fibre wk fid with
    | some (_, f) => if f.spilled then s else s.placeFork wk fid
    | none => s)

/-- VGROW_GRANT (04 R89). -/
def execVgrowGrant (wk fid : Nat) (s : State) : Out :=
  .next (match s.fibre wk fid with
    | some (_, f) => if f.spilled then s else s.grantWindow wk fid
    | none => s)

/-- The resident fibres of a core, with their ages: a workgroup that is being saved is resident until its image is
written. -/
def State.aged (s : State) (core : Nat) : List RowWaiter :=
  s.wgs.flatMap fun e =>
    if e.2.core = core ∧ (e.2.run = .resident ∨ e.2.run = .stopping) ∧ e.2.stored = false then
      e.2.fibres.vals.map fun f =>
        { age := s.ageOf e.2 f, wk := e.1, f := f, need := ((f.request e.2).map (·.1)).getD 0, other := false }
    else []

/-- Blocked as R91 asks: waiting for rows, or sleeping in a synchronisation wait. -/
def Fibre.blocked (w : Fibre) : Bool := w.sleep == .rows || w.sleep.syncWait

/-- Restores a spilled fibre when its whole allocation fits, its pending request with it, and no older fibre waits for
rows (04 R91). -/
def State.unspill (s : State) (wk fid : Nat) : State :=
  match s.fibre wk fid with
  | none => s
  | some (w, f) =>
    if f.spilled && f.noneInFlight && (s.rowWaiters w.core).all fun x => !olderAge x.age (s.ageOf w f) then
      let own := f.run.2
      let runs := s.runsOf w.core
      match f.request w with
      | some (need, false) =>
        (match fitUp runs need, f.rowsReq with
         | some lo, some (.grow n) =>
           (s.putFibre wk { f.resize n with spilled := false, base := lo + stackRows f.depth, rowsReq := none
                                            sleep := .woken }).l1Trim w.core
         | _, _ => s)
      | r =>
        match fitUp runs own with
        | none => s
        | some lo =>
          let extra := match r with
            | some (need, _) => (fitUp ((lo, own) :: runs) need).isSome
            | none => true
          if extra then (s.putFibre wk { f with spilled := false, base := lo + stackRows f.depth }).l1Trim w.core else s
    else s

/-- What the oldest waiter asks for is done, if the free rows allow it now: a spilled one comes back first. -/
def State.grantOldest (s : State) (o : RowWaiter) : State :=
  let s := if o.f.spilled then s.unspill o.wk o.f.fid else s
  match o.f.rowsReq with
  | some (.grow _) => s.grantWindow o.wk o.f.fid
  | _ => if (s.fibre o.wk o.f.fid).any fun x => !x.2.spilled then s.placeFork o.wk o.f.fid else s

/-- A fibre can be spilled: what it issued is performed and no register result is in flight (18 R327). -/
def Fibre.mayBeSpilled (f : Fibre) : Bool := f.outs.isEmpty && f.busy.isEmpty

/-- A workgroup of a core is being torn down; its fibres stop, and its rows become free (18 R324). -/
def State.coreDying (s : State) (core : Nat) : Bool := s.wgs.vals.any fun w =>
  w.core == core && !w.stored &&
    match w.run with
    | .dying _ => true
    | _ => false

/-- Spills the youngest fibres until the request of the oldest waiter can be granted (fuel: fibres of the core). -/
def spillFor (core : Nat) (o : RowWaiter) : Nat → State → Option State
  | 0, _ => none
  | k + 1, s =>
    let go := s.grantOldest o
    if go != s then some go
    else
      match ((byAge (s.aged core)).filter fun x => !x.f.spilled && !(x.wk == o.wk && x.f.fid == o.f.fid)).getLast? with
      | none => none
      | some y =>
        if y.f.mayBeSpilled then spillFor core o k (s.putFibre y.wk { y.f with spilled := true }) else none

/-- CORE_SPILL (04 R91): every fibre that is not spilled already waits or sleeps. The oldest waiter may itself be a
spilled fibre, which then comes back with its request. -/
def execCoreSpill (core : Nat) (s : State) : Out :=
  .next (
    let fs := s.aged core
    if !s.coreDying core && fs.all fun x => x.f.spilled || x.f.blocked then
      match byAge (s.rowWaiters core) with
      | [] => s
      | o :: _ => (spillFor core o 130 s).getD s
    else s)

/-- SPILL_RESTORE (04 R91): the fibre's whole allocation fits, its pending request with it, and no older fibre waits
for rows. -/
def execSpillRestore (wk fid : Nat) (s : State) : Out := .next (s.unspill wk fid)

end Sys2Proof.Machine
end

