-- ==== Sys2Proof/Machine/Hawser.lean ====
section
/-! DEFINITION. Packets as they stand on a link: the Hawser header, payload and trailer (20 R346, Tables 20-2 and 20-3), the
end-to-end check (21 R373), and the Ledun header extension of the Ultra Ethernet personality (20 R360). -/

namespace Sys2Proof.Machine

/-! ## The check (21 R373) -/

/-- One bit of CRC-16/CCITT, most significant bit first. -/
def crcBit (c : BitVec 16) (b : Bool) : BitVec 16 :=
  let top := c.getLsbD 15 != b
  let d := c <<< 1
  if top then d ^^^ 0x1021 else d

def crcByte (c : BitVec 16) (b : Byte) : BitVec 16 :=
  (List.range 8).foldl (fun c k => crcBit c (b.getLsbD (7 - k))) c

/-- CRC-16/CCITT: polynomial 0x1021, initial value 0xFFFF, no reflection, no final XOR. -/
def crc16 (bs : List Byte) : BitVec 16 := bs.foldl crcByte 0xFFFF

/-! ## The Hawser packet (20 R346) -/

/-- The four words of a header, HCRC apart (Table 20-2). -/
def hawserWords (p : Packet) : List DWord :=
  [p.dst ++ p.src ++ p.ddie ++ p.sdie ++ p.op ++ p.slack ++ (if p.late then 1#1 else 0#1) ++ (if p.resent then 1#1 else 0#1) ++
      0#3 ++ BitVec.ofNat 13 p.payload.length,
   p.seq ++ p.ctr ++ p.part ++ 0#4 ++ 0#16, 0#8 ++ p.addr, p.aux ++ p.tag]

/-- The header: HCRC is the check of the header with that field zero. -/
def hawserHeader (p : Packet) : List Byte :=
  let h := (hawserWords p).flatMap fun w => leBytes 8 w.toNat
  h.take 8 ++ leBytes 2 (crc16 h).toNat ++ h.drop 10

/-- Zero bytes that fill up to a multiple of n. -/
def padding (n len : Nat) : List Byte := List.replicate ((n - len % n) % n) 0

/-- A 32-byte sector of the payload. -/
def sectorOf (bs : List Byte) (k : Nat) : List Byte := (bs.drop (32 * k)).take 32

/-- The trailer: the check of each payload sector. For a sector that is poisoned it does not match (DESIGN CHOICE, log 77:
its complement). -/
def hawserTrailer (p : Packet) (padded : List Byte) : List Byte :=
  (List.range (padded.length / 32)).flatMap fun k =>
    let x := crc16 (sectorOf padded k)
    leBytes 2 (if (p.badSectors[k]?).getD false then ~~~x else x).toNat

/-- The packet as bytes: header, payload padded to sectors, trailer, the whole padded to 64-byte flits. -/
def hawserFlits (p : Packet) : List Byte :=
  let body := p.payload ++ padding 32 p.payload.length
  let b := hawserHeader p ++ body ++ hawserTrailer p body
  b ++ padding 64 b.length

/-- What a header says, whatever its checks say; payload and marks come from the flits behind it. -/
def headerFields (h : List Byte) (payload : List Byte) (bad : List Bool) : Packet :=
  let w0 := dwordAt h 0
  let w1 := dwordAt h 8
  let w3 := dwordAt h 24
  { dst := w0.extractLsb' 52 12, src := w0.extractLsb' 40 12, ddie := w0.extractLsb' 38 2, sdie := w0.extractLsb' 36 2
    op := w0.extractLsb' 30 6, slack := w0.extractLsb' 18 12, late := w0.getLsbD 17, resent := w0.getLsbD 16
    seq := w1.extractLsb' 40 24, ctr := w1.extractLsb' 28 12, part := w1.extractLsb' 20 8
    addr := (dwordAt h 16).extractLsb' 0 56, aux := w3.extractLsb' 32 32, tag := w3.extractLsb' 0 32
    payload := payload, badSectors := bad, ext := none }

/-- The operations of Table 20-3. -/
def knownOp (op : BitVec 6) : Bool := 1 ≤ op.toNat && op.toNat ≤ 0x0C

/-- A reserved OP, an HCRC that does not match, a nonzero reserved field, or a LEN above 4,096 (20 R346). -/
def headerBad? (h : List Byte) : Bool :=
  let w0 := dwordAt h 0
  let w1 := dwordAt h 8
  h.length != 32 || !knownOp (w0.extractLsb' 30 6) || w1.extractLsb' 0 16 != crc16 (h.take 8 ++ leBytes 2 0 ++ h.drop 10) ||
    w0.extractLsb' 13 3 != 0 || w1.extractLsb' 16 4 != 0 || (dwordAt h 16).extractLsb' 56 8 != 0 ||
    4096 < (w0.extractLsb' 0 13).toNat

/-- The packet in a run of flits: none when its header is bad, or the flits are not those that LEN asks for. -/
def readFlits (b : List Byte) : Option Packet :=
  let h := b.take 32
  let len := (dwordAt h 0 |>.extractLsb' 0 13).toNat
  let k := ceilDiv len 32
  let body := (b.drop 32).take (32 * k)
  let bad := (List.range k).map fun i => crc16 (sectorOf body i) != BitVec.ofNat 16 (leNat ((b.drop (32 + 32 * k + 2 * i)).take 2))
  if headerBad? h || b.length != 64 * ceilDiv (32 + 34 * k) 64 then none
  else some (headerFields h (body.take len) bad)

/-! ## The Ultra Ethernet personality (20 R359, R360) -/

/-- The Ledun header extension: slack, LATE, version 1. -/
def ledunExt (slack : BitVec 12) (late : Bool) : BitVec 32 := slack ++ (if late then 1#1 else 0#1) ++ 1#3 ++ 0#16

/-- Slack and LATE of an extension; none when its version is another or its low half is not zero. -/
def readExt (e : BitVec 32) : Option (BitVec 12 × Bool) :=
  if e.extractLsb' 16 3 = 1 ∧ e.extractLsb' 0 16 = 0 then some (e.extractLsb' 20 12, e.getLsbD 19) else none

/-- The operations that the ports of this personality carry: page handoff, peer-page reads and their answers. -/
def ueOp (op : BitVec 6) : Bool := [0x04, 0x07, 0x08, 0x09, 0x0A, 0x0B, 0x0C].contains op.toNat

/-- The delivery mode in which an operation travels: peer-page reads in RUDI, the rest in RUD. -/
def ueMode (op : BitVec 6) : UetMode := if op = 0x0C then .rudi else .rud

end Sys2Proof.Machine
end

