-- ==== Sys2Proof/Machine/Access.lean ====
section
/-! DEFINITION. A fibre's accesses: address spaces and their checks, loads, stores, atomics, ordered accesses and
accesses through fabric windows (07 R126 to R129, R134; 08 R151 to R156; 09 R163 to R174; 20 R345 to R356). -/

namespace Sys2Proof.Machine

/-! ## Address checks (07 R126, 09 R163) -/

/-- The scope that an atomic's address carries (02 R42). -/
def scopeOf (a : DWord) : Nat :=
  match selOf a with
  | 0 => bitsN a.toNat 57 3
  | 9 => 1
  | _ => 0

/-- The selector and must-be-zero checks. -/
def selFault (inAddr : Bool) (a : DWord) : Option Trap :=
  let n := a.toNat
  match selOf a with
  | 0x0 =>
    if inAddr then
      (if 5 ≤ bitsN n 57 3 ∨ bitN n 56 = true then some (trapOf .reservedField 0 a) else none)
    else if bitsN n 56 4 ≠ 0 then some (trapOf .protection 0 a) else none
  | 0x8 => if bitsN n 32 28 ≠ 0 then some (trapOf .protection 0 a) else none
  | 0x9 => if bitsN n 32 25 ≠ 0 then some (trapOf .protection 0 a) else none
  | 0xA => if bitsN n 32 28 ≠ 0 then some (trapOf .protection 0 a) else none
  | 0xB => if bitsN n 32 28 ≠ 0 then some (trapOf .protection 0 a) else none
  | 0xF => some (trapOf .privilege 0 a)
  | _ => some (trapOf .protection 0 a)

/-- The checks of R126 up to the permitted space of R163: selector, must-be-zero bits, alignment, space. -/
def addrFault (inAddr : Bool) (spaces : List Nat) (align : Nat) (a : DWord) : Option Trap :=
  match selFault inAddr a with
  | some t => some t
  | none =>
    if a.toNat % align ≠ 0 then some (trapOf .misalign 0 a)
    else if !spaces.contains (selOf a) then some (trapOf .protection 0x09 a)
    else none

/-! ## Fabric windows (20 R345, R355) -/

/-- The window checks of R355, in order; the failing subcode. The routes are the ports of the issuing core's die, by whose
gateway the packet leaves (20 R343). -/
def State.windowFault (s : State) (die ten : Nat) (x : FabWindow) (va n : Nat) : Option Nat :=
  if !s.fabric.populated.contains x.node then some 0x04
  else if !(s.tenant ten).nodeSet.contains x.node then some 0x04
  else if (List.range 8).all fun p => s.fabric.uePorts.contains (8 * die + p) then some 0x05
  else if x.vbase.toNat * 65536 + x.size.toNat * 65536 < va + n then some 0x06
  else none

/-- The target address of an address in a window. -/
def winTarget (x : FabWindow) (va : Nat) : Nat := (x.rbase.toNat + (va - x.vbase.toNat * 65536)) % 2 ^ 56

/-! ## Where an address lies -/

/-- The location of an access whose address has passed its checks. -/
inductive Place where
  | scratch (wk off : Nat)
  | window (off : Nat)
  | acc (slot off : Nat)
  | glob (va : Nat)
  | fab (x : FabWindow) (va : Nat)
  deriving DecidableEq, Repr

/-- The bounds and peer checks, and the window checks of a fabric address. -/
def placeOf (s : State) (wk : Nat) (w : Workgroup) (win : Nat) (a : DWord) (n : Nat) : Except Trap Place :=
  let off := a.toNat % 2 ^ 32
  match selOf a with
  | 0x8 => if w.extent < off + n then .error (trapOf .scratchBounds 0 a) else .ok (.scratch wk off)
  | 0x9 =>
    let m := bitsN a.toNat 57 3
    if w.hdr.hitch ≤ m then .error (trapOf .peerInvalid 0 a)
    else if w.extent < off + n then .error (trapOf .scratchBounds 0 a)
    else .ok (.scratch ((s.memberKey w m).getD wk) off)
  | 0xA => if 64 * win < off + n then .error (trapOf .window 0 a) else .ok (.window off)
  | 0xB => if w.hdr.accslots ≤ off / 32768 then .error (trapOf .scratchBounds 0 a) else .ok (.acc (off / 32768) (off % 32768))
  | _ =>
    let va := a.toNat % 2 ^ 56
    match s.windowOf w.tenant va with
    | none => .ok (.glob va)
    | some x =>
      match s.windowFault (dieOf w.core) w.tenant x va n with
      | some sub => .error (trapOf .peerInvalid sub a)
      | none => .ok (.fab x va)

/-! ## Global memory through a core (07 R134) -/

/-- What a load of an agent sees of its fibre's stores that are not performed: its own, and those of the uniform pipe; the
uniform pipe sees them all (08 R147, R148). -/
def PendStore.seenBy (p : PendStore) (who : Option Nat) : Bool := inOrder p.agent who

/-- Bytes read at x with what stores lay over them. -/
def overlay (q : List PendStore) (who : Option Nat) (x : Option Nat × Nat) (bs : List Byte) : List Byte :=
  q.foldl (fun bs p =>
    if p.covers x bs.length && p.seenBy who then
      (List.range bs.length).map fun i =>
        if p.loc.2 ≤ x.2 + i ∧ x.2 + i < p.loc.2 + p.bytes.length then (p.bytes[x.2 + i - p.loc.2]?).getD 0
        else (bs[i]?).getD 0
    else bs) bs

/-- A load of n bytes within one sector: its bytes and their physical address. `coherent` reads at the point of coherence;
`q` and `who` give the stores of the fibre that are not performed and the agent that loads. -/
def State.globLoad (s : State) (core ten va n : Nat) (coherent : Bool) (q : List PendStore) (who : Option Nat) (a : DWord) :
    Except Trap (List Byte × Nat × State) :=
  let asid := (s.tenant ten).asid.toNat
  let look := if coherent then (none, s) else s.l1Look core asid va
  match look.1.bind fun l => (l.sec.find (va % 128 / 32)).map fun e => (l.pa, e) with
  | some (pa, bs, bad) =>
    if bad then .error (trapOf .poison 0 a)
    else .ok (overlay q who (none, pa + va % 128) ((bs.drop (va % 32)).take n), pa + va % 128, look.2)
  | none =>
    match look.2.translate (clusterOf core) ten va n false a with
    | .error t => .error t
    | .ok (pa, e, s) =>
      if s.poisoned pa n then .error (trapOf .poison 0 a)
      else
        let r := s.physRead (some core) pa n
        .ok (overlay q who (none, pa) r.1, pa, if coherent then r.2 else r.2.l1Fill core asid va pa e [va % 128 / 32])

/-- A load of 16 bytes makes four accesses of 4 bytes, in ascending address (08 R150); the physical address is that of the
last. -/
def State.globLoads (s : State) (core ten va n : Nat) (coherent : Bool) (q : List PendStore) (who : Option Nat) (a : DWord) :
    Except Trap (List Byte × Nat × State) :=
  if n = 16 then
    overParts (fun k (acc : List Byte × Nat × State) =>
      match acc.2.2.globLoad core ten (va + k.1) k.2 coherent q who a with
      | .error t => .error t
      | .ok r => .ok (acc.1 ++ r.1, r.2.1 - k.1, r.2.2)) [(0, 4), (4, 4), (8, 4), (12, 4)] ([], 0, s)
  else s.globLoad core ten va n coherent q who a

/-- The physical address of a store or atomic, with the permission check of an L1 hit or of the translation. -/
def State.storePa (s : State) (core ten va : Nat) (a : DWord) : Except Trap (Nat × State) :=
  let look := s.l1Look core (s.tenant ten).asid.toNat va
  match look.1 with
  | some l =>
    if l.w then .ok (l.pa + va % 128, look.2.countTraffic ten 32 false) else .error (trapOf .protection 0x02 a)
  | none =>
    match look.2.translate (clusterOf core) ten va 1 true a with
    | .error t => .error t
    | .ok (pa, _, s) => .ok (pa, s)

/-- Stores bytes in parts of at most 8, or of 4 for a q access (08 R150). -/
def State.physStore (s : State) (core pa : Nat) (bs : List Byte) : State :=
  if bs.length = 16 then
    (List.range 4).foldl (fun s k => s.physWrite (some core) (pa + 4 * k) ((bs.drop (4 * k)).take 4)) s
  else s.physWrite (some core) pa bs

/-- A store to global memory. `nc` invalidates the L1 copy of the sector; a release gives its scope, and at wg or hitch
scope takes ownership of the line that it has written and records itself there (08 R155). -/
def State.globStore (s : State) (core ten va : Nat) (bs : List Byte) (nc : Bool) (rel : Option Nat) (a : DWord) :
    Except Trap State :=
  match s.storePa core ten va a with
  | .error t => .error t
  | .ok (pa, s) =>
    let t := s.physStore core pa bs
    let t := (if nc then t.l1Drop core pa else t).afterStore s (some core) (none, pa) bs.length
      (if rel.isSome then .release else .plain)
    .ok (match rel with
      | some k => if k < 2 then t.own core (lineOf pa) true else t
      | none => t)

/-- A PCIe AtomicOp on a word of host memory, for a core, in a state in which the word is known to be there (09 R173). -/
def State.hostRmw (s : State) (core pa : Nat) (host : Bool) (g : Word → Word) (a : DWord) : Except Trap (Word × State) :=
  if !host then .error (trapOf .protection 0x08 a)
  else
    let (fails, s) := s.draw Config.hostAtomicFails
    if fails then .error (trapOf .protection 0x0A a)
    else
      let r := s.physRead (some core) pa 4
      .ok (wordAt r.1 0, r.2.physWrite (some core) pa (leBytes 4 (g (wordAt r.1 0)).toNat))

/-- An atomic on a global word under exclusive ownership (07 R134, 08 R156); `host` says whether a PCIe AtomicOp
exists for the operation (09 R173). -/
def State.globRmw (s : State) (core ten va : Nat) (host : Bool) (g : Word → Word) (a : DWord) : Except Trap (Word × State) :=
  match s.storePa core ten va a with
  | .error t => .error t
  | .ok (pa, s) =>
    if s.poisoned pa 4 then .error (trapOf .poison 0 a)
    else if tierOf pa = .host then
      (s.hostRmw core pa host g a).map fun r => (r.1, r.2.afterStore s (some core) (none, pa) 4 .atomic)
    else
      let r := (s.own core (lineOf pa) false).physRead (some core) pa 4
      .ok (wordAt r.1 0, (r.2.physWrite (some core) pa (leBytes 4 (g (wordAt r.1 0)).toNat)).afterStore s (some core)
        (none, pa) 4 .atomic)

/-- The location of a byte of a workgroup's scratchpad or stash, by the line that the stash holds (08 R145). -/
def State.stashLoc (s : State) (wk off : Nat) : Option Nat × Nat :=
  match (s.wg wk).bind fun w => w.lines.find? fun l => l.off == lineOf off with
  | some l => (none, l.pa + off % 128)
  | none => (some wk, off)

/-- An atomic on a scratchpad or stash word. A stash byte that maps host memory is that global location: its atomic is
performed at the host (08 R145, 09 R173). -/
def State.scratchRmw (s : State) (wk core off : Nat) (host : Bool) (g : Word → Word) (a : DWord) : Except Trap (Word × State) :=
  match s.scratchRead wk off 4 a with
  | .error t => .error t
  | .ok (bs, s) =>
    match s.stashLoc wk off with
    | (none, pa) =>
      if tierOf pa = .host then s.hostRmw core pa host g a
      else (s.scratchWrite wk off (leBytes 4 (g (wordAt bs 0)).toNat) a).map fun s => (wordAt bs 0, s)
    | _ => (s.scratchWrite wk off (leBytes 4 (g (wordAt bs 0)).toNat) a).map fun s => (wordAt bs 0, s)

/-! ## Alias window and accumulator store (07 R128, R129; 12 R222, R240) -/

/-- Byte o of the register alias window. -/
def Fibre.aliasByte (f : Fibre) (o : Nat) : Byte :=
  BitVec.ofNat 8 ((f.xchV (o % 64 / 4) (o / 64)).toNat / 2 ^ (8 * (o % 4)))

def Fibre.aliasRead (f : Fibre) (o n : Nat) : List Byte := (List.range n).map fun k => f.aliasByte (o + k)

/-- Writes bytes through the alias window, after every result in flight (07 R128). -/
def Fibre.aliasWrite (f : Fibre) (o : Nat) : List Byte → Fibre
  | [] => f
  | b :: bs =>
    let i := o % 64 / 4
    let n := o / 64
    Fibre.aliasWrite (f.putV i n (setField (f.xchV i n) (8 * (o % 4)) 8 b.toNat)) (o + 1) bs

/-- An element of a bank. -/
def Bank.elem (b : Bank) (k : Nat) : Word := b.el.getD k 0

/-- The bank that loads and drains read: visible, or in direct mode the only one (12 R223). -/
def AccSlot.seen (x : AccSlot) (direct : Bool) : Bank := if direct then x.work else x.vis

def AccSlot.clear : AccSlot := { work := Bank.clear, vis := Bank.clear }

def Workgroup.slot (w : Workgroup) (k : Nat) : AccSlot := (w.acc[k]?).getD AccSlot.clear

/-- An element lies in a tile. -/
def Tile.covers (t : Tile) (slot k : Nat) : Bool :=
  t.slot == slot && t.r0 ≤ k / 64 && k / 64 < t.r0 + t.m && t.c0 ≤ k % 64 && k % 64 < t.c0 + t.n

/-- In direct mode the last command whose tile holds the element has not completed, or the fibre has not observed it: a
workgroup's commands complete in order, so one that is observed makes the value final whatever came before it (12 R220,
R240, Table 12-7; 00 R7). -/
def Workgroup.unseen (w : Workgroup) (uid slot k : Nat) : Bool :=
  w.hdr.accm &&
    match w.tiles.reverse.find? (·.covers slot k) with
    | some t => !t.done || !t.seenBy.contains uid
    | none => false

/-- A 32-bit element of a slot as it stands. -/
def Workgroup.accNow (w : Workgroup) (slot k : Nat) : Word := ((w.slot slot).seen w.hdr.accm).elem k

/-- A 32-bit element as a fibre reads it: an unobserved one is a free value. -/
def accElem (w : Workgroup) (uid slot k : Nat) (s : State) : Word × State :=
  if w.unseen uid slot k then s.draw Config.freeWord else (w.accNow slot k, s)

/-- Bytes of a slot's visible bank; n bytes at an offset aligned to n. Where R240 leaves the bank of an exchange or `mclr`
open that the fibre has not observed, it is the bank after it; and a load that covers an unobserved element never faults,
though another element of it may stand in a bank with PSN 1 (DESIGN CHOICE, log 93). -/
def accRead (w : Workgroup) (uid slot off n : Nat) (a : DWord) (s : State) : Except Trap (List Byte × State) :=
  let ks := (List.range ((off % 4 + n + 3) / 4)).map (off / 4 + ·)
  if ((w.slot slot).seen w.hdr.accm).psn && !(ks.any (w.unseen uid slot)) then .error (trapOf .poison 0 a)
  else
    let r := ks.foldl (fun (r : List Byte × State) k =>
      let e := accElem w uid slot k r.2
      (r.1 ++ leBytes 4 e.1.toNat, e.2)) ([], s)
    .ok ((r.1.drop (off % 4)).take n, r.2)

/-! ## Packets of the fabric (20 R346 to R349) -/

/-- What a packet carries beyond its numbering; `tag` when it shares a tag already given. -/
structure Send where
  node : BitVec 12
  ddie : BitVec 2
  sdie : Nat
  core : Nat
  op : BitVec 6
  slack : BitVec 12
  late : Bool
  ctr : BitVec 12
  part : BitVec 8
  addr : Nat
  aux : Nat
  payload : List Byte
  bad : List Bool
  /-- bytes of the target that the packet touches -/
  span : Nat
  owner : FabOwner
  /-- the tenant whose request it is (17 Table 17-5) -/
  ten : Nat
  tag : Option Nat
  /-- a release at some scope (08 R153) -/
  rel : Bool
  /-- the agent that makes a fibre's store: a strand, or none for the uniform pipe (08 R144) -/
  agent : Option Nat := none
  deriving DecidableEq, Repr

/-- Where a packet stands for the same-sector rule: the first sector it touches and how many. For PGREL and PGRD the
page index stands for the sector (20 R358); a PGXFER names no sector. -/
def Send.sectors (x : Send) : Nat × Nat :=
  if x.op = 0x09 then (0, 0)
  else if x.op = 0x0B ∨ x.op = 0x0C then (2 ^ 51 + x.addr % 2 ^ 30, 1)
  else (x.addr / 32, (x.addr + max x.span 1 + 31) / 32 - x.addr / 32)

/-- A packet may leave: no earlier packet of this core to one of its sectors is unanswered, and fewer than 1,024
are outstanding to the node from this die (20 R348, R349). -/
def Fabric.maySend (fb : Fabric) (x : Send) : Bool :=
  let k := x.sectors
  !(fb.reqs.any fun q => q.core == x.core && q.node == x.node && q.span != 0 && k.2 != 0 &&
      q.sector < k.1 + k.2 && k.1 < q.sector + q.span) &&
    (fb.reqs.filter fun q => q.node == x.node && q.sdie == x.sdie).length < 1024

/-- The ports of a gateway's die of one personality whose links are up (20 R343). -/
def Fabric.portsUp (fb : Fabric) (die : Nat) (ue : Bool) : List Nat :=
  ((List.range 8).map (8 * die + ·)).filter fun p => !fb.portsDown.contains p && fb.uePorts.contains p == ue

/-- A packet leaves its gateway and stays in custody: by a Hawser port, or where no such port is up, or with `ue`, page
traffic by a port of the Ultra Ethernet personality, with the Ledun extension (20 R359, R360). A gateway with no route
keeps it for the notice (20 R347). -/
def State.launchPkt (s : State) (p : Packet) (ue : Bool) : State :=
  let fb := s.fabric
  let die := p.sdie.toNat
  let ue := ueOp p.op && (ue || (fb.portsUp die false).isEmpty)
  let q : Packet := if ue then { p with ext := some (ledunExt p.slack p.late) } else p
  let stuck := (fb.portsUp die ue).isEmpty
  { s with
    fabric := { fb with nextTag := fb.nextTag + 1, custody := fb.custody.put fb.nextTag { pkt := q, resends := 0, noRoute := stuck } }
    outbox := if stuck then s.outbox else s.outbox ++ [if ue then .uet (ueMode q.op) q else .packet q] }

/-- Slack and LATE of a packet that leaves a gateway or another queue (07 R139, 20 R354): the ticks that it has waited in
queues are a free value. -/
def State.queued (s : State) (slack : BitVec 12) (late : Bool) : (BitVec 12 × Bool) × State :=
  let q := s.draw Config.queueTicks
  let k := agedSlack slack.toNat q.1
  ((BitVec.ofNat 12 k, late || k == 0), q.2)

/-- Sends a packet: it takes the next SEQ of its source gateway and destination node and a tag, stays in the
gateway's custody, and waits for its answer. -/
def State.sendFab (s : State) (x : Send) : Nat × State :=
  let k := s.queued x.slack x.late
  let s := k.2.countTraffic x.ten (max x.span x.payload.length) true
  let fb := s.fabric
  let key := x.sdie * 4096 + x.node.toNat
  let seq := fb.nextSeq.getD key 0
  let tag := x.tag.getD fb.nextTag
  let p : Packet :=
    { dst := x.node, src := fb.own, ddie := x.ddie, sdie := BitVec.ofNat 2 x.sdie, op := x.op, slack := k.1.1,
      late := k.1.2, resent := false, seq := BitVec.ofNat 24 seq, ctr := x.ctr, part := x.part,
      addr := BitVec.ofNat 56 x.addr, aux := BitVec.ofNat 32 x.aux, tag := BitVec.ofNat 32 tag,
      payload := x.payload, badSectors := x.bad, ext := none }
  let q : FabReq :=
    { tag := tag, seq := seq, node := x.node, sdie := x.sdie, core := x.core, sector := x.sectors.1,
      span := x.sectors.2, rel := x.rel, owner := x.owner, agent := x.agent }
  (tag, { s with fabric := { fb with nextSeq := fb.nextSeq.put key ((seq + 1) % 16777216), reqs := fb.reqs ++ [q] } }.launchPkt p false)

/-! ## One access -/

/-- What an access does. -/
inductive AccKind where
  | load
  | store
  | rmw
  deriving DecidableEq, Repr

/-- An access of a strand or of a U word. `aop` is the operation as the fabric numbers it (20 Table 20-3): the AOP
of `atom`, then 8 xchg, 9 cas, 10 add.f32. `scope` is that of an ordered access; an atomic's comes from its
address. -/
structure Acc where
  kind : AccKind
  n : Nat
  data : List Byte
  nc : Bool
  ordered : Bool
  scope : Nat
  aop : Nat
  x : Word
  y : Word
  /-- further operands of a `ratom.add.f32` (09 R174) -/
  more : List Word
  /-- an access of the uniform pipe (08 R144) -/
  uni : Bool
  /-- a plain load into registers, whose value may be fixed later than its word (08 R145, R154) -/
  late : Bool
  deriving DecidableEq, Repr

def Acc.load (n : Nat) (nc : Bool) : Acc :=
  { kind := .load, n := n, data := [], nc := nc, ordered := false, scope := 0, aop := 0, x := 0, y := 0,
    more := [], uni := false, late := false }

/-- A plain load of a load instruction. -/
def Acc.plain (n : Nat) (nc : Bool) : Acc := { Acc.load n nc with late := true }

def Acc.store (data : List Byte) (nc : Bool) : Acc :=
  { kind := .store, n := data.length, data := data, nc := nc, ordered := false, scope := 0, aop := 0, x := 0, y := 0,
    more := [], uni := false, late := false }

def Acc.acq (scope : Nat) : Acc := { Acc.load 4 true with ordered := true, scope := scope }

def Acc.rel (data : List Byte) (scope : Nat) : Acc := { Acc.store data false with ordered := true, scope := scope }

def Acc.rmw (aop : Nat) (x y : Word) : Acc :=
  { kind := .rmw, n := 4, data := [], nc := false, ordered := true, scope := 0, aop := aop, x := x, y := y,
    more := [], uni := false, late := false }

/-- The value an atomic writes and the FSTAT bits it raises (09 R171, R172). -/
def atomNew (aop : Nat) (x y old : Word) : Word × Word :=
  match aop with
  | 0 => plain (old + x)
  | 1 => plain (minI old x)
  | 2 => plain (minN old x)
  | 3 => plain (maxI old x)
  | 4 => plain (maxN old x)
  | 5 => plain (old &&& x)
  | 6 => plain (old ||| x)
  | 7 => plain (old ^^^ x)
  | 8 => plain x
  | 9 => plain (if old = x then y else old)
  | _ => fadd .rne old x

/-- The value an access leaves in memory, its operands applied one after another, and the bits raised. -/
def Acc.new (q : Acc) (old : Word) : Word × Word :=
  q.more.foldl (fun r d => let t := atomNew q.aop d 0 r.1; (t.1, r.2 ||| t.2)) (atomNew q.aop q.x q.y old)

/-- The operations that PCIe performs: FetchAdd, Swap, CAS (09 R173). -/
def hostAop (aop : Nat) : Bool := aop == 0 || aop == 8 || aop == 9

/-- The spaces of Table 9-1. -/
def Acc.spaces (q : Acc) : List Nat :=
  if q.ordered then [0x0, 0x8, 0x9]
  else
    match q.kind with
    | .load => [0x0, 0x8, 0x9, 0xA, 0xB]
    | _ => [0x0, 0x8, 0x9, 0xA]

/-- The scope at which an ordered access synchronises. -/
def Acc.scopeAt (q : Acc) (a : DWord) : Nat := if q.kind = .rmw then scopeOf a else q.scope

/-- A release or an atomic at sys scope (20 R349, R356). -/
def Acc.sysRelease (q : Acc) (a : DWord) : Bool := q.ordered && q.kind != .load && q.scopeAt a == 4

/-- The agent of an access (08 R144). -/
def Acc.agent (q : Acc) (strand : Nat) : Option Nat := if q.uni then none else some strand

/-- How one access ends. -/
inductive AccRes where
  /-- performed: the bytes read, the FSTAT bits raised, the packets that it still waits for, LATE on arrival -/
  | ok (f : Fibre) (s : State) (bytes : List Byte) (flags : Word) (tags : List Nat) (late : Bool)
  | trap (f : Fibre) (s : State) (t : Trap)
  | wait (f : Fibre) (s : State)
  deriving DecidableEq, Repr

/-- The packet of an access through a window. -/
def fabSend (wk : Nat) (w : Workgroup) (f : Fibre) (x : FabWindow) (va strand : Nat) (a : DWord) (q : Acc) : Send :=
  let common : Send :=
    { node := x.node, ddie := x.die, sdie := dieOf w.core, core := w.core, op := 0x03, slack := f.slack, late := false,
      ctr := 0, part := x.part, addr := winTarget x va, aux := q.n, payload := [], bad := [], span := q.n,
      owner := .load wk f.fid f.uid, ten := w.tenant, tag := none, rel := false }
  match q.kind with
  | .load => common
  | .store =>
    { common with
      op := if q.sysRelease a then 0x02 else 0x01
      ctr := x.ctr, aux := 0, payload := q.data
      owner := .store wk f.fid f.uid f.pc a strand w.launch, rel := q.ordered, agent := q.agent strand }
  | .rmw =>
    { common with
      op := 0x05, aux := q.aop * 268435456 + (1 + q.more.length) * 8388608
      payload := leBytes 4 q.x.toNat ++ (if q.aop = 9 then leBytes 4 q.y.toNat else []) ++
        q.more.flatMap fun x => leBytes 4 x.toNat }

/-- A reply to a fabric load or atomic: its bytes, or the fault of R356. -/
def FabReply.answer (r : FabReply) (a : DWord) : Except Trap (List Byte) :=
  match r with
  | .data b => .ok b
  | .poisoned _ => .error (trapOf .poison 0 a)
  | .error _ => .error (trapOf .protection 0x0B a)

/-- An access through a window; a fabric acquire discards L1 copies like any acquire of its scope (08 R153). A store is
sent and the fibre goes on; a load or an atomic is sent, and the word waits for its reply. -/
def fabAccess (wk : Nat) (w : Workgroup) (f : Fibre) (s : State) (x : FabWindow) (va strand : Nat) (a : DWord) (q : Acc) : AccRes :=
  match f.fabWait with
  | some fw =>
    match fw.reply with
    | none => .wait f s
    | some r =>
      let g := { f with fabWait := none }
      match r.answer a with
      | .error t => .trap g s t
      | .ok b =>
        .ok g (if q.ordered && q.kind != .store then s.acquire w.core (q.scopeAt a) else s) b
          (if q.kind = .rmw then (q.new (wordAt b 0)).2 else 0) [] fw.late
  | none =>
    if !s.fabric.maySend (fabSend wk w f x va strand a q) then .wait { f with midStrand := strand } s
    else
      let r := s.sendFab (fabSend wk w f x va strand a q)
      match q.kind with
      | .store => .ok f r.2 [] 0 [r.1] false
      | _ =>
        .wait { f with midStrand := strand, fabWait := some { strand := strand, tag := r.1, late := false, reply := none } } r.2

/-- An unanswered fabric store that a fibre made before its command was issued (08 R158): the command's writes follow
it. -/
def Fabric.storesBefore (fb : Fabric) (own : Owner) (i : Issue) : Bool := fb.reqs.any fun q =>
  q.tag < i.mark &&
    match q.owner with
    | .store k fid uid _ _ _ _ => k == own.wk && fid == own.fid && uid == own.uid
    | _ => false

/-- A store at va of a tenant could satisfy a watch (08 Table 8-2). -/
def State.watched (s : State) (ten va n : Nat) : Bool := ((s.storageOf ten va).map fun x => s.watchedAt x n).getD false

/-- The same at a place of an access. -/
def State.signals (s : State) (ten : Nat) (p : Place) (n : Nat) : Bool :=
  match p with
  | .glob va => s.watched ten va n
  | .scratch k o => s.watchedAt (s.scratchStorage k o) n
  | _ => false

/-- An access must wait for what stands before it: a release at sys scope, or a store that could satisfy a watch, for
every fabric store (20 R349); any other release for those of its own program order (08 R152); an acquire for the releases
of its own program order (08 R153). -/
def State.accessWaits (s : State) (wk : Nat) (f : Fibre) (ten : Nat) (p : Place) (a : DWord) (q : Acc) (who : Option Nat) :
    Bool :=
  (s.fabric.storesOut && (q.sysRelease a || (q.kind != .load && s.signals ten p q.n))) ||
  (q.ordered && q.kind != .load && (s.fabric.ownStores wk f who || s.watchHold f who)) ||
  (q.ordered && q.kind != .store && s.fabric.releaseOut wk f who)

/-- What an access finds when it is performed: an ordered access other than a load, and a store that could satisfy a watch,
come after every store of their program order (08 R152; 09 R170). In deterministic mode no store is left behind (18 R337). -/
def Acc.flushes (q : Acc) (s : State) (w : Workgroup) (p : Place) : Bool :=
  w.hdr.det || (q.ordered && q.kind != .load) || (q.kind != .load && s.signals w.tenant p q.n)

/-- The line that a mapped stash offset holds, as the L1 of the core that has reached it names it (08 R148). -/
def State.refreshStash (s : State) (core k off n : Nat) : State :=
  match (s.wg k).bind fun m => m.lines.find? fun l => l.off == lineOf off with
  | some l => s.refresh core (l.pa + off % 128) n
  | none => s

/-- The walk that made the fill of a stash line fault has read its entries (07 R133, R136). -/
def State.faultFill (s : State) (k off : Nat) (t : Trap) : State :=
  match s.wg k with
  | none => s
  | some m =>
    match m.mapAt off with
    | none => s
    | some x => s.faultWalk m.tenant ((x.va.toNat + (off - x.off)) % 2 ^ 56) t

/-- The fibre after a load of n bytes at a place and location: the loads of its program order from there are fixed, and if
this one may be performed later it joins those whose value is not; one that sees a store of its own program order is
performed at once (08 R148, R154). -/
def Fibre.loaded (f : Fibre) (who : Option Nat) (x loc : Option Nat × Nat) (n : Nat) (late : Bool) : Fibre :=
  let f := f.fixOver who loc n
  if late && !(f.stq.any fun p => p.covers loc n && p.seenBy who) then f.deferLoad who x loc n else f

/-- A plain store to global memory: its address is translated and checked now, and it is performed later. -/
def State.bufferGlob (s : State) (w : Workgroup) (f : Fibre) (who : Option Nat) (va : Nat) (a : DWord) (q : Acc) : AccRes :=
  match s.storePa w.core w.tenant va a with
  | .error t => .trap f (s.faultWalk w.tenant va t) t
  | .ok (pa, s) => .ok (f.buffer who (none, pa) (none, pa) q.data q.nc) s [] 0 [] false

/-- A plain store to scratchpad or stash: a mapped line is filled and checked now, and the store is performed later. -/
def State.bufferScratch (s : State) (f : Fibre) (who : Option Nat) (k o : Nat) (a : DWord) (q : Acc) : AccRes :=
  match s.stashLine k o a with
  | .error t => .trap f (s.faultFill k o t) t
  | .ok (none, s) => .ok (f.buffer who (some k, o) (some k, o) q.data q.nc) s [] 0 [] false
  | .ok (some l, s) =>
    if !l.w then .trap f s (trapOf .protection 0x02 a)
    else .ok (f.buffer who (some k, o) (none, l.pa + o % 128) q.data q.nc) s [] 0 [] false

/-- An access to scratchpad or stash. -/
def scratchAccess (w : Workgroup) (f : Fibre) (s : State) (who : Option Nat) (k o : Nat) (a : DWord) (q : Acc) (later : Bool) :
    AccRes :=
  match q.kind with
  | .load =>
    (match s.scratchRead k o q.n a with
     | .error t => .trap f (s.faultFill k o t) t
     | .ok (b, s) =>
       let s := s.refreshStash w.core k o q.n
       let loc := s.stashLoc k o
       .ok (f.loaded who (some k, o) loc q.n (later && q.late)) (if q.ordered then s.acquire w.core q.scope else s)
         (overlay f.stq who loc b) 0 [] false)
  | .store =>
    if later then s.bufferScratch f who k o a q
    else
      (match s.scratchWrite k o q.data a with
       | .error t => .trap f (s.faultFill k o t) t
       | .ok t =>
         .ok f ((t.refreshStash w.core k o q.n).afterStore s (some w.core) (s.scratchStorage k o) q.data.length
           (if q.ordered then .release else .plain)) [] 0 [] false)
  | .rmw =>
    match s.scratchRmw k w.core o (hostAop q.aop) (fun old => (q.new old).1) a with
    | .error t => .trap f (s.faultFill k o t) t
    | .ok (old, t) =>
      .ok f (((t.refreshStash w.core k o q.n).afterStore s (some w.core) (s.scratchStorage k o) 4 .atomic).acquire w.core
        (scopeOf a)) (leBytes 4 old.toNat) (q.new old).2 [] false

/-- An access to global memory of the package. -/
def globAccess (w : Workgroup) (f : Fibre) (s : State) (who : Option Nat) (va : Nat) (a : DWord) (q : Acc) (later : Bool) :
    AccRes :=
  match q.kind with
  | .load =>
    (match s.globLoads w.core w.tenant va q.n q.nc f.stq who a with
     | .error t => .trap f (s.faultWalk w.tenant va t) t
     | .ok (b, pa, s) =>
       .ok (f.loaded who (none, pa) (none, pa) q.n (later && q.late)) (if q.ordered then s.acquire w.core q.scope else s) b 0
         [] false)
  | .store =>
    if later then s.bufferGlob w f who va a q
    else
      (match s.globStore w.core w.tenant va q.data q.nc (if q.ordered then some q.scope else none) a with
       | .error t => .trap f (s.faultWalk w.tenant va t) t
       | .ok s => .ok f s [] 0 [] false)
  | .rmw =>
    match s.globRmw w.core w.tenant va (hostAop q.aop) (fun old => (q.new old).1) a with
    | .error t => .trap f (s.faultWalk w.tenant va t) t
    | .ok (old, s) =>
      .ok f (s.acquire w.core (scopeOf a)) (leBytes 4 old.toNat) (q.new old).2 [] false

/-- The location of an access, for what releases leave there. -/
def Place.point (p : Place) (s : State) (ten : Nat) : Option SyncPoint :=
  match p with
  | .glob va => (s.storageOf ten va).map fun x => .mem x.1 x.2
  | .scratch k o => some (.mem (s.scratchStorage k o).1 (s.scratchStorage k o).2)
  | _ => none

/-- What an ordered access that has been performed takes up and leaves at its location (08 R152). -/
def AccRes.synced (r : AccRes) (w : Workgroup) (p : Place) (q : Acc) : AccRes :=
  match r with
  | .ok f s b fl tags late =>
    .ok f (match if q.ordered then p.point s w.tenant else none with
      | some x => s.syncAt w f.uid (q.kind != .store) (q.kind != .load) x
      | none => s) b fl tags late
  | r => r

/-- One access of a strand at an address, after the checks of R126 and R163. -/
def access (wk : Nat) (w : Workgroup) (strand : Nat) (f : Fibre) (s : State) (a : DWord) (q : Acc) : AccRes :=
  match addrFault (q.kind = .rmw) q.spaces q.n a with
  | some t => .trap f s t
  | none =>
    match placeOf s wk w f.win a q.n with
    | .error t => .trap f s t
    | .ok p =>
      let who := q.agent strand
      if q.sysRelease a && f.fabErr then .trap { f with fabErr := false } s (trapOf .protection 0x0C a)
      else if s.accessWaits wk f w.tenant p a q who then .wait { f with midStrand := strand } s
      else
        let now := q.flushes s w p
        let r := if now then f.flush who w.core s else (f, s)
        match p with
        | .fab x va => fabAccess wk w (if q.kind = .load then r.1 else r.1.fixLoads who) r.2 x va strand a q
        | .window o =>
          (match q.kind with
           | .load => .ok (r.1.fixLoads none) r.2 (r.1.aliasRead o q.n) 0 [] false
           | _ => .ok ((r.1.fixLoads none).aliasWrite o q.data) r.2 [] 0 [] false)
        | .acc k o =>
          (match accRead w f.uid k o q.n a r.2 with
           | .error t => .trap r.1 r.2 t
           | .ok (b, s) => .ok r.1 s b 0 [] false)
        | .scratch k o => (scratchAccess w r.1 r.2 who k o a q (!now)).synced w p q
        | .glob va => (globAccess w r.1 r.2 who va a q (!now)).synced w p q

/-! ## Counting (08 R151, 09 R163) -/

/-- Counts the accesses that a memory instruction has made, each with a mark for LATE on arrival. Accesses through the
alias window are register accesses and count nothing (07 R128). A word that goes on after a wait or a fault stays the one
instruction it is: its accesses join those that still stand; `whole` says that it retires now. -/
def Fibre.count (f : Fibre) (s : State) (ld st : Bool) (accs : List (DWord × Bool)) (tags : List Nat) (whole : Bool) : Fibre :=
  let real := accs.filter fun x => selOf x.1 != 0xA
  let mine (x : Outstanding) : Bool := !x.whole && x.pc == f.pc
  let again := f.lateSeen == some f.pc
  let new := (f.stq.filter fun p => !p.named).map (·.serial)
  let loads := (f.lq.filter fun x => !(f.outs.any fun y => y.loads.contains x.serial)).map (·.serial)
  let g := if whole && again then { f with lateSeen := none } else f
  let g := if new.isEmpty then g else { g with stq := g.stq.map fun p => { p with named := true } }
  if f.outs.any mine then
    { g with outs := f.outs.map fun x =>
        if mine x then
          { x with
            accs := x.accs ++ real, tags := x.tags ++ tags, stores := x.stores ++ new, loads := x.loads ++ loads
            whole := whole }
        else x }
  else if real.isEmpty then g
  else
    { g with outs := f.outs ++ [{ uid := f.uid, ld := ld, st := st, slack := f.slack, tick := s.tick, pc := f.pc,
                                  accs := real, tags := tags, stores := new, loads := loads, whole := whole,
                                  again := again }] }

/-- LDO and STO of a fibre (03 Table 3-5). -/
def Fibre.ldo (f : Fibre) : Nat := (f.outs.filter (·.ld)).length

def Fibre.sto (f : Fibre) : Nat := (f.outs.filter (·.st)).length

/-- An access at this address is token-class (18 R332): selectors 0x0 and 0x9, but for loads of pages with W = 0. An address
in a fabric window has no translation (20 R345). -/
def tokenClass (s : State) (w : Workgroup) (load : Bool) (a : DWord) : Bool :=
  selOf a == 0x9 ||
    (selOf a == 0x0 &&
      (!load || (s.windowOf w.tenant (a.toNat % 2 ^ 56)).isSome ||
        (match s.walk w.tenant (a.toNat % 2 ^ 56) a with
         | .ok e => e.w
         | .error _ => true)))

/-- A word with these addresses must wait for the token. -/
def tokenWait (s : State) (w : Workgroup) (load : Bool) (as : List DWord) : Bool :=
  s.tokenStall w && as.any fun a => tokenClass s w load a

/-! ## Sizes (02 R40) and register values (09 R165) -/

/-- Bytes of an access by SZ. -/
def szBytes (z : BitVec 3) : Nat :=
  match z.toNat with
  | 0 => 1
  | 1 => 1
  | 2 => 2
  | 3 => 2
  | 4 => 4
  | 5 => 8
  | _ => 16

/-- Registers of an access by SZ. -/
def szRegs (z : BitVec 3) : Nat :=
  match z.toNat with
  | 5 => 2
  | 6 => 4
  | _ => 1

/-- The value of a single register by Table 9-2. -/
def loadWord (z : BitVec 3) (b : List Byte) : Word :=
  let x := leNat b
  match z.toNat with
  | 1 => if 128 ≤ x then BitVec.ofNat 32 (x + 4294967040) else BitVec.ofNat 32 x
  | 3 => if 32768 ≤ x then BitVec.ofNat 32 (x + 4294901760) else BitVec.ofNat 32 x
  | _ => BitVec.ofNat 32 x

end Sys2Proof.Machine
end

