-- ==== Sys2Proof/Machine/LaneMem.lean ====
section
/-! DEFINITION. The memory words of the lane set (09 R166, R168 to R174). -/

namespace Sys2Proof.Machine

/-- The strand loop of a memory word: fibre, state, the packets it waits for, and the accesses made, each with a mark
for LATE on arrival. -/
structure MemLoop where
  f : Fibre
  s : State
  tags : List Nat
  accs : List (DWord × Bool)
  deriving DecidableEq, Repr

/-- Why a strand loop stopped before its last strand. -/
inductive Stop where
  | trap (t : Trap) (strand : Nat)
  | wait
  deriving DecidableEq, Repr

/-- The lane registers as a fibre reads them now, every result waited for. -/
def Fibre.lanesNow (f : Fibre) : Vector (Vector Word 16) 64 :=
  Vector.ofFn fun o => Vector.ofFn fun i => f.readNow (.v o.val i.val)

/-- A load through the alias window reads the registers as they stood before the word: no strand sees what another has done
in it (04 R79, 07 R128). -/
def AccRes.aliased (r : AccRes) (old : Fibre) (a : DWord) (q : Acc) : AccRes :=
  match r with
  | .ok f s b fl tags late =>
    .ok f s (if selOf a = 0xA ∧ q.kind = .load then old.aliasRead (a.toNat % 2 ^ 32) q.n else b) fl tags late
  | r => r

/-- The fibre as it stood before the word that it goes on with. -/
def Fibre.beforeLanes (f : Fibre) : Fibre :=
  match f.lanes with
  | some v => { f with v := v, pend := [] }
  | none => f

/-- Makes the accesses of the strands in ascending order; strands below `midStrand` are done; `old` is the fibre before the
word. -/
def memLoop (wk : Nat) (w : Workgroup) (old : Fibre) (addr : Nat → Nat → DWord) (req : Nat → Nat → Acc)
    (deliver : Fibre → Nat → List Byte → Fibre) : List Nat → Nat → MemLoop → MemLoop × Option Stop
  | [], _, m => (m, none)
  | i :: is, j, m =>
    if i < m.f.midStrand then memLoop wk w old addr req deliver is (j + 1) m
    else
      match (access wk w i m.f m.s (addr i j) (req i j)).aliased old (addr i j) (req i j) with
      | .trap f s t => ({ m with f := f, s := s }, some (.trap t i))
      | .wait f s => ({ m with f := f, s := s }, some .wait)
      | .ok f s b fl tags late =>
        memLoop wk w old addr req deliver is (j + 1)
          { f := (deliver f i b).sticky fl, s := s, tags := m.tags ++ tags, accs := m.accs ++ [(addr i j, late)] }

/-- Ends a memory word: its accesses are counted, whether or not a strand faulted. One that waits in the middle keeps the
lane registers as they stood before it. -/
def memEnd (old : Fibre) (ld st : Bool) (r : MemLoop × Option Stop) : Res :=
  let g := r.1.f.count r.1.s ld st r.1.accs r.1.tags r.2.isNone
  match r.2 with
  | none => .done g r.1.s
  | some (.trap t i) => .trap g r.1.s t i
  | some .wait => .wait { g with lanes := some old.lanesNow } r.1.s .held

/-- The effective address of LM, LO and LA for strand i at position j (02 R36). -/
def Fibre.laneAddr (f : Fibre) (b a : BitVec 6) (i j : Nat) : DWord := f.laneS64 b.toNat + zext64 (f.getV i j a.toNat)

/-- A memory word of the lane set with BASE b and offset register a. `req` gives the access of a strand. -/
def laneMem (u : Use) (b a : BitVec 6) (ld st : Bool) (req : Fibre → Nat → Nat → Acc)
    (deliver : Fibre → Nat → List Byte → Fibre) (s : State) : Out :=
  word u noPre (fun wk w act f s =>
    let addr := f.laneAddr b a
    let as := overStrands (fun i j l => l ++ [addr i j]) act 0 ([] : List DWord)
    if tokenWait s w (ld && !st && !(req f 0 0).ordered) as then .wait f s .token
    else
      let old := f.beforeLanes
      memEnd old ld st (memLoop wk w old addr (req f) deliver act 0 { f := f, s := s, tags := [], accs := [] })) s

/-- Table 9-2: the bytes of a load into vD and its group. -/
def Fibre.deliverV (f : Fibre) (z : BitVec 3) (d : BitVec 6) (i : Nat) (b : List Byte) : Fibre :=
  if szRegs z = 1 then f.putV i d.toNat (loadWord z b)
  else (List.range (szRegs z)).foldl (fun f k => f.putV i (d.toNat + k) (wordAt b (4 * k))) f

/-- The registers of a load into vD and its group, in ascending address, as one strand names them. -/
def Fibre.groupV (f : Fibre) (z : BitVec 3) (d : BitVec 6) (i : Nat) : List Reg :=
  (List.range (szRegs z)).map fun k => .v (f.phys (d.toNat + k)) i

/-- R165: the low bytes of vD and its group. -/
def Fibre.sourceV (f : Fibre) (z : BitVec 3) (d : BitVec 6) (i j : Nat) : List Byte :=
  ((List.range (szRegs z)).flatMap fun k => leBytes 4 (f.getV i j (d.toNat + k)).toNat).take (szBytes z)

/-- `ld` and `ld.nc`. -/
def laneLoad (o : SGZDAB) (nc : Bool) (s : State) : Out :=
  laneMem (lUse o.s o.g [.v o.a.toNat, .s2 o.b.toNat] (vGroup o.d (szRegs o.z))) o.b o.a true false
    (fun _ _ _ => Acc.plain (szBytes o.z) nc)
    (fun f i b => (f.deliverV o.z o.d i b).awaitLoad o.z (f.groupV o.z o.d i)) s

/-- `st` and `st.nc`. -/
def laneStore (o : SGZDAB) (nc : Bool) (s : State) : Out :=
  laneMem (lUse o.s o.g ([.v o.a.toNat, .s2 o.b.toNat] ++ vGroup o.d (szRegs o.z)) []) o.b o.a false true
    (fun f i j => Acc.store (f.sourceV o.z o.d i j) nc) (fun f _ _ => f) s

/-- `ld` (09 R166). -/
def execLLd (o : SGZDAB) (s : State) : Out := laneLoad o false s

/-- `st` (09 R166). -/
def execLSt (o : SGZDAB) (s : State) : Out := laneStore o false s

/-- `ld.nc` (09 R168). -/
def execLLdNc (o : SGZDAB) (s : State) : Out := laneLoad o true s

/-- `st.nc` (09 R168). -/
def execLStNc (o : SGZDAB) (s : State) : Out := laneStore o true s

/-- `ld.acq` (09 R170). -/
def execLLdAcq (o : SGKDAB) (s : State) : Out :=
  laneMem (lUse o.s o.g [.v o.a.toNat, .s2 o.b.toNat] [.v o.d.toNat]) o.b o.a true false
    (fun _ _ _ => Acc.acq o.k.toNat) (fun f i b => f.putV i o.d.toNat (wordAt b 0)) s

/-- `st.rel` (09 R170). -/
def execLStRel (o : SGKDAB) (s : State) : Out :=
  laneMem (lUse o.s o.g [.v o.a.toNat, .s2 o.b.toNat, .v o.d.toNat] []) o.b o.a false true
    (fun f i j => Acc.rel (leBytes 4 (f.getV i j o.d.toNat).toNat) o.k.toNat) (fun f _ _ => f) s

/-- `atom` and `atomx` (09 R171, R172); a `cas` reads vD + 1 as well. -/
def laneAtom (o : SGDAB) (aop : Nat) (s : State) : Out :=
  laneMem (lUse o.s o.g ([.v o.a.toNat, .s2 o.b.toNat, .v o.d.toNat] ++ if aop = 9 then [.v (o.d.toNat + 1)] else [])
      [.v o.d.toNat]) o.b o.a true true
    (fun f i j => Acc.rmw aop (f.getV i j o.d.toNat) (if aop = 9 then f.getV i j (o.d.toNat + 1) else 0))
    (fun f i b => f.putV i o.d.toNat (wordAt b 0)) s

/-- `atom` (09 R171). -/
def execLAtom (o : SGODAB) (s : State) : Out := laneAtom ⟨o.s, o.g, o.d, o.a, o.b⟩ o.o.toNat s

/-- `atomx.xchg` (09 R172). -/
def execLAtomxXchg (o : SGDAB) (s : State) : Out := laneAtom o 8 s

/-- `atomx.cas` (09 R172). -/
def execLAtomxCas (o : SGDAB) (s : State) : Out := laneAtom o 9 s

/-- `atomx.add.f32` (09 R172). -/
def execLAtomxAddF32 (o : SGDAB) (s : State) : Out := laneAtom o 10 s

/-- The combined operand of a `ratom` (09 R174). -/
def ratomComb (aop : Nat) : List Word → Word
  | [] => 0
  | d :: ds => ds.foldl (fun r x => (atomNew aop x 0 r).1) d

/-- The values that the strands fetch, and the flags of their rebuild (09 R174). -/
def ratomFetch (aop : Nat) : List Word → Word → Word → List Word → List Word × Word
  | [], _, fl, out => (out, fl)
  | d :: ds, run, fl, out =>
    let r := atomNew aop d 0 run
    ratomFetch aop ds r.1 (fl ||| r.2) (out ++ [run])

/-- The one access of a `ratom`. -/
def ratomAcc (aop : Nat) (ds : List Word) : Acc :=
  if aop = 10 then { Acc.rmw 10 (ds.head?.getD 0) 0 with more := ds.drop 1 } else Acc.rmw aop (ratomComb aop ds) 0

/-- `ratom` (09 R174): one atomic on the location ReadS64(BASE), every fault before any strand. -/
def ratomWord (sc g : BitVec 2) (d b : BitVec 6) (aop : Nat) (s : State) : Out :=
  word (xUse sc g [.s2 b.toNat, .v d.toNat] [.v d.toNat]) noPre (fun wk w act f s =>
    let a := f.laneS64 b.toNat
    let ds := act.map fun i => f.xchV i d.toNat
    if tokenWait s w false [a] then .wait f s .token
    else
      match access wk w 0 f s a (ratomAcc aop ds) with
      | .trap f s t => .trap f s t 0
      | .wait f s => .wait f s .held
      | .ok g s by_ _ tags late =>
        let r := ratomFetch aop ds (wordAt by_ 0) 0 []
        let h := (act.zip r.1).foldl (fun h e => h.putV e.1 d.toNat e.2) g
        .done ((h.sticky r.2).count s true true [(a, late)] tags true) s) s

/-- `ratom` with an integer operation (09 R174). -/
def execLRatom (o : SGODB) (s : State) : Out := ratomWord o.s o.g o.d o.b o.o.toNat s

/-- `ratom.add.f32` (09 R174). -/
def execLRatomAddF32 (o : SGDB) (s : State) : Out := ratomWord o.s o.g o.d o.b 10 s

/-- The request of one strand of a `pf` (09 R169): a line that translates is brought into the L1. -/
def prefetch (w : Workgroup) (a : DWord) (s : State) : State :=
  if selOf a ≠ 0 then s
  else
    let va := a.toNat % 2 ^ 56
    match s.windowOf w.tenant va with
    | some _ => s
    | none =>
      match s.translate (clusterOf w.core) w.tenant va 128 false a with
      | .error t => s.faultWalk w.tenant va t
      | .ok (pa, e, s) => (s.fillRead pa).l1Fill w.core (s.tenant w.tenant).asid.toNat va pa e [0, 1, 2, 3]

/-- The strands of a `pf` in order: the selector and must-be-zero faults, and PROTECTION for the alias window. -/
def pfLoop (w : Workgroup) (addr : Nat → Nat → DWord) : List Nat → Nat → State → State × Option (Trap × Nat)
  | [], _, s => (s, none)
  | i :: is, j, s =>
    let a := addr i j
    match selFault false a with
    | some t => (s, some (t, i))
    | none =>
      if selOf a = 0xA then (s, some (trapOf .protection 0x09 a, i)) else pfLoop w addr is (j + 1) (prefetch w a s)

/-- `pf` (09 R169). -/
def execLPf (o : SGAB) (s : State) : Out :=
  word (lUse o.s o.g [.v o.a.toNat, .s2 o.b.toNat] []) noPre (fun _ w act f s =>
    let r := pfLoop w (f.laneAddr o.b o.a) act 0 s
    match r.2 with
    | none => .done f r.1
    | some (t, i) => .trap f r.1 t i) s

end Sys2Proof.Machine
end

