-- ==== Sys2Proof/Machine/UniMem.lean ====
section
/-! DEFINITION. The memory words of the uniform set, cache and stash control, counter waits, and how accesses
complete (03 R71; 07 R132, R142, R143; 08 R151; 09 R167, R170 to R178; 18 R320). -/

namespace Sys2Proof.Machine

/-- A memory word of the uniform set: one access at an address of the fibre. -/
def uniMem (u : Use) (ld st : Bool) (addr : Fibre → DWord) (req : Fibre → Acc)
    (deliver : Fibre → List Byte → Fibre) (s : State) : Out :=
  word u noPre (fun wk w _ f s =>
    let a := addr f
    let q := { req f with uni := true }
    if tokenWait s w (ld && !st && !q.ordered) [a] then .wait f s .token
    else
      match access wk w 0 f s a q with
      | .trap f s t => .trap f s t 0
      | .wait f s => .wait f s .held
      | .ok g s b fl tags late => .done (((deliver g b).sticky fl).count s ld st [(a, late)] tags true) s) s

/-- The effective address of UM (03 R71). -/
def Fibre.umAddr (f : Fibre) (z : BitVec 3) (b o : BitVec 6) : DWord :=
  f.getS64 b.toNat + BitVec.ofNat 64 (o.toNat * szBytes z)

/-- The effective address of UO (02 R36): base pair and offset register. -/
def Fibre.uoAddr (f : Fibre) (b a : BitVec 6) : DWord := f.getS64 b.toNat + zext64 (f.getS a.toNat)

/-- sD or the pair sD, by size (03 R71). -/
def uniData (z : BitVec 3) (d : BitVec 6) : List Opnd := if szRegs z = 1 then [.s d.toNat] else [.s2 d.toNat]

/-- The registers of a load of the uniform set that can take a value later: s0 takes none, and a bound port passes its value
on as the word retires (01 R11, 09 R183). -/
def Fibre.groupS (f : Fibre) (z : BitVec 3) (d : BitVec 6) : List Reg :=
  if d = 0 ∨ (f.bound d.toNat).isSome then [] else (List.range (szRegs z)).map fun k => .s (d.toNat + k)

/-- `ld` of the uniform set (03 R71, 09 R167). -/
def execULd (o : SGZDBO) (s : State) : Out :=
  uniMem (uUse o.s o.g [.s2 o.b.toNat] (uniData o.z o.d)) true false (fun f => f.umAddr o.z o.b o.o)
    (fun _ => Acc.plain (szBytes o.z) false)
    (fun f b => (if szRegs o.z = 1 then f.putS o.d.toNat (loadWord o.z b) else f.putS64 o.d.toNat (dwordAt b 0)).awaitLoad
      o.z (f.groupS o.z o.d)) s

/-- `st` of the uniform set (03 R71, 09 R167). -/
def execUSt (o : SGZDBO) (s : State) : Out :=
  uniMem (uUse o.s o.g (.s2 o.b.toNat :: uniData o.z o.d) []) false true (fun f => f.umAddr o.z o.b o.o)
    (fun f => Acc.store ((if szRegs o.z = 1 then leBytes 4 (f.getS o.d.toNat).toNat
      else leBytes 8 (f.getS64 o.d.toNat).toNat).take (szBytes o.z)) false)
    (fun f _ => f) s

/-- `ld.acq` of the uniform set (09 R170). -/
def execULdAcq (o : SGKDAB) (s : State) : Out :=
  uniMem (uUse o.s o.g [.s o.a.toNat, .s2 o.b.toNat] [.s o.d.toNat]) true false (fun f => f.uoAddr o.b o.a)
    (fun _ => Acc.acq o.k.toNat) (fun f b => f.putS o.d.toNat (wordAt b 0)) s

/-- `st.rel` of the uniform set (09 R170). -/
def execUStRel (o : SGKDAB) (s : State) : Out :=
  uniMem (uUse o.s o.g [.s o.a.toNat, .s2 o.b.toNat, .s o.d.toNat] []) false true (fun f => f.uoAddr o.b o.a)
    (fun f => Acc.rel (leBytes 4 (f.getS o.d.toNat).toNat) o.k.toNat) (fun f _ => f) s

/-- What an atomic of the uniform set reads of its D operand: sD, and for a `cas` sD + 1 as well; with D = 0 the comparand
is zero and s1 alone is read (02 R41). -/
def atomData (aop : Nat) (d : BitVec 6) : Opnd :=
  if aop = 9 then (if d = 0 then .s 1 else .s2 d.toNat) else .s d.toNat

/-- `atom` and `atomx` of the uniform set; a `cas` reads sD + 1 as well (09 R171, R172). -/
def uniAtom (o : SGDAB) (aop : Nat) (s : State) : Out :=
  uniMem (uUse o.s o.g [.s o.a.toNat, .s2 o.b.toNat, atomData aop o.d] [.s o.d.toNat])
    true true (fun f => f.uoAddr o.b o.a)
    (fun f => Acc.rmw aop (f.getS o.d.toNat) (if aop = 9 then f.getS (o.d.toNat + 1) else 0))
    (fun f b => f.putS o.d.toNat (wordAt b 0)) s

/-- `atom` (09 R171). -/
def execUAtom (o : SGODAB) (s : State) : Out := uniAtom ⟨o.s, o.g, o.d, o.a, o.b⟩ o.o.toNat s

/-- `atomx.xchg` (09 R172). -/
def execUAtomxXchg (o : SGDAB) (s : State) : Out := uniAtom o 8 s

/-- `atomx.cas` (09 R172). -/
def execUAtomxCas (o : SGDAB) (s : State) : Out := uniAtom o 9 s

/-- `atomx.add.f32` (09 R172). -/
def execUAtomxAddF32 (o : SGDAB) (s : State) : Out := uniAtom o 10 s

/-! ## `wb` and `inv` (09 R175) -/

/-- The length operand of `wb`, `inv`, `smap` and `sunmap`. -/
def Fibre.lenOp (f : Fibre) (i : BitVec 1) (b : BitVec 6) : Nat := if i = 1 then 128 * b.toNat else (f.getS b.toNat).toNat

/-- Removes a line from the ownership buffer of a core. -/
def State.releaseLine (s : State) (c line : Nat) : State :=
  if (s.core c).owns line then s.putCore c ((s.core c).yieldLine line) else s

/-- Writes back, or writes back and invalidates, the stash line at an offset of the workgroup; the flag says that
something was written back. -/
def stashLineCtl (wk : Nat) (drop : Bool) (off : Nat) (r : Bool × State) : Bool × State :=
  match r.2.wg wk with
  | none => r
  | some w =>
    match w.lines.find? fun l => l.off == off with
    | none => r
    | some l => (r.1 || l.dirty, r.2.recall (!drop) l.pa 128)

/-- The same for a global line: stash lines of this core that hold it, its owned line, and for `inv` L1 copies. A line in a
fabric window is held nowhere (20 R345). -/
def globalLineCtl (core ten : Nat) (drop : Bool) (va : Nat) (r : Bool × State) : Bool × State :=
  if (r.2.windowOf ten va).isSome then r
  else
  match r.2.walk ten va 0 with
  | .error _ => (r.1, r.2.afterWalk ten va)
  | .ok e =>
    let r := (r.1, r.2.afterWalk ten va)
    let pa := lineOf (e.at va)
    let held := r.2.wgs.vals.any fun w => w.core == core && w.lines.any fun l => l.pa == pa
    let wrote := (r.2.wgs.vals.any fun w => w.core == core && w.lines.any fun l => l.pa == pa && l.dirty) ||
      (r.2.core core).owns pa
    let s := if held then r.2.recall (!drop) pa 128 else r.2
    (r.1 || wrote, s.releaseLine core pa)

/-- Discards the core's plain copies of a range of a tenant's addresses. -/
def State.dropRange (s : State) (core ten va n : Nat) : State :=
  let asid := (s.tenant ten).asid.toNat
  s.putCore core { s.core core with
    l1 := (s.core core).l1.filter fun l => !(l.asid == asid && va ≤ l.va && l.va < va + n) }

/-- The range checks of `wb` and `inv`. -/
def rangeFault (a : DWord) (len : Nat) : Option Trap :=
  match selFault false a with
  | some t => some t
  | none =>
    if a.toNat % 128 ≠ 0 ∨ len % 128 ≠ 0 then some (trapOf .misalign 0 a)
    else if selOf a = 0x0 ∨ selOf a = 0x8 then none
    else some (trapOf .protection 0x09 a)

/-- The lines of a range. -/
def linesOf (a n : Nat) : List Nat := (List.range (n / 128)).map fun k => a + 128 * k

/-- `wb` and `inv`; an instruction that wrote something back counts in STO. -/
def rangeCtl (o : SGIAB) (drop : Bool) (s : State) : Out :=
  word (uUse o.s o.g (.s2 o.a.toNat :: opB o.i o.b) []).syncing noPre (fun wk w _ f s =>
    let a := f.getS64 o.a.toNat
    let len := f.lenOp o.i o.b
    if s.tokenStall w && (selOf a == 0x0 || selOf a == 0x9) then .wait f s .token
    else
    match rangeFault a len with
    | some t => .trap f s t 0
    | none =>
      if selOf a = 0x8 then
        let r := (linesOf (a.toNat % 2 ^ 32) len).foldl (fun r off => stashLineCtl wk drop off r) (false, s)
        .done (if r.1 then f.count r.2 false true [(a, false)] [] true else f) r.2
      else
        let va := a.toNat % 2 ^ 56
        let r := (linesOf va len).foldl (fun r va => globalLineCtl w.core w.tenant drop va r) (false, s)
        let s := if drop then r.2.dropRange w.core w.tenant va len else r.2
        .done (if r.1 then f.count s false true [(a, false)] [] true else f) s) s

/-- `wb` (09 R175). -/
def execWb (o : SGIAB) (s : State) : Out := rangeCtl o false s

/-- `inv` (09 R175). -/
def execInv (o : SGIAB) (s : State) : Out := rangeCtl o true s

/-! ## `smap` and `sunmap` (09 R176, R177) -/

/-- Two ranges meet. -/
def meets (a n b m : Nat) : Bool := a < b + m && b < a + n

/-- The faults of `smap`, in order. TADDR is the global address whichever operand is at fault: R176 names none (DESIGN
CHOICE, log 87). -/
def smapFault (s : State) (w : Workgroup) (off : Nat) (a : DWord) (len : Nat) : Option Trap :=
  let va := a.toNat % 2 ^ 56
  if off % 128 ≠ 0 ∨ a.toNat % 128 ≠ 0 ∨ len % 128 ≠ 0 ∨ len = 0 then some (trapOf .misalign 0 a)
  else if selOf a = 0xF then some (trapOf .privilege 0 a)
  else if selOf a ≠ 0 then some (trapOf .protection 0x09 a)
  else if bitsN a.toNat 56 4 ≠ 0 then some (trapOf .protection 0 a)
  else if (s.tenant w.tenant).windows.toList.any fun x =>
      x.v && meets va len (x.vbase.toNat * 65536) (x.size.toNat * 65536) then some (trapOf .protection 0x0D a)
  else if off < w.hdr.scratch ∨ w.extent < off + len then some (trapOf .scratchBounds 0 a)
  else if w.maps.any fun m => meets off len m.off m.len || meets va len m.va.toNat m.len then
    some (trapOf .reservedField 0x04 0)
  else if 16 ≤ w.maps.length then some (trapOf .reservedField 0x05 0)
  else none

/-- `smap` (09 R176). -/
def execSmap (o : SGIDAB) (s : State) : Out :=
  word (uUse o.s o.g ([.s2 o.a.toNat] ++ opB o.i o.b ++ [.s o.d.toNat]) []).syncing noPre (fun wk w _ f s =>
    if s.tokenStall w then .wait f s .token
    else
      let off := (f.getS o.d.toNat).toNat
      let a := f.getS64 o.a.toNat
      let len := f.lenOp o.i o.b
      match smapFault s w off a len with
      | some t => .trap f s t 0
      | none =>
        .done f (s.updWg wk fun w => { w with
          maps := w.maps ++ [{ off := off, len := len, va := BitVec.ofNat 64 (a.toNat % 2 ^ 56), filled := [] }]
          poison := w.poison.filter fun k => !(decide (off ≤ 32 * k) && decide (32 * k < off + len)) })) s

/-- A line of a mapping that is removed: a line that has been filled keeps its last bytes, whether or not it is held
still, and one that was never filled gets free bytes (09 R177). -/
def unmapLine (wk : Nat) (filled : List Nat) (s : State) (off : Nat) : State :=
  match s.wg wk with
  | none => s
  | some w =>
    match w.lines.find? fun l => l.off == off with
    | some l =>
      (if l.dirty then s.writeBack l else s).updWg wk fun w => { w with lines := w.lines.filter fun l => l.off != off }
    | none =>
      if filled.contains off then s
      else
        let r := freeBytes 128 s
        r.2.updWg wk fun w => { w with mem := cellWrite w.mem off r.1 }

/-- `sunmap` (09 R177). -/
def execSunmap (o : SGIDB) (s : State) : Out :=
  word (uUse o.s o.g (opB o.i o.b ++ [.s o.d.toNat]) []).syncing noPre (fun wk w _ f s =>
    let w := s.wgNow wk w
    let off := (f.getS o.d.toNat).toNat
    let len := f.lenOp o.i o.b
    match w.maps.find? fun m => m.off == off && m.len == len with
    | none => .trap f s (trapOf .reservedField 0x06 0) 0
    | some m =>
      let dirty := w.lines.any fun l => l.dirty && off ≤ l.off && l.off < off + len
      let s := (linesOf off len).foldl (unmapLine wk m.filled) s
      let s := s.updWg wk fun w => { w with maps := w.maps.filter (· != m) }
      .done (if dirty then f.count s false true [(0x8000000000000000 + BitVec.ofNat 64 off, false)] [] true else f) s) s

/-- LAZY_STASH_WRITE_BACK (07 R132, R142): a dirty line is written back while the workgroup runs. -/
def execLazyStashWriteBack (wk off : Nat) (s : State) : Out :=
  .next (match s.wg wk with
    | none => s
    | some w =>
      match w.lines.find? fun l => l.off == off && l.dirty with
      | none => s
      | some l => s.writeBack l)

/-! ## Counter waits (09 R178) -/

/-- The counter that a `cwait` tests: 0 LDO, 1 STO, 2 ENGO. -/
def Fibre.counter (f : Fibre) (k : Nat) : Nat :=
  match k with
  | 0 => f.ldo
  | 1 => f.sto
  | _ => f.engo

/-- `cwait`. -/
def cwait (o : SGIB) (k : Nat) (s : State) : Out :=
  word (uUse o.s o.g (opB o.i o.b) []) noPre (fun _ _ _ f s =>
    let n := (f.uB o.i o.b).toNat
    if f.counter k ≤ n then .done f s else .wait f s (.cwait k n)) s

/-- `cwait.ld` (09 R178). -/
def execCwaitLd (o : SGIB) (s : State) : Out := cwait o 0 s

/-- `cwait.st` (09 R178). -/
def execCwaitSt (o : SGIB) (s : State) : Out := cwait o 1 s

/-- The tiles of a fibre's own commands, in issue order, that a `cwait.eng` down to n covers: a queue completes them in
order, so all but the last n have completed (13 R251). -/
def coverOwn (uid n : Nat) : List Tile → List Tile
  | [] => []
  | t :: ts =>
    (if t.done && t.own.uid == uid && n ≤ (ts.filter fun x => x.own.uid == uid).length then
      { t with seenBy := t.seenBy ++ [uid] }
    else t) :: coverOwn uid n ts

def Workgroup.observeOwn (w : Workgroup) (uid n : Nat) : Workgroup := { w with tiles := coverOwn uid n w.tiles }

/-- `cwait.eng` (09 R178): as `cwait`, and what it covers is observed. -/
def execCwaitEng (o : SGIB) (s : State) : Out :=
  word (uUse o.s o.g (opB o.i o.b) []) noPre (fun wk _ _ f s =>
    let n := (f.uB o.i o.b).toNat
    if f.engo ≤ n then .done f (s.updWg wk fun w => w.observeOwn f.uid n)
    else .wait f s (.cwait 2 n)) s

/-! ## Completion and late completions (07 R143, 08 R151, 18 R320) -/

/-- Whether a completion is late: LATE from its source with slack 0, never with slack 0xFFF, else once the ticks it
has waited in queues reach its slack (07 R138, R139). -/
def lateAfter (slack : BitVec 12) (already : Bool) (ticks : Nat) : Bool :=
  slack != 0xFFF && (already || slack == 0 || slack.toNat ≤ ticks)

/-- Counts a late completion of a fibre: LATEC, FSTAT.LATE, and LATE at the next boundary when it is enabled. In trap mode
the first is kept until `tret`, when LATETRAP decides (18 R320). -/
def Fibre.countLate (f : Fibre) (det : Bool) (pc addr : DWord) : Fibre :=
  let f := { f with latec := if f.latec = 0xFFFFFFFF then f.latec else f.latec + 1, fstat := f.fstat ||| 0x8000 }
  if det then f
  else if f.tm then (if f.lateInTrap.isSome then f else { f with lateInTrap := some (pc, addr) })
  else if !f.latetrap then f
  else if f.imprecise.any fun x => x.code == .late then f
  else { f with imprecise := f.imprecise ++ [{ code := .late, pc := pc, addr := addr }] }

/-- The addresses of the accesses that completed late, in the order of the accesses; the ticks that each has waited in
queues are a free value. -/
def lateAccs (slack : BitVec 12) : List (DWord × Bool) → State → List DWord × State
  | [], s => ([], s)
  | x :: xs, s =>
    let q := s.draw Config.queueTicks
    let r := lateAccs slack xs q.2
    (if lateAfter slack x.2 q.1 then x.1 :: r.1 else r.1, r.2)

/-- A memory instruction is performed; `late` holds the addresses of its late accesses. It counts late once, whatever
the number of its parts and of its late accesses (07 R143). -/
def Fibre.performed (f : Fibre) (det : Bool) (x : Outstanding) (late : List DWord) : Fibre :=
  match late with
  | [] => f
  | a :: _ =>
    if x.again then f
    else
      let f := f.countLate det x.pc a
      if x.whole then f else { f with lateSeen := some x.pc }

/-- No packet keeps the instruction outstanding, and no store of it still to be performed. -/
def Outstanding.atEnd (x : Outstanding) (q : List PendStore) : Bool :=
  x.tags.isEmpty && !(q.any fun p => x.stores.contains p.serial)

/-- The n-th of the instructions that nothing keeps outstanding. -/
def pickOut (l : List Outstanding) (q : List PendStore) (n : Nat) : Option Outstanding :=
  let k := l.filter fun x => x.atEnd q
  if k.isEmpty then none else k[n % k.length]?

/-- What ACCESS_COMPLETION does for a fibre. -/
inductive Completion where
  /-- a store is performed -/
  | store (p : PendStore)
  /-- a load whose value is not fixed reads again -/
  | again (x : LateLoad)
  /-- an instruction's last access is performed -/
  | done (x : Outstanding)
  deriving DecidableEq, Repr

/-- All that may come next for a fibre: its ripe stores, its loads whose value is not fixed, and the instructions that
nothing keeps outstanding. -/
def Fibre.completions (f : Fibre) : List Completion :=
  f.ripe.map .store ++ f.lq.map .again ++ (f.outs.filter fun x => x.atEnd f.stq).map .done

/-- Performs one store of a fibre. A store that could satisfy a watch is a release at sys scope: it is not performed while
a fabric store is unanswered, and what precedes it in its program order is performed before it (08 Table 8-2, R152). -/
def State.performOne (s : State) (wk core : Nat) (f : Fibre) (p : PendStore) : State :=
  if s.fabric.storesOut && s.watchedAt p.loc p.bytes.length then s
  else
    let r := f.perform (fun x => x.serial == p.serial) core s
    r.2.updWg wk fun w => { w with fibres := w.fibres.upd f.fid fun f => { f with stq := r.1.stq, lq := r.1.lq } }

/-- The bytes of a load as they are now, from part k on: its place is read again at the point of coherence, for its core.
What cannot be read now, or is poisoned, is not read (08 R145). -/
def State.readAgain (s : State) (core : Nat) (x : LateLoad) (k : Nat) : Option (List Byte × State) :=
  match x.key with
  | none => if s.poisoned (x.addr + k) (x.n - k) then none else some (s.physRead (some core) (x.addr + k) (x.n - k))
  | some wk => (s.scratchRead wk (x.addr + k) (x.n - k) 0).toOption

/-- The registers of a load take the values of bytes from register k on (09 R165). -/
def Fibre.reload (f : Fibre) (x : LateLoad) (k : Nat) (b : List Byte) : Fibre :=
  if szRegs x.z = 1 then x.regs.foldl (fun f r => f.store r (loadWord x.z b)) f
  else (x.regs.drop k).zipIdx.foldl (fun f e => f.store e.1 (wordAt b (4 * e.2))) f

/-- A load whose value is not fixed reads again: so it is performed after what has come since (08 R154). The parts of a q
load are performed in ascending address: from some part on all read again (08 R150). -/
def State.loadAgain (s : State) (wk core : Nat) (f : Fibre) (x : LateLoad) : State :=
  let n := s.draw Config.choose
  let k := if x.n = 16 then n.1 % 4 else 0
  match n.2.readAgain core x (4 * k) with
  | none => n.2
  | some r => r.2.updWg wk fun w => { w with fibres := w.fibres.upd f.fid fun f => f.reload x k r.1 }

/-- The loads of an instruction that is performed are fixed. -/
def Fibre.fixOf (f : Fibre) (x : Outstanding) : Fibre := { f with lq := f.lq.filter fun y => !x.loads.contains y.serial }

/-- The slack and LATE of a request that was merged with another to one of its sectors: the least slack of the two, and LATE
if either was (07 R142). Which, if any, is a free value: the candidates are the other instructions of the core that access
a common sector in the same direction. -/
def State.mergedWith (s : State) (core ten : Nat) (x : Outstanding) : (BitVec 12 × Bool) × State :=
  let near (y : Outstanding) : Bool := y != x && y.ld == x.ld && y.st == x.st &&
    x.accs.any fun a => selOf a.1 == 0 && y.accs.any fun b => selOf b.1 == 0 && a.1.toNat / 32 == b.1.toNat / 32
  let all := s.wgs.vals.flatMap fun w =>
    if w.core = core ∧ w.tenant = ten then w.fibres.vals.flatMap fun f => f.outs.filter near else []
  if all.isEmpty then ((x.slack, false), s)
  else
    let r := s.draw Config.mergedWith
    match all[r.1 % (all.length + 1)]? with
    | none => ((x.slack, false), r.2)
    | some y => ((if y.slack.toNat < x.slack.toNat then y.slack else x.slack, y.slack == 0 || y.accs.any (·.2)), r.2)

/-- Removes the first entry equal to x. -/
def dropOne {α : Type} [DecidableEq α] (x : α) : List α → List α
  | [] => []
  | y :: ys => if y = x then ys else y :: dropOne x ys

/-- An instruction of a fibre is performed: it counts late if it is. -/
def State.complete (s : State) (wk : Nat) (w : Workgroup) (f : Fibre) (x : Outstanding) : State :=
  let m := s.mergedWith w.core w.tenant x
  let q := lateAccs m.1.1 (x.accs.map fun e => (e.1, e.2 || m.1.2)) m.2
  q.2.putFibre wk (({ f with outs := dropOne x f.outs }.fixOf x).performed w.hdr.det x q.1).drainShed

/-- ACCESS_COMPLETION (08 R151): a store of a fibre is performed (08 R145), a load reads again, or some instruction's last
access is performed; which is a free value. An index of 32 or more names the accesses of fibres that have ended. -/
def execAccessCompletion (wk fid : Nat) (s : State) : Out :=
  .next (match s.wg wk with
    | none => s
    | some w =>
      let n := s.draw Config.choose
      if 32 ≤ fid then
        match pickOut w.orphans [] n.1 with
        | none => s
        | some x => n.2.updWg wk fun w => { w with orphans := dropOne x w.orphans }
      else
        match w.fibres.find fid with
        | none => s
        | some f =>
          match f.completions[n.1 % f.completions.length]? with
          | none => s
          | some (.store p) => n.2.performOne wk w.core f p
          | some (.again x) => n.2.loadAgain wk w.core f x
          | some (.done x) => n.2.complete wk w f x)

/-- A fibre is at an instruction boundary at which an imprecise fault may be taken: it has not begun its next word,
and no part of a resumed word is still to be done (01 R28, 18 R316). -/
def Fibre.atBoundary (f : Fibre) : Bool :=
  (f.sleep == .awake || f.sleep == .token) && f.midStrand == 0 && f.fabWait.isNone && f.popped.isEmpty &&
    !(f.rixLive && f.rix != 0)

/-- The oldest imprecise fault that may be taken now: in trap mode LATE waits (18 R320). -/
def Fibre.nextImprecise (f : Fibre) : Option Imprecise := f.imprecise.find? fun x => !(x.code == .late && f.tm)

/-- LATE_TRAP (07 R143, 18 R320, R321): the oldest imprecise fault of a fibre is taken at its boundary. -/
def execLateTrap (wk fid : Nat) (s : State) : Out :=
  .next (match s.fibre wk fid with
    | none => s
    | some (w, f) =>
      if !f.atBoundary || f.spilled then s
      else
        match f.nextImprecise with
        | some x =>
          s.raise wk w { f.setRix 0 with imprecise := f.imprecise.erase x, rixLive := false }
            { code := x.code, sub := 0, addr := x.addr, replay := false } 0 true x.pc f.pc
        | none => s)

end Sys2Proof.Machine
end

