-- ==== Sys2Proof/Machine/Objects.lean ====
section
/-! DEFINITION. Objects in memory: byte-count barriers (08 R159, R160; 09 R195 to R198), tickets (09 R186 to R188),
watches (09 R189 to R191; 21 R366). -/

namespace Sys2Proof.Machine

/-! ## Where an object lies -/

/-- The place of an object of a fibre, after the checks of 07 R126 up to bounds. An update in place of an object in a
fabric window has no packet that could make it: PROTECTION with SUB 0x09 (DESIGN CHOICE, log 20). -/
def objPlace (s : State) (wk : Nat) (w : Workgroup) (inAddr : Bool) (align n : Nat) (a : DWord) : Except Trap Place :=
  match addrFault inAddr [0x0, 0x8, 0x9] align a with
  | some t => .error t
  | none =>
    match placeOf s wk w 0 a n with
    | .error t => .error t
    | .ok (.fab _ _) => .error (trapOf .protection 0x09 a)
    | .ok p => .ok p

/-- Reads n bytes of an object; `coherent` at its point of coherence. -/
def objRead (s : State) (w : Workgroup) (p : Place) (n : Nat) (coherent : Bool) (a : DWord) : Except Trap (List Byte × State) :=
  match p with
  | .scratch k off => s.scratchRead k off n a
  | .glob va => (s.globLoad w.core w.tenant va n coherent [] none a).map fun r => (r.1, r.2.2)
  | _ => .error (trapOf .protection 0x09 a)

/-- Writes an object at its point of coherence in one piece. -/
def objWrite (s : State) (w : Workgroup) (p : Place) (bs : List Byte) (a : DWord) : Except Trap State :=
  match p with
  | .scratch k off => s.scratchWrite k off bs a
  | .glob va =>
    (match s.storePa w.core w.tenant va a with
     | .error t => .error t
     | .ok (pa, s) => .ok (s.physWrite (some w.core) pa bs))
  | _ => .error (trapOf .protection 0x09 a)

/-- An access at a place has faulted after its checks: the walks for it have read their entries (07 R133, R136). -/
def State.placeFaulted (s : State) (w : Workgroup) (p : Place) (t : Trap) : State :=
  match p with
  | .glob va => s.faultWalk w.tenant va t
  | .scratch k off => s.faultFill k off t
  | _ => s

/-- What a word finds at an object at x: the fibre's own stores to it are performed, and its loads from there are fixed;
of a word that writes the object, all its loads (08 R148, R149). -/
def Fibre.reach (f : Fibre) (core : Nat) (x : Option (Option Nat × Nat)) (n : Nat) (write : Bool) (s : State) : Fibre × State :=
  match x with
  | none => (f, s)
  | some x =>
    let r := f.perform (fun p => p.covers x n) core s
    (if write then r.1.fixLoads none else r.1.fixOver none x n, r.2)

/-! ## Byte-count barriers (08 R159) -/

/-- The object after an addition of n with flag bits to be ORed. -/
def barrierSum (bs : List Byte) (n : Nat) (flags : Nat) : List Byte :=
  let expect := (wordAt bs 0).toNat
  let sum := (wordAt bs 4).toNat + n
  let arrived := min 4294967295 sum
  let flip := expect ≠ 0 ∧ expect ≤ arrived
  let left := if flip then arrived - expect else arrived
  let err := 4294967295 < sum ∨ (flip ∧ expect ≤ left)
  let phase := (wordAt bs 8).toNat
  leBytes 4 expect ++ leBytes 4 left ++
    leBytes 4 (if flip then (if phase % 2 = 1 then phase - 1 else phase + 1) else phase) ++
    leBytes 4 (((wordAt bs 12) ||| BitVec.ofNat 32 flags ||| (if err then 2 else 0)).toNat)

/-- The object at x is a barrier that a store has disturbed. -/
def State.barDisturbed (s : State) (x : Option (Option Nat × Nat)) : Bool :=
  s.openBars.any fun b => b.disturbed && some (b.key, b.addr) == x

/-- Notes whether the phase of the barrier at x is open. -/
def State.noteBar (s : State) (x : Option (Option Nat × Nat)) (isOpen : Bool) : State :=
  match x with
  | none => s
  | some x =>
    let rest := s.openBars.filter fun b => !(b.key == x.1 && b.addr == x.2)
    { s with openBars := if isOpen then rest ++ [{ key := x.1, addr := x.2, disturbed := false }] else rest }

/-- The FLAGS that an object at x had at its last flip, where that is recorded. -/
def State.flipFlags (s : State) (x : Option (Option Nat × Nat)) : Option Word :=
  (s.flips.find? fun b => some (b.key, b.addr) == x).map (·.flags)

/-- Records FLAGS at a flip: the addition has turned `old` into `new` (09 R197). -/
def State.noteFlip (s : State) (x : Option (Option Nat × Nat)) (old new : List Byte) : State :=
  match x with
  | none => s
  | some x =>
    if bit (wordAt old 8) 0 = bit (wordAt new 8) 0 then s
    else
      { s with flips := (s.flips.filter fun b => !(b.key == x.1 && b.addr == x.2)) ++
          [{ key := x.1, addr := x.2, flags := wordAt new 12 }] }

/-- `bcinit` begins the object anew: no flip is on record. -/
def State.dropFlip (s : State) (x : Option (Option Nat × Nat)) : State :=
  { s with flips := s.flips.filter fun b => some (b.key, b.addr) != x }

/-- The bytes after an addition: those of a disturbed object stay unpredictable until it is initialised again. -/
def State.barSum (s : State) (x : Option (Option Nat × Nat)) (bs : List Byte) (n flags : Nat) : List Byte × State :=
  if s.barDisturbed x then freeBytes 16 s else (barrierSum bs n flags, s)

/-- After an addition the phase is open while bytes are counted into it (log 22). -/
def State.noteSum (s : State) (x : Option (Option Nat × Nat)) (bs : List Byte) : State :=
  if s.barDisturbed x then s else s.noteBar x (wordAt bs 4 != 0)

/-- An addition to the object at address a, whose place is p, as one atomic update. -/
def State.barrierAdd (s : State) (wk : Nat) (w : Workgroup) (p : Place) (a : DWord) (n flags : Nat) :
    Except (Trap × State) State :=
  match objRead s w p 16 true a with
  | .error t => .error (t, s.placeFaulted w p t)
  | .ok (bs, s) =>
    let x := s.objStorage wk w a
    let r := s.barSum x bs n flags
    match objWrite r.2 w p r.1 a with
    | .error t => .error (t, s.placeFaulted w p t)
    | .ok s => .ok ((s.noteSum x r.1).noteFlip x bs r.1)

/-- The phase bit and FLAGS of an object. -/
def phaseOf (bs : List Byte) : Bool := bit (wordAt bs 8) 0

def flagsOf (bs : List Byte) : Word := wordAt bs 12

/-! ## Tickets (09 R186, R187) -/

/-- SERVE and POISON of a ticket object. -/
def serveOf (bs : List Byte) : Word := wordAt bs 0

def poisonBit (bs : List Byte) : Bool := bit (wordAt bs 4) 0

/-- The claim of a workgroup is on this place. -/
def claimAt (s : State) (wk : Nat) (w : Workgroup) (p : Place) : Bool :=
  match w.claim with
  | none => false
  | some (obj, _) =>
    match objPlace s wk w true 8 8 obj with
    | .ok q => q == p
    | .error _ => false

/-- A claim that conflicts with a `tkwait` or `tkpoll` on place p with ticket t (09 R186). -/
def claimClash (s : State) (wk : Nat) (w : Workgroup) (p : Place) (t : Word) : Bool :=
  match w.claim with
  | none => false
  | some (_, u) => !claimAt s wk w p || u != t

/-! ## Watches (09 R189, 21 R366) -/

/-- The group of 256 entries for a physical address: die and group. -/
def watchGroup (pa : Nat) : Nat × Nat := (homeDie pa, sliceOf pa / 8)

/-- The number of an entry: die × 4096 + entry. The last 32 entries of a group are the reserved ones. -/
def entryKey (g : Nat × Nat) (k : Nat) : Nat := g.1 * 4096 + g.2 * 256 + k

/-- The lowest free general entry of a group. -/
def State.freeGeneral (s : State) (g : Nat × Nat) : Option Nat :=
  ((List.range 224).map (entryKey g)).find? fun k => (s.watches.find k).isNone

/-- A free entry for Kettle or the launch front end: a reserved one, else a general one. -/
def State.freeReserved (s : State) (g : Nat × Nat) : Option Nat :=
  match ((List.range 32).map fun k => entryKey g (224 + k)).find? fun k => (s.watches.find k).isNone with
  | some k => some k
  | none => s.freeGeneral g

/-- Arms an entry and makes its first evaluation (09 R190). -/
def State.arm (s : State) (key pa : Nat) (mask operand : DWord) (cond : BitVec 3) (who : Waiter) : State :=
  let x : Watch := { pa := pa, mask := mask, operand := operand, cond := cond, waiter := who, fired := false, value := 0 }
  s.setWatches (s.watches.put key (x.eval (s.cohD pa)))

end Sys2Proof.Machine
end

