-- ==== Sys2Proof/Machine/Sync.lean ====
section
/-! DEFINITION. Synchronisation words of the uniform set (09 R179 to R193, R195 to R198; 18 R332 to R335). -/

namespace Sys2Proof.Machine

/-! ## Named barriers (09 R179) -/

def emptyBar : Bar := { phase := false, arr := 0, exp := 0, wait := 0, held := 0 }

def Workgroup.bar (w : Workgroup) (b : Nat) : Bar := vget w.bars b emptyBar

/-- The fibres of a mask by index. -/
def inMask (m : BitVec 32) (f : Fibre) : Bool := m.getLsbD f.fid

/-- A phase of barrier b ends: PHASE inverts, ARR clears, every waiter is woken, and in direct mode those that took
part have observed what any of them had (12 R240). -/
def Workgroup.flipBar (w : Workgroup) (b : Nat) : Workgroup :=
  let x := w.bar b
  let part := (w.fibres.vals.filter fun f => bit f.rv b && bit f.rp b == x.phase).map (·.uid)
  let w := { w with
    bars := vset w.bars b { x with phase := !x.phase, arr := 0, wait := 0 }
    fibres := w.fibres.each fun _ f => if inMask x.wait f then { f with sleep := .woken } else f }
  w.shareTiles part part

/-- The faults of a `bar` word, in order; `c` is the count, none for `wait`. -/
def barFault (w : Workgroup) (b : Nat) (c : Option Nat) : Option Trap :=
  if 16 ≤ b then some (trapOf .reservedField 0x07 0)
  else if 32 < c.getD 0 then some (trapOf .reservedField 0x07 0)
  else if !bit w.hdr.nbar b then some (trapOf .reservedField 0 0)
  else none

/-- The count that an arrival states agrees with the open phase; 0 stands for the fibres that the workgroup held at
the first arrival (DEDUCED, log 21). -/
def Bar.agrees (x : Bar) (c : Nat) : Bool := if c = 0 then x.exp == x.held else x.exp == c

/-- An arrival of fibre f; the fault it meets, or the workgroup and fibre after it. The workgroup is the current
one; the issuing fibre's own record is in f. -/
def barArrive (w : Workgroup) (f : Fibre) (b c : Nat) : Except Trap (Workgroup × Fibre) :=
  let x := w.bar b
  if bit f.rv b && bit f.rp b == x.phase then .error (trapOf .queueState 0x21 0)
  else if x.arr ≠ 0 ∧ x.agrees c = false then .error (trapOf .queueState 0x23 0)
  else
    let held := w.fibres.length
    let x' : Bar := if x.arr = 0 then { x with arr := 1, exp := if c = 0 then held else c, held := held } else { x with arr := x.arr + 1 }
    let f := { f with rv := setBit f.rv b true, rp := setBit f.rp b x.phase }
    let w := { w with bars := vset w.bars b x', fibres := w.fibres.put f.fid f }
    .ok (if x'.arr = x'.exp then w.flipBar b else w, f)

/-- The wait of fibre f on barrier b: at once where the phase differs from the fibre's record, else asleep with its
bit in the waiter mask. -/
def barWait (wk : Nat) (f : Fibre) (b : Nat) (s : State) : Res :=
  match s.wg wk with
  | none => .done f s
  | some w =>
    let x := w.bar b
    if f.sleep == .woken || x.phase != bit f.rp b then .done { f with rv := setBit f.rv b false } s
    else
      .wait f (s.updWg wk fun w => { w with bars := vset w.bars b { x with wait := x.wait ||| (1#32 <<< f.fid) } })
        (.bar b (bit f.rp b))

/-- `bar.arrive` (09 R179). -/
def execBarArrive (o : SGIAB) (s : State) : Out :=
  word (uUse o.s o.g (.s o.a.toNat :: opB o.i o.b) []).syncing noPre (fun wk w _ f s =>
    let w := s.wgNow wk w
    let b := (f.uB o.i o.b).toNat
    let c := (f.getS o.a.toNat).toNat
    match barFault w b (some c) with
    | some t => .trap f s t 0
    | none =>
      match barArrive w f b c with
      | .error t => .trap f s t 0
      | .ok (w, f) => .done f (s.putWg wk w)) s

/-- `bar.wait` (09 R179). -/
def execBarWait (o : SGIB) (s : State) : Out :=
  word (uUse o.s o.g (opB o.i o.b) []).acquiring noPre (fun wk w _ f s =>
    let b := (f.uB o.i o.b).toNat
    match barFault w b none with
    | some t => .trap f s t 0
    | none => if bit f.rv b then barWait wk f b s else .trap f s (trapOf .queueState 0x22 0) 0) s

/-- `bar.sync`: arrive, then wait (09 R179). -/
def execBarSync (o : SGIAB) (s : State) : Out :=
  word (uUse o.s o.g (.s o.a.toNat :: opB o.i o.b) []).syncing noPre (fun wk w _ f s =>
    let w := s.wgNow wk w
    let b := (f.uB o.i o.b).toNat
    let c := (f.getS o.a.toNat).toNat
    match barFault w b (some c) with
    | some t => .trap f s t 0
    | none =>
      if f.sleep == .woken then barWait wk f b s
      else
        match barArrive w f b c with
        | .error t => .trap f s t 0
        | .ok (w, f) => barWait wk f b (s.putWg wk w)) s

/-! ## Knot barriers (09 R180) -/

/-- The knot-slot record of a workgroup. -/
def Workgroup.krec (w : Workgroup) (k : Nat) : KnotRec := vget w.knotRec k ⟨false, false⟩

/-- Every workgroup of the set has arrived in the open phase or has exited. -/
def Knot.full (k : Knot) (exited : List Nat) : Bool := k.members.all fun m => k.arrived.contains m || exited.contains m

/-- Wakes the fibres that sleep on an entry of a launch's knot table. -/
def State.wakeKnot (s : State) (launch entry : Nat) : State :=
  s.setWgs (s.wgs.each fun _ w =>
    if w.launch = launch then
      { w with fibres := w.fibres.each fun _ f =>
          match f.sleep with
          | .knot j _ => if w.knotOf j = some entry then { f with sleep := .woken } else f
          | _ => f }
    else w)

/-- Completes the phase of a knot when it is full. -/
def State.settleKnot (s : State) (launch entry : Nat) : State :=
  match s.launch launch with
  | none => s
  | some l =>
    match l.knots.find entry with
    | none => s
    | some k =>
      if k.full l.exited then
        (s.putLaunch launch { l with knots := l.knots.put entry { k with phase := !k.phase, arrived := [] } }).wakeKnot
          launch entry
      else s

/-- The faults of a `knot` word on slot k, in order, and the knot. -/
def knotSlot (s : State) (w : Workgroup) (k : Nat) : Except Trap (Nat × Knot) :=
  if 4 ≤ k then .error (trapOf .reservedField 0x07 0)
  else if !bit w.hdr.knots k then .error (trapOf .reservedField 0 0)
  else
    match s.knotAt w k with
    | none => .error (trapOf .reservedField 0 0)
    | some (e, x) => if x.failed then .error (trapOf .peerFault (0x10 + k) 0) else .ok (e, x)

/-- An arrival of the workgroup at slot k, by a fibre. -/
def knotArrive (s : State) (wk uid : Nat) (w : Workgroup) (k e : Nat) (x : Knot) : Except Trap State :=
  if (w.krec k).rv && (w.krec k).rp == x.phase then .error (trapOf .queueState 0x21 0)
  else
    let s := (s.syncAt w uid false true (.knot e x.phase)).updWg wk fun w => { w with knotRec := vset w.knotRec k ⟨true, x.phase⟩ }
    let s := s.updLaunch w.launch fun l =>
      { l with knots := l.knots.upd e fun x => { x with arrived := x.arrived ++ [w.wgid] } }
    .ok (s.settleKnot w.launch e)

/-- The wait on slot k: returns once the phase differs from the workgroup's record, with an acquire at pkg scope. -/
def knotWait (wk : Nat) (f : Fibre) (k : Nat) (s : State) : Res :=
  match s.wg wk with
  | none => .done f s
  | some w =>
    match s.knotAt w k with
    | none => .done f s
    | some (e, x) =>
      if f.sleep == .woken || x.phase != (w.krec k).rp then
        .done f ((s.syncAt w f.uid true false (.knot e (w.krec k).rp)).acquire w.core 3)
      else .wait f s (.knot k (w.krec k).rp)

/-- A `knot` word: `arrive` and `wait` say which parts it has. Every knot operation is token-class (18 R332); a
fibre that has slept in its wait has issued it. A waiter that a completed phase has woken returns, whatever has become of
the knot since. -/
def knotWord (o : SGIB) (arrive wait : Bool) (s : State) : Out :=
  word { uUse o.s o.g (opB o.i o.b) [] with sync := arrive, acq := wait } noPre (fun wk w _ f s =>
    let k := (f.uB o.i o.b).toNat
    if f.sleep == .woken && wait then knotWait wk f k s
    else if s.tokenStall w && !f.sleep.syncWait then .wait f s .token
    else
      match knotSlot s w k with
      | .error t => .trap f s t 0
      | .ok (e, x) =>
        if arrive then
          match knotArrive s wk f.uid w k e x with
          | .error t => .trap f s t 0
          | .ok s =>
            -- the record now stands in the workgroup; the issuing fibre goes on with its own copy
            if wait then knotWait wk f k s else .done f s
        else if (w.krec k).rv then knotWait wk f k s
        else .trap f s (trapOf .queueState 0x22 0) 0) s

/-- `knot.arrive` (09 R180). -/
def execKnotArrive (o : SGIB) (s : State) : Out := knotWord o true false s

/-- `knot.wait` (09 R180). -/
def execKnotWait (o : SGIB) (s : State) : Out := knotWord o false true s

/-- `knot.sync` (09 R180). -/
def execKnotSync (o : SGIB) (s : State) : Out := knotWord o true true s

/-! ## Queues (09 R184, R185) -/

def qFault (sub : Nat) : Trap := trapOf .queueState sub 0

/-- `qbind` (09 R184). A port already bound faults before a slot without a knot: R184 gives no order (DESIGN CHOICE, log
86). -/
def execQbind (o : SGDRK) (s : State) : Out :=
  word (uUse o.s o.g [] []) noPre (fun _ w _ f s =>
    let n := o.d.toNat - 48
    let k := o.k.toNat
    if s.tokenStall w then .wait f s .token
    else if (f.port n).bound then .trap f s (qFault 0x01) 0
    else if !bit w.hdr.knots k || (s.knotAt w k).isNone then .trap f s (trapOf .reservedField 0 0) 0
    else
      match s.queueAt w k with
      | none => .trap f s (qFault 0x07) 0
      | some q =>
        if on o.r && q.closed then .trap f s (qFault 0x06) 0
        else
          .done (f.setPort n { bound := true, out := on o.r, slot := k, allow := 0 })
            (if on o.r then s.updQueue w k KQueue.bindOut else s)) s

/-- The port that field A names, when it is bound with the direction asked for: unbound faults SUB 0x04, the wrong
direction SUB 0x02. -/
def portNamed (f : Fibre) (a : BitVec 6) (out : Option Bool) : Except Trap (Nat × Port) :=
  match f.bound a.toNat with
  | none => .error (qFault 0x04)
  | some p => if out.getD p.out = p.out then .ok (a.toNat - 48, p) else .error (qFault 0x02)

/-- `qgive` (09 R184): a push that does not block. -/
def execQgive (o : SGICAB) (s : State) : Out :=
  word (uUse o.s o.g (opB o.i o.b) [.c o.c.toNat]).syncing noPre (fun _ w _ f s =>
    if s.tokenStall w then .wait f s .token
    else
      match portNamed f o.a (some true) with
      | .error t => .trap f s t 0
      | .ok (n, p) =>
        if ((s.queueAt w p.slot).map KQueue.closed).getD true then .done (f.putC o.c.toNat false) s
        else
          let r := requestSlots s w f n
          if (r.1.port n).allow = 0 then .done (r.1.putC o.c.toNat false) r.2
          else
            let r := pushPort r.2 w r.1 n (f.uB o.i o.b)
            .done (r.1.putC o.c.toNat true) r.2) s

/-- `qtry` (09 R184): a pop that does not block. -/
def execQtry (o : SGCAB) (s : State) : Out :=
  word (uUse o.s o.g [] [.c o.c.toNat, .s o.b.toNat]).acquiring noPre (fun _ w _ f s =>
    if s.tokenStall w then .wait f s .token
    else
      match portNamed f o.a (some false) with
      | .error t => .trap f s t 0
      | .ok (_, p) =>
        match s.queueAt w p.slot with
        | none => .done (f.putC o.c.toNat false) s
        | some q =>
          match q.elems with
          | x :: _ =>
            .done ((f.putS o.b.toNat x).putC o.c.toNat true) (s.popQueue w f.uid p.slot)
          | [] => .done ((f.putS o.b.toNat (b2w q.closed)).putC o.c.toNat false) s) s

/-- Unbinds a port: an out port gives its allowance back and its binding up. -/
def State.unbind (s : State) (w : Workgroup) (p : Port) : State :=
  if p.bound && p.out then
    s.updQueue w p.slot fun q => { q with reserved := q.reserved - p.allow, outBinds := q.outBinds - 1 }
  else s

/-- `qclose` (09 R184, R185). -/
def execQclose (o : SGA) (s : State) : Out :=
  word (uUse o.s o.g [] []) noPre (fun _ w _ f s =>
    if s.tokenStall w then .wait f s .token
    else
      match portNamed f o.a none with
      | .error t => .trap f s t 0
      | .ok (n, p) => .done (f.setPort n { bound := false, out := false, slot := 0, allow := 0 }) (s.unbind w p)) s

/-! ## Plain accesses of object words through a fabric window (20 R345) -/

/-- A plain access of an object word whose address lies in a fabric window: it goes by a packet like any plain access.
None: the address lies elsewhere, or its checks fail. -/
def viaWindow (wk : Nat) (w : Workgroup) (f : Fibre) (s : State) (align : Nat) (a : DWord) (q : Acc) : Option AccRes :=
  match addrFault false [0x0, 0x8, 0x9] align a with
  | some _ => none
  | none =>
    match placeOf s wk w 0 a q.n with
    | .ok (.fab x va) => some (fabAccess wk w (if q.kind = .load then f else f.fixLoads none) s x va 0 a q)
    | _ => none

/-- A word goes on once the access has been made: with fibre, state, bytes, packet tags and LATE. -/
def AccRes.andThen (r : AccRes) (go : Fibre → State → List Byte → List Nat → Bool → Res) : Res :=
  match r with
  | .trap f s t => .trap f s t 0
  | .wait f s => .wait f s .held
  | .ok f s b _ tags late => go f s b tags late

/-- The access of an object word, for LATEC; it stands in neither LDO nor STO (07 R143; 09 Table 9-1; log 91). -/
def Fibre.countObject (f : Fibre) (s : State) (a : DWord) (tags : List Nat) (late : Bool) : Fibre :=
  f.count s false false [(a, late)] tags true

/-! ## Tickets (09 R187) -/

/-- A token-class word of majors 0x2E, 0x30 to 0x37 on an object outside the own scratchpad must wait (18 R332). -/
def objToken (s : State) (w : Workgroup) (a : DWord) : Bool := s.tokenStall w && selOf a != 0x8

/-- The checks of a `tk` word in order, up to POISON: the object's bytes, its place. `clash` is the claim check. -/
def tkCheck (s : State) (wk : Nat) (w : Workgroup) (a : DWord) (write : Bool) (clash : Place → Option Trap) :
    Except (Trap × State) (List Byte × Place × State) :=
  match objPlace s wk w true 8 8 a with
  | .error t => .error (t, s)
  | .ok p =>
    match objRead s w p 8 true a with
    | .error t => .error (t, s.placeFaulted w p t)
    | .ok (bs, s) =>
      let perm : Option Trap :=
        match p, write with
        | .glob va, true => (match s.storePa w.core w.tenant va a with
            | .error t => some t
            | .ok _ => none)
        | _, _ => none
      match perm with
      | some t => .error (t, s.placeFaulted w p t)
      | none =>
        match clash p with
        | some t => .error (t, s)
        | none => if poisonBit bs then .error (trapOf .ticketPoison 0 a, s) else .ok (bs, p, s)

/-- A `tk` word's synchronisation at its object (08 R157): `tkwait` and `tkpoll` acquire, `tkpass` releases. -/
def State.tkSync (s : State) (wk : Nat) (w : Workgroup) (uid : Nat) (pass : Bool) (a : DWord) : State :=
  match s.objStorage wk w a with
  | none => s
  | some x => s.syncAt w uid (!pass) pass (.mem x.1 x.2)

/-- `tkwait` (09 R187). -/
def execTkwait (o : SGIAB) (s : State) : Out :=
  word (uUse o.s o.g (.s2 o.a.toNat :: opB o.i o.b) []).acquiring noPre (fun wk w _ f s =>
    let a := f.getS64 o.a.toNat
    let t := f.uB o.i o.b
    if objToken s w a && !f.sleep.syncWait then .wait f s .token
    else
      let r := f.reach w.core (s.objStorage wk w a) 8 false s
      let f := r.1
      match tkCheck r.2 wk w a false fun p => if claimClash r.2 wk w p t then some (qFault 0x10) else none with
      | .error (x, s) => .trap f s x 0
      | .ok (bs, _, s) =>
        let s := s.updWg wk fun w => { w with claim := some (a, t) }
        if serveOf bs = t then
          .done (f.countObject s a [] false) ((s.tkSync wk w f.uid false a).acquire w.core (scopeOf a))
        else .wait f s (.tkwait a t)) s

/-- SERVE of a claim's object; none when it cannot be read or is poisoned. -/
def Lingering.serve (x : Lingering) (s : State) : Option Word :=
  let ok (bs : List Byte) : Option Word := if poisonBit bs then none else some (serveOf bs)
  match x.key with
  | none =>
    match s.agentRead x.tenant x.addr 8 with
    | .ok (bs, _, _) => ok bs
    | .error _ => none
  | some k =>
    match s.scratchRead k x.addr 8 0 with
    | .ok (bs, _) => ok bs
    | .error _ => none

/-- Writes SERVE of a claim's object. -/
def Lingering.advance (x : Lingering) (s : State) : State :=
  let bs := leBytes 4 (x.ticket + 1).toNat
  match x.key with
  | none => s.agentPutOr x.tenant x.addr bs .release
  | some k => (s.scratchWrite k x.addr bs 0).toOption.getD s

/-- Passes the claims of workgroups that have exited, as their turns come (09 R188; fuel: the claims). -/
def passClaims : Nat → State → State
  | 0, s => s
  | n + 1, s =>
    match s.claims.find? fun x => x.serve s == some x.ticket with
    | none => s
    | some x => passClaims n ({ x.advance s with claims := s.claims.filter (· != x) })

def State.passClaims (s : State) : State := Machine.passClaims s.claims.length s

/-- A `tkpass` waits for fabric stores that are not answered: the release of a ticket at sys scope, and a write that
could satisfy a watch (08 R157, 20 R349). -/
def State.passWaits (s : State) (w : Workgroup) (a : DWord) (p : Place) : Bool :=
  s.fabric.storesOut && (scopeOf a == 4 ||
    match p with
    | .glob va => s.watched w.tenant va 4
    | _ => false)

/-- `tkpass` (09 R187); at sys scope it reports a fabric store that failed (20 R356). -/
def execTkpass (o : SGA) (s : State) : Out :=
  word (uUse o.s o.g [.s2 o.a.toNat] []).syncing noPre (fun wk w _ f s =>
    let a := f.getS64 o.a.toNat
    if objToken s w a then .wait f s .token
    else
      match tkCheck s wk w a true fun p => if claimAt s wk w p then none else some (qFault 0x11) with
      | .error (x, s) => .trap f s x 0
      | .ok (bs, p, s) =>
        let t := (w.claim.map (·.2)).getD 0
        if serveOf bs ≠ t then .trap f s (qFault 0x11) 0
        else if scopeOf a == 4 && f.fabErr then .trap { f with fabErr := false } s (trapOf .protection 0x0C a) 0
        else if s.passWaits w a p then .wait f s .held
        else
          match objWrite s w p (leBytes 4 (t + 1).toNat) a with
          | .error x => .trap f (s.placeFaulted w p x) x 0
          | .ok s =>
            .done (f.countObject s a [] false)
              ((s.tkSync wk w f.uid true a).updWg wk fun w => { w with claim := none }).passClaims) s

/-- `tkpoll` (09 R187). -/
def execTkpoll (o : SGICAB) (s : State) : Out :=
  word (uUse o.s o.g (.s2 o.a.toNat :: opB o.i o.b) [.c o.c.toNat]).acquiring noPre (fun wk w _ f s =>
    let a := f.getS64 o.a.toNat
    let t := f.uB o.i o.b
    if objToken s w a then .wait f s .token
    else
      let r := f.reach w.core (s.objStorage wk w a) 8 false s
      let f := r.1
      match tkCheck r.2 wk w a false fun p => if claimClash r.2 wk w p t then some (qFault 0x10) else none with
      | .error (x, s) => .trap f s x 0
      | .ok (bs, _, s) =>
        let s := s.updWg wk fun w => { w with claim := some (a, t) }
        let g := f.countObject s a [] false
        if serveOf bs = t then .done (g.putC o.c.toNat true) ((s.tkSync wk w f.uid false a).acquire w.core (scopeOf a))
        else .done (g.putC o.c.toNat false) s) s

/-! ## Watches (09 R189, R191) -/

/-- A plain load of n bytes of an object at a place, by the uniform pipe. -/
def objLoad (s : State) (w : Workgroup) (f : Fibre) (p : Place) (n : Nat) (a : DWord) : Except Trap (List Byte × State) :=
  match p with
  | .scratch k off => (s.scratchRead k off n a).map fun r => (overlay f.stq none (r.2.stashLoc k off) r.1, r.2)
  | .glob va => (s.globLoad w.core w.tenant va n false f.stq none a).map fun r => (r.1, r.2.2)
  | _ => .error (trapOf .protection 0x09 a)

/-- The arm record: ADDR, MASK, OPERAND. It may lie on selector 0x0, 0x8 or 0x9, as R189 has it in global memory or
scratchpad; Table 9-1's 0x0 is that of ADDR (DEDUCED, log 94). -/
def readRecord (s : State) (wk : Nat) (w : Workgroup) (f : Fibre) (a : DWord) : Except (Trap × State) (List Byte × State) :=
  match objPlace s wk w false 8 24 a with
  | .error t => .error (t, s)
  | .ok _ =>
    overParts (fun e (acc : List Byte × State) =>
      let b := a + BitVec.ofNat 64 e.1
      match objPlace acc.2 wk w false 8 8 b with
      | .error t => .error (t, acc.2)
      | .ok p =>
        match objLoad acc.2 w f p 8 b with
        | .error t => .error (t, acc.2.placeFaulted w p t)
        | .ok (bs, s) => .ok (acc.1 ++ bs, s)) [(0, 8), (8, 8), (16, 8)] ([], s)

/-- The physical address of a watched word, after the checks of R189. -/
def watchedPa (s : State) (w : Workgroup) (a : DWord) : Except (Trap × State) (Nat × State) :=
  match addrFault false [0x0] 8 a with
  | some t => .error (t, s)
  | none =>
    match s.windowOf w.tenant (a.toNat % 2 ^ 56) with
    | some _ => .error (trapOf .protection 0x09 a, s)
    | none =>
      match s.translate (clusterOf w.core) w.tenant (a.toNat % 2 ^ 56) 8 false a with
      | .error t => .error (t, s.faultWalk w.tenant (a.toNat % 2 ^ 56) t)
      | .ok (pa, _, s) => if tierOf pa = .host then .error (trapOf .protection 0x08 a, s) else .ok (pa, s)

/-- An entry is armed with the record that has been read. -/
def armWith (o : SGDAK3) (wk : Nat) (w : Workgroup) (a : DWord) (f : Fibre) (s : State) (bs : List Byte) (tags : List Nat)
    (late : Bool) : Res :=
  match watchedPa s w (dwordAt bs 0) with
  | .error (t, s) => .trap f s t 0
  | .ok (pa, s) =>
    let r := f.reach w.core (some (none, pa)) 8 false s
    let f := r.1
    let s := r.2
    match s.freeGeneral (watchGroup pa) with
    | none => .trap f s (trapOf .watchFull 0x00 0) 0
    | some key =>
      if 8 ≤ f.watches.length then .trap f s (trapOf .watchFull 0x01 0) 0
      else
        .done (({ f with watches := f.watches ++ [key] }.putS o.d.toNat (BitVec.ofNat 32 key)).countObject s a tags late)
          (s.arm key pa (dwordAt bs 8) (dwordAt bs 16) o.k (.fibre wk f.fid f.uid))

/-- `watch.arm` (09 R189). -/
def execWatchArm (o : SGDAK3) (s : State) : Out :=
  word (uUse o.s o.g [.s2 o.a.toNat] [.s o.d.toNat]) noPre (fun wk w _ f s =>
    if s.tokenStall w then .wait f s .token
    else
      let a := f.getS64 o.a.toNat
      match viaWindow wk w f s 8 a (Acc.load 24 false) with
      | some r => r.andThen (armWith o wk w a)
      | none =>
        match readRecord s wk w f a with
        | .error (t, s) => .trap f s t 0
        | .ok (bs, s) => armWith o wk w a f s bs [] false) s

/-- `wwait` (09 R191). -/
def execWwait (o : SGDA) (s : State) : Out :=
  word (uUse o.s o.g [.s o.a.toNat] [.s2 o.d.toNat]).acquiring noPre (fun _ w _ f s =>
    let h := f.getS o.a.toNat
    if s.tokenStall w && !f.sleep.syncWait then .wait f s .token
    else if !f.watches.contains h.toNat then .trap f s (qFault 0x20) 0
    else
      match s.watches.find h.toNat with
      | none => .trap f s (qFault 0x20) 0
      | some x =>
        if x.fired then
          .done ({ f with watches := f.watches.filter (· != h.toNat) }.putS64 o.d.toNat x.value)
            ((s.setWatches (s.watches.del h.toNat)).acquire w.core 4)
        else .wait f s (.wwait h)) s

/-- `disarm` (09 R191). -/
def execDisarm (o : SGA) (s : State) : Out :=
  word (uUse o.s o.g [.s o.a.toNat] []) noPre (fun _ w _ f s =>
    let h := (f.getS o.a.toNat).toNat
    if s.tokenStall w then .wait f s .token
    else if !f.watches.contains h then .trap f s (qFault 0x20) 0
    else .done { f with watches := f.watches.filter (· != h) } (s.setWatches (s.watches.del h))) s

/-! ## The commit token (09 R192; 18 R333 to R335) -/

/-- The next workgroup in ascending index from n, wrapping at total, that has not exited (fuel: total). -/
def nextInTurn (total : Nat) (exited : List Nat) : Nat → Nat → Nat
  | 0, n => n
  | k + 1, n => if exited.contains (n % total) then nextInTurn total exited k (n + 1) else n % total

def Launch.total (l : Launch) : Nat := l.gridx * l.gridy

/-- The pass of the token by workgroup g with `count` instructions retired and `published` of them published. -/
def Launch.passToken (l : Launch) (g count published : Nat) : Launch :=
  { l with token :=
      { holder := none, next := nextInTurn l.total l.exited l.total (g + 1), p := l.token.p + (count - published) } }

/-- The pass of the token by a workgroup that has retired `count` instructions. -/
def State.passToken (s : State) (wk : Nat) (w : Workgroup) (count : Nat) : State :=
  (s.updLaunch w.launch fun l => l.passToken w.wgid count w.published).updWg wk fun w => { w with published := count }

/-- The operation is a workgroup's. -/
def CaddyOp.ownedBy (c : CaddyOp) (wk : Nat) : Bool := (c.own.map fun o => o.wk == wk).getD false

/-- No engine command of the workgroup is outstanding: in its matrix queue, a copy channel, an L2 slice or Caddy. -/
def State.enginesIdle (s : State) (wk : Nat) (w : Workgroup) : Bool :=
  w.mq.isEmpty &&
  (s.core w.core).chans.toList.all (fun q => q.all fun c => c.own.wk != wk) &&
  s.slices.vals.all (fun c => c.own.wk != wk) &&
  s.caddy.vals.all fun d => (d.waiting.all fun c => !c.ownedBy wk) &&
    d.moves.all fun m => (m.req.map fun c => !c.ownedBy wk).getD true

/-- Every access of the workgroup has been performed and its engines are idle (18 R333, 04 R88). -/
def State.drained (s : State) (wk : Nat) (w : Workgroup) : Bool :=
  w.orphans.isEmpty && (w.fibres.vals.all fun f => f.outs.isEmpty) && s.enginesIdle wk w

/-- `tokpass` (09 R192, 18 R333): a `nop` outside deterministic mode; in it, where no store is left behind, it retires once
every other fibre of the workgroup is quiescent, as the core finds it when the word issues, and every access has been
performed. -/
def execTokpass (o : SG) (s : State) : Out :=
  word (uUse o.s o.g [] []) noPre (fun wk w _ f s =>
    if !w.hdr.det then .done f s
    else if !s.holdsToken w then .trap f s (trapOf .tokenMisuse 0 0) 0
    else if s.drained wk w && (w.fibres.vals.all fun g => g.fid == f.fid || w.quiet.contains g.fid) then
      .done f (s.passToken wk w (w.retired + 1))
    else .wait f s .held) s

/-- `tokq` (09 R192). -/
def execTokq (o : SGC) (s : State) : Out :=
  word (uUse o.s o.g [] [.c o.c.toNat]) noPre (fun _ w _ f s =>
    .done (f.putC o.c.toNat (!w.hdr.det || s.holdsToken w)) s) s

/-- A workgroup counts as triggered, from this cycle on (17 R305). -/
def Launch.noteTrig (l : Launch) (wgid now : Nat) : Launch :=
  if l.trigd.contains wgid then l else { l with trigd := l.trigd ++ [wgid], trigAt := now }

/-- `trig` (09 R193). -/
def execTrig (o : SG) (s : State) : Out :=
  word (uUse o.s o.g [] []).syncing noPre (fun wk w _ f s =>
    if s.tokenStall w then .wait f s .token
    else if w.trig then .done f s
    else
      .done f ((s.updWg wk fun w => { w with trig := true }).updLaunch w.launch fun l => l.noteTrig w.wgid s.cycles)) s

/-! ## Byte-count barrier words (09 R195 to R198) -/

/-- The decode-time check of `bcinit` (09 R196). -/
def bcExpect (f : Fibre) (i : BitVec 1) (b : BitVec 6) : Nat := if i = 1 then 2 ^ b.toNat else (f.getS b.toNat).toNat

/-- The packet by which a barrier word makes its one plain access of an object in a window, and what it does with the
bytes that come back. -/
structure BcPacket where
  acc : Fibre → Acc
  fin : Fibre → List Byte → Fibre

/-- A word on a byte-count barrier object: its checks, then `act` on its place; `write` says that the word writes the
object. None of them is a release (08 R157, R160; 09 R198). -/
def bcWord (u : Use) (a : BitVec 6) (slept write : Bool) (far : Option BcPacket)
    (act : Nat → Workgroup → Fibre → State → Place → DWord → Res) (s : State) : Out :=
  word u noPre (fun wk w _ f s =>
    let x := f.getS64 a.toNat
    if objToken s w x && !(slept && f.sleep.syncWait) then .wait f s .token
    else
      match far.bind fun e => (viaWindow wk w f s 16 x (e.acc f)).map fun r => (e, r) with
      | some (e, r) => r.andThen fun f s b tags late => .done ((e.fin f b).countObject s x tags late) s
      | none =>
        match objPlace s wk w false 16 16 x with
        | .error t => .trap f s t 0
        | .ok p =>
          let r := f.reach w.core (s.objStorage wk w x) 16 write s
          act wk w r.1 r.2 p x) s

/-- `bcinit` (09 R196). -/
def execBcinit (o : SGIAB) (s : State) : Out :=
  let far : BcPacket := { acc := fun f => Acc.store (leBytes 16 (bcExpect f o.i o.b)) false, fin := fun f _ => f }
  bcWord (uUse o.s o.g (.s2 o.a.toNat :: opB o.i o.b) []) o.a false true (some far) (fun wk w f s p x =>
    match objWrite s w p (leBytes 16 (bcExpect f o.i o.b)) x with
    | .error t => .trap f (s.placeFaulted w p t) t 0
    | .ok s => .done (f.countObject s x [] false) ((s.noteBar (s.objStorage wk w x) false).dropFlip (s.objStorage wk w x))) s

/-- Tiles of completed direct-mode commands whose addition a `bcwait` on this place has observed (12 R240). -/
def Workgroup.observeBar (w : Workgroup) (s : State) (wk : Nat) (p : Place) (uid : Nat) : Workgroup :=
  { w with tiles := w.tiles.map fun t =>
      if t.done && t.bar.toNat != 0 && (match objPlace s wk w false 16 16 t.bar with
          | .ok q => q == p
          | .error _ => false) then { t with seenBy := t.seenBy ++ [uid] } else t }

/-- FLAGS that a `bcwait` returns: as they stood at the flip; where the phase bit was not set by a flip, as they stand
(09 R197; the second part DEDUCED, log 70). -/
def State.waitFlags (s : State) (x : Option (Option Nat × Nat)) (bs : List Byte) : Word := (s.flipFlags x).getD (flagsOf bs)

/-- `bcwait` (09 R197): returns FLAGS once the phase differs from the parity, with the acquire of 08 R160. -/
def execBcwait (o : SGIDAB) (s : State) : Out :=
  bcWord (uUse o.s o.g (.s2 o.a.toNat :: opB o.i o.b) [.s o.d.toNat]) o.a true false none (fun wk w f s p x =>
    let par := bit (f.uB o.i o.b) 0
    match objRead s w p 16 true x with
    | .error t => .trap f (s.placeFaulted w p t) t 0
    | .ok (bs, s) =>
      if phaseOf bs != par then
        .done ((f.putS o.d.toNat (s.waitFlags (s.objStorage wk w x) bs)).countObject s x [] false) ((s.updWg wk fun w => w.observeBar s wk p f.uid).acquire w.core 4)
      else .wait f s (.bcwait x par)) s

/-- `bcadd` (09 R198). -/
def execBcadd (o : SGIAB) (s : State) : Out :=
  bcWord (uUse o.s o.g (.s2 o.a.toNat :: opB o.i o.b) []) o.a false true none (fun wk w f s p x =>
    match s.barrierAdd wk w p x (f.uB o.i o.b).toNat 0 with
    | .error (t, s) => .trap f s t 0
    | .ok s => .done (f.countObject s x [] false) s) s

/-- `bcphase` (09 R198): a plain load of the object, through a window like any (08 R150, 20 R345). -/
def execBcphase (o : SGDA) (s : State) : Out :=
  word (uUse o.s o.g [.s2 o.a.toNat] [.s o.d.toNat]) noPre (fun wk w _ f s =>
    let x := f.getS64 o.a.toNat
    if objToken s w x then .wait f s .token
    else
      match addrFault false [0x0, 0x8, 0x9] 16 x with
      | some t => .trap f s t 0
      | none => (access wk w 0 f s x { Acc.load 16 false with uni := true }).andThen fun f s b tags late =>
          .done ((f.putS o.d.toNat (b2w (phaseOf b))).countObject s x tags late) s) s

end Sys2Proof.Machine
end

