-- ==== Sys2Proof/Machine/Engine.lean ====
section
/-! DEFINITION. What the engines share: parameter blocks, reads and writes that carry poison, barrier additions and
records made at a command's end, and the ways a command reports back to its fibre (12 R225, R231, R234; 13 R244 to
R247, R376; 18 R323). -/

namespace Sys2Proof.Machine

/-! ## Parameter blocks (12 R225, 13 R244, R377) -/

/-- The sector-wise plain load of a block through the core's L1, by the uniform pipe. -/
def blockGlob (core ten va n : Nat) (q : List PendStore) (a : DWord) (s : State) : Except Trap (List Byte × State) :=
  overParts (fun p (acc : List Byte × State) =>
    match acc.2.globLoad core ten (va + p.1) p.2 false q none a with
    | .error t => .error t
    | .ok (b, _, s) => .ok (acc.1 ++ b, s)) ((List.range (n / 32)).map fun k => (32 * k, 32)) ([], s)

/-- The checks of a block's address (12 R225): any selector but 0x0 and 0x8 is PROTECTION with SUB 0x09. -/
def blockFault (n : Nat) (a : DWord) : Option Trap :=
  if selOf a = 0x0 ∨ selOf a = 0x8 then addrFault false [0x0, 0x8] n a else some (trapOf .protection 0x09 a)

/-- The plain load of a parameter block of n bytes, aligned to n, on selector 0x0 or 0x8. -/
def blockRead (wk : Nat) (w : Workgroup) (f : Fibre) (s : State) (a : DWord) (n : Nat) : AccRes :=
  match blockFault n a with
  | some t => .trap f s t
  | none =>
    match placeOf s wk w f.win a n with
    | .error t => .trap f s t
    | .ok (.scratch k off) =>
      (match s.scratchRead k off n a with
       | .error t => .trap f (s.faultFill k off t) t
       | .ok (b, s) => .ok f s (overlay f.stq none (s.stashLoc k off) b) 0 [] false)
    | .ok (.glob va) =>
      (match blockGlob w.core w.tenant va n f.stq a s with
       | .error t => .trap f (s.faultWalk w.tenant va t) t
       | .ok (b, s) => .ok f s b 0 [] false)
    | .ok (.fab x va) => fabAccess wk w f s x va 0 a (Acc.load n false)
    | .ok _ => .trap f s (trapOf .protection 0x09 a)

/-- A fault of an engine word at issue. -/
def engParam (sub : Nat) (a : DWord) : Trap := trapOf .engineParam sub a

/-- The selector of an address is 0x0 or 0x9: the address makes a command token-class (18 R332). -/
def tokenSel (a : DWord) : Bool := selOf a == 0x0 || selOf a == 0x9

/-- The slack of a command: its SLK field, or the fibre's (07 R138). -/
def cmdSlack (f : Fibre) (slk : Word) : BitVec 12 :=
  if slk.extractLsb' 0 12 = 0 then f.slack else slk.extractLsb' 0 12

/-- An object that a command will write when it ends: bounds, peer, translation and write permission at issue
(12 Table 12-4 row 15, 13 Table 13-5 row 14). With `win` it may lie in a fabric window (20 R345): a record is written by
a packet, an addition could not be (DESIGN CHOICE, log 20). -/
def endTarget (s : State) (wk : Nat) (w : Workgroup) (win : Bool) (align n : Nat) (a : DWord) : Except (Trap × State) State :=
  match addrFault false [0x0, 0x8, 0x9] align a with
  | some t => .error (t, s)
  | none =>
    match placeOf s wk w 0 a n with
    | .error t => .error (t, s)
    | .ok (.fab _ _) => if win then .ok s else .error (trapOf .protection 0x09 a, s)
    | .ok (.glob va) =>
      overParts (fun p s =>
        if 2 ^ 56 ≤ p.1 then .error (trapOf .protection 0 a, s)
        else
        match s.translate (clusterOf w.core) w.tenant p.1 p.2 true a with
        | .error t => .error (t, s.faultWalk w.tenant p.1 t)
        | .ok (_, _, s) => .ok s) (partsOf va n) s
    | .ok _ => .ok s

/-- A command has been issued: it counts in ENGO, and the load of its parameter block is a load of the fibre (12 R225, 13
R244; 07 R143, 08 R151). -/
def Fibre.issued (f : Fibre) (s : State) (a : DWord) (late : Bool) : Fibre :=
  { f with engo := f.engo + 1 }.count s true false [(a, late)] [] true

/-- Where a command issued now by a fibre stands in the issue order. -/
def State.issueOf (s : State) (w : Workgroup) (f : Fibre) : Issue :=
  { cycle := s.cycles, lane := f.lane, serial := w.nextCmd, mark := s.fabric.nextTag, made := f.nextSt }

/-- The issue order of engine commands: by cycle, in one cycle by lane (12 R219, 13 R241). -/
def Issue.before (i j : Issue) : Bool :=
  i.cycle < j.cycle || (i.cycle == j.cycle && (i.lane < j.lane || (i.lane == j.lane && i.serial < j.serial)))

/-- A command enters a queue: behind all that stands there, but before the words that higher lanes issued in the same
cycle (12 R219, 13 R241). -/
def enterQueue {α : Type} (iss : α → Issue) (c : α) (q : List α) : List α :=
  let later (x : α) : Bool := (iss x).cycle == (iss c).cycle && (iss c).lane < (iss x).lane
  q.takeWhile (fun x => !later x) ++ c :: q.dropWhile fun x => !later x

/-! ## Engine reads and writes -/

/-- A byte with a mark for poison (13 R246, 21 R373). -/
abbrev MByte := Byte × Bool

/-- Bytes of one part of a scratchpad or stash, at most a 32-byte sector. A stash line that cannot be filled because
its source is poisoned reads as poisoned bytes. -/
def State.engScratch (s : State) (wk off n : Nat) (a : DWord) : Except Trap (List MByte × State) :=
  match s.stashLine wk off a with
  | .error t =>
    if t.code = .poison then
      let r := freeBytes n s
      .ok (r.1.map fun b => (b, true), r.2.faultFill wk off t)
    else .error t
  | .ok (_, s) =>
    match s.wg wk with
    | none => .ok (List.replicate n (0, false), s)
    | some w => .ok ((List.range n).map fun i => (cellGet w.mem (off + i), w.poison.contains ((off + i) / 32)), s)

/-- Bytes of one part of global memory. -/
def State.engGlob (s : State) (w : Workgroup) (va n : Nat) (a : DWord) : Except Trap (List MByte × State) :=
  match s.translate (clusterOf w.core) w.tenant va n false a with
  | .error t => .error t
  | .ok (pa, _, s) =>
    let bad := fun i => s.poisoned (pa + i) 1
    let r := s.physRead none pa n
    .ok ((List.range n).map fun i => ((r.1[i]?).getD 0, bad i), r.2)

/-- Where the part at offset o of an engine access lies: a workgroup's scratchpad, or global memory. -/
inductive EngPlace where
  | scratch (wk off : Nat)
  | glob (va : Nat)
  /-- an address that a stream reaches and whose must-be-zero bits are not zero (07 R126) -/
  | beyond
  deriving DecidableEq, Repr

def EngPlace.start : EngPlace → Nat
  | .scratch _ o => o
  | .glob va => va
  | .beyond => 0

/-- The place of an address on selector 0x0, 0x8 or 0x9; a stream may reach one whose must-be-zero bits are set. -/
def engPlace (s : State) (wk : Nat) (w : Workgroup) (a : DWord) : EngPlace :=
  if (selFault false a).isSome then .beyond
  else
    match selOf a with
    | 0x8 => .scratch wk (a.toNat % 2 ^ 32)
    | 0x9 => .scratch ((s.memberKey w (bitsN a.toNat 57 3)).getD wk) (a.toNat % 2 ^ 32)
    | _ => .glob (a.toNat % 2 ^ 56)

/-- Where a part of an engine access lies, for the stores of the workgroup's fibres that it must observe (08 R158). -/
def EngPlace.storage (p : EngPlace) (s : State) (w : Workgroup) (x : Nat) : Option Nat × Nat :=
  match p with
  | .scratch k _ => s.scratchStorage k x
  | .glob _ => (s.storageOf w.tenant x).getD (none, 2 ^ 64)
  | .beyond => (none, 2 ^ 64)

/-- An engine's access to n bytes observes what the fibres of its workgroup have stored there (08 R158). -/
def State.observed (s : State) (w : Workgroup) (p : EngPlace) (x n : Nat) : State :=
  if w.fibres.vals.all fun f => f.stq.isEmpty then s else s.drainOver w.key (p.storage s w x) n

/-- Splits a range at 32-byte sectors. -/
def sectorParts : Nat → Nat → Nat → List (Nat × Nat)
  | 0, _, _ => []
  | fuel + 1, a, n =>
    if n = 0 then [] else (a, min n (32 - a % 32)) :: sectorParts fuel (a + min n (32 - a % 32)) (n - min n (32 - a % 32))

/-- An engine's access has faulted: the walk has read its entries (07 R133, R136). -/
def State.engFaulted (s : State) (w : Workgroup) (p : EngPlace) (x : Nat) (t : Trap) : State :=
  match p with
  | .scratch k _ => s.faultFill k x t
  | .glob _ => if x < 2 ^ 56 then s.faultWalk w.tenant x t else s
  | .beyond => s

/-- An address that a run reaches has must-be-zero bits set: it has run past the end of its space (07 R126). -/
def runsOut (p : EngPlace) (a : DWord) : Option Trap :=
  if p == .beyond || (selFault false a).isSome then some (trapOf .protection 0 a) else none

/-- An engine read: the bytes up to the first fault, and the fault. -/
def State.engRead (s : State) (w : Workgroup) (p : EngPlace) (n : Nat) (a : DWord) : List MByte × State × Option Trap :=
  (sectorParts (n / 32 + 2) p.start n).foldl (fun (r : List MByte × State × Option Trap) x =>
    match r.2.2 with
    | some _ => r
    | none =>
      let at_ := a + BitVec.ofNat 64 (x.1 - p.start)
      let s := r.2.1.observed w p x.1 x.2
      let q : Except Trap (List MByte × State) := match runsOut p at_, p with
        | some t, _ => .error t
        | none, .scratch k _ => s.engScratch k x.1 x.2 at_
        | none, _ => s.engGlob w x.1 x.2 at_
      match q with
      | .error t => (r.1, s.engFaulted w p x.1 t, some { t with addr := at_ })
      | .ok (b, s) => (r.1 ++ b, s, none)) ([], s, none)

/-- Poisons the sectors of n bytes of a scratchpad, and counts them for the sensor (21 R369). -/
def State.scratchPoison (s : State) (wk off n : Nat) : State :=
  match s.wg wk with
  | none => s
  | some w =>
    let new := (sectorsOf off n).filter fun k => !w.poison.contains k
    { s.putWg wk { w with poison := w.poison ++ new } with
      fw := { s.fw with poisonedCount := s.fw.poisonedCount + new.length } }

/-- Poisons the sectors of a scratchpad that receive a poisoned byte. -/
def State.markScratch (s : State) (wk off : Nat) (bs : List MByte) : State :=
  if bs.any (·.2) then s.scratchPoison wk off bs.length else s

/-- One part of an engine write, at most a sector: a plain write of data (08 R146), or with `data` false the update of an
object by an addition. -/
def State.engPut (s : State) (w : Workgroup) (data : Bool) (p : EngPlace) (x : Nat) (bs : List MByte) (a : DWord) :
    Except Trap State :=
  match runsOut p a, p with
  | some t, _ => .error t
  | none, .scratch k _ =>
    (match s.scratchWrite k x (bs.map (·.1)) a with
     | .error t => .error t
     | .ok t =>
       .ok ((if data then t.afterStore s none (s.scratchStorage k x) bs.length .plain else t).markScratch k x bs))
  | none, _ =>
    match s.translate (clusterOf w.core) w.tenant x bs.length true a with
    | .error t => .error t
    | .ok (pa, _, s) =>
      let t := s.physWrite none pa (bs.map (·.1))
      let t := if data then t.afterStore s none (none, pa) bs.length .plain else t
      .ok (if bs.any (·.2) then t.poisonAt pa bs.length else t)

/-- An engine write: how many bytes were written before the first fault, and the fault. -/
def State.engWrite (s : State) (w : Workgroup) (data : Bool) (p : EngPlace) (bs : List MByte) (a : DWord) :
    Nat × State × Option Trap :=
  (sectorParts (bs.length / 32 + 2) p.start bs.length).foldl (fun (r : Nat × State × Option Trap) x =>
    match r.2.2 with
    | some _ => r
    | none =>
      let at_ := a + BitVec.ofNat 64 (x.1 - p.start)
      let s := r.2.1.observed w p x.1 x.2
      match s.engPut w data p x.1 ((bs.drop (x.1 - p.start)).take x.2) at_ with
      | .error t => (r.1, s.engFaulted w p x.1 t, some { t with addr := at_ })
      | .ok s => (r.1 + x.2, s, none)) (0, s, none)

/-- A whole write or its fault. -/
def State.engStore (s : State) (wk : Nat) (w : Workgroup) (data : Bool) (a : DWord) (bs : List MByte) :
    Except (Trap × State) State :=
  match s.engWrite w data (engPlace s wk w a) bs a with
  | (_, s, none) => .ok s
  | (_, s, some t) => .error (t, s)

/-- A barrier addition that an engine makes at the object's point of coherence, with a fresh translation
(08 R159, 13 R376). -/
def State.engAdd (s : State) (wk : Nat) (w : Workgroup) (a : DWord) (n flags : Nat) :
    Except (Trap × State) State :=
  match objPlace s wk w false 16 16 a with
  | .error t => .error (t, s)
  | .ok _ =>
    match s.engRead w (engPlace s wk w a) 16 a with
    | (_, s, some t) => .error (t, s)
    | (b, s, none) =>
      if b.any (·.2) then .error (trapOf .poison 0 a, s)
      else
        let x := s.objStorage wk w a
        let r := s.barSum x (b.map (·.1)) n flags
        match r.2.engStore wk w false a (r.1.map fun x => (x, false)) with
        | .error e => .error e
        | .ok s => .ok ((s.noteSum x r.1).noteFlip x (b.map (·.1)) r.1)

/-! ## Reports of a command -/

/-- A record about an engine command, KIND 2 or 6 (18 R323). RPC is a free value: no instruction would continue. -/
def State.engineRecord (s : State) (own : Owner) (kind chan : Nat) (t : Trap) (impr : Bool) : State :=
  match s.wg own.wk with
  | none => s
  | some w =>
    let lo := s.draw Config.freeWord
    let hi := lo.2.draw Config.freeWord
    let code : Code := if t.code = .translation then .translation else .protection
    (hi.2.writeRecord w.tenant (s.fqOf w.launch) w.launch
      { cause := causeWord code t.sub 0 impr ||| BitVec.ofNat 32 (kind * 16777216), launch := w.launch, wgid := w.wgid,
        fid := own.fid, chan := chan, core := w.core, pc := own.pc, addr := t.addr, rpc := pair lo.1 hi.1,
        cause0 := 0 }).2

/-- The issuing fibre of a command, if it has not ended. -/
def State.ownerFibre (s : State) (own : Owner) : Option Fibre :=
  match s.wg own.wk with
  | none => none
  | some w => (w.fibres.find own.fid).bind fun f => if f.uid = own.uid then some f else none

/-- What a fibre has stored before it issued a command is performed, and what it has loaded is fixed, before the command has
an effect: its reads observe the one, and its writes follow both (08 R158). -/
def State.preceded (s : State) (own : Owner) (i : Issue) : State :=
  match s.wg own.wk, s.ownerFibre own with
  | some w, some f =>
    let r := f.perform (fun p => p.serial < i.made) w.core s
    r.2.putFibre own.wk { r.1 with lq := r.1.lq.filter fun x => i.made ≤ x.serial }
  | _, _ => s

/-- A command leaves ENGO. -/
def State.engoDone (s : State) (own : Owner) : State :=
  match s.ownerFibre own with
  | none => s
  | some f => s.putFibre own.wk { f with engo := f.engo - 1 }

/-- A result still owed is older than the handler's entry, which has written s60 and s61 (01 R25, R378). -/
def Fibre.outdated (f : Fibre) (d : Nat) : Bool := f.fresh && f.tm && (d == 60 || d == 61)

/-- An engine result register reaches an ended fibre: it is discarded, and no longer in flight (04 R88). -/
def Workgroup.ghostResult (w : Workgroup) (uid d : Nat) : Workgroup :=
  { w with ghosts := w.ghosts.map fun g => if g.uid = uid then { g with busy := dropOne d g.busy } else g }

/-- An engine delivers a result register (12 R239, 13 R259). A fibre whose word waits to push the result is woken. -/
def State.deliverS (s : State) (own : Owner) (d : Nat) (x : Word) : State :=
  match s.ownerFibre own with
  | none => s.updWg own.wk fun w => w.ghostResult own.uid d
  | some f =>
    if d = 0 then s
    else if f.busy.contains d then
      s.putFibre own.wk { (if f.outdated d then f else f.putS d x) with busy := dropOne d f.busy }.drainShed
    else s.putFibre own.wk { f.putS d x with sleep := .woken }

/-- Who issues a command. -/
def ownerOf (wk : Nat) (f : Fibre) : Owner := { wk := wk, fid := f.fid, uid := f.uid, pc := f.pc }

/-- Whether a command that waited in its queue since tick t completes late (12 R234): its slack ran out before it
started, or a read returned LATE. -/
def State.cmdLate (s : State) (slack : BitVec 12) (t : Nat) : Bool × State :=
  let r := s.draw Config.engineLate
  (lateAfter slack r.1 (s.tick - t), r.2)

end Sys2Proof.Machine
end

