-- ==== Sys2Proof/Machine/Matrix.lean ====
section
/-! DEFINITION. The matrix engine and the accumulator store (12 R218 to R240). -/

namespace Sys2Proof.Machine

/-! ## Parameters and checks (12 R225 to R231) -/

/-- The fields of a parameter block that the checks need beside the command itself. -/
structure MmaBlock where
  ctrl : Nat
  klen : Nat
  slk : Word
  org : Nat
  bar : DWord
  aext : Nat
  bext : Nat
  amisc : Nat
  bmisc : Nat
  deriving DecidableEq, Repr

def mmaBlock (b : List Byte) : MmaBlock :=
  { ctrl := (wordAt b 0).toNat, klen := (wordAt b 4).toNat, slk := wordAt b 8, org := (wordAt b 12).toNat
    bar := dwordAt b 16, aext := (wordAt b 0x1C).toNat, bext := (wordAt b 0x30).toNat
    amisc := (wordAt b 0x28).toNat, bmisc := (wordAt b 0x3C).toNat }

/-- An operand map at offset o of the block (Table 12-3). -/
def opMapAt (b : List Byte) (o src fmt : Nat) (scl : Bool) : OpMap :=
  { src := src, base := (wordAt b o).toNat, stride := (wordAt b (o + 8)).toNat
    sgs := bitsN (wordAt b (o + 12)).toNat 16 16, soff := bitsN (wordAt b (o + 12)).toNat 0 16
    swz := bitsN (wordAt b (o + 16)).toNat 0 2, fmt := fmt, scl := scl }

/-- The source workgroup of an operand: its own, or a hitch member. -/
def operandSource (s : State) (wk : Nat) (w : Workgroup) (peer : Bool) (n : Nat) : Nat :=
  if peer then (s.memberKey w n).getD wk else wk

/-- The command that a block describes (Tables 12-1 to 12-3). -/
def mmaCmd (s : State) (wk : Nat) (w : Workgroup) (b : List Byte) (slot : Nat) (sc : DWord) : MmaCmd :=
  let x := mmaBlock b
  let bit_ := fun k => bitN x.ctrl k
  { slot := slot, m := 2 ^ (4 + bitsN x.ctrl 12 2), n := 2 ^ (4 + bitsN x.ctrl 14 2), k := x.klen
    zero := bit_ 17, isat := bit_ 16
    split := (match bitsN x.ctrl 10 2 with
      | 0 => 0
      | 1 => 64
      | 2 => 256
      | _ => 1024)
    orgr := bitsN x.org 0 7, orgc := bitsN x.org 8 6, bar := x.bar, sa := loWord sc, sb := hiWord sc
    opA := opMapAt b 0x18 (operandSource s wk w (bit_ 21) (bitsN x.ctrl 18 3)) (bitsN x.ctrl 0 4) (bit_ 8)
    opB := opMapAt b 0x2C (operandSource s wk w (bitsN x.ctrl 22 2 != 0) (bitsN x.ctrl 24 3)) (bitsN x.ctrl 4 4) (bit_ 9) }

/-- The bytes of a line that an operand touches (R226). -/
def OpMap.span (o : OpMap) (k : Nat) : Nat :=
  let n := ceilDiv (k * fmtBits o.fmt) 8
  match o.swz with
  | 0 => n
  | 1 => 128 * ceilDiv n 128
  | _ => 256 * ceilDiv n 256

def OpMap.footprint (o : OpMap) (lines k : Nat) : Nat := if k = 0 then 0 else (lines - 1) * o.stride + o.span k

def OpMap.aligned (o : OpMap) : Bool :=
  let a := match o.swz with
    | 0 => 4
    | 1 => 128
    | _ => 256
  o.base % a == 0 && (o.swz == 0 || o.stride % a == 0) && o.soff % 4 == 0

/-- The last byte of the scale range of an operand, plus one (R227). -/
def OpMap.scaleEnd (o : OpMap) (lines k : Nat) : Nat :=
  o.soff + 36 * ((lines - 1) * o.sgs + (ceilDiv (ceilDiv k 4) 32) - 1) + 36

/-- Reserved or unused fields of a block that are not zero (Table 12-4 row 6). -/
def mmaReserved (x : MmaBlock) : Bool :=
  let bsrc := bitsN x.ctrl 22 2
  bitsN x.ctrl 27 5 != 0 || bitsN x.slk.toNat 12 20 != 0 ||
    bitsN x.org 24 8 != 0 || bitsN x.org 14 2 != 0 || bitN x.org 7 ||
    bitsN x.amisc 2 30 != 0 || bitsN x.bmisc 2 30 != 0 ||
    bitsN x.ctrl 14 2 == 3 || bsrc == 3 || bitsN x.amisc 0 2 == 3 || bitsN x.bmisc 0 2 == 3 ||
    (bitN x.ctrl 16 && bitsN x.ctrl 0 4 != 7) ||
    (!bitN x.ctrl 21 && bitsN x.ctrl 18 3 != 0) || (bsrc == 0 && bitsN x.ctrl 24 3 != 0) ||
    (bsrc != 2 && bitsN x.org 16 8 != 0)

/-- The end of the allocation of the workgroup that an operand reads. -/
def State.extentOf (s : State) (wk : Nat) : Nat := ((s.wg wk).map Workgroup.extent).getD 0

/-- Row 11 of Table 12-4 and its like: the BAR of a command is misaligned or on a forbidden selector. -/
def barFault? (bar : DWord) : Option Trap :=
  if bar ≠ 0 ∧ (bar.toNat % 16 ≠ 0 ∨ [0x0, 0x8, 0x9].contains (selOf bar) = false) then
    some (engParam 0x09 bar)
  else none

/-- Rows 4 to 14 of Table 12-4; `a` is the block's address. -/
def mmaFault (s : State) (w : Workgroup) (x : MmaBlock) (c : MmaCmd) (a : DWord) : Option Trap :=
  let fa := bitsN x.ctrl 0 4
  let fb := bitsN x.ctrl 4 4
  let bounds (sub : Nat) : Option Trap := some (trapOf .scratchBounds sub a)
  let peer (on_ : Bool) (n : Nat) : Bool := on_ && w.hdr.hitch ≤ n
  if 8 ≤ fa ∨ 8 ≤ fb then some (engParam 0x01 a)
  else if fmtGroup fa ≠ fmtGroup fb ∨ (c.opA.scl && !fmtScaled fa) = true ∨ (c.opB.scl && !fmtScaled fb) = true then
    some (engParam 0x02 a)
  else if mmaReserved x then some (engParam 0x03 a)
  else if c.orgr % 16 ≠ 0 ∨ c.orgc % 16 ≠ 0 ∨ 128 < c.orgr + c.m ∨ 64 < c.orgc + c.n then some (engParam 0x05 a)
  else if 1048576 < c.k then some (engParam 0x06 a)
  else if !c.opA.aligned || !c.opB.aligned then some (engParam 0x07 a)
  else if x.aext < c.opA.footprint c.m c.k ∨ x.bext < c.opB.footprint c.n c.k then some (engParam 0x08 a)
  else if (barFault? x.bar).isSome then barFault? x.bar
  else if peer (bitN x.ctrl 21) (bitsN x.ctrl 18 3) then some (trapOf .peerInvalid 0x01 a)
  else if peer (bitsN x.ctrl 22 2 != 0) (bitsN x.ctrl 24 3) then some (trapOf .peerInvalid 0x02 a)
  else if s.extentOf c.opA.src < c.opA.base + x.aext then bounds 0x01
  else if s.extentOf c.opB.src < c.opB.base + x.bext then bounds 0x02
  else if c.opA.scl && c.k != 0 && 8192 * w.hdr.accslots < c.opA.scaleEnd c.m c.k then bounds 0x03
  else if c.opB.scl && c.k != 0 && 8192 * w.hdr.accslots < c.opB.scaleEnd c.n c.k then bounds 0x04
  else none

/-- All of Table 12-4 from row 4 on. -/
def mmaCheck (s : State) (wk : Nat) (w : Workgroup) (x : MmaBlock) (c : MmaCmd) (a : DWord) : Except (Trap × State) State :=
  match mmaFault s w x c a with
  | some t => .error (t, s)
  | none => if x.bar = 0 then .ok s else endTarget s wk w false 16 16 x.bar

/-! ## Queues and tiles (12 R219, R240) -/

/-- A command enters its workgroup's queue. -/
def State.enqueueM (s : State) (wk : Nat) (f : Fibre) (op : MOp) (slack : BitVec 12) : State :=
  s.updWg wk fun w =>
    let c : MCmd :=
      { op := op, own := ownerOf wk f, iss := s.issueOf w f, slack := slack, tick := s.tick, started := false, k := 0,
        psn := false, late := false, lost := 0, stalled := none, failed := false }
    { w with mq := enterQueue MCmd.iss c w.mq, nextCmd := w.nextCmd + 1 }

/-- A queue that holds 16 commands is full. The running command is one of them: R219 does not say so, and R220 lets it return
to the head of its queue (DESIGN CHOICE, log 95). -/
def Workgroup.queueFull (w : Workgroup) : Bool := 16 ≤ w.mq.length

/-- A tile that a command of a direct-mode workgroup will write; tiles that every fibre has observed are dropped. -/
def Workgroup.addTile (w : Workgroup) (t : Tile) : Workgroup :=
  if w.hdr.accm then
    let all := w.fibres.vals.map (·.uid)
    { w with tiles := (w.tiles.filter fun t => !(t.done && all.all fun u => t.seenBy.contains u)) ++ [t] }
  else w

/-- The first pending tile of a command is done. -/
def tileDone (slot : Nat) (own : Owner) (bar : DWord) : List Tile → List Tile
  | [] => []
  | t :: ts =>
    if t.slot = slot ∧ t.own = own ∧ t.bar = bar ∧ t.done = false then { t with done := true } :: ts
    else t :: tileDone slot own bar ts

/-! ## Issue -/

/-- A command whose parameter block, operands or barrier lie on selector 0x0 or 0x9 is token-class (18 R332); a peer
or multicast source lies on 0x9. -/
def mmaToken (x : MmaBlock) : Bool :=
  bitN x.ctrl 21 || bitsN x.ctrl 22 2 != 0 || (x.bar != 0 && tokenSel x.bar)

/-- A slot at or beyond ACCSLOTS (R235). -/
def slotFault (w : Workgroup) (k : Nat) : Option Trap := if w.hdr.accslots ≤ k then some (engParam 0x04 0) else none

/-- The scales that X names, ReadS(X) and ReadS(X + 1): with X = 0 the second is s1 (12 R236). -/
def Fibre.scales (f : Fibre) (x : Nat) : DWord := pair (f.getS x) (f.getS (x + 1))

/-- The reads of that pair. -/
def scaleUse (x : Nat) : List Opnd := if x = 0 then [.s 1] else [.s2 x]

/-- `mma` (12 R236). A word that must have the token stalls before its checks look at what other workgroups write
(18 R332). -/
def execMma (o : SGPXK) (s : State) : Out :=
  word (uUse o.s o.g (.s2 o.p.toNat :: scaleUse o.x.toNat) []) noPre (fun wk w _ f s =>
    let a := f.getS64 o.p.toNat
    let slot := o.k.toNat
    if s.tokenStall w && tokenSel a then .wait f s .token
    else if w.queueFull then .wait f s .held
    else if w.hdr.accslots ≤ slot then .trap f s (engParam 0x04 a) 0
    else
      match blockRead wk w f s a 64 with
      | .trap f s t => .trap f s t 0
      | .wait f s => .wait f s .held
      | .ok f s b _ _ late =>
        let x := mmaBlock b
        let c := mmaCmd s wk w b slot (f.scales o.x.toNat)
        if s.tokenStall w && mmaToken x then .wait f s .token
        else
          match mmaCheck s wk w x c a with
          | .error (t, s) => .trap f s t 0
          | .ok s =>
            let s := s.enqueueM wk f (.mma c) (cmdSlack f x.slk)
            .done (f.issued s a late)
              (s.updWg wk fun w => w.addTile
                { slot := slot, r0 := c.orgr, c0 := c.orgc, m := c.m, n := c.n, own := ownerOf wk f, bar := c.bar,
                  done := false, seenBy := [], handed := [] })) s

/-- The fibre's own command waits in the queue. -/
def Workgroup.awaits (w : Workgroup) (own : Owner) : Bool := w.mq.any fun c => c.own == own

/-- `mswap` (12 R237): it enters the queue, and the fibre waits until it has been executed. -/
def execMswap (o : SGK) (s : State) : Out :=
  word (uUse o.s o.g [] []) noPre (fun wk w _ f s =>
    match slotFault w o.k.toNat with
    | some t => .trap f s t 0
    | none =>
      if w.hdr.accm then .trap f s (engParam 0x0A 0) 0
      else if f.sleep = .woken then .done f s
      else if w.awaits (ownerOf wk f) || w.queueFull then .wait f s .held
      else .wait f (s.enqueueM wk f (.mswap o.k.toNat) f.slack) .held) s

/-- `mclr` (12 R238). -/
def execMclr (o : SGVK) (s : State) : Out :=
  word (uUse o.s o.g [] []) noPre (fun wk w _ f s =>
    match slotFault w o.k.toNat with
    | some t => .trap f s t 0
    | none =>
      if w.queueFull then .wait f s .held
      else
        .done { f with engo := f.engo + 1 }
          ((s.enqueueM wk f (.mclr o.k.toNat (on o.v)) f.slack).updWg wk fun w => w.addTile
            { slot := o.k.toNat, r0 := 0, c0 := 0, m := 128, n := 64, own := ownerOf wk f, bar := 0, done := false,
              seenBy := [], handed := [] })) s

/-- `mflag` (12 R239): sX is owed by the engine; a word whose sX is a bound out port waits for the value it pushes. -/
def execMflag (o : SGXCTWK) (s : State) : Out :=
  word (uUse o.s o.g [] [.s o.x.toNat]) noPre (fun wk w _ f s =>
    match if on o.t then none else slotFault w o.k.toNat with
    | some t => .trap f s t 0
    | none =>
      let op : MOp := .mflag o.x.toNat o.k.toNat (on o.c) (on o.t) (on o.w)
      let port := (f.bound o.x.toNat).isSome
      if port && f.sleep == .woken then .done f s
      else if (port && w.awaits (ownerOf wk f)) || w.queueFull then .wait f s .held
      else
        let s := s.enqueueM wk f op f.slack
        let f := { f with engo := f.engo + 1 }
        if port then .wait f s .held
        else .done (if o.x = 0 then f else { f with busy := f.busy ++ [o.x.toNat] }) s) s

/-! ## Operands (12 R226, R227, R232) -/

/-- Swz(l, o). -/
def swizzle (swz l o : Nat) : Nat :=
  match swz with
  | 0 => o
  | 1 => o ^^^ (l % 8 * 16)
  | _ => o ^^^ (l % 8 * 32)

/-- The scratchpad offset of the byte that holds element k of line l. -/
def OpMap.byteOf (o : OpMap) (l k : Nat) : Nat := o.base + l * o.stride + swizzle o.swz l (k * fmtBits o.fmt / 8)

/-- The scale of element k of line l (R227). -/
def OpMap.scaleOf (o : OpMap) (scale : List Host.Cell) (l k : Nat) : Option (Nat × Int) :=
  if o.scl then
    let q := k / 4
    s9Val (s9At (cellRead scale (o.soff + 36 * (l * o.sgs + q / 32)) 36) (q % 32))
  else some (1, 0)

/-- The address by which the issuing workgroup names a byte of an operand. -/
def operandAddr (s : State) (wk : Nat) (o : OpMap) (off : Nat) : DWord :=
  if o.src = wk then BitVec.ofNat 64 (8 * 2 ^ 60 + off)
  else BitVec.ofNat 64 (9 * 2 ^ 60 + ((s.wg o.src).map (·.member)).getD 0 * 2 ^ 57 + off)

/-- Reads element k of line l. A stash line that cannot be filled stalls the command, or once firmware has declared
the fault unresolved, and for every other failure, counts as poisoned. -/
def readElem (s : State) (wk : Nat) (w : Workgroup) (o : OpMap) (force : Bool) (l k : Nat) :
    Except (Trap × State) (MElem × State) :=
  let off := o.byteOf l k
  let bad : MElem := { v := .nan false, i := 0, nv := false, bad := true }
  match s.engRead w (.scratch o.src off) (ceilDiv (fmtBits o.fmt) 8) (operandAddr s wk o off) with
  | (_, s, some t) => if t.replay && !force then .error (t, s) else .ok (bad, s)
  | (bs, s, none) =>
    if bs.any (·.2) then .ok (bad, s)
    else
      let b := bs.map (·.1)
      if o.fmt = 7 then .ok ({ v := .nan false, i := (BitVec.ofNat 8 (leNat b)).toInt, nv := false, bad := false }, s)
      else
        let r := scaleElem (elemVal o.fmt k b) (o.scaleOf w.scale l k)
        .ok ({ v := r.1, i := 0, nv := r.2, bad := false }, s)

/-- The elements of a line for a range of k. -/
def readLine (wk : Nat) (w : Workgroup) (o : OpMap) (force : Bool) (l : Nat) : List Nat → State →
    Except (Trap × State) (List MElem × State)
  | [], s => .ok ([], s)
  | k :: ks, s =>
    match readElem s wk w o force l k with
    | .error t => .error t
    | .ok (e, s) =>
      match readLine wk w o force l ks s with
      | .error t => .error t
      | .ok (es, s) => .ok (e :: es, s)

/-- The elements of every line. -/
def readLines (wk : Nat) (w : Workgroup) (o : OpMap) (force : Bool) (ks : List Nat) : List Nat → State →
    Except (Trap × State) (List (List MElem) × State)
  | [], s => .ok ([], s)
  | l :: ls, s =>
    match readLine wk w o force l ks s with
    | .error t => .error t
    | .ok (e, s) =>
      match readLines wk w o force ks ls s with
      | .error t => .error t
      | .ok (es, s) => .ok (e :: es, s)

/-! ## Steps (12 R232) -/

/-- One element over a range of k, in ascending order: its value, the flags, and whether a poisoned byte was met,
whose step leaves a free value and free flags. -/
def elemRun (int sat : Bool) : List MElem → List MElem → Word → BitVec 4 → Bool → State → Word × BitVec 4 × Bool × State
  | a :: as, b :: bs, c, fl, psn, s =>
    if a.bad || b.bad then
      let x := s.draw Config.freeWord
      let y := x.2.draw Config.freeWord
      elemRun int sat as bs x.1 (fl ||| (y.1.extractLsb' 0 4 &&& (if int then (if sat then 4 else 2) else 0xB))) true y.2
    else
      let r := if int then intStep sat a b c else floatStep a b c
      elemRun int sat as bs r.1 (fl ||| r.2) psn s
  | _, _, c, fl, psn, s => (c, fl, psn, s)

/-- Writes an element of a bank. -/
def Bank.set (b : Bank) (k : Nat) (x : Word) : Bank := { b with el := if x = 0 then b.el.del k else b.el.put k x }

/-- The elements of a tile: rows and columns within it. -/
def tileElems (m n : Nat) : List (Nat × Nat) := (List.range m).flatMap fun i => (List.range n).map fun j => (i, j)

/-- The index of an element of a command's tile in its bank. -/
def MmaCmd.index (c : MmaCmd) (i j : Nat) : Nat := 64 * (c.orgr + i) + c.orgc + j

/-- The steps of a range of k over the whole tile of a bank. -/
def runTile (c : MmaCmd) (as bs : List (List MElem)) (b : Bank) (s : State) : Bank × Bool × State :=
  (tileElems c.m c.n).foldl (fun (r : Bank × Bool × State) e =>
    let k := c.index e.1 e.2
    let x := elemRun (c.opA.fmt == 7) c.isat ((as[e.1]?).getD []) ((bs[e.2]?).getD []) (r.1.elem k) r.1.flags false r.2.2
    ({ (r.1.set k x.1) with flags := x.2.1, psn := r.1.psn || x.2.2.1 }, r.2.1 || x.2.2.1, x.2.2.2)) (b, false, s)

/-- The bank that products and the default `mclr` act on is `work` in either mode; `vis` exists in banked mode. -/
def Workgroup.updSlot (w : Workgroup) (k : Nat) (g : AccSlot → AccSlot) : Workgroup :=
  { w with acc := w.acc.modify k g }

/-- Runs the k-steps from the command's next k up to `k1`: reads the operand bytes, then steps every element. -/
def runSteps (s : State) (wk : Nat) (w : Workgroup) (c : MmaCmd) (k0 k1 : Nat) (force : Bool) :
    Except (Trap × State) (Bool × State) :=
  let ks := (List.range (k1 - k0)).map (k0 + ·)
  match readLines wk w c.opA force ks (List.range c.m) s with
  | .error t => .error t
  | .ok (as, s) =>
    match readLines wk w c.opB force ks (List.range c.n) s with
    | .error t => .error t
    | .ok (bs, s) =>
      let r := runTile c as bs (w.slot c.slot).work s
      .ok (r.2.1, r.2.2.updWg wk fun w => w.updSlot c.slot fun x => { x with work := r.1 })

/-! ## Running the queue (12 R220, R232 to R234) -/

/-- The head of a workgroup's queue. -/
def Workgroup.mhead (w : Workgroup) : Option MCmd := w.mq.head?

/-- Changes the head of the queue. -/
def State.setHead (s : State) (wk : Nat) (c : MCmd) : State :=
  s.updWg wk fun w => { w with mq := c :: w.mq.drop 1 }

/-- The head leaves the queue. -/
def State.popHead (s : State) (wk : Nat) : State := s.updWg wk fun w => { w with mq := w.mq.drop 1 }

/-- Which workgroup's command runs in a core's engine. -/
def State.setRun (s : State) (core : Nat) (r : Option Nat) : State := s.putCore core { s.core core with mrun := r }

/-- A drain of a slot that has been issued and has not ended (R237). -/
def CCmd.drains (c : CCmd) (slot : Nat) : Bool :=
  match c.op with
  | .cpy _ _ srck _ _ _ k _ _ _ _ _ _ _ _ _ => srck == 1 && k == slot
  | .ldrain k _ _ _ _ _ _ _ _ _ _ _ => k == slot
  | _ => false

/-- Drains of a workgroup's visible bank in flight, for an exchange or a clear of it that was issued at `i` (R237, R238):
those issued before it, and those that have started. -/
def State.draining (s : State) (wk : Nat) (w : Workgroup) (slot : Nat) (i : Issue) : Bool :=
  (s.core w.core).chans.toList.any fun q => q.any fun c =>
    c.own.wk == wk && c.drains slot && (c.started || c.iss.before i)

/-- An exchange of a slot waits in the queue that was issued before `i`: a later drain reads the bank that it makes
visible (R237). -/
def Workgroup.swapsBefore (w : Workgroup) (slot : Nat) (i : Issue) : Bool := w.mq.any fun m =>
  m.iss.before i && m.op == .mswap slot

/-- A started product: the scales of its bank are set and its tile is zeroed where asked (R232). -/
def MmaCmd.prepare (c : MmaCmd) (b : Bank) : Bank :=
  let b := { b with sca := c.sa, scb := c.sb }
  if c.zero then (tileElems c.m c.n).foldl (fun b e => b.set (c.index e.1 e.2) 0) b else b

/-- A bank cleared by `mclr` (R238). -/
def Bank.wipe (b : Bank) : Bank := { b with el := [], flags := 0, psn := false }

/-- The word of Table 12-6 for a bank. -/
def Bank.report (b : Bank) : Word := BitVec.ofNat 32 (b.flags.toNat + (if b.psn then 16 else 0))

/-- What `mflag` reads, and the workgroup after it (R239). -/
def Workgroup.readFlags (w : Workgroup) (slot : Nat) (clr stk wb : Bool) : Word × Workgroup :=
  let clear (b : Bank) : Bank := if clr then { b with flags := 0, psn := false } else b
  if stk then (BitVec.ofNat 32 w.accstk.toNat, if clr then { w with accstk := 0 } else w)
  else if w.hdr.accm || wb then ((w.slot slot).work.report, w.updSlot slot fun x => { x with work := clear x.work })
  else ((w.slot slot).vis.report, w.updSlot slot fun x => { x with vis := clear x.vis })

/-- The start of the head of a queue, when the engine is free: a product starts or goes on; an exchange, a clear or a
flag read is executed. -/
def State.startHead (s : State) (wk : Nat) (w : Workgroup) (c : MCmd) : State :=
  match c.op with
  | .mma m =>
    let k := BitVec.ofNat 12 (agedSlack c.slack.toNat (s.tick - c.tick))
    if c.started then
      (s.setHead wk { c with slack := k, tick := s.tick, late := c.late || k == 0 }).setRun w.core (some wk)
    else
      let r := (s.preceded c.own c.iss).cmdLate c.slack c.tick
      ((r.2.setHead wk { c with slack := k, tick := s.tick, started := true, late := r.1 }).updWg wk fun w =>
        w.updSlot m.slot fun x => { x with work := m.prepare x.work }).setRun w.core (some wk)
  | .mswap slot =>
    if s.draining wk w slot c.iss then s
    else
      let s := (s.popHead wk).updWg wk fun w => w.updSlot slot fun x => { work := x.vis, vis := x.work }
      match s.ownerFibre c.own with
      | none => s
      | some f => s.putFibre wk { f with sleep := .woken }
  | .mclr slot vis =>
    let v := vis && !w.hdr.accm
    if v && s.draining wk w slot c.iss then s
    else
      (((s.popHead wk).updWg wk fun w => { (w.updSlot slot fun x =>
          if v then { x with vis := x.vis.wipe } else { x with work := x.work.wipe }) with
            tiles := tileDone slot c.own 0 w.tiles })).engoDone c.own
  | .mflag d slot clr stk wb =>
    let r := w.readFlags slot clr stk wb
    ((((s.putWg wk r.2).popHead wk).deliverS c.own d r.1)).engoDone c.own

/-- What the engine's arbiter sees of a queued command. -/
def MCmd.waiting (c : MCmd) : Waiting := { slack := c.slack.toNat, late := c.late, entered := c.tick, lost := c.lost }

/-- The head of a resident workgroup's queue can be granted: it is not stalled, the cycle in which it was issued is over
(R219), and what it does need not wait for a drain (R237, R238). -/
def State.mEligible (s : State) (wk : Nat) (w : Workgroup) : Bool :=
  w.run == .resident &&
  match w.mq with
  | [] => false
  | c :: _ =>
    !(c.stalled.isSome && !c.failed) && c.iss.cycle < s.cycles &&
    match c.op with
    | .mswap slot => !s.draining wk w slot c.iss
    | .mclr slot vis => !(vis && !w.hdr.accm && s.draining wk w slot c.iss)
    | _ => true

/-- The bids of a core's queues in one arbitration round (12 R220). -/
def State.mBids (s : State) (core : Nat) : List Bid :=
  s.wgs.filterMap fun e =>
    if e.2.core = core ∧ s.mEligible e.1 e.2 = true then bidOf e.1 s.tick (e.2.mq.map MCmd.waiting) else none

/-- A round that workgroup `wk` wins: every other bidder loses it (07 R140). -/
def State.mRound (s : State) (core : Nat) (bids : List Bid) (won : Bid) : State :=
  let s := s.putCore core { s.core core with nonbg := nonbgAfter (s.core core).nonbg won }
  bids.foldl (fun s b =>
    if b.key = won.key then s
    else s.updWg b.key fun w =>
      match w.mq with
      | [] => w
      | c :: cs => { w with mq := { c with lost := c.lost + 1 } :: cs }) s

/-- MMA_START (12 R220, R232): the engine of the core is free, and its arbiter grants the head of this queue. -/
def execMmaStart (wk : Nat) (s : State) : Out :=
  .next (match s.wg wk with
    | none => s
    | some w =>
      if (s.core w.core).mrun = none then
        let bids := s.mBids w.core
        match grantOf (s.core w.core).nonbg bids with
        | none => s
        | some b =>
          if b.key = wk then
            match w.mhead with
            | none => s
            | some c => (s.mRound w.core bids b).startHead wk w { c with lost := 0 }
          else s
      else s)

/-- The next granule boundary after k, or the end of the command (R233). -/
def MmaCmd.boundary (c : MmaCmd) (k : Nat) : Nat :=
  if c.split = 0 then c.k else min c.k ((k / c.split + 1) * c.split)

/-- A replayable translation fault stalls the queue: a record of KIND 2, and the engine is free (13 R376). -/
def State.stallQueue (s : State) (wk core : Nat) (c : MCmd) (t : Trap) : State :=
  ((s.setHead wk { c with stalled := some t.addr, failed := false }).setRun core none).engineRecord c.own 2 0 t false

/-- The running command of a workgroup. A stall of it that firmware has declared unresolved stands in the command. -/
def State.running (s : State) (wk : Nat) : Option (Workgroup × MCmd × MmaCmd) :=
  match s.wg wk with
  | none => none
  | some w =>
    if (s.core w.core).mrun = some wk then
      match w.mhead with
      | some c =>
        (match c.op with
         | .mma m => some (w, c, m)
         | _ => none)
      | none => none
    else none

/-- MMA_GRANULE (12 R220, R233): the running command reaches a split granule, and the engine arbitrates. -/
def execMmaGranule (wk : Nat) (s : State) : Out :=
  .next (match s.running wk with
    | none => s
    | some (w, c, m) =>
      if m.boundary c.k < m.k then
        match runSteps s wk w m c.k (m.boundary c.k) c.failed with
        | .error (t, s) => s.stallQueue wk w.core c t
        | .ok (psn, s) =>
          (s.setHead wk { c with k := m.boundary c.k, psn := c.psn || psn, failed := false, stalled := none, tick := s.tick }).setRun
            w.core none
      else s)

/-- A command that has completed leaves its queue and ENGO, and its tile is final. -/
def State.retireM (s : State) (wk core : Nat) (c : MCmd) (m : MmaCmd) : State :=
  ((((s.popHead wk).updWg wk fun w => { w with tiles := tileDone m.slot c.own m.bar w.tiles }).setRun core none)).engoDone
    c.own

/-- A workgroup that a fatal fault has stopped: its commands add nothing to any barrier (R234, 18 R324). -/
def Workgroup.dead (w : Workgroup) : Bool :=
  match w.run with
  | .dying _ => true
  | _ => false

/-- The barrier addition of a completed command (R234); a failure is handled as 13 R376 says. -/
def State.completeM (s : State) (wk : Nat) (w : Workgroup) (c : MCmd) (m : MmaCmd) : State :=
  if m.bar = 0 ∨ w.dead = true then s.retireM wk w.core c m
  else if s.fabric.storesBefore c.own c.iss then s
  else
    match c.stalled with
    | some a => (s.engineRecord c.own 6 0 (noTranslation a) true).retireM wk w.core c m
    | none =>
      match s.engAdd wk w m.bar (4 * m.m * m.n) ((if c.late then 1 else 0) + (if c.psn then 2 else 0)) with
      | .ok s => s.retireM wk w.core c m
      | .error (t, s) =>
        if t.replay then s.stallQueue wk w.core c t else (s.engineRecord c.own 6 0 t true).retireM wk w.core c m

/-- MMA_COMPLETION (12 R234). -/
def execMmaCompletion (wk : Nat) (s : State) : Out :=
  .next (match s.running wk with
    | none => s
    | some (w, c, m) =>
      if m.boundary c.k < m.k then s
      else
        match runSteps s wk w m c.k m.k c.failed with
        | .error (t, s) => s.stallQueue wk w.core c t
        | .ok (psn, s) =>
          -- a stall that firmware declared unresolved was the addition's only when no step was left
          let c := { c with k := m.k, psn := c.psn || psn, failed := false, stalled := if c.k = m.k then c.stalled else none }
          (s.setHead wk c).completeM wk w c m)

end Sys2Proof.Machine
end

