-- ==== Sys2Proof/Machine/CopyIssue.lean ====
section
/-! DEFINITION. Copy-engine words: parameter blocks, checks at issue, entry into a channel (13 R241, R244, R247 to R256). -/

namespace Sys2Proof.Machine

/-! ## What the checks of Table 13-5 look at -/

/-- The checks that depend on the command: a drain's slot, reserved or unused fields, limits, a `cpyr` run that
crosses 4 KiB, an unregistered model or layer, addresses with the selectors they may have, multicast members, ranges
in scratchpads with their subcode, ranges of scale memory. -/
structure CopyChecks where
  dslot : Option Nat
  reserved : Bool
  limits : Bool
  crosses : Bool
  model : Bool
  sels : List (DWord × List Nat)
  members : List Nat
  ranges : List (DWord × Nat × Nat)
  scales : List (Nat × Nat)
  token : Bool
  deriving DecidableEq, Repr

def anySel : List Nat := [0x0, 0x8, 0x9]

/-- An address on the own scratchpad. -/
def ownAddr (off : Nat) : DWord := BitVec.ofNat 64 (8 * 2 ^ 60 + off)

/-- An address on the scratchpad of a hitch member. -/
def peerAddr (m off : Nat) : DWord := BitVec.ofNat 64 (9 * 2 ^ 60 + m * 2 ^ 57 + off)

/-- The members that a mask names. -/
def maskMembers (x : Word) : List Nat := (List.range 8).filter fun m => bit x m

/-! ## `cpy` (R249 to R251) -/

/-- DFMT is one of the drain targets. -/
def drainFmt (d : Nat) : Bool := d ≤ 4 || d == 15

/-- The operation of a `cpy` block; `mask` is sX of a `cpy.mc`. -/
def cpyOp (mask : Option Word) (b : List Byte) : CopyOp :=
  let x := (wordAt b 0).toNat
  .cpy mask (bitsN x 26 2) (bitsN x 24 2) (bitsN x 20 4) (bitN x 19) (bitN x 18) (bitsN x 15 3) (dwordAt b 0x18)
    (dwordAt b 0x20) (wordAt b 0x28).toNat (bitsN (wordAt b 0x2C).toNat 0 16) (bitsN (wordAt b 0x2C).toNat 16 16)
    (wordAt b 0x30).toNat (wordAt b 0x34).toNat (wordAt b 0x38).toNat (wordAt b 0x3C).toNat

/-- Its checks. A misaligned DST has SUB 0x0B, whose row of Table 13-5 names a length, a count or a stride only
(DESIGN CHOICE, log 100). -/
def cpyChecks (mask : Option Word) (b : List Byte) : CopyChecks :=
  let x := (wordAt b 0).toNat
  let dstk := bitsN x 26 2
  let srck := bitsN x 24 2
  let dfmt := bitsN x 20 4
  let drain := srck == 1
  let src := dwordAt b 0x18
  let dst := dwordAt b 0x20
  let len := (wordAt b 0x28).toNat
  let c1 := bitsN (wordAt b 0x2C).toNat 0 16
  let c2 := bitsN (wordAt b 0x2C).toNat 16 16
  let s1 := (wordAt b 0x30).toNat
  let s2 := (wordAt b 0x34).toNat
  let d1 := (wordAt b 0x38).toNat
  let d2 := (wordAt b 0x3C).toNat
  let e := if drain then drainSize dfmt else 1
  let run := len * e
  let dfoot := (c2 - 1) * d2 + (c1 - 1) * d1 + run
  let sfoot := (c2 - 1) * s2 + (c1 - 1) * s1 + (if drain then 4 * len else len)
  let ms := (mask.map maskMembers).getD []
  { dslot := if drain then some (bitsN x 15 3) else none
    reserved :=
      bitsN x 28 4 != 0 || bitsN x 0 15 != 0 || 2 ≤ dstk || srck == 3 ||
        (!drain && bitsN x 15 9 != 0) || (srck == 2 && (src.toNat / 2 ^ 32 != 0 || s1 != 0 || s2 != 0)) ||
        (drain && (!drainFmt dfmt || (bitN x 18 && 1 ≤ dfmt && dfmt ≤ 4) || (bitN x 19 && dfmt == 15))) ||
        (match mask with
         | none => false
         | some m => dstk != 0 || m.toNat / 256 != 0)
    limits :=
      len == 0 || 16777216 < len || c1 == 0 || c2 == 0 || 4294967296 ≤ len * c1 * c2 ||
        ((drain || 1 < c1) && d1 < run) || (1 < c2 && d2 < (c1 - 1) * d1 + run) ||
        (srck == 2 && (len % 4 != 0 || dst.toNat % 4 != 0 || d1 % 4 != 0)) ||
        (dstk == 1 && (dst.toNat % 4 != 0 || len % 4 != 0 || s1 % 4 != 0 || s2 % 4 != 0 || d1 % 4 != 0 || d2 % 4 != 0)) ||
        (drain && (src.toNat % 4 != 0 || s1 % 4 != 0 || s2 % 4 != 0 || 32768 < src.toNat + sfoot ||
          dst.toNat % e != 0 || d1 % e != 0))
    crosses := false, model := false
    sels := (if srck = 0 then [(src, anySel)] else []) ++
      (if dstk = 0 then [(dst, if mask.isSome then [0x8] else anySel)] else [])
    members := ms
    ranges := (if srck = 0 then [(src, sfoot, 0x05)] else []) ++
      (if dstk ≠ 0 then []
       else if mask.isSome then ms.map fun m => (peerAddr m (dst.toNat % 2 ^ 32), dfoot, 0x06)
       else [(dst, dfoot, 0x06)])
    scales := if dstk = 1 then [(dst.toNat, dfoot)] else []
    token := (srck == 0 && tokenSel src) || (dstk == 0 && tokenSel dst) || !ms.isEmpty }

/-! ## `cpyr` (R252) -/

def cpyrOp (b : List Byte) : CopyOp :=
  .cpyr (bitsN (wordAt b 0).toNat 0 4) (dwordAt b 0x18) (dwordAt b 0x20) (wordAt b 0x28).toNat (wordAt b 0x2C)
    (dwordAt b 0x30)

def cpyrChecks (b : List Byte) : CopyChecks :=
  let x := (wordAt b 0).toNat
  let src := dwordAt b 0x18
  let dst := (dwordAt b 0x20).toNat
  let len := (wordAt b 0x28).toNat
  let seqw := (dwordAt b 0x30).toNat
  { dslot := none, reserved := x / 16 != 0 || 3 < x % 16 || (dwordAt b 0x38) != 0
    limits := len % 4 != 0 || len < 4 || 4096 < len || dst % 4 != 0 || seqw % 4 != 0 ||
      (dst < seqw + 4 && seqw < dst + len)
    crosses := dst / 4096 != (dst + len - 1) / 4096
    model := false
    sels := [(src, anySel), (dwordAt b 0x20, [0x0]), (dwordAt b 0x30, [0x0])]
    members := []
    ranges := [(src, len, 0x05), (dwordAt b 0x20, len, 0x06), (dwordAt b 0x30, 4, 0x06)], scales := [], token := true }

/-! ## `gath` (R254) -/

def gathOp (b : List Byte) : CopyOp :=
  let x := (wordAt b 0).toNat
  .gath (bitsN x 8 8) (bitsN x 0 2) (dwordAt b 0x18) (wordAt b 0x20).toNat (wordAt b 0x24).toNat
    (wordAt b 0x28).toNat (wordAt b 0x2C).toNat (wordAt b 0x30).toNat (bitsN (wordAt b 0x34).toNat 0 8)

/-- The model table's entry, if it is registered (R253). -/
def State.modelAt (s : State) (m : Nat) : Option CaddyModel := s.caddyModels.find m

/-- Its checks. Alignment holds for VDST too where PARTS leaves it unused: R254 limits the field (DESIGN CHOICE, log 89).
A BT that is not 4-byte aligned has SUB 0x0B, for which no row of Table 13-5 names the fault (DESIGN CHOICE, log 99). -/
def gathChecks (s : State) (b : List Byte) : CopyChecks :=
  let x := (wordAt b 0).toNat
  let bt := dwordAt b 0x18
  let t0 := (wordAt b 0x20).toNat
  let nt := (wordAt b 0x24).toNat
  let k := (wordAt b 0x28).toNat
  let v := (wordAt b 0x2C).toNat
  let d := (wordAt b 0x30).toNat
  let m := s.modelAt (bitsN (wordAt b 0x34).toNat 0 8)
  let rb := (m.map (·.rb)).getD 0
  let pt := 2 ^ (m.map (·.ptl)).getD 2
  let parts := bitsN x 0 2
  let foot := (nt - 1) * d + rb
  { dslot := none
    reserved := bitsN x 16 16 != 0 || bitsN x 2 6 != 0 || parts == 0 || bitsN (wordAt b 0x34).toNat 8 24 != 0 ||
      (dwordAt b 0x38) != 0
    limits := nt == 0 || 4096 < nt || k % 32 != 0 || v % 32 != 0 || d % 32 != 0 || d < rb || bt.toNat % 4 != 0 ||
      (parts == 3 && v < k + foot)
    crosses := false
    model := match m with
      | none => true
      | some m => m.layers ≤ bitsN x 8 8
    sels := [(bt, anySel)], members := []
    ranges := [(bt + BitVec.ofNat 64 (4 * (t0 / pt)), 4 * ((t0 + nt - 1) / pt - t0 / pt + 1), 0x05)] ++
      (if bitN parts 0 then [(ownAddr k, foot, 0x06)] else []) ++
      (if bitN parts 1 then [(ownAddr v, foot, 0x06)] else [])
    scales := [], token := true }

/-! ## `qdual` (R255) -/

def qdualOp (b : List Byte) : CopyOp :=
  let x := (wordAt b 0).toNat
  .qdual (bitsN x 8 4) (bitN x 7) (bitN x 6) (dwordAt b 0x18) (bitsN (wordAt b 0x20).toNat 0 16)
    (bitsN (wordAt b 0x20).toNat 16 16) (wordAt b 0x24).toNat (wordAt b 0x28) (wordAt b 0x2C).toNat
    (wordAt b 0x30).toNat (bitsN (wordAt b 0x34).toNat 0 16) (bitsN (wordAt b 0x34).toNat 16 16)
    (wordAt b 0x38).toNat (wordAt b 0x3C).toNat

/-- Bytes of a line of n elements. -/
def lineBytes (tfmt n : Nat) : Nat := ceilDiv (n * fmtBits tfmt) 8

/-- Its checks. Alignment holds too for the fields of a copy that is not made (DESIGN CHOICE, log 89). -/
def qdualChecks (b : List Byte) : CopyChecks :=
  let x := (wordAt b 0).toNat
  let tfmt := bitsN x 8 4
  let rows := bitsN (wordAt b 0x20).toNat 0 16
  let cols := bitsN (wordAt b 0x20).toNat 16 16
  let src := dwordAt b 0x18
  let sstr := (wordAt b 0x24).toNat
  let rd := (wordAt b 0x2C).toNat
  let cd := (wordAt b 0x30).toNat
  let rso := bitsN (wordAt b 0x34).toNat 0 16
  let cso := bitsN (wordAt b 0x34).toNat 16 16
  let rstr := (wordAt b 0x38).toNat
  let cstr := (wordAt b 0x3C).toNat
  let rowc := bitN x 7
  let colc := bitN x 6
  { dslot := none
    reserved := bitsN x 12 20 != 0 || bitsN x 0 6 != 0 || tfmt < 3 || 6 < tfmt
    limits := rows % 4 != 0 || rows < 4 || 4096 < rows || cols % 4 != 0 || cols < 4 || 4096 < cols ||
      !(rowc || colc) || rd % 4 != 0 || cd % 4 != 0 || rstr % 4 != 0 || cstr % 4 != 0 || rso % 4 != 0 ||
      cso % 4 != 0 || sstr < 4 * cols || (rowc && rstr < lineBytes tfmt cols) || (colc && cstr < lineBytes tfmt rows)
    crosses := false, model := false, sels := [(src, anySel)], members := []
    ranges := [(src, (rows - 1) * sstr + 4 * cols, 0x05)] ++
      (if rowc then [(ownAddr rd, (rows - 1) * rstr + lineBytes tfmt cols, 0x06)] else []) ++
      (if colc then [(ownAddr cd, (cols - 1) * cstr + lineBytes tfmt rows, 0x06)] else [])
    scales := (if rowc then [(rso, 36 * rows * ceilDiv cols 128)] else []) ++
      (if colc then [(cso, 36 * cols * ceilDiv rows 128)] else [])
    token := tokenSel src }

/-! ## `ldrain` (R256) -/

def ldrainOp (slot : Nat) (b : List Byte) : CopyOp :=
  let x := (wordAt b 0).toNat
  let p := (wordAt b 0x18).toNat
  .ldrain slot (bitsN x 16 8) (bitN x 1) (bitN x 0) (bitsN p 16 7) (bitsN p 8 6) (bitsN p 0 8 + 1) (wordAt b 0x1C)
    (wordAt b 0x20) (wordAt b 0x24) (dwordAt b 0x28) (wordAt b 0x30)

def ldrainChecks (b : List Byte) : CopyChecks :=
  let x := (wordAt b 0).toNat
  let p := (wordAt b 0x18).toNat
  { dslot := none
    reserved := bitsN x 24 8 != 0 || bitsN x 2 14 != 0 || bitsN p 23 9 != 0 || bitsN p 14 2 != 0 ||
      (wordAt b 0x34) != 0 || (dwordAt b 0x38) != 0
    limits := 64 < bitsN x 16 8 || 128 < bitsN p 0 8 + 1 || 128 < bitsN p 16 7 + bitsN p 0 8 + 1
    crosses := false, model := false, sels := [], members := [], ranges := [], scales := [], token := false }

/-! ## The common checks (Table 13-5) -/

/-- The addresses that a command reads or writes at once, by their selectors (07 R126): one on a selector that its field
forbids, then one with a must-be-zero bit set. -/
def selsFault (sels : List (DWord × List Nat)) (a : DWord) : Option Trap :=
  match sels.find? fun e => !e.2.contains (selOf e.1) with
  | some _ => some (engParam 0x0F a)
  | none => sels.findSome? fun e => selFault false e.1

/-- A scratchpad range out of the bounds of the workgroup it addresses. The first byte of a `gath`'s block-table range may lie
beyond every offset of its scratchpad. -/
def outOfBounds (s : State) (wk : Nat) (w : Workgroup) (r : DWord × Nat × Nat) : Bool :=
  match engPlace s wk w r.1 with
  | .scratch k off => s.extentOf k < off + r.2.1
  | .beyond => selOf r.1 == 0x8 || selOf r.1 == 0x9
  | _ => false

/-- The first byte of a range of n bytes at va that lies in a window. -/
def windowMeets (x : FabWindow) (va n : Nat) : Option Nat :=
  let lo := max va (x.vbase.toNat * 65536)
  if winHolds x lo && lo < va + n then some lo else none

/-- The window checks of an engine's range (20 R355): in the window that holds its first byte all of it must lie; a range
that runs into a window later is checked there. -/
def rangeWindow (s : State) (w : Workgroup) (a : DWord) (n : Nat) : Option Trap :=
  let va := a.toNat % 2 ^ 56
  if selOf a ≠ 0 then none
  else
    (s.tenant w.tenant).windows.toList.findSome? fun x =>
      match windowMeets x va n with
      | none => none
      | some lo =>
        (s.windowFault (dieOf w.core) w.tenant x lo (if lo = va then n else min (va + n) ((x.vbase.toNat + x.size.toNat) * 65536) - lo)).map
          fun sub => trapOf .peerInvalid sub a

/-- Rows 4 to 13. `a` is the block's address, `needRec` says whether CREC must stand. -/
def copyFault (s : State) (wk : Nat) (w : Workgroup) (x : CopyChecks) (slk : Word) (bar crec : DWord) (needRec : Bool)
    (a : DWord) : Option Trap :=
  let peers := x.members ++ (x.sels.filter fun e => selOf e.1 == 0x9).map fun e => bitsN e.1.toNat 57 3
  if (x.dslot.map fun k => decide (w.hdr.accslots ≤ k)).getD false then some (engParam 0x04 a)
  else if x.reserved || bitsN slk.toNat 12 20 != 0 then some (engParam 0x03 a)
  else if x.limits then some (engParam 0x0B a)
  else if (crec ≠ 0 ∧ (crec.toNat % 32 ≠ 0 ∨ anySel.contains (selOf crec) = false)) ∨ (crec = 0 ∧ needRec = true) then
    some (engParam 0x0C crec)
  else if x.crosses then some (engParam 0x0D a)
  else if x.model then some (engParam 0x0E a)
  else if (selsFault x.sels a).isSome then selsFault x.sels a
  else if (barFault? bar).isSome then barFault? bar
  else if peers.any fun m => w.hdr.hitch ≤ m then some (trapOf .peerInvalid 0x03 a)
  else
    match x.ranges.findSome? fun r => rangeWindow s w r.1 r.2.1 with
    | some t => some t
    | none =>
      match x.ranges.find? (outOfBounds s wk w) with
      | some r => some (trapOf .scratchBounds r.2.2 a)
      | none =>
        if x.scales.any fun r => 8192 * w.hdr.accslots < r.1 + r.2 then some (trapOf .scratchBounds 0x07 a) else none

/-- Row 14, for one of BAR and CREC. -/
def endCheck (s : State) (wk : Nat) (w : Workgroup) (win : Bool) (align n : Nat) (a : DWord) :
    Except (Trap × State) State :=
  if a = 0 then .ok s else endTarget s wk w win align n a

/-- Rows 4 to 14. -/
def copyCheck (s : State) (wk : Nat) (w : Workgroup) (x : CopyChecks) (slk : Word) (bar crec : DWord) (needRec : Bool)
    (a : DWord) : Except (Trap × State) State :=
  match copyFault s wk w x slk bar crec needRec a with
  | some t => .error (t, s)
  | none =>
    match endCheck s wk w false 16 16 bar with
    | .error e => .error e
    | .ok s => endCheck s wk w true 32 (if needRec then 544 else 32) crec

/-! ## Issue -/

/-- The tiles that no wait of a fibre covers (R251). -/
def Workgroup.blindTiles (w : Workgroup) (uid : Nat) : List (Nat × Nat × Nat × Nat × Nat) :=
  if w.hdr.accm then (w.tiles.filter fun t => !t.seenBy.contains uid).map fun t => (t.slot, t.r0, t.c0, t.m, t.n) else []

/-- A command enters its channel. -/
def State.enqueueC (s : State) (w : Workgroup) (chan : Nat) (c : CCmd) : State :=
  let x := s.core w.core
  (s.putCore w.core { x with chans := vset x.chans chan (enterQueue CCmd.iss c (vget x.chans chan [])) }).updWg c.own.wk
    fun w => { w with nextCmd := w.nextCmd + 1 }

/-- A copy-engine word: `slot` is an `ldrain`'s, `mk` gives the operation and the checks from the block. A word that must
have the token stalls before its checks look at what other workgroups write (18 R332). -/
def copyWord (u : Use) (p : BitVec 6) (chan : Nat) (slot : Option Nat)
    (mk : Fibre → State → List Byte → CopyOp × CopyChecks) (s : State) : Out :=
  word u noPre (fun wk w _ f s =>
    let a := f.getS64 p.toNat
    if s.tokenStall w && tokenSel a then .wait f s .token
    else if 32 ≤ (vget (s.core w.core).chans chan []).length then .wait f s .held
    else if (slot.map fun k => decide (w.hdr.accslots ≤ k)).getD false then .trap f s (engParam 0x04 a) 0
    else
      match blockRead wk w f s a 64 with
      | .trap f s t => .trap f s t 0
      | .wait f s => .wait f s .held
      | .ok f s b _ _ late =>
        let m := mk f s b
        let bar := dwordAt b 0x08
        let crec := dwordAt b 0x10
        if s.tokenStall w && (m.2.token || (bar != 0 && tokenSel bar) || (crec != 0 && tokenSel crec)) then .wait f s .token
        else
          match copyCheck s wk w m.2 (wordAt b 4) bar crec slot.isSome a with
          | .error (t, s) => .trap f s t 0
          | .ok s =>
            .done (f.issued s a late)
              (s.enqueueC w chan
                { op := m.1, own := ownerOf wk f, chan := chan, iss := s.issueOf w f, slack := cmdSlack f (wordAt b 4)
                  tick := s.tick, bar := bar, crec := crec, started := false, done := 0, ahead := [], flags := 0, code := 0, aux := 0, late := false
                  lostRounds := 0, stage := 0, lost := false, stalled := none, failed := false, fab := none, hold := none,
                  blind := w.blindTiles f.uid, data := [] })) s

/-- `cpy` (R249). -/
def execCpy (o : SGPK) (s : State) : Out :=
  copyWord (uUse o.s o.g [.s2 o.p.toNat] []) o.p o.k.toNat none (fun _ _ b => (cpyOp none b, cpyChecks none b)) s

/-- `cpy.mc` (R250). -/
def execCpyMc (o : SGPXK) (s : State) : Out :=
  copyWord (uUse o.s o.g [.s2 o.p.toNat, .s o.x.toNat] []) o.p o.k.toNat none
    (fun f _ b => let m := some (f.getS o.x.toNat); (cpyOp m b, cpyChecks m b)) s

/-- `cpyr` (R252). -/
def execCpyr (o : SGPK) (s : State) : Out :=
  copyWord (uUse o.s o.g [.s2 o.p.toNat] []) o.p o.k.toNat none (fun _ _ b => (cpyrOp b, cpyrChecks b)) s

/-- `gath` (R254). -/
def execGath (o : SGPK) (s : State) : Out :=
  copyWord (uUse o.s o.g [.s2 o.p.toNat] []) o.p o.k.toNat none (fun _ s b => (gathOp b, gathChecks s b)) s

/-- `qdual` (R255). -/
def execQdual (o : SGPK) (s : State) : Out :=
  copyWord (uUse o.s o.g [.s2 o.p.toNat] []) o.p o.k.toNat none (fun _ _ b => (qdualOp b, qdualChecks b)) s

/-- `ldrain` (R256). -/
def execLdrain (o : SGPHK) (s : State) : Out :=
  copyWord (uUse o.s o.g [.s2 o.p.toNat] []) o.p o.h.toNat (some o.k.toNat)
    (fun _ _ b => (ldrainOp o.k.toNat b, ldrainChecks b)) s

end Sys2Proof.Machine
end

