-- ==== Sys2Proof/Machine/Pages.lean ====
section
/-! DEFINITION. Page descriptors and Caddy's operations on them: what each `pgop` does to a page, the data moves it
starts, holds and waits, and automatic eviction (13 R257 to R260, Tables 13-12 to 13-14; 16 R295; 20 R357, R358). -/

namespace Sys2Proof.Machine

/-! ## Descriptors and frames -/

/-- The descriptor of a page. -/
def State.desc (s : State) (die i : Nat) : Option Desc := (s.caddy.find die).bind fun d => d.descs.find i

/-- Caddy of a die. -/
def State.caddyOf (s : State) (die : Nat) : CaddyDie := s.caddy.getD die CaddyDie.fresh

def State.setDesc (s : State) (die i : Nat) (d : Desc) : State :=
  { s with caddy := s.caddy.upd die fun x => { x with descs := x.descs.put i d } }

/-- PAGEB of a model (R253). -/
def CaddyModel.pageBytes (m : CaddyModel) : Nat := 2 * m.layers * 2 ^ m.ptl * m.rb

/-- The virtual address of a frame of a tier's pool (R257). -/
def State.frameVa (s : State) (die ten tier frame pageb : Nat) : Nat :=
  ((s.caddyOf die).arenas.getD (2 * ten + tier) 0).toNat + frame * pageb

/-- A page that a tenant can use under a model: not free, not absent, its own. -/
def livePage (s : State) (id : Word) (ten model : Nat) : Option (Nat × Nat × Desc) :=
  let die := id.toNat / 2 ^ 30
  let i := id.toNat % 2 ^ 30
  if id = 0xFFFFFFFF then none
  else
    match s.desc die i with
    | none => none
    | some d => if d.refc = 0 ∨ d.tier = 3 ∨ d.ten ≠ ten ∨ d.model ≠ model then none else some (die, i, d)

/-- Takes or gives back a read hold (R258). -/
def State.holdPage (s : State) (die i : Nat) (up : Bool) : State :=
  match s.desc die i with
  | none => s
  | some d => s.setDesc die i { d with holds := if up then d.holds + 1 else d.holds - 1 }

/-- Writes Caddy of a die. -/
def State.updCaddy (s : State) (die : Nat) (g : CaddyDie → CaddyDie) : State :=
  { s with caddy := s.caddy.put die (g (s.caddyOf die)) }

/-- PAGEB of a page: 0 for a model that is not registered. -/
def State.pageBytes (s : State) (model : Nat) : Nat := ((s.modelAt model).map (·.pageBytes)).getD 0

/-- The HBM4 frames in use: those of the pages and those that a move will fill. -/
def CaddyDie.usedHbm (x : CaddyDie) : List Nat :=
  (x.descs.vals.filter fun d => d.tier == 0).map (·.loc) ++ x.moves.filterMap fun m =>
    match m.kind with
    | .promote f _ => if m.moved then none else some f
    | .pull f _ _ _ _ => if m.moved then none else some f
    | _ => none

/-- The LPDDR-6 frames in use: those of the pages, backing frames, and those that a move will fill. -/
def CaddyDie.usedLp (x : CaddyDie) : List Nat :=
  (x.descs.vals.filter fun d => d.tier == 1).map (·.loc) ++
    (x.descs.vals.filter fun d => d.tier == 0 && d.auxl != 0).map (fun d => d.auxl - 1) ++
    x.moves.filterMap fun m =>
      match m.kind with
      | .evict f => if m.moved then none else some f
      | _ => none

/-- How many HBM4 frames are free. -/
def CaddyDie.freeHbm (x : CaddyDie) : Nat := x.framesHbm - x.usedHbm.dedup.length

/-- How many LPDDR-6 frames are free. -/
def CaddyDie.freeLp (x : CaddyDie) : Nat := x.framesLp - x.usedLp.dedup.length

/-- Free HBM4 pages: the lesser of free frames and free descriptors (14 R267). -/
def CaddyDie.freePages (x : CaddyDie) : Nat := min x.freeHbm (x.ndesc - x.descs.length)

/-- A free frame of n. Which of them is a free value: the spec does not say (`free` is how many there are). -/
def State.takeFrame (s : State) (used : List Nat) (n free : Nat) : Option (Nat × State) :=
  if free = 0 then none
  else
    let d := s.draw Config.choose
    some (((List.range n).filter fun f => !used.contains f).getD (d.1 % free) 0, d.2)

def State.takeHbm (s : State) (die : Nat) : Option (Nat × State) :=
  let x := s.caddyOf die
  s.takeFrame x.usedHbm x.framesHbm x.freeHbm

def State.takeLp (s : State) (die : Nat) : Option (Nat × State) :=
  let x := s.caddyOf die
  s.takeFrame x.usedLp x.framesLp x.freeLp

/-- The free descriptor of the lowest index (16 R295). -/
def CaddyDie.freeDesc (x : CaddyDie) : Option Nat :=
  let k := Tbl.freeFrom x.descs (x.descs.length + 1) 0
  if k < x.ndesc then some k else none

/-- A new page with a frame of a tier; none when no descriptor or frame is free. -/
def State.newPage (s : State) (die ten model tier : Nat) (pinned moving : Bool) : Option (Nat × State) :=
  match (s.caddyOf die).freeDesc, (if tier = 0 then s.takeHbm die else s.takeLp die) with
  | some i, some (f, s) =>
    some (i, s.updCaddy die fun x =>
      { x with descs := x.descs.put i { refc := 1, tier := tier, pinned := pinned, dirty := true, moving := moving,
                                        model := model, loc := f, auxl := 0, stamp := s.pageClock.toNat, holds := 0,
                                        ten := ten, relSlack := 0xFFF, relLate := false } })
  | _, _ => none

/-- The frame of a page just allocated holds unpredictable bytes (Table 13-12, 00 R7); a sector that cannot be reached
keeps its own. -/
def State.stirPage (s : State) (die i : Nat) : State :=
  match s.desc die i with
  | none => s
  | some d =>
    let n := s.pageBytes d.model
    (sectorParts (n / 32 + 2) (s.frameVa die d.ten d.tier d.loc n) n).foldl (fun s p =>
      match s.agentPa d.ten p.1 true with
      | .error _ => s.agentWalk d.ten p.1 p.2
      | .ok pa =>
        let r := freeBytes p.2 s
        r.2.physWrite none pa r.1) s

/-- A new page as `pgop.alloc` gives it (R259; 14 R267). -/
def State.allocPage (s : State) (die ten model tier : Nat) (pinned : Bool) : Option (Nat × State) :=
  (s.newPage die ten model tier pinned false).map fun r => (r.1, r.2.stirPage die r.1)

/-- A page id. -/
def pageId (die i : Nat) : Word := BitVec.ofNat 32 (die * 2 ^ 30 + i)

/-- Changes a descriptor. -/
def State.updDesc (s : State) (die i : Nat) (g : Desc → Desc) : State :=
  match s.desc die i with
  | none => s
  | some d => s.setDesc die i (g d)

/-- The page whose frames may be given up now that its REFC is 0 (R259). -/
def Desc.gone (d : Desc) : Bool := d.refc == 0 && d.holds == 0 && !d.moving

/-- Kettle's models look at their plans again (14 R269): a submission, a cancel, room in a ring or a freed page. -/
def State.wakeModels (s : State) : State := { s with kmodels := s.kmodels.each fun _ m => { m with wake := true } }

/-- Frees the pages of a die that may be freed, and remembers the peer pages that are to be released (R258, 20 R358). -/
def State.sweepPages (s : State) (die : Nat) : State :=
  let dead := (s.caddyOf die).descs.filter fun e => e.2.gone
  if dead.isEmpty then s
  else
    (s.updCaddy die fun x =>
      { x with
        descs := x.descs.filter fun e => !e.2.gone
        rels := x.rels ++ (dead.filter fun e => e.2.tier == 2).map fun e =>
          { node := BitVec.ofNat 12 e.2.loc, ddie := BitVec.ofNat 2 (e.2.loc / 4096), page := e.2.auxl % 2 ^ 30,
            ten := e.2.ten, slack := e.2.relSlack, late := e.2.relLate } }).wakeModels

/-! ## Frame data as Caddy reads and writes it -/

/-- Bytes of a tenant's global memory with their poison marks; the first fault ends it. -/
def State.caddyRead (s : State) (ten va n : Nat) : Except (Trap × State) (List MByte × State) :=
  overParts (fun p (acc : List MByte × State) =>
    match acc.2.agentPa ten p.1 false with
    | .error t => .error (t, acc.2.agentWalk ten p.1 p.2)
    | .ok pa =>
      let bad := fun i => acc.2.poisoned (pa + i) 1
      let r := (acc.2.afterAgent ten p.1 p.2).physRead none pa p.2
      .ok (acc.1 ++ (List.range p.2).map fun i => ((r.1[i]?).getD 0, bad i), r.2)) (partsOf va n) ([], s)

def State.caddyWrite (s : State) (ten va : Nat) (bs : List MByte) : Except (Trap × State) State :=
  (overParts (fun p (acc : List MByte × State) =>
    match acc.2.agentPa ten p.1 true with
    | .error t => .error (t, acc.2.agentWalk ten p.1 p.2)
    | .ok pa =>
      let b := acc.1.take p.2
      let s := (acc.2.afterAgent ten p.1 p.2).physWrite none pa (b.map (·.1))
      .ok (acc.1.drop p.2, if b.any (·.2) then s.poisonAt pa p.2 else s))
    (sectorParts (bs.length / 32 + 2) va bs.length) (bs, s)).map (·.2)

/-- A plain write of page data: a barrier or a ticket in its way is disturbed (08 R159, 09 R186). -/
def State.pageWrite (s : State) (ten va : Nat) (bs : List MByte) : Except (Trap × State) State :=
  (s.caddyWrite ten va bs).map fun t => t.stirVa s ten va bs.length .plain

/-- Copies a frame's PAGEB bytes. -/
def State.copyFrame (s : State) (ten src dst n : Nat) : Except (Trap × State) State :=
  match s.caddyRead ten src n with
  | .error e => .error e
  | .ok (b, s) => s.pageWrite ten dst b

/-! ## How an operation ends -/

/-- Writes the result pair (R259) of an operation that has an owner. -/
def State.pageResult (s : State) (o : CaddyOp) (res status : Word) : State :=
  match o.own with
  | none => s
  | some w => if o.dst = 0 then s else (s.deliverS w o.dst res).deliverS w (o.dst + 1) status

/-- An operation without a data move: its result, and it leaves ENGO. -/
def State.pageDone (s : State) (o : CaddyOp) (res status : Word) : State :=
  let s := s.pageResult o res status
  match o.own with
  | none => s
  | some w => s.engoDone w

/-- Starts a data move. -/
def State.startMove (s : State) (die page : Nat) (k : MoveKind) (o : Option CaddyOp) : State :=
  s.updCaddy die fun x =>
    { x with moves := x.moves ++ [{ page := page, kind := k, req := o, bytes := s.pageBytes (((s.desc die page).map (·.model)).getD 256)
                                    moved := false, lost := false, stalled := none, failed := false }] }

/-- An operation on the page has begun and not yet given its result. -/
def CaddyDie.inHand (x : CaddyDie) (page : Nat) : Bool :=
  x.moves.any fun m => m.page == page && !m.moved &&
    (match m.kind with
     | .promote _ c => c.isSome
     | .pull _ _ _ _ _ => true
     | .send _ _ _ _ => true
     | _ => false)

/-! ## The operations (Table 13-12) -/

/-- The entry of a `cow`'s block table, for one that can be read and written. A poisoned entry counts as one that cannot:
R259 gives it no status (DESIGN CHOICE, log 88). An entry that is not 4-byte aligned is read as it lies: neither R259 nor
R377 gives it a fault or a status (DESIGN CHOICE, log 97). -/
def cowEntry (s : State) (o : CaddyOp) : Option Word × State :=
  let a := o.bt + BitVec.ofNat 64 (4 * o.arg.toNat)
  match o.own with
  | none => (none, s)
  | some own =>
    match s.wg own.wk with
    | none => (none, s)
    | some w =>
      if !anySel.contains (selOf a) then (none, s)
      else
        match endTarget s own.wk w false 1 4 a with
        | .error (_, s) => (none, s)
        | .ok s =>
          match s.engRead w (engPlace s own.wk w a) 4 a with
          | (b, s, none) => (if b.any (·.2) then none else some (wordAt (b.map (·.1)) 0), s)
          | (_, s, some _) => (none, s)

/-- Stores a page id to that entry. -/
def cowStore (s : State) (o : CaddyOp) (id : Word) : State :=
  let a := o.bt + BitVec.ofNat 64 (4 * o.arg.toNat)
  match o.own with
  | none => s
  | some own =>
    match s.wg own.wk with
    | none => s
    | some w =>
      eitherState (s.engStore own.wk w true a ((leBytes 4 id.toNat).map fun b => (b, false)))

/-- The second half of a `cow`, its page lying in HBM4: with REFC 1 the page itself, else the new page. -/
def cowGo (s : State) (die page : Nat) (o : CaddyOp) : Option Nat → State
  | none => (s.updDesc die page fun d => { d with dirty := true, auxl := 0 }).pageDone o o.page 0
  | some new =>
    let s := s.updDesc die page fun d => { d with refc := d.refc - 1, holds := d.holds + 1 }
    let s := cowStore s o (pageId die new)
    (s.pageResult o (pageId die new) 0).startMove die page (.cow new) (some o)

/-- `cow`: none when it must wait. -/
def serveCow (s : State) (die page : Nat) (d : Desc) (o : CaddyOp) : Option State :=
  match cowEntry s o with
  | (none, s1) => some (s1.pageDone o o.page 7)
  | (some e, s1) =>
    if e ≠ o.page then some (s1.pageDone o o.page 5)
    else if d.moving then none
    else if d.tier = 0 then
      if d.refc = 1 then some (cowGo s1 die page o none)
      else if 255 ≤ d.holds then none
      else
        match s1.newPage die d.ten d.model 0 false true with
        | none => some (s1.pageDone o o.page 1)
        | some (new, s2) => some (cowGo s2 die page o (some new))
    else if d.holds ≠ 0 then none
    else
      let extra : Option (Option Nat × State) :=
        if d.refc = 1 then some (none, s1)
        else (s1.newPage die d.ten d.model 0 false true).map fun r => (some r.1, r.2)
      match extra with
      | none => some (s1.pageDone o o.page 1)
      | some (new, s2) =>
        match s2.takeHbm die with
        | none => some (s1.pageDone o o.page 1)
        | some (f, s3) =>
          let s4 := s3.updDesc die page fun d => { d with moving := true }
          some (s4.startMove die page (if d.tier = 1 then .promote f (some new) else .pull f (some new) 0 [] []) (some o))

/-- `evict`. -/
def serveEvict (s : State) (die page : Nat) (d : Desc) (o : CaddyOp) : Option State :=
  if d.pinned then some (s.pageDone o o.page 4)
  else if d.moving then none
  else if d.tier ≠ 0 then some (s.pageDone o o.page 0)
  else if d.holds ≠ 0 then none
  else if d.auxl ≠ 0 ∧ d.dirty = false then
    some ((s.updDesc die page fun d => { d with tier := 1, loc := d.auxl - 1, auxl := 0 }).pageDone o o.page 0)
  else
    let go (f : Nat) (s : State) : State :=
      ((s.updDesc die page fun d => { d with moving := true }).pageResult o o.page 0).startMove die page (.evict f) (some o)
    if d.auxl ≠ 0 then some (go (d.auxl - 1) s)
    else
      match s.takeLp die with
      | none => some (s.pageDone o o.page 1)
      | some (f, s) => some (go f s)

/-- `promote`. The result of pulling a peer page back is written when the pull has ended, since the fabric may fail. -/
def servePromote (s : State) (die page : Nat) (d : Desc) (o : CaddyOp) : Option State :=
  if d.moving then none
  else if d.tier = 0 then some (s.pageDone o o.page 0)
  else if d.holds ≠ 0 then none
  else
    match s.takeHbm die with
    | none => some (s.pageDone o o.page 1)
    | some (f, s) =>
      let s := s.updDesc die page fun d => { d with moving := true }
      if d.tier = 1 then some ((s.pageResult o o.page 0).startMove die page (.promote f none) (some o))
      else some (s.startMove die page (.pull f none 0 [] []) (some o))

/-- `send` (20 R357). Of a page that lies at a peer the spec gives no result: the status is a free value. -/
def serveSend (s : State) (die page : Nat) (d : Desc) (o : CaddyOp) : Option State :=
  if d.moving || d.holds != 0 then none
  else if d.tier = 2 then
    let r := s.draw Config.freeWord
    some (r.2.pageDone o o.page r.1)
  else
    some ((s.updDesc die page fun d => { d with moving := true }).startMove die page
      (.send (BitVec.ofNat 12 o.arg.toNat) (BitVec.ofNat 2 (o.arg.toNat / 4096)) none 0) (some o))

/-- An operation at Caddy of its die; none when it must wait. -/
def serveOp (s : State) (die : Nat) (o : CaddyOp) : Option State :=
  if o.op = 0 then
    match s.allocPage die o.tenant (bitsN o.arg.toNat 0 8) (bitsN o.arg.toNat 8 1) (bitN o.arg.toNat 15) with
    | none => some (s.pageDone o 0xFFFFFFFF 1)
    | some (i, s) => some (s.pageDone o (pageId die i) 0)
  else
    let page := o.page.toNat % 2 ^ 30
    match s.desc die page with
    | none => some (s.pageDone o o.page 2)
    | some d =>
      if d.refc = 0 ∨ d.tier = 3 ∨ d.ten ≠ o.tenant ∨ o.page = 0xFFFFFFFF then some (s.pageDone o o.page 2)
      else
        let pin := bitN o.arg.toNat 15
        match o.op with
        | 1 =>
          if 65535 ≤ d.refc then some (s.pageDone o o.page 3)
          else some ((s.updDesc die page fun d => { d with refc := d.refc + 1, pinned := d.pinned || pin }).pageDone o o.page 0)
        | 2 => some ((s.updDesc die page fun d => { d with refc := d.refc - 1, pinned := d.pinned && !pin,
                                                              relSlack := o.slack, relLate := o.late }).pageDone o o.page 0)
        | 3 => serveCow s die page d o
        | 4 => serveEvict s die page d o
        | 5 => servePromote s die page d o
        | _ => serveSend s die page d o

/-- An operation leaves Caddy's queue: its slack has aged there, and its lateness is decided (07 R139, 12 R234). -/
def CaddyOp.leaves (o : CaddyOp) (s : State) : CaddyOp × State :=
  let r := if o.own.isSome then s.cmdLate o.slack o.tick else (o.late, s)
  ({ o with slack := BitVec.ofNat 12 (agedSlack o.slack.toNat (s.tick - o.tick)), late := o.late || r.1, tick := s.tick }, r.2)

/-- Serves the waiting operations in arrival order, one at a time for each page: the ones that must still wait are
answered. -/
def serveList (die : Nat) : List CaddyOp → List Word → State → List CaddyOp × State
  | [], _, s => ([], s)
  | o :: os, shut, s =>
    if o.op ≠ 0 ∧ (shut.contains o.page = true ∨ (s.caddyOf die).inHand (o.page.toNat % 2 ^ 30) = true) then
      let r := serveList die os (o.page :: shut) s
      (o :: r.1, r.2)
    else
      let q := o.leaves s
      match serveOp q.2 die q.1 with
      | some s => serveList die os shut s
      | none =>
        let r := serveList die os (o.page :: shut) s
        (o :: r.1, r.2)

/-! ## Packets of the moves (20 R357, R358) -/

/-- A packet of Caddy. -/
def caddySend (s : State) (die ten page : Nat) (node : BitVec 12) (ddie : BitVec 2) (op : BitVec 6)
    (slack : BitVec 12) (late : Bool) : Send :=
  { node := node, ddie := ddie, sdie := die, core := 512 + die, op := op, slack := slack, late := late, ctr := 0,
    part := (s.tenant ten).part.getD 0, addr := page, aux := 0, payload := [], bad := [], span := 0,
    owner := .page die page, ten := ten, tag := none, rel := false }

/-- Parts of a page. -/
def State.pageParts (s : State) (model : Nat) : Nat := ceilDiv (s.pageBytes model) 4096

/-- Bytes of part i of a page of n bytes. -/
def partBytes (n i : Nat) : Nat := min 4096 (n - 4096 * i)

/-- Poison marks by 32-byte sector. -/
def sectorMarks (bs : List MByte) : List Bool :=
  (List.range (ceilDiv bs.length 32)).map fun k => ((bs.drop (32 * k)).take 32).any (·.2)

/-- Sends the next packet of a move, if it has one and it may leave: the move afterwards. A packet takes the
operation's slack and LATE (07 R142). -/
def pumpOne (s : State) (die : Nat) (m : Move) : Option (Move × State) :=
  match s.desc die m.page with
  | none => none
  | some d =>
    let slack := (m.req.map (·.slack)).getD 0xFFF
    let late := (m.req.map (·.late)).getD false
    if m.stalled.isSome then none
    else
    match m.kind with
    | .pull f cow next asked got =>
      if s.pageParts d.model ≤ next then none
      else
        let n := partBytes (s.pageBytes d.model) next
        let x := { caddySend s die d.ten (d.auxl % 2 ^ 30 + next * 128 * 2 ^ 30) (BitVec.ofNat 12 d.loc)
                     (BitVec.ofNat 2 (d.loc / 4096)) 0x0C slack late with
                   aux := n, span := n, owner := .page die m.page }
        if s.fabric.maySend x then
          let r := s.sendFab x
          some ({ m with kind := .pull f cow (next + 1) ((asked ++ [(r.1, next)])) got }, r.2)
        else none
    | .send node ddie tag next =>
      let cnt := s.pageParts d.model
      if cnt ≤ next then none
      else
        let n := partBytes (s.pageBytes d.model) next
        let x := { caddySend s die d.ten d.model node ddie 0x09 slack late with
                   aux := cnt % 65536 * 65536 + next % 65536, span := 0, tag := tag, owner := .page die m.page }
        if s.fabric.maySend x then
          match s.caddyRead d.ten (s.frameVa die d.ten d.tier d.loc (s.pageBytes d.model) + 4096 * next) n with
          | .error (t, s) =>
            let m' : Move := { m with stalled := some t.addr, failed := !t.replay }
            some (m', match m.req.bind (·.own) with
              | some own => if t.replay then s.engineRecord own 2 0 t false else s
              | none => s)
          | .ok (b, s) =>
            let r := s.sendFab { x with payload := b.map (·.1), bad := sectorMarks b }
            some ({ m with kind := .send node ddie (some r.1) (next + 1) }, r.2)
        else none
    | _ => none

/-- Sends what a move can send (fuel: parts). -/
def pumpMove (die : Nat) : Nat → Move → State → Move × State
  | 0, m, s => (m, s)
  | k + 1, m, s =>
    match pumpOne s die m with
    | none => (m, s)
    | some (m, s) => pumpMove die k m s

def pumpMoves (die : Nat) : List Move → State → List Move × State
  | [], s => ([], s)
  | m :: ms, s =>
    let a := pumpMove die 1024 m s
    let b := pumpMoves die ms a.2
    (a.1 :: b.1, b.2)

/-- Releases the peer pages that are to be released, as far as packets may leave. -/
def pumpRels (die : Nat) : List Release → State → List Release × State
  | [], s => ([], s)
  | r :: rs, s =>
    let x := { caddySend s die r.ten r.page r.node r.ddie 0x0B r.slack r.late with owner := .page die (2 ^ 30) }
    if s.fabric.maySend x then pumpRels die rs (s.sendFab x).2
    else
      let q := pumpRels die rs s
      (r :: q.1, q.2)

/-- Pages of a die have become free since `old`: Kettle's models look at their plans again (14 R269). -/
def State.roomSince (s old : State) (die : Nat) : State :=
  if (old.caddyOf die).freePages < (s.caddyOf die).freePages then s.wakeModels else s

/-- A slot of Kettle's whose pages are all unreferenced leaves DRAIN for FREE (14 Table 14-3): no operation that it has
submitted waits at a Caddy. -/
def State.freeSlots (s : State) : State :=
  let done (n : Nat) (k : KSlot) : Bool := k.leaving && s.caddy.vals.all fun d => d.waiting.all fun o => o.slot != some n
  if s.kslots.any fun e => done e.1 e.2 then
    ({ s with kslots := s.kslots.filter fun e => !done e.1 e.2 }).wakeModels
  else s

/-- Caddy goes on as far as it can: waiting operations, freed pages, packets. -/
def State.serveCaddy (s : State) (die : Nat) : State :=
  let old := s
  let r := serveList die (s.caddyOf die).waiting [] s
  let s := (r.2.updCaddy die fun x => { x with waiting := r.1 }).sweepPages die
  let p := pumpMoves die (s.caddyOf die).moves s
  let s := p.2.updCaddy die fun x => { x with moves := p.1 }
  let q := pumpRels die (s.caddyOf die).rels s
  ((q.2.updCaddy die fun x => { x with rels := q.1 }).roomSince old die).freeSlots

/-- An operation arrives at Caddy of a die. -/
def State.submitPage (s : State) (die : Nat) (o : CaddyOp) : State :=
  (s.updCaddy die fun x => { x with waiting := x.waiting ++ [o] }).serveCaddy die

/-- A page is released as `pgop.unref` does, by Kettle for a slot or for a peer, whose packet gives slack and LATE (07
R142). -/
def State.unrefPage (s : State) (ten : Nat) (id : Word) (slack : BitVec 12) (late : Bool) (slot : Option Nat := none) : State :=
  s.submitPage (id.toNat / 2 ^ 30)
    { op := 2, page := id, arg := 0, bt := 0, bar := 0, slack := slack, tick := s.tick, late := late, dst := 0
      own := none, tenant := ten, slot := slot }

/-! ## Automatic eviction (R258) -/

/-- The age of a page. -/
def State.pageAge (s : State) (d : Desc) : Nat := (s.pageClock.toNat + 65536 - d.stamp) % 65536

/-- HBM4 frames that evictions in flight will free. -/
def CaddyDie.leaving (x : CaddyDie) : Nat :=
  (x.moves.filter fun m => (match m.kind with
    | .evict _ => !m.moved
    | _ => false)).length

/-- The pages that may be evicted. -/
def CaddyDie.evictable (x : CaddyDie) : List (Nat × Desc) :=
  x.descs.filter fun e => e.2.refc != 0 && e.2.tier == 0 && !e.2.pinned && e.2.holds == 0 && !e.2.moving

/-- The page of the greatest age, ties to the lower index. -/
def oldest (s : State) : List (Nat × Desc) → Option (Nat × Desc)
  | [] => none
  | e :: es =>
    match oldest s es with
    | none => some e
    | some b => if s.pageAge b.2 ≤ s.pageAge e.2 then some e else some b

/-- Evicts one page: its frame goes at once, or a move starts; none when no LPDDR-6 frame is free. -/
def evictPage (s : State) (die i : Nat) (d : Desc) : Option State :=
  if d.auxl ≠ 0 ∧ d.dirty = false then
    some (s.updDesc die i fun d => { d with tier := 1, loc := d.auxl - 1, auxl := 0 })
  else
    let go (f : Nat) (s : State) : State := (s.updDesc die i fun d => { d with moving := true }).startMove die i (.evict f) none
    if d.auxl ≠ 0 then some (go (d.auxl - 1) s)
    else (s.takeLp die).map fun r => go r.1 r.2

/-- Evicts pages until the frames free and leaving reach the high watermark (fuel: pages). -/
def evictSome (die : Nat) : Nat → State → State
  | 0, s => s
  | k + 1, s =>
    let x := s.caddyOf die
    if x.high ≤ x.freeHbm + x.leaving then s
    else
      match oldest s x.evictable with
      | none => s
      | some e =>
        match evictPage s die e.1 e.2 with
        | none => s
        | some s => evictSome die k s

/-- Caddy must evict: the free frames are fewer than the low watermark. -/
def CaddyDie.low? (x : CaddyDie) : Bool := x.freeHbm < x.low

/-- Automatic eviction of a die. -/
def State.autoEvict (s : State) (die : Nat) : State :=
  let x := s.caddyOf die
  if x.low? then evictSome die x.descs.length s else s

end Sys2Proof.Machine
end

