-- ==== Sys2Proof/Machine/Sampler.lean ====
section
/-! DEFINITION. The generator and the sampling arithmetic that `ldrain`, `rng` and `samp` share (13 R256; 14 R282). -/

namespace Sys2Proof.Machine

/-- Word k of a Philox result (14 R282). -/
structure Philox where
  w0 : Word
  w1 : Word
  w2 : Word
  w3 : Word
  deriving DecidableEq, Repr

/-- One round under two keys. -/
def philoxRound (c : Philox) (k0 k1 : Word) : Philox :=
  let p0 := 0xD2511F53 * c.w0.toNat
  let p1 := 0xCD9E8D57 * c.w2.toNat
  { w0 := BitVec.ofNat 32 (p1 / 2 ^ 32) ^^^ c.w1 ^^^ k0, w1 := BitVec.ofNat 32 p1
    w2 := BitVec.ofNat 32 (p0 / 2 ^ 32) ^^^ c.w3 ^^^ k1, w3 := BitVec.ofNat 32 p0 }

/-- n rounds from the counter c under the keys; the keys step before every round but the first. -/
def philoxRounds : Nat → Philox → Word → Word → Philox
  | 0, c, _, _ => c
  | n + 1, c, k0, k1 => philoxRounds n (philoxRound c k0 k1) (k0 + 0x9E3779B9) (k1 + 0xBB67AE85)

/-- Philox(SEED, SEQID, POS, IX). -/
def philox (seed : DWord) (seqid pos ix : Word) : Philox :=
  philoxRounds 10 { w0 := pos, w1 := ix, w2 := hiWord seed, w3 := 0 } (loWord seed) seqid

/-- Exp(z) of 13 R256. -/
def expW (z : Word) : Word := (fex2 (fmul .rne z 0x3FB8AA3B).1).1

/-- −ln of a positive FP32 value, by `flg2` and one product (13 R256). -/
def negLn (l : Word) : Word := (fmul .rne l 0xBF317218).1

/-- flg2(U(w)) for U(w) := (w[31:8] + 0.5) × 2^−24, which is exact (14 R282). -/
def log2U (w : Word) : Word := (toWord (log2Fin (2 * (w.toNat / 256) + 1) (-25))).1

/-- The Gumbel key of a logit y with word w of the generator (13 R256). -/
def gumbelKey (y w : Word) : Word := (fadd .rne y (negLn (flg2 (negLn (log2U w))).1)).1

/-- a > b and a = b of FP32 values, false on a NaN. -/
def fgt (a b : Word) : Bool := (fcmp 4 false a b).1

def feq (a b : Word) : Bool := (fcmp 0 false a b).1

/-- −∞ -/
def negInf : Word := 0xFF800000#32

/-- A candidate: logit and index. -/
abbrev Cand := Word × Word

/-- (y, ix) ranks above a candidate: greater y, or equal y and a lower index. -/
def ranksAbove (x c : Cand) : Bool := fgt x.1 c.1 || (feq x.1 c.1 && x.2.toNat < c.2.toNat)

/-- Inserts in rank order. -/
def insertCand (x : Cand) : List Cand → List Cand
  | [] => [x]
  | c :: cs => if ranksAbove x c then x :: c :: cs else c :: insertCand x cs

/-- The sampling state of an `ldrain` record (13 Table 13-11). -/
structure DrainRec where
  count : Word
  max : Word
  sum : Word
  gkey : Word
  gidx : Word
  cands : List Cand
  deriving DecidableEq, Repr

def DrainRec.fresh : DrainRec := { count := 0, max := negInf, sum := 0, gkey := negInf, gidx := 0xFFFFFFFF, cands := [] }

/-- The record that bytes hold. -/
def DrainRec.read (b : List Byte) : DrainRec :=
  { count := wordAt b 4, max := wordAt b 8, sum := wordAt b 12, gkey := wordAt b 16, gidx := wordAt b 20
    cands := (List.range (min 64 (wordAt b 24).toNat)).map fun k => (wordAt b (32 + 8 * k), wordAt b (36 + 8 * k)) }

/-- The 544 bytes of a record with its status word. -/
def DrainRec.bytes (r : DrainRec) (status : Word) : List Byte :=
  let w (x : Word) : List Byte := leBytes 4 x.toNat
  let cs := r.cands.flatMap fun c => w c.1 ++ w c.2
  w status ++ w r.count ++ w r.max ++ w r.sum ++ w r.gkey ++ w r.gidx ++ leBytes 4 r.cands.length ++ leBytes 4 0 ++ cs ++
    List.replicate (512 - cs.length) 0

/-- Folds one logit y of index ix (13 R256); `w` is word 0 of the generator when the Gumbel winner is wanted. -/
def DrainRec.fold (r : DrainRec) (kc : Nat) (y ix : Word) (w : Option Word) : DrainRec :=
  let r1 : DrainRec := { r with
    count := r.count + 1
    sum := if fgt y r.max then (fadd .rne (fmul .rne r.sum (expW (fsub .rne r.max y).1)).1 0x3F800000).1
           else if y ≠ negInf then (fadd .rne r.sum (expW (fsub .rne y r.max).1)).1 else r.sum
    max := if fgt y r.max then y else r.max
    cands := (insertCand (y, ix) r.cands).take kc }
  match w with
  | none => r1
  | some w =>
    let key := gumbelKey y w
    if fgt key r1.gkey || (feq key r1.gkey && ix.toNat < r1.gidx.toNat) then { r1 with gkey := key, gidx := ix } else r1

end Sys2Proof.Machine
end

