-- ==== Sys2Proof/Machine/CopyRun.lean ====
section
/-! DEFINITION. The execution of copy-engine commands: streams, granules, completion, `cpyr` at its slice
(13 R242 to R246, R249 to R256, R376; 20 R349 to R358). -/

namespace Sys2Proof.Machine

/-! ## Progress of a command -/

/-- How a piece of a stream ends: it goes on, the stream is finished or ended with a code, a replayable fault, or a
wait for the fabric or for a page. -/
inductive RunOut where
  | going
  | fin
  | trap (t : Trap)
  | wait
  deriving DecidableEq, Repr

/-- A command in execution. -/
structure Run1 where
  c : CCmd
  s : State
  out : RunOut
  deriving DecidableEq, Repr

def CCmd.core (c : CCmd) (s : State) : Nat := ((s.wg c.own.wk).map (·.core)).getD 0

/-- Ends the stream with a completion code (Table 13-4). -/
def CCmd.fail (c : CCmd) (code : Nat) (aux : DWord) : CCmd := { c with code := code, aux := aux }

/-- What a fault met in the stream does: a replayable one stalls the channel, any other ends the stream with PROT. -/
def faulted (c : CCmd) (s : State) (t : Trap) : Run1 :=
  if t.replay then { c := c, s := s, out := .trap t } else { c := c.fail 0x03 t.addr, s := s, out := .fin }

/-- Poisoned bytes delivered: code POISON (R246). AUX is the address of the first poisoned byte as it is delivered, not the
start of its sector: R246 does not say which (DESIGN CHOICE, log 88). -/
def CCmd.notePoison (c : CCmd) (dst : DWord) (bs : List MByte) : CCmd :=
  if c.code = 0 then
    match bs.findIdx? (·.2) with
    | some i => c.fail 0x01 (dst + BitVec.ofNat 64 i)
    | none => c
  else c

/-- Stream bytes that a command writes for each byte of progress: one for every multicast member (R242). -/
def CCmd.copies (c : CCmd) : Nat :=
  match c.op with
  | .cpy (some m) _ _ _ _ _ _ _ _ _ _ _ _ _ _ _ => (maskMembers m).length
  | _ => 1

/-- Stream bytes that a command has written (R242). -/
def CCmd.written (c : CCmd) : Nat := c.done * c.copies + c.ahead.sum

/-- WPn advances over n stream bytes (07 R137, R242). -/
def wpAdd (c : CCmd) (s : State) (n : Nat) : State :=
  s.updWg c.own.wk fun w => { w with wp := vset w.wp c.chan (vget w.wp c.chan 0 + BitVec.ofNat 32 n) }

/-- Advances the stream by n bytes, and WPn of the workgroup with it. -/
def advance (c : CCmd) (s : State) (n : Nat) : Run1 :=
  { c := { c with done := c.done + n }, s := wpAdd c s n, out := .going }

/-! ## Fabric packets of a command (20 R349, R350, R355 to R358) -/

/-- A packet of a command: 0x01 writes, 0x03 reads, 0x0C reads a peer page. It carries the slack with which the command
left its queue (07 R139, R142); with slack 0 it leaves LATE. -/
def CCmd.packet (c : CCmd) (s : State) (w : Workgroup) (node : BitVec 12) (die : BitVec 2) (op : BitVec 6)
    (ctr : BitVec 12) (part : BitVec 8) (addr n : Nat) (bs : List MByte) : Send :=
  { node := node, ddie := die, sdie := dieOf (c.core s), core := c.core s, op := op, slack := c.slack, late := false,
    ctr := ctr, part := part, addr := addr, aux := if op = 0x01 then 0 else n, payload := bs.map (·.1)
    bad := (List.range (ceilDiv bs.length 32)).map fun k => ((bs.drop (32 * k)).take 32).any (·.2)
    span := n, owner := .engine c.own.wk w.core c.chan, ten := w.tenant, tag := none, rel := false }

/-- Sends a packet, or waits until the gateway may send it; `strand` 1 marks a write. -/
def sendEng (c : CCmd) (s : State) (x : Send) (strand : Nat) : Run1 :=
  if !s.fabric.maySend x then { c := c, s := s, out := .wait }
  else
    let r := s.sendFab x
    { c := { c with fab := some { strand := strand, tag := r.1, late := false, reply := none } }, s := r.2, out := .wait }

/-- The answer to a command's read: bytes, of which those of a poisoned sector are free and marked (13 R246), or the end of
the stream with PEERFAIL. -/
def readReply (c : CCmd) (s : State) (fw : FabWait) (n : Nat) (a : DWord) : Except Run1 (CCmd × List MByte × State) :=
  let c := { c with fab := none, late := c.late || (fw.late && c.slack != 0xFFF) }
  match fw.reply with
  | some (.data b) => .ok (c, b.map fun x => (x, false), s)
  | some (.poisoned b) =>
    let r := freeBytes n s
    .ok (c, r.1.zipIdx.map fun x => match b[x.2]? with
      | some (y, false) => (y, false)
      | _ => (x.1, true), r.2)
  | some (.error _) => .error { c := c.fail 0x06 a, s := s, out := .fin }
  | none => .error { c := { c with fab := some fw }, s := s, out := .wait }

/-- The window that holds an address of a command, and the virtual address (20 R345). -/
def windowAt (c : CCmd) (s : State) (w : Workgroup) (a : DWord) : Option (FabWindow × Nat) :=
  match engPlace s c.own.wk w a with
  | .glob va => (s.windowOf w.tenant va).map fun x => (x, va)
  | _ => none

/-- A read of n bytes at an address: at once, or through a window by a packet. The bytes that could be read come with
the fault that stopped it. -/
def engFetch (c : CCmd) (s : State) (w : Workgroup) (a : DWord) (n : Nat) :
    Except Run1 (CCmd × List MByte × State × Option Trap) :=
  match windowAt c s w a with
  | some (x, va) =>
    (match c.fab with
     | none => .error (sendEng c s (c.packet s w x.node x.die 0x03 0 x.part (winTarget x va) n []) 0)
     | some fw =>
       match readReply c s fw n a with
       | .error r => .error r
       | .ok (c, b, s) => .ok (c, b, s, none))
  | none =>
    let r := s.engRead w (engPlace s c.own.wk w a) n a
    .ok (c, r.1, r.2.1, r.2.2)

/-- The write of one piece of a stream at an address on 0x0, 0x8 or 0x9, and the advance over what was written. -/
def engDeliver (c : CCmd) (s : State) (w : Workgroup) (a : DWord) (bs : List MByte) : Run1 :=
  match windowAt c s w a with
  | some (x, va) =>
    sendEng (c.notePoison a bs) s (c.packet s w x.node x.die 0x01 x.ctr x.part (winTarget x va) bs.length bs) 1
  | none =>
    let r := s.engWrite w true (engPlace s c.own.wk w a) bs a
    let q := advance (c.notePoison a (bs.take r.1)) r.2.1 r.1
    match r.2.2 with
    | none => q
    | some t => faulted q.c q.s t

/-- The answer to a command's write of n bytes. -/
def writeReply (c : CCmd) (s : State) (fw : FabWait) (n : Nat) (a : DWord) : Run1 :=
  let c := { c with fab := none, late := c.late || (fw.late && c.slack != 0xFFF) }
  match fw.reply with
  | some (.error _) => { c := c.fail 0x06 a, s := s, out := .fin }
  | some (.poisoned _) => advance (if c.code = 0 then { c with code := 1, aux := a } else c) s n
  | some _ => advance c s n
  | none => { c := { c with fab := some fw }, s := s, out := .wait }

/-! ## `cpy` (R249 to R251) -/

/-- The parameters of a `cpy` under their names. -/
structure CpyParm where
  mask : Option Word
  dstk : Nat
  srck : Nat
  dfmt : Nat
  dscl : Bool
  dint : Bool
  slot : Nat
  src : DWord
  dst : DWord
  len0 : Nat
  cnt1 : Nat
  cnt2 : Nat
  sstr1 : Nat
  sstr2 : Nat
  dstr1 : Nat
  dstr2 : Nat
  deriving DecidableEq, Repr

/-- Stream bytes of a source element: 1 but for a drain. -/
def CpyParm.esize (x : CpyParm) : Nat := if x.srck = 1 then drainSize x.dfmt else 1

def CpyParm.runBytes (x : CpyParm) : Nat := x.len0 * x.esize

/-- Length of the stream; a multicast to nobody has none (R250). -/
def CpyParm.total (x : CpyParm) : Nat :=
  if x.mask.map maskMembers = some [] then 0 else x.runBytes * x.cnt1 * x.cnt2

/-- The piece of the stream at byte p: source and destination offsets from SRC and DST, and its length up to n. It
ends with its run and where source or destination crosses 4 KiB. -/
def CpyParm.piece (x : CpyParm) (p n : Nat) : Nat × Nat × Nat :=
  let i1 := p / x.runBytes % x.cnt1
  let i2 := p / (x.runBytes * x.cnt1)
  let b := p % x.runBytes
  let so := i2 * x.sstr2 + i1 * x.sstr1 + (if x.srck = 1 then b / x.esize * 4 else b)
  let d := i2 * x.dstr2 + i1 * x.dstr1 + b
  let k := min (min n (x.runBytes - b)) (4096 - (x.dst.toNat + d) % 4096)
  (so, d, if x.srck = 0 then min k (4096 - (x.src.toNat + so) % 4096) else k)

/-- A byte of the source range of a memory copy (R249: what is written there is unpredictable). -/
def CpyParm.inSource (x : CpyParm) (s : State) (wk : Nat) (w : Workgroup) (q : EngPlace) (o : Nat) : Bool :=
  let p := engPlace s wk w x.src
  let same := match p, q with
    | .scratch j _, .scratch k _ => j == k
    | .glob _, .glob _ => true
    | _, _ => false
  x.srck == 0 && x.dstk == 0 && same &&
    (List.range x.cnt2).any fun i2 => (List.range x.cnt1).any fun i1 =>
      let lo := p.start + i2 * x.sstr2 + i1 * x.sstr1
      lo ≤ q.start + o && q.start + o < lo + x.len0

/-- Replaces the bytes that stand where a predicate holds by free bytes. -/
def freeWhere (g : Nat → Bool) : Nat → List MByte → State → List MByte × State
  | _, [], s => ([], s)
  | i, b :: bs, s =>
    let d := if g i then let d := s.draw Config.freeByte; ((d.1, b.2), d.2) else (b, s)
    let r := freeWhere g (i + 1) bs d.2
    (d.1 :: r.1, r.2)

/-- An element as a drain reads it: a free value where no wait of the issuing fibre covered a tile that holds it (R251). -/
def drainRead (c : CCmd) (w : Workgroup) (slot k : Nat) (s : State) : Word × State :=
  let hidden := c.blind.any fun t => t.1 == slot && t.2.1 ≤ k / 64 && k / 64 < t.2.1 + t.2.2.2.1 &&
    t.2.2.1 ≤ k % 64 && k % 64 < t.2.2.1 + t.2.2.2.2
  if hidden then s.draw Config.freeWord else accElem w c.own.uid slot k s

/-- n elements of a bank from index k on, as bytes of the stream, with the flags of the arithmetic. -/
def drainBytes (c : CCmd) (w : Workgroup) (x : CpyParm) (k : Nat) : Nat → State → List Byte × BitVec 4 × State
  | 0, s => ([], 0, s)
  | n + 1, s =>
    let b := (w.slot x.slot).seen w.hdr.accm
    let e := drainRead c w x.slot k s
    let y := drainElem x.dfmt x.dscl x.dint e.1 b.sca b.scb
    let r := drainBytes c w x (k + 1) n e.2
    (y.1 ++ r.1, y.2 ||| r.2.1, r.2.2)

/-- A drain takes up the bank's flags, which go to ACCSTK too (R224, R251). -/
def drainFlags (c : CCmd) (w : Workgroup) (slot : Nat) (s : State) : CCmd × State :=
  let fl := ((w.slot slot).seen w.hdr.accm).flags
  ({ c with flags := c.flags ||| fl }, s.updWg c.own.wk fun w => { w with accstk := w.accstk ||| fl })

/-- The bytes of a piece, from memory, the bank or the pattern, which stands in every aligned word of the destination. -/
def cpySource (c : CCmd) (s : State) (w : Workgroup) (x : CpyParm) (so d n : Nat) :
    Except Run1 (CCmd × List MByte × State × Option Trap) :=
  match x.srck with
  | 0 => engFetch c s w (x.src + BitVec.ofNat 64 so) n
  | 1 =>
    -- a piece may begin and end within an element where DSTR2 has moved the run off the element size
    let bad := ((w.slot x.slot).seen w.hdr.accm).psn
    let q := drainFlags c w x.slot s
    let cut := c.done % x.runBytes % x.esize
    let r := drainBytes c w x ((x.src.toNat + so) / 4) (ceilDiv (cut + n) x.esize) q.2
    .ok ({ q.1 with flags := q.1.flags ||| r.2.1 }, ((r.1.drop cut).take n).map fun b => (b, bad), r.2.2, none)
  | _ =>
    let p := leBytes 4 (loWord x.src).toNat
    .ok (c, (List.range n).map fun i => ((p[(x.dst.toNat + d + i) % 4]?).getD 0, false), s, none)

/-- What of a piece at offset d of the destination is unpredictable, since the source range covers it (R249). -/
def CpyParm.spoil (x : CpyParm) (c : CCmd) (w : Workgroup) (base : DWord) (d : Nat) (bs : List MByte) (s : State) :
    List MByte × State :=
  let q := engPlace s c.own.wk w base
  freeWhere (fun i => x.inSource s c.own.wk w q (d + i)) 0 bs s

/-- Delivers a piece to the members of a multicast one after another, to each the bytes it has not received; a fault at a
member ends the piece, and what has been delivered counts (R242). -/
def mcDeliver (w : Workgroup) (x : CpyParm) (d : Nat) (bs : List MByte) : List (Nat × Nat) → List Nat → CCmd → State →
    CCmd × State × Option Trap
  | [], got, c, s => ({ c with ahead := got }, s, none)
  | (m, g) :: ms, got, c, s =>
    let base := peerAddr m (x.dst.toNat % 2 ^ 32)
    let a := base + BitVec.ofNat 64 (d + g)
    let b := x.spoil c w base (d + g) (bs.drop g) s
    let r := b.2.engWrite w true (engPlace s c.own.wk w a) b.1 a
    let c := c.notePoison a (b.1.take r.1)
    match r.2.2 with
    | some t => ({ c with ahead := got ++ (g + r.1) :: ms.map (·.2) }, r.2.1, some t)
    | none => mcDeliver w x d bs ms (got ++ [g + r.1]) c r.2.1

/-- A piece of a multicast stream: once every member has it, the stream has advanced over it. -/
def mcStep (c : CCmd) (s : State) (w : Workgroup) (x : CpyParm) (d : Nat) (bs : List MByte) (ms : List Nat) : Run1 :=
  let r := mcDeliver w x d bs (ms.zipIdx.map fun e => (e.1, (c.ahead[e.2]?).getD 0)) [] c s
  let s := wpAdd c r.2.1 (r.1.ahead.sum - c.ahead.sum)
  match r.2.2 with
  | some t => faulted r.1 s t
  | none => { c := { r.1 with done := r.1.done + bs.length, ahead := r.1.ahead.map (· - bs.length) }, s := s, out := .going }

/-- Writes a piece of a `cpy`. -/
def cpyDeliver (c : CCmd) (s : State) (w : Workgroup) (x : CpyParm) (d : Nat) (bs : List MByte) : Run1 :=
  let a := x.dst + BitVec.ofNat 64 d
  if x.dstk = 1 then
    advance (c.notePoison a bs)
      (s.updWg c.own.wk fun w => { w with scale := cellWrite w.scale a.toNat (bs.map (·.1)) }) bs.length
  else
    match x.mask with
    | some m => mcStep c s w x d bs (maskMembers m)
    | none =>
      let r := x.spoil c w x.dst d bs s
      engDeliver c r.2 w a r.1

/-- The next piece of a `cpy`, at most n bytes. -/
def cpyStep (x : CpyParm) (n : Nat) (c : CCmd) (s : State) : Run1 :=
  match s.wg c.own.wk with
  | none => { c := c, s := s, out := .fin }
  | some w =>
    if x.total ≤ c.done then
      -- a drain to nobody takes up the bank's flags all the same (R224, R250)
      let q := if x.srck = 1 ∧ x.total = 0 then drainFlags c w x.slot s else (c, s)
      { c := q.1, s := q.2, out := .fin }
    else
      let p := x.piece c.done n
      match c.fab with
      | some { strand := 1, tag := t, late := l, reply := r } =>
        writeReply c s { strand := 1, tag := t, late := l, reply := r } p.2.2 (x.dst + BitVec.ofNat 64 p.2.1)
      | _ =>
        match cpySource c s w x p.1 p.2.1 p.2.2 with
        | .error r => r
        | .ok (c, bs, s, t) =>
          let q := if bs.isEmpty then { c := c, s := s, out := .going } else cpyDeliver c s w x p.2.1 bs
          match t, q.out with
          | some t, .going => faulted q.c q.s t
          | _, _ => q

/-! ## `gath` (R253, R254, R258, 20 R358) -/

/-- Gives back the hold of a command. -/
def dropHold (c : CCmd) (s : State) : CCmd × State :=
  match c.hold with
  | none => (c, s)
  | some (die, i) => ({ c with hold := none }, (s.holdPage die i false).serveCaddy die)

/-- The rows of a `gath` in stream order: row r is of part K (false) or V and of token n. -/
def gathRow (parts nt r : Nat) : Bool × Nat := (parts == 2 || nt ≤ r, r % nt)

/-- The page of the row that starts now: reads the block table and takes a hold. A poisoned entry ends the command with
POISON, as 20 R356 says of one that a peer's reply has poisoned; AUX is the entry's address, and for an entry in local
memory both are the model's (DESIGN CHOICE, log 88). -/
def gathOpen (c : CCmd) (s : State) (w : Workgroup) (bt : DWord) (t model pt : Nat) :
    Except Run1 (CCmd × State) :=
  let a := bt + BitVec.ofNat 64 (4 * (t / pt))
  match engFetch c s w a 4 with
  | .error r => .error r
  | .ok (c, _, s, some tr) => .error (faulted c s tr)
  | .ok (c, b, s, none) =>
    if b.any (·.2) then .error { c := c.fail 0x01 a, s := s, out := .fin }
    else
    match livePage s (wordAt (b.map (·.1)) 0) w.tenant model with
    | none => .error { c := c.fail 0x04 (BitVec.ofNat 64 t), s := s, out := .fin }
    | some (die, i, d) =>
      if d.moving || 255 ≤ d.holds then .error { c := c, s := s, out := .wait }
      else .ok ({ c with hold := some (die, i) }, s.holdPage die i true)

/-- The end of a row: STAMP and the end of the hold. -/
def gathClose (c : CCmd) (s : State) (die i : Nat) : CCmd × State :=
  let s := match s.desc die i with
    | none => s
    | some d => s.setDesc die i { d with stamp := s.pageClock.toNat }
  dropHold c s

/-- The bytes of a row at page offset o, from a frame or from the peer page. -/
def gathBytes (c : CCmd) (s : State) (w : Workgroup) (die : Nat) (d : Desc) (m : CaddyModel) (o n : Nat) (a : DWord) :
    Except Run1 (CCmd × List MByte × State × Option Trap) :=
  if d.tier = 2 then
    match c.fab with
    | none =>
      .error (sendEng c s (c.packet s w (BitVec.ofNat 12 d.loc) (BitVec.ofNat 2 (d.loc / 4096)) 0x0C 0
        ((s.tenant w.tenant).part.getD 0) (d.auxl % 2 ^ 30 + o / 32 * 2 ^ 30) n []) 0)
    | some fw =>
      match readReply c s fw n a with
      | .error r => .error r
      | .ok (c, b, s) => .ok (c, b, s, none)
  else
    let va := s.frameVa die d.ten d.tier d.loc m.pageBytes + o
    let r := s.engRead w (.glob (va % 2 ^ 56)) n (BitVec.ofNat 64 (va % 2 ^ 56))
    .ok (c, r.1, r.2.1, r.2.2)

/-- The next piece of a `gath`, at most n bytes. -/
def gathStep (layer parts : Nat) (bt : DWord) (t0 nt kdst vdst dstr model n : Nat) (c : CCmd) (s : State) : Run1 :=
  match s.wg c.own.wk, s.modelAt model with
  | some w, some m =>
    let rows := nt * (if parts = 3 then 2 else 1)
    if rows * m.rb ≤ c.done then { c := c, s := s, out := .fin }
    else
      let row := gathRow parts nt (c.done / m.rb)
      let b := c.done % m.rb
      let pt := 2 ^ m.ptl
      let t := t0 + row.2
      let opened : Except Run1 (CCmd × State) := match c.hold with
        | some _ => .ok (c, s)
        | none => gathOpen c s w bt t model pt
      match opened with
      | .error r => r
      | .ok (c, s) =>
        let pg := c.hold.getD (0, 0)
        match s.desc pg.1 pg.2 with
        | none => { c := c.fail 0x04 (BitVec.ofNat 64 t), s := s, out := .fin }
        | some d =>
          let o := layer * 2 * pt * m.rb + (if row.1 then pt * m.rb else 0) + t % pt * m.rb + b
          let dst := ownAddr ((if row.1 then vdst else kdst) + row.2 * dstr + b)
          let k := min (min n (m.rb - b)) (4096 - o % 4096)
          match gathBytes c s w pg.1 d m o k dst with
          | .error r => r
          | .ok (c, bs, s, tr) =>
            let q := if bs.isEmpty then { c := c, s := s, out := .going } else engDeliver c s w dst bs
            match tr, q.out with
            | some tr, .going => faulted q.c q.s tr
            | none, .going =>
              if q.c.done % m.rb = 0 then
                let z := gathClose q.c q.s pg.1 pg.2
                { c := z.1, s := z.2, out := .going }
              else q
            | _, _ => q
  | _, _ => { c := c, s := s, out := .fin }

/-! ## `qdual` (R215 to R217, R255) -/

/-- The parameters of a `qdual`. -/
structure QdParm where
  tfmt : Nat
  rowc : Bool
  colc : Bool
  src : DWord
  rows : Nat
  cols : Nat
  sstr : Nat
  gpre : Word
  rdst : Nat
  cdst : Nat
  rsoff : Nat
  csoff : Nat
  rstr : Nat
  cstr : Nat
  deriving DecidableEq, Repr

/-- Reads source bytes into the command's buffer: the piece at its end, at most n bytes and within a row. -/
def qdRead (x : QdParm) (n : Nat) (c : CCmd) (s : State) (w : Workgroup) : Run1 :=
  let p := c.data.length
  let a := x.src + BitVec.ofNat 64 (p / (4 * x.cols) * x.sstr + p % (4 * x.cols))
  let k := min (min n (4 * x.cols - p % (4 * x.cols))) (4096 - a.toNat % 4096)
  match engFetch c s w a k with
  | .error r => r
  | .ok (c, bs, s, t) =>
    let c := { c with data := c.data ++ bs }
    match t with
    | none => { c := c, s := s, out := .going }
    | some t => faulted c s t

/-- Prescaled elements of the tile in row-major order, each with its poison mark. -/
def qdElems (x : QdParm) (data : List MByte) : List (FVal × Bool) :=
  (List.range (x.rows * x.cols)).map fun k =>
    let b := (data.drop (4 * k)).take 4
    (val32 (fmul .rne (wordAt (b.map (·.1)) 0) x.gpre).1, b.any (·.2))

/-- A quantised line: its packed bytes, its scale groups, its flags. -/
structure QLine where
  bytes : List MByte
  scales : List Byte
  flags : BitVec 4
  deriving DecidableEq, Repr

/-- Groups of four. -/
def fours {α : Type} : Nat → List α → List (List α)
  | 0, _ => []
  | n + 1, l => l.take 4 :: fours n (l.drop 4)

/-- Quantises a line; the codes of a block that holds a poisoned element are poisoned. -/
def quantLine (tfmt : Nat) (es : List (FVal × Bool)) : QLine :=
  let bl := (fours (es.length / 4) es).map fun g => (quantBlock tfmt (g.map (·.1)), g.any (·.2))
  let bits := fmtBits tfmt
  { bytes := bl.flatMap fun b => (packCodes bits b.1.codes).map fun y => (y, b.2)
    scales := packScales (ceilDiv es.length 128) (bl.map (·.1.scale))
    flags := bl.foldl (fun f b => f ||| b.1.flags) 0 }

/-- Line i of the row copy and line j of the column copy. -/
def qdRows (x : QdParm) (es : List (FVal × Bool)) : List QLine :=
  (List.range x.rows).map fun i => quantLine x.tfmt ((es.drop (i * x.cols)).take x.cols)

def qdCols (x : QdParm) (es : List (FVal × Bool)) : List QLine :=
  (List.range x.cols).map fun j => quantLine x.tfmt ((List.range x.rows).map fun i => (es[i * x.cols + j]?).getD (.fin false 0 0, false))

/-- A part of the stream: whether it goes to scale memory, its offset, its bytes. -/
abbrev QPart := Bool × Nat × List MByte

/-- A copy's lines, then its scale groups. -/
def qdParts (ls : List QLine) (dst str soff : Nat) : List QPart :=
  (ls.zipIdx.map fun e => (false, dst + e.2 * str, e.1.bytes)) ++
    ls.zipIdx.map fun e => (true, soff + e.2 * e.1.scales.length, e.1.scales.map fun b => (b, false))

/-- A byte lies in one of n runs of k bytes, str apart. -/
def inRuns (lo str n k o : Nat) : Bool := (List.range n).any fun i => lo + i * str ≤ o && o < lo + i * str + k

/-- Bytes of a copy that another copy or the source covers are unpredictable (R255). -/
def qdClash (x : QdParm) (s : State) (wk : Nat) (w : Workgroup) (row : Bool) (scale : Bool) (o : Nat) : Bool :=
  let other :=
    if scale then
      (if row then x.colc && inRuns x.csoff 0 1 (36 * x.cols * ceilDiv x.rows 128) o
       else x.rowc && inRuns x.rsoff 0 1 (36 * x.rows * ceilDiv x.cols 128) o)
    else
      (if row then x.colc && inRuns x.cdst x.cstr x.cols (lineBytes x.tfmt x.rows) o
       else x.rowc && inRuns x.rdst x.rstr x.rows (lineBytes x.tfmt x.cols) o)
  let src := match engPlace s wk w x.src with
    | .scratch k lo => k == wk && !scale && inRuns lo x.sstr x.rows (4 * x.cols) o
    | _ => false
  other || src

/-- Writes the parts of a stream from byte `done` on; `at_` is where the first part starts in it. -/
def qdWrite (x : QdParm) (w : Workgroup) : List (Bool × QPart) → Nat → CCmd → State → Run1
  | [], _, c, s => { c := c, s := s, out := .fin }
  | (row, scale, off, bs) :: ps, at_, c, s =>
    if at_ + bs.length ≤ c.done then qdWrite x w ps (at_ + bs.length) c s
    else
      let k := c.done - at_
      let r := freeWhere (fun i => qdClash x s c.own.wk w row scale (off + k + i)) 0 (bs.drop k) s
      let q := if scale then
          advance c (r.2.updWg c.own.wk fun w => { w with scale := cellWrite w.scale (off + k) (r.1.map (·.1)) }) r.1.length
        else engDeliver c r.2 w (ownAddr (off + k)) r.1
      match q.out with
      | .going => qdWrite x w ps (at_ + bs.length) q.c q.s
      | _ => q

/-- The next piece of a `qdual`: source bytes while some are missing, then the whole stream. -/
def qdualStep (x : QdParm) (n : Nat) (c : CCmd) (s : State) : Run1 :=
  match s.wg c.own.wk with
  | none => { c := c, s := s, out := .fin }
  | some w =>
    if c.data.length < 4 * x.rows * x.cols then qdRead x n c s w
    else
      let es := qdElems x c.data
      let rs := if x.rowc then qdRows x es else []
      let cs := if x.colc then qdCols x es else []
      let fl := (rs ++ cs).foldl (fun f l => f ||| l.flags) 0
      let ps := (qdParts rs x.rdst x.rstr x.rsoff).map (fun p => (true, p)) ++
        (qdParts cs x.cdst x.cstr x.csoff).map fun p => (false, p)
      qdWrite x w ps 0 { c with flags := c.flags ||| fl } s

/-! ## `ldrain` (R256) -/

/-- The parameters of an `ldrain`. -/
structure LdParm where
  slot : Nat
  kc : Nat
  gumb : Bool
  init : Bool
  row0 : Nat
  col : Nat
  nr : Nat
  idx0 : Word
  itemp : Word
  seqid : Word
  seed : DWord
  pos : Word
  deriving DecidableEq, Repr

/-- One row: y, its flags and the fold. -/
def ldrainRow (x : LdParm) (sca scb v : Word) (r : Nat) (d : DrainRec) : DrainRec × BitVec 4 :=
  let ix := x.idx0 + BitVec.ofNat 32 r
  let ps := fmul .rne sca scb
  let t := fmul .rne v ps.1
  let y := fmul .rne t.1 x.itemp
  let fl := slotFlags (ps.2 ||| t.2 ||| y.2)
  if (val32 y.1).isNan then (d, fl ||| 1)
  else
    (d.fold x.kc y.1 ix (if x.gumb then some (philox x.seed x.seqid x.pos ix).w0 else none), fl)

/-- The rows from r on. -/
def ldrainRows (c : CCmd) (w : Workgroup) (x : LdParm) : Nat → Nat → DrainRec → BitVec 4 → State → DrainRec × BitVec 4 × State
  | 0, _, d, fl, s => (d, fl, s)
  | n + 1, r, d, fl, s =>
    let b := (w.slot x.slot).seen w.hdr.accm
    let e := drainRead c w x.slot (64 * (x.row0 + r) + x.col) s
    let q := ldrainRow x b.sca b.scb e.1 r d
    ldrainRows c w x n (r + 1) q.1 (fl ||| q.2) e.2

/-- The record that an `ldrain` starts from, with the FLG it holds. -/
def ldrainStart (c : CCmd) (w : Workgroup) (x : LdParm) (s : State) :
    Except Run1 (CCmd × DrainRec × BitVec 4 × Bool × State) :=
  if x.init then .ok (c, DrainRec.fresh, 0, false, s)
  else
    match engFetch c s w c.crec 544 with
    | .error r => .error r
    | .ok (c, _, s, some t) => .error (faulted c s t)
    | .ok (c, b, s, none) =>
      let bs := b.map (·.1)
      .ok (c, DrainRec.read bs, (wordAt bs 0).extractLsb' 16 4, b.any (·.2), s)

/-- Word 0 of a completion record (Table 13-3). -/
def CCmd.status (c : CCmd) (cmd : Nat) : Word :=
  BitVec.ofNat 32 (cmd * 16777216 + c.flags.toNat * 65536 + (if c.late then 256 else 0) + c.code)

/-- The fold of an `ldrain`: the record that is its stream stands ready to be written. -/
def ldrainStep (x : LdParm) (c : CCmd) (s : State) : Run1 :=
  match s.wg c.own.wk with
  | none => { c := c, s := s, out := .fin }
  | some w =>
    match ldrainStart c w x s with
    | .error r => r
    | .ok (c, d, fl, bad, s) =>
      let q := drainFlags { c with flags := c.flags ||| fl } w x.slot s
      let r := ldrainRows q.1 w x x.nr 0 d 0 q.2
      let psn := bad || ((w.slot x.slot).seen w.hdr.accm).psn
      let c1 := { q.1 with flags := q.1.flags ||| r.2.1 }
      let c2 := if psn then c1.fail 0x01 c1.crec else c1
      { c := { c2 with data := (r.1.bytes (c2.status 0x04)).map fun b => (b, psn) }, s := r.2.2, out := .fin }

/-! ## Running the head of a channel (R241, R243) -/

/-- The next piece of a command, at most n bytes. A `cpyr` reads its source here. -/
def CCmd.step (c : CCmd) (n : Nat) (s : State) : Run1 :=
  match c.op with
  | .cpy mask dstk srck dfmt dscl dint slot src dst len0 cnt1 cnt2 sstr1 sstr2 dstr1 dstr2 =>
    cpyStep ⟨mask, dstk, srck, dfmt, dscl, dint, slot, src, dst, len0, cnt1, cnt2, sstr1, sstr2, dstr1, dstr2⟩ n c s
  | .gath layer parts bt t0 nt kdst vdst dstr model => gathStep layer parts bt t0 nt kdst vdst dstr model n c s
  | .qdual tfmt rowc colc src rows cols sstr gpre rdst cdst rsoff csoff rstr cstr =>
    qdualStep ⟨tfmt, rowc, colc, src, rows, cols, sstr, gpre, rdst, cdst, rsoff, csoff, rstr, cstr⟩ n c s
  | .ldrain slot kc gumb init row0 col nr idx0 itemp seqid seed pos =>
    ldrainStep ⟨slot, kc, gumb, init, row0, col, nr, idx0, itemp, seqid, seed, pos⟩ c s
  | .cpyr _ src _ len _ _ =>
    match s.wg c.own.wk with
    | none => { c := c, s := s, out := .fin }
    | some w =>
      if len ≤ c.data.length then { c := c, s := s, out := .fin }
      else
        match engFetch c s w (src + BitVec.ofNat 64 c.data.length) (min n (len - c.data.length)) with
        | .error r => r
        | .ok (c, bs, s, t) =>
          let c := { c with data := c.data ++ bs }
          match t with
          | none => { c := c, s := s, out := .going }
          | some t => faulted c s t

/-- How far a command has come towards its granules: stream bytes, or source bytes of a `qdual` or `cpyr`. -/
def CCmd.progress (c : CCmd) : Nat :=
  match c.op with
  | .qdual _ _ _ _ _ _ _ _ _ _ _ _ _ _ => c.data.length
  | .cpyr _ _ _ _ _ _ => c.data.length
  | _ => c.done

/-- The next granule boundary (R243): every 4 KiB of stream of a `cpy` or `gath`, every four source rows of a
`qdual`; none for the others. -/
def CCmd.granule (c : CCmd) : Option Nat :=
  match c.op with
  | .cpy _ _ _ _ _ _ _ _ _ _ _ _ _ _ _ _ => some ((c.done / 4096 + 1) * 4096)
  | .gath _ _ _ _ _ _ _ _ _ => some ((c.done / 4096 + 1) * 4096)
  | .qdual _ _ _ _ _ cols _ _ _ _ _ _ _ _ => some ((c.data.length / (16 * cols) + 1) * (16 * cols))
  | _ => none

/-- The end of the part that granules divide. -/
def CCmd.end_ (c : CCmd) (s : State) : Nat :=
  match c.op with
  | .cpy mask dstk srck dfmt dscl dint slot src dst len0 cnt1 cnt2 sstr1 sstr2 dstr1 dstr2 =>
    (CpyParm.mk mask dstk srck dfmt dscl dint slot src dst len0 cnt1 cnt2 sstr1 sstr2 dstr1 dstr2).total
  | .gath _ parts _ _ nt _ _ _ model => nt * (if parts = 3 then 2 else 1) * ((s.modelAt model).map (·.rb)).getD 0
  | .qdual _ _ _ _ rows cols _ _ _ _ _ _ _ _ => 4 * rows * cols
  | _ => 0

/-- Runs a command until its progress reaches `limit` (none: until its stream is finished), or something stops it
(fuel). -/
def runTo (limit : Option Nat) : Nat → CCmd → State → Run1
  | 0, c, s => { c := c, s := s, out := .wait }
  | fuel + 1, c, s =>
    if (limit.map fun l => decide (l ≤ c.progress)).getD false then { c := c, s := s, out := .going }
    else
      let r := c.step ((limit.map fun l => l - c.progress).getD 4096) s
      match r.out with
      | .going => runTo limit fuel r.c r.s
      | _ => r

/-- Fuel for the rest of a command: every piece makes progress, and no stream is longer than 2^33 bytes. -/
def runFuel : Nat := 2 ^ 34

/-- Starts a command, or lets it go on after it has stopped for others (R243): it leaves its queue with its aged slack (07
R139); at the start its lateness is decided (12 R234), and what firmware declared unresolved ends its stream with XLATE
(R246). -/
def CCmd.begin (c : CCmd) (s : State) : CCmd × State :=
  let aged := if c.started && c.lostRounds == 0 then c.slack else BitVec.ofNat 12 (agedSlack c.slack.toNat (s.tick - c.tick))
  let (c, s) :=
    if c.started then ({ c with slack := aged, late := c.late || aged == 0, tick := s.tick, lostRounds := 0 }, s)
    else
      let r := (s.preceded c.own c.iss).cmdLate c.slack c.tick
      ({ c with started := true, late := r.1, slack := aged, tick := s.tick, lostRounds := 0 }, r.2)
  if c.failed && c.stage == 0 then ({ c.fail 0x02 (c.stalled.getD 0) with stage := 1, failed := false, stalled := none }, s)
  else (c, s)

/-- CMD of a record. -/
def CCmd.cmdNum (c : CCmd) : Nat :=
  match c.op with
  | .cpy _ _ _ _ _ _ _ _ _ _ _ _ _ _ _ _ => 0x00
  | .cpyr _ _ _ _ _ _ => 0x01
  | .gath _ _ _ _ _ _ _ _ _ => 0x02
  | .qdual _ _ _ _ _ _ _ _ _ _ _ _ _ _ => 0x03
  | .ldrain _ _ _ _ _ _ _ _ _ _ _ _ => 0x04

/-- The completion record (Table 13-3). -/
def CCmd.record (c : CCmd) : List Byte :=
  leBytes 4 (c.status c.cmdNum).toNat ++ leBytes 4 c.written ++ leBytes 8 c.aux.toNat ++ leBytes 16 0

/-- The record that a command has to write: the common one, or the stream of an `ldrain`. -/
def CCmd.toWrite (c : CCmd) : List MByte :=
  if c.crec = 0 then [] else if c.cmdNum = 0x04 then c.data else c.record.map fun b => (b, false)

/-- The record has been written; that of an `ldrain` is its stream. -/
def CCmd.recorded (c : CCmd) (s : State) : Run1 :=
  let r := if c.cmdNum = 0x04 then advance c s 544 else { c := c, s := s, out := .going }
  { r with c := { r.c with stage := 2 } }

/-- The record is not written (R376). -/
def CCmd.unrecorded (c : CCmd) (s : State) (t : Trap) : Run1 :=
  { c := { c with stage := 2, lost := true, failed := false, stalled := none, fab := none }
    s := s.engineRecord c.own 6 c.chan t true, out := .going }

/-- Step 2 of R245: the record, at once or through a window by a packet. A replayable fault stalls it. -/
def writeRec (c : CCmd) (s : State) (w : Workgroup) : Run1 :=
  let bs := c.toWrite
  if bs.isEmpty then { c := { c with stage := 2 }, s := s, out := .going }
  else if c.failed then c.unrecorded s (noTranslation (c.stalled.getD 0))
  else
    match windowAt c s w c.crec with
    | some (x, va) =>
      (match c.fab with
       | none => sendEng c s (c.packet s w x.node x.die 0x01 x.ctr x.part (winTarget x va) bs.length bs) 1
       | some fw =>
         match fw.reply with
         | none => { c := c, s := s, out := .wait }
         | some (.error _) => c.unrecorded s (trapOf .protection 0x0B c.crec)
         | some _ => { c with fab := none }.recorded s)
    | none =>
      match s.engStore c.own.wk w true c.crec bs with
      | .ok s => c.recorded s
      | .error (t, s) => if t.replay then { c := c, s := s, out := .trap t } else c.unrecorded s t

/-- What the addition counts: the stream, and a record written beside it (R245). -/
def CCmd.counted (c : CCmd) : Nat :=
  c.written + (if c.crec ≠ 0 ∧ c.cmdNum ≠ 0x04 ∧ c.lost = false then 32 else 0)

/-- The FLAGS that the addition ORs in. -/
def CCmd.addFlags (c : CCmd) : Nat :=
  (if c.late then 1 else 0) + (if c.code ≠ 0 ∨ c.lost = true then 2 else 0) + c.flags.toNat * 16

/-- Step 3 of R245: the addition. A command of a workgroup that is torn down adds nothing (18 R324). -/
def addBar (c : CCmd) (s : State) (w : Workgroup) : Run1 :=
  let ended (s : State) : Run1 := { c := { c with stage := 3 }, s := s, out := .fin }
  if c.bar = 0 ∨ (c.written = 0 ∧ c.crec = 0) ∨ w.dead = true then ended s
  else if c.failed then ended (s.engineRecord c.own 6 c.chan (noTranslation (c.stalled.getD 0)) true)
  else
    match s.engAdd c.own.wk w c.bar c.counted c.addFlags with
    | .ok s => ended s
    | .error (t, s) =>
      if t.replay then { c := c, s := s, out := .trap t } else ended (s.engineRecord c.own 6 c.chan t true)

/-- The end of a command from its stage on; stage 3 is the end. -/
def finish (c : CCmd) (s : State) : Run1 :=
  match s.wg c.own.wk with
  | none => { c := { c with stage := 3 }, s := s, out := .fin }
  | some w =>
    let r : Run1 := if c.stage ≤ 1 then writeRec { c with stage := 1 } s w else { c := c, s := s, out := .going }
    match r.out with
    | .going => addBar r.c r.s w
    | _ => r

/-- A command to its end: the rest of its stream, its record, its addition. -/
def runEnd (c : CCmd) (s : State) : Run1 :=
  let b := c.begin s
  let r := if b.1.stage = 0 then runTo none runFuel b.1 b.2 else { c := b.1, s := b.2, out := .fin }
  match r.out with
  | .fin =>
    let h := dropHold r.c r.s
    finish h.1 h.2
  | _ => r

/-- A command to its next granule, or as far as it gets. -/
def runGranule (c : CCmd) (s : State) : Run1 :=
  let b := c.begin s
  if b.1.stage = 0 then runTo b.1.granule runFuel b.1 b.2 else { c := b.1, s := b.2, out := .fin }

/-! ## `cpyr` at its slice (R252) -/

/-- The value an update writes and its flags. -/
def reduceVal (rop : Nat) (c x : Word) : Word × Word :=
  match rop with
  | 0 => plain (c + x)
  | 1 => fadd .rne c x
  | 2 => plain (minI c x)
  | _ => plain (maxI c x)

/-- Applies the elements from the command's progress on (fuel: elements). -/
def cpyrElems (w : Workgroup) (rop : Nat) (dst : DWord) : Nat → CCmd → State → Run1
  | 0, c, s => { c := c, s := s, out := .fin }
  | n + 1, c, s =>
    let a := dst + BitVec.ofNat 64 c.done
    let p := engPlace s c.own.wk w a
    match s.engRead w p 4 a with
    | (_, s, some t) => faulted c s t
    | (b, s, none) =>
      let x := (c.data.drop c.done).take 4
      let r := reduceVal rop (wordAt (b.map (·.1)) 0) (wordAt (x.map (·.1)) 0)
      let bad := b.any (·.2) || x.any (·.2)
      let q := engDeliver { c with flags := c.flags ||| slotFlags r.2 } s w a ((leBytes 4 r.1.toNat).map fun y => (y, bad))
      match q.out with
      | .going => cpyrElems w rop dst n q.c q.s
      | _ => q

/-- A command at a slice whose sequence word has been read as `cur`: it applies, it has been passed, or it waits. -/
def cpyrRun (c : CCmd) (s : State) (w : Workgroup) (rop : Nat) (dst : DWord) (len : Nat) (seq : Word) (seqw : DWord)
    (cur : Word) : Run1 :=
  if cur = seq then
    let r := cpyrElems w rop dst ((len - c.done) / 4) c s
    match r.out with
    | .fin =>
      if r.c.code = 0 ∨ r.c.code = 1 then
        (match r.s.engStore c.own.wk w true seqw ((leBytes 4 (seq + 1).toNat).map fun b => (b, false)) with
         | .ok s => { r with s := s }
         | .error (t, s) => faulted r.c s t)
      else r
    | _ => r
  else if 2 ^ 31 ≤ (seq - cur).toNat then { c := c.fail 0x05 (zext64 cur), s := s, out := .fin }
  else { c := c, s := s, out := .wait }

/-- A reduction whose source has been read, from its stage on: its turn has come, or has passed, or it waits for it. A
poisoned sequence word ends it with POISON and AUX := SEQW: R252 names no code (DESIGN CHOICE, log 88). -/
def sliceRun (c : CCmd) (s : State) (w : Workgroup) : Run1 :=
  let c := (c.begin s).1
  match c.op with
  | .cpyr rop _ dst len seq seqw =>
    let r : Run1 :=
      if c.stage ≠ 0 then { c := c, s := s, out := .fin }
      else
        match s.windowOf w.tenant (seqw.toNat % 2 ^ 56) with
        | some _ => { c := c.fail 0x03 seqw, s := s, out := .fin }
        | none =>
          match s.engRead w (engPlace s c.own.wk w seqw) 4 seqw with
          | (_, s, some t) => faulted c s t
          | (b, s, none) =>
            if b.any (·.2) then { c := c.fail 0x01 seqw, s := s, out := .fin }
            else cpyrRun c s w rop dst len seq seqw (wordAt (b.map (·.1)) 0)
    (match r.out with
     | .fin => finish r.c r.s
     | _ => r)
  | _ => { c := c, s := s, out := .wait }

/-! ## Channels -/

def State.chan (s : State) (core ch : Nat) : List CCmd := vget (s.core core).chans ch []

def State.setChan (s : State) (core ch : Nat) (q : List CCmd) : State :=
  let x := s.core core
  s.putCore core { x with chans := vset x.chans ch q }

/-- The command stands at a granule, where it may be stopped (R243). -/
def CCmd.atGranule (c : CCmd) : Bool :=
  !c.started || (c.stage == 0 && c.fab.isNone && c.stalled.isNone &&
    (match c.op with
     | .cpy _ _ _ _ _ _ _ _ _ _ _ _ _ _ _ _ => c.done % 4096 == 0
     | .gath _ _ _ _ _ _ _ _ _ => c.done % 4096 == 0
     | .qdual _ _ _ _ _ cols _ _ _ _ _ _ _ _ => c.done == 0 && c.data.length % (16 * cols) == 0
     | _ => false))

/-- The slot whose visible bank a command drains. -/
def CCmd.drained (c : CCmd) : Option Nat :=
  match c.op with
  | .cpy _ _ srck _ _ _ k _ _ _ _ _ _ _ _ _ => if srck = 1 then some k else none
  | .ldrain k _ _ _ _ _ _ _ _ _ _ _ => some k
  | _ => none

def CCmd.multicast (c : CCmd) : Bool :=
  match c.op with
  | .cpy (some _) _ _ _ _ _ _ _ _ _ _ _ _ _ _ _ => true
  | _ => false

/-- A command waits for what was issued before it: for the end of the cycle of its issue, in which lower lanes still enter
(R241); for the earlier fabric stores of its fibre, which its writes follow (08 R158); a drain for an exchange of its slot
(12 R237); a multicast for the earlier ones of its fibre (08 R161, R250). -/
def CCmd.behind (c : CCmd) (s : State) (w : Workgroup) : Bool :=
  s.cycles ≤ c.iss.cycle || s.fabric.storesBefore c.own c.iss ||
    (c.drained.map fun k => w.swapsBefore k c.iss).getD false ||
    (c.multicast && (s.core w.core).chans.toList.any fun q => q.any fun x =>
      x.multicast && x.own.wk == c.own.wk && x.own.uid == c.own.uid && x.iss.before c.iss)

/-- The head of a channel, if it may run: its workgroup is resident, or is being stopped or torn down and the command
stands between granules (18 R324, R327); firmware owes it no answer, no packet of it is unanswered, and nothing before it holds it back. -/
def State.runnable (s : State) (core ch : Nat) : Option CCmd :=
  match s.chan core ch with
  | [] => none
  | c :: _ =>
    match s.wg c.own.wk with
    | none => none
    | some w =>
      let free := (c.stalled.isNone || c.failed) && (c.fab.all fun x => x.reply.isSome) && !c.behind s w
      match w.run with
      | .resident => if free then some c else none
      | .stopping => if free && !c.atGranule then some c else none
      | .dying _ => if free && !c.atGranule then some c else none
      | _ => none

/-- Puts the head of a channel back, or takes it away when it has ended. -/
def State.setHeadC (s : State) (core ch : Nat) (c : CCmd) : State :=
  if c.stage = 3 then (s.setChan core ch ((s.chan core ch).drop 1)).engoDone c.own
  else s.setChan core ch (c :: (s.chan core ch).drop 1)

/-- The command is a reduction, which goes on at a slice. -/
def CCmd.isCpyr (c : CCmd) : Bool := c.cmdNum == 0x01

/-- A free place at the slices of a die: 256 of them (R252). -/
def State.slicePlace (s : State) (die : Nat) : Option Nat :=
  ((List.range 256).map (256 * die + ·)).find? fun k => (s.slices.find k).isNone

/-- The home die of a reduction's destination. -/
def cpyrHome (c : CCmd) (s : State) : Except (Trap × State) (Nat × State) :=
  match c.op, s.wg c.own.wk with
  | .cpyr _ _ dst _ _ _, some w =>
    (match s.windowOf w.tenant (dst.toNat % 2 ^ 56) with
     | some _ => .error (trapOf .protection 0x09 dst, s)
     | none =>
       match s.translate (clusterOf w.core) w.tenant (dst.toNat % 2 ^ 56) 1 false dst with
       | .error t => .error (t, s.faultWalk w.tenant (dst.toNat % 2 ^ 56) t)
       | .ok (pa, _, s) => .ok (homeDie pa, s))
  | _, _ => .error (trapOf .protection 0x09 0, s)

/-- A reduction that stands in its channel, its source read: it applies there when its turn has come or has passed, so
that later commands of the channel follow it; one whose sequence lies ahead leaves for the slice of its destination, if
the die has a place free (R241, R252). -/
def reduceHead (c : CCmd) (s : State) (core ch die : Nat) : Run1 × State :=
  match s.wg c.own.wk with
  | none => ({ c := c, s := s, out := .wait }, s)
  | some w =>
    let q := sliceRun c s w
    if q.out = .wait ∧ q.c.fab = none then
      match s.slicePlace die with
      | none => ({ c := c, s := s, out := .wait }, s.setHeadC core ch c)
      | some k =>
        let s := s.setChan core ch ((s.chan core ch).drop 1)
        ({ c := c, s := s, out := .fin }, { s with slices := s.slices.put k c })
    else (q, q.s.setHeadC core ch q.c)

/-- The head of a channel to the end of its part there. A reduction reads its source first; what it meets before that
ends it as any command. -/
def runHead (c : CCmd) (s : State) (core ch : Nat) : Run1 × State :=
  if c.isCpyr && c.stage == 0 && !(c.failed) then
    let b := c.begin s
    let r := runTo none runFuel b.1 b.2
    match r.out with
    | .fin =>
      if r.c.code ≠ 0 then
        let z := runEnd { r.c with stage := 1 } r.s
        (z, z.s.setHeadC core ch z.c)
      else
        (match cpyrHome r.c r.s with
         | .error (t, s) =>
           let q := faulted r.c s t
           (match q.out with
            | .fin => let z := runEnd { q.c with stage := 1 } q.s; (z, z.s.setHeadC core ch z.c)
            | _ => (q, q.s.setHeadC core ch q.c))
         | .ok (die, s) => reduceHead r.c s core ch die)
    | _ => (r, r.s.setHeadC core ch r.c)
  else
    let r := runEnd c s
    (r, r.s.setHeadC core ch r.c)

/-- A command has a granule before its end. -/
def CCmd.granular (c : CCmd) (s : State) : Bool :=
  c.stage == 0 && !c.failed && (c.granule.map fun g => decide (g < c.end_ s)).getD false

/-- What a head does when it is granted. -/
def headRun (c : CCmd) (s : State) (core ch : Nat) : Run1 :=
  if c.granular s then runGranule c s else (runHead c s core ch).1

/-- How far a command has come. -/
def CCmd.mark (c : CCmd) : Nat × List Nat × Nat × Nat × Option FabWait × Option (Nat × Nat) :=
  (c.done, c.ahead, c.data.length, c.stage, c.fab, c.hold)

/-- A head can be granted: it may run, and it would not merely wait for a page, a peer or a slice. -/
def State.goes (s : State) (core ch : Nat) : Option CCmd :=
  (s.runnable core ch).filter fun c =>
    let r := headRun c s core ch
    r.out != .wait || r.c.mark != c.mark

/-- What the copy engine's arbiter sees of a queued command. -/
def CCmd.waiting (c : CCmd) : Waiting := { slack := c.slack.toNat, late := c.late, entered := c.tick, lost := c.lostRounds }

/-- The bids of a core's channels (R241, 07 R141). -/
def State.cBids (s : State) (core : Nat) : List Bid :=
  (List.range 8).filterMap fun ch =>
    if (s.goes core ch).isSome then bidOf ch s.tick ((s.chan core ch).map CCmd.waiting) else none

/-- Stream bytes, and source bytes that stand before them, that a command has moved. -/
def CCmd.moved (c : CCmd) : Nat :=
  match c.op with
  | .qdual _ _ _ _ _ _ _ _ _ _ _ _ _ _ => c.data.length + c.done
  | _ => c.progress

/-- The 512-byte bursts that a head moves once it is granted. Before each of them the engine chooses again; but the command
may be stopped only at a granule, so the same head is granted each time (R241, R243; DEDUCED, log 24). -/
def CCmd.bursts (c : CCmd) (s : State) (core ch : Nat) : Nat := max 1 (ceilDiv ((headRun c s core ch).c.moved - c.moved) 512)

/-- n rounds that a channel wins, one for each burst: every other bidder loses them (07 R140). -/
def State.cRound (s : State) (core n : Nat) (bids : List Bid) (won : Bid) : State :=
  let s := s.putCore core { s.core core with
    nonbgC := if won.slack = 0xFFF then 0 else (s.core core).nonbgC + n }
  bids.foldl (fun s b =>
    if b.key = won.key then s
    else
      match s.chan core b.key with
      | [] => s
      | c :: cs => s.setChan core b.key ({ c with lostRounds := c.lostRounds + n } :: cs)) s

/-- The head of a channel that the engine's arbiter grants now, with the state after the round (R241, R243). -/
def State.granted (s : State) (core ch : Nat) : Option (CCmd × State) :=
  let bids := s.cBids core
  match grantOf (s.core core).nonbgC bids with
  | none => none
  | some b => if b.key = ch then (s.goes core ch).map fun c => (c, s.cRound core (c.bursts s core ch) bids b) else none

/-- COPY_GRANULE (R243), one whole step: the granted head of a channel reaches a granule that is not its end, or waits for the fabric or a
page on the way there. -/
def execCopyGranule (core ch : Nat) (s : State) : Out :=
  .next (match s.granted core ch with
    | none => s
    | some (c, t) =>
      if c.granular s then
        let r := runGranule c t
        match r.out with
        | .trap _ => s
        | .fin => s
        | _ => r.s.setHeadC core ch { r.c with tick := t.tick }
      else s)

/-- COPY_COMMAND_END (R245): the granted head of a channel performs the rest of its stream, writes its record, adds to its
barrier and leaves ENGO; a reduction leaves for its slice. It ends before the last granule only when it is ended with
a code. -/
def execCopyCommandEnd (core ch : Nat) (s : State) : Out :=
  .next (match s.granted core ch with
    | none => s
    | some (c, t) =>
      if c.granular s then
        let r := runGranule c t
        match r.out with
        | .fin =>
          let z := runEnd { r.c with stage := 1 } r.s
          (match z.out with
           | .fin => z.s.setHeadC core ch z.c
           | _ => s)
        | _ => s
      else
        let r := runHead c t core ch
        match r.1.out with
        | .trap _ => s
        | _ => r.2)

/-- A stalled command: what it had done stands, and a record of KIND 2 goes to the fault queue (R246). -/
def State.stallChannel (s : State) (core ch : Nat) (c : CCmd) (t : Trap) : State :=
  (s.setHeadC core ch { c with stalled := some t.addr, failed := false }).engineRecord c.own 2 ch t false

/-- ENGINE_TRANSLATION_STALL (R246, R376): the granted head of a channel meets a replayable translation fault. -/
def execEngineTranslationStall (core ch : Nat) (s : State) : Out :=
  .next (match s.granted core ch with
    | none => s
    | some (c, x) =>
      let r := if c.granular s then
          let q := runGranule c x
          (match q.out with
           | .fin => runEnd { q.c with stage := 1 } q.s
           | _ => q)
        else (runHead c x core ch).1
      match r.out with
      | .trap t => r.s.stallChannel core ch r.c t
      | _ => s)

/-- CPYR_APPLY (R252): a command at a slice whose turn has come, or has passed, applies and ends; a translation fault
stalls it there. A saved workgroup's command goes on (18 R327). -/
def execCpyrApply (n : Nat) (s : State) : Out :=
  .next (match s.slices.find n with
    | none => s
    | some c =>
      if (c.stalled.isSome && !c.failed) || c.fab.any fun x => x.reply.isNone then s
      else
        match s.wg c.own.wk with
        | none => { s with slices := s.slices.del n }
        | some w =>
          if w.dead then s
          else
            let r := sliceRun c s w
            match r.out with
            | .fin => ({ r.s with slices := r.s.slices.del n }).engoDone c.own
            | .trap t =>
              ({ r.s with slices := r.s.slices.put n { r.c with stalled := some t.addr, failed := false } }).engineRecord
                c.own 2 c.chan t false
            | _ => if r.c.fab = none then s else { r.s with slices := r.s.slices.put n r.c })

end Sys2Proof.Machine
end

