-- ==== Sys2Proof/Machine/Caddy.lean ====
section
/-! DEFINITION. The `pgop` words, the end of Caddy's data moves, and automatic eviction (13 R257 to R260, R376, R377;
20 R357, R358). -/

namespace Sys2Proof.Machine

/-! ## `pgop` (R259, R377) -/

/-- The ARG bits that an operation uses. -/
def argUsed (op : Nat) : Word :=
  match op with
  | 0 => 0x000381FF
  | 1 => 0x00008000
  | 2 => 0x00008000
  | 3 => 0xFFFFFFFF
  | 6 => 0x00003FFF
  | _ => 0

/-- Checks 3 to 5 of R377 over a record, and with check 4 those of 07 R126 on the selector and the must-be-zero bits of a
`cow`'s block table (07 R128). -/
def pgopFault (s : State) (w : Workgroup) (op : Nat) (b : List Byte) (a : DWord) : Option Trap :=
  let page := wordAt b 0
  let arg := wordAt b 4
  let bar := dwordAt b 0x10
  if wordAt b 0x1C ≠ 0 ∨ (wordAt b 0x18).toNat / 4096 ≠ 0 ∨ (dwordAt b 8 ≠ 0 ∧ op ≠ 3) ∨ (op = 0 ∧ page ≠ 0) ∨
      arg &&& ~~~argUsed op ≠ 0 then some (engParam 0x03 a)
  else if (barFault? bar).isSome then barFault? bar
  else if op = 3 ∧ (addrFault false anySel 1 (dwordAt b 8)).isSome then addrFault false anySel 1 (dwordAt b 8)
  else if op = 6 ∧ (s.fabric.populated.contains (arg.extractLsb' 0 12) = false ∨
      (s.tenant w.tenant).nodeSet.contains (arg.extractLsb' 0 12) = false) then some (trapOf .peerInvalid 0x04 a)
  else none

/-- The die whose Caddy serves an operation. -/
def pgopDie (op : Nat) (b : List Byte) : Nat :=
  if op = 0 then bitsN (wordAt b 4).toNat 16 2 else bitsN (wordAt b 0).toNat 30 2

/-- A `pgop` word: its checks, then the operation arrives at Caddy, which owes the pair sX, sX+1. -/
def pgopWord (o : SGPX) (op : Nat) (s : State) : Out :=
  word (uUse o.s o.g [.s2 o.p.toNat] (if o.x = 0 then [] else [.s2 o.x.toNat])).syncing noPre (fun wk w _ f s =>
    let a := f.getS64 o.p.toNat
    if s.tokenStall w then .wait f s .token
    else
      match blockRead wk w f s a 32 with
      | .trap f s t => .trap f s t 0
      | .wait f s => .wait f s .held
      | .ok f s b _ _ late =>
        match pgopFault s w op b a with
        | some t => .trap f s t 0
        | none =>
          match endCheck s wk w false 16 16 (dwordAt b 0x10) with
          | .error (t, s) => .trap f s t 0
          | .ok s =>
            let x := o.x.toNat
            let g := { f.issued s a late with busy := if x = 0 then f.busy else f.busy ++ [x, x + 1] }
            -- Caddy serves the operation after the word has retired: the fibre stands in the state first
            let s := (s.putFibre wk g).submitPage (pgopDie op b)
              { op := op, page := wordAt b 0, arg := wordAt b 4, bt := dwordAt b 8, bar := dwordAt b 0x10
                slack := cmdSlack f (wordAt b 0x18), tick := s.tick, late := false, dst := x, own := some (ownerOf wk f)
                tenant := w.tenant }
            match (s.wg wk).bind fun w => w.fibres.find f.fid with
            | some g => .done g s
            | none => .done f s) s

/-- `pgop.alloc` (R259). -/
def execPgopAlloc (o : SGPX) (s : State) : Out := pgopWord o 0 s

/-- `pgop.ref` (R259). -/
def execPgopRef (o : SGPX) (s : State) : Out := pgopWord o 1 s

/-- `pgop.unref` (R259). -/
def execPgopUnref (o : SGPX) (s : State) : Out := pgopWord o 2 s

/-- `pgop.cow` (R259, R260). -/
def execPgopCow (o : SGPX) (s : State) : Out := pgopWord o 3 s

/-- `pgop.evict` (R259). -/
def execPgopEvict (o : SGPX) (s : State) : Out := pgopWord o 4 s

/-- `pgop.promote` (R259). -/
def execPgopPromote (o : SGPX) (s : State) : Out := pgopWord o 5 s

/-- `pgop.send` (R259, 20 R357). -/
def execPgopSend (o : SGPX) (s : State) : Out := pgopWord o 6 s

/-! ## The end of a data move -/

/-- Writes the parts of a pulled page into its frame. -/
def pullData (ten va : Nat) : Tbl (List MByte) → State → Except (Trap × State) State
  | [], s => .ok s
  | (i, b) :: ps, s =>
    match s.pageWrite ten (va + 4096 * i) b with
    | .error e => .error e
    | .ok s => pullData ten va ps s

/-- Moves the data. -/
def moveData (s : State) (die : Nat) (m : Move) (d : Desc) : Except (Trap × State) State :=
  let n := s.pageBytes d.model
  let va (tier f : Nat) : Nat := s.frameVa die d.ten tier f n
  match m.kind with
  | .cow new => s.copyFrame d.ten (va 0 d.loc) (va 0 (((s.desc die new).map (·.loc)).getD 0)) n
  | .evict f => s.copyFrame d.ten (va 0 d.loc) (va 1 f) n
  | .promote f _ => s.copyFrame d.ten (va 1 d.loc) (va 0 f) n
  | .pull f _ _ _ got => pullData d.ten (va 0 f) got s
  | .send _ _ _ _ => .ok s

/-- The descriptor change at the end of a move. -/
def moveDesc (s : State) (die : Nat) (m : Move) : State :=
  match m.kind with
  | .cow new => (s.updDesc die new fun d => { d with moving := false }).holdPage die m.page false
  | .evict f => s.updDesc die m.page fun d => { d with tier := 1, loc := f, auxl := 0, moving := false }
  | .promote f _ =>
    s.updDesc die m.page fun d => { d with tier := 0, loc := f, auxl := d.loc + 1, dirty := false, moving := false }
  | .pull f _ _ _ _ =>
    let s := match s.desc die m.page with
      | none => s
      | some d =>
        let r : Release := { node := BitVec.ofNat 12 d.loc, ddie := BitVec.ofNat 2 (d.loc / 4096)
                             page := d.auxl % 2 ^ 30, ten := d.ten, slack := (m.req.map CaddyOp.slack).getD 0xFFF
                             late := (m.req.map CaddyOp.late).getD false }
        s.updCaddy die fun x => { x with rels := x.rels ++ [r] }
    s.updDesc die m.page fun d => { d with tier := 0, loc := f, auxl := 0, moving := false }
  | .send _ _ _ _ => s.updDesc die m.page fun d => { d with moving := false }

/-- Replaces or removes the n-th move. -/
def State.setMove (s : State) (die n : Nat) (m : Option Move) : State :=
  s.updCaddy die fun x => { x with
    moves := match m with
      | some m => x.moves.set n m
      | none => x.moves.eraseIdx n }

/-- A stalled move: a record of KIND 2 when a command waits for it (R376). -/
def State.stallMove (s : State) (die n : Nat) (m : Move) (t : Trap) : State :=
  let s := s.setMove die n (some { m with stalled := some t.addr, failed := false })
  match m.req.bind (·.own) with
  | none => s
  | some own => s.engineRecord own 2 0 t false

/-- The record of an addition that is not made (R376). -/
def State.lostMove (s : State) (m : Move) (t : Trap) : State :=
  match m.req.bind (·.own) with
  | none => s
  | some own => s.engineRecord own 6 0 t true

/-- The addition of PAGEB, as it was when the move began, to BAR (R259, R376): the fault that prevents it, or the state
after it. -/
def moveBar (s : State) (m : Move) : Except (Trap × State) State :=
  match m.req with
  | none => .ok s
  | some o =>
    match o.own with
    | none => .ok s
    | some own =>
      match s.wg own.wk with
      | none => .ok s
      | some w =>
        if o.bar = 0 ∨ m.bytes = 0 then .ok s
        else s.engAdd own.wk w o.bar m.bytes ((if o.late then 1 else 0) + (if m.lost then 2 else 0))

/-- The last part of a move: its addition, and it leaves ENGO. -/
def endMove (s : State) (die n : Nat) (m : Move) : State :=
  let leave (s : State) : State :=
    let s := s.setMove die n none
    match m.req.bind (·.own) with
    | none => s.serveCaddy die
    | some own => (s.engoDone own).serveCaddy die
  if m.failed then leave (s.lostMove m (noTranslation (m.stalled.getD 0)))
  else
    match moveBar s m with
    | .ok s => leave s
    | .error (t, s) =>
      if t.replay then s.stallMove die n { m with moved := true, stalled := none } t
      else leave (s.lostMove m t)

/-- After the data: the descriptor change, the result of a pull, and a `cow` that made a promotion goes on. -/
def afterData (s : State) (die n : Nat) (m : Move) : State :=
  let s := moveDesc s die m
  let m := { m with moved := true, stalled := none, failed := false }
  let s := s.setMove die n (some m)
  let go (new : Option Nat) : State :=
    match m.req with
    | none => (s.setMove die n none).serveCaddy die
    | some o => (cowGo (s.setMove die n none) die m.page o new).serveCaddy die
  match m.kind, m.req with
  | .promote _ (some new), _ => go new
  | .pull _ (some new) _ _ _, _ => go new
  | .pull _ none _ _ _, some o => endMove (s.pageResult o o.page 0) die n m
  | _, _ => endMove s die n m

/-- Every part of the data has come (R358): only a pull has to wait. -/
def Move.complete (m : Move) (parts : Nat) : Bool :=
  match m.kind with
  | .pull _ _ _ _ got => parts ≤ got.length
  | .send _ _ _ _ => false
  | _ => true

/-- A page operation that the fabric failed: status 6, the page unchanged (20 R357). A new page that a `cow` had
taken is given back. -/
def failMove (s : State) (die n : Nat) (m : Move) (status : Word) : State :=
  let s := (s.updDesc die m.page fun d => { d with moving := false }).setMove die n none
  let s := match m.kind with
    | .pull _ (some (some new)) _ _ _ => s.updCaddy die fun x => { x with descs := x.descs.del new }
    | _ => s
  match m.req with
  | none => s.serveCaddy die
  | some o => (s.pageDone o o.page status).serveCaddy die

/-- A transfer to a peer whose data cannot be read. -/
def Move.cannotSend (m : Move) : Bool :=
  m.failed && !m.moved &&
    (match m.kind with
     | .send _ _ _ _ => true
     | _ => false)

/-- The n-th move of a die's Caddy completes. -/
def State.moveDone (s : State) (die n : Nat) : State :=
  match (s.caddyOf die).moves[n]? with
  | none => s
  | some m =>
    if m.stalled.isSome && !m.failed then s
    else if m.moved then endMove s die n m
    else if m.cannotSend then failMove s die n m 6
    else
      match s.desc die m.page with
      | none => (s.setMove die n none).serveCaddy die
      | some d =>
        if !m.complete (s.pageParts d.model) then s
        else if m.failed then afterData s die n { m with lost := true }
        else
          match moveData s die m d with
          | .ok s => afterData s die n m
          | .error (t, s) =>
            if t.replay then s.stallMove die n m t
            else afterData (s.lostMove m t) die n { m with lost := true }

/-- CADDY_DATA_MOVE_DONE (R259): the n-th move of a die's Caddy completes: its bytes stand, MOVING clears, PAGEB is
added to BAR and the command leaves ENGO. A translation fault on the way stalls it (R376). A page that it has made free
lets Kettle's models look at their plans (14 R269). -/
def execCaddyDataMoveDone (die n : Nat) (s : State) : Out := .next ((s.moveDone die n).roomSince s die)

/-- Evictions in flight on a die run to their end, but for one that a fault stalls (fuel: the moves; 14 R268). -/
def finishEvictions (die : Nat) : Nat → State → State
  | 0, s => s
  | k + 1, s =>
    match (s.caddyOf die).moves.findIdx? fun m => (match m.kind with
        | .evict _ => m.stalled.isNone
        | _ => false) with
    | none => s
    | some n => finishEvictions die k ((s.moveDone die n).roomSince s die)

/-! ## Answers from the fabric (20 R348, R356 to R358) -/

/-- The move of a page that waits for packets with a tag. -/
def CaddyDie.moveOf (x : CaddyDie) (page tag : Nat) : Option (Nat × Move) :=
  let hit (m : Move) : Bool := m.page == page && !m.moved &&
    (match m.kind with
     | .pull _ _ _ asked _ => asked.any fun e => e.1 == tag
     | .send _ _ t _ => t == some tag
     | _ => false)
  (x.moves.findIdx? hit).bind fun n => (x.moves[n]?).map fun m => (n, m)

/-- An answer to a packet of a page operation: bytes for a pull. -/
def State.pageBytesIn (s : State) (die page tag : Nat) (bs : List MByte) : State :=
  match (s.caddyOf die).moveOf page tag with
  | some (n, m) =>
    (match m.kind with
     | .pull f cow next asked got =>
       let got := match asked.find? fun e => e.1 == tag with
         | some e => got.put e.2 bs
         | none => got
       (s.setMove die n (some { m with kind := .pull f cow next asked got })).serveCaddy die
     | _ => s.serveCaddy die)
  | none => s.serveCaddy die

/-- PGACK (20 R357): the page has arrived at the peer as page `id`, or the peer had no room. -/
def State.pageAck (s : State) (die page tag : Nat) (id : Word) : State :=
  match (s.caddyOf die).moveOf page tag with
  | some (n, m) =>
    (match m.kind, m.req with
     | .send node ddie _ _, some o =>
       if id = 0xFFFFFFFF then (failMove s die n m 1).roomSince s die
       else
         let old := s
         let s := s.updDesc die page fun d => { d with
           tier := 2, loc := ddie.toNat * 4096 + node.toNat, auxl := id.toNat, moving := false }
         (endMove ((s.pageResult o o.page 0).setMove die n (some { m with moved := true })) die n { m with moved := true }).roomSince
           old die
     | _, _ => s.serveCaddy die)
  | none => s.serveCaddy die

/-- ERR on a packet of a page operation. -/
def State.pageErr (s : State) (die page tag : Nat) : State :=
  match (s.caddyOf die).moveOf page tag with
  | some (n, m) => (failMove s die n m 6).roomSince s die
  | none => s.serveCaddy die

/-! ## AUTOMATIC_EVICTION (R258) -/

/-- Free HBM4 frames have fallen below the low watermark: Caddy evicts the oldest pages, at background slack, until
the high watermark is reached. -/
def execAutomaticEviction (die : Nat) (s : State) : Out := .next (((s.autoEvict die).serveCaddy die).roomSince s die)

end Sys2Proof.Machine
end

