-- ==== Sys2Proof/Machine/Sequence.lean ====
section
/-! DEFINITION. Kettle's delivery rings, commits and slots, and the Kettle and sampling words of the control fibre
(14 R265, R266, R273 to R284, R289, R290; 18 R321). -/

namespace Sys2Proof.Machine

/-! ## Plain accesses of a fibre over several sectors -/

/-- The loads of n parts of c bytes from part k on. -/
def loadParts (wk : Nat) (w : Workgroup) (a : DWord) (c : Nat) : Nat → Nat → Fibre → State → List Byte → AccRes
  | 0, _, f, s, acc => .ok f s acc 0 [] false
  | n + 1, k, f, s, acc =>
    match access wk w 0 f s (a + BitVec.ofNat 64 (c * k)) (Acc.load c false) with
    | .ok f s b _ _ _ => loadParts wk w a c n (k + 1) f s (acc ++ b)
    | r => r

/-- A plain load of n parts of c bytes by a U word, at an address aligned to `align` on one of `spaces`. -/
def plainLoad (wk : Nat) (w : Workgroup) (f : Fibre) (s : State) (spaces : List Nat) (align c n : Nat) (a : DWord) : AccRes :=
  match addrFault false spaces align a with
  | some t => .trap f s t
  | none =>
    match placeOf s wk w f.win a (c * n) with
    | .error t => .trap f s t
    | .ok (.fab x va) => fabAccess wk w f s x va 0 a (Acc.load (c * n) false)
    | .ok _ =>
      match loadParts wk w a c n 0 f s [] with
      | .trap _ _ t => .trap f s t
      | r => r

/-- The stores of parts of c bytes from part k on. -/
def storeParts (wk : Nat) (w : Workgroup) (a : DWord) (c : Nat) : Nat → Nat → List Byte → Fibre → State → AccRes
  | 0, _, _, f, s => .ok f s [] 0 [] false
  | n + 1, k, bs, f, s =>
    match access wk w 0 f s (a + BitVec.ofNat 64 (c * k)) (Acc.store (bs.take c) false) with
    | .ok f s _ _ _ _ => storeParts wk w a c n (k + 1) (bs.drop c) f s
    | r => r

/-- A plain store of n parts of c bytes by a U word. -/
def plainStore (wk : Nat) (w : Workgroup) (f : Fibre) (s : State) (spaces : List Nat) (align c n : Nat) (bs : List Byte)
    (a : DWord) : AccRes :=
  match addrFault false spaces align a with
  | some t => .trap f s t
  | none =>
    match placeOf s wk w f.win a (c * n) with
    | .error t => .trap f s t
    | .ok (.fab x va) => fabAccess wk w (f.fixLoads none) s x va 0 a (Acc.store bs false)
    | .ok _ =>
      match storeParts wk w a c n 0 bs f s with
      | .trap _ _ t => .trap f s t
      | r => r

/-! ## Words in memory that Kettle and the launch front end watch (R263, R281, 21 R366) -/

/-- Arms a watch with condition ne against v on the 32-bit word at va; an error, with what the walk has done, when no
entry can be taken. -/
def State.watchWord (s : State) (ten va : Nat) (v : Word) (who : Waiter) : Except State State :=
  let s1 := s.agentWalk ten va 4
  match s.agentPa ten va false with
  | .error _ => .error s1
  | .ok pa =>
    if tierOf pa = .host then .error s1
    else
      match s1.freeReserved (watchGroup pa) with
      | none => .error s1
      | some key =>
        let sh := pa % 8 / 4 * 32
        .ok (s1.arm key (pa - pa % 8) (BitVec.ofNat 64 (0xFFFFFFFF * 2 ^ sh)) (BitVec.ofNat 64 (v.toNat * 2 ^ sh)) 1 who)

/-- The entry of a waiter, if it holds one: its number, and the entry. -/
def State.watchOf (s : State) (who : Waiter) : Option (Nat × Watch) := s.watches.find? fun e => decide (e.2.waiter = who)

/-- Frees the entries of a waiter. -/
def State.unwatch (s : State) (who : Waiter) : State := s.setWatches (s.watches.filter fun e => decide (e.2.waiter ≠ who))

/-- The 32-bit word that a fired entry saw. -/
def Watch.word (x : Watch) : Word := if x.mask.toNat % 2 ^ 32 = 0 then hiWord x.value else loWord x.value

/-! ## Delivery rings (R266) -/

/-- How an attempt to write a ring entry ends. -/
inductive RingOut where
  | written
  | full
  | failed (a : DWord)
  deriving DecidableEq, Repr

/-- Word 1 of entry n of a ring of `len` entries (Table 14-4). -/
def RingEntry.word1 (e : RingEntry) (n len : Nat) : Word :=
  BitVec.ofNat 32 ((1 - n / len % 2) * 2 ^ 31 + e.code % 128 * 2 ^ 24 + e.reason % 256 * 2 ^ 16 + e.gen % 65536)

/-- Writes an entry, then PROD as a release, if the ring has room. -/
def ringTry (s : State) (ten : Nat) (ring : DWord) (len : Nat) (e : RingEntry) : RingOut × State :=
  let r := ring.toNat
  if r / 2 ^ 56 ≠ 0 then (.failed ring, s)
  else
    match s.agentWord ten r with
    | .error (t, s) => (.failed t.addr, s)
    | .ok (prod, s1) =>
      match s1.agentWord ten (r + 0x40) with
      | .error (t, s1) => (.failed t.addr, s1)
      | .ok (cons, s2) =>
        if (prod - cons).toNat = len then (.full, s2)
        else
          let at_ := r + 0x80 + 8 * (prod.toNat % len)
          match s2.agentWrite ten at_ (leBytes 4 e.token.toNat ++ leBytes 4 (e.word1 prod.toNat len).toNat) with
          | .error (t, s2) => (.failed t.addr, s2)
          | .ok s3 =>
            match s3.agentPut ten r (leBytes 4 (prod + 1).toNat) .release with
            | .error (t, s3) => (.failed t.addr, s3)
            | .ok s4 => (.written, s4)

/-! ## Slots (R265, R279, R280; 18 R321) -/

def State.setSlot (s : State) (n : Nat) (k : KSlot) : State := { s with kslots := s.kslots.put n k }

/-- An entry that carries no token. -/
def endEntry (reason code : Nat) : RingEntry := { token := 0xFFFFFFFF, code := code, reason := reason, gen := 0 }

/-- Unreferences the pages that the block table of a slot names (R265). -/
def unrefTable (ten slot : Nat) : List Byte → Nat → State → State
  | _, 0, s => s
  | bs, n + 1, s =>
    let id := wordAt bs 0
    unrefTable ten slot (bs.drop 4) n (if id = 0xFFFFFFFF then s else s.unrefPage ten id 0xFFF false (some slot))

/-- The end of DRAIN: the pages are unreferenced, and the slot is FREE once every one of them is (Table 14-3). -/
def freeSlot (s : State) (n : Nat) (k : KSlot) : State :=
  let s := s.unwatch (.kettleCons n)
  let s := match s.kmodels.find k.model with
    | none => s
    | some m =>
      match s.agentRead k.vf ((m.par.kvt.toNat + 4 * m.par.maxp * n) % 2 ^ 56) (4 * m.par.maxp) with
      | .error (_, s) => s.emit (.tableEvent n)
      | .ok (bs, bad, s) => if bad then s.emit (.tableEvent n) else unrefTable k.vf n bs m.par.maxp s
  (s.setSlot n { k with leaving := true, consRoom := false, consPolled := false }).freeSlots

/-- A slot waits for room in its ring: a watch on CONS, or CONS is polled (R281). -/
def waitRoom (s : State) (n : Nat) (k : KSlot) : State :=
  let s := s.unwatch (.kettleCons n)
  let k := { k with consRoom := false, consPolled := false }
  match s.agentWord k.vf (k.ring.toNat + 0x40) with
  | .error (_, s) => s.setSlot n { k with consPolled := true }
  | .ok (cons, s) =>
    match s.watchWord k.vf (k.ring.toNat + 0x40) cons (.kettleCons n) with
    | .ok s => s.setSlot n k
    | .error s => s.setSlot n { k with consPolled := true }

/-- A slot in DRAIN: its final entry, then its pages (R265, R280); nothing while they are being unreferenced. -/
def drainSlot (s : State) (n : Nat) (k : KSlot) : State :=
  if k.leaving then s else
  match k.held with
  | none => freeSlot s n k
  | some e =>
    if k.mute then freeSlot s n k
    else
      match ringTry s k.vf k.ring k.ringn e with
      | (.written, s) => freeSlot s n k
      | (.full, s) => waitRoom s n k
      | (.failed a, s) => freeSlot (s.emit (.drainEvent n k.tag a)) n k

/-- A slot enters DRAIN; `final` is the final entry that it has not had. -/
def toDrain (s : State) (n : Nat) (k : KSlot) (final : Option RingEntry) : State :=
  drainSlot (s.unwatch (.kettleCons n)) n
    { k with state := .drain, held := final, consRoom := false, consPolled := false, parkedNow := k.parkedNow }

/-- A parked slot whose ring may have room: the held entry (R279). -/
def unpark (s : State) (n : Nat) (k : KSlot) : State :=
  match k.held with
  | none => s
  | some e =>
    match ringTry s k.vf k.ring k.ringn e with
    | (.full, s) => waitRoom s n k
    | (.failed a, s) => toDrain (s.emit (.drainEvent n k.tag a)) n { k with mute := true } none
    | (.written, s) =>
      let s := s.unwatch (.kettleCons n)
      if e.reason ≠ 0 then toDrain s n k none
      else s.setSlot n { k with state := .decode, held := none, consRoom := false, consPolled := false }

/-! ## The repetition detector (R289, R290) -/

/-- One byte of the hash. -/
def fnvByte (h : Word) (b : Byte) : Word := (h ^^^ zext32 b) * 0x01000193

/-- The hash of a window. -/
def fnvWindow (ts : List Word) : Word := (ts.flatMap fun t => leBytes 4 t.toNat).foldl fnvByte 0x811C9DC5

/-- Takes up a token; the flag says that the run has reached N. -/
def Detector.push (d : Detector) (width n : Nat) (t : Word) : Detector × Bool :=
  if d.skip ≠ 0 then ({ d with skip := d.skip - 1 }, false)
  else
    let win := d.window ++ [t]
    if win.length < width then ({ d with window := win }, false)
    else
      let h := fnvWindow win
      let r := if d.hist.contains h then d.run + 1 else 0
      ({ window := [], skip := 0, hist := (h :: d.hist).take 16, run := if r = n then 0 else r, last := h }, r == n)

/-! ## Commits (R275, R276) -/

/-- The plan entry of a slot in its model's iteration. -/
def KModel.entryOf (m : KModel) (slot : Nat) : Option PlanEntry := m.plan.flatten.find? fun e => e.slot == slot

/-- How a commit ends: status, reason, the state, and the address of a failed delivery. -/
structure Commit where
  status : Nat
  reason : Nat
  s : State
  fault : Option DWord

/-- The stop checks of R276 on a slot that has taken up a token: the reason, and whether the detector's event is due. -/
def stopReason (k : KSlot) (t : Word) (hit : Bool) : Nat × Bool :=
  (if k.stops.contains t then 1 else if k.g = k.maxt then 2 else if hit && !k.repact then 3 else 0, hit && k.repact)

/-- A token that is committed: the slot takes it up, the stop checks run, the entry is written or the slot parks. A reason
that the commit gives stands before an earlier `seqstop` (R291). -/
def commitGo (s : State) (n : Nat) (k : KSlot) (t : Word) : Commit :=
  let dh := if k.rep then k.det.push k.repW k.repN t else (k.det, false)
  let k1 : KSlot := { k with g := k.g + 1, lastTok := t, commitTick := s.tick, committed := k.committed + 1, det := dh.1 }
  let why := stopReason k1 t dh.2
  let s := if why.2 then s.emit (.repeatEvent n) else s
  let e : RingEntry := { token := t, code := 0, reason := why.1, gen := k.g }
  match ringTry s k.vf k.ring k.ringn e with
  | (.written, s) =>
    { status := 0, reason := why.1, fault := none
      s := if why.1 ≠ 0 then toDrain s n k1 none else s.setSlot n { k1 with state := .decode } }
  | (.full, s) =>
    { status := 1, reason := why.1, fault := none
      s := waitRoom s n { k1 with state := .deliveryWait, held := some e, parkedNow := true, parkedFor := 0, parkEvent := false
                                  soft := if why.1 = 0 then k1.soft else none } }
  | (.failed a, s) => { status := 4, reason := 5, s := toDrain s n { k1 with mute := true } none, fault := some a }

/-- `tokdlv` on a slot. -/
def commit (s : State) (m : KModel) (n : Nat) (t : Word) : Commit :=
  let stale : Commit := { status := 2, reason := 0, s := s, fault := none }
  match s.kslots.find n, m.entryOf n with
  | some k, some e =>
    if e.kind = 1 ∨ (k.state ≠ .prefill ∧ k.state ≠ .decode ∧ ¬(k.state = .deliveryWait ∧ k.parkedNow = true)) ∨
        1 + e.ndraft ≤ k.committed then stale
    else if k.parkedNow then { stale with status := 3 }
    else commitGo s n k t
  | _, _ => stale

/-! ## The words -/

/-- The slot and model that a word of R273 names: the model of the fibre's Kettle launch. -/
def kettleOf (s : State) (w : Workgroup) : Option (Nat × KModel × DWord) :=
  match s.launch w.launch with
  | none => none
  | some l =>
    match l.kettle with
    | none => none
    | some (m, ib, _) => (s.kmodels.find m).map fun x => (m, x, ib)

/-- The check of R273 on a slot number. -/
def slotBad (s : State) (model n : Nat) : Bool :=
  16384 ≤ n || ((s.kslots.find n).map fun k => k.model != model).getD false

/-- ENGINE_PARAM, SUB 0x10. -/
def kettleFault : Trap := trapOf .engineParam 0x10 0

/-- A Kettle word on slot ReadS(X) that needs no memory. -/
def slotWord (u : Use) (x : BitVec 6) (go : KModel → Nat → Fibre → State → Fibre × State) (s : State) : Out :=
  word u noPre (fun _ w _ f s =>
    if s.tokenStall w then .wait f s .token
    else
      match kettleOf s w with
      | none => .trap f s kettleFault 0
      | some (model, m, _) =>
        let n := (f.getS x.toNat).toNat
        if slotBad s model n then .trap f s kettleFault 0
        else
          let r := go m n f s
          .done r.1 r.2) s

/-- `tokdlv` (R275); a failed delivery is DELIVERY, taken imprecisely (18 R321). -/
def execTokdlv (o : SGX) (s : State) : Out :=
  slotWord (uUse o.s o.g [.s2 o.x.toNat] [.s2 o.x.toNat]) o.x (fun m n f s =>
    let c := commit s m n (f.getS (o.x.toNat + 1))
    let g := f.putS64 o.x.toNat (pair (BitVec.ofNat 32 c.status) (BitVec.ofNat 32 c.reason))
    (match c.fault with
     | none => g
     | some a => { g with imprecise := g.imprecise ++ [{ code := .delivery, pc := f.pc, addr := a }] }, c.s)) s

/-- `seqstop` (R277). -/
def execSeqstop (o : SGXK) (s : State) : Out :=
  slotWord (uUse o.s o.g [.s o.x.toNat] [.s2 o.x.toNat]) o.x (fun _ n f s =>
    match s.kslots.find n with
    | some k =>
      if k.state = .prefill ∨ k.state = .decode ∨ k.state = .deliveryWait then
        (f.putS o.x.toNat 0, s.setSlot n { k with soft := some o.k.toNat })
      else (f.putS o.x.toNat 2, s)
    | none => (f.putS o.x.toNat 2, s)) s

/-- `rep` and `rep.clr` (R278). -/
def execRepW (o : SGXC) (s : State) : Out :=
  slotWord (uUse o.s o.g [.s o.x.toNat] [.s2 o.x.toNat]) o.x (fun _ n f s =>
    match s.kslots.find n with
    | none => (f.putS64 o.x.toNat 0, s)
    | some k =>
      let d := if on o.c then { k.det with window := [], hist := [], run := 0, last := 0
                                           skip := if k.repW = 0 then 0 else (k.repW - k.g % k.repW) % k.repW }
        else k.det
      (f.putS64 o.x.toNat (pair (BitVec.ofNat 32 d.run) d.last), s.setSlot n { k with det := d })) s

/-- A plan entry as Table 14-5 lays it out. -/
def PlanEntry.bytes (e : PlanEntry) : List Byte :=
  leBytes 4 (e.ndraft % 64 * 2 ^ 18 + e.kind % 4 * 2 ^ 16 + e.slot % 16384) ++ leBytes 4 e.pos ++ leBytes 4 e.ntok ++
    leBytes 4 e.tokin

/-- The 256 bytes of a group's entries. -/
def groupBytes (g : List PlanEntry) : List Byte :=
  let b := (g.take 16).flatMap PlanEntry.bytes
  b ++ List.replicate (256 - b.length) 0

/-- The 272 bytes that `seqnext` writes for group g (R274). -/
def planBuffer (m : KModel) (g : Word) : Nat × List Byte :=
  match m.plan[g.toNat]? with
  | some p =>
    (p.length, leBytes 4 m.iter.toNat ++ leBytes 4 p.length ++ leBytes 4 g.toNat ++ leBytes 4 ((m.slk[g.toNat]?).getD 0xFFF) ++
      groupBytes p)
  | none => (0, leBytes 4 m.iter.toNat ++ leBytes 4 0 ++ leBytes 4 g.toNat ++ leBytes 4 0xFFF ++ List.replicate 256 0)

/-- `seqnext` (R274). -/
def execSeqnext (o : SGPX) (s : State) : Out :=
  word (uUse o.s o.g [.s2 o.p.toNat, .s o.x.toNat] [.s2 o.x.toNat]) noPre (fun wk w _ f s =>
    let a := f.getS64 o.p.toNat
    if s.tokenStall w then .wait f s .token
    else
      match kettleOf s w with
      | none => .trap f s kettleFault 0
      | some (_, m, _) =>
        let p := planBuffer m (f.getS o.x.toNat)
        match plainStore wk w f s [0x0, 0x8] 16 16 17 p.2 a with
        | .trap f s t => .trap f s t 0
        | .wait f s => .wait f s .held
        | .ok g s _ _ tags late =>
          .done ((g.putS64 o.x.toNat (pair (BitVec.ofNat 32 p.1) m.iter)).count s false true [(a, late)] tags true) s) s

/-- `rng` (R283). -/
def execRng (o : SGPXH) (s : State) : Out :=
  word (uUse o.s o.g [.s2 o.p.toNat, .s o.x.toNat] [.s2 o.x.toNat]) noPre (fun wk w _ f s =>
    let a := f.getS64 o.p.toNat
    if s.tokenStall w then .wait f s .token
    else
      match plainLoad wk w f s [0x0, 0x8, 0x9] 16 16 1 a with
      | .trap f s t => .trap f s t 0
      | .wait f s => .wait f s .held
      | .ok g s b _ tags late =>
        let r := philox (dwordAt b 0) (wordAt b 8) (wordAt b 12) (f.getS o.x.toNat)
        let y := if on o.h then pair r.w2 r.w3 else pair r.w0 r.w1
        .done ((g.putS64 o.x.toNat y).count s true false [(a, late)] tags true) s) s

/-! ## `samp` (R284) -/

/-- a ≥ b of FP32 values. -/
def fge (a b : Word) : Bool := fgt a b || feq a b

/-- The running sums c[r] of the candidates' weights. -/
def runningSums (mx : Word) : List Cand → Option Word → List Word
  | [], _ => []
  | x :: xs, acc =>
    let wt := expW (fsub .rne x.1 mx).1
    let c := match acc with
      | none => wt
      | some a => (fadd .rne a wt).1
    c :: runningSums mx xs (some c)

/-- RoundFP32(U(w) × c). -/
def uTimes (w c : Word) : Word := (toWord (mulV fp32 .rne (.fin false (2 * (w.toNat / 256) + 1) (-25)) (val32 c))).1

/-- The candidate drawn among the first m. -/
def drawCand (w : Word) (cs : List Cand) (sums : List Word) (m : Nat) : Word :=
  let t := uTimes w (sums.getD (m - 1) 0)
  let r := ((sums.take m).findIdx? fun c => fgt c t).getD (m - 1)
  (cs.getD r (0, 0)).2

/-- The result pair of a slot's sampling from a record. -/
def sampleOf (k : KSlot) (d : DrainRec) (q : Word) : Word × Word :=
  let fail : Word × Word := (0xFFFFFFFF, 1)
  let w := (philox k.seed k.seqid q 0).w1
  let n := d.cands.length
  if k.mode = 1 then (if d.gidx = 0xFFFFFFFF then fail else (d.gidx, 0))
  else if n = 0 then fail
  else if k.mode = 0 then ((d.cands.getD 0 (0, 0)).2, 0)
  else
    let sums := runningSums d.max d.cands none
    let m := if k.mode = 2 then min k.topk n
      else ((sums.findIdx? fun c => fge c (fmul .rne k.topp d.sum).1).map (· + 1)).getD n
    (drawCand w d.cands sums m, 0)

/-- `samp` (R284). -/
def execSamp (o : SGPX) (s : State) : Out :=
  word (uUse o.s o.g [.s2 o.p.toNat, .s2 o.x.toNat] [.s2 o.x.toNat]) noPre (fun wk w _ f s =>
    let a := f.getS64 o.p.toNat
    if s.tokenStall w then .wait f s .token
    else
      match plainLoad wk w f s [0x0, 0x8, 0x9, 0xA, 0xB] 32 32 17 a with
      | .trap f s t => .trap f s t 0
      | .wait f s => .wait f s .held
      | .ok g s b _ tags late =>
        let n := (f.getS o.x.toNat).toNat
        let q := f.getS (o.x.toNat + 1)
        let live (k : KSlot) : Bool := k.state == .prefill || k.state == .decode
        let r := match s.kslots.find n with
          | some k => if live k then sampleOf k (DrainRec.read b) q else (0xFFFFFFFF, 2)
          | none => (0xFFFFFFFF, 2)
        .done ((g.putS64 o.x.toNat (pair r.1 r.2)).count s true false [(a, late)] tags true) s) s

end Sys2Proof.Machine
end

