-- ==== Sys2Proof/Machine/Launch.lean ====
section
/-! DEFINITION. Job cards, kernel headers and acceptance, launch identifiers, predecessors, the end of a launch, and
`post` (01 R31, R32; 09 R194; 17 R298 to R307; 14 R265, R272). -/

namespace Sys2Proof.Machine

/-! ## The kernel header (01 R31, R32) -/

/-- The header that 64 bytes hold. -/
def headerAt (a : DWord) (b : List Byte) : Header :=
  let fl := bitsN (wordAt b 4).toNat 16 16
  let w8 := (wordAt b 8).toNat
  let wC := (wordAt b 0xC).toNat
  { addr := a, det := bitN fl 0, accm := bitN fl 1, sbchk := bitN fl 2, traph := bitN fl 3, win := bitsN w8 0 8
    rot := bitsN w8 8 8, ddepth := bitsN w8 16 8, fibres := bitsN w8 24 8, hitch := bitsN wC 0 8
    accslots := bitsN wC 8 8, nbar := BitVec.ofNat 16 (bitsN wC 16 16), scratch := (wordAt b 0x10).toNat
    stash := (wordAt b 0x14).toNat, trapoff := (wordAt b 0x18).toNat, qstart := wordAt b 0x1C
    knots := BitVec.ofNat 4 (wordAt b 0x20).toNat }

/-- A port that QSTART binds to a slot whose KNOTS bit is clear. -/
def badPort (h : Header) : Bool :=
  (List.range 8).any fun n => bit h.qstart (4 * n + 3) && !bit h.knots (bitsN h.qstart.toNat (4 * n) 2)

/-- The checks of R32 on a header alone. Whether a DATAOFF and a DATALEN that disagree with
"0 when there is none" are outside their limits the spec does not say: the model accepts any values (DESIGN CHOICE, log
72). -/
def headerBad (b : List Byte) (h : Header) : Bool :=
  wordAt b 0 != 0x4B4E5446 || bitsN (wordAt b 4).toNat 0 16 != 1 || bitsN (wordAt b 4).toNat 20 12 != 0 ||
    (wordAt b 0x20).toNat / 16 != 0 || (dwordAt b 0x30 != 0) || (dwordAt b 0x38 != 0) ||
    h.win % 8 != 0 || h.win < 8 || 64 < h.win || !([0, 8, 16, 32].contains h.rot) || h.win < h.rot || 32 < h.ddepth ||
    h.fibres < 1 || 32 < h.fibres || h.hitch < 1 || 8 < h.hitch || 8 < h.accslots || h.scratch % 128 != 0 ||
    h.stash % 128 != 0 || h.trapoff % 4 != 0 || (!h.traph && h.trapoff != 0) || (wordAt b 0x24).toNat % 4 != 0 ||
    badPort h || 1572864 < h.fibres * (h.win + stackRows h.ddepth) * 64 + h.scratch + h.stash

/-! ## The job card (R298) -/

/-- A job card. -/
structure Card where
  kernel : DWord
  args : DWord
  gridx : Nat
  gridy : Nat
  shape : Nat
  flags : Nat
  scratch : Nat
  stash : Nat
  kbase : DWord
  kstr : Nat
  plc : Nat
  slk : Nat
  tslice : Nat
  preds : List Word
  sig : DWord
  sigval : DWord
  fq : DWord
  knott : DWord
  ksmap : DWord
  ten : Nat
  last : Word
  deriving DecidableEq, Repr

/-- The card that 128 bytes hold. -/
def cardAt (b : List Byte) : Card :=
  { kernel := dwordAt b 0, args := dwordAt b 8, gridx := (wordAt b 0x10).toNat, gridy := (wordAt b 0x14).toNat
    shape := (wordAt b 0x18).toNat, flags := (wordAt b 0x1C).toNat, scratch := (wordAt b 0x20).toNat
    stash := (wordAt b 0x24).toNat, kbase := dwordAt b 0x28, kstr := (wordAt b 0x30).toNat, plc := (wordAt b 0x34).toNat
    slk := (wordAt b 0x38).toNat, tslice := (wordAt b 0x3C).toNat
    preds := [wordAt b 0x40, wordAt b 0x44, wordAt b 0x48, wordAt b 0x4C], sig := dwordAt b 0x50
    sigval := dwordAt b 0x58, fq := dwordAt b 0x60, knott := dwordAt b 0x68, ksmap := dwordAt b 0x70
    ten := (wordAt b 0x78).toNat, last := wordAt b 0x7C }

/-- An address field on selector 0x0, or 0, aligned to n. -/
def fieldBad (a : DWord) (n : Nat) : Bool := a.toNat % n != 0 || a.toNat / 2 ^ 56 != 0

/-- Reserved bits and limits of R298 and R299, the grid being the one that the launch has. -/
def cardBad (c : Card) (gx gy : Nat) : Bool :=
  let hitch := bitsN c.shape 8 4
  bitsN c.shape 20 12 != 0 || bitsN c.shape 12 4 != 0 || bitsN c.shape 6 2 != 0 || c.flags / 4 != 0 ||
    c.plc / 1024 != 0 || bitsN c.plc 2 2 != 0 || bitsN c.plc 0 2 == 3 || c.slk / 4096 != 0 || c.ten / 16 != 0 ||
    c.last != 0 || fieldBad c.kernel 64 || 16777216 < gx || gy < 1 || 16777216 < gy || 16777216 < gx * gy ||
    (hitch != 0 && gx * gy % hitch != 0) || 10000000 < c.tslice || fieldBad c.sig 16 || fieldBad c.fq 64 ||
    fieldBad c.knott 4 || fieldBad c.ksmap 4

/-! ## Knots of a launch (R300) -/

/-- The entries that the used slots of a word of KSMAP name. -/
def namedKnots (used : BitVec 4) (x : Word) : List Nat :=
  ((List.range 4).filter fun j => bit used j).map fun j => bitsN x.toNat (8 * j) 8

/-- No entry stands twice. -/
def distinct : List Nat → Bool
  | [] => true
  | x :: xs => !xs.contains x && distinct xs

/-- The words of KSMAP. -/
def wordsOf (b : List Byte) (n : Nat) : List Word := (List.range n).map fun k => wordAt b (4 * k)

/-- The sets of the knot table, workgroups in ascending index; a capacity of 0 gives no queue. -/
def knotTable (used : BitVec 4) (caps : Tbl Nat) : Nat → List Word → Tbl Knot
  | _, [] => []
  | w, x :: xs =>
    (namedKnots used x).foldl (fun t k =>
      let cap := caps.getD k 0
      let old : Knot := t.getD k { members := [], phase := false, arrived := [], failed := false,
                                   queue := if cap = 0 then none
                                     else some { cap := cap, elems := [], pushed := 0, reserved := 0, outBinds := 0, hadOut := false } }
      t.put k { old with members := w :: old.members }) (knotTable used caps (w + 1) xs)

/-- The capacity words of the entries named; an error has what the accesses have done. -/
def readCaps (s : State) (ten : Nat) (knott : DWord) : List Nat → Tbl Nat → Except State (Tbl Nat × State)
  | [], t => .ok (t, s)
  | k :: ks, t =>
    match s.agentWord ten (knott.toNat + 4 * k) with
    | .error (_, s) => .error s
    | .ok (x, s) => readCaps s ten knott ks (t.put k x.toNat)

/-! ## Acceptance (R302, R303) -/

/-- A launch as it reaches acceptance: overrides of the grid (0 keeps the card's; `gx` some n sets the first
dimension), the cluster of a posted launch, and what Kettle sets (14 R272). -/
structure Ask where
  qid : Nat
  tenant : Nat
  card : DWord
  gridx : Nat
  gridy : Nat
  gx : Option Nat
  posted : Option Nat
  kettle : Option (Nat × DWord × Bool)
  slack : Option (BitVec 12)
  preds : Option (List Word)

/-- What the front end has read for a launch. -/
structure Read where
  card : Card
  hdrBytes : List Byte
  hdr : Header
  gx : Nat
  gy : Nat
  map : List Word
  caps : Tbl Nat

/-- Bytes of the tenant's memory that read without fault and without poison; otherwise what the accesses have done. -/
def State.cleanRead (s : State) (ten : Nat) (a : DWord) (n : Nat) : Except State (List Byte × State) :=
  if a.toNat / 2 ^ 56 ≠ 0 then .error s
  else
    match s.agentRead ten a.toNat n with
    | .error (_, s) => .error s
    | .ok (b, bad, s) => if bad then .error s else .ok (b, s)

/-- Check 1: the card, the header and both arrays. The card is answered even when something else cannot be read. -/
def readLaunch (s : State) (q : Ask) : Option Card × Option Read × State :=
  if q.card.toNat % 128 ≠ 0 then (none, none, s)
  else
    match s.cleanRead q.tenant q.card 128 with
    | .error s => (none, none, s)
    | .ok (b, s) =>
      let c := cardAt b
      match s.cleanRead q.tenant c.kernel 64 with
      | .error s => (some c, none, s)
      | .ok (hb, s) =>
        let h := headerAt c.kernel hb
        let gx := q.gx.getD (if q.gridx = 0 then c.gridx else q.gridx)
        let gy := if q.gridy = 0 then c.gridy else q.gridy
        let wantMap := h.knots ≠ 0 ∧ c.ksmap ≠ 0 ∧ gx * gy ≤ 16777216
        let map := if wantMap then s.cleanRead q.tenant c.ksmap (4 * (gx * gy)) else .ok ([], s)
        match map with
        | .error s => (some c, none, s)
        | .ok (mb, s) =>
          let map := if wantMap then wordsOf mb (gx * gy) else []
          let named := (map.flatMap (namedKnots h.knots)).dedup
          let caps := if c.knott = 0 ∨ c.knott.toNat / 2 ^ 56 ≠ 0 then
              (if c.knott = 0 then .ok ([], s) else .error s)
            else readCaps s q.tenant c.knott named []
          match caps with
          | .error s => (some c, none, s)
          | .ok (caps, s) => (some c, some { card := c, hdrBytes := hb, hdr := h, gx := gx, gy := gy, map := map, caps := caps }, s)

/-- Checks 2 to 5 (Table 17-2): the status of the first that fails. -/
def acceptStatus (s : State) (q : Ask) (r : Read) : Nat :=
  let c := r.card
  let h := r.hdr
  let cb := (s.tenant q.tenant).cbud
  if c.ten % 16 ≠ q.tenant then 2
  else if cardBad c r.gx r.gy || (h.knots != 0 && c.ksmap == 0) ||
      (r.map.any fun x => !distinct (namedKnots h.knots x)) || (r.caps.vals.any fun x => 1024 < x) then 3
  else if headerBad r.hdrBytes h || bitN c.flags 0 != h.det || bitN c.flags 1 != h.accm || bitsN c.shape 0 6 != h.fibres ||
      bitsN c.shape 8 4 != h.hitch || bitsN c.shape 16 4 != h.accslots || c.scratch != h.scratch || c.stash != h.stash then 4
  else if cb ≠ 0 ∧ cb < h.hitch then 5
  else 0

/-- Writes a completion signal (R304): STATUS, then VALUE. -/
def State.writeSignal (s : State) (ten : Nat) (sig val : DWord) (status : Nat) : State :=
  if sig = 0 || fieldBad sig 16 then s
  else
    match s.agentWrite ten (sig.toNat + 8) (leBytes 8 status) with
    | .error (_, s) => s
    | .ok s => s.agentPutOr ten sig.toNat (leBytes 8 val.toNat) .release

/-- Enters a launch in the record of the last 4,096 that ended (R305). -/
def State.recordEnd (s : State) (id status : Nat) (trig : Bool) : State :=
  let r : List Ended := s.ended ++ [{ id := id, status := status, trig := trig }]
  { s with ended := r.drop (r.length - 4096) }

/-- The launch that an accepted card makes. -/
def newLaunch (q : Ask) (r : Read) : Launch :=
  let c := r.card
  { qid := q.qid, tenant := q.tenant, hdr := r.hdr, args := c.args, gridx := r.gx, gridy := r.gy
    slack := q.slack.getD (BitVec.ofNat 12 c.slk), tslice := c.tslice, pmode := bitsN c.plc 0 2, pdie := bitsN c.plc 8 2
    ksh := bitsN c.plc 4 4, kbase := c.kbase, kstr := c.kstr, preds := q.preds.getD c.preds, sig := c.sig
    sigval := c.sigval, fq := c.fq, posted := q.posted, kettle := q.kettle, state := .accepted, serial := 0
    ksmap := r.map, knots := knotTable r.hdr.knots r.caps 0 r.map, trigd := [], trigAt := 0, faultAt := [], exited := []
    fatal := false, cancel := none, lost := false, wide := none, token := { holder := none, next := 0, p := 0 }, slices := [] }

/-- A queue takes a launch: it gets the next identifier, and is refused, ends at once when its grid is empty, or is
accepted and waits for dispatch. -/
def State.accept (s : State) (q : Ask) : Nat × State :=
  let n := s.qcount.getD q.qid 0
  let id := q.qid * 16777216 + n % 16777216
  let s := { s with qcount := s.qcount.put q.qid (n + 1) }
  match readLaunch s q with
  | (c, none, s) =>
    let s := match c with
      | none => s
      | some c => s.writeSignal q.tenant c.sig c.sigval 1
    (id, s.recordEnd id 1 false)
  | (_, some r, s) =>
    let st := acceptStatus s q r
    if st ≠ 0 then (id, (s.writeSignal q.tenant r.card.sig r.card.sigval st).recordEnd id st false)
    else if r.gx * r.gy = 0 then (id, (s.writeSignal q.tenant r.card.sig r.card.sigval 0).recordEnd id 0 true)
    else
      (id, { s with launches := s.launches.put id (newLaunch q r)
                    pending := s.pending.put q.qid (s.pending.getD q.qid [] ++ [id]) })

/-! ## Triggers and predecessors (R305, R306) -/

/-- Every workgroup has executed `trig` or has exited, and no workgroup has taken a fatal fault in the cycle in which the
last trigger would complete: that fault comes first (17 R307). -/
def Launch.triggered (l : Launch) : Bool :=
  ((List.range l.total).all fun w => l.trigd.contains w) && !l.faultAt.contains l.trigAt

/-- What a predecessor identifier says. -/
inductive Pred where
  | satisfied
  | waits
  | fails
  deriving DecidableEq, Repr

/-- The rules of R305, in order. A trigger takes effect after its cycle, in which a fatal fault may still come first
(R307). -/
def State.predOf (s : State) (p : Word) : Pred :=
  if p = 0xFFFFFFFF then .satisfied
  else
    let q := p.toNat / 16777216
    let d := (s.qcount.getD q 0 + 16777216 - p.toNat % 16777216) % 16777216
    if d < 1 ∨ 8388608 < d then .waits
    else
      match s.launch p.toNat with
      | some l => if l.triggered && l.trigAt < s.cycles then .satisfied else .waits
      | none =>
        match s.ended.reverse.find? fun e => e.id == p.toNat with
        | some e => if e.trig || e.status == 0 then .satisfied else .fails
        | none => .satisfied

/-- A launch that waits for dispatch must be cancelled. -/
def State.predFails (s : State) (id : Nat) : Bool :=
  match s.launch id with
  | none => false
  | some l => l.preds.any fun p => s.predOf p == .fails

/-! ## The end of a launch (R304), and what it means for Kettle (14 R265, R269) -/

/-- Every planned sequence that is in PREFILL or DECODE goes to DRAIN with reason ERROR (14 Table 14-3). -/
def failPlan (model : Nat) (slots : List Nat) (s : State) : State :=
  slots.foldl (fun s n =>
    match s.kslots.find n with
    | none => s
    | some k =>
      if k.model = model ∧ (k.state = .prefill ∨ k.state = .decode) then toDrain s n k (some (endEntry 5 0)) else s) s

def KModel.slots (m : KModel) : List Nat := m.plan.flatten.map (·.slot)

/-- The tokens of the chunks of an iteration that has ended count as processed. -/
def advanceChunks (model : Nat) (es : List PlanEntry) (s : State) : State :=
  es.foldl (fun s e =>
    if e.kind = 1 ∨ e.kind = 2 then
      match s.kslots.find e.slot with
      | none => s
      | some k => if k.model ≠ model ∨ k.state = .waiting then s else s.setSlot e.slot { k with done := k.done + e.ntok }
    else s) s

/-- The end of an iteration: its plan is gone and the next boundary may come. -/
def endIteration (s : State) (model : Nat) (m : KModel) : State :=
  let s := advanceChunks model m.plan.flatten s
  { s with kmodels := s.kmodels.upd model fun m => { m with busy := false, plan := [], slk := [], running := [], wake := true } }

/-- A launch of an iteration has ended. Where it has faulted fatally, the planned sequences go to DRAIN now and not at the
fault: Table 14-3 names the fault and no time (DESIGN CHOICE, log 103). -/
def kettleEnded (s : State) (model id status : Nat) : State :=
  match s.kmodels.find model with
  | none => s
  | some m =>
    if m.running.contains id then
      let s := if status ≠ 0 then failPlan model m.slots s else s
      let rest := m.running.filter (· != id)
      let s := { s with kmodels := s.kmodels.upd model fun m => { m with running := rest } }
      if rest.isEmpty then
        match s.kmodels.find model with
        | some m => endIteration s model m
        | none => s
      else s
    else s

/-- Removes a launch that has ended, with its status: the record, the signal, Kettle. -/
def State.closeLaunch (s : State) (id status : Nat) : State :=
  match s.launch id with
  | none => s
  | some l =>
    let s := { s with launches := s.launches.del id
                      cores := s.cores.each fun _ x => { x with det := x.det.del id }
                      pending := s.pending.put l.qid ((s.pending.getD l.qid []).filter (· != id)) }
    let s := (s.recordEnd id status l.triggered).writeSignal l.tenant l.sig l.sigval status
    match l.kettle with
    | some (m, _, _) => kettleEnded s m id status
    | none => s

/-- Cancels with PREDFAIL the launches not yet dispatched of which a predecessor has failed (R306; fuel: launches). -/
def cancelDependants : Nat → State → State
  | 0, s => s
  | n + 1, s =>
    match (s.launches.keys.filter fun id => ((s.launch id).map (·.state)) == some LState.accepted).find? s.predFails with
    | none => s
    | some id => cancelDependants n (s.closeLaunch id 6)

/-- A launch ends (R304), and its dependants with it if it failed. -/
def State.endLaunch (s : State) (id status : Nat) : State :=
  let n := s.launches.length
  cancelDependants n (s.closeLaunch id status)

/-- A fabric store of a launch has not been performed yet. -/
def Fabric.owes (fb : Fabric) (id : Nat) : Bool := fb.reqs.any fun q =>
  match q.owner with
  | .store _ _ _ _ _ _ l => l == id
  | _ => false

/-- Ends a launch once every workgroup has exited or been torn down and every store of theirs has been performed, fabric
stores included (R304; 18 R325; 20 R349). -/
def State.settleLaunch (s : State) (id : Nat) : State :=
  match s.launch id with
  | none => s
  | some l =>
    if l.total ≤ l.exited.length ∧ s.fabric.owes id = false then
      s.endLaunch id (match l.cancel with
        | some st => st
        | none => if l.lost then 8 else if l.fatal then 7 else 0)
    else s

/-! ## Host launch queues (R301) -/

/-- The next queue in turn among rings keyed 4 × VF + q: the tenants ascend from the pointer, a turn takes at most
one entry from each queue. Answers the key and the position after it. -/
def nextInRings (ring : Nat → Bool) (ptr from_ : Nat) : Option (Nat × Nat) :=
  ((List.range 64).filter fun i => from_ ≤ i).findSome? fun i =>
    let key := 4 * ((ptr + i / 4) % 16) + i % 4
    if ring key then some (key, i + 1) else none

/-- The queue from which an entry is taken next, with the pointer and the position afterwards: a turn ends when no
later queue has an entry. -/
def takeTurn (ring : Nat → Bool) (ptr turn : Nat) : Option (Nat × Nat × Nat) :=
  match nextInRings ring ptr turn with
  | some (k, i) => some (k, ptr, i)
  | none =>
    match nextInRings ring ((ptr + 1) % 16) 0 with
    | some (k, i) => some (k, (ptr + 1) % 16, i)
    | none => none

/-- A ring whose TAIL watch has fired takes the value seen and arms again (14 R263). -/
def refreshRing (s : State) (r : Ring) (who : Waiter) : Ring × State :=
  match s.watchOf who with
  | none => (r, s)
  | some (_, x) =>
    if x.fired then
      let v := x.word
      let s := s.unwatch who
      match s.watchWord r.tenant r.tail.toNat v who with
      | .ok s => ({ r with seen := v, polled := false }, s)
      | .error s => ({ r with seen := v, polled := true }, s)
    else (r, s)

/-- A polled ring reads TAIL, and tries again to take an entry (14 R281). -/
def pollRing (s : State) (r : Ring) (who : Waiter) : Ring × State :=
  if !r.polled then (r, s)
  else
    match s.agentWord r.tenant r.tail.toNat with
    | .error (_, s) => (r, s)
    | .ok (v, s) =>
      match s.watchWord r.tenant r.tail.toNat v who with
      | .ok s => ({ r with seen := v, polled := false }, s)
      | .error s => ({ r with seen := v }, s)

/-- The ring has entries that have not been taken. -/
def Ring.hasMore (r : Ring) : Bool := r.seen != r.taken

/-- Takes up what the watches of all host launch queues have seen. -/
def State.refreshHost (s : State) : State :=
  s.hostQueues.keys.foldl (fun s q =>
    match s.hostQueues.find q with
    | none => s
    | some r =>
      let z := refreshRing s r (.launchQueue q)
      { z.2 with hostQueues := z.2.hostQueues.put q z.1 }) s

/-- HOST_LAUNCH_QUEUE_ENTRY (R301): the launch front end takes the next entry of queue `qid`, when that queue is the
one in turn. An entry that cannot be read is a launch that cannot be fetched. In reduced service launch queues are not
watched (21 R374). -/
def execHostLaunchQueueEntry (qid : Nat) (s : State) : Out :=
  .next (if s.fw.hold || !s.fw.fullService then s
    else
      let s1 := s.refreshHost
      let more (q : Nat) : Bool := ((s1.hostQueues.find q).map (·.hasMore)).getD false
      match takeTurn more s1.frontPtr s1.frontTurn, s1.hostQueues.find qid with
      | some (k, ptr, turn), some r =>
        if k ≠ qid then s
        else
          let a := r.base.toNat + 16 * (r.taken.toNat % r.ent)
          let (b, s2) := match s1.cleanRead r.tenant (BitVec.ofNat 64 a) 16 with
            | .error s => (List.replicate 16 0xFF, s)
            | .ok e => e
          let head := r.taken + 1
          let s3 := s2.agentPutOr r.tenant r.head.toNat (leBytes 4 head.toNat) .release
          let s4 := { s3 with hostQueues := s3.hostQueues.put qid { r with taken := head }, frontPtr := ptr
                              frontTurn := turn }
          (s4.accept { qid := qid, tenant := r.tenant, card := dwordAt b 0, gridx := (wordAt b 8).toNat
                       gridy := (wordAt b 12).toNat, gx := none, posted := none, kettle := none, slack := none
                       preds := none }).2
      | _, _ => s)

/-! ## `post` (09 R194) -/

/-- The cluster that a `post` target names, from the poster's. -/
def postCluster (cl q : Nat) : Nat :=
  let die := cl / 16
  let c := cl % 16
  16 * die + (if q = 0 then c else if q = 1 then (c + 1) % 16 else (c + 15) % 16)

/-- `post` (09 R194). -/
def execPost (o : SGIDAB) (s : State) : Out :=
  word (uUse o.s o.g (.s2 o.a.toNat :: opB o.i o.b ++ (if o.d = 0 then [] else [.s2 o.d.toNat])) []).syncing noPre (fun _ w _ f s =>
    let a := f.getS64 o.a.toNat
    let q := (f.uB o.i o.b).toNat
    if s.tokenStall w then .wait f s .token
    else if 3 ≤ q then .trap f s (trapOf .reservedField 0x08 0) 0
    else if a.toNat % 128 ≠ 0 then .trap f s (trapOf .misalign 0 a) 0
    else
      let cl := postCluster (clusterOf w.core) q
      let qid := 0x40 + cl
      if s.fw.hold || 64 ≤ (s.pending.getD qid []).length then .wait f s .held
      else
        let d := if o.d = 0 then 0 else f.getS64 o.d.toNat
        .done f (s.accept { qid := qid, tenant := w.tenant, card := a, gridx := (loWord d).toNat
                            gridy := (hiWord d).toNat, gx := none, posted := some cl, kettle := none, slack := none
                            preds := none }).2) s

end Sys2Proof.Machine
end

