-- ==== Sys2Proof/Machine/Quiet.lean ====
section
/-! DEFINITION. When a sleeping fibre's wait has ended, and when a workgroup is quiescent (09 R187, R191, R197; 18 R334). -/

namespace Sys2Proof.Machine

/-- The wait of a fibre has ended, or may have: the word is executed again. -/
def State.wakes (s : State) (wk : Nat) (w : Workgroup) (f : Fibre) : Bool :=
  match f.sleep with
  | .awake => true
  | .woken => true
  | .bar _ _ => false
  | .knot k _ => ((s.knotAt w k).map fun x => x.2.failed).getD true
  | .tkwait a t =>
    (match objPlace s wk w true 8 8 a with
     | .error _ => true
     | .ok p =>
       match objRead s w p 8 true a with
       | .error _ => true
       | .ok (bs, _) => poisonBit bs || serveOf bs == t)
  | .wwait h => ((s.watches.find h.toNat).map (·.fired)).getD true
  | .bcwait a par =>
    (match objPlace s wk w false 16 16 a with
     | .error _ => true
     | .ok p =>
       match objRead s w p 16 true a with
       | .error _ => true
       | .ok (bs, _) => phaseOf bs != par)
  | .pop n =>
    (match s.queueAt w (f.port n).slot with
     | none => true
     | some q => !q.elems.isEmpty || q.closed)
  | .push n => (f.port n).allow != 0 || ((s.queueAt w (f.port n).slot).map fun q => q.free != 0).getD true
  | .rows => false
  | .parked => false
  | .cwait k n => f.counter k ≤ n
  | .held => (f.fabWait.map fun x => x.reply.isSome).getD true
  | .token => s.holdsToken w

/-- Nothing that a fibre waits for has come. -/
def State.asleep (s : State) (wk : Nat) (w : Workgroup) (f : Fibre) : Bool := f.sleep.syncWait && !s.wakes wk w f

/-- A workgroup is quiescent (18 R334). -/
def State.quiescent (s : State) (wk : Nat) (w : Workgroup) : Bool :=
  w.fibres.vals.all fun f => s.asleep wk w f || f.sleep == .token

/-- The resident workgroups of a launch, with their keys. -/
def State.residents (s : State) (launch : Nat) : List (Nat × Workgroup) :=
  s.wgs.filter fun e => e.2.launch == launch && (e.2.run == .resident || e.2.run == .stopping)

end Sys2Proof.Machine
end

