-- ==== Sys2Proof/Machine/Tree.lean ====
section
/-! DEFINITION. The tree-shape registers of a core (14 R287, R288). -/

namespace Sys2Proof.Machine

/-- The physical register of a name of a workgroup: a restore may map the names anew (18 R331). -/
def Workgroup.treeNo (w : Workgroup) (n : Nat) : Nat := vget w.treeAt n n

/-- The tree register that Tn names. -/
def State.treeReg (s : State) (w : Workgroup) (n : Nat) : TreeReg := vget (s.core w.core).tree (w.treeNo n) TreeReg.clear

def State.setTree (s : State) (w : Workgroup) (n : Nat) (t : TreeReg) : State :=
  let x := s.core w.core
  s.putCore w.core { x with tree := vset x.tree (w.treeNo n) t }

/-- Another workgroup holds the register. -/
def TreeReg.foreign (t : TreeReg) (wk : Nat) : Bool := (t.holder.map fun h => h != wk).getD false

/-- The chain of a valid node: the node and its ancestors, nearest first (fuel: parents lie below their children). -/
def TreeReg.chain (t : TreeReg) : Nat → Nat → List Nat
  | 0, _ => []
  | fuel + 1, n =>
    match t.nodes.find n with
    | none => []
    | some p => if n = 0 then [0] else n :: t.chain fuel p

/-- The mask of the nodes of a chain. -/
def chainMask (l : List Nat) : DWord := l.foldl (fun m n => m ||| BitVec.ofNat 64 (2 ^ n)) 0

/-- QUEUE_STATE, SUB 0x30, and RESERVED_FIELD on a node of 64 or more, in this order. -/
def treeFault (t : TreeReg) (wk : Nat) (node : Option Nat) : Option Trap :=
  if t.foreign wk then some (trapOf .queueState 0x30 0)
  else
    match node with
    | some n => if 64 ≤ n then some (trapOf .reservedField 0x09 0) else none
    | none => none

/-- `tset` (R288). -/
def execTset (o : SGINAB) (s : State) : Out :=
  word (uUse o.s o.g (.s o.a.toNat :: opB o.i o.b) []) noPre (fun wk w _ f s =>
    let n := (f.getS o.a.toNat).toNat
    let par := (f.uB o.i o.b).toNat
    let t := s.treeReg w o.n.toNat
    match treeFault t wk (some n) with
    | some tr => .trap f s tr 0
    | none =>
      if n ≠ 0 ∧ (n ≤ par ∨ (t.nodes.find par).isNone = true) then .trap f s (trapOf .reservedField 0x0A 0) 0
      else .done f (s.setTree w o.n.toNat
        { holder := some wk, nodes := t.nodes.put n (if n = 0 then 0 else par) })) s

/-- `tanc` (R288). -/
def execTanc (o : SGDAN2) (s : State) : Out :=
  word (uUse o.s o.g [.s o.a.toNat] [.s2 o.d.toNat]) noPre (fun wk w _ f s =>
    let n := (f.getS o.a.toNat).toNat
    let t := s.treeReg w o.n.toNat
    match treeFault t wk (some n) with
    | some tr => .trap f s tr 0
    | none => .done (f.putS64 o.d.toNat (chainMask (t.chain 64 n))) s) s

/-- `tdepth` (R288). -/
def execTdepth (o : SGDAN2) (s : State) : Out :=
  word (uUse o.s o.g [.s o.a.toNat] [.s o.d.toNat]) noPre (fun wk w _ f s =>
    let n := (f.getS o.a.toNat).toNat
    let t := s.treeReg w o.n.toNat
    match treeFault t wk (some n) with
    | some tr => .trap f s tr 0
    | none =>
      .done (f.putS o.d.toNat
        (if (t.nodes.find n).isNone then 0xFFFFFFFF else BitVec.ofNat 32 ((t.chain 64 n).length - 1))) s) s

/-- `tclr` (R288). -/
def execTclr (o : SGN) (s : State) : Out :=
  word (uUse o.s o.g [] []) noPre (fun wk w _ f s =>
    match treeFault (s.treeReg w o.n.toNat) wk none with
    | some tr => .trap f s tr 0
    | none => .done f (s.setTree w o.n.toNat { holder := some wk, nodes := [] })) s

end Sys2Proof.Machine
end

