-- ==== Sys2Proof/Machine/Placer.lean ====
section
/-! DEFINITION. Dispatch, placement, admission, reservations, budgets, time slices, and the exit of a workgroup
(17 R306, R308 to R315; 01 R33; 04 R76, R83, R88; 07 R130; 12 R221, R230; 18 R331, R334). -/

namespace Sys2Proof.Machine

/-! ## What a unit needs of a cluster (R309) -/

/-- What one member needs of its core: runs of rows placed upward, rows of the scratchpad and stash placed downward,
lane slots, accumulator slots, tree registers. -/
structure MemberNeed where
  runs : List Nat
  scratch : Nat
  seats : Nat
  slots : Nat
  trees : Nat
  deriving DecidableEq, Repr

/-- A member of a unit that has not been placed yet. -/
def freshNeed (h : Header) : MemberNeed :=
  { runs := [h.fibres * (h.win + stackRows h.ddepth)], scratch := (h.scratch + h.stash) / 64, seats := h.fibres
    slots := h.accslots, trees := 0 }

/-- A saved member. -/
def savedNeed (w : Workgroup) : MemberNeed :=
  { runs := (w.fibres.vals.filter fun f => !f.spilled).map fun f => f.run.2, scratch := w.extent / 64
    seats := w.fibres.length, slots := w.hdr.accslots, trees := w.trees.length }

/-- The keys of the members of a saved unit that have not exited. -/
def State.savedKeys (s : State) (launch unit : Nat) : List Nat :=
  (s.wgs.filter fun e => e.2.launch == launch && e.2.unit == unit && e.2.run == .saved).map (·.1)

/-- The needs of a unit, without repetition. -/
def State.unitNeeds (s : State) (l : Launch) (e : UnitEntry) : List MemberNeed :=
  if e.saved then ((s.savedKeys e.launch e.unit).filterMap fun k => (s.wg k).map savedNeed).dedup else [freshNeed l.hdr]

/-- Places runs upward one after another: the rows where they start, and the runs in use afterwards. -/
def placeRuns : List Nat → List (Nat × Nat) → Option (List Nat × List (Nat × Nat))
  | [], runs => some ([], runs)
  | n :: ns, runs =>
    match fitUp runs n with
    | none => none
    | some lo => (placeRuns ns ((lo, n) :: runs)).map fun r => (lo :: r.1, r.2)

/-- Both allocations of 07 R130: where the upward runs start, and the lowest row of the scratchpad. -/
def placeMember (runs : List (Nat × Nat)) (d : MemberNeed) : Option (List Nat × Nat) :=
  match placeRuns d.runs runs with
  | none => none
  | some (los, runs) => if d.scratch = 0 then some (los, 0) else (fitDown runs d.scratch).map fun lo => (los, lo)

/-- A workgroup that holds its core's resources. -/
def Workgroup.holds (w : Workgroup) : Bool := !w.stored && w.run != .exited

/-- The workgroups that a core holds. -/
def State.held (s : State) (core : Nat) : List Workgroup := s.wgs.vals.filter fun w => w.core == core && w.holds

/-- A die that runs nothing. -/
def State.dieDown (s : State) (die : Nat) : Bool :=
  s.diesInReset.contains die || s.fw.dieRetention.contains die || s.fw.powerOff

/-- The deterministic exclusion of 04 R83. -/
def exclusionOk (held : List Workgroup) (launch : Nat) (det : Bool) : Bool :=
  held.all fun w => w.launch == launch || (!det && !w.hdr.det)

/-- A core can take a member with these needs (R309), reservations apart. -/
def State.coreAdmits (s : State) (core launch : Nat) (det : Bool) (d : MemberNeed) : Bool :=
  let held := s.held core
  held.length < 32 && (s.seated core).length + d.seats ≤ 128 && (placeMember (s.runsOf core) d).isSome &&
    (held.map fun w => w.hdr.accslots).sum + d.slots ≤ 8 && exclusionOk held launch det &&
    d.trees ≤ ((s.core core).tree.toList.filter fun t => t.holder.isNone).length && !(s.core core).inReset &&
    !(s.cluster (clusterOf core)).inReset && !s.dieDown (dieOf core)

/-- The admitting cores of a cluster, in ascending order. -/
def State.admitting (s : State) (cl : Nat) (l : Launch) (e : UnitEntry) : List Nat :=
  let needs := s.unitNeeds l e
  ((List.range 8).map (8 * cl + ·)).filter fun c => needs.all fun d => s.coreAdmits c e.launch l.hdr.det d

/-- The cores that hold a workgroup of a tenant. -/
def State.coresOf (s : State) (ten : Nat) : List Nat :=
  ((s.wgs.vals.filter fun w => w.tenant == ten && w.holds).map (·.core)).dedup

/-- Request bytes of a tenant in the last 16 µs at the ports of Table 17-5: every byte of its packets, and of its memory
requests those that an L2 missed, which are a free value (log 31). 1 GB/s over 16 µs is 16,000 bytes. -/
def State.bandwidthUse (s : State) (ten : Nat) : Nat :=
  let mine := s.traffic.filter fun x => x.tenant == ten && s.cycles ≤ x.cycle + 57600
  let sum (l : List Traffic) : Nat := (l.map (·.bytes)).sum
  sum (mine.filter (·.sure)) + min (Config.missedBytes ten s.free) (sum (mine.filter fun x => !x.sure))

/-- The budgets of R313 for a unit on these cores. -/
def State.budgetsOk (s : State) (ten : Nat) (cores : List Nat) : Bool :=
  let t := s.tenant ten
  let use := s.coresOf ten
  (t.cbud == 0 || (cores.filter fun c => !use.contains c).length + use.length ≤ t.cbud) &&
    (t.bbud == 0 || s.bandwidthUse ten < 16000 * t.bbud) && (t.pbud == 0 || Config.powerUse ten s.free < t.pbud)

/-- The cores among them that a unit would occupy: of a saved one those of the members that have not exited. -/
def State.occupied (s : State) (e : UnitEntry) (cores : List Nat) : List Nat :=
  if e.saved then (s.savedKeys e.launch e.unit).filterMap fun k => (s.wg k).bind fun w => cores[w.member]?
  else cores

/-- The cores that a unit takes on a cluster, if it fits there. -/
def State.fitsCluster (s : State) (cl : Nat) (l : Launch) (e : UnitEntry) : Option (List Nat) :=
  let cores := (s.admitting cl l e).take l.hdr.hitch
  if cores.length = l.hdr.hitch ∧ s.budgetsOk l.tenant (s.occupied e cores) = true then some cores else none

def State.placer (s : State) (die : Nat) : Placer := s.placers.getD die Placer.fresh

def State.putPlacer (s : State) (die : Nat) (p : Placer) : State := { s with placers := s.placers.put die p }

/-- The cluster that is reserved for a unit of a queue. -/
def Placer.reservationOf (p : Placer) (qid : Nat) (e : UnitEntry) : Option Nat :=
  (p.reserved.find? fun r => r.2 == ⟨qid, e.launch, e.unit⟩).map (·.1)

/-- The clusters that a unit of a queue may use now: a reserved cluster admits no unit but the reserved one (R309,
R311). -/
def State.openTo (s : State) (die qid : Nat) (l : Launch) (e : UnitEntry) : List Nat :=
  let p := s.placer die
  match p.reservationOf qid e with
  | some cl => [cl]
  | none =>
    let all := match l.posted with
      | some cl => [cl]
      | none => (List.range 16).map (16 * die + ·)
    all.filter fun cl => (p.reserved.find cl).isNone

/-- The first of the best by a strict order. -/
def bestBy {α : Type} (less : α → α → Bool) : List α → Option α
  | [] => none
  | x :: xs =>
    match bestBy less xs with
    | none => some x
    | some y => if less y x then some y else some x

/-- The cores that a unit takes: the cluster it fits with the fewest admitting cores, ties to the lower (R309). -/
def State.fits (s : State) (die qid : Nat) (e : UnitEntry) : Option (List Nat) :=
  match s.launch e.launch with
  | none => none
  | some l =>
    let cs := (s.openTo die qid l e).filterMap fun cl =>
      (s.fitsCluster cl l e).map fun cores => ((s.admitting cl l e).length, cores)
    (bestBy (fun a b => a.1 < b.1) cs).map (·.2)

/-! ## Candidates and their order (R310) -/

/-- A candidate of a round: its queue and its unit. -/
structure Candidate where
  qid : Nat
  e : UnitEntry
  deriving DecidableEq, Repr

/-- The workgroup for which a deterministic launch's token waits, when it is not resident and every resident workgroup of
the launch is quiescent (18 R334). -/
def State.awaited (s : State) (launch : Nat) : Option Nat :=
  match s.launch launch with
  | none => none
  | some l =>
    if !l.hdr.det || l.token.holder.isSome || l.exited.contains l.token.next ||
        !((s.residents launch).all fun e => s.quiescent e.1 e.2) then none
    else
      match s.wg (wgKey launch l.token.next) with
      | some w => if w.run = .resident then none else some l.token.next
      | none => some l.token.next

/-- A unit holds the workgroup that the token waits for. -/
def State.isAwaited (s : State) (e : UnitEntry) : Bool :=
  match s.awaited e.launch, s.launch e.launch with
  | some w, some l => w / max 1 l.hdr.hitch == e.unit
  | _, _ => false

/-- The candidate of a queue: its head, or an awaited unit of the head's launch, which placement favours (18 R334). -/
def State.candidateOf (s : State) (q : List UnitEntry) : Option UnitEntry :=
  match q with
  | [] => none
  | h :: _ => some ((q.find? fun e => e.launch == h.launch && s.isAwaited e).getD h)

/-- The candidates of a queue: that one, and a unit that holds a reservation although another has come ahead of it. -/
def State.queueCandidates (s : State) (die qid : Nat) (q : List UnitEntry) : List Candidate :=
  match s.candidateOf q with
  | none => []
  | some h =>
    ⟨qid, h⟩ :: (q.filter fun e => e != h && ((s.placer die).reservationOf qid e).isSome).map fun e => ⟨qid, e⟩

/-- The candidates of a die's placer, in ascending QID. -/
def State.candidates (s : State) (die : Nat) : List Candidate :=
  (s.placer die).inq.flatMap fun e => s.queueCandidates die e.1 e.2

/-- The rank of a candidate: reserved, awaited, least slack, longest at the head, lower QID. -/
def State.rank (s : State) (die : Nat) (c : Candidate) : List Nat :=
  [(if ((s.placer die).reservationOf c.qid c.e).isSome then 0 else 1), (if s.isAwaited c.e then 0 else 1),
   ((s.launch c.e.launch).map fun l => l.slack.toNat).getD 4096, c.e.since, c.qid]

/-- Lexicographic order. -/
def lexLess : List Nat → List Nat → Bool
  | a :: as, b :: bs => a < b || (a == b && lexLess as bs)
  | _, _ => false

/-- The unit that a round grants, with its cores. -/
def State.pick (s : State) (die : Nat) : Option (Candidate × List Nat) :=
  let fit := (s.candidates die).filterMap fun c => (s.fits die c.qid c.e).map fun cores => (c, cores)
  bestBy (fun a b => lexLess (s.rank die a.1) (s.rank die b.1)) fit

/-- A cluster that a head may reserve (R311): how many further cores must free, and the cluster. -/
def State.reservable (s : State) (die : Nat) (c : Candidate) : Option Nat :=
  match s.launch c.e.launch with
  | none => none
  | some l =>
    let cs := (s.openTo die c.qid l c.e).map fun cl => (l.hdr.hitch - (s.admitting cl l c.e).length, cl)
    (bestBy (fun a b => a.1 < b.1) cs).map (·.2)

/-- A blocked head must be reserved before the next round. -/
def State.mustReserve (s : State) (die : Nat) (c : Candidate) : Bool :=
  64 ≤ (s.placer die).backfills.getD c.qid 0 && ((s.placer die).reservationOf c.qid c.e).isNone &&
    (s.fits die c.qid c.e).isNone && (s.reservable die c).isSome

/-! ## Queues of a placer -/

/-- A head that has no time yet has become the head now; a unit that no longer stands at the head has none. -/
def markHead (now : Nat) : List UnitEntry → List UnitEntry
  | [] => []
  | e :: es => (if e.since = 0 then { e with since := now + 1 } else e) :: es.map fun e => { e with since := 0 }

/-- Changes a queue of a placer; a new head starts with no back-fill against it. -/
def State.setQueue (s : State) (die qid : Nat) (q : List UnitEntry) : State :=
  let p := s.placer die
  let old := (p.inq.getD qid []).head?
  let q := markHead s.cycles q
  let same := (old.map fun e => (e.launch, e.unit)) == (q.head?.map fun e => (e.launch, e.unit))
  s.putPlacer die
    { p with inq := if q.isEmpty then p.inq.del qid else p.inq.put qid q
             backfills := if same then p.backfills else p.backfills.del qid }

/-- Units that are granted or discarded give their reservations up. -/
def State.dropReservations (s : State) (die : Nat) (gone : Reserved → Bool) : State :=
  let p := s.placer die
  s.putPlacer die { p with reserved := p.reserved.filter fun e => !gone e.2 }

/-- The queues other than qid whose head is blocked. -/
def State.blockedQueues (s : State) (die qid : Nat) : List Nat :=
  (((s.candidates die).filter fun x => x.qid != qid && (s.fits die x.qid x.e).isNone).map (·.qid)).dedup

/-- A unit leaves its queue by a grant, which is a back-fill against every other blocked head. The cycle is one of rounds
(R310). -/
def State.takeUnit (s : State) (die : Nat) (c : Candidate) : State :=
  let blocked := s.blockedQueues die c.qid
  let s := (s.setQueue die c.qid (((s.placer die).inq.getD c.qid []).filter (· != c.e))).dropReservations die
    (· == ⟨c.qid, c.e.launch, c.e.unit⟩)
  let p := s.placer die
  s.putPlacer die { p with backfills := blocked.foldl (fun b q => b.put q (b.getD q 0 + 1)) p.backfills
                           roundAt := s.cycles + 1 }

/-- A round of this cycle has granted a unit: the exits and saves of the cycle are over (R310). -/
def State.roundsBegun (s : State) (die : Nat) : Bool := (s.placer die).roundAt == s.cycles + 1

/-- A saved unit returns to the head of its queue, ahead of the launch's unplaced units (R314); saved units of one
launch stand in ascending order. -/
def insertSaved (x : UnitEntry) : List UnitEntry → List UnitEntry
  | [] => [x]
  | e :: es => if e.saved ∧ e.launch = x.launch ∧ e.unit < x.unit then e :: insertSaved x es else x :: e :: es

/-- Removes the units of a launch that have not been placed. -/
def State.discardUnits (s : State) (launch : Nat) : State :=
  (List.range 4).foldl (fun s die =>
    (s.placer die).inq.keys.foldl (fun s qid =>
      let q := (s.placer die).inq.getD qid []
      if q.any fun e => e.launch == launch then
        (s.dropReservations die fun r => r.launch == launch).setQueue die qid (q.filter fun e => e.launch != launch)
      else s) s) s

/-! ## Admission (01 R33, 04 R76, 07 R130) -/

/-- The knots that a workgroup's slots name. -/
def knotsOf (l : Launch) (wgid : Nat) : Vector (Option Nat) 4 :=
  let x := (l.ksmap[wgid]?).getD 0
  Vector.ofFn fun j => if bit l.hdr.knots j then some (bitsN x.toNat (8 * j) 8) else none

/-- A launch of grid rule 1 by Kettle: group and slack of workgroup w; otherwise group 0 and the default slack
(14 R272). -/
def groupOf (s : State) (l : Launch) (wgid : Nat) : Nat × BitVec 12 :=
  match l.kettle with
  | some (m, _, true) => (wgid, BitVec.ofNat 12 (((s.kmodels.find m).bind fun k => k.slk[wgid]?).getD 0xFFF))
  | _ => (0, l.slack)

/-- A workgroup at admission, without its fibres. -/
def newWorkgroup (s : State) (id : Nat) (l : Launch) (wgid core scratchRow : Nat) : Workgroup :=
  let h := max 1 l.hdr.hitch
  { launch := id, wgid := wgid, core := core, member := wgid % h, unit := wgid / h, tenant := l.tenant, hdr := l.hdr
    args := l.args, group := (groupOf s l wgid).1, slack0 := (groupOf s l wgid).2, scratchRow := scratchRow, fibres := []
    nextUid := 0, nextCmd := 0, orphans := [], endedPorts := [], ghosts := [], faults := [], mem := [], poison := [], maps := [], lines := []
    bars := Vector.replicate 16 emptyBar, knots := knotsOf l wgid, knotRec := Vector.replicate 4 ⟨false, false⟩
    acc := List.replicate l.hdr.accslots AccSlot.clear, accstk := 0, scale := [], mq := [], tiles := [], parked := []
    treeAt := Vector.ofFn fun n => n.val, trees := [], wp := Vector.replicate 8 0, claim := none, trig := false
    retired := 0, published := 0, atReceipt := [], run := .resident, stored := false, quiet := [], residentSince := s.cycles, residentBefore := 0 }

/-- Starts the fibres of a workgroup from index k on, in ascending order; row is the first row of fibre k. -/
def startFibres (wk : Nat) : Nat → Nat → Nat → State → State
  | 0, _, _, s => s
  | n + 1, k, row, s =>
    match s.wg wk with
    | none => s
    | some w =>
      match pickLane (s.seated w.core) with
      | none => s
      | some seat =>
        let st := stackRows w.hdr.ddepth
        let f := startFibre w k seat (row + st) (w.hdr.addr + 64) w.slack0
        startFibres wk n (k + 1) (row + st + w.hdr.win) (s.addFibre wk w f)

/-- The launch has a workgroup on the cluster. -/
def State.onCluster (s : State) (launch cl : Nat) : Bool :=
  s.wgs.vals.any fun w => w.launch == launch && clusterOf w.core == cl && w.holds

/-- The slice clock of a launch on a cluster as its first workgroup is admitted there, from rest or after a save: the
overrun of the slice that expired last shortens it, also while the saves of that expiry are still being made (R314). -/
def startClock (old : Option SliceClock) (now : Nat) : SliceClock :=
  match old with
  | some k => if k.expired then { start := now, charge := k.charge, expired := false, overFrom := k.overFrom }
      else { start := now, charge := 0, expired := false, overFrom := none }
  | none => { start := now, charge := 0, expired := false, overFrom := none }

/-- Where a deterministic launch's slice slots count from on a core: the cycle of its first admission there, whatever the
core has run since (04 R83). -/
def slotOrigin (old : Tbl Nat) (launch now : Nat) (det : Bool) : Tbl Nat :=
  if det && (old.find launch).isNone then old.put launch now else old

/-- A workgroup comes to a core: the slice clock of its launch starts if it is the first there (R314), the launch has
its place in the age order (04 R89), slice slots count (04 R83), and the core wakes (21 Table 21-9). -/
def State.arrive (s : State) (launch core : Nat) : State :=
  let cl := clusterOf core
  let next := (s.launches.vals.map (·.serial)).foldl max 0 + 1
  let first (l : Launch) : Bool := !s.onCluster launch cl || ((l.slices.find cl).map (·.expired)).getD true
  let det := ((s.launch launch).map fun (l : Launch) => l.hdr.det).getD false
  let s := s.updLaunch launch fun l =>
    { l with
      serial := if l.serial = 0 then next else l.serial
      slices := if first l then l.slices.put cl (startClock (l.slices.find cl) s.cycles) else l.slices }
  s.putCore core { s.core core with gated := false, det := slotOrigin (s.core core).det launch s.cycles det }

/-- Admits workgroup w of a launch to a core: its first instruction acquires at pkg scope (R306). -/
def State.admitMember (s : State) (id wgid core : Nat) : State :=
  match s.launch id with
  | none => s
  | some l =>
    match placeMember (s.runsOf core) (freshNeed l.hdr) with
    | none => s
    | some (los, scratch) =>
      let w := newWorkgroup s id l wgid core scratch
      let s := ((s.arrive id core).putWg (wgKey id wgid) w).acquire core 3
      let s := { s with openBars := s.openBars.filter fun b => b.key != some (wgKey id wgid)
                        flips := s.flips.filter fun b => b.key != some (wgKey id wgid) }
      startFibres (wgKey id wgid) l.hdr.fibres 0 (los.headD 0) s

/-- Admits the members of a unit, member m to the m-th core. -/
def State.admitUnit (s : State) (e : UnitEntry) (cores : List Nat) : State :=
  cores.zipIdx.foldl (fun s c => s.admitMember e.launch (e.unit * cores.length + c.2) c.1) s

/-! ## Dispatch (R305, R306, R308) -/

/-- The die of a unit (R308), and what the walk that finds it has done. -/
def State.unitDie (s : State) (l : Launch) (u : Nat) : Nat × State :=
  match l.posted with
  | some cl => (cl / 16, s)
  | none =>
    if l.pmode = 1 then
      let a := (l.kbase.toNat + l.hdr.hitch * u / 2 ^ l.ksh * l.kstr) % 2 ^ 64
      if a / 2 ^ 56 ≠ 0 then (u % 4, s)
      else
        (match s.agentPa l.tenant a false with
          | .error _ => u % 4
          | .ok pa => if tierOf pa = .host then u % 4 else homeDie pa, s.agentWalk l.tenant a 1)
    else if l.pmode = 2 then (l.pdie, s)
    else (u % 4, s)

/-- The units of a launch enter the input queues, in ascending order. -/
def State.enqueueUnits (s : State) (id : Nat) (l : Launch) : State :=
  (List.range (l.total / max 1 l.hdr.hitch)).foldl (fun s u =>
    let (die, s) := s.unitDie l u
    s.setQueue die l.qid ((s.placer die).inq.getD l.qid [] ++ [{ launch := id, unit := u, since := 0, saved := false }])) s

/-- LAUNCH_DISPATCH: the oldest launch of a queue enters the placers once every predecessor is satisfied; a launch of
which a predecessor has failed is cancelled with PREDFAIL first (R305, R306). -/
def execLaunchDispatch (qid : Nat) (s : State) : Out :=
  let ids := s.pending.getD qid []
  .next (match ids.find? s.predFails with
    | some id => s.endLaunch id 6
    | none =>
      match ids with
      | [] => s
      | id :: rest =>
        match s.launch id with
        | none => { s with pending := s.pending.put qid rest }
        | some l =>
          if l.preds.all fun p => s.predOf p == .satisfied then
            let s := { s with pending := s.pending.put qid rest }
            (s.updLaunch id fun l => { l with state := .dispatched }).enqueueUnits id l
          else s)

/-! ## Exit of a workgroup (04 R88; 09 R185, R188; 12 R230; 17 R305; 18 R333) -/

/-- The scratchpad addresses on selector 0x9 that a command reads. -/
def CopyOp.sources : CopyOp → List DWord
  | .cpy _ _ srck _ _ _ _ src _ _ _ _ _ _ _ _ => if srck = 0 then [src] else []
  | .cpyr _ src _ _ _ _ => [src]
  | .gath _ _ bt _ _ _ _ _ _ => [bt]
  | .qdual _ _ _ src _ _ _ _ _ _ _ _ _ _ => [src]
  | .ldrain _ _ _ _ _ _ _ _ _ _ _ _ => []

/-- An address names member m as a peer. -/
def namesPeer (m : Nat) (a : DWord) : Bool := selOf a == 0x9 && bitsN a.toNat 57 3 == m

/-- A command of a product reads the scratchpad of workgroup wk. -/
def MCmd.readsFrom (c : MCmd) (wk : Nat) : Bool :=
  match c.op with
  | .mma m => m.opA.src == wk || m.opB.src == wk
  | _ => false

/-- An engine command of another member of the unit still names the workgroup as a source. -/
def State.namedAsSource (s : State) (wk : Nat) (w : Workgroup) : Bool :=
  (s.unitKeys w).any fun k =>
    match s.wg k with
    | none => false
    | some m =>
      k != wk &&
        ((m.mq.any fun c => c.readsFrom wk) ||
          (m.parked.any fun c => c.op.sources.any (namesPeer w.member)) ||
          (s.core m.core).chans.toList.any fun q => q.any fun c => c.own.wk == k && c.op.sources.any (namesPeer w.member))

/-- Frees the tree registers of a workgroup; nothing says that their contents change. -/
def State.freeTrees (s : State) (wk core : Nat) : State :=
  let x := s.core core
  s.putCore core { x with tree := x.tree.map fun t => if t.holder = some wk then { t with holder := none } else t }

/-- Owned lines of a core are released. -/
def State.releaseLines (s : State) (core : Nat) : State := s.putCore core { s.core core with owned := [] }

/-- The claim of a workgroup that exits is passed as soon as its turn comes (09 R188). -/
def State.leaveClaim (s : State) (wk : Nat) (w : Workgroup) : State :=
  match w.claim with
  | none => s
  | some (obj, t) =>
    let x : Lingering :=
      if obj.toNat / 2 ^ 60 = 0 then { tenant := w.tenant, key := none, addr := obj.toNat % 2 ^ 56, ticket := t }
      else
        { tenant := w.tenant, addr := obj.toNat % 2 ^ 32, ticket := t
          key := if obj.toNat / 2 ^ 60 = 8 then some wk else some ((s.memberKey w (bitsN obj.toNat 57 3)).getD wk) }
    ({ s with claims := s.claims ++ [x] }).passClaims

/-- The token leaves a workgroup that exits or is torn down (18 R333); a token that waits for it waits for the next
instead (R334). -/
def State.leaveToken (s : State) (wk : Nat) (w : Workgroup) : State :=
  if !w.hdr.det then s
  else if s.holdsToken w then s.passToken wk w w.retired
  else s.updLaunch w.launch fun l =>
    if l.token.holder = none ∧ l.token.next = w.wgid then
      { l with token := { l.token with next := nextInTurn l.total l.exited l.total (w.wgid + 1) } }
    else l

/-- The workgroups of a unit that have all exited leave the state. -/
def State.sweepUnit (s : State) (w : Workgroup) : State :=
  let ks := s.unitKeys w
  if ks.all fun k => ((s.wg k).map fun m => m.run == .exited).getD true then
    s.setWgs (s.wgs.filter fun e => !ks.contains e.1)
  else s

/-- A workgroup of the launch on the cluster is still to be saved. -/
def State.stillStopping (s : State) (launch cl : Nat) : Bool :=
  s.wgs.vals.any fun w => w.launch == launch && clusterOf w.core == cl && w.run == .stopping

/-- The slice clock of a workgroup's launch once the workgroup has left the cluster otherwise than by a save: where nothing
is left to be saved the overrun is over, and a slice that ends with the launch at rest and nothing charged leaves nothing
(R314, R315). -/
def State.restSlice (s : State) (w : Workgroup) : State :=
  let cl := clusterOf w.core
  let more := s.stillStopping w.launch cl
  let here := s.onCluster w.launch cl
  s.updLaunch w.launch fun l =>
    let l := { l with slices := l.slices.upd cl fun k => if more then k else { k with overFrom := none } }
    if here || ((l.slices.find cl).map (·.charge)).getD 0 ≠ 0 then l else { l with slices := l.slices.del cl }

/-- Everything that the exit of a workgroup does. -/
def State.exitWg (s : State) (wk : Nat) (w : Workgroup) : State :=
  let s := (s.writeBackAll wk).releaseLines w.core
  let s := s.leaveClaim wk w
  let s := w.endedPorts.foldl (fun s p => s.unbind w p) s
  let s := s.freeTrees wk w.core
  let s := s.updLaunch w.launch fun l =>
    { l.noteTrig w.wgid s.cycles with exited := l.exited ++ [w.wgid] }
  let s := s.leaveToken wk w
  let s := (w.knots.toList.filterMap id).foldl (fun s k => s.settleKnot w.launch k) s
  let s := s.updWg wk fun w => { w with run := .exited, claim := none, endedPorts := [], lines := [], maps := [] }
  ((s.restSlice w).sweepUnit w).settleLaunch w.launch

/-- A workgroup may exit: its last fibre has ended, everything it issued is done, and no engine command names it. The
exits of a cycle come before its rounds (R310). -/
def State.mayExit (s : State) (wk : Nat) (w : Workgroup) : Bool :=
  (w.run == .resident || w.run == .stopping) && w.fibres.isEmpty && s.drained wk w && !s.namedAsSource wk w &&
    !s.roundsBegun (dieOf w.core)

/-- WORKGROUP_EXIT (04 R88). -/
def execWorkgroupExit (wk : Nat) (s : State) : Out :=
  .next (match s.wg wk with
    | none => s
    | some w => if s.mayExit wk w then s.exitWg wk w else s)

/-- A member of a stopping unit has come to rest: its accesses are performed, no word is under way, and its engines
stand at granules (18 R327). -/
def State.mayBeSaved (s : State) (wk : Nat) : Bool :=
  match s.wg wk with
  | none => true
  | some w =>
    match w.run with
    | .exited => true
    | .stopping =>
      w.orphans.isEmpty && (w.fibres.vals.all fun f => f.outs.isEmpty && !f.midWord) && (s.core w.core).mrun != some wk &&
        (s.core w.core).chans.toList.all fun q => q.all fun c => c.own.wk != wk || c.atGranule
    | _ => false

/-- The stopping unit of a workgroup has come to rest and may be saved now. -/
def State.mayBeStored (s : State) (w : Workgroup) : Bool :=
  w.run == .stopping && (s.unitKeys w).all s.mayBeSaved && !s.roundsBegun (dieOf w.core)

/-- An exit or a save on a die is due in this cycle: it takes effect before the rounds (R310). -/
def State.exitsDue (s : State) (die : Nat) : Bool :=
  s.wgs.any fun e => dieOf e.2.core == die && (s.mayExit e.1 e.2 || s.mayBeStored e.2)

/-! ## Rounds (R310, R311) -/

/-- PLACER_ROUND: the round grants its first unit, when that is a unit not yet placed. A restore is a step of its
own, and a head that must be reserved is reserved first. -/
def execPlacerRound (die : Nat) (s : State) : Out :=
  .next (if (s.candidates die).any (s.mustReserve die) || s.exitsDue die then s
    else
      match s.pick die with
      | none => s
      | some (c, cores) => if c.e.saved then s else (s.takeUnit die c).admitUnit c.e cores)

/-- HEAD_RESERVATION: a blocked head becomes reserved after its 64th back-fill. -/
def execHeadReservation (die qid : Nat) (s : State) : Out :=
  .next (match (s.candidates die).find? fun c => c.qid == qid && s.mustReserve die c with
    | none => s
    | some c =>
      match s.reservable die c with
      | none => s
      | some cl => s.putPlacer die { s.placer die with
          reserved := (s.placer die).reserved.put cl ⟨qid, c.e.launch, c.e.unit⟩ })

/-! ## Time slices (R314, R315) -/

/-- A unit of another tenant waits for the cluster, and would fit were the launch's workgroups gone. A candidate that
fits somewhere is granted by the next round and waits for no cluster; other units of the queues wait. -/
def State.sliceWanted (s : State) (launch cl ten : Nat) : Bool :=
  let die := cl / 16
  let mine := s.wgs.filter fun e => e.2.launch == launch && clusterOf e.2.core == cl
  let gone := mine.foldl (fun s e => s.freeTrees e.1 e.2.core)
    (s.setWgs (s.wgs.filter fun e => !(e.2.launch == launch && clusterOf e.2.core == cl)))
  (s.placer die).inq.any fun q => q.2.any fun e =>
    match s.launch e.launch with
    | none => false
    | some l =>
      l.tenant != ten && !((s.queueCandidates die q.1 q.2).contains ⟨q.1, e⟩ && (s.fits die q.1 e).isSome) &&
        (s.openTo die q.1 l e).contains cl && (gone.fitsCluster cl l e).isSome

/-- The workgroups of a launch that are asked to save themselves; a hitch is saved whole. -/
def State.stopUnits (s : State) (launch : Nat) (units : List Nat) : State :=
  s.setWgs (s.wgs.each fun _ w =>
    if w.launch = launch ∧ units.contains w.unit = true ∧ w.run = .resident then { w with run := .stopping } else w)

/-- The slice clock of a launch on a cluster has reached its slice. -/
def State.sliceOver (s : State) (l : Launch) (cl : Nat) : Bool :=
  match l.slices.find cl with
  | none => false
  | some k => l.tslice != 0 && !k.expired && 3600 * l.tslice - k.charge ≤ s.cycles - k.start

/-- TIME_SLICE_EXPIRY: every workgroup of the launch on the cluster is pre-empted; the overrun counts from now. -/
def execTimeSliceExpiry (launch cluster : Nat) (s : State) : Out :=
  .next (match s.launch launch with
    | none => s
    | some l =>
      let units := (s.wgs.vals.filter fun w => w.launch == launch && clusterOf w.core == cluster && w.run == .resident).map (·.unit)
      if !units.isEmpty && s.sliceOver l cluster && s.sliceWanted launch cluster l.tenant then
        (s.stopUnits launch units.dedup).updLaunch launch fun l =>
          { l with slices := l.slices.put cluster { start := s.cycles, charge := 0, expired := true, overFrom := some s.cycles } }
      else s)

end Sys2Proof.Machine
end

