-- ==== Sys2Proof/Machine/FaultEvents.lean ====
section
/-! DEFINITION. Teardown after a fatal fault, launch-wide teardown and cancellation, the watchdog, and the answers to
a replayable translation fault (18 R318, R321, R324 to R326; 13 R246, R376). -/

namespace Sys2Proof.Machine

/-! ## Stopping whole launches (R325) -/

/-- A saved workgroup's unit leaves its placer when it is stopped. -/
def State.unqueue (s : State) (launch unit : Nat) : State :=
  (List.range 4).foldl (fun s die =>
    (s.placer die).inq.keys.foldl (fun s qid =>
      let q := (s.placer die).inq.getD qid []
      let out := q.filter fun e => !(e.launch == launch && e.unit == unit)
      if out.length = q.length then s
      else
        (s.dropReservations die fun r => r.launch == launch && r.unit == unit).setQueue die qid out) s) s

/-- Stops every workgroup of a launch that still runs, as PEER_FAULT of an origin that is no peer. -/
def State.stopLaunch (s : State) (launch : Nat) : State :=
  (s.wgs.filter fun e => e.2.launch == launch).foldl (fun s e =>
    (s.stopWg e.1 (peerFatal e.2 0x08 0 s.cycles)).unqueue launch e.2.unit) s

/-- The workgroups of a launch that no workgroup of the state stands for count as ended: they are never placed. -/
def Launch.dropUnplaced (l : Launch) (present : List Nat) : Launch :=
  { l with exited := l.exited ++ (List.range l.total).filter fun w => !l.exited.contains w && !present.contains w }

/-- Discards the units of a launch that have not been placed. -/
def State.endUnplaced (s : State) (launch : Nat) : State :=
  let present := (s.wgs.vals.filter fun w => w.launch == launch).map (·.wgid)
  (s.discardUnits launch).updLaunch launch fun l => l.dropUnplaced present

/-- The KIND 4 record of an origin fault (R323). -/
def wideRecord (launch wgid core : Nat) (x : Fatal) : Record :=
  { cause := causeWord x.code x.sub x.strand x.impr ||| 0x04000000#32, launch := launch, wgid := wgid, fid := x.fid,
    chan := 0, core := core, pc := x.pc, addr := x.addr, rpc := x.rpc, cause0 := x.cause0 }

/-- The KIND 4 record of a launch that firmware cancels: CODE 0, and 0 in every field of an origin. -/
def cancelRecord (launch : Nat) : Record :=
  { cause := 0x04000000#32, launch := launch, wgid := 0, fid := 0, chan := 0, core := 0, pc := 0, addr := 0, rpc := 0,
    cause0 := 0 }

/-- A launch-wide teardown: every other unit stops, unplaced units are discarded, one record of KIND 4. -/
def State.wideTeardown (s : State) (launch : Nat) (r : Record) : State :=
  let s := (s.stopLaunch launch).endUnplaced launch
  match s.launch launch with
  | none => s
  | some l => (s.writeRecord l.tenant l.fq launch r).2

/-- Cancels a launch with a status (R325): one not dispatched ends at once. -/
def State.cancelLaunch (s : State) (launch status : Nat) : State :=
  match s.launch launch with
  | none => s
  | some l =>
    if l.cancel.isSome then s
    else if l.state = .accepted then s.endLaunch launch status
    else
      let s := s.updLaunch launch fun l => { l with cancel := some status }
      (s.wideTeardown launch (cancelRecord launch)).settleLaunch launch

/-! ## UNIT_TEARDOWN (R324) -/

/-- Removes the copy-engine commands of a workgroup from the channels of its core, giving back their page holds. -/
def State.dropChannels (s : State) (wk core : Nat) : State :=
  let gone := ((s.core core).chans.toList.flatMap id).filter fun c => c.own.wk == wk
  let s := gone.foldl (fun s c => (dropHold c s).2) s
  let x := s.core core
  s.putCore core { x with chans := x.chans.map fun q => q.filter fun c => c.own.wk != wk }

/-- Removes the reductions of a workgroup that wait at a slice. -/
def State.dropSlices (s : State) (wk : Nat) : State := { s with slices := s.slices.filter fun e => e.2.own.wk != wk }

/-- A command of a workgroup that is torn down has stopped: at a granule; stalled, where nothing of it moves until firmware
answers; or it is a reduction that waits for its turn, which is discarded (18 R324). -/
def CCmd.stopped (c : CCmd) : Bool := c.atGranule || (c.stalled.isSome && !c.failed) || (c.isCpyr && c.fab.isNone)

/-- A dying workgroup has come to rest: its fibres stand at boundaries, its accesses are performed, and its engines
stand at granules. -/
def State.atRest (s : State) (wk : Nat) : Bool :=
  match s.wg wk with
  | none => true
  | some w =>
    match w.run with
    | .dying _ =>
      w.orphans.isEmpty && (w.fibres.vals.all fun f => f.outs.isEmpty && !f.midWord) && (s.core w.core).mrun != some wk &&
        (s.core w.core).chans.toList.all fun q => q.all fun c => c.own.wk != wk || c.stopped
    | .exited => true
    | _ => false

/-- The record of a stopped workgroup: KIND 0 for one that faulted, KIND 3 for one that PEER_FAULT stopped. -/
def stopRecord (w : Workgroup) (x : Fatal) : Record :=
  { cause := causeWord x.code x.sub x.strand x.impr ||| BitVec.ofNat 32 (x.kind * 16777216 + x.peer * 65536)
    launch := w.launch, wgid := w.wgid, fid := x.fid, chan := 0, core := w.core, pc := x.pc, addr := x.addr, rpc := x.rpc
    cause0 := x.cause0 }

/-- Releases everything a stopped workgroup holds. -/
def State.releaseWg (s : State) (wk : Nat) (w : Workgroup) (fatal : Bool) : State :=
  let s := ((s.writeBackAll wk).releaseLines w.core).dropChannels wk w.core
  let s := (s.dropSlices wk).freeTrees wk w.core
  let ports := w.endedPorts ++ w.fibres.vals.flatMap fun f => f.ports.toList.filter (·.bound)
  let s := ports.foldl (fun s p => s.unbind w p) s
  let s := s.setWatches ((w.fibres.vals.flatMap (·.watches)).foldl Tbl.del s.watches)
  let s := s.updLaunch w.launch fun l =>
    { l with exited := if l.exited.contains w.wgid then l.exited else l.exited ++ [w.wgid], fatal := l.fatal || fatal }
  let s := s.leaveToken wk w
  { s with images := s.images.filter fun i => !(i.launch == w.launch && i.wgid == w.wgid) }

/-- What a stopped workgroup records, as it has come to rest: a workgroup that PEER_FAULT stopped names the boundary at
which its lowest-indexed fibre stands now. -/
def Workgroup.finalStop (w : Workgroup) (x : Fatal) : Fatal :=
  if x.kind = 3 then
    match w.firstFibre with
    | some f => { x with fid := f.fid, pc := f.pc, rpc := f.pc }
    | none => x
  else x

/-- Writes the records of a workgroup's fatal faults; the flag says that one of them asks for a launch-wide teardown. -/
def State.writeStops (s : State) (w : Workgroup) : List Fatal → Bool × State
  | [] => (false, s)
  | x :: xs =>
    let a := s.writeRecord w.tenant (s.fqOf w.launch) w.launch (stopRecord w x)
    let b := a.2.writeStops w xs
    ((x.kind == 0 && (a.1 || x.code == .watchdog)) || b.1, b.2)

/-- A dying workgroup records its stop, and any fatal fault that its fibres met besides, and releases everything; answers
whether its own fault asks for a launch-wide teardown. -/
def State.tearDown (s : State) (wk : Nat) : Option (Fatal × Nat × Nat) × State :=
  match s.wg wk with
  | none => (none, s)
  | some w =>
    match w.run with
    | .dying x =>
      let r := s.writeStops w (w.finalStop x :: w.faults)
      let s := r.2.releaseWg wk w (x.kind == 0 || !w.faults.isEmpty)
      (if r.1 = true then some (if x.kind = 0 then x else w.faults.headD x, w.wgid, w.core) else none, s)
    | _ => (none, s)

/-- Tears down the members in turn. -/
def tearAll : List Nat → State → Option (Fatal × Nat × Nat) × State
  | [], s => (none, s)
  | k :: ks, s =>
    let a := s.tearDown k
    let b := tearAll ks a.2
    (a.1.or b.1, b.2)

/-- UNIT_TEARDOWN: the stopped unit of workgroup wk has come to rest; its members record their stops, release what
they hold, and end. -/
def execUnitTeardown (wk : Nat) (s : State) : Out :=
  .next (match s.wg wk with
    | none => s
    | some w =>
      let ks := s.unitKeys w
      let dying := ks.any fun k => ((s.wg k).map fun m => m.dead).getD false
      if dying && ks.all s.atRest then
        let r := tearAll ks s
        let s := (r.2.setWgs (r.2.wgs.filter fun e => !ks.contains e.1)).unqueue w.launch w.unit
        let s := match r.1 with
          | some (x, wgid, core) =>
            let first := ((s.launch w.launch).map fun (l : Launch) => l.wide.isNone).getD false
            if first then
              (s.updLaunch w.launch fun l => { l with wide := some (x, wgid, core) }).wideTeardown w.launch
                (wideRecord w.launch wgid core x)
            else s
          | none => s
        (s.restSlice w).settleLaunch w.launch
      else s)

/-! ## WATCHDOG_EXPIRY (R321) -/

/-- Cycles for which a workgroup has been resident. -/
def State.residentFor (s : State) (w : Workgroup) : Nat := w.residentBefore + (s.cycles - w.residentSince)

/-- WATCHDOG_EXPIRY: the lowest-indexed fibre of a workgroup that has been resident too long takes WATCHDOG, at its
boundary. -/
def execWatchdogExpiry (wk : Nat) (s : State) : Out :=
  .next (match s.wg wk with
    | none => s
    | some w =>
      let limit := (s.tenant w.tenant).watchdogMs
      match w.firstFibre with
      | none => s
      | some f =>
        if limit ≠ 0 ∧ 3600000 * limit < s.residentFor w ∧ (w.run = .resident ∨ w.run = .stopping) ∧ f.midWord = false then
          s.fatal wk { code := .watchdog, sub := 0, strand := 0, impr := true, fid := f.fid, pc := f.pc, addr := 0,
                       rpc := f.pc, cause0 := f.cause0, kind := 0, peer := 0, cycle := s.cycles }
        else s)

/-! ## Firmware's answers to a translation fault (R318, 13 R246, R376) -/

/-- A parked fibre of a workgroup that has not been stopped. -/
def State.parkedFibre (s : State) (wk fid : Nat) : Option (Workgroup × Fibre) :=
  match s.wg wk with
  | none => none
  | some w =>
    if w.dead then none
    else (w.fibres.find fid).bind fun f => if f.sleep = .parked then some (w, f) else none

/-- Replay: the instruction resumes from RIX, and the nominal schedule restarts (01 R378). -/
def State.replayFibre (s : State) (wk fid : Nat) : State :=
  match s.parkedFibre wk fid with
  | none => s
  | some (_, f) => s.putFibre wk { f with sleep := .awake, rixLive := true, fresh := true }

/-- The fault of a parked fibre is raised again, with SUB 0x80 OR the walk subcode. -/
def State.unresolveFibre (s : State) (wk fid : Nat) : State :=
  match s.parkedFibre wk fid with
  | none => s
  | some (w, f) =>
    s.raise wk w { f with sleep := .awake }
      { code := .translation, sub := 128 ||| f.parkSub, addr := f.taddr, replay := false } f.rix false f.trappc f.pc

/-- RESOLUTION_LIMIT_EXPIRY: the tenant's resolution limit has passed for a parked fibre. -/
def execResolutionLimitExpiry (wk fid : Nat) (s : State) : Out :=
  .next (match s.parkedFibre wk fid with
    | none => s
    | some (w, _) => if (s.tenant w.tenant).resolveLimit = 0 then s else s.unresolveFibre wk fid)

/-- Changes the stalled command of a channel, at its head or, for a reduction, at a slice. -/
def State.onStalled (s : State) (core ch : Nat) (g : CCmd → CCmd) : State :=
  let hit (c : CCmd) : Bool := c.stalled.isSome && !c.failed
  let s := { s with slices := s.slices.each fun _ c => if hit c && c.chan == ch && c.core s == core then g c else c }
  match s.chan core ch with
  | [] => s
  | c :: q => if hit c then s.setChan core ch (g c :: q) else s

/-- Replays what is parked or stalled at a place. -/
def State.replay (s : State) (p : Sys2Proof.Parked) : State :=
  match p with
  | .fibre wk fid => s.replayFibre wk fid
  | .channel core ch => s.onStalled core ch fun c => { c with stalled := none }
  | .matrix wk => s.updWg wk fun w => { w with
      mq := match w.mq with
        | c :: q => (if c.failed then c else { c with stalled := none }) :: q
        | [] => [] }
  | .caddy die n =>
    match (s.caddyOf die).moves[n]? with
    | some m => if m.failed then s else (s.setMove die n (some { m with stalled := none })).serveCaddy die
    | none => s

/-- Declares what is parked or stalled at a place unresolved. -/
def State.unresolve (s : State) (p : Sys2Proof.Parked) : State :=
  match p with
  | .fibre wk fid => s.unresolveFibre wk fid
  | .channel core ch => s.onStalled core ch fun c => { c with failed := true }
  | .matrix wk => s.updWg wk fun w => { w with
      mq := match w.mq with
        | c :: q => (if c.stalled.isSome then { c with failed := true } else c) :: q
        | [] => [] }
  | .caddy die n =>
    match (s.caddyOf die).moves[n]? with
    | some m => if m.stalled.isNone then s else s.setMove die n (some { m with failed := true })
    | none => s

end Sys2Proof.Machine
end

