-- ==== Sys2Proof/Machine/Kettle.lean ====
section
/-! DEFINITION. Kettle's own steps: submission and cancel records, the iteration boundary, admission, plans, iteration
blocks, templates, and the watches and polls of its words (14 R262 to R272, R279 to R281; 16 R295). -/

namespace Sys2Proof.Machine

/-! ## Submission queues (R262, R263, R281) -/

/-- SUBMISSION_TAIL_FIRE: the watch on a TAIL word has fired. -/
def execSubmissionTailFire (q : Nat) (s : State) : Out :=
  .next (match s.kqueues.find q with
    | none => s
    | some r =>
      let z := refreshRing s r (.kettleTail q)
      { z.2 with kqueues := z.2.kqueues.put q z.1 })

/-- The queue whose head record Kettle consumes next, with the turn afterwards; none while the table is full or
admission is held (21 R368). -/
def State.nextRecord (s : State) : Option (Nat × Nat × Nat) :=
  if s.fw.hold || 16384 ≤ s.kslots.length then none
  else takeTurn (fun q => ((s.kqueues.find q).map (·.hasMore)).getD false) s.kettlePtr s.kettleTurn

/-- The head record of a queue, or what a read that fails has done. -/
def headRecord (s : State) (r : Ring) : Except State (List Byte × State) :=
  s.cleanRead r.tenant (BitVec.ofNat 64 (r.base.toNat + 128 * (r.taken.toNat % r.ent))) 128

/-- A record has been consumed: HEAD := HEAD + 1 as a release, and the turn goes on. A write of HEAD that fails is dropped:
R263 gives no answer to it (DESIGN CHOICE, log 102). -/
def State.consumed (s : State) (q : Nat) (r : Ring) (turn : Nat × Nat) : State :=
  let head := r.taken + 1
  let s := s.agentPutOr r.tenant r.head.toNat (leBytes 4 head.toNat) .release
  { s with kqueues := s.kqueues.put q { r with taken := head }, kettlePtr := turn.1, kettleTurn := turn.2 }

/-- OP of a record. -/
def recordOp (b : List Byte) : Nat := bitsN (wordAt b 0).toNat 0 8

/-- CTL of a record has a nonzero reserved bit. -/
def ctlBad (b : List Byte) : Bool := bitsN (wordAt b 0).toNat 24 8 != 0 || bitsN (wordAt b 0).toNat 10 6 != 0

/-- RING and RINGN of a record are valid (R264). -/
def ringOk (b : List Byte) : Bool :=
  let n := (wordAt b 0x60).toNat
  (dwordAt b 0x58).toNat % 128 == 0 && 2 ≤ n && n ≤ 65536 && 2 ^ Nat.log2 n == n

/-- Finite and greater than 0. -/
def posFinite (x : Word) : Bool := 0 < x.toNat && x.toNat < 0x7F800000

/-- The checks of R264 on a submit record of a function. The program of 16 R296 submits requests beyond MAXP × PT, which R264
refuses (DEDUCED, log 96). -/
def submitBad (s : State) (vf : Nat) (b : List Byte) : Bool :=
  let ctl := (wordAt b 0).toNat
  let model := bitsN ctl 16 8
  let smode := (wordAt b 0x28).toNat
  let mode := bitsN smode 0 2
  let rep := (wordAt b 0x64).toNat
  let plen := (wordAt b 0x10).toNat
  let maxt := (wordAt b 0x14).toNat
  let nodes := (wordAt b 0x68).toNat
  match s.kmodels.find model with
  | none => true
  | some m =>
    let pt := 2 ^ ((s.modelAt model).map (·.ptl)).getD 0
    recordOp b != 1 || ctlBad b || m.tenant != vf || fieldBad (dwordAt b 8) 4 || plen < 1 || 16777216 < plen ||
      maxt < 1 || 16777216 < maxt || m.par.maxp * pt < plen + maxt + nodes || smode / 65536 != 0 || bitsN smode 2 6 != 0 ||
      (mode == 2 && (bitsN smode 8 8 < 1 || 64 < bitsN smode 8 8)) || !posFinite (wordAt b 0x2C) ||
      (mode == 3 && (!posFinite (wordAt b 0x30) || 0x3F800000 < (wordAt b 0x30).toNat)) ||
      8 < (wordAt b 0x34).toNat || !ringOk b || fieldBad (dwordAt b 0x58) 128 || bitsN rep 16 15 != 0 || bitsN rep 6 2 != 0 ||
      (bitN rep 31 && (bitsN rep 8 8 < 1 || 16 < bitsN rep 8 8 || bitsN rep 0 6 < 4)) || 63 < nodes ||
      ((b.drop 0x70).any fun x => x != 0) || (bitN ctl 8 && !m.par.exactok)

/-- The table entry that an accepted record makes. -/
def newSlot (vf serial : Nat) (b : List Byte) : KSlot :=
  let ctl := (wordAt b 0).toNat
  let smode := (wordAt b 0x28).toNat
  let rep := (wordAt b 0x64).toNat
  { state := .waiting, vf := vf, model := bitsN ctl 16 8, tag := wordAt b 4, prompt := dwordAt b 8
    plen := (wordAt b 0x10).toNat, maxt := (wordAt b 0x14).toNat, ttft := (wordAt b 0x18).toNat
    itl := (wordAt b 0x1C).toNat, seed := dwordAt b 0x20, mode := bitsN smode 0 2, topk := bitsN smode 8 8
    itemp := wordAt b 0x2C, topp := wordAt b 0x30
    stops := (List.range (wordAt b 0x34).toNat).map fun k => wordAt b (0x38 + 4 * k), ring := dwordAt b 0x58
    ringn := (wordAt b 0x60).toNat, rep := bitN rep 31, repN := bitsN rep 8 8, repW := bitsN rep 0 6, repact := bitN ctl 9
    nodes := (wordAt b 0x68).toNat, seqid := wordAt b 0x6C, exact := bitN ctl 8, serial := serial, done := 0, g := 0
    lastTok := 0, home := 0, admitTick := 0, commitTick := 0, stalled := false, held := none, mute := false
    parkedFor := 0, parkEvent := false, parkedNow := false, committed := 0, cancel := false, soft := none
    consRoom := false, consPolled := false, det := { window := [], skip := 0, hist := [], run := 0, last := 0 } }

/-- A refused record: one entry with reason REFUSED, or a firmware event (R264). -/
def refuse (s : State) (vf : Nat) (b : List Byte) : State :=
  let event := s.emit (.tagEvent (wordAt b 4))
  if ringOk b then
    match ringTry s vf (dwordAt b 0x58) (wordAt b 0x60).toNat (endEntry 7 0) with
    | (.written, s) => s
    | (_, s) => s.emit (.tagEvent (wordAt b 4))
  else event

/-- SUBMIT_RECORD: Kettle consumes the head record of the queue in turn, a cancel record apart. -/
def execSubmitRecord (q : Nat) (s : State) : Out :=
  .next (match s.nextRecord, s.kqueues.find q with
    | some (k, turn), some r =>
      if k ≠ q then s
      else
        match headRecord s r with
        | .error s => (s.consumed q r turn).emit (.refused "submission record")
        | .ok (b, s) =>
          if recordOp b = 2 then s
          else
            let s := s.consumed q r turn
            if submitBad s r.tenant b then refuse s r.tenant b
            else
              (({ s with kserial := s.kserial + 1 }).setSlot (s.kslots.freeFrom 16384 0)
                (newSlot r.tenant s.kserial b)).wakeModels
    | _, _ => s)

/-- A request is live (R264). -/
def KSlot.live (k : KSlot) : Bool := k.state != .drain

/-- CANCEL_RECORD: a cancel record is consumed; it applies to every live request of the function with its TAG. -/
def execCancelRecord (q : Nat) (s : State) : Out :=
  .next (match s.nextRecord, s.kqueues.find q with
    | some (k, turn), some r =>
      if k ≠ q then s
      else
        match headRecord s r with
        | .error s => s
        | .ok (b, s) =>
          if recordOp b ≠ 2 then s
          else
            let s := s.consumed q r turn
            if ctlBad b then s.emit (.tagEvent (wordAt b 4))
            else
              ({ s with kslots := s.kslots.each fun _ k =>
                  if k.vf = r.tenant ∧ k.tag = wordAt b 4 ∧ k.live = true then { k with cancel := true } else k }).wakeModels
    | _, _ => s)

/-- CONS_WATCH_FIRE: the watch on the CONS of a slot's ring has fired; the entry is written at the next boundary. -/
def execConsWatchFire (slot : Nat) (s : State) : Out :=
  .next (match s.watchOf (.kettleCons slot), s.kslots.find slot with
    | some (_, x), some k =>
      if x.fired then ((s.unwatch (.kettleCons slot)).setSlot slot { k with consRoom := true }).wakeModels else s
    | _, _ => s)

/-- PARK_LIMIT (R279): a slot has stayed parked for PARKLIM iterations of its model. -/
def execParkLimit (slot : Nat) (s : State) : Out :=
  .next (match s.kslots.find slot with
    | none => s
    | some k =>
      let lim := ((s.kmodels.find k.model).map (·.par.parklim)).getD 0
      if k.state = .deliveryWait ∧ lim ≤ k.parkedFor ∧ k.parkEvent = false then
        (s.setSlot slot { k with parkEvent := true }).emit (.parkEvent slot k.tag)
      else s)

/-! ## Polled words (R281) -/

/-- A polled CONS is read: what it shows is acted on as a firing would be, and an entry is tried for again. -/
def pollCons (s : State) (n : Nat) (k : KSlot) : State :=
  if !k.consPolled then s
  else
    let try_ (s : State) : State := if k.consRoom then s else (s.setSlot n { k with consRoom := true }).wakeModels
    match s.agentWord k.vf k.ring.toNat with
    | .error (_, s) => try_ s
    | .ok (prod, s) =>
      match s.agentWord k.vf (k.ring.toNat + 0x40) with
      | .error (_, s) => try_ s
      | .ok (cons, s) =>
        let room := k.consRoom || (prod - cons).toNat != k.ringn
        let s := match s.watchWord k.vf (k.ring.toNat + 0x40) cons (.kettleCons n) with
          | .ok s => s.setSlot n { k with consPolled := false, consRoom := room }
          | .error s => s.setSlot n { k with consRoom := room }
        if room && !k.consRoom then s.wakeModels else s

/-- Reads every polled word: the TAIL of the rings, and CONS of parked and draining slots of every model, whose entries
are tried at the next boundary of their model. -/
def State.pollWords (s : State) : State :=
  let s := s.kqueues.keys.foldl (fun s q =>
    match s.kqueues.find q with
    | none => s
    | some r =>
      let z := pollRing s r (.kettleTail q)
      { z.2 with kqueues := z.2.kqueues.put q z.1 }) s
  let s := s.hostQueues.keys.foldl (fun s q =>
    match s.hostQueues.find q with
    | none => s
    | some r =>
      let z := pollRing s r (.launchQueue q)
      { z.2 with hostQueues := z.2.hostQueues.put q z.1 }) s
  let s := s.kslots.keys.foldl (fun s n =>
    match s.kslots.find n with
    | none => s
    | some k => pollCons s n k) s
  { s with lastPoll := s.cycles }

/-- POLL_TIMER: 16 µs have passed since the polled words were read. -/
def execPollTimer (s : State) : Out :=
  .next (if 16 ≤ Config.microsOf (s.cycles - s.lastPoll) then s.pollWords else s)

/-! ## The boundary (R264, R269, R277, R279, R280) -/

/-- The slots of a model, in ascending order. -/
def State.slotsOf (s : State) (model : Nat) : List Nat := (s.kslots.filter fun e => e.2.model == model).map (·.1)

/-- Applies a change to each slot of a model. -/
def State.eachSlot (s : State) (model : Nat) (g : State → Nat → KSlot → State) : State :=
  (s.slotsOf model).foldl (fun s n =>
    match s.kslots.find n with
    | none => s
    | some k => if k.model = model then g s n k else s) s

/-- A cancel, or a `seqstop`, that takes effect at the boundary. -/
def applyEnd (s : State) (n : Nat) (k : KSlot) : State :=
  if !k.live then s
  else if k.cancel then toDrain s n k (some (endEntry 4 0))
  else
    match k.soft with
    | some code => if k.state = .waiting then s else toDrain s n k (some (endEntry 6 code))
    | none => s

/-- A held or final entry whose ring may have room. -/
def applyRoom (s : State) (n : Nat) (k : KSlot) : State :=
  let fired := ((s.watchOf (.kettleCons n)).map fun e => e.2.fired).getD false
  if k.consRoom || k.consPolled || fired then
    match k.state with
    | .deliveryWait => unpark s n k
    | .drain => drainSlot s n k
    | _ => s
  else s

/-! ## Admission and pages (R267, R268) -/

/-- The entry e of a slot's block table lies here. -/
def tableAddr (m : KModel) (n e : Nat) : Nat := (m.par.kvt.toNat + 4 * (m.par.maxp * n + e)) % 2 ^ 56

/-- The free HBM4 pages of each die. -/
def State.freePages (s : State) : List (Nat × Nat) := (List.range 4).map fun d => (d, (s.caddyOf d).freePages)

/-- Takes n pages on a die for a slot. -/
def takePages (die ten model : Nat) : Nat → State → List Word × State
  | 0, s => ([], s)
  | k + 1, s =>
    match s.allocPage die ten model 0 false with
    | none => ([], s)
    | some (i, s) =>
      let r := takePages die ten model k s
      (pageId die i :: r.1, r.2)

/-- Admits one WAITING request, if it fits. Where its block table cannot be written, the request is admitted all the same:
R267 does not say what follows (DESIGN CHOICE, log 104). -/
def admitOne (m : KModel) (pt : Nat) (s : State) (n : Nat) (k : KSlot) : Option State :=
  let need := ceilDiv (k.plen + 1 + k.nodes) pt
  if s.kslots.vals.any (·.stalled) then none
  else
    (bestBy (fun a b => b.2 < a.2) (s.freePages.filter fun d => need + m.par.hr < d.2)).map fun d =>
      let r := takePages d.1 k.vf k.model need s
      let ids := r.1 ++ List.replicate (m.par.maxp - r.1.length) 0xFFFFFFFF
      let s := r.2.agentPutOr k.vf (tableAddr m n 0) (ids.flatMap fun x => leBytes 4 x.toNat) .plain
      s.setSlot n { k with state := .prefill, home := d.1, admitTick := s.tick }

/-- Inserts by order of consumption. -/
def insertSerial (x : Nat × KSlot) : List (Nat × KSlot) → List (Nat × KSlot)
  | [] => [x]
  | y :: ys => if x.2.serial < y.2.serial then x :: y :: ys else y :: insertSerial x ys

/-- The slots of a model in a state, in order of consumption. -/
def State.inOrder (s : State) (model : Nat) (st : SlotState) : List (Nat × KSlot) :=
  (s.kslots.filter fun e => e.2.model == model && e.2.state == st).foldr insertSerial []

/-- Admits in order of consumption, and stops at the first that does not fit. -/
def admitList (m : KModel) (pt : Nat) : List (Nat × KSlot) → State → State
  | [], s => s
  | (n, k) :: ks, s =>
    match admitOne m pt s n k with
    | none => s
    | some s => admitList m pt ks s

/-- Automatic eviction runs before Kettle takes a page (R268): to the end of its moves. -/
def State.evictFirst (s : State) (die : Nat) : State :=
  let s := (s.autoEvict die).serveCaddy die
  finishEvictions die (s.caddyOf die).moves.length s

/-- Fills the empty entries of a slot's table up to entry e (fuel): false when a page cannot be had. An entry that cannot
be written keeps its value, and the next iteration tries again (DESIGN CHOICE, log 104). -/
def fillTable (m : KModel) (n : Nat) (k : KSlot) : Nat → Nat → State → Bool × State
  | 0, _, s => (true, s)
  | fuel + 1, e, s =>
    match s.agentWord k.vf (tableAddr m n e) with
    | .error (_, s) => (false, s)
    | .ok (x, s) =>
      if x ≠ 0xFFFFFFFF then fillTable m n k fuel (e + 1) s
      else
        let s := s.evictFirst k.home
        match s.allocPage k.home k.vf k.model 0 false with
        | none => (false, s)
        | some (i, s) =>
          fillTable m n k fuel (e + 1) (s.agentPutOr k.vf (tableAddr m n e) (leBytes 4 (pageId k.home i).toNat) .plain)

/-- Position of the token that a DECODE sequence processes next (R265). -/
def KSlot.pos (k : KSlot) : Nat := k.plen + k.g - 1

/-- Makes sure the table of a DECODE sequence covers its positions; the sequence is STALLED otherwise (R268). -/
def coverSlot (m : KModel) (pt : Nat) (s : State) (n : Nat) (k : KSlot) : State :=
  let r := fillTable m n k ((k.pos + k.nodes) / pt + 1) 0 s
  r.2.setSlot n { k with stalled := !r.1 }

/-! ## The plan (R269, R270) -/

/-- The deadline of a sequence (R269). -/
def KSlot.deadline (k : KSlot) : Option Nat :=
  if k.state = .prefill then (if k.ttft = 0 then none else some (k.admitTick + k.ttft))
  else if k.itl = 0 then none else some (k.commitTick + k.itl)

/-- Earlier deadline first, none last. -/
def sooner (a b : Option Nat) : Bool :=
  match a, b with
  | some x, some y => x < y
  | some _, none => true
  | none, _ => false

/-- Inserts by deadline; equal deadlines keep ascending slots. -/
def insertDeadline (x : Nat × KSlot) : List (Nat × KSlot) → List (Nat × KSlot)
  | [] => [x]
  | y :: ys => if sooner y.2.deadline x.2.deadline then y :: insertDeadline x ys else x :: y :: ys

/-- A planned sequence: its entry, its deadline and its input records. -/
structure Planned where
  e : PlanEntry
  deadline : Option Nat
  recs : List (Word × Nat)
  deriving DecidableEq, Repr

/-- A DECODE sequence in the plan. -/
def planDecode (n : Nat) (k : KSlot) : Planned :=
  { e := { slot := n, kind := if k.nodes = 0 then 0 else 3, ndraft := k.nodes, pos := k.pos, ntok := 1 + k.nodes, tokin := 0 }
    deadline := k.deadline
    recs := (k.lastTok, k.pos) :: (List.range k.nodes).map fun i => (0xFFFFFFFF, k.pos + 1 + i) }

/-- The address of the first of c prompt tokens that cannot be read. -/
def badToken (s : State) (ten a : Nat) : Nat → Nat × State
  | 0 => (a, s)
  | c + 1 =>
    match s.agentWord ten a with
    | .error (_, s) => (a, s)
    | .ok (_, s) => badToken s ten (a + 4) c

/-- A PREFILL sequence in the plan, with c tokens of its prompt. -/
def planChunk (n : Nat) (k : KSlot) (c : Nat) (toks : List Word) : Planned :=
  { e := { slot := n, kind := if k.done + c = k.plen then 2 else 1, ndraft := 0, pos := k.done, ntok := c, tokin := 0 }
    deadline := k.deadline
    recs := toks.zipIdx.map fun t => (t.1, k.done + t.2) }

/-- The chunks that the budget gives to the PREFILL sequences. A chunk that cannot be read ends its sequence, and its
budget is not given to another. -/
def planPrefill (m : KModel) : List (Nat × KSlot) → Nat → State → List Planned × State
  | [], _, s => ([], s)
  | (n, k) :: ks, budget, s =>
    if budget = 0 then ([], s)
    else
      let c := min (min (k.plen - k.done) m.par.chunk) budget
      let a := k.prompt.toNat + 4 * k.done
      match s.cleanRead k.vf (BitVec.ofNat 64 a) (4 * c) with
      | .ok (b, s) =>
        let r := planPrefill m ks (budget - c) s
        (planChunk n k c (wordsOf b c) :: r.1, r.2)
      | .error s =>
        let bad := badToken s k.vf a c
        let s := bad.2.emit (.tokenEvent n k.tag (BitVec.ofNat 64 bad.1))
        planPrefill m ks (budget - c) (toDrain s n k (some (endEntry 5 0)))

/-- Gives each entry the index of its first input record. -/
def numberPlan : Nat → List Planned → List Planned
  | _, [] => []
  | t, p :: ps => { p with e := { p.e with tokin := t } } :: numberPlan (t + p.e.ntok) ps

/-- Groups of n entries (fuel). -/
def groupsOf (n : Nat) : Nat → List Planned → List (List Planned)
  | 0, _ => []
  | fuel + 1, l => if l.isEmpty then [] else l.take n :: groupsOf n fuel (l.drop n)

/-- SLK of a group (R269). -/
def groupSlack (now ovh : Nat) (g : List Planned) : Nat :=
  match (g.filterMap (·.deadline)).min? with
  | none => 0xFFF
  | some d => min 0xFFE (d - now - ovh)

/-- The iteration block of Table 14-5. -/
def blockBytes (model : Nat) (m : KModel) (groups : List (List Planned)) : List Byte :=
  let all := groups.flatten
  let ntok := (all.map fun p => p.e.ntok).sum
  leBytes 4 m.iter.toNat ++ leBytes 4 all.length ++ leBytes 4 ntok ++ leBytes 4 groups.length ++ leBytes 8 m.par.kvt.toNat ++
    leBytes 4 m.par.maxp ++ leBytes 4 model ++ List.replicate 32 0 ++
    (groups.flatMap fun g => groupBytes (g.map (·.e))) ++
    all.flatMap fun p => p.recs.flatMap fun r => leBytes 4 r.1.toNat ++ leBytes 4 r.2

/-! ## The template (R271, R272) -/

/-- The limits of Table 14-6 on entry f. -/
def entryBad (f : Nat) (b : List Byte) : Bool :=
  let grid := (wordAt b 0x10).toNat
  let pred := wordAt b 0x14
  fieldBad (dwordAt b 0) 128 || fieldBad (dwordAt b 8) 8 || grid / 65536 == 0 || bitsN grid 2 14 != 0 ||
    dwordAt b 0x18 != 0 || ((List.range 32).any fun i => f ≤ i && bit pred i) ||
    4 < ((List.range 32).filter fun i => bit pred i).length

/-- The entries of a template, or the number of the first that breaks a limit or cannot be read. -/
def readTemplate (s : State) (m : KModel) : Nat → Nat → Except (Nat × State) (List (List Byte) × State)
  | 0, _ => .ok ([], s)
  | n + 1, f =>
    match s.cleanRead m.tenant (m.par.tmpl + BitVec.ofNat 64 (32 * f)) 32 with
    | .error s => .error (f, s)
    | .ok (b, s) =>
      if entryBad f b then .error (f, s)
      else
        match readTemplate s m n (f + 1) with
        | .error e => .error e
        | .ok (bs, s) => .ok (b :: bs, s)

/-- The first dimension of the grid by an entry's rule; none keeps the card's. -/
def gridRule (grid : Nat) (ngroup ntok nseq : Nat) : Option Nat :=
  match grid % 4 with
  | 0 => none
  | 1 => some ngroup
  | 2 => some (ceilDiv ntok (grid / 65536))
  | _ => some nseq

/-- Launches the entries of an iteration in ascending order. Where the block's address cannot be written to ARGS + 0, the
card is launched all the same: R272 does not say what follows (DESIGN CHOICE, log 90). -/
def launchEntries (model : Nat) (m : KModel) (ib : DWord) (counts : Nat × Nat × Nat) (slack : Nat) :
    List (List Byte) → List Nat → State → State
  | [], _, s => s
  | b :: bs, ids, s =>
    let grid := (wordAt b 0x10).toNat
    let pred := wordAt b 0x14
    let preds := ((List.range 32).filter fun i => bit pred i).map fun i => BitVec.ofNat 32 (ids.getD i 0xFFFFFFFF)
    let s := s.agentPutOr m.tenant (dwordAt b 8).toNat (leBytes 8 ib.toNat) .plain
    let id := 0x80 * 16777216 + s.qcount.getD 0x80 0 % 16777216
    -- the launch stands among those of the iteration before it is accepted, since it may end at once
    let s := { s with kmodels := s.kmodels.upd model fun m => { m with running := m.running ++ [id] } }
    let r := s.accept { qid := 0x80, tenant := m.tenant, card := dwordAt b 0, gridx := 0, gridy := 0
                        gx := gridRule grid counts.1 counts.2.1 counts.2.2, posted := none
                        kettle := some (model, ib, grid % 4 == 1), slack := some (BitVec.ofNat 12 slack)
                        preds := some (preds ++ List.replicate (4 - preds.length) 0xFFFFFFFF) }
    launchEntries model m ib counts slack bs (ids ++ [id]) r.2

/-- The status with which a launch that ended at acceptance ended. -/
def State.endedAs (s : State) (id : Nat) : Option Nat :=
  match s.launch id with
  | some _ => none
  | none => (s.ended.reverse.find? fun e => e.id == id).map (·.status)

/-- The launches of an iteration that ended at acceptance are settled once all have been made. -/
def settleEntries (model : Nat) (s : State) : State :=
  match s.kmodels.find model with
  | none => s
  | some m => m.running.foldl (fun s id =>
      match s.endedAs id with
      | none => s
      | some st => kettleEnded s model id st) s

/-! ## ITERATION_FORM -/

/-- A model that may form an iteration: none is in progress, and there is a reason to look at the plan. -/
def KModel.ready (m : KModel) : Bool := !m.busy && m.wake

/-- The first part of the procedure: cancels, entries, admission, coverage. -/
def boundary (model : Nat) (m : KModel) (pt : Nat) (s : State) : State :=
  let s := s.pollWords
  let s := s.eachSlot model applyEnd
  let s := s.eachSlot model applyRoom
  let s := s.eachSlot model fun s n k => s.setSlot n { k with committed := 0, parkedNow := false }
  let s := if s.fw.hold then s else admitList m pt (s.inOrder model .waiting) s
  s.eachSlot model fun s n k => if k.state = .decode then coverSlot m pt s n k else s

/-- The second part: the block, the template, the launches. Where the iteration block cannot be written, the template is
launched all the same: R270 does not say what follows (DESIGN CHOICE, log 90). -/
def runPlan (model : Nat) (m : KModel) (now : Nat) (plan : List Planned) (s : State) : State :=
  let groups := groupsOf m.par.gsize plan.length (numberPlan 0 plan)
  let slk := groups.map (groupSlack now m.par.ovh)
  let m := { m with iter := m.iter + 1, busy := true, plan := groups.map fun g => g.map (·.e), slk := slk, running := [],
                    wake := false }
  let s := { s with kmodels := s.kmodels.put model m }
  let s := s.eachSlot model fun s n k =>
    if k.state = .deliveryWait then s.setSlot n { k with parkedFor := k.parkedFor + 1 } else s
  let ib := if m.iter.toNat % 2 = 1 then m.par.ib0 else m.par.ib1
  let s := s.agentPutOr m.tenant ib.toNat (blockBytes model m groups) .plain
  let s := { s with pageClock := s.pageClock + 1 }
  match readTemplate s m m.par.ntmpl 0 with
  | .error (f, s) => endIteration (failPlan model m.slots (s.emit (.modelEvent model f))) model m
  | .ok (bs, s) =>
    let counts := (groups.length, (plan.map fun p => p.e.ntok).sum, plan.length)
    settleEntries model (launchEntries model m ib counts (slk.foldl min 0xFFF) bs [] s)

/-- ITERATION_FORM: an iteration boundary of a model (R269). -/
def execIterationForm (model : Nat) (s : State) : Out :=
  .next (match s.kmodels.find model with
    | none => s
    | some m =>
      if !m.ready then s
      else
        let pt := 2 ^ ((s.modelAt model).map (·.ptl)).getD 0
        let now := s.tick
        -- what happens during the pass may call for another one
        let s := { s with kmodels := s.kmodels.put model { m with wake := false } }
        let s := boundary model m pt s
        let dq := ((s.inOrder model .decode).filter fun e => !e.2.stalled)
        let dq := ((s.kslots.filter fun e => dq.contains e).foldr insertDeadline []).map fun e => planDecode e.1 e.2
        let r := planPrefill m (s.inOrder model .prefill) (m.par.tb - (dq.map fun p => p.e.ntok).sum) s
        let plan := dq ++ r.1
        if plan.isEmpty then r.2 else runPlan model m now plan r.2)

end Sys2Proof.Machine
end

