-- ==== Sys2Proof/Machine/Wake.lean ====
section
/-! DEFINITION. When a fibre may issue, and when a sleeping fibre's wait has ended (09 R187, R191, R197; 18 R331,
R332). -/

namespace Sys2Proof.Machine

/-- An imprecise fault is taken before the fibre's next instruction. -/
def Fibre.owesTrap (f : Fibre) : Bool :=
  f.atBoundary && f.nextImprecise.isSome

/-- The fibres of a core can issue: neither its clock nor its die is off. -/
def State.coreRuns (s : State) (core : Nat) : Bool :=
  !(s.core core).gated && !(s.core core).inReset && !(s.cluster (clusterOf core)).inReset && !s.dieDown (dieOf core)

/-- A fibre may go on as its workgroup stands: while the workgroup stops, with the word that it is in (18 R324, R327); in
the cycle of the fatal fault, like the fibre at fault, with the word that it issues in that cycle (18 R324). -/
def Workgroup.letsIssue (w : Workgroup) (now : Nat) (f : Fibre) : Bool :=
  match w.run with
  | .resident => true
  | .stopping => f.midWord
  | .dying x =>
    !w.stored && (f.midWord || (x.cycle == now && !((x.kind == 0 && x.fid == f.fid) ||
      w.faults.any fun y => y.fid == f.fid)))
  | _ => false

/-- A fibre is ready to issue its next instruction. After a restart of the nominal schedule it first waits for every
register result in flight (01 R378). -/
def State.ready (s : State) (wk : Nat) (w : Workgroup) (f : Fibre) : Bool :=
  w.letsIssue s.cycles f && !f.spilled && f.yieldUntil ≤ s.cycles && !f.owesTrap && (!f.fresh || f.busy.isEmpty) &&
    s.coreRuns w.core && s.wakes wk w f

/-- Cycles until the slice slot of a fibre of a deterministic launch comes round; a fibre issues once in its slot (04
R76, R83). -/
def Fibre.slotWait (f : Fibre) (now t0 : Nat) : Nat :=
  let k := (8 * (f.lane % 4) + f.slot + 32 - (now - t0) % 32) % 32
  if k = 0 ∧ now < f.issuedAt then 32 else k

/-- Cycles that a fibre must let pass before it may issue: none outside deterministic mode. -/
def State.turnOf (s : State) (w : Workgroup) (f : Fibre) : Nat :=
  match (s.core w.core).det.find w.launch with
  | some t0 => if w.hdr.det then f.slotWait s.cycles t0 else 0
  | none => 0

/-- The lane of a fibre is free for an L word of it: no pass of another fibre there goes on (04 R77, R81). Only deterministic
mode looks: in it the slots decide who issues when (04 R83), and elsewhere every order is allowed (log 2). -/
def State.laneFree (s : State) (w : Workgroup) (f : Fibre) : Bool :=
  !w.hdr.det || s.wgs.vals.all fun x =>
    x.core != w.core || x.fibres.vals.all fun g => g.lane != f.lane || g.passEnd ≤ s.cycles

/-- Cycles until slot 0 of a deterministic workgroup's core comes round. -/
def State.rotationWait (s : State) (w : Workgroup) : Nat :=
  match (s.core w.core).det.find w.launch with
  | some t0 => (32 - (s.cycles - t0) % 32) % 32
  | none => 0

/-- A fibre may issue its next instruction: it is ready, it has not issued in this cycle (04 R76), and in deterministic mode
its slot is there. -/
def State.mayIssue (s : State) (wk : Nat) (w : Workgroup) (f : Fibre) : Bool :=
  s.ready wk w f && f.issuedAt ≤ s.cycles && s.turnOf w f == 0

/-- The cycles that may pass before a ready fibre of a deterministic launch must issue, if there is one (04 R83). -/
def State.nextTurn (s : State) : Option Nat :=
  (s.wgs.flatMap fun e =>
    if e.2.hdr.det then (e.2.fibres.vals.filter (s.ready e.1 e.2)).map (s.turnOf e.2) else []).min?

end Sys2Proof.Machine
end

