-- ==== Sys2Proof/Machine/Context.lean ====
section
/-! DEFINITION. The context save and restore, the context image, the moves of the commit token, and the saves of
deterministic mode (18 R327 to R336). -/

namespace Sys2Proof.Machine

/-! ## The image (R328 to R330) -/

/-- Bytes padded with zero to n. -/
def padTo (n : Nat) (b : List Byte) : List Byte := b ++ List.replicate (n - b.length) 0

/-- Bytes padded to a multiple of 4 KiB. -/
def pad4k (b : List Byte) : List Byte := padTo (ceilDiv b.length 4096 * 4096) b

/-- SLEEP, SLEEPX and SLEEPA of Table 18-6. -/
def sleepFields (x : Sleep) : Nat × Nat × Nat :=
  let two (k n : Nat) : Nat := k * 268435456 + n % 268435456
  let par (b : Bool) : Nat := if b then 1 else 0
  match x with
  | .bar b p => (two 1 b, par p, 0)
  | .knot k p => (two 2 k, par p, 0)
  | .tkwait a t => (two 3 0, t.toNat, a.toNat)
  | .wwait h => (two 4 0, h.toNat, 0)
  | .bcwait a p => (two 5 0, par p, a.toNat)
  | .pop n => (two 6 n, 0, 0)
  | .push n => (two 7 n, 0, 0)
  | .rows => (two 8 0, 0, 0)
  | .parked => (two 9 0, 0, 0)
  | .cwait _ n => (two 10 n, 0, 0)
  | _ => (0, 0, 0)

/-- The 16 bytes of a port. -/
def Port.bytes (p : Port) : List Byte :=
  padTo 16 (leBytes 4 ((if p.bound then 1 else 0) + (if p.out then 2 else 0) + p.slot % 4 * 4 + p.allow % 16 * 256))

/-- A watch entry of a fibre record. -/
def watchBytes (s : State) (h : Nat) : List Byte :=
  leBytes 4 h ++ leBytes 4 (match s.watches.find h with
    | some x => 1 + (if x.fired then 2 else 0)
    | none => 0)

/-- The value that a fired watch saw. -/
def watchValue (s : State) (h : Nat) : List Byte := leBytes 8 (((s.watches.find h).map fun x => x.value.toNat).getD 0)

/-- A row of 16 words. -/
def rowBytes (r : Vector Word 16) : List Byte := r.toList.flatMap fun x => leBytes 4 x.toNat

/-- A fibre record, with the rows that follow it. -/
def fibreBytes (s : State) (f : Fibre) : List Byte :=
  let sl := sleepFields f.sleep
  let rows := stackRows f.depth
  let bits8 (v : Vector Bool 8) : Nat := (List.range 8).foldl (fun n k => n + if vget v k false then 2 ^ k else 0) 0
  leBytes 8 f.pc.toNat ++ leBytes 4 f.fstat.toNat ++ leBytes 4 f.fctl.toNat ++ leBytes 4 (f.depth * 65536 + f.win) ++
  leBytes 4 (f.rotb % 32 * 256 + f.rots) ++ leBytes 4 f.divd ++ leBytes 4 f.slack.toNat ++ leBytes 4 f.latec.toNat ++
  leBytes 4 (1024 + 64 * (f.win + rows)) ++ leBytes 8 f.retc.toNat ++ leBytes 8 f.trappc.toNat ++
  leBytes 4 f.tcause.toNat ++ leBytes 4 f.fid ++ leBytes 8 f.taddr.toNat ++
  leBytes 4 (f.exitMask.toNat * 65536 + f.active.toNat) ++ leBytes 4 (bits8 f.c / 2 * 2) ++
  ((List.range 7).flatMap fun k => leBytes 2 (vget f.p (k + 1) 0).toNat) ++ leBytes 2 0 ++
  leBytes 4 sl.1 ++ leBytes 4 sl.2.1 ++ leBytes 8 sl.2.2 ++ leBytes 4 (f.rv.toNat * 65536 + f.rp.toNat) ++
  leBytes 4 (if f.popped.isEmpty then 0 else 1) ++ leBytes 4 ((f.popped.vals.head?.map (·.toNat)).getD 0) ++ leBytes 4 0 ++
  (f.ports.toList.flatMap Port.bytes) ++ padTo 64 (f.watches.flatMap (watchBytes s)) ++
  ((List.range 64).flatMap fun k => leBytes 4 (if k = 0 then 0 else (vget f.s k 0).toNat)) ++
  padTo 64 (f.watches.flatMap (watchValue s)) ++ List.replicate 384 0 ++
  ((List.range rows).flatMap fun k => rowBytes (vget f.stack k zeroRow)) ++
  ((List.range f.win).flatMap fun k => rowBytes (vget f.v k zeroRow))

/-- An entry of the named-barrier file. -/
def Bar.bytes (b : Bar) : List Byte :=
  leBytes 4 ((if b.phase then 2 ^ 31 else 0) + b.exp % 64 * 256 + b.arr % 64) ++ leBytes 4 b.wait.toNat ++ leBytes 8 0

/-- A bank: 128 rows of 64 elements. -/
def Bank.bytes (b : Bank) : List Byte := (List.range 8192).flatMap fun k => leBytes 4 (b.elem k).toNat

/-- The 64 bytes of flags, PSN, SCA and SCB of a bank. The order inside them is the model's. -/
def Bank.tail (b : Bank) : List Byte :=
  padTo 64 (leBytes 4 b.report.toNat ++ leBytes 4 b.sca.toNat ++ leBytes 4 b.scb.toNat)

def AccSlot.bytes (x : AccSlot) : List Byte := x.work.bytes ++ x.vis.bytes ++ x.work.tail ++ x.vis.tail

/-- A tree register: a byte for each node. -/
def TreeReg.bytes (t : TreeReg) : List Byte :=
  (List.range 64).map fun n =>
    match t.nodes.find n with
    | some p => BitVec.ofNat 8 (128 + p % 64)
    | none => 0

/-- Engine commands of a workgroup. -/
def Workgroup.commands (w : Workgroup) : Nat := w.mq.length + w.parked.length

/-- The fixed part of an image, with the offsets of its sections. -/
def imageHead (s : State) (w : Workgroup) (offs : List Nat) : List Byte :=
  let mask := (w.fibres.keys.map fun k => 2 ^ k).sum
  let held := (w.trees.keys.map fun k => 2 ^ (k + 4)).sum
  let tok := s.holdsToken w
  let claim : List Byte := match w.claim with
    | some (a, t) => leBytes 8 a.toNat ++ leBytes 4 t.toNat ++ leBytes 4 1
    | none => leBytes 16 0
  let maps := w.maps.flatMap fun m => leBytes 4 m.off ++ leBytes 4 m.len ++ leBytes 8 m.va.toNat
  leBytes 4 0x4B4E4358 ++ leBytes 4 (65536 + w.fibres.length) ++ leBytes 4 w.launch ++ leBytes 4 w.wgid ++ leBytes 4 mask ++
  leBytes 4 (if tok then 2 ^ 31 else 0) ++
  leBytes 8 (if tok then ((s.launch w.launch).map fun l => l.token.p).getD 0 else 0) ++
  leBytes 4 (w.accstk.toNat + held) ++ leBytes 4 w.commands ++ (w.wp.toList.flatMap fun x => leBytes 4 x.toNat) ++ claim ++
  padTo 40 (offs.flatMap fun o => leBytes 8 o) ++ List.replicate 128 0 ++ (w.bars.toList.flatMap Bar.bytes) ++
  ((List.range 4).flatMap fun k =>
    padTo 16 (leBytes 4 ((if (w.krec k).rv then 1 else 0) + (if (w.krec k).rp then 2 else 0)) ++
      leBytes 4 ((w.knotOf k).getD 0))) ++
  padTo 256 maps ++ ((List.range 4).flatMap fun n => ((w.trees.find n).getD TreeReg.clear).bytes) ++ List.replicate 448 0

/-- The image of a workgroup. The spec does not lay out a command's 128 bytes: they are free values. -/
def imageOf (s : State) (w : Workgroup) : List Byte × State :=
  let fib := pad4k (w.fibres.vals.flatMap fun f => fibreBytes s f.settle)
  let scr := pad4k (cellRead w.mem 0 w.extent)
  let slots := pad4k (w.acc.flatMap AccSlot.bytes)
  let scale := pad4k (cellRead w.scale 0 (8192 * w.hdr.accslots))
  let cmds := freeBytes (128 * w.commands) s
  let o1 := 4096
  let o2 := o1 + fib.length
  let o3 := o2 + scr.length
  let o4 := o3 + slots.length
  let o5 := o4 + scale.length
  (pad4k (imageHead s w [o1, o2, o3, o4, o5]) ++ fib ++ scr ++ slots ++ scale ++ cmds.1, cmds.2)

/-! ## CONTEXT_SAVE (R327) -/

/-- Takes the copy-engine commands of a workgroup out of the channels. -/
def State.parkCommands (s : State) (wk : Nat) (w : Workgroup) : State :=
  let x := s.core w.core
  let mine := (x.chans.toList.flatMap id).filter fun c => c.own.wk == wk
  (s.putCore w.core { x with chans := x.chans.map fun q => q.filter fun c => c.own.wk != wk }).updWg wk fun w =>
    { w with parked := mine }

/-- Takes the tree registers that a workgroup holds out of its core. -/
def State.parkTrees (s : State) (wk : Nat) (w : Workgroup) : State :=
  let held := (List.range 4).filter fun n => (s.treeReg w n).holder == some wk
  let s' := s.updWg wk fun w => { w with trees := held.map fun n => (n, s.treeReg w n) }
  s'.freeTrees wk w.core

/-- The overrun of an expiry after one more of its saves (17 R314): it ends with the last. -/
def State.chargeOverrun (s : State) (launch cl : Nat) (k : SliceClock) : SliceClock :=
  match k.overFrom with
  | none => k
  | some e =>
    { k with charge := s.cycles - e, overFrom := if s.stillStopping launch cl then some e else none }

/-- Ticks that a queue's commands have waited, in place of the tick at which they entered it; and back again. -/
def CCmd.rebased (now : Nat) (c : CCmd) : CCmd := { c with tick := now - c.tick }

def MCmd.rebased (now : Nat) (x : MCmd) : MCmd := { x with tick := now - x.tick }

/-- The commands of a workgroup whose waiting stops or starts to count: while it is saved, no queue ages them (07 R139). -/
def Workgroup.rebased (now : Nat) (w : Workgroup) : Workgroup :=
  { w with mq := w.mq.map (MCmd.rebased now), parked := w.parked.map (CCmd.rebased now) }

/-- Saves one workgroup (R327). Its image holds the registers with every result in flight written; what the nominal schedule
still holds back of them goes on after the restore, which changes timing only (01 R28, R378; 18 R331). -/
def State.saveWg (s : State) (wk : Nat) : State :=
  match s.wg wk with
  | none => s
  | some w =>
    if w.run ≠ .stopping then s
    else
      let s := (((s.writeBackAll wk).releaseLines w.core).acquire w.core 3).parkCommands wk w
      let s := s.parkTrees wk w
      match s.wg wk with
      | none => s
      | some w =>
        let r := imageOf s w
        let img : SavedImage := { launch := w.launch, wgid := w.wgid, bytes := r.1 }
        let s := r.2
        let s := { s with images := (s.images.filter fun (i : SavedImage) => !(i.launch == w.launch && i.wgid == w.wgid)) ++ [img] }
        let cl := clusterOf w.core
        let s := s.updWg wk fun w =>
          { w.rebased s.tick with run := .saved, stored := true, residentBefore := w.residentBefore + (s.cycles - w.residentSince) }
        s.updLaunch w.launch fun l => { l with slices := l.slices.upd cl (s.chargeOverrun w.launch cl) }

/-- CONTEXT_SAVE: the stopping unit of workgroup wk has come to rest; its images are written, its cores are free, and
it returns to its input queue (17 R314). The saves of a cycle come before its rounds (17 R310). On a unit that runs, the
step is firmware's request for a save (R327): its workgroups begin to stop (DESIGN CHOICE, log 73). -/
def execContextSave (wk : Nat) (s : State) : Out :=
  .next (match s.wg wk with
    | none => s
    | some w =>
      let ks := s.unitKeys w
      if w.run = .resident then s.stopUnits w.launch [w.unit]
      else if s.mayBeStored w then
        let s := ks.foldl State.saveWg s
        let die := dieOf w.core
        let qid := ((s.launch w.launch).map (·.qid)).getD 0
        s.setQueue die qid (insertSaved { launch := w.launch, unit := w.unit, since := 0, saved := true }
          ((s.placer die).inq.getD qid []))
      else s)

/-! ## CONTEXT_RESTORE (R331) -/

/-- Lanes and slots for fibres in ascending index. -/
def reseat (seats : List (Nat × Nat)) : List (Nat × Fibre) → List (Nat × Fibre)
  | [] => []
  | (k, f) :: fs =>
    match pickLane seats with
    | none => (k, f) :: reseat seats fs
    | some x => (k, { f with lane := x.1, slot := x.2 }) :: reseat (x :: seats) fs

/-- Gives the fibres that are not spilled their new rows. -/
def rebase : List Nat → List (Nat × Fibre) → List (Nat × Fibre)
  | los, (k, f) :: fs =>
    if f.spilled then (k, f) :: rebase los fs
    else
      match los with
      | [] => (k, f) :: rebase [] fs
      | lo :: rest => (k, { f with base := lo + stackRows f.depth }) :: rebase rest fs
  | _, [] => []

/-- Maps the name n to the physical register p, by an exchange. -/
def swapName (m : Vector Nat 4) (n p : Nat) : Vector Nat 4 :=
  let old := vget m n n
  let j := ((List.range 4).find? fun j => vget m j j == p).getD n
  vset (vset m j old) n p

/-- Places the held tree registers of a restored workgroup: the register of the same number where it is free, else
the lowest free one. -/
def placeTrees (wk core : Nat) : List (Nat × TreeReg) → Vector Nat 4 → State → Vector Nat 4 × State
  | [], m, s => (m, s)
  | (n, t) :: ts, m, s =>
    let free (p : Nat) : Bool := (vget (s.core core).tree p TreeReg.clear).holder.isNone
    match (n :: List.range 4).find? free with
    | none => placeTrees wk core ts m s
    | some p =>
      let x := s.core core
      placeTrees wk core ts (swapName m n p) (s.putCore core { x with tree := vset x.tree p t })

/-- Commands re-enter their channels in saved order. -/
def State.unparkCommands (s : State) (core : Nat) (cs : List CCmd) : State :=
  cs.foldl (fun s c => s.setChan core c.chan (s.chan core c.chan ++ [c])) s

/-- Restores one workgroup to a core, which discards its L1 copies, so that no older copy is left for the workgroup to
read (R331: a restore changes timing only; 07 R131, 08 R148). -/
def State.restoreWg (s : State) (wk core : Nat) : State :=
  match s.wg wk with
  | none => s
  | some w =>
    match placeMember (s.runsOf core) (savedNeed w) with
    | none => s
    | some (los, scratch) =>
      let w := w.rebased s.tick
      let fibres := rebase los (reseat (s.seated core) w.fibres)
      let s := s.arrive w.launch core
      let t := placeTrees wk core w.trees (Vector.ofFn fun n => n.val) s
      let s := t.2.unparkCommands core w.parked
      (s.putWg wk { w with core := core, scratchRow := scratch, fibres := fibres, treeAt := t.1, trees := [], parked := []
                           run := .resident, stored := false, residentSince := s.cycles }).acquire core 3

/-- The unit that the next round of a die grants is this saved one: its cores. -/
def State.restorePick (s : State) (wk : Nat) (w : Workgroup) : Option (Candidate × List Nat) :=
  let die := dieOf w.core
  if (s.candidates die).any (s.mustReserve die) || s.exitsDue die then none
  else
    match s.pick die with
    | none => none
    | some (c, cores) =>
      if c.e.saved ∧ c.e.launch = w.launch ∧ c.e.unit = w.unit ∧ (s.savedKeys w.launch w.unit).head? = some wk then
        some (c, cores)
      else none

/-- CONTEXT_RESTORE: the round grants the saved unit whose first workgroup is wk; member m goes to the m-th core. -/
def execContextRestore (wk : Nat) (s : State) : Out :=
  .next (match s.wg wk with
    | none => s
    | some w =>
      match s.restorePick wk w with
      | none => s
      | some (c, cores) =>
        (s.savedKeys w.launch w.unit).foldl (fun t k =>
          match t.wg k with
          | none => t
          | some m => t.restoreWg k (cores.getD m.member m.core)) (s.takeUnit (dieOf w.core) c))

/-! ## The commit token (R333 to R336) -/

/-- TOKEN_PASS: every fibre of the holder sleeps or has ended, and what it issued is performed. -/
def execTokenPass (launch : Nat) (s : State) : Out :=
  .next (match s.launch launch with
    | none => s
    | some l =>
      match l.token.holder with
      | none => s
      | some g =>
        let wk := wgKey launch g
        match s.wg wk with
        | none => s
        | some w =>
          if l.hdr.det && w.run == .resident && s.drained wk w && w.fibres.vals.all (s.asleep wk w) then
            s.passToken wk w w.retired
          else s)

/-- The workgroup that may receive a launch's commit token: the next in turn, resident and quiescent. A workgroup whose fibres
have all ended receives none: it exits, and the token goes on (R334, 19 R340; DEDUCED, log 71). -/
def State.receiver (s : State) (launch : Nat) (l : Launch) : Option Workgroup :=
  if l.hdr.det && l.token.holder.isNone then
    (s.wg (wgKey launch l.token.next)).filter fun w =>
      w.run == .resident && !w.fibres.isEmpty && s.quiescent (wgKey launch l.token.next) w
  else none

/-- TOKEN_RECEIPT: the next workgroup in turn receives the token with an acquire at pkg scope. It comes at the beginning of a
rotation of the workgroup's slots, so that the fibres that stall for it issue in one order in every run (R337; DESIGN
CHOICE, log 2: R334 gives it no cycle). -/
def execTokenReceipt (launch : Nat) (s : State) : Out :=
  .next (match s.launch launch with
    | none => s
    | some l =>
      let wk := wgKey launch l.token.next
      match s.receiver launch l with
      | none => s
      | some w =>
        if s.rotationWait w = 0 then
          ((s.updLaunch launch fun l =>
            { l with token := { l.token with holder := some w.wgid, p := l.token.p + (w.retired - w.published) } }).updWg wk fun w =>
              { w with published := w.retired, atReceipt := w.fibres.map fun e => (e.1, e.2.retc.toNat) }).acquire w.core 3
        else s)

/-- DETERMINISTIC_SAVE (R334): the token waits for a workgroup that is not resident, and every resident workgroup of
the launch is quiescent: the one of highest index is saved, its hitch with it. -/
def execDeterministicSave (launch : Nat) (s : State) : Out :=
  .next (match s.awaited launch with
    | none => s
    | some _ =>
      let rs := s.residents launch
      if rs.all fun e => e.2.run == .resident then
        match bestBy (fun a b => b.2.wgid < a.2.wgid) rs with
        | none => s
        | some e => s.stopUnits launch [e.2.unit]
      else s)

end Sys2Proof.Machine
end

