-- ==== Sys2Proof/Machine/Divergence.lean ====
section
/-! DEFINITION. The divergence stack and its words (04 R85, R86; 05 R116 to R120). -/

namespace Sys2Proof.Machine

/-- A divergence-stack entry (04 Table 4-4). -/
structure StackEntry where
  kind : Bool
  mask : BitVec 16
  pclo : Word
  deriving DecidableEq, Repr

/-- The word of stack entry e: word 0 in strand slot 2 (e mod 8) of row e div 8, word 1 in the next (04 R85). -/
def Fibre.stackWord (f : Fibre) (e k : Nat) : Word := vget (vget f.stack (e / 8) zeroRow) (2 * (e % 8) + k) 0

def Fibre.stackAt (f : Fibre) (e : Nat) : StackEntry :=
  let w1 := f.stackWord e 1
  { kind := bit w1 16, mask := w1.extractLsb' 0 16, pclo := f.stackWord e 0 }

/-- Writes the two words of entry e; reserved bits are zero. -/
def Fibre.putStack (f : Fibre) (e : Nat) (x : StackEntry) : Fibre :=
  let row := vget f.stack (e / 8) zeroRow
  let row := vset row (2 * (e % 8)) (x.pclo &&& 0xFFFFFFFC#32)
  let row := vset row (2 * (e % 8) + 1) (BitVec.ofNat 32 (x.mask.toNat + if x.kind then 65536 else 0))
  { f with stack := vset f.stack (e / 8) row }

/-- The target of an entry: its PCLO under the high half of the PC that uses it (04 R85). -/
def StackEntry.target (x : StackEntry) (pc : DWord) : DWord := pair (x.pclo &&& 0xFFFFFFFC#32) (hiWord pc)

/-- Pushes an entry, or none when DIVD = D (04 R86). -/
def Fibre.push (f : Fibre) (x : StackEntry) : Option Fibre :=
  if f.depth ≤ f.divd then none else some { f.putStack f.divd x with divd := f.divd + 1 }

/-- Unwind of R120: pops entries until a strand is active; none when the stack is empty first. `pc` is that of the
instruction (fuel: DIVD). -/
def unwind (pc : DWord) : Nat → Fibre → Option (Fibre × DWord)
  | 0, _ => none
  | k + 1, f =>
    if f.divd = 0 then none
    else
      let e := f.stackAt (f.divd - 1)
      let m := e.mask &&& ~~~f.exitMask
      let f := { f with divd := f.divd - 1, active := m }
      if m = 0 then unwind pc k f else some (f, e.target pc)

/-- Continues after the mask has been set: on an empty mask the fibre unwinds, and ends when nothing is left. -/
def afterMask (f : Fibre) (s : State) (go : Fibre → State → Res) : Res :=
  if f.active = 0 then
    match unwind f.pc (f.divd + 1) f with
    | none => .ends f s
    | some (g, t) => .jump g s t
  else go f s

/-- The usage of `dmark`, `dbr` and `join`: one pass of 4 cycles whatever the mask (05 R116). -/
def divUse (sc g : BitVec 2) : Use := { lUse sc g [] [] with fixedPass := true }

def stackFull : Trap := trapOf .divstackFull 0 0

/-- `dmark` (05 R117). A target outside selector 0x0 is judged before a full stack: the spec gives no order (DESIGN CHOICE,
log 67). -/
def execLDmark (o : SO) (s : State) : Out :=
  word (divUse o.s 0) noPre (fun _ _ _ f s =>
    let t := branchTarget f.pc o.o
    match targetFault t with
    | some x => .trap f s x 0
    | none =>
      match f.push { kind := true, mask := f.active, pclo := loWord t } with
      | none => .trap f s stackFull 0
      | some g => .done g s) s

/-- The strands of the active mask whose branch predicate is 1 (05 R118). -/
def Fibre.taken (f : Fibre) (g : BitVec 2) : BitVec 16 :=
  (List.range 16).foldl (fun m i => setBit m i (bit f.active i && f.guardP g i)) 0

/-- `dbr` (05 R118). The target is judged first, as for `dmark` (DESIGN CHOICE, log 67). -/
def execLDbr (o : SGO) (s : State) : Out :=
  word (divUse o.s o.g) noPre (fun _ _ _ f s =>
    let t := branchTarget f.pc o.o
    match targetFault t with
    | some x => .trap f s x 0
    | none =>
      let tk := f.taken o.g
      let nt := f.active &&& ~~~tk
      if tk = 0 then .done f s
      else if nt = 0 then .jump f s t
      else
        match f.push { kind := false, mask := tk, pclo := loWord t } with
        | none => .trap f s stackFull 0
        | some g => .done { g with active := nt } s) s

/-- `join` (05 R119). -/
def execLJoin (o : S) (s : State) : Out :=
  word (divUse o.s 0) noPre (fun _ _ _ f s =>
    if f.divd = 0 then .trap f s (trapOf .divstackFull 0x01 0) 0
    else
      let e := f.stackAt (f.divd - 1)
      let t := e.target f.pc
      if e.kind then
        afterMask { f with divd := f.divd - 1, active := e.mask &&& ~~~f.exitMask } s fun g s => .jump g s t
      else if 2 ≤ f.divd ∧ (f.stackAt (f.divd - 2)).kind = true then
        afterMask { f with divd := f.divd - 1, active := e.mask } s fun g s => .jump g s t
      else
        let x : StackEntry := { kind := true, mask := e.mask ||| f.active, pclo := loWord (f.pc + 4) }
        afterMask { f.putStack (f.divd - 1) x with active := e.mask } s fun g s => .jump g s t) s

/-- `exit` (05 R120). -/
def execLExit (o : SG) (s : State) : Out :=
  word (lUse o.s o.g [] []) noPre (fun _ _ act f s =>
    let m := act.foldl (fun m i => setBit m i true) (0 : BitVec 16)
    afterMask { f with active := f.active &&& ~~~m, exitMask := f.exitMask ||| m } s fun g s => .done g s) s

end Sys2Proof.Machine
end

