-- ==== Sys2Proof/Machine/Fabric.lean ====
section
/-! DEFINITION. Packets that arrive at this node's gateways: the target's service, the answers at the source, custody,
and the retries and drops of the links (20 R341, R343, R346 to R352, R354, R356 to R360). -/

namespace Sys2Proof.Machine

/-! ## Numbering and replies (R347, R348) -/

/-- Changes the fabric side. -/
def State.setFabric (s : State) (fb : Fabric) : State := { s with fabric := fb }

/-- A packet that answers or reports: it takes a SEQ and custody, and waits for no answer itself. It inherits the
slack and LATE that the packet it answers has left (R354), and goes back by the personality it came by. -/
def State.replyFab (s : State) (p : Packet) (op : BitVec 6) (aux : Nat) (payload : List Byte) (bad : List Bool) : State :=
  let k := s.queued p.slack p.late
  let s := k.2
  let fb := s.fabric
  let key := p.ddie.toNat * 4096 + p.src.toNat
  let seq := fb.nextSeq.getD key 0
  let q : Packet :=
    { dst := p.src, src := fb.own, ddie := p.sdie, sdie := p.ddie, op := op, slack := k.1.1, late := k.1.2, resent := false
      seq := BitVec.ofNat 24 seq, ctr := 0, part := p.part, addr := p.addr, aux := BitVec.ofNat 32 aux, tag := p.tag
      payload := payload, badSectors := bad, ext := none }
  (s.setFabric { fb with nextSeq := fb.nextSeq.put key ((seq + 1) % 16777216) }).launchPkt q p.ext.isSome

/-- An error notice carries TAG and SEQ of the failed packet (Table 20-3). It answers a packet of the Ultra Ethernet
personality as UET's error completion (R360). -/
def State.errFab (s : State) (p : Packet) (reason : Nat) : State :=
  let k := s.queued p.slack p.late
  let q : Packet :=
    { dst := p.src, src := s.fabric.own, ddie := p.sdie, sdie := p.ddie, op := 0x08, slack := k.1.1, late := k.1.2, resent := false
      seq := p.seq, ctr := 0, part := p.part, addr := p.addr, aux := BitVec.ofNat 32 reason, tag := p.tag, payload := []
      badSectors := [], ext := none }
  k.2.launchPkt q p.ext.isSome

/-- The record of a source: the point below which every packet has arrived, and the marks above it. -/
def RecvRec.advance : Nat → RecvRec → RecvRec
  | 0, r => r
  | k + 1, r =>
    if r.marks.contains r.below then
      RecvRec.advance k { below := (r.below + 1) % 16777216, marks := r.marks.filter (· != r.below) }
    else r

/-- A packet with number n arrives: none when it has arrived before. -/
def RecvRec.take (r : RecvRec) (n : Nat) : Option RecvRec :=
  let d := (n + 16777216 - r.below) % 16777216
  if 8388608 ≤ d ∨ r.marks.contains n = true then none
  else some (RecvRec.advance (r.marks.length + 1) { r with marks := r.marks ++ [n] })

/-- Takes a numbered packet at this node; none when it is for another node, for which there is no route, or a
duplicate. -/
def State.recvFab (s : State) (p : Packet) : Option State × State :=
  if p.dst ≠ s.fabric.own then (none, s.errFab p 0x01)
  else if 4096 < p.payload.length then (none, s.errFab p 0x06)
  else
    let key := p.sdie.toNat * 4096 + p.src.toNat
    match (s.fabric.recv.getD key { below := 0, marks := [] }).take p.seq.toNat with
    | none => (none, s)
    | some r => (some (s.setFabric { s.fabric with recv := s.fabric.recv.put key r }), s)

/-- The gateway hears a packet: its die is up, and so is a port of the personality that carries the packet. -/
def State.hears (s : State) (p : Packet) : Bool :=
  !s.dieDown p.ddie.toNat && !(s.fabric.portsUp p.ddie.toNat p.ext.isSome).isEmpty

/-- A packet as the gateway takes it: one of the Ultra Ethernet personality has its slack and LATE in the Ledun extension
(R360). None for what those ports do not carry (R359), and for an extension of another version (DESIGN CHOICE, log 81). -/
def admitPkt (p : Packet) : Option Packet :=
  match p.ext with
  | none => some p
  | some e =>
    if ueOp p.op then (readExt e).map fun x => { p with slack := x.1, late := x.2 } else none

/-- A packet that this personality does not support is dropped and counted (R359). -/
def State.dropPkt (s : State) : State := s.setFabric { s.fabric with dropped := s.fabric.dropped + 1 }

/-- Serves an arriving packet once. A gateway whose die or ports are down hears nothing. -/
def arrives (p : Packet) (g : Packet → State → State) (s : State) : Out :=
  .next (if s.hears p then
      match admitPkt p with
      | none => s.dropPkt
      | some p =>
        match s.recvFab p with
        | (some s, _) => g p s
        | (none, s) => s
    else s)

/-! ## The target gateway (R350 to R352) -/

/-- The tenant that serves a partition. -/
def State.serving (s : State) (part : BitVec 8) : Option Nat := (s.tenants.find? fun e => e.2.part == some part).map (·.1)

/-- The counter that a packet names at a die: none 0, a valid one, or CTRBAD. -/
def State.counterOf (s : State) (p : Packet) : Except Nat (Option Counter) :=
  if p.ctr = 0 then .ok none
  else
    match s.fabric.counters.find (p.ddie.toNat * 4096 + p.ctr.toNat) with
    | none => .error 0x07
    | some c => if c.part = p.part then .ok (some c) else .error 0x07

/-- The reason of a translation fault at the target. -/
def targetReason (t : Trap) : Nat := if t.code = .translation then 0x04 else 0x05

/-- The tenant and counter of an arriving request, or the error notice; a request that fails leaves what its walks have
done. -/
def serveReq (p : Packet) (g : Nat → Option Counter → State → Except (Nat × State) State) (s : State) : State :=
  match s.serving p.part with
  | none => s.errFab p 0x03
  | some ten =>
    match s.counterOf p with
    | .error e => s.errFab p e
    | .ok c =>
      match g ten c s with
      | .error (e, s) => s.errFab p e
      | .ok s => s

/-- A fault of the target's memory as the reason of a notice. -/
def orReason {α : Type} (x : Except (Trap × State) α) : Except (Nat × State) α :=
  match x with
  | .error (t, s) => .error (targetReason t, s)
  | .ok a => .ok a

/-- The payload with the marks of its failed sectors. -/
def payloadBytes (p : Packet) : List MByte :=
  p.payload.zipIdx.map fun e => (e.1, (p.badSectors[e.2 / 32]?).getD false)

/-- A counter's new value after n bytes. -/
def counterAdd (s : State) (ten : Nat) (c : Counter) (n : Nat) : Except (Trap × State) State :=
  match s.agentRead ten c.va.toNat 8 with
  | .error e => .error e
  | .ok (b, _, s) => s.agentPut ten c.va.toNat (leBytes 8 ((dwordAt b 0).toNat + n)) .atomic

/-- The bytes of a write, as a store of a kind: all of them, or none. -/
def writeBytes (s : State) (ten : Nat) (p : Packet) (k : StoreKind) : Except (Trap × State) State :=
  match s.caddyWrite ten p.addr.toNat (payloadBytes p) with
  | .error (t, _) => .error (t, s.agentWalk ten p.addr.toNat p.payload.length)
  | .ok t => .ok (t.stirVa s ten p.addr.toNat p.payload.length k)

/-- A write: the bytes, the counter, DONE. -/
def serveWrite (counted : Bool) (k : StoreKind) (p : Packet) : State → State :=
  serveReq p fun ten c s =>
    match orReason (writeBytes s ten p k) with
    | .error e => .error e
    | .ok s1 =>
      let counted1 : Except (Trap × State) State := match c, counted with
        | some c, true => counterAdd s1 ten c p.payload.length
        | _, _ => .ok s1
      match orReason counted1 with
      | .error e => .error e
      | .ok s2 => .ok (s2.replyFab p 0x07 (if p.badSectors.any id then 1 else 0) [] [])

/-- WR (R350, R351): a plain store. -/
def execFabWr (p : Packet) (s : State) : Out := arrives p (serveWrite true .plain) s

/-- WRREL (R349, R350): a release store (08 R146, R159); the counter addition is a WR's alone. -/
def execFabWrrel (p : Packet) (s : State) : Out := arrives p (serveWrite false .release) s

/-- The answer to a read: bytes and a poison mark. -/
def readAnswer (p : Packet) (b : List MByte) (s : State) : State :=
  s.replyFab p 0x04 (if b.any (·.2) then 1 else 0) (b.map (·.1)) (sectorMarks b)

/-- Bytes that a read asks for. -/
def readLen (p : Packet) : Nat := bitsN p.aux.toNat 0 13

/-- RD (R350). -/
def execFabRd (p : Packet) (s : State) : Out :=
  arrives p (fun p => serveReq p fun ten _ s =>
    if readLen p < 1 ∨ 4096 < readLen p then .error (0x06, s)
    else
      match orReason (s.caddyRead ten p.addr.toNat (readLen p)) with
      | .error e => .error e
      | .ok (b, s) => .ok (readAnswer p b s)) s

/-- The operand count of an AT. -/
def atomCount (p : Packet) : Nat := bitsN p.aux.toNat 23 5

/-- The atomic of an AT on the value at the target. -/
def atomAcc (p : Packet) : Acc :=
  let op := bitsN p.aux.toNat 28 4
  let d (k : Nat) : Word := wordAt p.payload (4 * k)
  if op = 9 then Acc.rmw 9 (d 0) (d 1)
  else { Acc.rmw op (d 0) 0 with more := (List.range (atomCount p - 1)).map fun k => d (k + 1) }

/-- AT (R352): the operands are applied one after another at the home slice; a poisoned word is not changed. -/
def execFabAt (p : Packet) (s : State) : Out :=
  arrives p (fun p => serveReq p fun ten _ s =>
    let a := p.addr.toNat
    if 10 < bitsN p.aux.toNat 28 4 ∨ atomCount p < 1 ∨ 16 < atomCount p ∨ a % 4 ≠ 0 then .error (0x06, s)
    else
      match s.agentPa ten a true with
      | .error t => .error (targetReason t, s.agentWalk ten a 4)
      | .ok pa =>
        let s := s.afterAgent ten a 4
        if tierOf pa = .host then .error (0x05, s)
        else if s.poisoned pa 4 then
          let r := s.draw Config.freeWord
          .ok (r.2.replyFab p 0x06 1 (leBytes 4 r.1.toNat) [])
        else
          let r := s.physRead none pa 4
          let old := wordAt r.1 0
          .ok (((r.2.physWrite none pa (leBytes 4 ((atomAcc p).new old).1.toNat)).afterStore s none (none, pa) 4
            .atomic).replyFab p 0x06 0 (leBytes 4 old.toNat) [])) s

/-! ## Pages at the target (R357, R358) -/

/-- The page index of a page operation. -/
def pageIndex (p : Packet) : Nat := bitsN p.addr.toNat 0 30

/-- PGRD (R358): bytes of a page; the offset in the page stands in sectors above the index (DESIGN CHOICE, log 52). -/
def execFabPgrd (p : Packet) (s : State) : Out :=
  arrives p (fun p => serveReq p fun ten _ s =>
    let die := p.ddie.toNat
    let off := 32 * bitsN p.addr.toNat 30 26
    match s.desc die (pageIndex p) with
    | none => .error (0x05, s)
    | some d =>
      if d.ten ≠ ten ∨ d.refc = 0 ∨ 2 ≤ d.tier ∨ readLen p < 1 ∨ s.pageBytes d.model < off + readLen p then .error (0x05, s)
      else
        match orReason (s.caddyRead ten (s.frameVa die ten d.tier d.loc (s.pageBytes d.model) + off) (readLen p)) with
        | .error e => .error e
        | .ok (b, s) => .ok (readAnswer p b s)) s

/-- PGREL (R358): the page is unreferenced. -/
def execFabPgrel (p : Packet) (s : State) : Out :=
  arrives p (fun p => serveReq p fun ten _ s =>
    .ok ((s.unrefPage ten (pageId p.ddie.toNat (pageIndex p)) p.slack p.late).replyFab p 0x07 0 [] [])) s

/-- The transfer that a part belongs to. -/
def Fabric.pageIn (fb : Fabric) (p : Packet) : Option PageIn :=
  fb.pagesIn.find? fun x => x.src == p.src && x.sdie == p.sdie && x.tag == p.tag

def Fabric.setPageIn (fb : Fabric) (x : PageIn) (keep : Bool) : Fabric :=
  let rest := fb.pagesIn.filter fun y => !(y.src == x.src && y.sdie == x.sdie && y.tag == x.tag)
  { fb with pagesIn := if keep then rest ++ [x] else rest }

/-- The first part of a transfer: a page of the same model number for the serving tenant, if it has that model and
there is room. -/
def openPageIn (p : Packet) (ten : Nat) (s : State) : PageIn × State :=
  let die := p.ddie.toNat
  let model := bitsN p.addr.toNat 0 8
  let x : PageIn := { src := p.src, sdie := p.sdie, tag := p.tag, die := die, page := none, got := [] }
  if ((s.modelAt model).map (·.tenant)) = some ten then
    match s.newPage die ten model 0 false true with
    | none => (x, s)
    | some (i, s) => ({ x with page := some i }, s)
  else (x, s)

/-- A part goes to its place in the frame. -/
def storePart (p : Packet) (ten : Nat) (x : PageIn) (s : State) : Except (Trap × State) State :=
  match x.page with
  | none => .ok s
  | some i =>
    match s.desc x.die i with
    | none => .ok s
    | some d =>
      let n := s.pageBytes d.model
      let part := bitsN p.aux.toNat 0 16
      s.pageWrite ten (s.frameVa x.die ten 0 d.loc n + 4096 * part) ((payloadBytes p).take (n - 4096 * part))

/-- PGXFER (R357): a part of a page arrives; PGACK follows once every part is performed. -/
def execFabPgxfer (p : Packet) (s : State) : Out :=
  arrives p (fun p => serveReq p fun ten _ s =>
    let part := bitsN p.aux.toNat 0 16
    let count := bitsN p.aux.toNat 16 16
    let (x, s) := match s.fabric.pageIn p with
      | some x => (x, s)
      | none => openPageIn p ten s
    let x' : PageIn := { x with got := if x.got.contains part then x.got else x.got ++ [part] }
    let full := count ≤ x'.got.length
    match storePart p ten x s with
    | .error (t, s) =>
      let s := match x.page with
        | some i => (s.updDesc x.die i fun d => { d with moving := false }).unrefPage ten (pageId x.die i) 0xFFF false
        | none => s
      .ok ((s.setFabric (s.fabric.setPageIn { x' with page := none } (!full))).errFab p (targetReason t))
    | .ok s =>
      let s := (s.setFabric (s.fabric.setPageIn x' (!full))).replyFab p 0x07 (if p.badSectors.any id then 1 else 0) [] []
      if !full then .ok s
      else
        match x.page with
        | none => .ok (s.replyFab p 0x0A 0xFFFFFFFF [] [])
        | some i =>
          .ok (((s.updDesc x.die i fun d => { d with moving := false }).serveCaddy x.die).replyFab p 0x0A
            (pageId x.die i).toNat [] [])) s

/-! ## Answers at the source (R348, R349, R356 to R358) -/

/-- The request that a reply answers: it is no longer outstanding. -/
def Fabric.answer (fb : Fabric) (hit : FabReq → Bool) : Option (FabReq × Fabric) :=
  (fb.reqs.findIdx? hit).bind fun n => (fb.reqs[n]?).map fun q => (q, { fb with reqs := fb.reqs.eraseIdx n })

/-- A reply to this node's packet: TAG names it. -/
def FabReq.answeredBy (q : FabReq) (p : Packet) : Bool := q.tag % 4294967296 == p.tag.toNat && q.node == p.src

/-- Every Caddy goes on: a window of the source gateway may have opened. -/
def State.serveAll (s : State) : State := (List.range 4).foldl State.serveCaddy s

/-- The fibre that issued an access, if it has not ended. -/
def State.issuer (s : State) (wk fid uid : Nat) : Option Fibre :=
  match s.wg wk with
  | none => none
  | some w => (w.fibres.find fid).bind fun f => if f.uid = uid then some f else none

/-- Delivers the reply to a load or atomic of a fibre. -/
def State.toLoad (s : State) (wk fid uid tag : Nat) (late : Bool) (r : FabReply) : State :=
  match s.issuer wk fid uid with
  | none => s
  | some f =>
    match f.fabWait with
    | none => s
    | some x => if x.tag = tag then s.putFibre wk { f with fabWait := some { x with reply := some r, late := late } } else s

/-- A command takes the reply that it waits for. -/
def CCmd.hear (c : CCmd) (tag : Nat) (late : Bool) (r : FabReply) : CCmd :=
  match c.fab with
  | none => c
  | some x => if x.tag = tag then { c with fab := some { x with reply := some r, late := late } } else c

/-- Delivers the reply to a command of a channel, or one that has left it for its sequence word's slice. -/
def State.toEngine (s : State) (core ch tag : Nat) (late : Bool) (r : FabReply) : State :=
  let s := s.setChan core ch ((s.chan core ch).map fun c => c.hear tag late r)
  { s with slices := s.slices.each fun _ c => c.hear tag late r }

/-- The store to `addr` no longer waits for its packet; LATE on the answer marks that access. -/
def Outstanding.drop (x : Outstanding) (tag : Nat) (addr : DWord) (late : Bool) : Outstanding :=
  if x.tags.contains tag then
    { x with tags := x.tags.filter (· != tag), accs := x.accs.map fun y => (y.1, y.2 || (late && y.1 == addr)) }
  else x

/-- A store's packet has been answered; `bad` sets the fabric-error mark of its fibre. -/
def State.storeAnswered (s : State) (wk fid uid tag : Nat) (addr : DWord) (late bad : Bool) : State :=
  s.updWg wk fun w =>
    { w with
      orphans := w.orphans.map fun x => x.drop tag addr late
      fibres := w.fibres.each fun k f =>
        if k = fid ∧ f.uid = uid then
          { f with outs := f.outs.map (fun x => x.drop tag addr late), fabErr := f.fabErr || bad }
        else f }

/-- The record of KIND 5 for a plain store that was not performed, or was performed with poison (18 R323, R356). -/
def State.storeRecord (s : State) (q : FabReq) (reason : Nat) : State :=
  match q.owner with
  | .store wk fid _ pc addr strand launch =>
    (match s.wg wk with
     | none => s
     | some w =>
       (s.writeRecord w.tenant (s.fqOf launch) launch
         { cause := causeWord .protection reason strand true ||| 0x05000000#32, launch := launch, wgid := w.wgid, fid := fid,
           chan := 0, core := w.core, pc := pc, addr := addr, rpc := 0, cause0 := 0 }).2)
  | _ => s

/-- An answer carries poison. -/
def FabReply.bad : FabReply → Bool
  | .poisoned _ => true
  | _ => false

/-- A poison bit in a reply to a store: no reason is given for the record's SUB, which is free (log 79). -/
def State.poisonRecord (s : State) (q : FabReq) (r : FabReply) : State :=
  if r.bad then
    let x := s.draw Config.freeWord
    x.2.storeRecord q (x.1.toNat % 256)
  else s

/-- What an answer does for whoever waits for it. -/
def State.deliverFab (s : State) (q : FabReq) (p : Packet) (r : FabReply) : State :=
  match q.owner with
  | .load wk fid uid => s.toLoad wk fid uid q.tag p.late r
  | .store wk fid uid _ addr _ launch =>
    ((s.poisonRecord q r).storeAnswered wk fid uid q.tag addr p.late r.bad).settleLaunch launch
  | .engine _ core ch => s.toEngine core ch q.tag p.late r
  | .page _ _ => s

/-- An arriving reply: the request it answers is taken, and `g` delivers it. -/
def replied (p : Packet) (g : Packet → FabReq → State → State) (s : State) : Out :=
  arrives p (fun p s =>
    match s.fabric.answer fun q => q.answeredBy p with
    | none => s
    | some (q, fb) => (g p q (s.setFabric fb)).serveAll) s

/-- The bytes of a reply, with a mark for those of a poisoned sector; the poison bit alone says it of them all. -/
def replyBytes (p : Packet) : List MByte :=
  (payloadBytes p).map fun b => (b.1, b.2 || (bit p.aux 0 && p.badSectors.isEmpty))

/-- The reply that a data packet makes. -/
def dataReply (p : Packet) : FabReply :=
  if bit p.aux 0 || p.badSectors.any id then .poisoned (replyBytes p) else .data p.payload

/-- RDRSP. -/
def execFabRdrsp (p : Packet) (s : State) : Out :=
  replied p (fun p q s =>
    match q.owner with
    | .page die page =>
      s.pageBytesIn die page q.tag (replyBytes p)
    | _ => s.deliverFab q p (dataReply p)) s

/-- ATRSP. -/
def execFabAtrsp (p : Packet) (s : State) : Out := replied p (fun p q s => s.deliverFab q p (dataReply p)) s

/-- DONE (R349): the write is performed. -/
def execFabDone (p : Packet) (s : State) : Out :=
  replied p (fun p q s => s.deliverFab q p (if bit p.aux 0 then .poisoned [] else .data [])) s

/-- An error notice reaches whoever waits (R356, R357). -/
def State.fabFails (s : State) (q : FabReq) (late : Bool) (reason : Nat) : State :=
  let s := match q.owner with
    | .load wk fid uid => s.toLoad wk fid uid q.tag late (.error reason)
    | .store wk fid uid _ addr _ launch =>
      ((s.storeRecord q reason).storeAnswered wk fid uid q.tag addr late true).settleLaunch launch
    | .engine _ core ch => s.toEngine core ch q.tag late (.error reason)
    | .page die page => s.pageErr die page q.tag
  s.serveAll

/-- The request of this node that a packet with this TAG and SEQ carried fails for a reason. -/
def State.failPkt (s : State) (p : Packet) (hit : FabReq → Bool) (late : Bool) (reason : Nat) : State :=
  match s.fabric.answer fun q => q.tag % 4294967296 == p.tag.toNat && q.seq == p.seq.toNat && hit q with
  | none => s
  | some (q, fb) => (s.setFabric fb).fabFails q late reason

/-- The reason that a gateway reports for UET's error completion: TIMEOUT or UNREACHABLE, and nothing says which (R360). -/
def State.uetReason (s : State) (reason : Nat) : Nat × State :=
  if reason = 1 ∨ reason = 2 then (reason, s)
  else
    let x := s.draw Config.freeWord
    (1 + x.1.toNat % 2, x.2)

/-- ERR (R348, R356): it names the failed packet by TAG and SEQ. By the Ultra Ethernet personality it is an error
completion (R360). -/
def execFabErr (p : Packet) (s : State) : Out :=
  .next (if p.dst ≠ s.fabric.own ∨ s.hears p = false then s
    else
      match admitPkt p with
      | none => s.dropPkt
      | some q =>
        let reason := bitsN p.aux.toNat 0 8
        let r := if p.ext.isSome then s.uetReason reason else (reason, s)
        r.2.failPkt q (fun _ => true) q.late r.1)

/-- PGACK (R357). The part that it follows has its own DONE; the transfer's tag names the page operation. -/
def execFabPgack (p : Packet) (s : State) : Out :=
  arrives p (fun p s =>
    let hit := (List.range 4).findSome? fun die =>
      (s.caddyOf die).moves.findSome? fun m =>
        match m.kind with
        | .send node _ (some t) _ => if t % 4294967296 = p.tag.toNat ∧ node = p.src then some (die, m.page, t) else none
        | _ => none
    match hit with
    | none => s
    | some (die, page, t) => (s.pageAck die page t p.aux).serveAll) s

/-! ## Custody and links (R341, R343, R346, R347, R359) -/

/-- CUSTODY_ACK: the next hop is responsible for the packet. For a packet of the Ultra Ethernet personality it is UET's
acknowledgement (R360). -/
def execCustodyAck (n : Nat) (s : State) : Out :=
  .next (s.setFabric { s.fabric with custody := s.fabric.custody.del n })

/-- A packet sent again: 2 µs, which are 250 ticks, have aged it. -/
def Packet.again (p : Packet) : Packet :=
  if p.slack = 0xFFF then { p with resent := true }
  else { p with resent := true, slack := BitVec.ofNat 12 (p.slack.toNat - 250), late := p.late || decide (p.slack.toNat ≤ 250) }

/-- CUSTODY_RESEND: no acknowledgement after 2 µs; at most 7 times. A packet that no port has taken is not sent again,
nor one of the Ultra Ethernet personality, whose transport has its own ways. -/
def execCustodyResend (n : Nat) (s : State) : Out :=
  .next (match s.fabric.custody.find n with
    | none => s
    | some c =>
      if 7 ≤ c.resends ∨ c.noRoute = true ∨ c.pkt.ext.isSome = true then s
      else
        let p := Packet.again c.pkt
        (s.setFabric { s.fabric with custody := s.fabric.custody.put n { c with pkt := p, resends := c.resends + 1 } }).emit (.packet p))

/-- Custody ends with a notice: UNREACHABLE at once where there is no route, TIMEOUT after the seventh re-send, and
either as UET's error completion. None while the packet may still arrive. -/
def Custody.reason (c : Custody) (s : State) : Option (Nat × State) :=
  if c.noRoute then some (0x01, s)
  else if c.pkt.ext.isSome then some (s.uetReason 0)
  else if 7 ≤ c.resends then some (0x02, s)
  else none

/-- A packet leaves custody, and its request, if it is one of this node's, fails. -/
def State.endCustody (s : State) (n : Nat) (c : Custody) (reason : Nat) : State :=
  (s.setFabric { s.fabric with custody := s.fabric.custody.del n }).failPkt c.pkt (fun q => q.node == c.pkt.dst) c.pkt.late reason

/-- CUSTODY_TIMEOUT: the hop reports to the source, which is this node. -/
def execCustodyTimeout (n : Nat) (s : State) : Out :=
  .next (match s.fabric.custody.find n with
    | none => s
    | some c =>
      match c.reason s with
      | none => s
      | some (r, s) => s.endCustody n c r)

/-- LINK_LEVEL_RETRY: a link re-sends a flit, which is delivered once. -/
def execLinkLevelRetry (_link : Nat) (s : State) : Out :=
  .next (s.setFabric { s.fabric with linkRetries := s.fabric.linkRetries + 1 })

/-- BADPKT_DROP (R346): a packet whose header has a reserved OP, a bad check or a nonzero reserved field is dropped by
the gateway that finds it, with a notice to the source that the header names. A good header is no such event. -/
def execBadpktDrop (header : List Byte) (s : State) : Out :=
  let p := headerFields header [] []
  .next (if headerBad? header && s.hears p then s.errFab p 0x06 else s)

/-- UET_UNSUPPORTED_PACKET_DROP (R359): dropped and counted. -/
def execUetUnsupportedPacketDrop (port : Nat) (s : State) : Out :=
  .next (if s.fabric.uePorts.contains port then s.dropPkt else s)

end Sys2Proof.Machine
end

