-- ==== Sys2Proof/Machine/Reset.lean ====
section
/-! DEFINITION. The reset levels (21 R370, Table 21-8), their completion, and loss of power (R368, R371). -/

namespace Sys2Proof.Machine

/-- An event of a part that has power. -/
def powered (g : State → State) (s : State) : Out := .next (if s.fw.powerOff then s else g s)

/-! ## Work that a reset destroys (R370, 18 R324, R325) -/

/-- Destroys the unit of a workgroup at once: what R324 says of a torn-down unit happens, without a record of it. The
launch ends with CANCELLED when its last unit has ended. -/
def State.destroyUnit (s : State) (w : Workgroup) : State :=
  let ks := s.unitKeys w
  let s := ks.foldl (fun s k =>
    match s.wg k with
    | some m => s.stopWg k (peerFatal m 0x08 0 s.cycles)
    | none => s) s
  let s := ks.foldl (fun s k =>
    match s.wg k with
    | some m => if m.run = .exited then s else s.releaseWg k m false
    | none => s) s
  let s := (s.unqueue w.launch w.unit).setWgs (s.wgs.filter fun e => !ks.contains e.1)
  ((s.restSlice w).updLaunch w.launch fun l => { l with lost := true }).settleLaunch w.launch

/-- Destroys, one after the other, every unit that has a workgroup which `hit` picks (fuel: workgroups). -/
def destroyUnits (hit : Workgroup → Bool) : Nat → State → State
  | 0, s => s
  | n + 1, s =>
    match s.wgs.vals.find? hit with
    | none => s
    | some w => destroyUnits hit n (s.destroyUnit w)

def State.destroyWhere (s : State) (hit : Workgroup → Bool) : State := destroyUnits hit s.wgs.length s

/-- Cancels a launch and destroys what is left of it. -/
def State.destroyLaunch (s : State) (id : Nat) : State :=
  let s := s.cancelLaunch id 8
  s.destroyWhere fun w => w.launch == id

/-- The unit of a workgroup occupies cores, as a saved unit does not. -/
def Workgroup.placed (w : Workgroup) : Bool := !w.stored

/-! ## Cores, clusters, engines -/

/-- A core's own state is cleared; `keep` keeps its L1, which the rows of the core store hold (07 R131). -/
def State.clearCore (s : State) (core : Nat) (held : Bool) (keep : Bool := false) : State :=
  s.putCore core { CoreState.fresh s.cycles with inReset := held, l1 := if keep then (s.core core).l1 else [] }

/-- CORE_RESET: the core's units are torn down; core store, accumulators, scale memory, L1 and tree registers are
cleared. -/
def execCoreReset (core : Nat) (s : State) : Out :=
  powered (fun s => (s.destroyWhere fun w => w.placed && w.core == core).clearCore core true) s

/-- CLUSTER_RESET: the cluster's units, its cores and its translation unit. -/
def execClusterReset (cluster : Nat) (s : State) : Out :=
  powered (fun s =>
    let s := s.destroyWhere fun w => w.placed && clusterOf w.core == cluster
    let s := (List.range 8).foldl (fun s k => s.clearCore (8 * cluster + k) false) s
    s.putCluster cluster { ClusterState.fresh with inReset := true }) s

/-- Whether the command counts in ENGO. -/
def MOp.counted : MOp → Bool
  | .mma _ => true
  | _ => false

/-- MATRIX_ENGINE_RESET: queued commands and the running one are discarded, and their launches cancelled. The
accumulator banks keep their contents. -/
def execMatrixEngineReset (core : Nat) (s : State) : Out :=
  powered (fun s =>
    let ws := s.wgs.filter fun e => e.2.placed && e.2.core == core && !e.2.mq.isEmpty
    let s := ws.foldl (fun s e =>
      let s := (e.2.mq.filter fun c => c.op.counted).foldl (fun s c => s.engoDone c.own) s
      s.updWg e.1 fun w => { w with mq := [] }) s
    let s := s.setRun core none
    ((ws.map fun e => e.2.launch).dedup).foldl (fun s id => s.cancelLaunch id 8) s) s

/-- A command ends now with code PROT; what its record or addition meets is lost (fuel: the two writes). -/
def endProt : Nat → CCmd → State → State
  | 0, c, s => s.engoDone c.own
  | n + 1, c, s =>
    let r := runEnd c s
    match r.out with
    | .trap t => endProt n { r.c with stalled := some t.addr, failed := true } r.s
    | _ => r.s.engoDone c.own

/-- A command that a reset ends: code PROT; nothing says what AUX holds. -/
def State.endCommand (s : State) (c : CCmd) : State :=
  let a := s.draw Config.freeWord
  let b := a.2.draw Config.freeWord
  endProt 3 { c.fail 0x03 (pair a.1 b.1) with stage := max 1 c.stage, fab := none, stalled := none, failed := false } b.2

/-- COPY_ENGINE_RESET: every command of the channels ends with code PROT, WP0 to WP7 are cleared, and the launches are
cancelled. -/
def execCopyEngineReset (core : Nat) (s : State) : Out :=
  powered (fun s =>
    let cs := (s.core core).chans.toList.flatMap id
    let s := s.putCore core { s.core core with chans := Vector.replicate 8 [] }
    let s := cs.foldl State.endCommand s
    let s := s.setWgs (s.wgs.each fun _ w => if w.placed && w.core == core then { w with wp := Vector.replicate 8 0 } else w)
    ((cs.filterMap fun c => (s.wg c.own.wk).map (·.launch)).dedup).foldl (fun s id => s.cancelLaunch id 8) s) s

/-! ## Caddy, Kettle, ports, functions, Samovar -/

/-- Drops the moves of a die's Caddy (fuel: moves): an operation without its result returns status 2, and a page that
was moving keeps its old location. -/
def dropMoves (die : Nat) : Nat → State → State
  | 0, s => s
  | n + 1, s =>
    match (s.caddyOf die).moves with
    | [] => s
    | m :: _ =>
      let s := (s.updDesc die m.page fun d => { d with moving := false }).setMove die 0 none
      let s := match m.kind with
        | .cow new => s.updDesc die new fun d => { d with moving := false }
        | .pull _ (some (some new)) _ _ _ => s.updCaddy die fun x => { x with descs := x.descs.del new }
        | .promote _ (some (some new)) => s.updCaddy die fun x => { x with descs := x.descs.del new }
        | _ => s
      let answered := match m.kind with
        | .promote _ c => c.isNone
        | .pull _ _ _ _ _ => m.moved
        | .send _ _ _ _ => m.moved
        | _ => true
      let s := match m.req with
        | none => s
        | some o =>
          if answered then (match o.own with
            | none => s
            | some own => s.engoDone own)
          else s.pageDone o o.page 2
      dropMoves die n s

/-- What a reset of a die's Caddy clears: operations in flight and holds. Descriptors and frames stay. -/
def State.resetCaddy (s : State) (die : Nat) : State :=
  let x := s.caddyOf die
  let s := s.updCaddy die fun x => { x with waiting := [] }
  let s := x.waiting.foldl (fun s o => s.pageDone o o.page 2) s
  let s := dropMoves die x.moves.length s
  (s.updCaddy die fun x => { x with descs := x.descs.each fun _ d => { d with holds := 0, moving := false } }).freeSlots

/-- CADDY_RESET: `pgop` returns status 2; moving pages keep their old location. -/
def execCaddyReset (die : Nat) (s : State) : Out := powered (fun s => (s.resetCaddy die).sweepPages die) s

/-- KETTLE_RESET: the sequences of iterations in progress end with ERROR; the request table and the rings stay. -/
def execKettleReset (s : State) : Out :=
  powered (fun s =>
    s.kmodels.keys.foldl (fun s n =>
      match s.kmodels.find n with
      | none => s
      | some m =>
        if m.busy then
          let s := failPlan n m.slots s
          { s with kmodels := s.kmodels.upd n fun m => { m with busy := false, plan := [], slk := [], running := [], wake := true } }
        else s) s) s

/-- A packet in custody has no port left that could carry it: neither of its personality, nor, for page traffic that
went by a Hawser port, of the other. -/
def Fabric.stranded (fb : Fabric) (c : Custody) : Bool :=
  let die := c.pkt.sdie.toNat
  if c.pkt.ext.isSome then (fb.portsUp die true).isEmpty
  else (fb.portsUp die false).isEmpty && !(ueOp c.pkt.op && !(fb.portsUp die true).isEmpty)

/-- A packet in custody that the other personality must carry from now on. -/
def Fabric.reroute (fb : Fabric) (c : Custody) : Custody :=
  if c.pkt.ext.isNone && (fb.portsUp c.pkt.sdie.toNat false).isEmpty && ueOp c.pkt.op then
    { c with pkt := { c.pkt with ext := some (ledunExt c.pkt.slack c.pkt.late) } }
  else c

/-- Packets in custody that no route is left for: ERR with TIMEOUT to their source, this node. -/
def timeOutCustody : List (Nat × Custody) → State → State
  | [], s => s
  | (k, c) :: q, s => timeOutCustody q (if s.fabric.stranded c then s.endCustody k c 0x02 else s)

/-- Packets that go out by the other personality's ports. -/
def State.sendAgain (s : State) : State :=
  let fb := s.fabric
  let moved := (fb.custody.filter fun e => e.2.pkt.ext.isNone && (fb.reroute e.2).pkt.ext.isSome).map fun e => fb.reroute e.2
  { s with
    fabric := { fb with custody := fb.custody.each fun _ c => fb.reroute c }
    outbox := s.outbox ++ moved.map fun c => .uet (ueMode c.pkt.op) c.pkt }

/-- A port's link is down. Packets in custody go out again by another port when their acknowledgement does not come,
page traffic at once by a port of the other personality when that is the only one left; with no port left that carries
them they end with TIMEOUT. -/
def State.resetPort (s : State) (port : Nat) : State :=
  if 32 ≤ port then s
  else
    let s := if s.fabric.portsDown.contains port then s
      else s.setFabric { s.fabric with portsDown := s.fabric.portsDown ++ [port] }
    (timeOutCustody s.fabric.custody s).sendAgain.serveAll

/-- FABRIC_PORT_RESET. -/
def execFabricPortReset (port : Nat) (s : State) : Out := powered (fun s => s.resetPort port) s

/-- The waiter belongs to a queue of the function. -/
def Waiter.ofVf (vf : Nat) : Waiter → Bool
  | .kettleTail q => q / 4 == vf
  | .launchQueue q => q / 4 == vf
  | .msix v _ => v == vf
  | _ => false

/-- A register of BAR0 belongs to the mailbox of a function (16: the PF), not to its MSI-X table. -/
def ofMailbox (fn key : Nat) : Bool :=
  key / 2 ^ 26 == fn && (fn == 16 || key % 2 ^ 26 < msixBase || msixBase + 1024 ≤ key % 2 ^ 26)

/-- What a reset of a host function does: the watch entries of the function's queues are freed, its mailbox is cleared,
and the tenant's launches are cancelled. The queues see no entry until they are registered again. -/
def State.resetFunction (s : State) (vf : Nat) : State :=
  let s := s.setWatches (s.watches.filter fun e => !e.2.waiter.ofVf vf)
  let quiet (k : Nat) (r : Ring) : Ring := if k / 4 = vf then { r with polled := false } else r
  let s := { s with hostQueues := s.hostQueues.each quiet, kqueues := s.kqueues.each quiet
                    fw := { s.fw with mmio := s.fw.mmio.filter fun e => !ofMailbox vf e.1 } }
  (s.launches.keys.filter fun id => ((s.launch id).map fun (l : Launch) => l.tenant == vf).getD false).foldl
    (fun s id => s.cancelLaunch id 8) s

/-- HOST_FUNCTION_RESET. -/
def execHostFunctionReset (vf : Nat) (s : State) : Out := powered (fun s => s.resetFunction vf) s

/-- Replaces Samovar core k. -/
def State.putSam (s : State) (k : Nat) (x : SamCore) : State := { s with sam := vset s.sam k x }

/-- Frees the watch entries that a Samovar core holds. -/
def State.freeSamWatches (s : State) (k : Nat) : State :=
  s.setWatches (s.watches.filter fun e => e.2.waiter != .samovar k)

/-- A Samovar core starts again. -/
def State.resetSam (s : State) (core : Nat) : State := (s.putSam core SamCore.fresh).freeSamWatches core

/-- SAMOVAR_CORE_RESET. -/
def execSamovarCoreReset (core : Nat) (s : State) : Out := powered (fun s => s.resetSam core) s

/-! ## Dies and the package -/

/-- A watch entry of the die has gone: a queue or a ring that waited on it is polled (14 R281). -/
def State.dropDieWatches (s : State) (die : Nat) : State :=
  let gone := (s.watches.filter fun e => e.1 / 4096 == die).map fun e => e.2.waiter
  let s := s.setWatches (s.watches.filter fun e => e.1 / 4096 != die)
  { s with
    hostQueues := s.hostQueues.each fun k r => if gone.contains (.launchQueue k) then { r with polled := true } else r
    kqueues := s.kqueues.each fun k r => if gone.contains (.kettleTail k) then { r with polled := true } else r
    kslots := s.kslots.each fun k x => if gone.contains (.kettleCons k) then { x with consPolled := true } else x }

/-- Launches whose units have all ended and which waited for an answer to a fabric store (17 R304): none comes any more. -/
def State.settleAll (s : State) : State := s.launches.keys.foldl State.settleLaunch s

/-- What a die's gateway forgets. -/
def Fabric.dropDie (fb : Fabric) (die : Nat) : Fabric :=
  { fb with
    nextSeq := fb.nextSeq.filter fun e => e.1 / 4096 != die
    recv := fb.recv.filter fun e => e.1 / 4096 != die
    counters := fb.counters.filter fun e => e.1 / 4096 != die
    custody := fb.custody.filter fun e => e.2.pkt.sdie.toNat != die
    reqs := fb.reqs.filter fun q => q.sdie != die
    pagesIn := fb.pagesIn.filter fun p => p.die != die }

/-- A die without its logic state: its units are torn down; its cores, clusters, Caddy's operations, watch entries and
gateway are cleared. A reduction that waits at one of its slices ends with PROT. `keep` keeps what the core store holds:
that of a destroyed unit is out of every agent's reach, the L1 copies are not. -/
def State.clearDie (s : State) (die : Nat) (keep : Bool := false) : State :=
  let s := s.destroyWhere fun w => w.placed && dieOf w.core == die
  let s := s.resetCaddy die
  let cs := (s.slices.filter fun e => e.1 / 256 == die).map (·.2)
  let s := { s with slices := s.slices.filter fun e => e.1 / 256 != die }
  let s := cs.foldl State.endCommand s
  let s := ((s.dropDieWatches die).setFabric (s.fabric.dropDie die)).settleAll
  let s := (List.range 128).foldl (fun s k => s.clearCore (128 * die + k) false keep) s
  (s.setClusters (s.clusters.filter fun e => e.1 / 16 != die)).sweepPages die

/-- The levels beneath a die's that lie on D0: the host link's functions, and the Samovar cores (R361, R363). No rule
puts Kettle on a die (log 43). -/
def State.resetHostSide (s : State) : State :=
  let s := (List.range 17).foldl State.resetFunction s
  (List.range 4).foldl State.resetSam s

/-- DIE_RESET: the die's units are torn down; its cores, Caddy and gateway are cleared, its L2 loses what DRAM does not
hold yet, its ports are down, and on D0 the levels beneath are reset. Other dies see PROTECTION on its addresses until it
returns. -/
def State.resetDie (s : State) (die : Nat) : State :=
  let s := s.clearDie die
  let s := (List.range 8).foldl (fun s k => s.resetPort (8 * die + k)) s
  let s := if die = 0 then s.resetHostSide else s
  let s := s.loseL2 fun d => d == die
  { s with diesInReset := if s.diesInReset.contains die then s.diesInReset else s.diesInReset ++ [die] }

def execDieReset (die : Nat) (s : State) : Out := powered (fun s => s.resetDie die) s

/-- What survives a package cold reset: fuses and both flash banks. -/
def Firmware.flash (fw : Firmware) : Firmware :=
  { Firmware.fresh with bankA := fw.bankA, bankB := fw.bankB, activeA := fw.activeA, minVersion := fw.minVersion
                        lifecycle := fw.lifecycle }

/-- The package after a cold reset. The variant of the part stays what it is; the stimuli still to come, what has left
the package, and host memory are no state of the part. -/
def State.cold (s : State) : State :=
  { State.reset with
    mem := s.mem.filter fun e => tierOf e.1 == .host
    poison := s.poison.filter fun k => tierOf (32 * k) == .host
    stale := s.stale.filter fun k => tierOf (32 * k) == .host
    code := s.code, lpddr := s.lpddr, free := s.free, inbox := s.inbox, outbox := s.outbox, fw := s.fw.flash
    fabric := Fabric.fresh }

/-- PACKAGE_COLD_RESET: everything but fuses and flash, DRAM contents and training included. It is also how the part
leaves Off (21 Table 21-9). -/
def execPackageColdReset (s : State) : Out := .next s.cold

/-- PACKAGE_WARM_RESET: every launch is cancelled; all logic and SRAM is cleared; DRAM, training, fuses and banks
stay. -/
def execPackageWarmReset (s : State) : Out :=
  powered (fun s =>
    let s := (s.launches.keys.foldl State.destroyLaunch s).loseL2 fun _ => true
    let c := s.cold
    { c with
      mem := s.mem, poison := s.poison, stale := s.stale, openBars := s.openBars.filter fun b => b.key.isNone
      fw := { c.fw with trained := s.fw.trained, trainFailed := s.fw.trainFailed, fullService := s.fw.fullService
                        poisonedCount := s.fw.poisonedCount, corrected := s.fw.corrected, warmReset := true } }) s

/-- RESET_COMPLETE: the unit returns to service. -/
def execResetComplete (unit : ResetUnit) (s : State) : Out :=
  powered (fun s =>
    match unit with
    | .package => { s with fw := { s.fw with warmReset := false } }
    | .die n =>
      ({ s with
        diesInReset := s.diesInReset.filter (· != n)
        fabric := { s.fabric with portsDown := s.fabric.portsDown.filter fun p => p / 8 != n } }).serveAll
    | .cluster n => s.putCluster n { s.cluster n with inReset := false }
    | .core n => s.putCore n { s.core n with inReset := false }
    | .port n => (s.setFabric { s.fabric with portsDown := s.fabric.portsDown.filter (· != n) }).serveAll
    | .matrix _ => s
    | .copy _ => s
    | .caddy _ => s
    | .kettle => s
    | .vf _ => s
    | .samovar _ => s) s

/-- POWER_LOSS: all activity ends; flash and fuses stay. -/
def State.off (s : State) : State := { s.cold with fw := { s.fw.flash with powerOff := true } }

def execPowerLoss (s : State) : Out := .next s.off

end Sys2Proof.Machine
end

