-- ==== Sys2Proof/Machine/Firmware.lean ====
section
/-! DEFINITION. The firmware services of the PF and VF mailboxes (21 R365, Table 21-3), and the personality of a port
(00 R2). -/

namespace Sys2Proof.Machine

/-! ## Who may ask (21 R362, R365, R371, R374, Table 21-10) -/

/-- Reduced service has begun: the first training item, stack 0 of D0, is behind (R374). -/
def Firmware.inService (fw : Firmware) : Bool := fw.trained != 0 || fw.trainFailed

/-- Virtual function n is enabled: full service has been reached, the lifecycle admits tenants, in SECURE an IDE stream
covers it, and none of its streams has turned insecure. -/
def State.vfEnabled (s : State) (n : Nat) : Bool :=
  decide (n < 16) && s.fw.booted && s.fw.fullService && !(s.tenant n).blocked &&
    (match s.fw.lifecycle with
     | .provisioned => true
     | .secure => s.fw.ide.any fun e => e.2.secure && bit e.2.vfs n
     | .blank => false
     | .rma => false)

/-- The requester may ask for a service of a tenant; without a tenant only the PF may. -/
def State.mayAsk (s : State) (who : Requester) (ten : Option Nat) : Bool :=
  s.fw.booted && s.fw.inService &&
    match who with
    | .pf => true
    | .vf n => s.vfEnabled n && ten == some n

/-- A service: it answers with a status word, and has an effect only when it is granted and its checks pass. One whose
checks read memory and fail leaves what their walks have done. -/
def serviceOr (who : Requester) (ten : Option Nat) (g : State → Except State (Nat × State)) (s : State) : Out :=
  powered (fun s =>
    if !s.fw.booted || !s.fw.inService then s
    else if !s.mayAsk who ten then s.emit (.serviceDone false 0)
    else
      match g s with
      | .error s => s.emit (.serviceDone false 0)
      | .ok (v, s) => s.emit (.serviceDone true v)) s

/-- A service whose checks read no memory. -/
def service (who : Requester) (ten : Option Nat) (g : State → Option (Nat × State)) (s : State) : Out :=
  serviceOr who ten (fun s =>
    match g s with
    | none => .error s
    | some r => .ok r) s

def State.updTenant (s : State) (n : Nat) (g : Tenant → Tenant) : State :=
  { s with tenants := s.tenants.put n (g (s.tenant n)) }

/-! ## Translation (07 R133, R134; 18 R318) -/

/-- SET_ASID_ROOT: binds a tenant's ASID and level-A table. -/
def execSetAsidRoot (who : Requester) (tenant : Nat) (asid : BitVec 16) (root : Nat) (s : State) : Out :=
  service who none (fun s =>
    if 16 ≤ tenant then none
    else some (0, s.updTenant tenant fun t => { t with asid := asid, root := some root })) s

/-- The translation lies in an ASID and meets a range. -/
def TlbEntry.meets (e : TlbEntry) (asid lo len : Nat) : Bool :=
  e.asid == asid && decide (e.va < lo + len) && decide (lo < e.va + e.size)

/-- Discards the TLB entries of an ASID and range, and the L1 lines of the ASID. -/
def State.invalidate (s : State) (asid lo len : Nat) : State :=
  let s := s.setClusters (s.clusters.each fun _ x => { x with tlb := x.tlb.filter fun e => !e.meets asid lo len })
  s.setCores (s.cores.each fun _ x => { x with l1 := x.l1.filter fun l => l.asid != asid })

/-- INVALIDATE_TRANSLATION: a virtual function names the ASID of its own tenant. -/
def execInvalidateTranslation (who : Requester) (asid : BitVec 16) (lo len : Nat) (s : State) : Out :=
  let ten := match who with
    | .pf => none
    | .vf n => if (s.tenant n).asid = asid then some n else none
  service who ten (fun s => some (0, s.invalidate asid.toNat lo len)) s

/-- Something is parked or stalled at a place. -/
def State.parkedAt (s : State) (p : Sys2Proof.Parked) : Bool :=
  match p with
  | .fibre wk fid => (s.parkedFibre wk fid).isSome
  | .channel core ch => ((s.chan core ch).head?.map fun c => c.stalled.isSome).getD false ||
      s.slices.any fun e => e.2.stalled.isSome && e.2.chan == ch && e.2.core s == core
  | .matrix wk => ((s.wg wk).bind fun w => w.mq.head?.map fun c => c.stalled.isSome).getD false
  | .caddy die n => (((s.caddyOf die).moves[n]?).map fun m => m.stalled.isSome).getD false

/-- RESOLVE_FAULT: firmware makes the entries valid and replays. -/
def execResolveFault (who : Requester) (place : Parked) (entries : List PteWrite) (s : State) : Out :=
  service who none (fun s =>
    if !s.parkedAt place then none
    else
      let s := entries.foldl (fun s (e : PteWrite) => s.physWrite none e.pa (leBytes 8 e.entry.toNat)) s
      some (0, s.replay place)) s

/-- DECLARE_UNRESOLVED: the fault is raised again. -/
def execDeclareUnresolved (who : Requester) (place : Parked) (s : State) : Out :=
  service who none (fun s => if s.parkedAt place then some (0, s.unresolve place) else none) s

/-! ## Models, queues, budgets -/

/-- The limits of 13 R253. -/
def caddyLimits (p : ModelParams) : Bool :=
  decide (p.model < 256) && decide (p.tenant < 16) && decide (2 ≤ p.ptl ∧ p.ptl ≤ 8) &&
    decide (1 ≤ p.layers ∧ p.layers ≤ 256) && decide (0 < p.rb ∧ p.rb ≤ 16384 ∧ p.rb % 32 = 0)

/-- The limits of 14 Table 14-1. TMPL and KVT lie on selector 0x0 as IB0 and IB1 do, of which alone the table says
"global": Kettle reaches all four by the tenant's translation (DESIGN CHOICE, log 101). TB below 16, which the program of 16
R296 registers, is outside the table (DEDUCED, log 96). -/
def kettleLimits (p : KettleParams) : Bool :=
  !fieldBad p.tmpl 64 && decide (1 ≤ p.ntmpl ∧ p.ntmpl ≤ 32) && decide (16 ≤ p.tb ∧ p.tb ≤ 65536) &&
    decide (1 ≤ p.chunk ∧ p.chunk ≤ 65536) && decide (1 ≤ p.gsize ∧ p.gsize ≤ 16) && decide (p.hr ≤ 1048576) &&
    decide (p.ovh ≤ 4095) && decide (1 ≤ p.parklim ∧ p.parklim ≤ 65535) && !fieldBad p.ib0 64 && !fieldBad p.ib1 64 &&
    !fieldBad p.kvt 4 && decide (1 ≤ p.maxp ∧ p.maxp ≤ 65536)

/-- Kettle's entry of a model: a model that is already registered keeps its iteration. -/
def State.kettleEntry (s : State) (model ten : Nat) (p : KettleParams) : KModel :=
  match s.kmodels.find model with
  | some m => { m with tenant := ten, par := p, wake := true }
  | none => { tenant := ten, par := p, iter := 0, running := [], busy := false, plan := [], slk := [], wake := true }

/-- REGISTER_MODEL: Caddy's entry and, where given, Kettle's, whose checks and template decide; nothing is written when
a check fails. -/
def execRegisterModel (who : Requester) (p : ModelParams) (s : State) : Out :=
  serviceOr who none (fun s =>
    if !caddyLimits p then .error s
    else
      let enter (s : State) : State :=
        { s with caddyModels := s.caddyModels.put p.model { tenant := p.tenant, ptl := p.ptl, layers := p.layers, rb := p.rb } }
      match p.kettle with
      | none => .ok (0, enter s)
      | some k =>
        let m := s.kettleEntry p.model p.tenant k
        if !kettleLimits k then .error s
        else
          match readTemplate s m k.ntmpl 0 with
          | .error (_, s) => .error s
          | .ok (_, s) => .ok (0, { enter s with kmodels := s.kmodels.put p.model m })) s

/-- The limits of a ring (14 R262, 17 R301): its base, its length, and two words in lines of their own. -/
def ringLimits (p : QueueParams) : Bool :=
  decide (p.vf < 16) && decide (p.q < 4) && decide (16 ≤ p.ent ∧ p.ent ≤ 65536) && decide (2 ^ p.ent.log2 = p.ent) &&
    !fieldBad p.base (if p.submission then 128 else 16) && !fieldBad p.tail 4 && !fieldBad p.head 4 &&
    decide (p.tail.toNat / 128 ≠ p.head.toNat / 128)

/-- An address in each 4 KiB piece of a submission ring, and its last one. -/
def ringPieces (p : QueueParams) : List Nat :=
  if p.submission then (List.range (ceilDiv (128 * p.ent) 4096 + 1)).map fun i => p.base.toNat + min (4096 * i) (128 * p.ent - 1)
  else []

/-- A submission ring lies in HBM4 or LPDDR-6 (14 R262): none of its pieces is mapped to the host's memory. -/
def ringHome (s : State) (p : QueueParams) : Bool :=
  (ringPieces p).all fun a =>
    match s.agentPa p.vf a false with
    | .ok pa => tierOf pa != .host
    | .error _ => true

/-- The walks of that check. -/
def ringWalks (s : State) (p : QueueParams) : State := (ringPieces p).foldl (fun s a => s.agentWalk p.vf a 1) s

/-- REGISTER_QUEUE: the queue starts empty; its TAIL is watched, or polled when no entry can be taken. In reduced service
a launch queue is registered and neither watched nor polled (R374). -/
def execRegisterQueue (who : Requester) (p : QueueParams) (s : State) : Out :=
  serviceOr who (some p.vf) (fun s =>
    if !ringLimits p then .error s
    else if !ringHome s p then .error (ringWalks s p)
    else
      let s := ringWalks s p
      let key := 4 * p.vf + p.q
      let waiter : Waiter := if p.submission then .kettleTail key else .launchQueue key
      let s := s.unwatch waiter
      let r : Ring := { tenant := p.vf, base := p.base, ent := p.ent, tail := p.tail, head := p.head, seen := 0, taken := 0
                        polled := true }
      let z := if !p.submission && !s.fw.fullService then ({ r with polled := false }, s) else
        match s.watchWord p.vf p.tail.toNat 0 waiter with
        | .ok s => ({ r with polled := false }, s)
        | .error s => (r, s)
      .ok (0, if p.submission then { z.2 with kqueues := z.2.kqueues.put key z.1 }
        else { z.2 with hostQueues := z.2.hostQueues.put key z.1 })) s

/-- SET_BUDGETS: budgets, watchdog limit and resolution limit of a tenant. -/
def execSetBudgets (who : Requester) (p : BudgetParams) (s : State) : Out :=
  service who none (fun s =>
    if 16 ≤ p.tenant ∨ 512 < p.cbud then none
    else some (0, s.updTenant p.tenant fun t =>
      { t with cbud := p.cbud, bbud := p.bbud, pbud := p.pbud, watchdogMs := p.watchdogMs
               resolveLimit := p.resolveLimit })) s

/-! ## Fabric setup (20 R343 to R345, R351) -/

/-- Two valid windows overlap. -/
def winClash (x y : FabWindow) : Bool :=
  x.v && y.v && decide (x.vbase.toNat < y.vbase.toNat + y.size.toNat) && decide (y.vbase.toNat < x.vbase.toNat + x.size.toNat)

/-- A window that may be written as the n-th of a tenant. -/
def windowOk (t : Tenant) (n : Nat) (x : FabWindow) : Bool :=
  !x.v || (x.size != 0 && x.node != 0xFFF &&
    (List.range 16).all fun k => k == n || !winClash x (vget t.windows k FabWindow.invalid))

/-- One write of the service. -/
def State.fabricWrite (s : State) : FabricWrite → Option State
  | .ownNode n => if n = 0xFFF then none else some (s.setFabric { s.fabric with own := n })
  | .node n up =>
    if n = 0xFFF then none
    else
      let rest := s.fabric.populated.filter (· != n)
      some (s.setFabric { s.fabric with populated := if up then rest ++ [n] else rest })
  | .partition t p => if 16 ≤ t then none else some (s.updTenant t fun x => { x with part := some p })
  | .nodeSet t n up =>
    if 16 ≤ t ∨ n = 0xFFF then none
    else some (s.updTenant t fun x =>
      { x with nodeSet := if up then x.nodeSet.filter (· != n) ++ [n] else x.nodeSet.filter (· != n) })
  | .window t n w =>
    if 16 ≤ t ∨ 16 ≤ n then none
    else if !windowOk (s.tenant t) n w then none
    else some (s.updTenant t fun x => { x with windows := vset x.windows n w })
  | .counter die id part va =>
    if 4 ≤ die ∨ id = 0 ∨ va.toNat % 8 ≠ 0 then none
    else some (s.setFabric { s.fabric with
      counters := s.fabric.counters.put (die * 4096 + id.toNat) { part := part, va := va } })

/-- FABRIC_SETUP. -/
def execFabricSetup (who : Requester) (p : FabricWrite) (s : State) : Out :=
  service who none (fun s => (s.fabricWrite p).map fun s => (0, s)) s

/-- PORT_PERSONALITY_SELECT: refused for Hawser on a KN4-480M-E (00 R2). -/
def execPortPersonalitySelect (port : Nat) (hawser : Bool) (s : State) : Out :=
  service .pf none (fun s =>
    if 32 ≤ port ∨ (hawser = true ∧ s.code = .mE) then none
    else
      let rest := s.fabric.uePorts.filter (· != port)
      some (0, (s.setFabric { s.fabric with uePorts := if hawser then rest else rest ++ [port] }).serveAll)) s

/-! ## Launches and pools -/

/-- CANCEL_LAUNCH: a launch ends with CANCELLED (18 R325). -/
def execCancelLaunch (who : Requester) (launch : Nat) (s : State) : Out :=
  service who ((s.launch launch).map (·.tenant)) (fun s =>
    match s.launch launch with
    | none => none
    | some _ => some (0, s.cancelLaunch launch 8)) s

/-- SIZE_POOLS: sizes of a die's descriptor table and frame pools, watermarks, arena bases. Pages stay. -/
def execSizePools (who : Requester) (p : PoolParams) (s : State) : Out :=
  service who none (fun s =>
    if 4 ≤ p.die ∨ 2 ^ 30 < p.descs ∨ 2 ^ 32 < p.framesHbm ∨ 2 ^ 32 < p.framesLp ∨
        p.arenas.any (fun a => decide (16 ≤ a.1) || decide (2 ≤ a.2.1)) = true then none
    else
      let s := s.updCaddy p.die fun x =>
        { x with ndesc := p.descs, framesHbm := p.framesHbm, framesLp := p.framesLp, low := p.low, high := p.high
                 arenas := p.arenas.foldl (fun t a => t.put (2 * a.1 + a.2.1) a.2.2) x.arenas }
      some (0, s.wakeModels.serveCaddy p.die)) s

end Sys2Proof.Machine
end

