-- ==== Sys2Proof/Machine/Manage.lean ====
section
/-! DEFINITION. Boot, update, SPDM and IDE, telemetry, lifecycle and debug, power and cooling, training
(21 R362, R367 to R369, R371, R372, R374, R375). -/

namespace Sys2Proof.Machine

def State.setFw (s : State) (fw : Firmware) : State := { s with fw := fw }

/-- An event that Samovar's firmware serves. -/
def managed (g : State → State) (s : State) : Out :=
  powered (fun s => if s.fw.booted && s.fw.inService then g s else s) s

/-! ## Boot (R367) -/

/-- The keys that the lifecycle selects: Ledun's while BLANK, the owner's from PROVISIONED on; in RMA they are erased. -/
def keysMatch : Lifecycle → Bool → Bool
  | .blank, owner => !owner
  | .provisioned, owner => owner
  | .secure, owner => owner
  | .rma, _ => false

/-- The ROM's checks of an image. -/
def Firmware.accepts (fw : Firmware) (x : Image) : Bool :=
  x.rsaOk && x.slhOk && keysMatch fw.lifecycle x.ownerKeys && decide (fw.minVersion.toNat ≤ x.version.toNat)

/-- The image of a bank. -/
def Firmware.bank (fw : Firmware) (a : Bool) : Option Image := if a then fw.bankA.image else fw.bankB.image

def Firmware.setBank (fw : Firmware) (a : Bool) (x : Option Image) : Firmware :=
  if a then { fw with bankA := ⟨x⟩ } else { fw with bankB := ⟨x⟩ }

/-- An image begins to run: its digest is measurement 1, and its 24 hours begin. -/
def State.runImage (s : State) (x : Image) : State :=
  s.setFw { s.fw with
    booted := true, bootStatus := if s.fw.trainFailed then .reduced else .ok, measurement := some x.digest
    running := some x, since := s.cycles, fusePending := decide (s.fw.minVersion.toNat < x.version.toNat) }

/-- BOOT: the active bank, else the other one; when both fail the PF exposes only its mailbox. -/
def execBootRom (s : State) : Out :=
  powered (fun s =>
    let good (a : Bool) : Option Image := (s.fw.bank a).bind fun x => if s.fw.accepts x then some x else none
    if s.fw.booted || s.fw.bootStatus == .failed then s
    else
      match good s.fw.activeA, good !s.fw.activeA with
      | some x, _ => s.runImage x
      | none, some x => s.runImage x
      | none, none => s.setFw { s.fw with bootStatus := .failed }) s

/-- RECOVERY_IMAGE: after both banks have failed, an image under the same checks. -/
def execRecoveryImage (img : Image) (s : State) : Out :=
  powered (fun s =>
    if s.fw.booted || s.fw.bootStatus != .failed then s
    else if s.fw.accepts img then (s.runImage img).emit (.serviceDone true 0)
    else s.emit (.serviceDone false 0)) s

/-! ## Update without draining (R368) -/

/-- One step of the PLDM sequence: taken in its order only. -/
def pldm (name : String) (from_ : UpdState) (g : Firmware → Firmware) (s : State) : Out :=
  managed (fun s =>
    if s.fw.upd = from_ then (s.setFw (g s.fw)).emit (.pldm name true) else s.emit (.pldm name false)) s

def execRequestUpdate (s : State) : Out :=
  pldm "RequestUpdate" .idle (fun fw => { fw with upd := .requested, staged := none }) s

def execPassComponentTable (s : State) : Out :=
  pldm "PassComponentTable" .requested (fun fw => { fw with upd := .table }) s

/-- UPDATE_COMPONENT: the image that will be transferred. -/
def execUpdateComponent (img : Image) (s : State) : Out :=
  pldm "UpdateComponent" .table (fun fw => { fw with upd := .component, staged := some img }) s

/-- TRANSFER_COMPLETE: the image stands in the inactive bank. -/
def execTransferComplete (s : State) : Out :=
  pldm "TransferComplete" .component (fun fw => { fw.setBank (!fw.activeA) fw.staged with upd := .transferred }) s

/-- An image staged through the PF mailbox within an SPDM session stands in the inactive bank. -/
def State.stageImage (s : State) (session : Nat) (img : Image) : State :=
  if s.fw.booted && s.fw.inService && s.fw.sessions.contains session && s.fw.upd == .idle then
    (s.setFw { s.fw.setBank (!s.fw.activeA) (some img) with upd := .transferred, staged := some img }).emit (.serviceDone true 0)
  else s.emit (.serviceDone false 0)

/-- The staged image passes R367. -/
def Firmware.stagedOk (fw : Firmware) : Bool := (fw.staged.map fw.accepts).getD false

/-- A staged image that fails is erased, and the update ends. -/
def State.eraseStaged (s : State) (name : String) : State :=
  (s.setFw { s.fw.setBank (!s.fw.activeA) none with upd := .idle, staged := none }).emit (.pldm name false)

/-- VERIFY_COMPLETE. -/
def execVerifyComplete (s : State) : Out :=
  managed (fun s =>
    if s.fw.upd ≠ .transferred then s.emit (.pldm "VerifyComplete" false)
    else if s.fw.stagedOk then (s.setFw { s.fw with upd := .verified }).emit (.pldm "VerifyComplete" true)
    else s.eraseStaged "VerifyComplete") s

def execApplyComplete (s : State) : Out :=
  pldm "ApplyComplete" .verified (fun fw => { fw with upd := .applied }) s

/-- Samovar cores 1 to 3 restart. -/
def State.restartSam (s : State) : State :=
  [1, 2, 3].foldl (fun s k => (s.putSam k SamCore.fresh).freeSamWatches k) s

/-- ACTIVATE_FIRMWARE: admission and acceptance are held, the active bank is switched, cores 1 to 3 restart. Refused
during a package warm reset. -/
def execActivateFirmware (s : State) : Out :=
  managed (fun s =>
    if s.fw.upd ≠ .applied ∨ s.fw.warmReset = true then s.emit (.pldm "ActivateFirmware" false)
    else if !s.fw.stagedOk then s.eraseStaged "ActivateFirmware"
    else
      (s.setFw { s.fw with hold := true, activeA := !s.fw.activeA, upd := .activating, since := s.cycles
                           fusePending := false }).restartSam.emit (.pldm "ActivateFirmware" true)) s

/-- 3.6 GHz cycles in 1 ms, and in 24 hours. -/
def msCycles : Nat := 3600000
def dayCycles : Nat := 24 * 3600 * 1000 * msCycles

/-- IMAGE_REPORTS_READY: the hold is released, and the image's 24 hours run. A report later than 1 ms after the image's
start comes too late. -/
def execImageReportsReady (s : State) : Out :=
  powered (fun s =>
    if s.fw.upd ≠ .activating ∨ msCycles ≤ s.cycles - s.fw.since then s
    else
      let newer := (s.fw.staged.map fun x => decide (s.fw.minVersion.toNat < x.version.toNat)).getD false
      s.setFw { s.fw with hold := false, upd := .idle, running := s.fw.staged, staged := none, fusePending := newer }) s

/-- UPDATE_READY_TIMEOUT: an image that has not reported ready within 1 ms is abandoned and the old bank restored. -/
def execUpdateReadyTimeout (s : State) : Out :=
  powered (fun s =>
    if s.fw.upd = .activating ∧ msCycles ≤ s.cycles - s.fw.since then
      let pending := (s.fw.running.map fun x => decide (s.fw.minVersion.toNat < x.version.toNat)).getD false
      (s.setFw { s.fw with hold := false, upd := .idle, activeA := !s.fw.activeA, staged := none, since := s.cycles
                           fusePending := pending }).restartSam
    else s) s

/-- SECURITY_VERSION_FUSE: an image that has run for 24 hours has its version fused. -/
def execSecurityVersionFuse (s : State) : Out :=
  powered (fun s =>
    match s.fw.running with
    | none => s
    | some x =>
      if s.fw.fusePending && s.fw.upd != .activating && decide (dayCycles ≤ s.cycles - s.fw.since) then
        s.setFw { s.fw with minVersion := x.version, fusePending := false }
      else s) s

/-! ## SPDM and IDE (R362) -/

/-- An SPDM request that the responder answers only in some states. -/
def spdmAsk (name : String) (ok : SpdmState → Bool) (g : State → State) (s : State) : Out :=
  managed (fun s => if ok s.fw.spdm then (g s).emit (.spdm name true) else s.emit (.spdm name false)) s

/-- Bytes that the responder sends: how many is a free value. -/
def State.spdmBytes (s : State) (what : String) : State :=
  let d := s.draw Config.spdmBytes
  d.2.emit (.spdmBlob what d.1)

def execGetVersion (s : State) : Out :=
  spdmAsk "VERSION" (fun _ => true) (fun s => s.setFw { s.fw with spdm := .version }) s

def execGetCapabilities (s : State) : Out :=
  spdmAsk "CAPABILITIES" (· == .version) (fun s => s.setFw { s.fw with spdm := .capabilities }) s

/-- NEGOTIATE_ALGORITHMS: RSASSA-3072 with SHA-384 and AES-256-GCM, or nothing. -/
def execNegotiateAlgorithms (offer : AlgOffer) (s : State) : Out :=
  spdmAsk "ALGORITHMS" (fun x => x == .capabilities && offer.rsassa3072 && offer.sha384 && offer.aes256gcm)
    (fun s => s.setFw { s.fw with spdm := .negotiated }) s

def execGetDigests (s : State) : Out := spdmAsk "DIGESTS" (· == .negotiated) (fun s => s.spdmBytes "digests") s

def execGetCertificate (slot : Nat) (s : State) : Out :=
  spdmAsk "CERTIFICATE" (fun x => x == .negotiated && decide (slot < 8)) (fun s => s.spdmBytes "certificate") s

def execSpdmChallenge (_nonce : Nat) (s : State) : Out :=
  spdmAsk "CHALLENGE_AUTH" (· == .negotiated) (fun s => s.spdmBytes "signature") s

/-- GET_MEASUREMENTS: measurement 1 is the digest of the accepted image; 0xFF asks for all of them, 0 for their
number. -/
def execGetMeasurements (index : Nat) (s : State) : Out :=
  spdmAsk "MEASUREMENTS" (fun x => x == .negotiated && (index == 0 || index == 1 || index == 0xFF))
    (fun s => s.emit (.measurements (if index = 0 then none else s.fw.measurement))) s

/-- KEY_EXCHANGE opens a session, which FINISH establishes when what the requester sends verifies. -/
def execKeyExchange (session : Nat) (s : State) : Out :=
  managed (fun s =>
    if s.fw.spdm = .negotiated ∧ (s.fw.sessions ++ s.fw.openSessions).contains session = false then
      (s.setFw { s.fw with openSessions := s.fw.openSessions ++ [session] }).emit (.spdm "KEY_EXCHANGE_RSP" true)
    else s.emit (.spdm "KEY_EXCHANGE_RSP" false)) s

def execSpdmFinish (session : Nat) (s : State) : Out :=
  managed (fun s =>
    if !s.fw.openSessions.contains session then s.emit (.spdm "FINISH_RSP" false)
    else
      let d := s.draw (Config.spdmVerifies session)
      let rest := s.fw.openSessions.filter (· != session)
      (d.2.setFw { s.fw with openSessions := rest
                             sessions := if d.1 then s.fw.sessions ++ [session] else s.fw.sessions }).emit
        (.spdm "FINISH_RSP" d.1)) s

def execEndSession (session : Nat) (s : State) : Out :=
  managed (fun s =>
    if s.fw.sessions.contains session then
      (s.setFw { s.fw with sessions := s.fw.sessions.filter (· != session) }).emit (.spdm "END_SESSION_ACK" true)
    else s.emit (.spdm "END_SESSION_ACK" false)) s

/-- The tenants of a mask of virtual functions. -/
def tenantsOf (vfs : BitVec 16) : List Nat := (List.range 16).filter fun n => bit vfs n

def State.cancelTenant (s : State) (n : Nat) : State :=
  (s.launches.keys.filter fun id => ((s.launch id).map fun (l : Launch) => l.tenant == n).getD false).foldl
    (fun s id => s.cancelLaunch id 8) s

/-- The functions that a stream covers: those named for one of the four selective streams, all of them for link IDE, which
protects the whole link (DEDUCED, log 84: it is number 4 in the model). -/
def ideCover (stream : Nat) (vfs : BitVec 16) : BitVec 16 := if stream = 4 then 0xFFFF else vfs

/-- IDE_KM_REQUEST: keys are set and a stream is established; the functions it covers accept TLPs again. -/
def execIdeKmRequest (stream key : Nat) (vfs : BitVec 16) (s : State) : Out :=
  managed (fun s =>
    if 4 < stream ∨ s.fw.sessions = [] then s.emit (.spdm "IDE_KM" false)
    else
      let vfs := ideCover stream vfs
      let s := s.setFw { s.fw with ide := s.fw.ide.put stream { secure := true, key := key, vfs := vfs } }
      ((tenantsOf vfs).foldl (fun s n => s.updTenant n fun t => { t with blocked := false }) s).emit (.spdm "IDE_KM" true)) s

/-- A function that is no longer enabled is reset (R370 VF disable): its watches and mailbox, and the tenant's launches. -/
def State.disableVfs (s : State) (were : List Nat) : State :=
  were.foldl (fun s n => if s.vfEnabled n then s else s.resetFunction n) s

/-- IDE_STREAM_INSECURE: every launch of every tenant on the stream is cancelled, and those functions accept no TLP, so
that they are enabled no more. -/
def execIdeStreamInsecure (stream : Nat) (s : State) : Out :=
  powered (fun s =>
    match s.fw.ide.find stream with
    | none => s
    | some x =>
      if !x.secure then s
      else
        let were := (List.range 16).filter s.vfEnabled
        let s := s.setFw { s.fw with ide := s.fw.ide.put stream { x with secure := false } }
        ((tenantsOf x.vfs).foldl (fun s n =>
          (s.cancelTenant n).updTenant n fun t => { t with blocked := true }) s).disableVfs were) s

/-! ## Telemetry (R369) -/

/-- UNIT of a sensor (Tables 21-6 and 21-7), or none for an id that is not listed. -/
def sensorUnit (id : Nat) : Option Nat :=
  if 0x01 ≤ id ∧ id ≤ 0x04 then some 0
  else if 0x10 ≤ id ∧ id ≤ 0x1F then some 0
  else if 0x20 ≤ id ∧ id ≤ 0x24 then some 1
  else if 0x30 ≤ id ∧ id ≤ 0x3F then some 2
  else if id = 0x40 then some 5
  else if 0x50 ≤ id ∧ id ≤ 0x5F then some 5
  else if id = 0x60 ∨ id = 0x61 ∨ id = 0x70 ∨ id = 0x80 then some 3
  else none

/-- The budget with the least remaining fraction among (number, limit, use), the lower number first; 0 for none. -/
def gating : List (Nat × Nat × Nat) → Nat × Int × Int → Nat
  | [], best => best.1
  | (n, limit, use) :: bs, best =>
    let left : Int := limit - use
    if limit = 0 then gating bs best
    else if best.1 = 0 ∨ left * best.2.2 < best.2.1 * limit then gating bs (n, left, limit)
    else gating bs best

/-- The gating budget of a tenant (17 R313). -/
def State.gatingBudget (s : State) (n : Nat) : Nat :=
  let t := s.tenant n
  gating [(1, t.cbud, (s.coresOf n).length), (2, 16000 * t.bbud, s.bandwidthUse n), (3, t.pbud, Config.powerUse n s.free)]
    (0, 0, 0)

/-- Boot status as a sensor shows it. -/
def BootStatus.shown : BootStatus → Int
  | .failed => 1
  | .reduced => 2
  | .ok => 0
  | .off => 0

/-- VALUE of a sensor: what the state holds, or a measured value. -/
def State.sensorVal (s : State) (id : Nat) : Int :=
  if id = 0x40 then s.fw.bootStatus.shown
  else if 0x50 ≤ id ∧ id ≤ 0x5F then s.gatingBudget (id - 0x50)
  else if id = 0x60 then s.fw.corrected
  else if id = 0x61 then s.fw.poisonedCount
  else if id = 0x70 then s.fabric.dropped
  else if id = 0x80 then (s.kslots.filter fun e => decide (e.2.state = .deliveryWait)).length
  else Config.sensorValue id s.free

/-- The sensor shows a count or state of the model alone, so that its exponent is 0. -/
def sensorExact (id : Nat) : Bool := decide (0x40 ≤ id)

/-- The sensors whose VALUE the state holds and that may fall again. -/
def peakIds : List Nat := [0x40, 0x80] ++ (List.range 16).map (0x50 + ·)

/-- PEAK of a sensor rises to a VALUE. -/
def raisePeak (t : Tbl Int) (id : Nat) (v : Int) : Tbl Int := if t.getD id 0 < v then t.put id v else t

/-- Every step notes the PEAK of the sensors whose VALUE the state holds. -/
def State.notePeaks (s : State) : State :=
  { s with fw := { s.fw with peaks := peakIds.foldl (fun t id => raisePeak t id (s.sensorVal id)) s.fw.peaks } }

/-- A signed number of n bytes. -/
def signedBytes (n : Nat) (v : Int) : List Byte := leBytes n (v % 2 ^ (8 * n)).toNat

/-- The record of Table 21-6. -/
def sensorRecord (id : BitVec 16) (unit : Nat) (exp value peak : Int) (status : Nat) : List Byte :=
  leBytes 2 id.toNat ++ leBytes 1 unit ++ signedBytes 1 exp ++ signedBytes 4 value ++ signedBytes 4 peak ++ leBytes 1 status ++
    leBytes 3 0

/-- STATUS of a sensor: the worst that holds of it. -/
def Firmware.sensorStatus (fw : Firmware) (n : Nat) : Nat :=
  if fw.unavailable.contains n then 3 else if fw.critical.contains n then 2 else if fw.warnings.contains n then 1 else 0

/-- GET_SENSOR_READING: the Ledun record. PEAK is at least every VALUE reported since the last clear; between readings a
measured sensor may have stood higher, by a free value. Of what the state itself holds the greatest VALUE is kept as it
arises (R369). -/
def execGetSensorReading (id : BitVec 16) (s : State) : Out :=
  powered (fun s =>
    let n := id.toNat
    match sensorUnit n with
    | none => s.emit (.sensorInvalid id)
    | some u =>
      let v := s.sensorVal n
      let s1 := (s.draw Config.sensorValue).2
      let old := s1.fw.peaks.getD n v
      let top := if sensorExact n then v else max v (Config.sensorValue n s1.free)
      let p := max old top
      let s2 := (s1.draw Config.sensorValue).2
      (s2.setFw { s2.fw with peaks := s2.fw.peaks.put n p }).emit
        (.sensor (sensorRecord id u (if sensorExact n then 0 else Config.sensorExp n) v p (s.fw.sensorStatus n)))) s

/-- PEAK is cleared. -/
def State.clearPeak (s : State) (id : Nat) : State := s.setFw { s.fw with peaks := s.fw.peaks.del id }

/-- A sensor is lost, or comes back. -/
def State.sensorAway (s : State) (id : Nat) (away : Bool) : State :=
  let rest := s.fw.unavailable.filter (· != id)
  s.setFw { s.fw with unavailable := if away then rest ++ [id] else rest }

/-! ## Lifecycle and debug (R372) -/

/-- The permitted combinations of Table 21-10. -/
def comboOk : Lifecycle → DebugState → Bool
  | _, .off => true
  | .blank, .authorised => false
  | .blank, .opened => true
  | .provisioned, .authorised => true
  | .provisioned, .opened => false
  | .secure, .authorised => true
  | .secure, .opened => false
  | .rma, .authorised => false
  | .rma, .opened => true

/-- The recorded consents with that of a tenant. -/
def consentOf (fw : Firmware) (tenant : Nat) : List Nat :=
  if fw.consents.contains tenant then fw.consents else fw.consents ++ [tenant]

/-- DEBUG_TOKEN_REQUEST: authorised debug needs a token that authenticates, and in SECURE the tenant's consent, which is
recorded. -/
def execDebugTokenRequest (target : DebugState) (tenant : Nat) (s : State) : Out :=
  managed (fun s =>
    if !comboOk s.fw.lifecycle target ∨ (target = .authorised ∧ 16 ≤ tenant) then s.emit (.refused "debug")
    else
      match target with
      | .authorised =>
        let d := s.draw Config.debugTokenValid
        if d.1 then
          let fw := d.2.fw
          d.2.setFw { fw with
            debug := .authorised, debugTenant := tenant
            consents := if fw.lifecycle = .secure then consentOf fw tenant else fw.consents }
        else d.2.emit (.refused "debug")
      | t => s.setFw { s.fw with debug := t }) s

/-- The lifecycle changes: authorised debug in SECURE stands with the tenant's consent recorded, and RMA erases the keys,
those of the IDE streams and of the SPDM sessions among them (Table 21-10; DEDUCED, log 84). -/
def Firmware.enter (fw : Firmware) (target : Lifecycle) : Firmware :=
  match target with
  | .secure => { fw with lifecycle := target, consents := if fw.debug = .authorised then consentOf fw fw.debugTenant else fw.consents }
  | .rma => { fw with lifecycle := target, ide := [], sessions := [], openSessions := [] }
  | _ => { fw with lifecycle := target }

/-- LIFECYCLE_CHANGE: refused when the debug state would not be permitted. -/
def execLifecycleChange (target : Lifecycle) (s : State) : Out :=
  managed (fun s =>
    if !comboOk target s.fw.debug then s.emit (.refused "lifecycle")
    else
      let were := (List.range 16).filter s.vfEnabled
      (s.setFw (s.fw.enter target)).disableVfs were) s

/-- The piece of state that a debugger names, as it stands. -/
def State.debugGet (s : State) (k : DebugKind) (n : Nat) : DebugData :=
  match k with
  | .memory => .memory (cohByte s.wgs s.mem n)
  | .l2 => .l2 (s.l2.find n)
  | .poison => .poison (s.poison.contains n)
  | .core => .core (s.core n)
  | .cluster => .cluster (s.cluster n)
  | .workgroup => .workgroup (s.wg n)
  | .launch => .launch (s.launch n)
  | .ended => .ended s.ended
  | .placer => .placer (s.placer n)
  | .hostQueue => .hostQueue (s.hostQueues.find n)
  | .submissionQueue => .submissionQueue (s.kqueues.find n)
  | .queueCount => .queueCount (s.qcount.getD n 0)
  | .queuePending => .queuePending (s.pending.getD n [])
  | .turns => .turns s.frontPtr s.frontTurn s.kettlePtr s.kettleTurn s.kserial s.lastPoll
  | .tenant => .tenant (s.tenant n)
  | .watch => .watch (s.watches.find n)
  | .caddyModel => .caddyModel (s.caddyModels.find n)
  | .caddy => .caddy (s.caddyOf n)
  | .slice => .slice (s.slices.find n)
  | .model => .model (s.kmodels.find n)
  | .slot => .slot (s.kslots.find n)
  | .claims => .claims s.claims
  | .openBars => .openBars s.openBars
  | .flips => .flips s.flips
  | .fabric => .fabric s.fabric
  | .images => .images s.images
  | .samovar => .samovar (vget s.sam n SamCore.fresh)
  | .sram => .sram (cellGet s.sram n)
  | .firmware => .firmware s.fw
  | .diesInReset => .diesInReset s.diesInReset
  | .pageClock => .pageClock s.pageClock
  | .clock => .clock s.cycles
  | .traffic => .traffic s.traffic

/-- The kind of a piece of state. -/
def DebugData.kind : DebugData → DebugKind
  | .memory _ => .memory
  | .l2 _ => .l2
  | .poison _ => .poison
  | .core _ => .core
  | .cluster _ => .cluster
  | .workgroup _ => .workgroup
  | .launch _ => .launch
  | .ended _ => .ended
  | .placer _ => .placer
  | .hostQueue _ => .hostQueue
  | .submissionQueue _ => .submissionQueue
  | .queueCount _ => .queueCount
  | .queuePending _ => .queuePending
  | .turns _ _ _ _ _ _ => .turns
  | .tenant _ => .tenant
  | .watch _ => .watch
  | .caddyModel _ => .caddyModel
  | .caddy _ => .caddy
  | .slice _ => .slice
  | .model _ => .model
  | .slot _ => .slot
  | .claims _ => .claims
  | .openBars _ => .openBars
  | .flips _ => .flips
  | .fabric _ => .fabric
  | .images _ => .images
  | .samovar _ => .samovar
  | .sram _ => .sram
  | .firmware _ => .firmware
  | .diesInReset _ => .diesInReset
  | .pageClock _ => .pageClock
  | .clock _ => .clock
  | .traffic _ => .traffic

/-- Sets or removes the entry of a table. -/
def Tbl.set? {α : Type} (t : Tbl α) (n : Nat) : Option α → Tbl α
  | some x => t.put n x
  | none => t.del n

/-- Cells in their canonical form. -/
def canonCells (m : List Host.Cell) : List Host.Cell := m.foldl (fun c e => cellPut c e.1 e.2) []

/-- A workgroup whose memories are in their canonical form. -/
def Workgroup.canon (w : Workgroup) : Workgroup := { w with mem := canonCells w.mem, scale := canonCells w.scale }

/-- A piece of state takes what the debugger gives; no watch, check or copy notices. -/
def State.debugPut (s : State) (n : Nat) (x : DebugData) : State :=
  match x with
  | .memory b => s.setMem (cellPut s.mem n b)
  | .l2 x => s.setL2 (s.l2.set? n x)
  | .poison bad => s.setPoison (s.poison.filter (· != n) ++ if bad then [n] else [])
  | .core x => s.putCore n x
  | .cluster x => s.putCluster n x
  | .workgroup x => s.setWgs (s.wgs.set? n (x.map Workgroup.canon))
  | .launch x => s.setLaunches (s.launches.set? n x)
  | .ended x => { s with ended := x }
  | .placer x => { s with placers := s.placers.put n x }
  | .hostQueue x => { s with hostQueues := s.hostQueues.set? n x }
  | .submissionQueue x => { s with kqueues := s.kqueues.set? n x }
  | .queueCount k => { s with qcount := s.qcount.put n k }
  | .queuePending x => { s with pending := s.pending.put n x }
  | .turns a b c d e f => { s with frontPtr := a, frontTurn := b, kettlePtr := c, kettleTurn := d, kserial := e, lastPoll := f }
  | .tenant x => { s with tenants := s.tenants.put n x }
  | .watch x => s.setWatches (s.watches.set? n x)
  | .caddyModel x => { s with caddyModels := s.caddyModels.set? n x }
  | .caddy x => { s with caddy := s.caddy.put n x }
  | .slice x => { s with slices := s.slices.set? n x }
  | .model x => { s with kmodels := s.kmodels.set? n x }
  | .slot x => { s with kslots := s.kslots.set? n x }
  | .claims x => { s with claims := x }
  | .openBars x => { s with openBars := x }
  | .flips x => { s with flips := x }
  | .fabric x => s.setFabric x
  | .images x => { s with images := x }
  | .samovar x => s.putSam n x
  | .sram b => { s with sram := cellPut s.sram n b }
  | .firmware x => s.setFw x
  | .diesInReset x => { s with diesInReset := x }
  | .pageClock x => { s with pageClock := x }
  | .clock n => { s with cycles := n }
  | .traffic x => { s with traffic := x }

/-- A piece of state belongs to a launch of the tenant. -/
def DebugData.ofTenant (ten : Nat) : DebugData → Bool
  | .workgroup (some w) => w.tenant == ten
  | .launch (some l) => l.tenant == ten
  | _ => false

/-- The debugger reaches a piece of state: all of it in open debug, in authorised debug the launches of the named tenant
and their workgroups (R372; DEDUCED, log 45). -/
def State.debugs (s : State) (x : DebugData) : Bool :=
  match s.fw.debug with
  | .opened => true
  | .authorised => x.ofTenant s.fw.debugTenant
  | .off => false

/-- A debugger reads a piece of state. -/
def State.debugRead (s : State) (k : DebugKind) (n : Nat) : State :=
  let x := s.debugGet k n
  if s.debugs x then s.emit (.debugData n x) else s.emit (.refused "debug")

/-- A debugger writes a piece of state; in authorised debug it stays one of the tenant's. -/
def State.debugWrite (s : State) (n : Nat) (x : DebugData) : State :=
  if s.debugs x && s.debugs (s.debugGet x.kind n) then s.debugPut n x else s.emit (.refused "debug")

/-! ## Power and cooling (R371, R375) -/

def State.anyTenant (s : State) : Bool := (List.range 16).any s.vfEnabled

/-- A die's logic is off: of its state only core store, L2 and DRAM are kept (Table 21-9). Units on the die end, and its
cores, translation units, Caddy, placer and gateway start again as after reset. Of the core store the rows that serve as L1
keep their copies (07 R131); those of the units that have ended keep theirs out of every agent's reach, since scratchpad and
stash read zero at an admission and a fibre's registers start anew (07 R130, 01 R33). Samovar, the host link and Kettle, which bring the die back, stay (DESIGN CHOICE, log 42). -/
def State.retainDie (s : State) (d : Nat) : State :=
  let s := s.clearDie d true
  { s with caddy := s.caddy.del d, placers := s.placers.del d
           fw := { s.fw with debug := .off, dieRetention := s.fw.dieRetention.filter (· != d) ++ [d] } }

/-- POWER_STATE_CHANGE. Kettle, Caddy and the host link stay in P0 or P1 whenever a tenant is enabled, so that neither
die retention nor off is entered then; both end a debug session. -/
def execPowerStateChange (target : PowerTarget) (s : State) : Out :=
  match target with
  | .p0 c => powered (fun s => if 64 ≤ c then s else s.putCluster c { s.cluster c with p1 := false }) s
  | .p1 c => powered (fun s => if 64 ≤ c then s else s.putCluster c { s.cluster c with p1 := true }) s
  | .coreIdle c => powered (fun s => if 512 ≤ c then s else s.putCore c { s.core c with gated := true }) s
  | .coreRun c => powered (fun s => if 512 ≤ c then s else s.putCore c { s.core c with gated := false }) s
  | .dieRetention d =>
    powered (fun s =>
      if 4 ≤ d ∨ s.anyTenant = true then s.emit (.refused "power")
      else s.retainDie d) s
  | .dieRun d => powered (fun s => s.setFw { s.fw with dieRetention := s.fw.dieRetention.filter (· != d) }) s
  | .off => powered (fun s => if s.anyTenant then s.emit (.refused "power") else s.off) s

/-- The cluster in P0 with the greatest power among the given ones. -/
def hottest (power : Nat → Nat) : List Nat → Option Nat
  | [] => none
  | c :: cs =>
    match hottest power cs with
    | none => some c
    | some d => if power c < power d then some d else some c

/-- The sensor of a limit: a die's hottest point, or, for 4, module power. -/
def limitSensor (die : Nat) : Nat := if die = 4 then 0x20 else die + 1

/-- A limit is exceeded as measured now: module power is over the cap, or a die's hottest point has reached 105 °C. -/
def State.overLimit (s : State) (die : Nat) : Bool × State :=
  let d := s.draw (Config.sensorValue (limitSensor die))
  (if die = 4 then decide (s.fw.capW < d.1) else decide (105 ≤ d.1), d.2)

/-- The clusters in P0 that a limit concerns: for the cap those of every die. -/
def State.fastClusters (s : State) (die : Nat) : List Nat :=
  (List.range 64).filter fun c => (decide (die = 4) || decide (c / 16 = die)) && !(s.cluster c).p1

/-- Moves clusters to P1, the one with the greatest power first, until the limit is met or none is left (fuel: the
clusters). -/
def throttle (die : Nat) : Nat → State → State
  | 0, s => s
  | n + 1, s =>
    let d := s.draw Config.clusterPower
    match hottest (fun c => d.1 c) (s.fastClusters die) with
    | none => d.2
    | some c =>
      let m := (d.2.putCluster c { d.2.cluster c with p1 := true }).overLimit die
      if m.1 then throttle die n m.2 else m.2

/-- A limit has been exceeded: its sensor's STATUS is warning, and clusters move to P1 (R375). -/
def State.throttled (s : State) (die : Nat) : State :=
  let n := limitSensor die
  throttle die 64 (s.setFw { s.fw with warnings := if s.fw.warnings.contains n then s.fw.warnings else s.fw.warnings ++ [n] })

/-- THERMAL_THROTTLE: `die` names the die that has reached 105 °C; 4 stands for the cap. -/
def execThermalThrottle (die : Nat) (s : State) : Out := powered (fun s => if 4 < die then s else s.throttled die) s

/-- POWER_CAP_WRITE: up to 4,400 W. A cap that module power exceeds as it is written is met at once. -/
def execPowerCapWrite (watts : Nat) (s : State) : Out :=
  managed (fun s =>
    if 4400 < watts then s.emit (.refused "power cap")
    else
      let m := (s.setFw { s.fw with capW := watts }).overLimit 4
      if m.1 then m.2.throttled 4 else m.2) s

/-- THERMAL_DIE_RESET: at 115 °C Samovar resets the die and reports critical. -/
def execThermalDieReset (die : Nat) (s : State) : Out :=
  powered (fun s =>
    if 4 ≤ die then s
    else
      let t := s.resetDie die
      t.setFw { t.fw with critical := if t.fw.critical.contains (die + 1) then t.fw.critical
                                      else t.fw.critical ++ [die + 1] }) s

/-! ## Bring-up (R374) -/

/-- The training items of Table 21-11 in order: 16 stacks, 6 splice links, PCIe, 32 fabric ports. -/
def trainItems : Nat := 55

/-- Full service begins: the launch queues that were registered before are read, and watched from then on. -/
def State.fullServe (s : State) : State :=
  { s with fw := { s.fw with fullService := true }, hostQueues := s.hostQueues.each fun _ r => { r with polled := true } }

/-- TRAINING_STEP_COMPLETE: the next item in order has trained, or has failed and leaves the part in reduced service. -/
def execTrainingStepComplete (ok : Bool) (s : State) : Out :=
  powered (fun s =>
    if s.fw.fullService || s.fw.trainFailed then s
    else if ok then
      let t := s.setFw { s.fw with trained := s.fw.trained + 1 }
      if trainItems ≤ t.fw.trained then t.fullServe else t
    else
      s.setFw { s.fw with trainFailed := true
                          bootStatus := if s.fw.bootStatus = .failed then .failed else .reduced }) s

end Sys2Proof.Machine
end

