-- ==== Sys2Proof/Machine/HostLink.lean ====
section
/-! DEFINITION. TLPs of the host: writes, reads, AtomicOps, and registers of the BARs (21 R361, R373). -/

namespace Sys2Proof.Machine

/-- A function accepts TLPs: the PF once the part has booted, a virtual function while it is enabled (21 R362). -/
def State.acceptsTlp (s : State) : HostFn → Bool
  | .pf => s.fw.booted && s.fw.inService
  | .vf n => s.vfEnabled n

/-- The bytes lie in the part's own memory, on dies that are up. -/
def State.hostReach (s : State) (pa n : Nat) : Bool :=
  decide (1 ≤ n) && (sectorsOf pa n).all fun k =>
    s.tierAt (32 * k) != .none && tierOf (32 * k) != .host && !s.dieDown (homeDie (32 * k))

/-- Writes and reads of any length, line by line. -/
def State.hostPut (s : State) (ps : List (Nat × Nat)) (bs : List Byte) (kind : StoreKind) : State :=
  match ps with
  | [] => s
  | (pa, n) :: ps => ((s.physWrite none pa (bs.take n)).afterStore s none (none, pa) n kind).hostPut ps (bs.drop n) kind

def State.hostGet (s : State) : List (Nat × Nat) → List Byte × State
  | [] => ([], s)
  | (pa, n) :: ps =>
    let r := s.physRead none pa n
    let q := r.2.hostGet ps
    (r.1 ++ q.1, q.2)

/-- A TLP that a function accepts. -/
def tlp (fn : HostFn) (ok : Bool) (g : State → State) (s : State) : Out :=
  powered (fun s => if s.acceptsTlp fn && ok then g s else s.emit (.hostReject fn)) s

/-- HOST_WRITE_TLP: the bytes are written; EP poisons the sectors. -/
def execHostWriteTlp (fn : HostFn) (pa : Nat) (bytes : List (BitVec 8)) (ep : Bool) (s : State) : Out :=
  tlp fn (s.hostReach pa bytes.length) (fun s =>
    let s := s.hostPut (partsOf pa bytes.length) bytes .plain
    if ep then s.poisonAt pa bytes.length else s) s

/-- HOST_READ_TLP: the completion carries EP when a sector read is poisoned. -/
def execHostReadTlp (fn : HostFn) (pa len : Nat) (s : State) : Out :=
  tlp fn (s.hostReach pa len) (fun s =>
    let r := s.hostGet (partsOf pa len)
    r.2.emit (.hostRead fn r.1 (s.poisoned pa len))) s

/-- What an AtomicOp stores over `old`. -/
def hostNew (op : HostAtomic) (old x y : Nat) : Nat :=
  match op with
  | .fetchAdd => old + x
  | .swap => x
  | .cas => if old = x then y else old

/-- HOST_ATOMICOP: 32 or 64 bits, naturally aligned. On a poisoned sector it is not performed (21 R373). -/
def execHostAtomicop (fn : HostFn) (op : HostAtomic) (wide : Bool) (pa : Nat) (x y : BitVec 64) (s : State) : Out :=
  let n := if wide then 8 else 4
  tlp fn (s.hostReach pa n && decide (pa % n = 0)) (fun s =>
    if s.poisoned pa n then s.emit (.hostAtomic fn 0 false)
    else
      let r := s.physRead none pa n
      let old := leNat r.1
      let m := 2 ^ (8 * n)
      ((r.2.physWrite none pa (leBytes n (hostNew op old (x.toNat % m) (y.toNat % m)))).afterStore s none (none, pa) n
        .atomic).emit
        (.hostAtomic fn (BitVec.ofNat 64 old) true)) s

/-- The size of a function's BAR0 (Table 21-1), and its number in the register table. -/
def barSize : HostFn → Nat
  | .pf => 64 * 2 ^ 20
  | .vf _ => 2 ^ 20

def fnNumber : HostFn → Nat
  | .pf => 16
  | .vf n => n

/-- Where a register of a function's BAR0 stands in the register table. -/
def barKey (fn : HostFn) (off : Nat) : Nat := fnNumber fn * 2 ^ 26 + off

/-- MMIO_REGISTER_WRITE: a register of BAR0 without a row of its own takes the value; among them are the entries of a
function's MSI-X table. -/
def execMmioRegisterWrite (fn : HostFn) (off : Nat) (val : BitVec 64) (s : State) : Out :=
  tlp fn (decide (off + 8 ≤ barSize fn) && decide (off % 8 = 0)) (fun s =>
    s.setFw { s.fw with mmio := s.fw.mmio.put (barKey fn off) val }) s

/-- A register of BAR0 is read; what one holds that nothing has written is a free value (log 83). -/
def State.mmioRead (s : State) (fn : HostFn) (off : Nat) : State :=
  if s.acceptsTlp fn && decide (off + 8 ≤ barSize fn) && decide (off % 8 = 0) then
    match s.fw.mmio.find (barKey fn off) with
    | some v => s.emit (.mmioData fn off v)
    | none =>
      let a := s.draw Config.freeWord
      let b := a.2.draw Config.freeWord
      b.2.emit (.mmioData fn off (pair a.1 b.1))
  else s.emit (.hostReject fn)

/-- A virtual function's mailbox arms a watch entry on a 64-bit word of the tenant with an MSI-X vector: the checks are
those of any watch (09 R189, 21 R366). An entry that its first evaluation fires signals its vector at once (09 R190). -/
def State.armMsix (s : State) (vf vector va : Nat) (mask operand : DWord) (cond : BitVec 3) : State :=
  if !s.vfEnabled vf || decide (64 ≤ vector) || decide (6 ≤ cond.toNat) || decide (va % 8 ≠ 0) then s.emit (.hostReject (.vf vf))
  else
    let s1 := s.agentWalk vf va 8
    match s.agentPa vf va false with
    | .error _ => s1.emit (.hostReject (.vf vf))
    | .ok pa =>
      match if tierOf pa = .host then none else s1.freeGeneral (watchGroup pa) with
      | none => s1.emit (.hostReject (.vf vf))
      | some e =>
        let t := s1.arm e pa mask operand cond (.msix vf vector)
        if ((t.watches.find e).map (·.fired)).getD false then t.emit (t.msixSignal (vf, vector)) else t

end Sys2Proof.Machine
end

