-- ==== Sys2Proof/Machine/LaneExchange.lean ====
section
/-! DEFINITION. The exchange words of the lane set: values that pass from strand to strand (05 R110 to R115). Every
value they read is waited for (04 R80). -/

namespace Sys2Proof.Machine

/-- Writes to each strand of Active the value of vA of its source strand, all sources read first (05 R110, R111). -/
def exchange (sc g : BitVec 2) (reads : List Opnd) (d a : BitVec 6) (src : Fibre → Nat → Nat) (s : State) : Out :=
  word (xUse sc g (reads ++ [.v a.toNat]) [.v d.toNat]) noPre (fun _ _ act f s =>
    .done (overStrands (fun i _ h => h.putV i d.toNat (f.xchV (src f i) a.toNat)) act 0 f) s) s

/-- `xch` by index register (05 R110). -/
def execLXch (o : SGUDAB) (s : State) : Out :=
  exchange o.s o.g (opLB o.u o.b) o.d o.a (fun f i => (f.xB o.u o.b i).toNat % 16) s

/-- `xch.imm` (05 R110). -/
def execLXchImm (o : SGDAJ) (s : State) : Out := exchange o.s o.g [] o.d o.a (fun _ _ => o.j.toNat) s

/-- `xch.xor` (05 R110). -/
def execLXchXor (o : SGDAJ) (s : State) : Out := exchange o.s o.g [] o.d o.a (fun _ i => i ^^^ o.j.toNat) s

/-- `shup`: strand i − n, or its own value (05 R111). -/
def execLShup (o : SGDAN4) (s : State) : Out :=
  exchange o.s o.g [] o.d o.a (fun _ i => if i < o.n.toNat then i else i - o.n.toNat) s

/-- `shdn`: strand i + n, or its own value (05 R111). -/
def execLShdn (o : SGDAN4) (s : State) : Out :=
  exchange o.s o.g [] o.d o.a (fun _ i => if 15 < i + o.n.toNat then i else i + o.n.toNat) s

/-- `shup.wrap` (05 R111). -/
def execLShupWrap (o : SGDAN4) (s : State) : Out :=
  exchange o.s o.g [] o.d o.a (fun _ i => (i + 16 - o.n.toNat) % 16) s

/-- `shdn.wrap` (05 R111). -/
def execLShdnWrap (o : SGDAN4) (s : State) : Out :=
  exchange o.s o.g [] o.d o.a (fun _ i => (i + o.n.toNat) % 16) s

/-- A combining operation of Table 5-3 with its flags. -/
abbrev Comb := Word → Word → Word × Word

def combAddI : Comb := fun r x => plain (r + x)
def combAddF : Comb := fun r x => fadd .rne r x
def combMin : Comb := fun r x => plain (minI r x)
def combMax : Comb := fun r x => plain (maxI r x)
def combAnd : Comb := fun r x => plain (r &&& x)
def combOr : Comb := fun r x => plain (r ||| x)

/-- What seeds a chain: sB, or the identity. A bound port that an empty Active does not pop has no stated value
there: a free value. -/
def chainSeed (o : SGUDAB) (ident : Word) (act : List Nat) (f : Fibre) (s : State) : Word × State :=
  if o.u = 1 then
    if act.isEmpty && (f.bound o.b.toNat).isSome then s.draw Config.freeWord else (f.laneS o.b.toNat, s)
  else (ident, s)

/-- The running value, its flags and the values of the strands of a chain over Active (05 R112). -/
def chain (op : Comb) (a : BitVec 6) (f : Fibre) : List Nat → Word → Word → List (Nat × Word) → Word × Word × List (Nat × Word)
  | [], run, fl, vs => (run, fl, vs)
  | i :: is, run, fl, vs =>
    let r := op run (f.xchV i a.toNat)
    chain op a f is r.1 (fl ||| r.2) (vs ++ [(i, r.1)])

/-- `scan` (05 R112). -/
def scanWord (o : SGUDAB) (op : Comb) (ident : Word) (s : State) : Out :=
  word (xUse o.s o.g ([.v o.a.toNat] ++ if o.u = 1 then [.s o.b.toNat] else []) [.v o.d.toNat]) noPre
    (fun _ _ act f s =>
      let seed := chainSeed o ident act f s
      let r := chain op o.a f act seed.1 0 []
      .done ((r.2.2.foldl (fun h e => h.putV e.1 o.d.toNat e.2) f).sticky r.2.1) seed.2) s

/-- `red` (05 R113): the final value to sD, also when Active is empty. -/
def redWord (o : SGUDAB) (op : Comb) (ident : Word) (s : State) : Out :=
  word { xUse o.s o.g ([.v o.a.toNat] ++ if o.u = 1 then [.s o.b.toNat] else []) [.s o.d.toNat] with always := true } noPre
    (fun _ _ act f s =>
      let seed := chainSeed o ident act f s
      let r := chain op o.a f act seed.1 0 []
      .done ((f.putS o.d.toNat r.1).sticky r.2.1) seed.2) s

/-- `scan.add.i32` (05 R112). -/
def execLScanAddI32 (o : SGUDAB) (s : State) : Out := scanWord o combAddI 0 s

/-- `scan.add.f32` (05 R112). -/
def execLScanAddF32 (o : SGUDAB) (s : State) : Out := scanWord o combAddF 0x80000000 s

/-- `scan.min.i32` (05 R112). -/
def execLScanMinI32 (o : SGUDAB) (s : State) : Out := scanWord o combMin 0x7FFFFFFF s

/-- `scan.max.i32` (05 R112). -/
def execLScanMaxI32 (o : SGUDAB) (s : State) : Out := scanWord o combMax 0x80000000 s

/-- `red.add.i32` (05 R113). -/
def execLRedAddI32 (o : SGUDAB) (s : State) : Out := redWord o combAddI 0 s

/-- `red.add.f32` (05 R113). -/
def execLRedAddF32 (o : SGUDAB) (s : State) : Out := redWord o combAddF 0x80000000 s

/-- `red.and` (05 R113). -/
def execLRedAnd (o : SGUDAB) (s : State) : Out := redWord o combAnd 0xFFFFFFFF s

/-- `red.or` (05 R113). -/
def execLRedOr (o : SGUDAB) (s : State) : Out := redWord o combOr 0 s

/-- The extreme value of the chain of R114 and the index of the first strand that holds it. -/
def extreme (better : Word → Word → Bool) (a : BitVec 6) (f : Fibre) : List Nat → Word → Word → Word × Word
  | [], best, ix => (best, ix)
  | i :: is, best, ix =>
    let x := f.xchV i a.toNat
    if ix = 0xFFFFFFFF ∨ better x best = true then extreme better a f is x (BitVec.ofNat 32 i)
    else extreme better a f is best ix

/-- `redix` (05 R114). -/
def redixWord (o : SGDA) (better : Word → Word → Bool) (ident : Word) (s : State) : Out :=
  word { xUse o.s o.g [.v o.a.toNat] [.s2 o.d.toNat] with always := true } noPre (fun _ _ act f s =>
    let r := extreme better o.a f act ident 0xFFFFFFFF
    .done (f.putS64 o.d.toNat (pair r.1 r.2)) s) s

/-- `redix.min.i32` (05 R114). -/
def execLRedixMinI32 (o : SGDA) (s : State) : Out := redixWord o (fun x b => x.toInt < b.toInt) 0x7FFFFFFF s

/-- `redix.min.n32` (05 R114). -/
def execLRedixMinN32 (o : SGDA) (s : State) : Out := redixWord o (fun x b => x.toNat < b.toNat) 0xFFFFFFFF s

/-- `redix.max.i32` (05 R114). -/
def execLRedixMaxI32 (o : SGDA) (s : State) : Out := redixWord o (fun x b => b.toInt < x.toInt) 0x80000000 s

/-- `redix.max.n32` (05 R114). -/
def execLRedixMaxN32 (o : SGDA) (s : State) : Out := redixWord o (fun x b => b.toNat < x.toNat) 0 s

/-- `pick`: vA of the lowest strand of Active, or 0 (05 R115). -/
def execLPick (o : SGDA) (s : State) : Out :=
  word { xUse o.s o.g [.v o.a.toNat] [.s o.d.toNat] with always := true } noPre (fun _ _ act f s =>
    .done (f.putS o.d.toNat ((act.head?.map fun i => f.xchV i o.a.toNat).getD 0)) s) s

/-- `vote.any` (05 R115). -/
def execLVoteAny (o : SGCM) (s : State) : Out :=
  word { xUse o.s o.g [.p o.m.toNat] [.c o.c.toNat] with always := true } noPre (fun _ _ act f s =>
    .done (f.putC o.c.toNat (act.any fun i => f.xchP i o.m.toNat)) s) s

/-- `vote.all` (05 R115). -/
def execLVoteAll (o : SGCM) (s : State) : Out :=
  word { xUse o.s o.g [.p o.m.toNat] [.c o.c.toNat] with always := true } noPre (fun _ _ act f s =>
    .done (f.putC o.c.toNat (act.all fun i => f.xchP i o.m.toNat)) s) s

/-- `ballot` (05 R115). -/
def execLBallot (o : SGDM) (s : State) : Out :=
  word { xUse o.s o.g [.p o.m.toNat] [.s o.d.toNat] with always := true } noPre (fun _ _ act f s =>
    .done (f.putS o.d.toNat (act.foldl (fun x i => setBit x i (f.xchP i o.m.toNat)) 0)) s) s

end Sys2Proof.Machine
end

