-- ==== Sys2Proof/Machine/LaneFloat.lean ====
section
/-! DEFINITION. The floating-point and conversion words of the lane set (05 R105 to R109). -/

namespace Sys2Proof.Machine

/-- `fadd` (05 R105, 03 R60). -/
def execLFadd (o : SGRUDAB) (s : State) : Out :=
  laneR ⟨o.s, o.g, o.u, o.d, o.a, o.b⟩ false (.fixed 8) (aFadd o.r) s

/-- `fsub` (05 R105, 03 R60). -/
def execLFsub (o : SGRUDAB) (s : State) : Out :=
  laneR ⟨o.s, o.g, o.u, o.d, o.a, o.b⟩ false (.fixed 8) (aFsub o.r) s

/-- `fmul` (05 R105, 03 R60). -/
def execLFmul (o : SGRUDAB) (s : State) : Out :=
  laneR ⟨o.s, o.g, o.u, o.d, o.a, o.b⟩ false (.fixed 8) (aFmul o.r) s

/-- `ffma` (05 R105, 03 R60). -/
def execLFfma (o : SGRUDAB) (s : State) : Out :=
  laneR ⟨o.s, o.g, o.u, o.d, o.a, o.b⟩ true (.fixed 8) (aFfma o.r) s

/-- `fmin` (05 R105, 03 R61). -/
def execLFmin (o : SGUDAB) (s : State) : Out :=
  laneR o false .variable aFmin s

/-- `fmax` (05 R105, 03 R61). -/
def execLFmax (o : SGUDAB) (s : State) : Out :=
  laneR o false .variable aFmax s

/-- `fmin.nan` (05 R105, 03 R61). -/
def execLFminNan (o : SGUDAB) (s : State) : Out :=
  laneR o false .variable aFminNan s

/-- `fmax.nan` (05 R105, 03 R61). -/
def execLFmaxNan (o : SGUDAB) (s : State) : Out :=
  laneR o false .variable aFmaxNan s

/-- `fcmp` (05 R105, 03 R62). -/
def execLFcmp (o : SGUKPAB) (s : State) : Out :=
  laneCmp o .variable kFcmp s

/-- `fcmp.un` (05 R105, 03 R62). -/
def execLFcmpUn (o : SGUKPAB) (s : State) : Out :=
  laneCmp o .variable kFcmpUn s

/-- `frcp` (05 R105, 03 R63). -/
def execLFrcp (o : SGDA) (s : State) : Out :=
  laneA o .variable aFrcp s

/-- `frsq` (05 R105, 03 R63). -/
def execLFrsq (o : SGDA) (s : State) : Out :=
  laneA o .variable aFrsq s

/-- `fex2` (05 R105, 03 R63). -/
def execLFex2 (o : SGDA) (s : State) : Out :=
  laneA o .variable aFex2 s

/-- `flg2` (05 R105, 03 R63). -/
def execLFlg2 (o : SGDA) (s : State) : Out :=
  laneA o .variable aFlg2 s

/-- `cvti.i32.f32` (05 R105, 03 R64). -/
def execLCvtiI32F32 (o : SGDA) (s : State) : Out :=
  laneA o .variable aCvtiI32F32 s

/-- `cvti.n32.f32` (05 R105, 03 R64). -/
def execLCvtiN32F32 (o : SGDA) (s : State) : Out :=
  laneA o .variable aCvtiN32F32 s

/-- `cvti.f32.i32` (05 R105, 03 R64). -/
def execLCvtiF32I32 (o : SGDA) (s : State) : Out :=
  laneA o .variable aCvtiF32I32 s

/-- `cvti.f32.n32` (05 R105, 03 R64). -/
def execLCvtiF32N32 (o : SGDA) (s : State) : Out :=
  laneA o .variable aCvtiF32N32 s

/-- `cvtf.bf16x2.f32` (05 R107). -/
def execLCvtfBf16x2F32 (o : SGUDAB) (s : State) : Out :=
  laneR o false .variable (aCvtfPack bf16) s

/-- `cvtf.f16x2.f32` (05 R107). -/
def execLCvtfF16x2F32 (o : SGUDAB) (s : State) : Out :=
  laneR o false .variable (aCvtfPack fp16) s

/-- `cvtf.f32.bf16` (05 R107). -/
def execLCvtfF32Bf16 (o : SGDAH) (s : State) : Out :=
  laneA ⟨o.s, o.g, o.d, o.a⟩ .variable (aCvtfUnpack bf16 o.h.toNat) s

/-- `cvtf.f32.f16` (05 R107). -/
def execLCvtfF32F16 (o : SGDAH) (s : State) : Out :=
  laneA ⟨o.s, o.g, o.d, o.a⟩ .variable (aCvtfUnpack fp16 o.h.toNat) s

/-- `cvt8.e4m3.f32`: byte k of vD (05 R108). -/
def execLCvt8E4m3F32 (o : SGDAK2) (s : State) : Out :=
  laneWord o.s o.g [.v o.a.toNat, .v o.d.toNat] o.d .variable
    (fun f i j => aCvt8Pack e4m3 o.k.toNat (f.getV i j o.a.toNat) 0 (f.getV i j o.d.toNat)) s

/-- `cvt8.e5m2.f32`: byte k of vD (05 R108). -/
def execLCvt8E5m2F32 (o : SGDAK2) (s : State) : Out :=
  laneWord o.s o.g [.v o.a.toNat, .v o.d.toNat] o.d .variable
    (fun f i j => aCvt8Pack e5m2 o.k.toNat (f.getV i j o.a.toNat) 0 (f.getV i j o.d.toNat)) s

/-- `cvt8.f32.e4m3` (05 R108). -/
def execLCvt8F32E4m3 (o : SGDAK2) (s : State) : Out :=
  laneA ⟨o.s, o.g, o.d, o.a⟩ .variable (aCvt8Unpack e4m3 o.k.toNat) s

/-- `cvt8.f32.e5m2` (05 R108). -/
def execLCvt8F32E5m2 (o : SGDAK2) (s : State) : Out :=
  laneA ⟨o.s, o.g, o.d, o.a⟩ .variable (aCvt8Unpack e5m2 o.k.toNat) s

/-- `hadd2.bf16` (05 R109). -/
def execLHadd2Bf16 (o : SGUDAB) (s : State) : Out :=
  laneR o false .variable (aHadd2 bf16) s

/-- `hadd2.f16` (05 R109). -/
def execLHadd2F16 (o : SGUDAB) (s : State) : Out :=
  laneR o false .variable (aHadd2 fp16) s

/-- `hmul2.bf16` (05 R109). -/
def execLHmul2Bf16 (o : SGUDAB) (s : State) : Out :=
  laneR o false .variable (aHmul2 bf16) s

/-- `hmul2.f16` (05 R109). -/
def execLHmul2F16 (o : SGUDAB) (s : State) : Out :=
  laneR o false .variable (aHmul2 fp16) s

/-- `hfma2.bf16` (05 R109). -/
def execLHfma2Bf16 (o : SGUDAB) (s : State) : Out :=
  laneR o true .variable (aHfma2 bf16) s

/-- `hfma2.f16` (05 R109). -/
def execLHfma2F16 (o : SGUDAB) (s : State) : Out :=
  laneR o true .variable (aHfma2 fp16) s

/-- `fabs` (05 R106). -/
def execLFabs (o : SGDA) (s : State) : Out :=
  laneA o (.fixed 4) aFabs s

/-- `fneg` (05 R106). -/
def execLFneg (o : SGDA) (s : State) : Out :=
  laneA o (.fixed 4) aFneg s

/-- `fcopysign` (05 R106). -/
def execLFcopysign (o : SGUDAB) (s : State) : Out :=
  laneR o false (.fixed 4) aFcopysign s

end Sys2Proof.Machine
end

