-- ==== Sys2Proof/Machine/Samovar.lean ====
section
/-! DEFINITION. What a Samovar core reaches, its exceptions and interrupts, and its custom instructions (21 R363,
R364). -/

namespace Sys2Proof.Machine

/-! ## What a Samovar core reaches (R363) -/

/-- A place that an address of a Samovar core names: the private SRAM, or physical memory through selector 0xF. -/
inductive SamPlace where
  | sram (off : Nat)
  | phys (pa : Nat)
  deriving DecidableEq, Repr

/-- The place of n bytes, or none: an access fault. -/
def State.samPlace (s : State) (a : DWord) (n : Nat) : Option SamPlace :=
  let x := a.toNat
  if x + n ≤ 2 ^ 20 then some (.sram x)
  else if x / 2 ^ 56 = 0xF0 then
    let pa := x % 2 ^ 56
    if s.tierAt pa = .none ∨ s.tierAt (pa + n - 1) = .none ∨ s.diesInReset.contains (homeDie pa) = true then none else some (.phys pa)
  else none

/-- Reads n bytes; a poisoned sector or an address without a place is an access fault (mcause 5). -/
def State.samRead (s : State) (a : DWord) (n : Nat) : Except Nat (List Byte × State) :=
  match s.samPlace a n with
  | none => .error 5
  | some (.sram o) => .ok (cellRead s.sram o n, s)
  | some (.phys pa) => if s.poisoned pa n then .error 5 else .ok (s.hostGet (partsOf pa n))

/-- A store to the private SRAM ends the reservations that meet it. -/
def SamCore.unreserve (c : SamCore) (o n : Nat) : SamCore :=
  match c.resv with
  | some (a, k) => if a < o + n ∧ o < a + k then { c with resv := none } else c
  | none => c

/-- Stores bytes at a place. -/
def State.samStore (s : State) (p : SamPlace) (bs : List Byte) (kind : StoreKind) : State :=
  match p with
  | .sram o => { s with sram := cellWrite s.sram o bs, sam := s.sam.map fun c => c.unreserve o bs.length }
  | .phys pa => s.hostPut (partsOf pa bs.length) bs kind

/-- Writes bytes; an address without a place is an access fault (mcause 7). -/
def State.samWrite (s : State) (a : DWord) (bs : List Byte) (kind : StoreKind) : Except Nat State :=
  match s.samPlace a bs.length with
  | none => .error 7
  | some p => .ok (s.samStore p bs kind)

/-! ## Registers and exceptions -/

def samFresh : SamCore := SamCore.fresh

def State.samCore (s : State) (k : Nat) : SamCore := vget s.sam k samFresh

/-- A register of a core; x0 reads zero. -/
def SamCore.get (c : SamCore) (r : BitVec 5) : DWord := if r = 0 then 0 else vget c.x r.toNat 0

/-- Writes a register; a write of x0 is discarded. -/
def SamCore.set (c : SamCore) (r : BitVec 5) (v : DWord) : SamCore := if r = 0 then c else { c with x := vset c.x r.toNat v }

/-- `mstatus` after a trap: MPIE takes MIE, MIE falls, MPP takes the mode (PRESUMED, log 9). -/
def SamCore.trapStatus (c : SamCore) : DWord :=
  (if bit c.mstatus 3 then 0x80#64 else 0) ||| (if c.userMode then 0 else 0x1800#64)

/-- Enters the handler at `target` in M mode. -/
def SamCore.enter (c : SamCore) (cause tval target : DWord) : SamCore :=
  { c with mcause := cause, mepc := c.pc, mtval := tval, mstatus := c.trapStatus, pc := target, userMode := false
           sleep := .running }

/-- Takes an exception. Of `info`, what the cause lets be said of it, `mtval` holds what the implementation puts there. -/
def SamCore.trap (c : SamCore) (cause : Nat) (info : DWord) : SamCore :=
  c.enter (BitVec.ofNat 64 cause) (Config.samTval cause info) (c.mtvec &&& ~~~(3#64))

/-- Takes an interrupt: in vectored mode at its own place. -/
def SamCore.interrupt (c : SamCore) (n : Nat) : SamCore :=
  let base := c.mtvec &&& ~~~(3#64)
  c.enter (0x8000000000000000#64 ||| BitVec.ofNat 64 n) 0
    (if bit c.mtvec 0 then base + BitVec.ofNat 64 (4 * n) else base)

/-- The interrupt that the core takes now: enabled, pending, and not held back in M mode; MEI before MSI before MTI. -/
def SamCore.takes (c : SamCore) : Option Nat :=
  if c.userMode || bit c.mstatus 3 then [11, 3, 7].find? fun n => bit c.mie n && bit c.mip n else none

/-- Retires the instruction with a result. -/
def SamCore.retire (c : SamCore) (r : BitVec 5) (v : DWord) : SamCore :=
  { c.set r v with pc := c.pc + 4, sleep := .running }

/-- The body of a Samovar instruction: it faults with a cause, waits, or gives a result. -/
inductive SamRes where
  | done (v : DWord) (s : State)
  | wait (z : SamSleep) (s : State)
  | fault (cause : Nat) (info : DWord)

/-- Frees the entry in which a core sleeps. -/
def State.freeSleep (s : State) (k : Nat) (c : SamCore) : State :=
  match c.sleep with
  | .sigwait e => s.setWatches (s.watches.filter fun x => !(x.1 == e && x.2.waiter == .samovar k))
  | _ => s

/-- Runs a body for the core that issues the word. -/
def samWord (o : TSD) (body : Nat → SamCore → State → SamRes) (s : State) : Out :=
  if 4 ≤ s.cur.sam then .fault .noSamovarCore
  else
    let k := s.cur.sam
    let c := s.samCore k
    .next (match body k c s with
      | .done v t => t.putSam k (c.retire o.d v)
      | .wait z t => t.putSam k { c with sleep := z }
      | .fault n a => (s.freeSleep k c).putSam k (c.trap n a))

/-! ## `rgfetch`, `bfext` -/

/-- Steps of `rgfetch` after the descriptor has been read: the entry copied, and HEAD advanced as a release. -/
def ringFetch (d : List Byte) (dst : DWord) (s : State) : Except Nat (DWord × State) := do
  let n := bitsN (dwordAt d 24).toNat 0 5
  let z := bitsN (dwordAt d 24).toNat 8 3
  if n < 4 ∨ 16 < n ∨ z < 3 ∨ 7 < z then .error 24
  else
    let t ← s.samRead (dwordAt d 8) 4
    let h ← t.2.samRead (dwordAt d 16) 4
    let tail := wordAt t.1 0
    let head := wordAt h.1 0
    if 2 ^ n < (tail - head).toNat then .error 24
    else if head = tail then .ok (0, h.2)
    else
      let e ← h.2.samRead (dwordAt d 0 + BitVec.ofNat 64 (head.toNat % 2 ^ n * 2 ^ z)) (2 ^ z)
      let s ← e.2.samWrite dst e.1 .plain
      let s ← s.samWrite (dwordAt d 16) (leBytes 4 (head + 1).toNat) .release
      .ok (1, s)

/-- `rgfetch` (R364). -/
def execRgfetch (o : TSD) (s : State) : Out :=
  samWord o (fun _ c s =>
    let a := c.get o.s
    if a.toNat % 32 ≠ 0 then .fault 24 a
    else
      match s.samRead a 32 with
      | .error n => .fault n a
      | .ok (d, s) =>
        match ringFetch d (c.get o.t) s with
        | .error n => .fault n a
        | .ok (v, s) => .done v s) s

/-- The field of len bits at pos, cut at bit 63. -/
def bitField (x y : DWord) : DWord :=
  let pos := bitsN y.toNat 0 6
  let len := min (bitsN y.toNat 8 6) (64 - pos)
  BitVec.ofNat 64 (bitsN x.toNat pos len)

/-- `bfext` (R364). -/
def execBfext (o : TSD) (s : State) : Out := samWord o (fun _ c s => .done (bitField (c.get o.s) (c.get o.t)) s) s

/-! ## `sigwait` -/

/-- The entries that a Samovar core holds. -/
def State.samEntries (s : State) (k : Nat) : Nat := (s.watches.filter fun e => e.2.waiter == .samovar k).length

/-- Frees the entries that a core holds on one word: a wait that starts again gives up its earlier entry. -/
def State.freeSamAt (s : State) (k pa : Nat) : State :=
  s.setWatches (s.watches.filter fun e => !(e.2.waiter == .samovar k && e.2.pa == pa))

/-- `sigwait` (R364): an entry of the word's group watches it until it differs; the word is read as an acquire. A word
of the private SRAM needs no entry. An interrupt leaves the entry of the wait that it breaks off armed, so that a core
may hold more than one (DESIGN CHOICE, log 82). -/
def execSigwait (o : TSD) (s : State) : Out :=
  samWord o (fun k c s =>
    let a := c.get o.s
    let old := c.get o.t
    let woken := match c.sleep with
      | .sigwait e => ((s.watches.find e).map (·.fired)).getD false
      | _ => false
    if a.toNat % 8 ≠ 0 then .fault 25 a
    else
      match s.samPlace a 8, s.samRead a 8 with
      | none, _ => .fault 5 a
      | _, .error n => .fault n a
      | some (.sram off), .ok (b, s) => if dwordAt b 0 = old then .wait (.sram off old) s else .done (dwordAt b 0) s
      | some (.phys pa), .ok (b, s1) =>
        let s := s.freeSamAt k pa
        let s1 := s1.freeSamAt k pa
        if tierOf pa = .host ∨ 64 ≤ s.samEntries k then .fault 25 a
        else
          match s.freeGeneral (watchGroup pa) with
          | none => .fault 25 a
          | some e =>
            if dwordAt b 0 = old ∧ woken = false then .wait (.sigwait e) (s1.arm e pa (BitVec.allOnes 64) old 1 (.samovar k))
            else .done (dwordAt b 0) s1) s

/-- The wait of a core is over: its word has changed. -/
def State.samWakes (s : State) (c : SamCore) : Bool :=
  match c.sleep with
  | .running => true
  | .sigwait e => ((s.watches.find e).map (·.fired)).getD true
  | .sram off old => dwordAt (cellRead s.sram off 8) 0 != old

/-! ## `dispatch` -/

/-- A queue with this QID exists and has room. -/
def State.queueTakes (s : State) (qid : Nat) : Bool :=
  if qid < 0x40 then ((s.hostQueues.find qid).map fun r => decide ((r.seen - r.taken).toNat < r.ent)).getD false
  else if qid < 0x80 then decide ((s.pending.getD qid []).length < 64)
  else qid == 0x80

/-- `dispatch` (R364): the card is accepted or refused as at the queue's head. Acceptance waits while it is held
(R368). -/
def execDispatch (o : TSD) (s : State) : Out :=
  samWord o (fun _ c s =>
    let y := (c.get o.t).toNat
    let qid := bitsN y 0 8
    if s.fw.hold then .wait .running s
    else if !s.queueTakes qid then .fault 26 (c.get o.s)
    else
      let posted := if 0x40 ≤ qid ∧ qid < 0x80 then some (qid - 0x40) else none
      let r := s.accept { qid := qid, tenant := bitsN y 8 4, card := c.get o.s, gridx := 0, gridy := 0, gx := none
                          posted := posted, kettle := none, slack := none, preds := none }
      let st := if (r.2.launch r.1).isSome then 0
        else ((r.2.ended.reverse.find? fun e => e.id == r.1).map (·.status)).getD 0
      .done (if st = 0 then BitVec.ofNat 64 r.1 else 0xFFFFFFFF00000000#64 ||| BitVec.ofNat 64 st) r.2) s

end Sys2Proof.Machine
end

