-- ==== Sys2Proof/Machine/System.lean ====
section
/-! DEFINITION. System registers, slack and counters (01 R14 to R19; 03 R73 to R75; 18 R335). -/

namespace Sys2Proof.Machine

/-- CYC (01 R14): the package clock since the last reset of the core, or in deterministic mode the published count
and the fibre's own instructions since its workgroup received the token (18 R335). -/
def cycOf (s : State) (w : Workgroup) (f : Fibre) : DWord :=
  if w.hdr.det then
    BitVec.ofNat 64 (((s.launch w.launch).map (·.token.p)).getD 0 + (f.retc.toNat - w.atReceipt.getD f.fid 0))
  else BitVec.ofNat 64 (s.cycles - (s.core w.core).resetAt)

/-- The value of a system register, by number (01 Table 1-2). -/
def sysRead (s : State) (w : Workgroup) (f : Fibre) (r : BitVec 9) : DWord :=
  match r.toNat with
  | 0x000 => f.fstat.zeroExtend 64
  | 0x001 => f.fctl.zeroExtend 64
  | 0x002 => BitVec.ofNat 64 (f.base * 65536 + f.win)
  | 0x003 => BitVec.ofNat 64 f.rots
  | 0x004 => BitVec.ofNat 64 f.rotb
  | 0x005 => BitVec.ofNat 64 f.divd
  | 0x006 => f.slack.zeroExtend 64
  | 0x007 => f.latec.zeroExtend 64
  | 0x008 => cycOf s w f
  | 0x009 => f.retc
  | 0x00A => BitVec.ofNat 64 w.wgid
  | 0x00B => BitVec.ofNat 64 f.fid
  | 0x00C => BitVec.ofNat 64 ((w.hdr.hitch - 1) * 256 + w.member)
  | 0x018 => f.trappc
  | 0x019 => f.tcause.zeroExtend 64
  | 0x01A => f.taddr
  | n => (vget w.wp (n - 0x010) 0).zeroExtend 64

/-- A word with the bits of a mask replaced. -/
def underMask {n : Nat} (old new m : BitVec n) : BitVec n := (old &&& ~~~m) ||| (new &&& m)

/-- The write of `sysw`; none where no field of the register is writable in the current mode (01 R15). -/
def sysWrite (f : Fibre) (r : BitVec 9) (x : DWord) : Option Fibre :=
  let lo := loWord x
  match r.toNat with
  | 0x000 => some { f with fstat := underMask f.fstat lo (if f.tm then 0xFE0F else 0xFE00) }
  | 0x001 => some { f with fctl := underMask f.fctl lo 0xF }
  | 0x006 => some { f with slack := lo.extractLsb' 0 12 }
  | 0x007 => some { f with latec := lo }
  | 0x018 => if f.tm then some { f with trappc := x } else none
  | 0x019 => if f.tm then some { f with tcause := lo &&& 0x00F8FFFF } else none
  | 0x01A => if f.tm then some { f with taddr := x } else none
  | _ => none

/-- A firmware register faults PRIVILEGE from any fibre, at decode (01 R15, 02 Table 2-7). -/
def firmwareReg (r : BitVec 9) : Fibre → Option Trap := fun _ => if 0x100 ≤ r.toNat then some (trapOf .privilege 0 0) else none

/-- The operand of a system-register word: a pair for the 64-bit registers. -/
def sysOpnd (r : BitVec 9) (d : BitVec 6) : List Opnd := if sysWide r then [.s2 d.toNat] else [.s d.toNat]

/-- Delivers a 32- or 64-bit value. -/
def Fibre.putWide (f : Fibre) (wide : Bool) (d : Nat) (x : DWord) : Fibre :=
  if wide then f.putS64 d x else f.putS d (loWord x)

/-- `sysr` (03 R73); a read of CYC is a token-class operation (18 R332). -/
def execSysr (o : SGRD) (s : State) : Out :=
  word (uUse o.s o.g [] (sysOpnd o.r o.d)) (firmwareReg o.r) (fun _ w _ f s =>
    if o.r = 0x008 ∧ s.tokenStall w = true then .wait f s .token
    else .done (f.putWide (sysWide o.r) o.d.toNat (sysRead s w f o.r)) s) s

/-- `sysw` to a firmware register, or, under a guard that holds, to a register without a field that is writable in the
current mode, faults PRIVILEGE before any other fault of the word (01 R15, 02 R49). -/
def syswPre (u : Use) (r : BitVec 9) (f : Fibre) : Option Trap :=
  match firmwareReg r f with
  | some t => some t
  | none => privilegeIf u (fun f => (sysWrite f r 0).isNone) f

/-- `sysw` (03 R73). -/
def execSysw (o : SGRD) (s : State) : Out :=
  word (uUse o.s o.g (sysOpnd o.r o.d) []) (syswPre (uUse o.s o.g (sysOpnd o.r o.d) []) o.r) (fun _ _ _ f s =>
    .done ((sysWrite f o.r (if sysWide o.r then f.getS64 o.d.toNat else zext64 (f.getS o.d.toNat))).getD f) s) s

/-- `slack` with an immediate (03 R74). -/
def execSlackImm (o : SGI) (s : State) : Out :=
  word (uUse o.s o.g [] []) noPre (fun _ _ _ f s => .done { f with slack := o.i } s) s

/-- `slack` with a register (03 R74). -/
def execSlackReg (o : SGD) (s : State) : Out :=
  word (uUse o.s o.g [.s o.d.toNat] []) noPre (fun _ _ _ f s =>
    .done { f with slack := (f.getS o.d.toNat).extractLsb' 0 12 } s) s

/-- The counters of 03 Table 3-5. -/
def counterOf (s : State) (w : Workgroup) (f : Fibre) (r : BitVec 9) : DWord :=
  match r.toNat with
  | 0 => cycOf s w f
  | 1 => f.retc
  | 2 => BitVec.ofNat 64 f.ldo
  | 3 => BitVec.ofNat 64 f.sto
  | _ => BitVec.ofNat 64 f.engo

/-- `rdcnt` (03 R75). -/
def execRdcnt (o : SGRD) (s : State) : Out :=
  let wide : Bool := o.r.toNat ≤ 1
  word (uUse o.s o.g [] (if wide then [.s2 o.d.toNat] else [.s o.d.toNat])) noPre (fun _ w _ f s =>
    if o.r = 0 ∧ s.tokenStall w = true then .wait f s .token
    else .done (f.putWide wide o.d.toNat (counterOf s w f o.r)) s) s

end Sys2Proof.Machine
end

