-- ==== Sys2Proof/Machine/Dispatch.lean ====
section
/-! DEFINITION. The meaning of each instruction and step, one arm a constructor. -/

namespace Sys2Proof.Machine

def exec (i : Instr) (s : State) : Host.Outcome State Fault Refusal :=
  match i with
  | .lAdd o => Sys2Proof.Machine.execLAdd o s
  | .lAddSatI32 o => Sys2Proof.Machine.execLAddSatI32 o s
  | .lAddSatN32 o => Sys2Proof.Machine.execLAddSatN32 o s
  | .lSub o => Sys2Proof.Machine.execLSub o s
  | .lSubSatI32 o => Sys2Proof.Machine.execLSubSatI32 o s
  | .lSubSatN32 o => Sys2Proof.Machine.execLSubSatN32 o s
  | .lMul o => Sys2Proof.Machine.execLMul o s
  | .lMulhI32 o => Sys2Proof.Machine.execLMulhI32 o s
  | .lMulhN32 o => Sys2Proof.Machine.execLMulhN32 o s
  | .lMad o => Sys2Proof.Machine.execLMad o s
  | .lMinI32 o => Sys2Proof.Machine.execLMinI32 o s
  | .lMinN32 o => Sys2Proof.Machine.execLMinN32 o s
  | .lMaxI32 o => Sys2Proof.Machine.execLMaxI32 o s
  | .lMaxN32 o => Sys2Proof.Machine.execLMaxN32 o s
  | .lAnd o => Sys2Proof.Machine.execLAnd o s
  | .lOr o => Sys2Proof.Machine.execLOr o s
  | .lXor o => Sys2Proof.Machine.execLXor o s
  | .lAndn o => Sys2Proof.Machine.execLAndn o s
  | .lShl o => Sys2Proof.Machine.execLShl o s
  | .lShr o => Sys2Proof.Machine.execLShr o s
  | .lSar o => Sys2Proof.Machine.execLSar o s
  | .lRol o => Sys2Proof.Machine.execLRol o s
  | .lPopc o => Sys2Proof.Machine.execLPopc o s
  | .lClz o => Sys2Proof.Machine.execLClz o s
  | .lBrev o => Sys2Proof.Machine.execLBrev o s
  | .lFfs o => Sys2Proof.Machine.execLFfs o s
  | .lBfxI32 o => Sys2Proof.Machine.execLBfxI32 o s
  | .lBfxN32 o => Sys2Proof.Machine.execLBfxN32 o s
  | .lBfi o => Sys2Proof.Machine.execLBfi o s
  | .lSel o => Sys2Proof.Machine.execLSel o s
  | .lCmpI32 o => Sys2Proof.Machine.execLCmpI32 o s
  | .lCmpN32 o => Sys2Proof.Machine.execLCmpN32 o s
  | .lAminI32 o => Sys2Proof.Machine.execLAminI32 o s
  | .lAminN32 o => Sys2Proof.Machine.execLAminN32 o s
  | .lAmaxI32 o => Sys2Proof.Machine.execLAmaxI32 o s
  | .lAmaxN32 o => Sys2Proof.Machine.execLAmaxN32 o s
  | .lMov o => Sys2Proof.Machine.execLMov o s
  | .lSid o => Sys2Proof.Machine.execLSid o s
  | .lLid o => Sys2Proof.Machine.execLLid o s
  | .lFadd o => Sys2Proof.Machine.execLFadd o s
  | .lFsub o => Sys2Proof.Machine.execLFsub o s
  | .lFmul o => Sys2Proof.Machine.execLFmul o s
  | .lFfma o => Sys2Proof.Machine.execLFfma o s
  | .lFmin o => Sys2Proof.Machine.execLFmin o s
  | .lFmax o => Sys2Proof.Machine.execLFmax o s
  | .lFminNan o => Sys2Proof.Machine.execLFminNan o s
  | .lFmaxNan o => Sys2Proof.Machine.execLFmaxNan o s
  | .lFcmp o => Sys2Proof.Machine.execLFcmp o s
  | .lFcmpUn o => Sys2Proof.Machine.execLFcmpUn o s
  | .lFrcp o => Sys2Proof.Machine.execLFrcp o s
  | .lFrsq o => Sys2Proof.Machine.execLFrsq o s
  | .lFex2 o => Sys2Proof.Machine.execLFex2 o s
  | .lFlg2 o => Sys2Proof.Machine.execLFlg2 o s
  | .lCvtiI32F32 o => Sys2Proof.Machine.execLCvtiI32F32 o s
  | .lCvtiN32F32 o => Sys2Proof.Machine.execLCvtiN32F32 o s
  | .lCvtiF32I32 o => Sys2Proof.Machine.execLCvtiF32I32 o s
  | .lCvtiF32N32 o => Sys2Proof.Machine.execLCvtiF32N32 o s
  | .lCvtfBf16x2F32 o => Sys2Proof.Machine.execLCvtfBf16x2F32 o s
  | .lCvtfF32Bf16 o => Sys2Proof.Machine.execLCvtfF32Bf16 o s
  | .lCvtfF16x2F32 o => Sys2Proof.Machine.execLCvtfF16x2F32 o s
  | .lCvtfF32F16 o => Sys2Proof.Machine.execLCvtfF32F16 o s
  | .lCvt8E4m3F32 o => Sys2Proof.Machine.execLCvt8E4m3F32 o s
  | .lCvt8E5m2F32 o => Sys2Proof.Machine.execLCvt8E5m2F32 o s
  | .lCvt8F32E4m3 o => Sys2Proof.Machine.execLCvt8F32E4m3 o s
  | .lCvt8F32E5m2 o => Sys2Proof.Machine.execLCvt8F32E5m2 o s
  | .lHadd2Bf16 o => Sys2Proof.Machine.execLHadd2Bf16 o s
  | .lHadd2F16 o => Sys2Proof.Machine.execLHadd2F16 o s
  | .lHmul2Bf16 o => Sys2Proof.Machine.execLHmul2Bf16 o s
  | .lHmul2F16 o => Sys2Proof.Machine.execLHmul2F16 o s
  | .lHfma2Bf16 o => Sys2Proof.Machine.execLHfma2Bf16 o s
  | .lHfma2F16 o => Sys2Proof.Machine.execLHfma2F16 o s
  | .lFabs o => Sys2Proof.Machine.execLFabs o s
  | .lFneg o => Sys2Proof.Machine.execLFneg o s
  | .lFcopysign o => Sys2Proof.Machine.execLFcopysign o s
  | .lXch o => Sys2Proof.Machine.execLXch o s
  | .lXchImm o => Sys2Proof.Machine.execLXchImm o s
  | .lXchXor o => Sys2Proof.Machine.execLXchXor o s
  | .lShup o => Sys2Proof.Machine.execLShup o s
  | .lShdn o => Sys2Proof.Machine.execLShdn o s
  | .lShupWrap o => Sys2Proof.Machine.execLShupWrap o s
  | .lShdnWrap o => Sys2Proof.Machine.execLShdnWrap o s
  | .lScanAddI32 o => Sys2Proof.Machine.execLScanAddI32 o s
  | .lScanAddF32 o => Sys2Proof.Machine.execLScanAddF32 o s
  | .lScanMinI32 o => Sys2Proof.Machine.execLScanMinI32 o s
  | .lScanMaxI32 o => Sys2Proof.Machine.execLScanMaxI32 o s
  | .lRedAddI32 o => Sys2Proof.Machine.execLRedAddI32 o s
  | .lRedAddF32 o => Sys2Proof.Machine.execLRedAddF32 o s
  | .lRedAnd o => Sys2Proof.Machine.execLRedAnd o s
  | .lRedOr o => Sys2Proof.Machine.execLRedOr o s
  | .lRedixMinI32 o => Sys2Proof.Machine.execLRedixMinI32 o s
  | .lRedixMinN32 o => Sys2Proof.Machine.execLRedixMinN32 o s
  | .lRedixMaxI32 o => Sys2Proof.Machine.execLRedixMaxI32 o s
  | .lRedixMaxN32 o => Sys2Proof.Machine.execLRedixMaxN32 o s
  | .lPick o => Sys2Proof.Machine.execLPick o s
  | .lVoteAny o => Sys2Proof.Machine.execLVoteAny o s
  | .lVoteAll o => Sys2Proof.Machine.execLVoteAll o s
  | .lBallot o => Sys2Proof.Machine.execLBallot o s
  | .lDbr o => Sys2Proof.Machine.execLDbr o s
  | .lDmark o => Sys2Proof.Machine.execLDmark o s
  | .lJoin o => Sys2Proof.Machine.execLJoin o s
  | .lExit o => Sys2Proof.Machine.execLExit o s
  | .lPset o => Sys2Proof.Machine.execLPset o s
  | .lPget o => Sys2Proof.Machine.execLPget o s
  | .lAddi o => Sys2Proof.Machine.execLAddi o s
  | .lMovi o => Sys2Proof.Machine.execLMovi o s
  | .lMuli o => Sys2Proof.Machine.execLMuli o s
  | .lLd o => Sys2Proof.Machine.execLLd o s
  | .lSt o => Sys2Proof.Machine.execLSt o s
  | .lLdAcq o => Sys2Proof.Machine.execLLdAcq o s
  | .lStRel o => Sys2Proof.Machine.execLStRel o s
  | .lAtom o => Sys2Proof.Machine.execLAtom o s
  | .lAtomxXchg o => Sys2Proof.Machine.execLAtomxXchg o s
  | .lAtomxCas o => Sys2Proof.Machine.execLAtomxCas o s
  | .lAtomxAddF32 o => Sys2Proof.Machine.execLAtomxAddF32 o s
  | .lRatom o => Sys2Proof.Machine.execLRatom o s
  | .lRatomAddF32 o => Sys2Proof.Machine.execLRatomAddF32 o s
  | .lPf o => Sys2Proof.Machine.execLPf o s
  | .lLdNc o => Sys2Proof.Machine.execLLdNc o s
  | .lStNc o => Sys2Proof.Machine.execLStNc o s
  | .uAdd o => Sys2Proof.Machine.execUAdd o s
  | .uAddSatI32 o => Sys2Proof.Machine.execUAddSatI32 o s
  | .uAddSatN32 o => Sys2Proof.Machine.execUAddSatN32 o s
  | .uSub o => Sys2Proof.Machine.execUSub o s
  | .uSubSatI32 o => Sys2Proof.Machine.execUSubSatI32 o s
  | .uSubSatN32 o => Sys2Proof.Machine.execUSubSatN32 o s
  | .uMul o => Sys2Proof.Machine.execUMul o s
  | .uMulhI32 o => Sys2Proof.Machine.execUMulhI32 o s
  | .uMulhN32 o => Sys2Proof.Machine.execUMulhN32 o s
  | .uMad o => Sys2Proof.Machine.execUMad o s
  | .uMinI32 o => Sys2Proof.Machine.execUMinI32 o s
  | .uMinN32 o => Sys2Proof.Machine.execUMinN32 o s
  | .uMaxI32 o => Sys2Proof.Machine.execUMaxI32 o s
  | .uMaxN32 o => Sys2Proof.Machine.execUMaxN32 o s
  | .uAnd o => Sys2Proof.Machine.execUAnd o s
  | .uOr o => Sys2Proof.Machine.execUOr o s
  | .uXor o => Sys2Proof.Machine.execUXor o s
  | .uAndn o => Sys2Proof.Machine.execUAndn o s
  | .uShl o => Sys2Proof.Machine.execUShl o s
  | .uShr o => Sys2Proof.Machine.execUShr o s
  | .uSar o => Sys2Proof.Machine.execUSar o s
  | .uRol o => Sys2Proof.Machine.execURol o s
  | .uPopc o => Sys2Proof.Machine.execUPopc o s
  | .uClz o => Sys2Proof.Machine.execUClz o s
  | .uBrev o => Sys2Proof.Machine.execUBrev o s
  | .uFfs o => Sys2Proof.Machine.execUFfs o s
  | .uBfxI32 o => Sys2Proof.Machine.execUBfxI32 o s
  | .uBfxN32 o => Sys2Proof.Machine.execUBfxN32 o s
  | .uBfi o => Sys2Proof.Machine.execUBfi o s
  | .uSel o => Sys2Proof.Machine.execUSel o s
  | .uCmpI32 o => Sys2Proof.Machine.execUCmpI32 o s
  | .uCmpN32 o => Sys2Proof.Machine.execUCmpN32 o s
  | .uAminI32 o => Sys2Proof.Machine.execUAminI32 o s
  | .uAminN32 o => Sys2Proof.Machine.execUAminN32 o s
  | .uAmaxI32 o => Sys2Proof.Machine.execUAmaxI32 o s
  | .uAmaxN32 o => Sys2Proof.Machine.execUAmaxN32 o s
  | .uDivI32 o => Sys2Proof.Machine.execUDivI32 o s
  | .uDivN32 o => Sys2Proof.Machine.execUDivN32 o s
  | .uRemI32 o => Sys2Proof.Machine.execURemI32 o s
  | .uRemN32 o => Sys2Proof.Machine.execURemN32 o s
  | .uAdd64 o => Sys2Proof.Machine.execUAdd64 o s
  | .uSub64 o => Sys2Proof.Machine.execUSub64 o s
  | .uCmp64 o => Sys2Proof.Machine.execUCmp64 o s
  | .uFadd o => Sys2Proof.Machine.execUFadd o s
  | .uFsub o => Sys2Proof.Machine.execUFsub o s
  | .uFmul o => Sys2Proof.Machine.execUFmul o s
  | .uFfma o => Sys2Proof.Machine.execUFfma o s
  | .uFmin o => Sys2Proof.Machine.execUFmin o s
  | .uFmax o => Sys2Proof.Machine.execUFmax o s
  | .uFminNan o => Sys2Proof.Machine.execUFminNan o s
  | .uFmaxNan o => Sys2Proof.Machine.execUFmaxNan o s
  | .uFcmp o => Sys2Proof.Machine.execUFcmp o s
  | .uFcmpUn o => Sys2Proof.Machine.execUFcmpUn o s
  | .uFrcp o => Sys2Proof.Machine.execUFrcp o s
  | .uFrsq o => Sys2Proof.Machine.execUFrsq o s
  | .uFex2 o => Sys2Proof.Machine.execUFex2 o s
  | .uFlg2 o => Sys2Proof.Machine.execUFlg2 o s
  | .uCvtiI32F32 o => Sys2Proof.Machine.execUCvtiI32F32 o s
  | .uCvtiN32F32 o => Sys2Proof.Machine.execUCvtiN32F32 o s
  | .uCvtiF32I32 o => Sys2Proof.Machine.execUCvtiF32I32 o s
  | .uCvtiF32N32 o => Sys2Proof.Machine.execUCvtiF32N32 o s
  | .uAddi o => Sys2Proof.Machine.execUAddi o s
  | .uLi o => Sys2Proof.Machine.execULi o s
  | .uLui o => Sys2Proof.Machine.execULui o s
  | .uLit o => Sys2Proof.Machine.execULit o s
  | .uCmpi o => Sys2Proof.Machine.execUCmpi o s
  | .uMuli o => Sys2Proof.Machine.execUMuli o s
  | .uAddi64 o => Sys2Proof.Machine.execUAddi64 o s
  | .br o => Sys2Proof.Machine.execBr o s
  | .call o => Sys2Proof.Machine.execCall o s
  | .jr o => Sys2Proof.Machine.execJr o s
  | .callr o => Sys2Proof.Machine.execCallr o s
  | .ret o => Sys2Proof.Machine.execRet o s
  | .loopW o => Sys2Proof.Machine.execLoopW o s
  | .rotset o => Sys2Proof.Machine.execRotset o s
  | .rotbase o => Sys2Proof.Machine.execRotbase o s
  | .fork o => Sys2Proof.Machine.execFork o s
  | .forkPlacement wk fid => Sys2Proof.Machine.execForkPlacement wk fid s
  | .fctlEnd o => Sys2Proof.Machine.execFctlEnd o s
  | .yield o => Sys2Proof.Machine.execYield o s
  | .vgrow o => Sys2Proof.Machine.execVgrow o s
  | .vgrowGrant wk fid => Sys2Proof.Machine.execVgrowGrant wk fid s
  | .vshrink o => Sys2Proof.Machine.execVshrink o s
  | .coreSpill core => Sys2Proof.Machine.execCoreSpill core s
  | .spillRestore wk fid => Sys2Proof.Machine.execSpillRestore wk fid s
  | .trap o => Sys2Proof.Machine.execTrap o s
  | .tret o => Sys2Proof.Machine.execTret o s
  | .brk o => Sys2Proof.Machine.execBrk o s
  | .nop o => Sys2Proof.Machine.execNop o s
  | .lateTrap wk fid => Sys2Proof.Machine.execLateTrap wk fid s
  | .accessCompletion wk fid => Sys2Proof.Machine.execAccessCompletion wk fid s
  | .uLd o => Sys2Proof.Machine.execULd o s
  | .uSt o => Sys2Proof.Machine.execUSt o s
  | .uLdAcq o => Sys2Proof.Machine.execULdAcq o s
  | .uStRel o => Sys2Proof.Machine.execUStRel o s
  | .uAtom o => Sys2Proof.Machine.execUAtom o s
  | .uAtomxXchg o => Sys2Proof.Machine.execUAtomxXchg o s
  | .uAtomxCas o => Sys2Proof.Machine.execUAtomxCas o s
  | .uAtomxAddF32 o => Sys2Proof.Machine.execUAtomxAddF32 o s
  | .wb o => Sys2Proof.Machine.execWb o s
  | .inv o => Sys2Proof.Machine.execInv o s
  | .smap o => Sys2Proof.Machine.execSmap o s
  | .sunmap o => Sys2Proof.Machine.execSunmap o s
  | .lazyStashWriteBack wk off => Sys2Proof.Machine.execLazyStashWriteBack wk off s
  | .cwaitLd o => Sys2Proof.Machine.execCwaitLd o s
  | .cwaitSt o => Sys2Proof.Machine.execCwaitSt o s
  | .cwaitEng o => Sys2Proof.Machine.execCwaitEng o s
  | .barArrive o => Sys2Proof.Machine.execBarArrive o s
  | .barWait o => Sys2Proof.Machine.execBarWait o s
  | .barSync o => Sys2Proof.Machine.execBarSync o s
  | .knotArrive o => Sys2Proof.Machine.execKnotArrive o s
  | .knotWait o => Sys2Proof.Machine.execKnotWait o s
  | .knotSync o => Sys2Proof.Machine.execKnotSync o s
  | .qbind o => Sys2Proof.Machine.execQbind o s
  | .qgive o => Sys2Proof.Machine.execQgive o s
  | .qtry o => Sys2Proof.Machine.execQtry o s
  | .qclose o => Sys2Proof.Machine.execQclose o s
  | .tkwait o => Sys2Proof.Machine.execTkwait o s
  | .tkpass o => Sys2Proof.Machine.execTkpass o s
  | .tkpoll o => Sys2Proof.Machine.execTkpoll o s
  | .watchArm o => Sys2Proof.Machine.execWatchArm o s
  | .wwait o => Sys2Proof.Machine.execWwait o s
  | .disarm o => Sys2Proof.Machine.execDisarm o s
  | .tokpass o => Sys2Proof.Machine.execTokpass o s
  | .tokq o => Sys2Proof.Machine.execTokq o s
  | .trig o => Sys2Proof.Machine.execTrig o s
  | .post o => Sys2Proof.Machine.execPost o s
  | .bcinit o => Sys2Proof.Machine.execBcinit o s
  | .bcwait o => Sys2Proof.Machine.execBcwait o s
  | .bcadd o => Sys2Proof.Machine.execBcadd o s
  | .bcphase o => Sys2Proof.Machine.execBcphase o s
  | .mma o => Sys2Proof.Machine.execMma o s
  | .mmaStart wk => Sys2Proof.Machine.execMmaStart wk s
  | .mmaGranule wk => Sys2Proof.Machine.execMmaGranule wk s
  | .mmaCompletion wk => Sys2Proof.Machine.execMmaCompletion wk s
  | .mswap o => Sys2Proof.Machine.execMswap o s
  | .mclr o => Sys2Proof.Machine.execMclr o s
  | .mflag o => Sys2Proof.Machine.execMflag o s
  | .cpy o => Sys2Proof.Machine.execCpy o s
  | .cpyMc o => Sys2Proof.Machine.execCpyMc o s
  | .cpyr o => Sys2Proof.Machine.execCpyr o s
  | .cpyrApply n => Sys2Proof.Machine.execCpyrApply n s
  | .gath o => Sys2Proof.Machine.execGath o s
  | .qdual o => Sys2Proof.Machine.execQdual o s
  | .ldrain o => Sys2Proof.Machine.execLdrain o s
  | .copyGranule core ch => Sys2Proof.Machine.execCopyGranule core ch s
  | .copyCommandEnd core ch => Sys2Proof.Machine.execCopyCommandEnd core ch s
  | .engineTranslationStall core ch => Sys2Proof.Machine.execEngineTranslationStall core ch s
  | .samp o => Sys2Proof.Machine.execSamp o s
  | .rng o => Sys2Proof.Machine.execRng o s
  | .repW o => Sys2Proof.Machine.execRepW o s
  | .seqnext o => Sys2Proof.Machine.execSeqnext o s
  | .tokdlv o => Sys2Proof.Machine.execTokdlv o s
  | .seqstop o => Sys2Proof.Machine.execSeqstop o s
  | .pgopAlloc o => Sys2Proof.Machine.execPgopAlloc o s
  | .pgopRef o => Sys2Proof.Machine.execPgopRef o s
  | .pgopUnref o => Sys2Proof.Machine.execPgopUnref o s
  | .pgopCow o => Sys2Proof.Machine.execPgopCow o s
  | .pgopEvict o => Sys2Proof.Machine.execPgopEvict o s
  | .pgopPromote o => Sys2Proof.Machine.execPgopPromote o s
  | .pgopSend o => Sys2Proof.Machine.execPgopSend o s
  | .caddyDataMoveDone die n => Sys2Proof.Machine.execCaddyDataMoveDone die n s
  | .automaticEviction die => Sys2Proof.Machine.execAutomaticEviction die s
  | .tset o => Sys2Proof.Machine.execTset o s
  | .tanc o => Sys2Proof.Machine.execTanc o s
  | .tdepth o => Sys2Proof.Machine.execTdepth o s
  | .tclr o => Sys2Proof.Machine.execTclr o s
  | .sysr o => Sys2Proof.Machine.execSysr o s
  | .sysw o => Sys2Proof.Machine.execSysw o s
  | .slackImm o => Sys2Proof.Machine.execSlackImm o s
  | .slackReg o => Sys2Proof.Machine.execSlackReg o s
  | .rdcnt o => Sys2Proof.Machine.execRdcnt o s
  | .workgroupExit wk => Sys2Proof.Machine.execWorkgroupExit wk s
  | .hostLaunchQueueEntry qid => Sys2Proof.Machine.execHostLaunchQueueEntry qid s
  | .launchDispatch qid => Sys2Proof.Machine.execLaunchDispatch qid s
  | .placerRound die => Sys2Proof.Machine.execPlacerRound die s
  | .headReservation die qid => Sys2Proof.Machine.execHeadReservation die qid s
  | .timeSliceExpiry launch cluster => Sys2Proof.Machine.execTimeSliceExpiry launch cluster s
  | .contextSave wk => Sys2Proof.Machine.execContextSave wk s
  | .contextRestore wk => Sys2Proof.Machine.execContextRestore wk s
  | .watchdogExpiry wk => Sys2Proof.Machine.execWatchdogExpiry wk s
  | .unitTeardown wk => Sys2Proof.Machine.execUnitTeardown wk s
  | .resolutionLimitExpiry wk fid => Sys2Proof.Machine.execResolutionLimitExpiry wk fid s
  | .tokenPass launch => Sys2Proof.Machine.execTokenPass launch s
  | .tokenReceipt launch => Sys2Proof.Machine.execTokenReceipt launch s
  | .deterministicSave launch => Sys2Proof.Machine.execDeterministicSave launch s
  | .submissionTailFire q => Sys2Proof.Machine.execSubmissionTailFire q s
  | .submitRecord q => Sys2Proof.Machine.execSubmitRecord q s
  | .cancelRecord q => Sys2Proof.Machine.execCancelRecord q s
  | .iterationForm model => Sys2Proof.Machine.execIterationForm model s
  | .consWatchFire slot => Sys2Proof.Machine.execConsWatchFire slot s
  | .parkLimit slot => Sys2Proof.Machine.execParkLimit slot s
  | .pollTimer => Sys2Proof.Machine.execPollTimer s
  | .fabWr p => Sys2Proof.Machine.execFabWr p s
  | .fabWrrel p => Sys2Proof.Machine.execFabWrrel p s
  | .fabRd p => Sys2Proof.Machine.execFabRd p s
  | .fabRdrsp p => Sys2Proof.Machine.execFabRdrsp p s
  | .fabAt p => Sys2Proof.Machine.execFabAt p s
  | .fabAtrsp p => Sys2Proof.Machine.execFabAtrsp p s
  | .fabDone p => Sys2Proof.Machine.execFabDone p s
  | .fabErr p => Sys2Proof.Machine.execFabErr p s
  | .fabPgxfer p => Sys2Proof.Machine.execFabPgxfer p s
  | .fabPgack p => Sys2Proof.Machine.execFabPgack p s
  | .fabPgrel p => Sys2Proof.Machine.execFabPgrel p s
  | .fabPgrd p => Sys2Proof.Machine.execFabPgrd p s
  | .custodyAck n => Sys2Proof.Machine.execCustodyAck n s
  | .custodyResend n => Sys2Proof.Machine.execCustodyResend n s
  | .custodyTimeout n => Sys2Proof.Machine.execCustodyTimeout n s
  | .packageColdReset => Sys2Proof.Machine.execPackageColdReset s
  | .packageWarmReset => Sys2Proof.Machine.execPackageWarmReset s
  | .dieReset die => Sys2Proof.Machine.execDieReset die s
  | .clusterReset cluster => Sys2Proof.Machine.execClusterReset cluster s
  | .coreReset core => Sys2Proof.Machine.execCoreReset core s
  | .matrixEngineReset core => Sys2Proof.Machine.execMatrixEngineReset core s
  | .copyEngineReset core => Sys2Proof.Machine.execCopyEngineReset core s
  | .caddyReset die => Sys2Proof.Machine.execCaddyReset die s
  | .kettleReset => Sys2Proof.Machine.execKettleReset s
  | .fabricPortReset port => Sys2Proof.Machine.execFabricPortReset port s
  | .hostFunctionReset vf => Sys2Proof.Machine.execHostFunctionReset vf s
  | .samovarCoreReset core => Sys2Proof.Machine.execSamovarCoreReset core s
  | .powerStateChange target => Sys2Proof.Machine.execPowerStateChange target s
  | .powerCapWrite watts => Sys2Proof.Machine.execPowerCapWrite watts s
  | .thermalThrottle die => Sys2Proof.Machine.execThermalThrottle die s
  | .thermalDieReset die => Sys2Proof.Machine.execThermalDieReset die s
  | .bootRom => Sys2Proof.Machine.execBootRom s
  | .recoveryImage img => Sys2Proof.Machine.execRecoveryImage img s
  | .requestUpdate => Sys2Proof.Machine.execRequestUpdate s
  | .passComponentTable => Sys2Proof.Machine.execPassComponentTable s
  | .updateComponent img => Sys2Proof.Machine.execUpdateComponent img s
  | .transferComplete => Sys2Proof.Machine.execTransferComplete s
  | .verifyComplete => Sys2Proof.Machine.execVerifyComplete s
  | .applyComplete => Sys2Proof.Machine.execApplyComplete s
  | .activateFirmware => Sys2Proof.Machine.execActivateFirmware s
  | .updateReadyTimeout => Sys2Proof.Machine.execUpdateReadyTimeout s
  | .securityVersionFuse => Sys2Proof.Machine.execSecurityVersionFuse s
  | .getVersion => Sys2Proof.Machine.execGetVersion s
  | .getCapabilities => Sys2Proof.Machine.execGetCapabilities s
  | .negotiateAlgorithms offer => Sys2Proof.Machine.execNegotiateAlgorithms offer s
  | .getDigests => Sys2Proof.Machine.execGetDigests s
  | .getCertificate slot => Sys2Proof.Machine.execGetCertificate slot s
  | .spdmChallenge nonce => Sys2Proof.Machine.execSpdmChallenge nonce s
  | .getMeasurements index => Sys2Proof.Machine.execGetMeasurements index s
  | .keyExchange session => Sys2Proof.Machine.execKeyExchange session s
  | .spdmFinish session => Sys2Proof.Machine.execSpdmFinish session s
  | .endSession session => Sys2Proof.Machine.execEndSession session s
  | .ideStreamInsecure stream => Sys2Proof.Machine.execIdeStreamInsecure stream s
  | .getSensorReading id => Sys2Proof.Machine.execGetSensorReading id s
  | .setAsidRoot who tenant asid root => Sys2Proof.Machine.execSetAsidRoot who tenant asid root s
  | .invalidateTranslation who asid lo len => Sys2Proof.Machine.execInvalidateTranslation who asid lo len s
  | .resolveFault who place entries => Sys2Proof.Machine.execResolveFault who place entries s
  | .declareUnresolved who place => Sys2Proof.Machine.execDeclareUnresolved who place s
  | .registerModel who p => Sys2Proof.Machine.execRegisterModel who p s
  | .registerQueue who p => Sys2Proof.Machine.execRegisterQueue who p s
  | .setBudgets who p => Sys2Proof.Machine.execSetBudgets who p s
  | .fabricSetup who p => Sys2Proof.Machine.execFabricSetup who p s
  | .portPersonalitySelect port hawser => Sys2Proof.Machine.execPortPersonalitySelect port hawser s
  | .cancelLaunch who launch => Sys2Proof.Machine.execCancelLaunch who launch s
  | .sizePools who p => Sys2Proof.Machine.execSizePools who p s
  | .debugTokenRequest target tenant => Sys2Proof.Machine.execDebugTokenRequest target tenant s
  | .lifecycleChange target => Sys2Proof.Machine.execLifecycleChange target s
  | .hostWriteTlp fn pa bytes ep => Sys2Proof.Machine.execHostWriteTlp fn pa bytes ep s
  | .hostReadTlp fn pa len => Sys2Proof.Machine.execHostReadTlp fn pa len s
  | .hostAtomicop fn op wide pa x y => Sys2Proof.Machine.execHostAtomicop fn op wide pa x y s
  | .mmioRegisterWrite fn off val => Sys2Proof.Machine.execMmioRegisterWrite fn off val s
  | .rgfetch o => Sys2Proof.Machine.execRgfetch o s
  | .bfext o => Sys2Proof.Machine.execBfext o s
  | .sigwait o => Sys2Proof.Machine.execSigwait o s
  | .dispatch o => Sys2Proof.Machine.execDispatch o s
  | .linkLevelRetry link => Sys2Proof.Machine.execLinkLevelRetry link s
  | .badpktDrop p => Sys2Proof.Machine.execBadpktDrop p s
  | .uetUnsupportedPacketDrop port => Sys2Proof.Machine.execUetUnsupportedPacketDrop port s
  | .trainingStepComplete ok => Sys2Proof.Machine.execTrainingStepComplete ok s
  | .resetComplete unit => Sys2Proof.Machine.execResetComplete unit s
  | .powerLoss => Sys2Proof.Machine.execPowerLoss s
  | .imageReportsReady => Sys2Proof.Machine.execImageReportsReady s
  | .ideKmRequest stream key vfs => Sys2Proof.Machine.execIdeKmRequest stream key vfs s

end Sys2Proof.Machine
end

