-- ==== Sys2Proof/Machine/Riscv.lean ====
section
/-! DEFINITION. The base instruction set of the Samovar cores, RV64IMAC with M and U modes (21 R363): the spec names it
and does not describe it, so that everything here is taken from the RISC-V architecture (PRESUMED, log 9). -/

namespace Sys2Proof.Machine

/-- What an instruction does: an exception with a cause and what may be said of it, or the core and the state after it,
the core's pc being that of the next instruction. -/
abbrev RvRes := Except (Nat × DWord) (SamCore × State)

/-- A field of an instruction word as a number. -/
def fieldN (x : Word) (pos len : Nat) : Nat := bitsN x.toNat pos len

/-! ## Arithmetic -/

/-- A 32-bit result, sign-extended. -/
def sext32 (w : Word) : DWord := w.signExtend 64

/-- Division and remainder that round towards zero; by zero they give −1 and the dividend. -/
def rvDiv {n : Nat} (a b : BitVec n) : BitVec n := if b = 0 then BitVec.allOnes n else BitVec.ofInt n (a.toInt.tdiv b.toInt)
def rvRem {n : Nat} (a b : BitVec n) : BitVec n := if b = 0 then a else BitVec.ofInt n (a.toInt.tmod b.toInt)
def rvDivu {n : Nat} (a b : BitVec n) : BitVec n := if b = 0 then BitVec.allOnes n else a.udiv b
def rvRemu {n : Nat} (a b : BitVec n) : BitVec n := if b = 0 then a else a.umod b

/-- Bits 127 to 64 of a product. -/
def mulHigh (x y : Int) : DWord := BitVec.ofInt 64 ((x * y) / 2 ^ 64)

/-- Register and immediate operations of 64 bits; `alt` is bit 30 of the word. -/
def rvAlu (f3 : Nat) (alt : Bool) (a b : DWord) : DWord :=
  match f3 with
  | 0 => if alt then a - b else a + b
  | 1 => a <<< (b.toNat % 64)
  | 2 => if a.toInt < b.toInt then 1 else 0
  | 3 => if a.toNat < b.toNat then 1 else 0
  | 4 => a ^^^ b
  | 5 => if alt then a.sshiftRight (b.toNat % 64) else a >>> (b.toNat % 64)
  | 6 => a ||| b
  | _ => a &&& b

/-- Multiplication and division of 64 bits. -/
def rvMul (f3 : Nat) (a b : DWord) : DWord :=
  match f3 with
  | 0 => a * b
  | 1 => mulHigh a.toInt b.toInt
  | 2 => mulHigh a.toInt b.toNat
  | 3 => mulHigh a.toNat b.toNat
  | 4 => rvDiv a b
  | 5 => rvDivu a b
  | 6 => rvRem a b
  | _ => rvRemu a b

/-- Operations of 32 bits: additions and shifts. -/
def rvAluW (f3 : Nat) (alt : Bool) (a b : Word) : Option Word :=
  match f3 with
  | 0 => some (if alt then a - b else a + b)
  | 1 => some (a <<< (b.toNat % 32))
  | 5 => some (if alt then a.sshiftRight (b.toNat % 32) else a >>> (b.toNat % 32))
  | _ => none

def rvMulW (f3 : Nat) (a b : Word) : Option Word :=
  match f3 with
  | 0 => some (a * b)
  | 4 => some (rvDiv a b)
  | 5 => some (rvDivu a b)
  | 6 => some (rvRem a b)
  | 7 => some (rvRemu a b)
  | _ => none

/-- A register operation of the opcode OP, or none for a reserved function code. -/
def rvOp (f3 f7 : Nat) (a b : DWord) : Option DWord :=
  if f7 = 0 then some (rvAlu f3 false a b)
  else if f7 = 0x20 ∧ (f3 = 0 ∨ f3 = 5) then some (rvAlu f3 true a b)
  else if f7 = 1 then some (rvMul f3 a b)
  else none

/-- A register operation of the opcode OP-32. -/
def rvOpW (f3 f7 : Nat) (a b : DWord) : Option DWord :=
  (if f7 = 0 then rvAluW f3 false (loWord a) (loWord b)
   else if f7 = 0x20 ∧ (f3 = 0 ∨ f3 = 5) then rvAluW f3 true (loWord a) (loWord b)
   else if f7 = 1 then rvMulW f3 (loWord a) (loWord b)
   else none).map sext32

/-- The condition of a branch. -/
def rvTaken (f3 : Nat) (a b : DWord) : Option Bool :=
  match f3 with
  | 0 => some (a == b)
  | 1 => some (a != b)
  | 4 => some (decide (a.toInt < b.toInt))
  | 5 => some (decide (b.toInt ≤ a.toInt))
  | 6 => some (decide (a.toNat < b.toNat))
  | 7 => some (decide (b.toNat ≤ a.toNat))
  | _ => none

/-- What an atomic stores over `old`, of n bits. -/
def rvAmo {n : Nat} (f5 : Nat) (old b : BitVec n) : Option (BitVec n) :=
  match f5 with
  | 0x00 => some (old + b)
  | 0x01 => some b
  | 0x04 => some (old ^^^ b)
  | 0x08 => some (old ||| b)
  | 0x0C => some (old &&& b)
  | 0x10 => some (if old.toInt ≤ b.toInt then old else b)
  | 0x14 => some (if b.toInt ≤ old.toInt then old else b)
  | 0x18 => some (if old.toNat ≤ b.toNat then old else b)
  | 0x1C => some (if b.toNat ≤ old.toNat then old else b)
  | _ => none

/-! ## Immediates -/

def immI (x : Word) : DWord := (x.extractLsb' 20 12).signExtend 64
def immS (x : Word) : DWord := (x.extractLsb' 25 7 ++ x.extractLsb' 7 5).signExtend 64
def immB (x : Word) : DWord :=
  (x.extractLsb' 31 1 ++ x.extractLsb' 7 1 ++ x.extractLsb' 25 6 ++ x.extractLsb' 8 4 ++ 0#1).signExtend 64
def immU (x : Word) : DWord := sext32 (x.extractLsb' 12 20 ++ 0#12)
def immJ (x : Word) : DWord :=
  (x.extractLsb' 31 1 ++ x.extractLsb' 12 8 ++ x.extractLsb' 20 1 ++ x.extractLsb' 21 10 ++ 0#1).signExtend 64

/-! ## Memory -/

/-- A load of a function code: its bytes, and the extension. -/
def rvExtend (f3 : Nat) (v : Nat) : DWord :=
  match f3 with
  | 0 => (BitVec.ofNat 8 v).signExtend 64
  | 1 => (BitVec.ofNat 16 v).signExtend 64
  | 2 => (BitVec.ofNat 32 v).signExtend 64
  | _ => BitVec.ofNat 64 v

/-- A load of 2^(f3 mod 4) bytes. An address that is not a multiple of the size is served like another. -/
def State.rvLoad (s : State) (f3 : Nat) (a : DWord) : Except (Nat × DWord) (DWord × State) :=
  match s.samRead a (2 ^ (f3 % 4)) with
  | .error n => .error (n, a)
  | .ok (b, s) => .ok (rvExtend f3 (leNat b), s)

def State.rvStore (s : State) (f3 : Nat) (a v : DWord) : Except (Nat × DWord) State :=
  match s.samWrite a (leBytes (2 ^ f3) (v.toNat % 2 ^ (8 * 2 ^ f3))) .plain with
  | .error n => .error (n, a)
  | .ok s => .ok s

/-- The core after the state changed under it: a store may have ended its reservation. -/
def samAgain (k : Nat) (c : SamCore) (s : State) : SamCore := { c with resv := (s.samCore k).resv }

/-- `lr`: only words of the private SRAM can be reserved; elsewhere it is an access fault. -/
def rvLr (f3 : Nat) (c : SamCore) (a : DWord) (s : State) : Except (Nat × DWord) (SamCore × DWord × State) :=
  let n := 2 ^ f3
  if a.toNat % n ≠ 0 then .error (4, a)
  else
    match s.samPlace a n with
    | some (.sram o) => .ok ({ c with resv := some (o, n) }, rvExtend f3 (leNat (cellRead s.sram o n)), s)
    | _ => .error (5, a)

/-- `sc`: stores and answers 0 while the reservation holds, else answers 1. -/
def rvSc (f3 : Nat) (c : SamCore) (a v : DWord) (s : State) : Except (Nat × DWord) (SamCore × DWord × State) :=
  let n := 2 ^ f3
  if a.toNat % n ≠ 0 then .error (6, a)
  else
    match s.samPlace a n with
    | some (.sram o) =>
      if c.resv = some (o, n) then
        .ok ({ c with resv := none }, 0, s.samStore (.sram o) (leBytes n (v.toNat % 2 ^ (8 * n))) .atomic)
      else .ok ({ c with resv := none }, 1, s)
    | _ => .error (7, a)

/-- An atomic read-modify-write of a word or doubleword, at the point of coherence. -/
def rvAmoAt (f3 f5 : Nat) (a v : DWord) (s : State) : Except (Nat × DWord) (DWord × State) :=
  let n := 2 ^ f3
  if a.toNat % n ≠ 0 then .error (6, a)
  else
    match s.samPlace a n, s.samRead a n with
    | none, _ => .error (7, a)
    | _, .error _ => .error (7, a)
    | some p, .ok (b, s) =>
      let old := leNat b
      let new : Option Nat := if f3 = 2 then (rvAmo f5 (BitVec.ofNat 32 old) (loWord v)).map (·.toNat)
        else (rvAmo f5 (BitVec.ofNat 64 old) v).map (·.toNat)
      match new with
      | none => .error (2, a)
      | some x => .ok (rvExtend f3 old, s.samStore p (leBytes n x) .atomic)

/-! ## Control and status registers -/

/-- What a core reads of a register, or none: there is no such register. -/
def SamCore.csr (c : SamCore) (k : Nat) (n : Nat) : Option DWord :=
  match n with
  | 0x300 => some (c.mstatus ||| 0x200000000#64)
  | 0x301 => some 0x8000000000101105#64
  | 0x304 => some c.mie
  | 0x305 => some c.mtvec
  | 0x340 => some c.mscratch
  | 0x341 => some c.mepc
  | 0x342 => some c.mcause
  | 0x343 => some c.mtval
  | 0x344 => some c.mip
  | 0xF11 => some 0
  | 0xF12 => some 0
  | 0xF13 => some 0
  | 0xF14 => some (BitVec.ofNat 64 k)
  | _ => none

/-- MPP holds a mode that there is: M or U. -/
def mstatusMask (v : DWord) : DWord := (v &&& 0x88#64) ||| (if v.extractLsb' 11 2 = 3#2 then 0x1800#64 else 0)

/-- Writes a register; what is read-only in it stays. -/
def SamCore.setCsr (c : SamCore) (n : Nat) (v : DWord) : SamCore :=
  match n with
  | 0x300 => { c with mstatus := mstatusMask v }
  | 0x304 => { c with mie := v &&& 0x888#64 }
  | 0x305 => { c with mtvec := v &&& ~~~(2#64) }
  | 0x340 => { c with mscratch := v }
  | 0x341 => { c with mepc := v &&& ~~~(1#64) }
  | 0x342 => { c with mcause := v }
  | 0x343 => { c with mtval := v }
  | _ => c

/-- `csrrw`, `csrrs`, `csrrc` and their immediate forms: a register of M mode from U mode, one that does not exist, and
a write of a read-only one are illegal. -/
def rvCsr (k : Nat) (c : SamCore) (x : Word) (next : DWord) (s : State) : RvRes :=
  let n := fieldN x 20 12
  let f3 := fieldN x 12 3
  let src := fieldN x 15 5
  let v := if 4 ≤ f3 then BitVec.ofNat 64 src else c.get (x.extractLsb' 15 5)
  let writes := f3 % 4 == 1 || src != 0
  let bad : RvRes := .error (2, x.setWidth 64)
  if c.userMode then bad
  else
    match c.csr k n with
    | none => bad
    | some old =>
      if writes && decide (0xC00 ≤ n) then bad
      else
        let new := match f3 % 4 with
          | 1 => v
          | 2 => old ||| v
          | _ => old &&& ~~~v
        let c := if writes then c.setCsr n new else c
        .ok ({ c.set (x.extractLsb' 7 5) old with pc := next }, s)

/-- `mret`. -/
def SamCore.mret (c : SamCore) : SamCore :=
  { c with pc := c.mepc, userMode := c.mstatus.extractLsb' 11 2 != 3#2
           mstatus := (if bit c.mstatus 7 then 0x8#64 else 0) ||| 0x80#64 }

/-! ## One instruction -/

/-- A value for rd, and on to the next instruction. -/
def SamCore.put (c : SamCore) (x : Word) (v next : DWord) : SamCore := { c.set (x.extractLsb' 7 5) v with pc := next }

/-- SYSTEM: `ecall`, `ebreak`, `mret`, `wfi`, which may end at once, and the CSR instructions. -/
def rvSystem (k : Nat) (c : SamCore) (x : Word) (next : DWord) (s : State) : RvRes :=
  if fieldN x 12 3 = 4 then .error (2, x.setWidth 64)
  else if fieldN x 12 3 ≠ 0 then rvCsr k c x next s
  else if x = 0x00000073#32 then .error (if c.userMode then 8 else 11, 0)
  else if x = 0x00100073#32 then .error (3, c.pc)
  else if x = 0x10500073#32 then .ok ({ c with pc := next }, s)
  else if x = 0x30200073#32 ∧ c.userMode = false then .ok (c.mret, s)
  else .error (2, x.setWidth 64)

/-- The atomics of a function code. -/
def rvAtomic (k : Nat) (c : SamCore) (x : Word) (next : DWord) (s : State) : RvRes :=
  let f3 := fieldN x 12 3
  let f5 := fieldN x 27 5
  let a := c.get (x.extractLsb' 15 5)
  let v := c.get (x.extractLsb' 20 5)
  if f3 ≠ 2 ∧ f3 ≠ 3 then .error (2, x.setWidth 64)
  else if f5 = 2 then
    if fieldN x 20 5 ≠ 0 then .error (2, x.setWidth 64)
    else (rvLr f3 c a s).map fun r => (r.1.put x r.2.1 next, r.2.2)
  else if f5 = 3 then (rvSc f3 c a v s).map fun r => (r.1.put x r.2.1 next, r.2.2)
  else if (rvAmo f5 0#32 0#32).isNone then .error (2, x.setWidth 64)
  else (rvAmoAt f3 f5 a v s).map fun r => ((samAgain k c r.2).put x r.1 next, r.2)

/-- An operation with an immediate, of 64 bits: a shift has its amount and function code in it. -/
def rvOpImm (x : Word) (a : DWord) : Option DWord :=
  let f3 := fieldN x 12 3
  let top := fieldN x 26 6
  if f3 = 1 then (if top = 0 then some (rvAlu 1 false a (immI x)) else none)
  else if f3 = 5 then (if top = 0 then some (rvAlu 5 false a (immI x)) else if top = 0x10 then some (rvAlu 5 true a (immI x)) else none)
  else some (rvAlu f3 false a (immI x))

/-- The same of 32 bits. -/
def rvOpImmW (x : Word) (a : DWord) : Option DWord :=
  let f3 := fieldN x 12 3
  let top := fieldN x 25 7
  let b := loWord (immI x)
  (if f3 = 0 then rvAluW 0 false (loWord a) b
   else if f3 = 1 ∧ top = 0 then rvAluW 1 false (loWord a) b
   else if f3 = 5 ∧ top = 0 then rvAluW 5 false (loWord a) b
   else if f3 = 5 ∧ top = 0x20 then rvAluW 5 true (loWord a) b
   else none).map sext32

/-- One base instruction of the core at its pc, the next one standing at `next`. -/
def rvExec (k : Nat) (c : SamCore) (x : Word) (next : DWord) (s : State) : RvRes :=
  let a := c.get (x.extractLsb' 15 5)
  let b := c.get (x.extractLsb' 20 5)
  let f3 := fieldN x 12 3
  let f7 := fieldN x 25 7
  let bad : RvRes := .error (2, x.setWidth 64)
  let value (v : Option DWord) : RvRes := match v with
    | none => bad
    | some v => .ok (c.put x v next, s)
  match fieldN x 0 7 with
  | 0x37 => value (some (immU x))
  | 0x17 => value (some (c.pc + immU x))
  | 0x6F => .ok (c.put x next (c.pc + immJ x), s)
  | 0x67 => if f3 = 0 then .ok (c.put x next ((a + immI x) &&& ~~~(1#64)), s) else bad
  | 0x63 =>
    (match rvTaken f3 a b with
     | none => bad
     | some t => .ok ({ c with pc := if t then c.pc + immB x else next }, s))
  | 0x03 =>
    if f3 = 7 then bad
    else (s.rvLoad f3 (a + immI x)).map fun r => (c.put x r.1 next, r.2)
  | 0x23 =>
    if 4 ≤ f3 then bad
    else (s.rvStore f3 (a + immS x) b).map fun t => ({ samAgain k c t with pc := next }, t)
  | 0x13 => value (rvOpImm x a)
  | 0x1B => value (rvOpImmW x a)
  | 0x33 => value (rvOp f3 f7 a b)
  | 0x3B => value (rvOpW f3 f7 a b)
  | 0x2F => rvAtomic k c x next s
  | 0x0F => if f3 ≤ 1 then .ok ({ c with pc := next }, s) else bad
  | 0x73 => rvSystem k c x next s
  | _ => bad

/-! ## Compressed instructions -/

/-- The words that compressed instructions stand for. -/
def rType (f7 rs2 rs1 f3 rd op : Nat) : Word := BitVec.ofNat 32 (((((f7 * 32 + rs2) * 32 + rs1) * 8 + f3) * 32 + rd) * 128 + op)
def iType (imm rs1 f3 rd op : Nat) : Word := BitVec.ofNat 32 ((((imm % 4096 * 32 + rs1) * 8 + f3) * 32 + rd) * 128 + op)
def sType (imm rs2 rs1 f3 : Nat) : Word := rType (imm % 4096 / 32) rs2 rs1 f3 (imm % 32) 0x23
def bType (imm rs1 f3 : Nat) : Word :=
  rType (bitsN imm 12 1 * 64 + bitsN imm 5 6) 0 rs1 f3 (bitsN imm 1 4 * 2 + bitsN imm 11 1) 0x63
def jType (imm rd : Nat) : Word :=
  BitVec.ofNat 32 ((((bitsN imm 20 1 * 1024 + bitsN imm 1 10) * 2 + bitsN imm 11 1) * 256 + bitsN imm 12 8) * 4096 + rd * 128 + 0x6F)

/-- A signed field of n bits as a number modulo 2^32. -/
def signedField (n v : Nat) : Nat := if v < 2 ^ (n - 1) then v else v + 2 ^ 32 - 2 ^ n

/-- Quadrant 0: loads and stores with 3-bit registers. -/
def expand0 (h : Nat) : Option Word :=
  let rd := 8 + bitsN h 2 3
  let rs := 8 + bitsN h 7 3
  let w := bitsN h 10 3 * 8 + bitsN h 6 1 * 4 + bitsN h 5 1 * 64
  let d := bitsN h 10 3 * 8 + bitsN h 5 2 * 64
  let sp := bitsN h 11 2 * 16 + bitsN h 7 4 * 64 + bitsN h 6 1 * 4 + bitsN h 5 1 * 8
  match bitsN h 13 3 with
  | 0 => if sp = 0 then none else some (iType sp 2 0 rd 0x13)
  | 2 => some (iType w rs 2 rd 0x03)
  | 3 => some (iType d rs 3 rd 0x03)
  | 6 => some (sType w rd rs 2)
  | 7 => some (sType d rd rs 3)
  | _ => none

/-- Register operations of quadrant 1. -/
def expandAlu (h : Nat) : Option Word :=
  let rd := 8 + bitsN h 7 3
  let rs := 8 + bitsN h 2 3
  let sh := bitsN h 12 1 * 32 + bitsN h 2 5
  match bitsN h 10 2 with
  | 0 => some (iType sh rd 5 rd 0x13)
  | 1 => some (iType (0x400 + sh) rd 5 rd 0x13)
  | 2 => some (iType (signedField 6 sh) rd 7 rd 0x13)
  | _ =>
    match bitsN h 12 1 * 4 + bitsN h 5 2 with
    | 0 => some (rType 0x20 rs rd 0 rd 0x33)
    | 1 => some (rType 0 rs rd 4 rd 0x33)
    | 2 => some (rType 0 rs rd 6 rd 0x33)
    | 3 => some (rType 0 rs rd 7 rd 0x33)
    | 4 => some (rType 0x20 rs rd 0 rd 0x3B)
    | 5 => some (rType 0 rs rd 0 rd 0x3B)
    | _ => none

/-- Quadrant 1: immediates, operations, jumps and branches. -/
def expand1 (h : Nat) : Option Word :=
  let rd := bitsN h 7 5
  let imm := signedField 6 (bitsN h 12 1 * 32 + bitsN h 2 5)
  let sp := signedField 10 (bitsN h 12 1 * 512 + bitsN h 6 1 * 16 + bitsN h 5 1 * 64 + bitsN h 3 2 * 128 + bitsN h 2 1 * 32)
  let j := signedField 12 (bitsN h 12 1 * 2048 + bitsN h 11 1 * 16 + bitsN h 9 2 * 256 + bitsN h 8 1 * 1024 + bitsN h 7 1 * 64 +
    bitsN h 6 1 * 128 + bitsN h 3 3 * 2 + bitsN h 2 1 * 32)
  let b := signedField 9 (bitsN h 12 1 * 256 + bitsN h 10 2 * 8 + bitsN h 5 2 * 64 + bitsN h 3 2 * 2 + bitsN h 2 1 * 32)
  match bitsN h 13 3 with
  | 0 => some (iType imm rd 0 rd 0x13)
  | 1 => if rd = 0 then none else some (iType imm rd 0 rd 0x1B)
  | 2 => some (iType imm 0 0 rd 0x13)
  | 3 =>
    if imm = 0 then none
    else if rd = 2 then some (iType sp 2 0 2 0x13)
    else some (BitVec.ofNat 32 (imm % 2 ^ 20 * 4096 + rd * 128 + 0x37))
  | 4 => expandAlu h
  | 5 => some (jType j 0)
  | 6 => some (bType b (8 + bitsN h 7 3) 0)
  | _ => some (bType b (8 + bitsN h 7 3) 1)

/-- Quadrant 2: shifts, stack accesses, and jumps and moves of registers. -/
def expand2 (h : Nat) : Option Word :=
  let rd := bitsN h 7 5
  let rs := bitsN h 2 5
  let w := bitsN h 4 3 * 4 + bitsN h 12 1 * 32 + bitsN h 2 2 * 64
  let d := bitsN h 5 2 * 8 + bitsN h 12 1 * 32 + bitsN h 2 3 * 64
  match bitsN h 13 3 with
  | 0 => some (iType (bitsN h 12 1 * 32 + rs) rd 1 rd 0x13)
  | 2 => if rd = 0 then none else some (iType w 2 2 rd 0x03)
  | 3 => if rd = 0 then none else some (iType d 2 3 rd 0x03)
  | 4 =>
    if bitsN h 12 1 = 0 then
      if rs ≠ 0 then some (rType 0 rs 0 0 rd 0x33)
      else if rd = 0 then none
      else some (iType 0 rd 0 0 0x67)
    else if rs ≠ 0 then some (rType 0 rs rd 0 rd 0x33)
    else if rd = 0 then some 0x00100073#32
    else some (iType 0 rd 0 1 0x67)
  | 6 => some (sType (bitsN h 9 4 * 4 + bitsN h 7 2 * 64) rs 2 2)
  | 7 => some (sType (bitsN h 10 3 * 8 + bitsN h 7 3 * 64) rs 2 3)
  | _ => none

/-- The word that a compressed instruction stands for, or none: it is illegal. -/
def expandC (h : Nat) : Option Word :=
  match h % 4 with
  | 0 => expand0 h
  | 1 => expand1 h
  | _ => expand2 h

/-! ## A core's next instruction -/

/-- The word at a core's pc, in two parts of 16 bits of which a compressed instruction has one; the address that faults
when there is none; and the state after the reads, which recall lines as every read does (07 R132, R136). -/
def State.samFetch (s : State) (k : Nat) : Except DWord (Nat ⊕ Word) × State :=
  let pc := (s.samCore k).pc
  match s.samRead pc 2 with
  | .error _ => (.error pc, s)
  | .ok (b, s) =>
    let lo := leNat b
    if lo % 4 ≠ 3 then (.ok (.inl lo), s)
    else
      match s.samRead (pc + 2) 2 with
      | .error _ => (.error (pc + 2), s)
      | .ok (d, s) => (.ok (.inr (BitVec.ofNat 32 (lo + 65536 * leNat d))), s)

/-- A core after a base instruction: on to the next, or into its handler. -/
def State.samBase (s : State) (k : Nat) (r : RvRes) : State :=
  match r with
  | .ok (c, t) => t.putSam k { c with sleep := .running }
  | .error (n, a) => s.putSam k ((s.samCore k).trap n a)

/-- A core executes a base instruction, compressed or not. -/
def State.samStep (s : State) (k : Nat) (x : Nat ⊕ Word) : State :=
  let c := s.samCore k
  match x with
  | .inr w => s.samBase k (rvExec k c w (c.pc + 4) s)
  | .inl h =>
    s.samBase k (match expandC h with
      | none => .error (2, BitVec.ofNat 64 h)
      | some w => rvExec k c w (c.pc + 2) s)

end Sys2Proof.Machine
end

