-- ==== Sys2Proof/Machine/Outside.lean ====
section
/-! DEFINITION. What comes from outside (12 R222; 21 R361, R368, R369, R373), and what a Samovar core does when it is its
turn (21 R363, R364). -/

namespace Sys2Proof.Machine

/-! ## Stimuli -/

/-- A stimulus is one of the steps that are no words. -/
def isStimulus (i : Instr) : Bool := (encode i).isEmpty

/-- A sector that has a place in memory is poisoned. -/
def State.upset (s : State) (pa : Nat) : State := if s.tierAt pa = .none then s else s.poisonAt pa 1

/-- A sector of a workgroup's scratchpad or stash is poisoned; of a mapped range, one that a held line has (07 R132). -/
def State.scratchUpset (s : State) (wk off : Nat) : State :=
  match s.wg wk with
  | none => s
  | some w =>
    if w.extent ≤ off then s
    else if (w.mapAt off).isSome ∧ (w.lines.find? fun l => l.off == lineOf off) = none then s
    else s.scratchPoison wk off 1

/-- PSN of a bank is set: the second bank is the visible one of banked mode; in direct mode nothing stands in it
(12 R222, R223). -/
def State.bankUpset (s : State) (wk slot : Nat) (second : Bool) : State :=
  s.updWg wk fun w => w.updSlot slot fun a =>
    if !second then { a with work := { a.work with psn := true } }
    else if w.hdr.accm then a
    else { a with vis := { a.vis with psn := true } }

/-- A sector that an L1 line holds is poisoned there. -/
def State.l1Upset (s : State) (core va : Nat) : State :=
  let hit (l : L1Line) : L1Line := { l with sec := l.sec.upd (va / 32 % 4) fun b => (b.1, true) }
  s.putCore core { s.core core with l1 := (s.core core).l1.map fun l => if l.va = lineOf va then hit l else l }

/-- An element of scale memory that ECC cannot correct: the spec gives it no mark, so that it reads as a free value from
then on (DESIGN CHOICE, log 75). -/
def State.scaleUpset (s : State) (wk off : Nat) : State :=
  let d := s.draw Config.freeByte
  d.2.updWg wk fun w => { w with scale := cellPut w.scale off d.1 }

/-- A row of a fibre that ECC cannot correct: no rule gives a register a mark, so that its 16 words are free values from
then on (DESIGN CHOICE, log 75). Rows 0 to 63 are those of its window, 64 to 67 those of its divergence stack. -/
def State.rowUpset (s : State) (wk fid row : Nat) : State :=
  let r := freeBytes 64 s
  let new : Vector Word 16 := Vector.ofFn fun k => wordAt r.1 (4 * k.val)
  r.2.updWg wk fun w => { w with fibres := w.fibres.upd fid fun f =>
    if row < 64 then { f with v := vset f.v row new } else { f with stack := vset f.stack (row - 64) new } }

/-! ## The end-to-end check of a sector in memory (21 R373) -/

/-- The check of a sector: that of its 32 bytes as they stand in memory, as the last agent that wrote it, or the home
slice that merged a part, computed it. -/
def State.checkOf (s : State) (pa : Nat) : BitVec 16 := crc16 (cellRead s.mem (32 * (pa / 32)) 32)

/-- The bytes of a sector change where no writer computes a new check. The check that travels with the sector no longer
matches unless CRC-16 cannot tell; the next read finds it out and poisons the sector, and a write before that computes the
check anew (21 R373). -/
def State.corrupt (s : State) (pa : Nat) (bytes : List Byte) : State :=
  if s.tierAt pa = .none then s
  else
    let old := s.checkOf pa
    let t := s.setMem (cellWrite s.mem (32 * (pa / 32)) (bytes.take 32))
    if t.checkOf pa = old ∨ t.stale.contains (pa / 32) = true ∨ t.poison.contains (pa / 32) = true then t
    else t.setStale (t.stale ++ [pa / 32])

/-- Interrupts of a Samovar core become or cease to be pending. -/
def State.samInterrupt (s : State) (k : Nat) (pending : DWord) : State :=
  if 4 ≤ k then s else s.putSam k { s.samCore k with mip := pending &&& 0x888#64 }

/-- What comes from outside happens. -/
noncomputable def stimulate (x : Stimulus) (s : State) : Out :=
  match x with
  | .row i => if isStimulus i then exec i s else .next s
  | .corrected => powered (fun s => s.setFw { s.fw with corrected := s.fw.corrected + 1 }) s
  | .upset pa => powered (fun s => s.upset pa) s
  | .scratchUpset wk off => powered (fun s => s.scratchUpset wk off) s
  | .bankUpset wk slot second => powered (fun s => s.bankUpset wk slot second) s
  | .l1Upset core va => powered (fun s => s.l1Upset core va) s
  | .scaleUpset wk off => powered (fun s => s.scaleUpset wk off) s
  | .rowUpset wk fid row => powered (fun s => s.rowUpset wk fid row) s
  | .corrupt pa bytes => powered (fun s => s.corrupt pa bytes) s
  | .debugRead k n => powered (fun s => s.debugRead k n) s
  | .debugWrite n x => powered (fun s => s.debugWrite n x) s
  | .samInterrupt k p => powered (fun s => s.samInterrupt k p) s
  | .clearPeak id => managed (fun s => s.clearPeak id) s
  | .sensorAway id away => powered (fun s => s.sensorAway id away) s
  | .mmioRead fn off => powered (fun s => s.mmioRead fn off) s
  | .armMsix vf v va mask operand cond => powered (fun s => s.armMsix vf v va mask operand cond) s
  | .stageImage session img => powered (fun s => s.stageImage session img) s

/-! ## Samovar cores -/

/-- The custom word of a core; another function code of the opcode is an illegal instruction (21 R364). -/
noncomputable def issueCustom (k : Nat) (x : Word) (s : State) : Out :=
  match decodeSamovar x with
  | .ok i => exec i { s with cur := ⟨0, 0, k⟩ }
  | .error _ => .next (s.putSam k ((s.samCore k).trap 2 (x.setWidth 64)))

/-- A Samovar core takes an interrupt, or executes the instruction at its pc; where none can be fetched it takes an
access fault. -/
noncomputable def issueSam (k : Nat) (s : State) : Out :=
  let c := s.samCore k
  match c.takes with
  | some n => .next (s.putSam k (c.interrupt n))
  | none =>
    match s.samFetch k with
    | (.error a, s) => .next (s.putSam k (c.trap 1 a))
    | (.ok (.inr x), s) => if fld x 0 7 = 0x0B then issueCustom k x s else .next (s.samStep k (.inr x))
    | (.ok x, s) => .next (s.samStep k x)

end Sys2Proof.Machine
end

