-- ==== Sys2Proof/Machine/Agents.lean ====
section
/-! DEFINITION. Who can act next: fibres, Samovar cores, the machine's own steps that are enabled, and the next stimulus
from outside; how each acts, with the fetch of a fibre's word (01 R13, 07 R126, R133). -/

namespace Sys2Proof.Machine

/-! ## Fetch (01 R13, 02 R39, 07 R126) -/

/-- The word at an address of a fibre's instruction stream: from the core's instruction cache if it holds it, else read
at L2 (00 R3; 07 R132, R136). -/
def fetchWord (s : State) (w : Workgroup) (a : DWord) : Except Trap (List Byte × State) :=
  if a.toNat / 2 ^ 56 ≠ 0 ∨ (s.windowOf w.tenant a.toNat).isSome = true then .error (trapOf .protection 0x00 a)
  else
    match s.translate (clusterOf w.core) w.tenant a.toNat 4 false a with
    | .error t => .error t
    | .ok (pa, e, s) =>
      if !e.x then .error (trapOf .protection 0x00 a)
      else
        match s.iLook w.core e.asid a.toNat with
        | (some b, s) => .ok (b, s)
        | (none, s) =>
          if s.poisoned pa 4 then .error (trapOf .poison 0x00 a)
          else
            let r := s.sliceRead (some w.core) pa 4
            .ok (r.1, r.2.iFill w.core e.asid a.toNat r.1)

/-- A `lit` as it stands in its first word: well formed, not turned off by its guard, and with no fault before its
effect. Only then is its data word fetched (01 R24; 02 R48, R49; DEDUCED, log 11). -/
def needsData (f : Fibre) (x : Word) : Bool :=
  let u := litUse (fld x 29 2) (fld x 27 2) (fld x 15 6)
  let g := f.atIssue.dropRix
  isLit x && fld x 0 15 == 0 && !(runners u g).isEmpty && (issueFault u none g (runners u g)).isNone

/-- The bytes of the instruction at a fibre's PC: one word, and the data word of a `lit` that needs it, zero otherwise.
A word under way is not fetched again. -/
def fetchBytes (s : State) (w : Workgroup) (f : Fibre) : Except Trap (List Byte × State) :=
  if !f.word.isEmpty then .ok (f.word, s)
  else
    match fetchWord s w f.pc with
    | .error t => .error t
    | .ok (b, s) =>
      if needsData f (wordAt b 0) then
        match fetchWord s w (f.pc + 4) with
        | .error t => .error t
        | .ok (d, s) => .ok (b ++ d, s)
      else .ok (if isLit (wordAt b 0) then b ++ List.replicate 4 0 else b, s)

/-- The fault of a word that decodes to no instruction (02 R48). -/
def decodeTrap : DecodeError → Trap
  | .illegalOp => trapOf .illegalOp 0 0
  | .reservedField => trapOf .reservedField 0 0
  | .short => trapOf .illegalOp 0 0

/-! ## The agents -/

/-- Something that can act. -/
inductive Agent where
  | fibre (wk fid : Nat)
  | samovar (k : Nat)
  | event (i : Instr)
  /-- the next stimulus from outside -/
  | outside
  deriving DecidableEq, Repr

/-- What a fibre keeps as it issues a word: its bytes, and the cycle. -/
def Fibre.begin (f : Fibre) (b : List Byte) (now : Nat) : Fibre := { f with word := b, issuedAt := now + 1 }

/-- The slot of a fibre passes without an issue: its lane is not free for its L word (04 R81, R83). -/
def Fibre.passSlot (f : Fibre) (now : Nat) : Fibre := { f with issuedAt := now + 1 }

/-- The word of a fibre stalls for the commit token: so it does when its launch's token is held by nobody. -/
noncomputable def State.tokenNext (s : State) (wk : Nat) (w : Workgroup) (f : Fibre) : Bool :=
  let s := { s.updLaunch w.launch (fun l => { l with token := { l.token with holder := none } }) with cur := ⟨wk, f.fid, 4⟩ }
  match fetchBytes s w f with
  | .error _ => false
  | .ok (b, s) =>
    match decodeBytes b with
    | .error _ => false
    | .ok (i, _) =>
      match exec i s with
      | .next t => (((t.wg wk).bind fun w => w.fibres.find f.fid).map fun g => g.sleep == .token).getD false
      | _ => false

/-- The fibres of a workgroup that are quiescent now: asleep, or ready to issue a token-class word, none of which has been
issued (18 R334). -/
noncomputable def State.quietFibres (s : State) (wk : Nat) (w : Workgroup) : List Nat :=
  ((w.fibres.filter fun e =>
    s.asleep wk w e.2 || (s.ready wk w e.2 && !e.2.midWord && s.tokenNext wk w e.2)).map (·.1))

/-- Before a `tokpass` of a workgroup issues, the core looks which of its other fibres are quiescent. -/
noncomputable def State.lookAround (s : State) (wk : Nat) (w : Workgroup) (i : Instr) : State :=
  match i with
  | .tokpass _ => if w.hdr.det then s.updWg wk fun w => { w with quiet := s.quietFibres wk w } else s
  | _ => s

/-- A fibre executes the instruction at its PC, or faults at it. -/
noncomputable def issueFibre (wk fid : Nat) (s : State) : Out :=
  match s.wg wk with
  | none => .fault .noFibre
  | some w =>
    match w.fibres.find fid with
    | none => .fault .noFibre
    | some f =>
      let s := { s with cur := ⟨wk, fid, 4⟩ }
      match fetchBytes s w f with
      | .error t => .next ((s.faultWalk w.tenant t.addr.toNat t).raiseFetch wk w f t)
      | .ok (b, s) =>
        match decodeBytes b with
        | .error e => .next (s.raiseAt wk w f (decodeTrap e) 0)
        | .ok (i, _) =>
          if bit (wordAt b 0) 31 || s.laneFree w f then exec i ((s.lookAround wk w i).putFibre wk (f.begin b s.cycles))
          else .next (s.putFibre wk (f.passSlot s.cycles))

/-- An agent acts. -/
noncomputable def act (a : Agent) (s : State) : Out :=
  match a with
  | .fibre wk fid => issueFibre wk fid s
  | .samovar k => issueSam k s
  | .event i => exec i s
  | .outside =>
    match s.inbox with
    | [] => .next s
    | x :: is => stimulate x { s with inbox := is }

/-! ## Steps of the machine's own that may be enabled -/

/-- Steps of one fibre. -/
noncomputable def fibreEvents (wk : Nat) (k : Nat) (f : Fibre) : List Instr :=
  (match f.rowsReq with
   | some (.fork _ _) => [.forkPlacement wk k]
   | some (.grow _) => [.vgrowGrant wk k]
   | _ => []) ++
  (if f.owesTrap then [.lateTrap wk k] else []) ++
  (if f.outs.isEmpty then [] else [.accessCompletion wk k]) ++
  (if f.spilled then [.spillRestore wk k] else []) ++
  (if f.sleep = .parked then [.resolutionLimitExpiry wk k] else [])

/-- Steps of one workgroup. -/
noncomputable def wgEvents (s : State) (wk : Nat) (w : Workgroup) : List Instr :=
  (w.fibres.flatMap fun e => fibreEvents wk e.1 e.2) ++
  (if w.orphans.isEmpty then [] else [.accessCompletion wk 32]) ++
  ((w.lines.filter (·.dirty)).map fun l => .lazyStashWriteBack wk l.off) ++
  (if w.mq.isEmpty then [] else [.mmaStart wk, .mmaGranule wk, .mmaCompletion wk]) ++
  (if w.fibres.isEmpty then [.workgroupExit wk] else []) ++
  (if w.run = .stopping then [.contextSave wk] else []) ++
  (if w.run = .saved then [.contextRestore wk] else []) ++
  (if w.dead then [.unitTeardown wk] else []) ++
  (if (s.tenant w.tenant).watchdogMs = 0 then [] else [.watchdogExpiry wk])

/-- Steps of one core: spilling, and the heads of its channels. -/
noncomputable def coreEvents (core : Nat) (x : CoreState) : List Instr :=
  (List.range 8).flatMap fun ch =>
    if (vget x.chans ch []).isEmpty then []
    else [.copyGranule core ch, .copyCommandEnd core ch, .engineTranslationStall core ch]

/-- The cores on which a fibre waits for rows. -/
def State.rowCores (s : State) : List Nat :=
  ((s.wgs.vals.filter fun w => w.fibres.vals.any fun f => f.sleep == .rows).map (·.core)).dedup

/-- Steps of one launch. -/
noncomputable def launchEvents (id : Nat) (l : Launch) : List Instr :=
  (if l.tslice = 0 then [] else l.slices.map fun e => .timeSliceExpiry id e.1) ++
  (if l.hdr.det then [.tokenPass id, .tokenReceipt id, .deterministicSave id] else [])

/-- Steps of one die's placer and Caddy. -/
noncomputable def dieEvents (s : State) (die : Nat) : List Instr :=
  ((s.placer die).inq.filter fun e => !e.2.isEmpty).flatMap (fun e => [.placerRound die, .headReservation die e.1]) ++
  ((List.range (s.caddyOf die).moves.length).map fun n => .caddyDataMoveDone die n) ++
  (if (s.caddyOf die).low? then [.automaticEviction die] else [])

/-- The watch of a waiter has fired. -/
def State.hasFired (s : State) (who : Waiter) : Bool := ((s.watchOf who).map fun x => x.2.fired).getD false

/-- Steps of Kettle and of the queues. -/
noncomputable def queueEvents (s : State) : List Instr :=
  (s.hostQueues.keys.map fun q => .hostLaunchQueueEntry q) ++
  ((s.pending.filter fun e => !e.2.isEmpty).map fun e => .launchDispatch e.1) ++
  ((s.kqueues.keys.filter fun q => s.hasFired (.kettleTail q)).map fun q => .submissionTailFire q) ++
  ((s.kqueues.filter fun e => e.2.hasMore).flatMap fun e => [.submitRecord e.1, .cancelRecord e.1]) ++
  ((s.kmodels.filter fun e => e.2.ready).map fun e => .iterationForm e.1) ++
  ((s.kslots.keys.filter fun n => s.hasFired (.kettleCons n)).map fun n => .consWatchFire n) ++
  ((s.kslots.filter fun e => decide (e.2.state = .deliveryWait)).map fun e => .parkLimit e.1) ++
  (if (s.kqueues.vals.any (·.polled)) || (s.hostQueues.vals.any (·.polled)) || (s.kslots.vals.any (·.consPolled)) then
    [.pollTimer] else [])

/-- Every step of the machine's own that may have an effect. -/
noncomputable def ownEvents (s : State) : List Instr :=
  (s.wgs.flatMap fun e => wgEvents s e.1 e.2) ++
  (s.rowCores.map fun c => .coreSpill c) ++
  (s.cores.flatMap fun e => coreEvents e.1 e.2) ++
  (s.slices.keys.map fun n => .cpyrApply n) ++
  (s.launches.flatMap fun e => launchEvents e.1 e.2) ++
  ((List.range 4).flatMap (dieEvents s)) ++ queueEvents s ++
  (s.fabric.custody.keys.flatMap fun n => [.custodyResend n, .custodyTimeout n]) ++
  (if s.fw.upd = .activating then [.updateReadyTimeout] else []) ++
  (if s.fw.fusePending then [.securityVersionFuse] else [])

/-- The step would change the state. -/
def State.moves (s : State) (i : Instr) : Bool :=
  match exec i s with
  | .next t => decide (t ≠ s)
  | _ => true

/-! ## Who can act -/

/-- In deterministic mode, another fibre of the workgroup issues in the same cycle on a lower lane, in another slice: it
goes first, so that the order of a cycle's accesses is the same in every run (18 R337; DESIGN CHOICE, log 2: 12 R219 orders
a cycle's commands by lane, and no rule orders its accesses). -/
def State.yieldsTo (s : State) (wk : Nat) (w : Workgroup) (f : Fibre) : Bool :=
  w.hdr.det && w.fibres.vals.any fun g => decide (g.lane < f.lane) && s.mayIssue wk w g

/-- The fibres that may issue. -/
def State.issuers (s : State) : List Agent :=
  s.wgs.flatMap fun e =>
    (e.2.fibres.filter fun x => s.mayIssue e.1 e.2 x.2 && !s.yieldsTo e.1 e.2 x.2).map fun x => .fibre e.1 x.1

/-- A Samovar core acts from boot on, unless it sleeps; an interrupt that it takes wakes it. -/
def State.samActs (s : State) (k : Nat) : Bool :=
  !s.fw.powerOff && s.fw.booted && (s.samWakes (s.samCore k) || (s.samCore k).takes.isSome)

/-- Every agent that can act. -/
noncomputable def agents (s : State) : List Agent :=
  s.issuers ++ ((List.range 4).filter s.samActs).map .samovar ++
    ((ownEvents s).filter s.moves).map .event ++ (if s.inbox.isEmpty then [] else [.outside])

/-- A round of this cycle is not over: a further unit fits (17 R310). -/
def State.inRounds (s : State) : Bool :=
  (List.range 4).any fun die => s.roundsBegun die && (s.pick die).isSome

/-- The cycles that the hold of an update may still last: 2 ms in all (21 R368). -/
def State.holdLeft (s : State) : Option Nat :=
  if s.fw.upd = .activating then some (s.fw.since + 2 * msCycles - s.cycles) else none

/-- The cycles until a token that may be received is: at the beginning of a rotation of the receiver's slots (`receiptDue`). -/
def State.receiptLeft (s : State) : Option Nat :=
  (s.launches.flatMap fun e =>
    match s.receiver e.1 e.2 with
    | some w => [s.rotationWait w]
    | none => []).min?

/-- A number of cycles under a limit, if there is one. -/
def within (e : Nat) : Option Nat → Nat
  | some n => min e n
  | none => e

/-- Time passes: how much is a free value. A ready fibre of a deterministic launch does not miss its slice slot (04 R83),
a cycle in which a placer grants units ends when none fits (17 R310), and an update's hold ends in time (21 R368). Claims
that have come to their turn pass (09 R188), a commit token that may be received is (18 R337), and the sensors whose VALUE the state holds note their PEAK (21 R369). -/
def State.advance (s : State) : State :=
  let e := if s.inRounds then 0 else Config.elapsed s.free
  ({ s with cycles := s.cycles + within (within (within e s.nextTurn) s.receiptLeft) s.holdLeft, free := s.free + 1 }).passClaims.notePeaks

/-- One of the agents acts; which one is a free value. With none the machine idles. -/
noncomputable def oneActs (as : List Agent) (s : State) : Out :=
  match as with
  | [] => .next s
  | [a] => act a s
  | a :: b :: rest =>
    let all := a :: b :: rest
    act (all.getD (Config.choose s.free % all.length) a) { s with free := s.free + 1 }

/-! ## Placing one instruction (the host's interface) -/

/-- The kernel header of the workgroup that `withFetchWord` places: one fibre, the widest window, and some of everything
that an instruction can name. -/
def probeHeader : Header :=
  { addr := 0x210000, det := false, accm := false, sbchk := false, traph := false, win := 64, rot := 0, ddepth := 4
    fibres := 1, hitch := 1, accslots := 1, nbar := 0xFFFF, scratch := 4096, stash := 4096, trapoff := 0, qstart := 0
    knots := 0 }

/-- Its launch. -/
def probeLaunch : Launch :=
  { qid := 0, tenant := 0, hdr := probeHeader, args := 0, gridx := 1, gridy := 1, slack := 0xFFF, tslice := 0, pmode := 0
    pdie := 0, ksh := 0, kbase := 0, kstr := 0, preds := [], sig := 0, sigval := 0, fq := 0, posted := none
    kettle := none, state := .dispatched, serial := 0, ksmap := [], knots := [], trigd := [], trigAt := 0, faultAt := [], exited := []
    fatal := false, cancel := none, lost := false, wide := none, token := { holder := none, next := 0, p := 0 }, slices := [] }

/-- Tenant 0 with tables at 0x100000, 0x200000 and 0x300000 that map two pages of 2 MiB onto themselves, with W and X:
page 0, and page 1, which holds the code. -/
def State.probeTenant (s : State) : State :=
  let m := cellWrite s.mem 0x100000 (leBytes 8 (0x200000 + 1))
  let m := cellWrite m 0x200000 (leBytes 8 (0x300000 + 1))
  let m := cellWrite m 0x300000 (leBytes 8 0xF ++ leBytes 8 0x20000F)
  { s with mem := m, tenants := s.tenants.put 0 { Tenant.fresh with root := some 0x100000 } }

/-- A Samovar core that sleeps on the first word of the SRAM. -/
def State.sleeper (s : State) : SamCore := { SamCore.fresh with sleep := .sram 0 (dwordAt (cellRead s.sram 0 8) 0) }

/-- One workgroup of one fibre at its first instruction, whose bytes are given; no other agent has anything to do. -/
def State.probeFibre (s : State) (bs : List Byte) : State :=
  let t := { s with wgs := [], launches := [(0, probeLaunch)], inbox := [], clusters := [], cores := []
                    sam := Vector.replicate 4 s.sleeper }.probeTenant
  let t := t.setMem (cellWrite t.mem 0x210040 bs)
  t.admitMember 0 0 0

/-- Samovar core 0 at an instruction in its SRAM, once an image runs; the other cores sleep. -/
def State.probeSam (s : State) (bs : List Byte) : State :=
  { s with wgs := [], inbox := [], sram := cellWrite s.sram 0x1000 bs, fw := { s.fw with booted := true, powerOff := false }
           sam := vset (Vector.replicate 4 s.sleeper) 0 { SamCore.fresh with x := (s.samCore 0).x, pc := 0x1000 } }

/-- The words of an opcode-table row placed where the next step fetches. -/
def State.placeWord (s : State) (nbits w : Nat) : State :=
  let v : BitVec 64 := BitVec.ofNat 64 (w % 2 ^ nbits)
  let w0 : Word := v.extractLsb' 0 32
  if samovarWord w0 then s.probeSam (wordBytes w0)
  else s.probeFibre (wordBytes w0 ++ wordBytes (v.extractLsb' 32 32))

end Sys2Proof.Machine
end

