-- ==== Sys2Proof/Machine/Step.lean ====
section
/-! DEFINITION. One step of the machine, and the placing of one instruction where the next step fetches it. -/

namespace Sys2Proof.Machine

/-- One step: time passes, and one of the agents that can act does. -/
noncomputable def step (s : State) : Host.Outcome State Fault Refusal := oneActs (agents s.advance) s.advance

/-- The state with the instruction of an opcode-table row where the next step fetches. -/
def State.withFetchWord (s : State) (nbits w : Nat) : State := s.placeWord nbits w

end Sys2Proof.Machine
end

