-- ==== Sys2Proof/Safety.lean ====
section
/-! DEFINITION. The terms in which claims are stated: when a word of a fibre has its effect, what it wrote, how it left
the fibre, and the invariant of memory. -/

namespace Sys2Proof.Machine

/-! ## A word that has its effect -/

/-- The fibre as a word of usage u finds it at its issue (01 R28; 03 R72 for U words). -/
def issueOf (u : Use) (f : Fibre) : Fibre := if u.lane then f.atIssue else f.atIssue.dropRix

/-- The current fibre issues a word of usage u, and nothing stands before the word's effect: the strands `act` execute
it (01 R24), no check of 02 R49 or 01 R28 fails, no fabric access holds a releasing or acquiring word back (20 R349), no operand
register is owed by an engine, and its queue ports have been served (09 R182, R183). `f` is the fibre at issue, `g` and
`s1` are fibre and state once the ports have been served; before that, a word that releases has had the fibre's plain accesses
performed, and any other word has fixed the loads whose registers it names (`beforeWord`, 08 R152, 01 R26). -/
structure Issues (u : Use) (pre : Fibre → Option Trap) (s : State) (w : Workgroup) (f : Fibre) (act : List Nat)
    (g : Fibre) (s1 : State) : Prop where
  wg : s.wg s.cur.wk = some w
  fibre : (w.fibres.find s.cur.fid).map (issueOf u) = some f
  strands : act = runners u f
  some_strand : act ≠ []
  clear : issueFault u (pre f) f act = none
  hold : syncHold s.cur.wk u f s = false
  ports : operandWait w u (beforeWord w u f s).1 (beforeWord w u f s).2 = (g, s1, none)

/-- `exec` answers the next state in which the word of the fibre that was f at issue has ended as r says; `settleRes` retires it, transfers, raises the
fault, or lets it wait. -/
def Ends (i : Instr) (s : State) (w : Workgroup) (u : Use) (act : List Nat) (f : Fibre) (r : Res) : Prop :=
  exec i s = .next (settleRes s.cur.wk w u act.length (beforeWord w u f s).1 r)

/-- `exec` answers the next state in which the word has completed, leaving fibre h and state t. -/
def Finishes (i : Instr) (s : State) (w : Workgroup) (u : Use) (act : List Nat) (f h : Fibre) (t : State) : Prop :=
  Ends i s w u act f (.done h t)

/-! ## What a word wrote -/

/-- The value of the last of the writes to a register, or what it held. -/
def lastOf : List (Reg × Word) → Reg → Word → Word
  | [], _, d => d
  | e :: es, r, d => lastOf es r (if e.1 = r then e.2 else d)

/-- Fibre h is g after the writes `ws`, in order, and after the FSTAT bits `fl` were set: every register holds its last
write, every other register what it held, and nothing else of the fibre has changed. A register's content is what it
holds once the results in flight have been written. -/
structure Wrote (g h : Fibre) (ws : List (Reg × Word)) (fl : Word) : Prop where
  regs : ∀ r : Reg, h.readNow r = lastOf ws r (g.readNow r)
  status : h.fstat = g.fstat ||| fl
  rest : { h with s := g.s, v := g.v, p := g.p, c := g.c, pend := g.pend, fstat := g.fstat } = g

/-- A word whose whole effect is on registers and FSTAT: its usage, its writes in order, and the FSTAT bits it sets, as
functions of the fibre at issue and the strands that execute it. -/
structure RegWord where
  use : Use
  writes : Fibre → List Nat → List (Reg × Word)
  flags : Fibre → List Nat → Word

/-- Every word of the table completes whenever it has its effect, and writes what the table says and nothing else. -/
def RegWordsComplete (table : Instr → Option RegWord) : Prop :=
  ∀ (i : Instr) (r : RegWord) (s : State) (w : Workgroup) (f : Fibre) (act : List Nat) (g : Fibre) (s1 : State),
    table i = some r → i.wf = true → Issues r.use noPre s w f act g s1 →
      ∃ h, Finishes i s w r.use act f h s1 ∧ Wrote g h (r.writes g act) (r.flags g act)

/-- A write of an s register; a write of s0 is discarded (01 R10). -/
def toS (n : Nat) (x : Word) : List (Reg × Word) := if n = 0 then [] else [(.s n, x)]

/-- A write of a pair; a write of the pair s0 is discarded (01 R11). -/
def toS64 (n : Nat) (x : DWord) : List (Reg × Word) :=
  if n = 0 then [] else [(.s n, loWord x), (.s (n + 1), hiWord x)]

/-- A write of a condition register; a write of c0 is discarded (01 R12). -/
def toC (n : Nat) (x : Bool) : List (Reg × Word) := if n = 0 then [] else [(.c n, b2w x)]

/-- The strands of a word with their positions in issue order (01 R25). -/
def positions (act : List Nat) : List (Nat × Nat) := act.zipIdx

/-- Writes of vD, one per strand. -/
def toV (d : Nat) (x : Nat → Nat → Word) (f : Fibre) (act : List Nat) : List (Reg × Word) :=
  (positions act).map fun e => (.v (f.phys d) e.1, x e.1 e.2)

/-- Writes of predicate p, one per strand; writes of p0 are discarded (01 R12). -/
def toP (p : Nat) (x : Nat → Nat → Bool) (act : List Nat) : List (Reg × Word) :=
  if p = 0 then [] else (positions act).map fun e => (.p p e.1, b2w (x e.1 e.2))

/-- The bits that the strands set together. -/
def allFlags (fl : Nat → Nat → Word) (act : List Nat) : Word :=
  (positions act).foldl (fun m e => m ||| fl e.1 e.2) 0

/-! ## Invariants -/

/-- Physical memory is in its canonical form. -/
def State.memCanonical (s : State) : Prop := Memory.wf s.mem = true

/-- A byte of physical memory as every agent sees it at the point of coherence (08 R145). -/
def State.byteAt (s : State) (pa : Nat) : Byte := cohByte s.wgs s.mem pa

end Sys2Proof.Machine
end

