-- ==== Sys2Proof/Certificates/Slice0/Obligations.lean ====
section
/-! DEFINITION. The statements for the provers, and the tables of results that they are stated with, written from the
rules of the spec. -/

namespace Sys2Proof.Claims

open Sys2Proof Sys2Proof.Machine

/-- The word of n bits whose bit i is q i. -/
def bitsOf (n : Nat) (q : Nat → Bool) : BitVec n :=
  (List.range n).foldl (fun m i => if q i then m ||| (1#n <<< i) else m) 0

/-! ## Results of 03 Table 3-2, R53 to R58 as functions of a, b and d, with the FSTAT bits they set -/

/-- A result that sets no FSTAT bit. -/
def quiet (g : Word → Word → Word → Word) : Alu := fun a b d => (g a b d, 0)

/-- A saturating form: Clamp(x, lo, hi), with FSTAT.SAT (bit 14) when it has clamped. -/
def clamped (lo hi : Int) (x : Word → Word → Int) : Alu := fun a b _ =>
  (BitVec.ofInt 32 (max lo (min (x a b) hi)), if lo ≤ x a b ∧ x a b ≤ hi then 0 else 0x4000)

def clampedI (x : Word → Word → Int) : Alu := clamped (-2147483648) 2147483647 x

def clampedN (x : Word → Word → Int) : Alu := clamped 0 4294967295 x

/-- R54: pos and len. -/
def pos (b : Word) : Nat := b.toNat % 32

def len (b : Word) : Nat := min (b.toNat / 256 % 64) (32 - pos b)

/-- R54: the field of a that b describes. -/
def field (a b : Word) : Nat := a.toNat / 2 ^ pos b % 2 ^ len b

/-- R54: SignExt(field, len), 0 for len 0. -/
def signField (a b : Word) : Int :=
  if len b ≠ 0 ∧ 2 ^ (len b - 1) ≤ field a b then (field a b : Int) - 2 ^ len b else field a b

/-- R54: mask of `bfi`. -/
def mask (b : Word) : Word := BitVec.ofNat 32 ((2 ^ len b - 1) * 2 ^ pos b)

def rAdd : Alu := quiet fun a b _ => a + b
def rAddSatI32 : Alu := clampedI fun a b => a.toInt + b.toInt
def rAddSatN32 : Alu := clampedN fun a b => a.toNat + b.toNat
def rSub : Alu := quiet fun a b _ => a - b
def rSubSatI32 : Alu := clampedI fun a b => a.toInt - b.toInt
def rSubSatN32 : Alu := clampedN fun a b => (a.toNat : Int) - b.toNat
def rMul : Alu := quiet fun a b _ => a * b
def rMulhI32 : Alu := quiet fun a b _ => BitVec.ofInt 32 (a.toInt * b.toInt / 4294967296)
def rMulhN32 : Alu := quiet fun a b _ => BitVec.ofNat 32 (a.toNat * b.toNat / 4294967296)
def rMad : Alu := quiet fun a b d => a * b + d
def rMinI32 : Alu := quiet fun a b _ => if a.toInt ≤ b.toInt then a else b
def rMinN32 : Alu := quiet fun a b _ => if a.toNat ≤ b.toNat then a else b
def rMaxI32 : Alu := quiet fun a b _ => if b.toInt ≤ a.toInt then a else b
def rMaxN32 : Alu := quiet fun a b _ => if b.toNat ≤ a.toNat then a else b
def rAnd : Alu := quiet fun a b _ => a &&& b
def rOr : Alu := quiet fun a b _ => a ||| b
def rXor : Alu := quiet fun a b _ => a ^^^ b
def rAndn : Alu := quiet fun a b _ => a &&& ~~~b
def rShl : Alu := quiet fun a b _ => BitVec.ofNat 32 (if b.toNat < 32 then a.toNat * 2 ^ b.toNat else 0)
def rShr : Alu := quiet fun a b _ => BitVec.ofNat 32 (if b.toNat < 32 then a.toNat / 2 ^ b.toNat else 0)
def rSar : Alu := quiet fun a b _ =>
  if b.toNat < 32 then BitVec.ofInt 32 (a.toInt / 2 ^ b.toNat) else if a.toInt < 0 then 0xFFFFFFFF else 0
def rRol : Alu := quiet fun a b _ => a.rotateLeft (b.toNat % 32)
def rPopc : Alu := quiet fun a _ _ => BitVec.ofNat 32 ((List.range 32).countP fun k => a.getLsbD k)
def rClz : Alu := quiet fun a _ _ => if a = 0 then 32 else BitVec.ofNat 32 (31 - a.toNat.log2)
def rBrev : Alu := quiet fun a _ _ => bitsOf 32 fun k => a.getLsbD (31 - k)
def rFfs : Alu := quiet fun a _ _ => BitVec.ofNat 32 (((List.range 32).find? fun k => a.getLsbD k).getD 32)
def rBfxI32 : Alu := quiet fun a b _ => BitVec.ofInt 32 (signField a b)
def rBfxN32 : Alu := quiet fun a b _ => BitVec.ofNat 32 (field a b)
def rBfi : Alu := quiet fun a b d => (d &&& ~~~mask b) ||| (BitVec.ofNat 32 (a.toNat * 2 ^ pos b) &&& mask b)
def rAminI32 : Alu := quiet fun a b d => if (a + b).toInt < d.toInt then a + b else d
def rAminN32 : Alu := quiet fun a b d => if (a + b).toNat < d.toNat then a + b else d
def rAmaxI32 : Alu := quiet fun a b d => if d.toInt < (a + b).toInt then a + b else d
def rAmaxN32 : Alu := quiet fun a b d => if d.toNat < (a + b).toNat then a + b else d
/-- Table 3-3: division by 0 gives 0xFFFF_FFFF and its remainder a; -2^31 by -1 wraps to -2^31 with remainder 0. -/
def rDivI32 : Alu := quiet fun a b _ => if b = 0 then 0xFFFFFFFF else BitVec.ofInt 32 (a.toInt.tdiv b.toInt)
def rDivN32 : Alu := quiet fun a b _ => if b = 0 then 0xFFFFFFFF else BitVec.ofNat 32 (a.toNat / b.toNat)
def rRemI32 : Alu := quiet fun a b _ => if b = 0 then a else BitVec.ofInt 32 (a.toInt.tmod b.toInt)
def rRemN32 : Alu := quiet fun a b _ => if b = 0 then a else BitVec.ofNat 32 (a.toNat % b.toNat)

/-- The relation "a cond b" of R56, by the codes of 02 Table 2-4. -/
def cond (k : BitVec 3) (a b : Int) : Bool :=
  if k = 0 then decide (a = b) else if k = 1 then decide (a ≠ b) else if k = 2 then decide (a < b)
  else if k = 3 then decide (a ≤ b) else if k = 4 then decide (b < a) else decide (b ≤ a)

def relI (k : BitVec 3) (a b : Word) : Bool × Word := (cond k a.toInt b.toInt, 0)

def relN (k : BitVec 3) (a b : Word) : Bool × Word := (cond k a.toNat b.toNat, 0)

/-! ## Shapes of words -/

/-- An L word that writes vD, one value for each strand at its position. -/
def laneRow (sc g : BitVec 2) (reads : List Opnd) (d : BitVec 6) (val : Fibre → Nat → Nat → Word × Word) : RegWord :=
  { use := lUse sc g reads [.v d.toNat]
    writes := fun f act => toV d.toNat (fun i j => (val f i j).1) f act
    flags := fun f act => allFlags (fun i j => (val f i j).2) act }

/-- LR: a from vA, b from vB or sB, d from vD where the form is destructive. -/
def lR (o : SGUDAB) (destr : Bool) (op : Alu) : RegWord :=
  laneRow o.s o.g ([.v o.a.toNat] ++ opLB o.u o.b ++ if destr then [.v o.d.toNat] else []) o.d
    fun f i j => op (f.getV i j o.a.toNat) (f.lB o.u o.b i j) (f.getV i j o.d.toNat)

/-- LR with a alone. -/
def lA (o : SGDA) (op : Alu) : RegWord :=
  laneRow o.s o.g [.v o.a.toNat] o.d fun f i j => op (f.getV i j o.a.toNat) 0 0

/-- A lane comparison into predicate p. -/
def lC (o : SGUKPAB) (k : Cmp) : RegWord :=
  { use := lUse o.s o.g ([.v o.a.toNat] ++ opLB o.u o.b) [.p o.p.toNat]
    writes := fun f act => toP o.p.toNat (fun i j => (k o.k (f.getV i j o.a.toNat) (f.lB o.u o.b i j)).1) act
    flags := fun f act => allFlags (fun i j => (k o.k (f.getV i j o.a.toNat) (f.lB o.u o.b i j)).2) act }

/-- A U word that writes sD. -/
def uniRow (u : Use) (d : BitVec 6) (val : Fibre → Word × Word) : RegWord :=
  { use := u, writes := fun f _ => toS d.toNat (val f).1, flags := fun f _ => (val f).2 }

/-- UR: a from sA, b from sB or the immediate, d from sD where the form is destructive. -/
def uR (o : SGIDAB) (destr : Bool) (op : Alu) : RegWord :=
  uniRow (uUse o.s o.g ([.s o.a.toNat] ++ opB o.i o.b ++ if destr then [.s o.d.toNat] else []) [.s o.d.toNat]) o.d
    fun f => op (f.getS o.a.toNat) (f.uB o.i o.b) (f.getS o.d.toNat)

/-- UR whose b is always a register. -/
def uD (o : SGDAB) (destr : Bool) (op : Alu) : RegWord :=
  uniRow (uUse o.s o.g ([.s o.a.toNat, .s o.b.toNat] ++ if destr then [.s o.d.toNat] else []) [.s o.d.toNat]) o.d
    fun f => op (f.getS o.a.toNat) (f.getS o.b.toNat) (f.getS o.d.toNat)

/-- UR with a alone. -/
def uA (o : SGDA) (op : Alu) : RegWord :=
  uniRow (uUse o.s o.g [.s o.a.toNat] [.s o.d.toNat]) o.d fun f => op (f.getS o.a.toNat) 0 0

/-- UI; `destr` says that it reads sD. -/
def uI (o : SGDI) (destr : Bool) (val : Fibre → Word) : RegWord :=
  uniRow (uUse o.s o.g (if destr then [.s o.d.toNat] else []) [.s o.d.toNat]) o.d fun f => (val f, 0)

/-- A comparison into cN. -/
def uC (sc g : BitVec 2) (reads : List Opnd) (c : BitVec 3) (val : Fibre → Bool × Word) : RegWord :=
  { use := uUse sc g reads [.c c.toNat], writes := fun f _ => toC c.toNat (val f).1, flags := fun f _ => (val f).2 }

/-- A word that writes the pair sD. -/
def uW (u : Use) (d : BitVec 6) (val : Fibre → DWord) : RegWord :=
  { use := u, writes := fun f _ => toS64 d.toNat (val f), flags := fun _ _ => 0 }

/-! ## The tables -/

/-- The integer words of the lane set (05 R102 to R104). -/
def laneInt : Instr → Option RegWord
  | .lAdd o => some (lR o false rAdd)
  | .lAddSatI32 o => some (lR o false rAddSatI32)
  | .lAddSatN32 o => some (lR o false rAddSatN32)
  | .lSub o => some (lR o false rSub)
  | .lSubSatI32 o => some (lR o false rSubSatI32)
  | .lSubSatN32 o => some (lR o false rSubSatN32)
  | .lMul o => some (lR o false rMul)
  | .lMulhI32 o => some (lR o false rMulhI32)
  | .lMulhN32 o => some (lR o false rMulhN32)
  | .lMad o => some (lR o true rMad)
  | .lMinI32 o => some (lR o false rMinI32)
  | .lMinN32 o => some (lR o false rMinN32)
  | .lMaxI32 o => some (lR o false rMaxI32)
  | .lMaxN32 o => some (lR o false rMaxN32)
  | .lAnd o => some (lR o false rAnd)
  | .lOr o => some (lR o false rOr)
  | .lXor o => some (lR o false rXor)
  | .lAndn o => some (lR o false rAndn)
  | .lShl o => some (lR o false rShl)
  | .lShr o => some (lR o false rShr)
  | .lSar o => some (lR o false rSar)
  | .lRol o => some (lR o false rRol)
  | .lPopc o => some (lA o rPopc)
  | .lClz o => some (lA o rClz)
  | .lBrev o => some (lA o rBrev)
  | .lFfs o => some (lA o rFfs)
  | .lBfxI32 o => some (lR o false rBfxI32)
  | .lBfxN32 o => some (lR o false rBfxN32)
  | .lBfi o => some (lR o true rBfi)
  | .lAminI32 o => some (lR o true rAminI32)
  | .lAminN32 o => some (lR o true rAminN32)
  | .lAmaxI32 o => some (lR o true rAmaxI32)
  | .lAmaxN32 o => some (lR o true rAmaxN32)
  | .lSel o => some (laneRow o.s o.g ([.v o.a.toNat] ++ opLB o.u o.b ++ [.p (4 + o.f.toNat)]) o.d fun f i j =>
      (if f.getP i j (4 + o.f.toNat) then f.lB o.u o.b i j else f.getV i j o.a.toNat, 0))
  | .lCmpI32 o => some (lC o relI)
  | .lCmpN32 o => some (lC o relN)
  | .lMov o => some (laneRow o.s o.g (opLB o.u o.b) o.d fun f i j => (f.lB o.u o.b i j, 0))
  | .lSid o => some (laneRow o.s o.g [] o.d fun _ i _ => (BitVec.ofNat 32 i, 0))
  | .lLid o => some (laneRow o.s o.g [] o.d fun f _ _ => (BitVec.ofNat 32 f.lane, 0))
  | .lAddi o => some (laneRow o.s o.g [.v o.a.toNat] o.d fun f i j => (f.getV i j o.a.toNat + o.i.signExtend 32, 0))
  | .lMovi o => some (laneRow o.s o.g [] o.d fun _ _ _ => (o.i.signExtend 32, 0))
  | .lMuli o => some (laneRow o.s o.g [.v o.a.toNat] o.d fun f i j => (f.getV i j o.a.toNat * o.i.signExtend 32, 0))
  | .lPset o => some
      { use := lUse o.s o.g [.v o.a.toNat] [.p o.p.toNat]
        writes := fun f act => toP o.p.toNat (fun i j => f.getV i j o.a.toNat != 0) act
        flags := fun _ _ => 0 }
  | .lPget o => some (laneRow o.s o.g [.p o.m.toNat] o.d fun f i j => (if f.getP i j o.m.toNat then 1 else 0, 0))
  | _ => none

/-- The floating-point and conversion words of the lane set (05 R105 to R109): which operation of 11 each performs. -/
def laneFloat : Instr → Option RegWord
  | .lFadd o => some (lR ⟨o.s, o.g, o.u, o.d, o.a, o.b⟩ false fun a b _ => fadd (rmodeOf o.r) a b)
  | .lFsub o => some (lR ⟨o.s, o.g, o.u, o.d, o.a, o.b⟩ false fun a b _ => fsub (rmodeOf o.r) a b)
  | .lFmul o => some (lR ⟨o.s, o.g, o.u, o.d, o.a, o.b⟩ false fun a b _ => fmul (rmodeOf o.r) a b)
  | .lFfma o => some (lR ⟨o.s, o.g, o.u, o.d, o.a, o.b⟩ true fun a b d => ffma (rmodeOf o.r) a b d)
  | .lFmin o => some (lR o false fun a b _ => fminmax false false a b)
  | .lFmax o => some (lR o false fun a b _ => fminmax true false a b)
  | .lFminNan o => some (lR o false fun a b _ => fminmax false true a b)
  | .lFmaxNan o => some (lR o false fun a b _ => fminmax true true a b)
  | .lFcmp o => some (lC o fun k a b => fcmp k false a b)
  | .lFcmpUn o => some (lC o fun k a b => fcmp k true a b)
  | .lFrcp o => some (lA o fun a _ _ => frcp a)
  | .lFrsq o => some (lA o fun a _ _ => frsq a)
  | .lFex2 o => some (lA o fun a _ _ => fex2 a)
  | .lFlg2 o => some (lA o fun a _ _ => flg2 a)
  | .lCvtiI32F32 o => some (lA o fun a _ _ => cvtI32 a)
  | .lCvtiN32F32 o => some (lA o fun a _ _ => cvtN32 a)
  | .lCvtiF32I32 o => some (lA o fun a _ _ => cvtFromI32 a)
  | .lCvtiF32N32 o => some (lA o fun a _ _ => cvtFromN32 a)
  | .lCvtfBf16x2F32 o => some (lR o false fun a b _ => packHalves (narrow bf16 a) (narrow bf16 b))
  | .lCvtfF16x2F32 o => some (lR o false fun a b _ => packHalves (narrow fp16 a) (narrow fp16 b))
  | .lCvtfF32Bf16 o => some (lA ⟨o.s, o.g, o.d, o.a⟩ fun a _ _ => widen bf16 (half a o.h.toNat))
  | .lCvtfF32F16 o => some (lA ⟨o.s, o.g, o.d, o.a⟩ fun a _ _ => widen fp16 (half a o.h.toNat))
  | .lCvt8E4m3F32 o => some (laneRow o.s o.g [.v o.a.toNat, .v o.d.toNat] o.d fun f i j =>
      (setField (f.getV i j o.d.toNat) (8 * o.k.toNat) 8 (narrow e4m3 (f.getV i j o.a.toNat)).1,
        (narrow e4m3 (f.getV i j o.a.toNat)).2))
  | .lCvt8E5m2F32 o => some (laneRow o.s o.g [.v o.a.toNat, .v o.d.toNat] o.d fun f i j =>
      (setField (f.getV i j o.d.toNat) (8 * o.k.toNat) 8 (narrow e5m2 (f.getV i j o.a.toNat)).1,
        (narrow e5m2 (f.getV i j o.a.toNat)).2))
  | .lCvt8F32E4m3 o => some (lA ⟨o.s, o.g, o.d, o.a⟩ fun a _ _ => widen e4m3 (a.toNat / 2 ^ (8 * o.k.toNat) % 256))
  | .lCvt8F32E5m2 o => some (lA ⟨o.s, o.g, o.d, o.a⟩ fun a _ _ => widen e5m2 (a.toNat / 2 ^ (8 * o.k.toNat) % 256))
  | .lHadd2Bf16 o => some (lR o false fun a b _ => hadd2 bf16 a b)
  | .lHadd2F16 o => some (lR o false fun a b _ => hadd2 fp16 a b)
  | .lHmul2Bf16 o => some (lR o false fun a b _ => hmul2 bf16 a b)
  | .lHmul2F16 o => some (lR o false fun a b _ => hmul2 fp16 a b)
  | .lHfma2Bf16 o => some (lR o true fun a b d => hfma2 bf16 a b d)
  | .lHfma2F16 o => some (lR o true fun a b d => hfma2 fp16 a b d)
  | .lFabs o => some (lA o (quiet fun a _ _ => a &&& 0x7FFFFFFF))
  | .lFneg o => some (lA o (quiet fun a _ _ => a ^^^ 0x80000000))
  | .lFcopysign o => some (lR o false (quiet fun a b _ => (a &&& 0x7FFFFFFF) ||| (b &&& 0x80000000)))
  | _ => none

/-- The integer words of the uniform set (03 R52 to R58, R65). -/
def uniInt : Instr → Option RegWord
  | .uAdd o => some (uR o false rAdd)
  | .uAddSatI32 o => some (uR o false rAddSatI32)
  | .uAddSatN32 o => some (uR o false rAddSatN32)
  | .uSub o => some (uR o false rSub)
  | .uSubSatI32 o => some (uR o false rSubSatI32)
  | .uSubSatN32 o => some (uR o false rSubSatN32)
  | .uMul o => some (uR o false rMul)
  | .uMulhI32 o => some (uR o false rMulhI32)
  | .uMulhN32 o => some (uR o false rMulhN32)
  | .uMad o => some (uR o true rMad)
  | .uMinI32 o => some (uR o false rMinI32)
  | .uMinN32 o => some (uR o false rMinN32)
  | .uMaxI32 o => some (uR o false rMaxI32)
  | .uMaxN32 o => some (uR o false rMaxN32)
  | .uAnd o => some (uR o false rAnd)
  | .uOr o => some (uR o false rOr)
  | .uXor o => some (uR o false rXor)
  | .uAndn o => some (uR o false rAndn)
  | .uShl o => some (uR o false rShl)
  | .uShr o => some (uR o false rShr)
  | .uSar o => some (uR o false rSar)
  | .uRol o => some (uR o false rRol)
  | .uPopc o => some (uA o rPopc)
  | .uClz o => some (uA o rClz)
  | .uBrev o => some (uA o rBrev)
  | .uFfs o => some (uA o rFfs)
  | .uBfxI32 o => some (uD o false rBfxI32)
  | .uBfxN32 o => some (uD o false rBfxN32)
  | .uBfi o => some (uD o true rBfi)
  | .uAminI32 o => some (uR o true rAminI32)
  | .uAminN32 o => some (uR o true rAminN32)
  | .uAmaxI32 o => some (uR o true rAmaxI32)
  | .uAmaxN32 o => some (uR o true rAmaxN32)
  | .uSel o => some (uniRow (uUse o.s o.g ([.s o.a.toNat] ++ opB o.i o.b ++ [.c (4 + o.f.toNat)]) [.s o.d.toNat]) o.d fun f =>
      (if f.getC (4 + o.f.toNat) then f.uB o.i o.b else f.getS o.a.toNat, 0))
  | .uCmpI32 o => some (uC o.s o.g ([.s o.a.toNat] ++ opB o.i o.b) o.c fun f => relI o.k (f.getS o.a.toNat) (f.uB o.i o.b))
  | .uCmpN32 o => some (uC o.s o.g ([.s o.a.toNat] ++ opB o.i o.b) o.c fun f => relN o.k (f.getS o.a.toNat) (f.uB o.i o.b))
  | .uCmpi o => some (uC o.s o.g [.s o.a.toNat] o.c fun f => relI o.k (f.getS o.a.toNat) (o.i.signExtend 32))
  | .uDivI32 o => some (uR o false rDivI32)
  | .uDivN32 o => some (uR o false rDivN32)
  | .uRemI32 o => some (uR o false rRemI32)
  | .uRemN32 o => some (uR o false rRemN32)
  | .uAdd64 o => some (uW (uUse o.s o.g ([.s2 o.a.toNat] ++ opB64 o.i o.b) [.s2 o.d.toNat]) o.d fun f =>
      f.getS64 o.a.toNat + f.uB64 o.i o.b)
  | .uSub64 o => some (uW (uUse o.s o.g ([.s2 o.a.toNat] ++ opB64 o.i o.b) [.s2 o.d.toNat]) o.d fun f =>
      f.getS64 o.a.toNat - f.uB64 o.i o.b)
  | .uCmp64 o => some (uC o.s o.g ([.s2 o.a.toNat] ++ opB64 o.i o.b) o.c fun f =>
      (cond o.k (f.getS64 o.a.toNat).toNat (f.uB64 o.i o.b).toNat, 0))
  | .uAddi o => some (uI o true fun f => f.getS o.d.toNat + o.i.signExtend 32)
  | .uLi o => some (uI o false fun _ => o.i.signExtend 32)
  | .uLui o => some (uI o true fun f =>
      BitVec.ofNat 32 (o.i.toNat * 131072 + (f.getS o.d.toNat).toNat % 131072))
  | .uMuli o => some (uI o true fun f => f.getS o.d.toNat * o.i.signExtend 32)
  | .uLit o => some (uniRow { uUse o.s o.g [] [.s o.d.toNat] with len := 8 } o.d fun _ => (o.v, 0))
  | .uAddi64 o => some (uW (uUse o.s o.g [.s2 o.d.toNat] [.s2 o.d.toNat]) o.d fun f =>
      f.getS64 o.d.toNat + o.i.signExtend 64)
  | _ => none

/-- The floating-point words of the uniform set (03 R60 to R64): which operation of 11 each performs. -/
def uniFloat : Instr → Option RegWord
  | .uFadd o => some (uD ⟨o.s, o.g, o.d, o.a, o.b⟩ false fun a b _ => fadd (rmodeOf o.r) a b)
  | .uFsub o => some (uD ⟨o.s, o.g, o.d, o.a, o.b⟩ false fun a b _ => fsub (rmodeOf o.r) a b)
  | .uFmul o => some (uD ⟨o.s, o.g, o.d, o.a, o.b⟩ false fun a b _ => fmul (rmodeOf o.r) a b)
  | .uFfma o => some (uD ⟨o.s, o.g, o.d, o.a, o.b⟩ true fun a b d => ffma (rmodeOf o.r) a b d)
  | .uFmin o => some (uD o false fun a b _ => fminmax false false a b)
  | .uFmax o => some (uD o false fun a b _ => fminmax true false a b)
  | .uFminNan o => some (uD o false fun a b _ => fminmax false true a b)
  | .uFmaxNan o => some (uD o false fun a b _ => fminmax true true a b)
  | .uFcmp o => some (uC o.s o.g [.s o.a.toNat, .s o.b.toNat] o.c fun f =>
      fcmp o.k false (f.getS o.a.toNat) (f.getS o.b.toNat))
  | .uFcmpUn o => some (uC o.s o.g [.s o.a.toNat, .s o.b.toNat] o.c fun f =>
      fcmp o.k true (f.getS o.a.toNat) (f.getS o.b.toNat))
  | .uFrcp o => some (uA o fun a _ _ => frcp a)
  | .uFrsq o => some (uA o fun a _ _ => frsq a)
  | .uFex2 o => some (uA o fun a _ _ => fex2 a)
  | .uFlg2 o => some (uA o fun a _ _ => flg2 a)
  | .uCvtiI32F32 o => some (uA o fun a _ _ => cvtI32 a)
  | .uCvtiN32F32 o => some (uA o fun a _ _ => cvtN32 a)
  | .uCvtiF32I32 o => some (uA o fun a _ _ => cvtFromI32 a)
  | .uCvtiF32N32 o => some (uA o fun a _ _ => cvtFromN32 a)
  | _ => none

/-! ## Exchange words (05 R110 to R115): every value they read is waited for -/

/-- An exchange of values: each strand gets vA of its source strand, all sources read first. -/
def xRow (sc g : BitVec 2) (reads : List Opnd) (d a : BitVec 6) (src : Fibre → Nat → Nat) : RegWord :=
  { use := xUse sc g (reads ++ [.v a.toNat]) [.v d.toNat]
    writes := fun f act => act.map fun i => (.v (f.phys d.toNat) i, f.xchV (src f i) a.toNat)
    flags := fun _ _ => 0 }

/-- One step of a running combination: the value so far and the FSTAT bits so far, with the next strand's value. -/
def combine (op : Word → Word → Word × Word) (r : Word × Word) (x : Word) : Word × Word :=
  ((op r.1 x).1, r.2 ||| (op r.1 x).2)

/-- R112: from sB or the identity, the values of the strands of a list combined in ascending order. -/
def combined (o : SGUDAB) (op : Word → Word → Word × Word) (ident : Word) (f : Fibre) (l : List Nat) : Word × Word :=
  (l.map fun i => f.xchV i o.a.toNat).foldl (combine op) (if o.u = 1 then f.laneS o.b.toNat else ident, 0)

/-- The operands of `scan` and `red`: vA, and sB when there is a start value. -/
def seedReads (o : SGUDAB) : List Opnd := [.v o.a.toNat] ++ if o.u = 1 then [.s o.b.toNat] else []

/-- `scan`: each strand gets the combination of the values up to its own. -/
def scanRow (o : SGUDAB) (op : Word → Word → Word × Word) (ident : Word) : RegWord :=
  { use := xUse o.s o.g (seedReads o) [.v o.d.toNat]
    writes := fun f act => (positions act).map fun e =>
      (.v (f.phys o.d.toNat) e.1, (combined o op ident f (act.take (e.2 + 1))).1)
    flags := fun f act => (combined o op ident f act).2 }

/-- `red`: sD gets the combination of all. -/
def redRow (o : SGUDAB) (op : Word → Word → Word × Word) (ident : Word) : RegWord :=
  { use := { xUse o.s o.g (seedReads o) [.s o.d.toNat] with always := true }
    writes := fun f act => toS o.d.toNat (combined o op ident f act).1
    flags := fun f act => (combined o op ident f act).2 }

/-- R114: the better of two values by an order. -/
def better (lt : Word → Word → Bool) (b x : Word) : Word := if lt x b then x else b

/-- `redix`: the pair sD gets the extreme value and the lowest strand that holds it. -/
def redixRow (o : SGDA) (lt : Word → Word → Bool) (ident : Word) : RegWord :=
  { use := { xUse o.s o.g [.v o.a.toNat] [.s2 o.d.toNat] with always := true }
    writes := fun f act =>
      let best := (act.map fun i => f.xchV i o.a.toNat).foldl (better lt) ident
      toS64 o.d.toNat (pair best (BitVec.ofNat 32 ((act.find? fun i => f.xchV i o.a.toNat == best).getD 0xFFFFFFFF)))
    flags := fun _ _ => 0 }

/-- A vote over predicate pM into cN. -/
def voteRow (o : SGCM) (q : List Bool → Bool) : RegWord :=
  { use := { xUse o.s o.g [.p o.m.toNat] [.c o.c.toNat] with always := true }
    writes := fun f act => toC o.c.toNat (q (act.map fun i => f.xchP i o.m.toNat))
    flags := fun _ _ => 0 }

def sum32 (r x : Word) : Word × Word := (r + x, 0)
def minOf (r x : Word) : Word × Word := (if r.toInt ≤ x.toInt then r else x, 0)
def maxOf (r x : Word) : Word × Word := (if x.toInt ≤ r.toInt then r else x, 0)
def andOf (r x : Word) : Word × Word := (r &&& x, 0)
def orOf (r x : Word) : Word × Word := (r ||| x, 0)

/-- The exchange words (05 R110 to R115). -/
def laneExchange : Instr → Option RegWord
  | .lXch o => some (xRow o.s o.g (opLB o.u o.b) o.d o.a fun f i => (f.xB o.u o.b i).toNat % 16)
  | .lXchImm o => some (xRow o.s o.g [] o.d o.a fun _ _ => o.j.toNat)
  | .lXchXor o => some (xRow o.s o.g [] o.d o.a fun _ i => i ^^^ o.j.toNat)
  | .lShup o => some (xRow o.s o.g [] o.d o.a fun _ i => if o.n.toNat ≤ i then i - o.n.toNat else i)
  | .lShdn o => some (xRow o.s o.g [] o.d o.a fun _ i => if i + o.n.toNat ≤ 15 then i + o.n.toNat else i)
  | .lShupWrap o => some (xRow o.s o.g [] o.d o.a fun _ i => (i + 16 - o.n.toNat) % 16)
  | .lShdnWrap o => some (xRow o.s o.g [] o.d o.a fun _ i => (i + o.n.toNat) % 16)
  | .lScanAddI32 o => some (scanRow o sum32 0)
  | .lScanAddF32 o => some (scanRow o (fadd .rne) 0x80000000)
  | .lScanMinI32 o => some (scanRow o minOf 0x7FFFFFFF)
  | .lScanMaxI32 o => some (scanRow o maxOf 0x80000000)
  | .lRedAddI32 o => some (redRow o sum32 0)
  | .lRedAddF32 o => some (redRow o (fadd .rne) 0x80000000)
  | .lRedAnd o => some (redRow o andOf 0xFFFFFFFF)
  | .lRedOr o => some (redRow o orOf 0)
  | .lRedixMinI32 o => some (redixRow o (fun x b => decide (x.toInt < b.toInt)) 0x7FFFFFFF)
  | .lRedixMinN32 o => some (redixRow o (fun x b => decide (x.toNat < b.toNat)) 0xFFFFFFFF)
  | .lRedixMaxI32 o => some (redixRow o (fun x b => decide (b.toInt < x.toInt)) 0x80000000)
  | .lRedixMaxN32 o => some (redixRow o (fun x b => decide (b.toNat < x.toNat)) 0)
  | .lPick o => some
      { use := { xUse o.s o.g [.v o.a.toNat] [.s o.d.toNat] with always := true }
        writes := fun f act => toS o.d.toNat (match act with
          | [] => 0
          | i :: _ => f.xchV i o.a.toNat)
        flags := fun _ _ => 0 }
  | .lVoteAny o => some (voteRow o fun l => l.contains true)
  | .lVoteAll o => some (voteRow o fun l => !l.contains false)
  | .lBallot o => some
      { use := { xUse o.s o.g [.p o.m.toNat] [.s o.d.toNat] with always := true }
        writes := fun f act => toS o.d.toNat (bitsOf 32 fun i => act.contains i && f.xchP i o.m.toNat)
        flags := fun _ _ => 0 }
  | _ => none

/-! ## Words that end otherwise than by writing registers -/

/-- A word with an effect of its own: its usage, its checks on the fibre at decode, and how the word ends for the
strands that execute it. -/
structure WordRule where
  use : Use
  pre : Fibre → Option Trap := noPre
  /-- the workgroups and fibres for which this is the rule -/
  fires : Workgroup → Fibre → Bool := fun _ _ => true
  res : State → Workgroup → List Nat → Fibre → Res

/-- Every word of the table that has its effect ends as the table says. -/
def WordsEnd (table : Instr → Option WordRule) : Prop :=
  ∀ (i : Instr) (r : WordRule) (s : State) (w : Workgroup) (f : Fibre) (act : List Nat) (g : Fibre) (s1 : State),
    table i = some r → i.wf = true → Issues r.use r.pre s w f act g s1 → r.fires w f = true →
      Ends i s w r.use act f (r.res s1 w act g)

/-- A word that acts on an object or a block in memory: its usage, and how it ends where its checks pass and its object
can be reached. -/
structure ObjectRule where
  use : Use
  res : State → Workgroup → Fibre → Option Res

/-- Every word of the table that has its effect ends as the table says where it says so. -/
def ObjectWordsEnd (table : Instr → Option ObjectRule) : Prop :=
  ∀ (i : Instr) (r : ObjectRule) (s : State) (w : Workgroup) (f : Fibre) (act : List Nat) (g : Fibre) (s1 : State) (e : Res),
    table i = some r → i.wf = true → Issues r.use noPre s w f act g s1 → r.res s1 w g = some e → Ends i s w r.use act f e

/-- A fault at strand 0, with its subcode and faulting address. -/
def fault (c : Code) (sub : Nat) (addr : DWord) (f : Fibre) (s : State) : Res :=
  .trap f s { code := c, sub := sub, addr := addr, replay := false } 0

/-- R13: a transfer to t by a word that leaves g. A target with bits [1:0] faults MISALIGN, one with bits [63:56]
PROTECTION, both at the word and with everything unchanged. -/
def goTo (f g : Fibre) (s : State) (t : DWord) : Res :=
  if t.toNat % 4 ≠ 0 then fault .misalign 0 t f s
  else if 0x100000000000000 ≤ t.toNat then fault .protection 0 t f s
  else .jump g s t

/-- PC + 4 × SignExt(offset, 64). -/
def relative {n : Nat} (pc : DWord) (offset : BitVec n) : DWord := pc + 4 * offset.signExtend 64

/-- The write of s63 by `call` and `callr`: (PC + 4) mod 2^32, as a uniform result. -/
def linked (f : Fibre) : Fibre := f.setS 2 63 (loWord (f.pc + 4))

/-- The value that `rotset` and `rotbase` take. -/
def rotValue (o : SGIB) (f : Fibre) : Nat := if o.i = 1 then o.b.toNat else (f.getS o.b.toNat).toNat

/-- `rotset`: 0, 8, 16 or 32, and at most WIN.W. -/
def rotSizeOk (f : Fibre) (v : Nat) : Bool := [0, 8, 16, 32].contains v && decide (v ≤ f.win)

/-- `rotbase`: less than ROTS, or 0 when ROTS = 0. -/
def rotBaseOk (f : Fibre) (v : Nat) : Bool := decide (v < f.rots) || decide (f.rots = 0 ∧ v = 0)

/-- A check of an immediate at decode: a bad one faults RESERVED_FIELD. -/
def immediateCheck (o : SGIB) (ok : Fibre → Bool) (f : Fibre) : Option Trap :=
  if o.i = 1 ∧ ok f = false then some { code := .reservedField, sub := 0, addr := 0, replay := false } else none

/-- The subcode of `trap` and `brk`: imm6, or ReadS(B)[7:0]. -/
def softSub (o : SGIB) (f : Fibre) : Nat := if o.i = 1 then o.b.toNat else (f.getS o.b.toNat).toNat % 256

/-- A breakpoint is taken: FCTL.BRKEN is set and FSTAT.TM is not. -/
def breaks (f : Fibre) : Bool := f.fctl.getLsbD 2 && !f.fstat.getLsbD 5

/-- Control flow, rotation, traps and breakpoints (03 R67 to R70, R72). -/
def control : Instr → Option WordRule
  | .br o => some { use := uUse o.s o.g [] [], res := fun s _ _ f => goTo f f s (relative f.pc o.o) }
  | .call o => some { use := uUse o.s o.g [] [.s 63], res := fun s _ _ f => goTo f (linked f) s (relative f.pc o.o) }
  | .jr o => some { use := uUse o.s o.g [.s2 o.a.toNat] [], res := fun s _ _ f => goTo f f s (f.getS64 o.a.toNat) }
  | .callr o => some { use := uUse o.s o.g [.s2 o.a.toNat] [.s 63], res := fun s _ _ f => goTo f (linked f) s (f.getS64 o.a.toNat) }
  | .ret o => some
      { use := uUse o.s o.g [.s 63] []
        res := fun s _ _ f => goTo f f s ((f.pc &&& 0xFFFFFFFF00000000) + (f.getS 63).zeroExtend 64) }
  | .loopW o => some
      { use := uUse o.s o.g [.s o.d.toNat] [.s o.d.toNat]
        res := fun s _ _ f =>
          let n := f.getS o.d.toNat - 1
          let g := f.setS 2 o.d.toNat n
          if n = 0 then .done g s
          else goTo f (if f.rots = 0 then g else { g with rotb := (f.rotb + f.rots - 1) % f.rots }) s (relative f.pc o.o) }
  | .rotset o => some
      { use := uUse o.s o.g (opB o.i o.b) [], pre := immediateCheck o fun f => rotSizeOk f o.b.toNat
        res := fun s _ _ f =>
          if rotSizeOk f (rotValue o f) then .done { f with rots := rotValue o f, rotb := 0 } s
          else fault .reservedField 1 0 f s }
  | .rotbase o => some
      { use := uUse o.s o.g (opB o.i o.b) [], pre := immediateCheck o fun f => rotBaseOk f o.b.toNat
        res := fun s _ _ f =>
          if rotBaseOk f (rotValue o f) then .done { f with rotb := rotValue o f } s else fault .reservedField 1 0 f s }
  | .trap o => some { use := uUse o.s o.g (opB o.i o.b) [], res := fun s _ _ f => fault .trapSw (softSub o f) 0 f s }
  | .brk o => some
      { use := uUse o.s o.g (opB o.i o.b) [], fires := fun _ => breaks, res := fun s _ _ f => fault .brk (softSub o f) 0 f s }
  | .nop o => some { use := uUse o.s o.g [] [], res := fun s _ _ f => .done f s }
  | .slackImm o => some { use := uUse o.s o.g [] [], res := fun s _ _ f => .done { f with slack := o.i } s }
  | .slackReg o => some
      { use := uUse o.s o.g [.s o.d.toNat] []
        res := fun s _ _ f => .done { f with slack := (f.getS o.d.toNat).extractLsb' 0 12 } s }
  | _ => none

/-- R72, 05 R122: a `brk` that is not taken, and a `yield` in deterministic mode, retire as a `nop`, which reads nothing. -/
def retiresAsNop : Instr → Option WordRule
  | .brk o => some { use := uUse o.s o.g [] [], fires := fun _ f => !breaks f, res := fun s _ _ f => .done f s }
  | .yield o => some { use := uUse o.s o.g [] [], fires := fun w _ => w.hdr.det, res := fun s _ _ f => .done f s }
  | _ => none

/-! ## System registers and counters (01 R14, R15; 03 R73, R75) -/

/-- Whether the workgroup must wait for its launch's commit token before it reads the clock (18 R332). -/
def needsToken (s : State) (w : Workgroup) : Bool :=
  w.hdr.det && match s.launch w.launch with
    | some l => l.token.holder != some w.wgid
    | none => true

/-- CYC: cycles since the core's last reset (R14); in deterministic mode the published count and the instructions of
the fibre since the token was received (18 R335). -/
def clock (s : State) (w : Workgroup) (f : Fibre) : Nat :=
  if w.hdr.det then
    (match s.launch w.launch with
     | some l => l.token.p
     | none => 0) + (f.retc.toNat - w.atReceipt.getD f.fid 0)
  else s.cycles - (s.core w.core).resetAt

/-- What `sysr` delivers (Table 1-2). -/
def sysValue (s : State) (w : Workgroup) (f : Fibre) (n : Nat) : Nat :=
  if n = 0x000 then f.fstat.toNat
  else if n = 0x001 then f.fctl.toNat
  else if n = 0x002 then f.base * 65536 + f.win
  else if n = 0x003 then f.rots
  else if n = 0x004 then f.rotb
  else if n = 0x005 then f.divd
  else if n = 0x006 then f.slack.toNat
  else if n = 0x007 then f.latec.toNat
  else if n = 0x008 then clock s w f
  else if n = 0x009 then f.retc.toNat
  else if n = 0x00A then w.wgid
  else if n = 0x00B then f.fid
  else if n = 0x00C then (w.hdr.hitch - 1) * 256 + w.member
  else if n = 0x018 then f.trappc.toNat
  else if n = 0x019 then f.tcause.toNat
  else if n = 0x01A then f.taddr.toNat
  else (vget w.wp (n - 0x010) 0).toNat

/-- The registers of 64 bits: CYC, RETC, TRAPPC, TADDR. -/
def wideReg (n : Nat) : Bool := [0x008, 0x009, 0x018, 0x01A].contains n

/-- A value delivered to sD, or to the pair sD. -/
def delivered (f : Fibre) (wide : Bool) (d x : Nat) : Fibre :=
  if wide then f.putS64 d (BitVec.ofNat 64 x) else f.putS d (BitVec.ofNat 32 x)

/-- A word that reads the clock waits for the commit token where 18 R332 says so. -/
def clocked (isClock : Bool) (s : State) (w : Workgroup) (f : Fibre) (r : Res) : Res :=
  if isClock && needsToken s w then .wait f s .token else r

/-- The counters of Table 3-5. -/
def counter (s : State) (w : Workgroup) (f : Fibre) (n : Nat) : Nat :=
  if n = 0 then clock s w f else if n = 1 then f.retc.toNat else if n = 2 then f.ldo else if n = 3 then f.sto else f.engo

/-- What `sysw` does to the fibre: the bits writable in the current mode are written, all others kept; none when no
field is writable. FSTAT: LATE to bit 9, and RIX in trap mode; FCTL: bits 3 to 0; TCAUSE: the defined fields. -/
def sysWritten (f : Fibre) (n : Nat) (x : DWord) : Option Fibre :=
  let lo : Word := x.extractLsb' 0 32
  let tm := f.fstat.getLsbD 5
  let m : Word := if tm then 0xFE0F else 0xFE00
  if n = 0x000 then some { f with fstat := (f.fstat &&& ~~~m) ||| (lo &&& m) }
  else if n = 0x001 then some { f with fctl := (f.fctl &&& ~~~0xF) ||| (lo &&& 0xF) }
  else if n = 0x006 then some { f with slack := x.extractLsb' 0 12 }
  else if n = 0x007 then some { f with latec := lo }
  else if n = 0x018 ∧ tm = true then some { f with trappc := x }
  else if n = 0x019 ∧ tm = true then some { f with tcause := lo &&& 0x00F8FFFF }
  else if n = 0x01A ∧ tm = true then some { f with taddr := x }
  else none

/-- A firmware register, 0x100 and up, faults PRIVILEGE at decode. -/
def notFirmware (n : Nat) (_ : Fibre) : Option Trap :=
  if 0x100 ≤ n then some { code := .privilege, sub := 0, addr := 0, replay := false } else none

/-- The usage of `sysw`. -/
def syswUse (o : SGRD) : Use := uUse o.s o.g (if wideReg o.r.toNat then [.s2 o.d.toNat] else [.s o.d.toNat]) []

/-- `sysw` faults PRIVILEGE at decode for a firmware register, and under a guard that holds for a register without a
field that is writable in the current mode. -/
def syswCheck (o : SGRD) (f : Fibre) : Option Trap :=
  if 0x100 ≤ o.r.toNat ∨ (runners (syswUse o) f ≠ [] ∧ sysWritten f o.r.toNat 0 = none) then
    some { code := .privilege, sub := 0, addr := 0, replay := false }
  else none

/-- `sysr`, `sysw` and `rdcnt`. -/
def systemRegs : Instr → Option WordRule
  | .sysr o => some
      { use := uUse o.s o.g [] (if wideReg o.r.toNat then [.s2 o.d.toNat] else [.s o.d.toNat]), pre := notFirmware o.r.toNat
        res := fun s w _ f => clocked (o.r.toNat == 8) s w f
          (.done (delivered f (wideReg o.r.toNat) o.d.toNat (sysValue s w f o.r.toNat)) s) }
  | .sysw o => some
      { use := syswUse o, pre := syswCheck o
        res := fun s _ _ f => .done ((sysWritten f o.r.toNat
          (if wideReg o.r.toNat then f.getS64 o.d.toNat else (f.getS o.d.toNat).zeroExtend 64)).getD f) s }
  | .rdcnt o => some
      { use := uUse o.s o.g [] (if o.r.toNat ≤ 1 then [.s2 o.d.toNat] else [.s o.d.toNat])
        res := fun s w _ f => clocked (o.r.toNat == 0) s w f
          (.done (delivered f (decide (o.r.toNat ≤ 1)) o.d.toNat (counter s w f o.r.toNat)) s) }
  | _ => none

/-! ## Divergence (04 R85, R86; 05 R116 to R120) -/

/-- One pass whatever the mask. -/
def onePass (sc g : BitVec 2) : Use := { lUse sc g [] [] with fixedPass := true }

/-- A push of an entry: DIVSTACK_FULL when DIVD = D. -/
def pushed (f : Fibre) (s : State) (kind : Bool) (mask : BitVec 16) (target : DWord) (go : Fibre → Res) : Res :=
  if f.depth ≤ f.divd then fault .divstackFull 0 0 f s
  else go { f.putStack f.divd { kind := kind, mask := mask, pclo := loWord target } with divd := f.divd + 1 }

/-- The strands of the active mask whose branch predicate is 1; p0 is 1 in every strand. -/
def branching (g : BitVec 2) (f : Fibre) : BitVec 16 :=
  bitsOf 16 fun i => f.active.getLsbD i && (g == 0 || f.readAt f.nom (.p g.toNat i) != 0)

/-- The loop of Unwind over the entries below DIVD, from the top down: the entry at which a strand is left, with its
mask less ExitMask. -/
def unwound (f : Fibre) : Nat → Option (Nat × BitVec 16)
  | 0 => none
  | k + 1 => let m := (f.stackAt k).mask &&& ~~~f.exitMask
    if m = 0 then unwound f k else some (k, m)

/-- What follows a new active mask: when it is empty, Unwind, and the end of the fibre when Unwind leaves no strand. -/
def unlessEmpty (f : Fibre) (s : State) (r : Res) : Res :=
  if f.active ≠ 0 then r
  else match unwound f f.divd with
    | some (k, m) => .jump { f with divd := k, active := m } s ((f.stackAt k).target f.pc)
    | none => .ends f s

/-- The words of the divergence stack. -/
def divergence : Instr → Option WordRule
  | .lDmark o => some
      { use := onePass o.s 0
        res := fun s _ _ f => match goTo f f s (relative f.pc o.o) with
          | .jump _ _ t => pushed f s true f.active t fun g => .done g s
          | r => r }
  | .lDbr o => some
      { use := onePass o.s o.g
        res := fun s _ _ f => match goTo f f s (relative f.pc o.o) with
          | .jump _ _ t =>
            let tk := branching o.g f
            if tk = 0 then .done f s
            else if f.active &&& ~~~tk = 0 then .jump f s t
            else pushed f s false tk t fun g => .done { g with active := f.active &&& ~~~tk } s
          | r => r }
  | .lJoin o => some
      { use := onePass o.s 0
        res := fun s _ _ f =>
          if f.divd = 0 then fault .divstackFull 1 0 f s
          else
            let e := f.stackAt (f.divd - 1)
            if e.kind = true then
              let g := { f with divd := f.divd - 1, active := e.mask &&& ~~~f.exitMask }
              unlessEmpty g s (.jump g s (e.target f.pc))
            else if 2 ≤ f.divd ∧ (f.stackAt (f.divd - 2)).kind = true then
              let g := { f with divd := f.divd - 1, active := e.mask }
              unlessEmpty g s (.jump g s (e.target f.pc))
            else
              let g := { f.putStack (f.divd - 1) { kind := true, mask := e.mask ||| f.active, pclo := loWord (f.pc + 4) } with active := e.mask }
              unlessEmpty g s (.jump g s (e.target f.pc)) }
  | .lExit o => some
      { use := lUse o.s o.g [] []
        res := fun s _ act f =>
          let m := bitsOf 16 fun i => act.contains i
          let g := { f with active := f.active &&& ~~~m, exitMask := f.exitMask ||| m }
          unlessEmpty g s (.done g s) }
  | _ => none

/-! ## Fibres and windows (04 R87 to R90; 05 R121 to R123) -/

/-- The size that `vgrow` and `vshrink` ask for. -/
def sizeAsked (o : SGIB) (f : Fibre) : Nat := if o.i = 1 then 8 * o.b.toNat else (f.getS o.b.toNat).toNat

/-- A window: 8 to 64 registers in steps of 8. -/
def windowSize (n : Nat) : Bool := [8, 16, 24, 32, 40, 48, 56, 64].contains n

/-- `fork`, the forms of `fctl`. -/
def fibreControl : Instr → Option WordRule
  | .fork o => some
      { use := (uUse o.s o.g ([.s2 o.a.toNat] ++ opB o.i o.b) [.s o.d.toNat]).syncing
        res := fun s w _ f =>
          match f.rowsReq with
          | some (.placed k) => .done ({ f with rowsReq := none }.putS o.d.toNat (BitVec.ofNat 32 k)) s
          | _ =>
          match goTo f f s (f.getS64 o.a.toNat) with
          | .jump _ _ t =>
            if 32 ≤ w.fibres.length then .done (f.putS o.d.toNat 0xFFFFFFFF) s
            else match s.tryFork s.cur.wk w f t (f.uB o.i o.b) with
              | some (k, s) => .done (f.putS o.d.toNat (BitVec.ofNat 32 k)) s
              | none => .wait { f with rowsReq := some (.fork t (f.uB o.i o.b)) } s .rows
          | r => r }
  | .fctlEnd o => some { use := uUse o.s o.g [] [], res := fun s _ _ f => .ends f s }
  | .yield o => some
      { use := uUse o.s o.g (opB o.i o.b) [], fires := fun w _ => !w.hdr.det
        res := fun s _ _ f =>
          .done { f with yieldUntil := s.cycles + (if o.i = 1 then o.b.toNat else (f.getS o.b.toNat).toNat % 65536) } s }
  | .vgrow o => some
      { use := uUse o.s o.g (opB o.i o.b) [], pre := immediateCheck o fun _ => windowSize (8 * o.b.toNat)
        res := fun s w _ f =>
          let n := sizeAsked o f
          if windowSize n = false then fault .reservedField 3 0 f s
          else if n ≤ f.win then .done f s
          else if 24576 - s.scratchRows w.core < n + (f.depth + 7) / 8 then fault .window 2 0 f s
          else match s.tryGrow w f n with
            | some g => .done g ((s.putFibre s.cur.wk g).l1Trim w.core)
            | none => .wait { f with rowsReq := some (.grow n) } s .rows }
  | .vshrink o => some
      { use := uUse o.s o.g (opB o.i o.b) []
        pre := immediateCheck o fun f => windowSize (8 * o.b.toNat) && decide (f.rots ≤ 8 * o.b.toNat)
        res := fun s _ _ f =>
          let n := sizeAsked o f
          if windowSize n = false ∨ n < f.rots then fault .reservedField 3 0 f s
          else if f.win ≤ n then .done f s else .done (f.resize n) s }
  | _ => none

/-! ## Memory words (03 R71; 09 R164 to R175) -/

/-- A memory word: its usage, the address and the access of strand i at position j, what its bytes deliver, and the
counters it stands in. -/
structure MemRule where
  use : Use
  addr : Fibre → Nat → Nat → DWord
  req : Fibre → Nat → Nat → Acc
  deliver : Fibre → Nat → List Byte → Fibre
  ld : Bool
  st : Bool

/-- The instruction is counted once, with the slack it carries, its PC and its addresses, until its accesses have been
performed; a word that goes on after a wait or a fault stays the one it is, and `whole` says that it retires. -/
def countedOnce (r : MemRule) (whole : Bool) (m : MemLoop) : Fibre := m.f.count m.s r.ld r.st m.accs m.tags whole

/-- The strands of a lane word make their accesses in ascending order; when all succeed the word completes, and a
fault or a wait of one of them ends it there, the earlier ones having completed. A load through the alias window reads the
lane registers as they stood before the word, also when the word goes on after a wait (04 R79). -/
def LaneMemoryEnds (table : Instr → Option MemRule) : Prop :=
  ∀ (i : Instr) (r : MemRule) (s : State) (w : Workgroup) (f : Fibre) (act : List Nat) (g : Fibre) (s1 : State) (m : MemLoop),
    table i = some r → i.wf = true → Issues r.use noPre s w f act g s1 →
      let addrs := (positions act).map fun e => r.addr g e.1 e.2
      let plainLoad := r.ld && !r.st && !(r.req g 0 0).ordered
      let loop := memLoop s.cur.wk w g.beforeLanes (r.addr g) (r.req g) r.deliver act 0 ⟨g, s1, [], []⟩
      if tokenWait s1 w plainLoad addrs then Ends i s w r.use act f (.wait g s1 .token)
      else
        (loop = (m, none) → Finishes i s w r.use act f (countedOnce r true m) m.s) ∧
        (∀ t k, loop = (m, some (.trap t k)) → Ends i s w r.use act f (.trap (countedOnce r false m) m.s t k)) ∧
        (loop = (m, some .wait) →
          Ends i s w r.use act f (.wait { countedOnce r false m with lanes := some g.beforeLanes.lanesNow } m.s .held))

/-- BASE + zero-extended vA. -/
def laneAddress (b a : BitVec 6) (f : Fibre) (i j : Nat) : DWord := f.laneS64 b.toNat + (f.getV i j a.toNat).zeroExtend 64

/-- Bytes of a size: b, bs, h, hs, w, d, q. -/
def sizeBytes (z : BitVec 3) : Nat := if z ≤ 1 then 1 else if z ≤ 3 then 2 else if z = 4 then 4 else if z = 5 then 8 else 16

/-- Registers of a size. -/
def sizeRegs (z : BitVec 3) : Nat := if z = 5 then 2 else if z = 6 then 4 else 1

/-- Table 9-2: the word that loaded bytes make. -/
def extended (z : BitVec 3) (b : List Byte) : Word :=
  if z = 1 then (BitVec.ofNat 8 (leNat b)).signExtend 32
  else if z = 3 then (BitVec.ofNat 16 (leNat b)).signExtend 32
  else BitVec.ofNat 32 (leNat b)

/-- The bytes of a load into vD, vD + 1, ... -/
def intoV (z : BitVec 3) (d : BitVec 6) (f : Fibre) (i : Nat) (b : List Byte) : Fibre :=
  if z = 5 ∨ z = 6 then (List.range (sizeRegs z)).foldl (fun f k => f.putV i (d.toNat + k) (wordAt b (4 * k))) f
  else f.putV i d.toNat (extended z b)

/-- The low bytes of vD, vD + 1, ..., low register first. -/
def fromV (z : BitVec 3) (d : BitVec 6) (f : Fibre) (i j : Nat) : List Byte :=
  ((List.range (sizeRegs z)).flatMap fun k => leBytes 4 (f.getV i j (d.toNat + k)).toNat).take (sizeBytes z)

/-- `ld`, `ld.nc`: a plain load, whose value may be fixed later (08 R149, R154). -/
def loadRule (o : SGZDAB) (nc : Bool) : MemRule :=
  { use := lUse o.s o.g [.v o.a.toNat, .s2 o.b.toNat] (vGroup o.d (sizeRegs o.z)), addr := laneAddress o.b o.a
    req := fun _ _ _ => Acc.plain (sizeBytes o.z) nc
    deliver := fun f i b => (intoV o.z o.d f i b).awaitLoad o.z
      ((List.range (sizeRegs o.z)).map fun k => .v (f.phys (o.d.toNat + k)) i)
    ld := true, st := false }

/-- `st`, `st.nc`. -/
def storeRule (o : SGZDAB) (nc : Bool) : MemRule :=
  { use := lUse o.s o.g ([.v o.a.toNat, .s2 o.b.toNat] ++ vGroup o.d (sizeRegs o.z)) [], addr := laneAddress o.b o.a
    req := fun f i j => Acc.store (fromV o.z o.d f i j) nc, deliver := fun f _ _ => f, ld := false, st := true }

/-- `atom` and `atomx`: the operand x is vD, and a compare's new value vD + 1; vD gets the old word. -/
def atomRule (o : SGDAB) (aop : Nat) : MemRule :=
  { use := lUse o.s o.g ([.v o.a.toNat, .s2 o.b.toNat, .v o.d.toNat] ++ if aop = 9 then [.v (o.d.toNat + 1)] else []) [.v o.d.toNat]
    addr := laneAddress o.b o.a
    req := fun f i j => Acc.rmw aop (f.getV i j o.d.toNat) (if aop = 9 then f.getV i j (o.d.toNat + 1) else 0)
    deliver := fun f i b => f.putV i o.d.toNat (wordAt b 0), ld := true, st := true }

/-- The memory words of the lane set that make one access per strand. -/
def laneMemory : Instr → Option MemRule
  | .lLd o => some (loadRule o false)
  | .lLdNc o => some (loadRule o true)
  | .lSt o => some (storeRule o false)
  | .lStNc o => some (storeRule o true)
  | .lLdAcq o => some
      { use := lUse o.s o.g [.v o.a.toNat, .s2 o.b.toNat] [.v o.d.toNat], addr := laneAddress o.b o.a
        req := fun _ _ _ => Acc.acq o.k.toNat, deliver := fun f i b => f.putV i o.d.toNat (wordAt b 0), ld := true, st := false }
  | .lStRel o => some
      { use := lUse o.s o.g [.v o.a.toNat, .s2 o.b.toNat, .v o.d.toNat] [], addr := laneAddress o.b o.a
        req := fun f i j => Acc.rel (leBytes 4 (f.getV i j o.d.toNat).toNat) o.k.toNat, deliver := fun f _ _ => f
        ld := false, st := true }
  | .lAtom o => some (atomRule ⟨o.s, o.g, o.d, o.a, o.b⟩ o.o.toNat)
  | .lAtomxXchg o => some (atomRule o 8)
  | .lAtomxCas o => some (atomRule o 9)
  | .lAtomxAddF32 o => some (atomRule o 10)
  | _ => none

/-- A uniform memory word makes one access. -/
def UniformMemoryEnds (table : Instr → Option MemRule) : Prop :=
  ∀ (i : Instr) (r : MemRule) (s : State) (w : Workgroup) (f : Fibre) (act : List Nat) (g : Fibre) (s1 : State),
    table i = some r → i.wf = true → Issues r.use noPre s w f act g s1 →
      let a := r.addr g 0 0
      -- its agent is the fibre's uniform pipe (08 R144)
      let q := { r.req g 0 0 with uni := true }
      if tokenWait s1 w (r.ld && !r.st && !q.ordered) [a] then Ends i s w r.use act f (.wait g s1 .token)
      else
        (∀ h t b fl tags late, access s.cur.wk w 0 g s1 a q = .ok h t b fl tags late →
          Finishes i s w r.use act f (((r.deliver h 0 b).sticky fl).count t r.ld r.st [(a, late)] tags true) t) ∧
        (∀ h t x, access s.cur.wk w 0 g s1 a q = .trap h t x → Ends i s w r.use act f (.trap h t x 0)) ∧
        (∀ h t, access s.cur.wk w 0 g s1 a q = .wait h t → Ends i s w r.use act f (.wait h t .held))

/-- sD, or the pair for size d. -/
def dataS (z : BitVec 3) (d : BitVec 6) : List Opnd := if z = 5 then [.s2 d.toNat] else [.s d.toNat]

/-- BASE + offset × size. -/
def baseOffset (z : BitVec 3) (b o : BitVec 6) (f : Fibre) : DWord := f.getS64 b.toNat + BitVec.ofNat 64 (o.toNat * sizeBytes z)

/-- BASE + zero-extended sA. -/
def baseRegister (b a : BitVec 6) (f : Fibre) : DWord := f.getS64 b.toNat + (f.getS a.toNat).zeroExtend 64

/-- `atom` and `atomx` of the uniform set. A compare reads sD + 1 as well: with D = 0 its comparand is zero and s1 holds the
new value (02 R41). -/
def uniAtomRule (o : SGDAB) (aop : Nat) : MemRule :=
  { use := uUse o.s o.g [.s o.a.toNat, .s2 o.b.toNat,
      if aop = 9 then (if o.d = 0 then .s 1 else .s2 o.d.toNat) else .s o.d.toNat] [.s o.d.toNat]
    addr := fun f _ _ => baseRegister o.b o.a f
    req := fun f _ _ => Acc.rmw aop (f.getS o.d.toNat) (if aop = 9 then f.getS (o.d.toNat + 1) else 0)
    deliver := fun f _ b => f.putS o.d.toNat (wordAt b 0), ld := true, st := true }

/-- The memory words of the uniform set. -/
def uniMemory : Instr → Option MemRule
  | .uLd o => some
      { use := uUse o.s o.g [.s2 o.b.toNat] (dataS o.z o.d), addr := fun f _ _ => baseOffset o.z o.b o.o f
        req := fun _ _ _ => Acc.plain (sizeBytes o.z) false
        deliver := fun f _ b =>
          (if o.z = 5 then f.putS64 o.d.toNat (dwordAt b 0) else f.putS o.d.toNat (extended o.z b)).awaitLoad o.z
            (if o.d = 0 ∨ f.bound o.d.toNat ≠ none then [] else (List.range (sizeRegs o.z)).map fun k => .s (o.d.toNat + k))
        ld := true, st := false }
  | .uSt o => some
      { use := uUse o.s o.g (.s2 o.b.toNat :: dataS o.z o.d) [], addr := fun f _ _ => baseOffset o.z o.b o.o f
        req := fun f _ _ => Acc.store ((if o.z = 5 then leBytes 8 (f.getS64 o.d.toNat).toNat
          else leBytes 4 (f.getS o.d.toNat).toNat).take (sizeBytes o.z)) false
        deliver := fun f _ _ => f, ld := false, st := true }
  | .uLdAcq o => some
      { use := uUse o.s o.g [.s o.a.toNat, .s2 o.b.toNat] [.s o.d.toNat], addr := fun f _ _ => baseRegister o.b o.a f
        req := fun _ _ _ => Acc.acq o.k.toNat, deliver := fun f _ b => f.putS o.d.toNat (wordAt b 0), ld := true, st := false }
  | .uStRel o => some
      { use := uUse o.s o.g [.s o.a.toNat, .s2 o.b.toNat, .s o.d.toNat] [], addr := fun f _ _ => baseRegister o.b o.a f
        req := fun f _ _ => Acc.rel (leBytes 4 (f.getS o.d.toNat).toNat) o.k.toNat, deliver := fun f _ _ => f
        ld := false, st := true }
  | .uAtom o => some (uniAtomRule ⟨o.s, o.g, o.d, o.a, o.b⟩ o.o.toNat)
  | .uAtomxXchg o => some (uniAtomRule o 8)
  | .uAtomxCas o => some (uniAtomRule o 9)
  | .uAtomxAddF32 o => some (uniAtomRule o 10)
  | _ => none

/-- R174: the strands' operands applied one after another to the old word give each strand what it fetches. -/
def fetched (aop : Nat) (old : Word) : List Word → List Word
  | [] => []
  | d :: ds => old :: fetched aop (atomNew aop d 0 old).1 ds

/-- The FSTAT bits of that chain. -/
def fetchFlags (aop : Nat) (old : Word) : List Word → Word
  | [] => 0
  | d :: ds => (atomNew aop d 0 old).2 ||| fetchFlags aop (atomNew aop d 0 old).1 ds

/-- R174, for both forms of `ratom` on the location ReadS64(BASE): when its one atomic answers the word b, strand k
of Active gets what it would have fetched had the strands gone one after another. -/
def RatomEnds (i : Instr) (sc g0 : BitVec 2) (d b : BitVec 6) (aop : Nat) : Prop :=
  ∀ (s : State) (w : Workgroup) (f : Fibre) (act : List Nat) (g : Fibre) (s1 : State),
    let u := xUse sc g0 [.s2 b.toNat, .v d.toNat] [.v d.toNat]
    let a := g.laneS64 b.toNat
    let ds := act.map fun k => g.xchV k d.toNat
    i.wf = true → Issues u noPre s w f act g s1 → tokenWait s1 w false [a] = false →
      ∀ h t by_ fl tags late, access s.cur.wk w 0 g s1 a (ratomAcc aop ds) = .ok h t by_ fl tags late →
        Finishes i s w u act f
          ((((act.zip (fetched aop (wordAt by_ 0) ds)).foldl (fun h e => h.putV e.1 d.toNat e.2) h).sticky
            (fetchFlags aop (wordAt by_ 0) ds)).count t true true [(a, late)] tags true) t

/-- An address that `pf` accepts: a selector of R126 with its must-be-zero bits clear, not the alias window. -/
def prefetchable (a : DWord) : Bool := (selFault false a).isNone && decide (selOf a ≠ 0xA)

/-- The length operand of `wb`, `inv`, `smap` and `sunmap`: 128 × imm6, or sB. -/
def lengthAsked (i : BitVec 1) (b : BitVec 6) (f : Fibre) : Nat := if i = 1 then 128 * b.toNat else (f.getS b.toNat).toNat

/-- R178: of a fibre's own commands, a wait down to n covers all but the last n: what they have done is observed. -/
def covered (uid n : Nat) (l : List Tile) : List Tile :=
  l.zipIdx.map fun e =>
    if e.1.done && e.1.own.uid == uid && decide (n ≤ ((l.drop (e.2 + 1)).filter fun x => x.own.uid == uid).length) then
      { e.1 with seenBy := e.1.seenBy ++ [uid] }
    else e.1

/-- Cache, stash and counter words (09 R175 to R178). -/
def cacheWords : Instr → Option WordRule
  | .smap o => some
      { use := (uUse o.s o.g ([.s2 o.a.toNat] ++ opB o.i o.b ++ [.s o.d.toNat]) []).syncing
        res := fun s w _ f =>
          if needsToken s w then .wait f s .token
          else
            let a := f.getS64 o.a.toNat
            match smapFault s w (f.getS o.d.toNat).toNat a (lengthAsked o.i o.b f) with
            | some t => .trap f s t 0
            | none => .done f (s.updWg s.cur.wk fun w => { w with
                maps := w.maps ++ [{ off := (f.getS o.d.toNat).toNat, len := lengthAsked o.i o.b f, va := a &&& 0xFFFFFFFFFFFFFF
                                     filled := [] }]
                poison := w.poison.filter fun k => decide (32 * k < (f.getS o.d.toNat).toNat) ||
                  decide ((f.getS o.d.toNat).toNat + lengthAsked o.i o.b f ≤ 32 * k) }) }
  | .cwaitLd o => some
      { use := uUse o.s o.g (opB o.i o.b) []
        res := fun s _ _ f => if (f.outs.filter (·.ld)).length ≤ (f.uB o.i o.b).toNat then .done f s
          else .wait f s (.cwait 0 (f.uB o.i o.b).toNat) }
  | .cwaitSt o => some
      { use := uUse o.s o.g (opB o.i o.b) []
        res := fun s _ _ f => if (f.outs.filter (·.st)).length ≤ (f.uB o.i o.b).toNat then .done f s
          else .wait f s (.cwait 1 (f.uB o.i o.b).toNat) }
  | .cwaitEng o => some
      { use := uUse o.s o.g (opB o.i o.b) []
        res := fun s _ _ f =>
          if (f.uB o.i o.b).toNat < f.engo then .wait f s (.cwait 2 (f.uB o.i o.b).toNat)
          else .done f (s.updWg s.cur.wk fun w => { w with tiles := covered f.uid (f.uB o.i o.b).toNat w.tiles }) }
  | _ => none

/-! ## Steps of agents other than a fibre -/

/-- What a step is: where its conditions hold, the relation between the state before and after. -/
abbrev StepTable := Instr → State → Option (State → Prop)

/-- Every step of the table happens wherever the table gives it an effect, and has that effect. -/
def StepsHappen (table : StepTable) : Prop :=
  ∀ (i : Instr) (s : State) (effect : State → Prop), table i s = some effect → ∃ t, exec i s = .next t ∧ effect t

/-- The state afterwards is this one. -/
def becomes (t : State) : State → Prop := fun u => u = t

/-- No byte of memory has changed, as every agent reads it. -/
def sameBytes (s t : State) : Prop := ∀ x, t.byteAt x = s.byteAt x

/-- Nothing but memory and what L2 holds of it, workgroups, cores, translation units, poison and check marks, watches, the
outbox and the count of traffic differs. -/
def sameRest (s t : State) : Prop :=
  { t with mem := s.mem, wgs := s.wgs, cores := s.cores, clusters := s.clusters, poison := s.poison, stale := s.stale,
           watches := s.watches, outbox := s.outbox, free := s.free, l2 := s.l2, traffic := s.traffic } = s

/-- Growing, placing, spilling and restoring (04 R87, R89, R91). -/
def rowSteps : StepTable
  | .forkPlacement wk fid, s => do
    let (w, f) ← s.fibre wk fid
    guard (!f.spilled)
    let some (.fork pc v) := f.rowsReq | none
    let (k, s1) ← s.tryFork wk w f pc v
    pure (becomes (s1.putFibre wk { f with rowsReq := some (.placed k), sleep := .woken }))
  | .vgrowGrant wk fid, s => do
    let (w, f) ← s.fibre wk fid
    guard (!f.spilled)
    let some (.grow n) := f.rowsReq | none
    let lo ← if f.noneInFlight then s.grantRows w f (n + stackRows f.depth) false else none
    pure (becomes ((s.putFibre wk
      { f.resize n with base := lo + stackRows f.depth, rowsReq := none, sleep := .woken }).l1Trim w.core))
  | .coreSpill core, s => do
    -- a workgroup that is torn down frees its rows by itself
    guard (!s.coreDying core && (s.aged core).all fun x => x.f.spilled || x.f.blocked)
    let o ← (byAge (s.rowWaiters core)).head?
    let t ← spillFor core o 130 s
    pure (becomes t)
  | .spillRestore wk fid, s => do
    let (w, f) ← s.fibre wk fid
    guard (f.spilled && f.noneInFlight && (s.rowWaiters w.core).all fun x => !olderAge x.age (s.ageOf w f))
    let back (lo : Nat) : State :=
      (s.putFibre wk { f with spilled := false, base := lo + stackRows f.depth }).l1Trim w.core
    match f.rowsReq with
    | some (.grow n) =>
      let lo ← fitUp (s.runsOf w.core) (n + stackRows f.depth)
      pure (becomes ((s.putFibre wk { f.resize n with
        spilled := false, base := lo + stackRows f.depth, rowsReq := none, sleep := .woken }).l1Trim w.core))
    | some (.fork _ _) =>
      let lo ← fitUp (s.runsOf w.core) f.run.2
      guard ((fitUp ((lo, f.run.2) :: s.runsOf w.core) (w.hdr.win + stackRows w.hdr.ddepth)).isSome)
      pure (becomes (back lo))
    | _ =>
      let lo ← fitUp (s.runsOf w.core) f.run.2
      pure (becomes (back lo))
  | _, _ => none

/-- A completion is late (07 R138, R139): LATE from its source, slack 0, or as many ticks in queues as its slack; never
with slack 0xFFF. -/
def isLate (slack : BitVec 12) (late : Bool) (ticks : Nat) : Bool :=
  decide (slack ≠ 0xFFF) && (late || decide (slack = 0) || decide (slack.toNat ≤ ticks))

/-- The accesses of an instruction that completed late under a slack, `all` saying that every part was LATE, access n having
waited `ticks n` ticks in queues. -/
def lateOf (x : Outstanding) (slack : BitVec 12) (all : Bool) (ticks : Nat → Nat) : List DWord :=
  ((x.accs.zipIdx).filter fun e => isLate slack (e.1.2 || all) (ticks e.2)).map (·.1.1)

/-- Slack and LATE of a request of a core: its own, or with those of another instruction of the core that it was merged
with (07 R142): the least slack, LATE if either was. -/
def Merges (s : State) (core : Nat) (x : Outstanding) (slack : BitVec 12) (late : Bool) : Prop :=
  (slack = x.slack ∧ late = false) ∨
    ∃ w ∈ s.wgs.vals, w.core = core ∧ ∃ f ∈ w.fibres.vals, ∃ y ∈ f.outs,
      slack = (if y.slack.toNat < x.slack.toNat then y.slack else x.slack) ∧ late = (y.slack == 0 || y.accs.any (·.2))

/-- LATE is reported (07 R143, 18 R320): in trap mode the first late completion is kept until `tret`; otherwise, when
FCTL.LATETRAP is 1, one LATE waits for the boundary; in deterministic mode none does. -/
def lateReport (f : Fibre) (det : Bool) (pc a : DWord) : List Imprecise × Option (DWord × DWord) :=
  let late : Imprecise := { code := .late, pc := pc, addr := a }
  (if !det && !f.fstat.getLsbD 5 && f.fctl.getLsbD 1 && !(f.imprecise.any fun x => x.code == .late) then f.imprecise ++ [late]
    else f.imprecise,
   if !det && f.fstat.getLsbD 5 then some (f.lateInTrap.getD (pc, a)) else f.lateInTrap)

/-- Accesses complete, stash lines are written back, and an imprecise fault is taken (07 R132, R143; 08 R151; 18 R320). -/
def accessSteps : StepTable
  | .accessCompletion wk fid, s => do
    let w ← s.wg wk
    if 32 ≤ fid then
      guard (w.orphans.any fun x => x.tags.isEmpty)
      pure fun t => ∃ x ∈ w.orphans, x.tags = [] ∧ ∃ n, t = { s.putWg wk { w with orphans := w.orphans.erase x } with free := n }
    else
      let f ← w.fibres.find fid
      guard (!f.completions.isEmpty)
      let s1 : State := { s with free := s.free + 1 }
      pure fun t =>
        -- a store that no earlier one to a common byte stands before is performed
        (∃ p ∈ f.ripe, t = s1.performOne wk w.core f p) ∨
        -- a load whose value is not fixed reads again
        (∃ x ∈ f.lq, t = s1.loadAgain wk w.core f x) ∨
        -- an instruction that no packet and no store keeps outstanding is done, and its loads are fixed
        ∃ x ∈ f.outs, x.atEnd f.stq = true ∧ ∃ slack all ticks n h, Merges s w.core x slack all ∧
          t = { s.putFibre wk h with free := n } ∧
          h.outs = f.outs.erase x ∧ h.lq = (f.lq.filter fun y => !x.loads.contains y.serial) ∧
          { h with outs := f.outs, lq := f.lq, latec := f.latec, fstat := f.fstat, imprecise := f.imprecise,
                   lateInTrap := f.lateInTrap, lateSeen := f.lateSeen, shed := f.shed } = f ∧
          h.shed = (if Fibre.noneInFlight { f with outs := f.outs.erase x } then 0 else f.shed) ∧
          (match (lateOf x slack all ticks).head?, x.again with
           | some a, false =>
             h.latec = (if f.latec = 0xFFFFFFFF then f.latec else f.latec + 1) ∧ h.fstat = f.fstat ||| 0x8000 ∧
               (h.imprecise, h.lateInTrap) = lateReport f w.hdr.det x.pc a ∧ h.lateSeen = (if x.whole then f.lateSeen else some x.pc)
           | _, _ => h = { f with outs := f.outs.erase x, lq := h.lq, shed := h.shed })
  | .lazyStashWriteBack wk off, s => do
    let w ← s.wg wk
    let l ← w.lines.find? fun l => l.off == off && l.dirty
    guard (Memory.wf s.mem)
    pure fun t => sameBytes s t ∧ sameRest s t ∧ ∀ w', t.wg wk = some w' → ∀ l' ∈ w'.lines, l'.pa = l.pa → l'.dirty = false
  | .lateTrap wk fid, s => do
    let (w, f) ← s.fibre wk fid
    guard (f.atBoundary && !f.spilled)
    -- in trap mode LATE waits (18 R320)
    let x ← f.imprecise.find? fun x => !(x.code == .late && f.tm)
    pure (becomes (s.raise wk w
      { f.setRix 0 with
        imprecise := f.imprecise.erase x, rixLive := false }
      { code := x.code, sub := 0, addr := x.addr, replay := false } 0 true x.pc f.pc))
  | _, _ => none

/-! ## Synchronisation words (09 R179 to R198; 18 R332 to R335) -/

/-- The checks of a `bar` word: a number of 16 or more, a count above 32, a barrier that NBAR does not declare. -/
def barrierFault (w : Workgroup) (b c : Nat) : Option Nat :=
  if 16 ≤ b ∨ 32 < c then some 7 else if w.hdr.nbar.getLsbD b = false then some 0 else none

/-- R179, an arrival with count c: the fibre's record is set to the open phase; ARR counts up, the first arrival of a
phase setting the count that completes it; the arrival that reaches it ends the phase. -/
def afterArrival (w : Workgroup) (f : Fibre) (b c : Nat) : Workgroup × Fibre :=
  let x := w.bar b
  let n := w.fibres.length
  let exp := if x.arr = 0 then (if c = 0 then n else c) else x.exp
  let g := { f with rv := setBit f.rv b true, rp := setBit f.rp b x.phase }
  let v := { w with
    bars := vset w.bars b { x with arr := x.arr + 1, exp := exp, held := if x.arr = 0 then n else x.held }
    fibres := w.fibres.put f.fid g }
  (if x.arr + 1 = exp then v.flipBar b else v, g)

/-- The faults of an arrival: a second one by the same fibre in a phase (0x21), a count that disagrees (0x23). -/
def arrivalFault (w : Workgroup) (f : Fibre) (b c : Nat) : Option Nat :=
  let x := w.bar b
  if bit f.rv b = true ∧ bit f.rp b = x.phase then some 0x21
  else if x.arr ≠ 0 ∧ x.exp ≠ (if c = 0 then x.held else c) then some 0x23
  else none

/-- A wait on barrier b: over once the phase differs from the fibre's record, else asleep in the waiter mask. -/
def waiting (w : Workgroup) (f : Fibre) (b : Nat) (s : State) : Res :=
  if f.sleep = .woken ∨ (w.bar b).phase ≠ bit f.rp b then .done { f with rv := setBit f.rv b false } s
  else .wait f (s.putWg s.cur.wk { w with bars := vset w.bars b { w.bar b with wait := (w.bar b).wait ||| (1#32 <<< f.fid) } })
    (.bar b (bit f.rp b))

/-- The named barriers. -/
def barriers : Instr → Option WordRule
  | .barArrive o => some
      { use := (uUse o.s o.g (.s o.a.toNat :: opB o.i o.b) []).syncing
        res := fun s w _ f =>
          let w := s.wgNow s.cur.wk w
          let b := (f.uB o.i o.b).toNat
          let c := (f.getS o.a.toNat).toNat
          match barrierFault w b c with
          | some sub => fault .reservedField sub 0 f s
          | none => match arrivalFault w f b c with
            | some sub => fault .queueState sub 0 f s
            | none => .done (afterArrival w f b c).2 (s.putWg s.cur.wk (afterArrival w f b c).1) }
  | .barWait o => some
      { use := (uUse o.s o.g (opB o.i o.b) []).acquiring
        res := fun s w _ f =>
          let b := (f.uB o.i o.b).toNat
          match barrierFault w b 0 with
          | some sub => fault .reservedField sub 0 f s
          | none => if bit f.rv b then waiting w f b s else fault .queueState 0x22 0 f s }
  | .barSync o => some
      { use := (uUse o.s o.g (.s o.a.toNat :: opB o.i o.b) []).syncing
        res := fun s w _ f =>
          let w := s.wgNow s.cur.wk w
          let b := (f.uB o.i o.b).toNat
          let c := (f.getS o.a.toNat).toNat
          match barrierFault w b c with
          | some sub => fault .reservedField sub 0 f s
          | none =>
            if f.sleep = .woken then waiting w f b s
            else match arrivalFault w f b c with
              | some sub => fault .queueState sub 0 f s
              | none => waiting (afterArrival w f b c).1 (afterArrival w f b c).2 b (s.putWg s.cur.wk (afterArrival w f b c).1) }
  | _ => none

/-- The knot of slot k, or the fault of a `knot` word: no such slot, or a failed knot. -/
def knotNamed (s : State) (w : Workgroup) (k : Nat) : Except (Code × Nat) (Nat × Knot) :=
  if 4 ≤ k then .error (.reservedField, 7)
  else if w.hdr.knots.getLsbD k = false then .error (.reservedField, 0)
  else match s.knotAt w k with
    | none => .error (.reservedField, 0)
    | some x => if x.2.failed then .error (.peerFault, 0x10 + k) else .ok x

/-- The state once the workgroup has arrived at the knot of slot k by a fibre: its record is set to the open phase, it counts
as arrived, and a full set completes the phase; what the fibre had observed it leaves there (12 R240). -/
def knotArrived (s : State) (w : Workgroup) (uid k e : Nat) (x : Knot) : State :=
  (((s.syncAt w uid false true (.knot e x.phase)).updWg s.cur.wk fun w => { w with knotRec := vset w.knotRec k ⟨true, x.phase⟩ }).updLaunch w.launch fun l =>
    { l with knots := l.knots.upd e fun x => { x with arrived := x.arrived ++ [w.wgid] } }).settleKnot w.launch e

/-- A wait on slot k: over once the phase differs from the workgroup's record, with an acquire at pkg scope. -/
def knotWaits (f : Fibre) (k : Nat) (s : State) : Res :=
  match s.wg s.cur.wk with
  | none => .done f s
  | some w => match s.knotAt w k with
    | none => .done f s
    | some (e, x) =>
      if f.sleep = .woken ∨ x.phase ≠ (vget w.knotRec k ⟨false, false⟩).rp then
        .done f ((s.syncAt w f.uid true false (.knot e (vget w.knotRec k ⟨false, false⟩).rp)).acquire w.core 3)
      else .wait f s (.knot k (vget w.knotRec k ⟨false, false⟩).rp)

/-- A `knot` word: a waiter that a completed phase has woken returns; else the word waits for the commit token, then
makes its checks, and `go` is its own part. -/
def knotPast (o : SGIB) (arrive wait : Bool) (go : Nat → Nat → Knot → State → Workgroup → Fibre → Res) : WordRule :=
  { use := { uUse o.s o.g (opB o.i o.b) [] with sync := arrive, acq := wait }
    res := fun s w _ f =>
      let k := (f.uB o.i o.b).toNat
      if f.sleep = .woken ∧ wait then knotWaits f k s
      else if needsToken s w && !f.sleep.syncWait then .wait f s .token
      else match knotNamed s w k with
        | .error (c, sub) => fault c sub 0 f s
        | .ok (e, x) => go k e x s w f }

/-- The workgroup has already arrived in the open phase. -/
def hasArrived (w : Workgroup) (k : Nat) (x : Knot) : Bool :=
  (vget w.knotRec k ⟨false, false⟩).rv && (vget w.knotRec k ⟨false, false⟩).rp == x.phase

/-- The knot barriers. -/
def knotWords : Instr → Option WordRule
  | .knotArrive o => some (knotPast o true false fun k e x s w f =>
      if hasArrived w k x then fault .queueState 0x21 0 f s else .done f (knotArrived s w f.uid k e x))
  | .knotWait o => some (knotPast o false true fun k _ _ s w f =>
      if (vget w.knotRec k ⟨false, false⟩).rv then knotWaits f k s else fault .queueState 0x22 0 f s)
  | .knotSync o => some (knotPast o true true fun k e x s w f =>
      if hasArrived w k x then fault .queueState 0x21 0 f s else knotWaits f k (knotArrived s w f.uid k e x))
  | _ => none

/-- The port that field A names: QUEUE_STATE 0x04 when it is unbound, 0x02 when its direction is the other one. -/
def namedPort (f : Fibre) (a : BitVec 6) (out : Bool → Bool) (s : State) (go : Nat → Port → Res) : Res :=
  match f.bound a.toNat with
  | none => fault .queueState 4 0 f s
  | some p => if out p.out then go (a.toNat - 48) p else fault .queueState 2 0 f s

/-- An operation that waits for the commit token first. -/
def withToken (s : State) (w : Workgroup) (f : Fibre) (r : Res) : Res := if needsToken s w then .wait f s .token else r

/-- The queue words (09 R184). -/
def queueWords : Instr → Option WordRule
  | .qbind o => some
      { use := uUse o.s o.g [] []
        res := fun s w _ f => withToken s w f (
          let n := o.d.toNat - 48
          let k := o.k.toNat
          if (f.port n).bound then fault .queueState 1 0 f s
          else if w.hdr.knots.getLsbD k = false ∨ s.knotAt w k = none then fault .reservedField 0 0 f s
          else match s.queueAt w k with
            | none => fault .queueState 7 0 f s
            | some q =>
              if o.r = 1 ∧ q.hadOut = true ∧ q.outBinds = 0 then fault .queueState 6 0 f s
              else .done (f.setPort n { bound := true, out := o.r == 1, slot := k, allow := 0 })
                (if o.r = 1 then s.updQueue w k fun q => { q with outBinds := q.outBinds + 1, hadOut := true } else s)) }
  | .qgive o => some
      { use := (uUse o.s o.g (opB o.i o.b) [.c o.c.toNat]).syncing
        res := fun s w _ f => withToken s w f (namedPort f o.a id s fun n p =>
          match s.queueAt w p.slot with
          | none => .done (f.putC o.c.toNat false) s
          | some q =>
            if q.hadOut = true ∧ q.outBinds = 0 then .done (f.putC o.c.toNat false) s
            else
              let r := requestSlots s w f n
              if (r.1.port n).allow = 0 then .done (r.1.putC o.c.toNat false) r.2
              else .done ((pushPort r.2 w r.1 n (f.uB o.i o.b)).1.putC o.c.toNat true) (pushPort r.2 w r.1 n (f.uB o.i o.b)).2) }
  | .qtry o => some
      { use := (uUse o.s o.g [] [.c o.c.toNat, .s o.b.toNat]).acquiring
        res := fun s w _ f => withToken s w f (namedPort f o.a not s fun _ p =>
          match s.queueAt w p.slot with
          | none => .done (f.putC o.c.toNat false) s
          | some q => match q.elems with
            | x :: _ => .done ((f.putS o.b.toNat x).putC o.c.toNat true)
                (((s.syncQueue w f.uid p.slot false).updQueue w p.slot fun q => { q with elems := q.elems.drop 1 }).acquire w.core
                  (s.queueScope w p.slot))
            | [] => .done ((f.putS o.b.toNat (if q.hadOut && q.outBinds == 0 then 1 else 0)).putC o.c.toNat false) s) }
  | .qclose o => some
      { use := uUse o.s o.g [] []
        res := fun s w _ f => withToken s w f (namedPort f o.a (fun _ => true) s fun n p =>
          .done (f.setPort n { bound := false, out := false, slot := 0, allow := 0 })
            (if p.out then s.updQueue w p.slot fun q => { q with reserved := q.reserved - p.allow, outBinds := q.outBinds - 1 }
             else s)) }
  | _ => none

/-- A ticket or barrier object at an address: its bytes, place, and the state after the read, where the checks of 07
R126 pass and it can be read. -/
def objectAt (wk : Nat) (w : Workgroup) (inAddr : Bool) (n : Nat) (a : DWord) (s : State) : Option (List Byte × Place × State) :=
  match objPlace s wk w inAddr n n a with
  | .error _ => none
  | .ok p => match objRead s w p n true a with
    | .error _ => none
    | .ok (bs, t) => some (bs, p, t)

/-- A word on an object outside the own scratchpad waits for the commit token. -/
def objectNeedsToken (s : State) (w : Workgroup) (a : DWord) : Bool := needsToken s w && decide (a.toNat / 2 ^ 60 ≠ 8)

/-- The workgroup claims another object, or this one with another ticket. -/
def otherClaim (wk : Nat) (s : State) (w : Workgroup) (p : Place) (t : Word) : Bool :=
  match w.claim with
  | none => false
  | some c => !claimAt s wk w p || decide (c.2 ≠ t)

/-- The claim of a workgroup. -/
def withClaim (wk : Nat) (s : State) (c : Option (DWord × Word)) : State := s.updWg wk fun w => { w with claim := c }

/-- What a word finds that reads an object: the fibre's own stores to its bytes have been performed. -/
def reached (f : Fibre) (s : State) (w : Workgroup) (a : DWord) (n : Nat) (write : Bool) : Fibre × State :=
  f.reach w.core (s.objStorage s.cur.wk w a) n write s

/-- Tickets (09 R187), where the object can be read and the commit token is not missing. `tkpass` releases, `tkwait` and
`tkpoll` acquire (08 R157). -/
def tickets : Instr → Option ObjectRule
  | .tkwait o => some
      { use := (uUse o.s o.g (.s2 o.a.toNat :: opB o.i o.b) []).acquiring
        res := fun s w f => do
          let a := f.getS64 o.a.toNat
          let n := f.uB o.i o.b
          guard (!objectNeedsToken s w a || f.sleep.syncWait)
          let wk := s.cur.wk
          let (f, s) := reached f s w a 8 false
          let (bs, p, t) ← objectAt wk w true 8 a s
          if otherClaim wk s w p n then pure (fault .queueState 0x10 0 f t)
          else if (wordAt bs 4).getLsbD 0 then pure (fault .ticketPoison 0 a f t)
          else if wordAt bs 0 = n then
            let u := withClaim wk t (some (a, n))
            pure (.done (f.countObject u a [] false) ((u.tkSync wk w f.uid false a).acquire w.core (scopeOf a)))
          else pure (.wait f (withClaim wk t (some (a, n))) (.tkwait a n)) }
  | .tkpoll o => some
      { use := (uUse o.s o.g (.s2 o.a.toNat :: opB o.i o.b) [.c o.c.toNat]).acquiring
        res := fun s w f => do
          let a := f.getS64 o.a.toNat
          let n := f.uB o.i o.b
          guard (!objectNeedsToken s w a)
          let wk := s.cur.wk
          let (f, s) := reached f s w a 8 false
          let (bs, p, t) ← objectAt wk w true 8 a s
          if otherClaim wk s w p n then pure (fault .queueState 0x10 0 f t)
          else if (wordAt bs 4).getLsbD 0 then pure (fault .ticketPoison 0 a f t)
          else
            let u := withClaim wk t (some (a, n))
            let g := f.countObject u a [] false
            if wordAt bs 0 = n then
              pure (.done (g.putC o.c.toNat true) ((u.tkSync wk w f.uid false a).acquire w.core (scopeOf a)))
            else pure (.done (g.putC o.c.toNat false) u) }
  | .tkpass o => some
      { use := (uUse o.s o.g [.s2 o.a.toNat] []).syncing
        res := fun s w f => do
          let a := f.getS64 o.a.toNat
          guard (!objectNeedsToken s w a)
          let (bs, p, t) ← objectAt s.cur.wk w true 8 a s
          let _ ← (match p with
            | .glob va => (t.storePa w.core w.tenant va a).toOption.map fun _ => ()
            | _ => some ())
          if claimAt s s.cur.wk w p = false then pure (fault .queueState 0x11 0 f t)
          else if (wordAt bs 4).getLsbD 0 then pure (fault .ticketPoison 0 a f t)
          else
            let (_, n) ← w.claim
            if wordAt bs 0 = n then
              if scopeOf a = 4 ∧ f.fabErr = true then pure (fault .protection 0x0C a { f with fabErr := false } t)
              else if t.passWaits w a p then pure (.wait f t .held)
              else
                let t ← (objWrite t w p (leBytes 4 (n + 1).toNat) a).toOption
                pure (.done (f.countObject t a [] false)
                  ((t.tkSync s.cur.wk w f.uid true a).updWg s.cur.wk fun w => { w with claim := none }).passClaims)
            else pure (fault .queueState 0x11 0 f t) }
  | _ => none

/-- Watches (09 R189, R191), where the record and the word can be read. -/
def watchWords : Instr → Option ObjectRule
  | .watchArm o => some
      { use := uUse o.s o.g [.s2 o.a.toNat] [.s o.d.toNat]
        res := fun s w f => do
          guard (!needsToken s w)
          let a := f.getS64 o.a.toNat
          let armed (f : Fibre) (t : State) (bs : List Byte) (tags : List Nat) (late : Bool) : Option Res := do
            let (pa, t) ← (watchedPa t w (dwordAt bs 0)).toOption
            let (f, t) := f.reach w.core (some (none, pa)) 8 false t
            match t.freeGeneral (watchGroup pa) with
            | none => pure (fault .watchFull 0 0 f t)
            | some key =>
              if 8 ≤ f.watches.length then pure (fault .watchFull 1 0 f t)
              else pure (.done
                (({ f with watches := f.watches ++ [key] }.putS o.d.toNat (BitVec.ofNat 32 key)).countObject t a tags late)
                (t.arm key pa (dwordAt bs 8) (dwordAt bs 16) o.k (.fibre s.cur.wk f.fid f.uid)))
          -- the record is read from memory of this node, or by a packet through a fabric window
          match viaWindow s.cur.wk w f s 8 a (Acc.load 24 false) with
          | none =>
            let (bs, t) ← (readRecord s s.cur.wk w f a).toOption
            armed f t bs [] false
          | some (.ok f t bs _ tags late) => armed f t bs tags late
          | some (.trap f t x) => pure (.trap f t x 0)
          | some (.wait f t) => pure (.wait f t .held) }
  | .wwait o => some
      { use := (uUse o.s o.g [.s o.a.toNat] [.s2 o.d.toNat]).acquiring
        res := fun s w f =>
          let h := f.getS o.a.toNat
          if needsToken s w && !f.sleep.syncWait then some (.wait f s .token)
          else match (if f.watches.contains h.toNat then s.watches.find h.toNat else none) with
            | none => some (fault .queueState 0x20 0 f s)
            | some x =>
              if x.fired then
                some (.done ({ f with watches := f.watches.filter (· != h.toNat) }.putS64 o.d.toNat x.value)
                  ((s.setWatches (s.watches.del h.toNat)).acquire w.core 4))
              else some (.wait f s (.wwait h)) }
  | .disarm o => some
      { use := uUse o.s o.g [.s o.a.toNat] []
        res := fun s w f => some (withToken s w f (
          let h := (f.getS o.a.toNat).toNat
          if f.watches.contains h then
            .done { f with watches := f.watches.filter (· != h) } (s.setWatches (s.watches.del h))
          else fault .queueState 0x20 0 f s)) }
  | _ => none

/-- The commit token and the trigger (09 R192, R193; 18 R333). -/
def tokenWords : Instr → Option WordRule
  | .tokpass o => some
      { use := uUse o.s o.g [] []
        res := fun s w _ f =>
          if w.hdr.det = false then .done f s
          else if needsToken s w then fault .tokenMisuse 0 0 f s
          else if s.drained s.cur.wk w && w.fibres.vals.all fun g => g.fid == f.fid || w.quiet.contains g.fid then
            .done f ((s.updLaunch w.launch fun l => { l with token :=
                { holder := none, next := nextInTurn l.total l.exited l.total (w.wgid + 1)
                  p := l.token.p + (w.retired + 1 - w.published) } }).updWg s.cur.wk fun v => { v with published := w.retired + 1 })
          else .wait f s .held }
  | .tokq o => some
      { use := uUse o.s o.g [] [.c o.c.toNat], res := fun s w _ f => .done (f.putC o.c.toNat (!needsToken s w)) s }
  | .trig o => some
      { use := (uUse o.s o.g [] []).syncing
        res := fun s w _ f => withToken s w f (
          if w.trig then .done f s
          else .done f ((s.updWg s.cur.wk fun v => { v with trig := true }).updLaunch w.launch fun l =>
            if l.trigd.contains w.wgid then l else { l with trigd := l.trigd ++ [w.wgid], trigAt := s.cycles })) }
  | _ => none

/-- What `bcinit` makes the object expect. -/
def expectOf (i : BitVec 1) (b : BitVec 6) (f : Fibre) : Nat := if i = 1 then 2 ^ b.toNat else (f.getS b.toNat).toNat

/-- The answer of a window's packet for an object word: the word completes, waits or faults as the access does. -/
def byPacket (r : AccRes) (a : DWord) (fin : Fibre → List Byte → Fibre) : Res :=
  match r with
  | .ok h t b _ tags late => .done ((fin h b).countObject t a tags late) t
  | .trap h t x => .trap h t x 0
  | .wait h t => .wait h t .held

/-- Byte-count barrier words (09 R195 to R198), where the object can be read and written and, for an addition, no foreign
store has disturbed it. None of them is a release (08 R157, R160). `bcinit` and `bcphase` make a plain access, which goes by
a packet through a fabric window (20 R345). -/
def byteBarriers : Instr → Option ObjectRule
  | .bcinit o => some
      { use := uUse o.s o.g (.s2 o.a.toNat :: opB o.i o.b) []
        res := fun s w f => do
          let a := f.getS64 o.a.toNat
          guard (!objectNeedsToken s w a)
          let object := leBytes 4 (expectOf o.i o.b f) ++ leBytes 12 0
          match viaWindow s.cur.wk w f s 16 a (Acc.store object false) with
          | some r => pure (byPacket r a fun h _ => h)
          | none =>
          let p ← (objPlace s s.cur.wk w false 16 16 a).toOption
          let wk := s.cur.wk
          let (f, s) := reached f s w a 16 true
          let t ← (objWrite s w p object a).toOption
          pure (.done (f.countObject t a [] false) ((t.noteBar (t.objStorage wk w a) false).dropFlip (t.objStorage wk w a))) }
  | .bcwait o => some
      { use := uUse o.s o.g (.s2 o.a.toNat :: opB o.i o.b) [.s o.d.toNat]
        res := fun s w f => do
          let a := f.getS64 o.a.toNat
          guard (!objectNeedsToken s w a || f.sleep.syncWait)
          let p ← (objPlace s s.cur.wk w false 16 16 a).toOption
          let wk := s.cur.wk
          let (f, s) := reached f s w a 16 false
          let (bs, t) ← (objRead s w p 16 true a).toOption
          if (wordAt bs 8).getLsbD 0 = (f.uB o.i o.b).getLsbD 0 then pure (.wait f t (.bcwait a ((f.uB o.i o.b).getLsbD 0)))
          else pure (.done ((f.putS o.d.toNat (t.waitFlags (t.objStorage wk w a) bs)).countObject t a [] false)
            ((t.updWg wk fun w => w.observeBar t wk p f.uid).acquire w.core 4)) }
  | .bcadd o => some
      { use := uUse o.s o.g (.s2 o.a.toNat :: opB o.i o.b) []
        res := fun s w f => do
          let a := f.getS64 o.a.toNat
          guard (!objectNeedsToken s w a)
          let p ← (objPlace s s.cur.wk w false 16 16 a).toOption
          let wk := s.cur.wk
          let (f, s) := reached f s w a 16 true
          let (bs, t) ← (objRead s w p 16 true a).toOption
          let x := t.objStorage wk w a
          guard (!t.barDisturbed x)
          let new := barrierSum bs (f.uB o.i o.b).toNat 0
          let t ← (objWrite t w p new a).toOption
          let t := (t.noteSum x new).noteFlip x bs new
          pure (.done (f.countObject t a [] false) t) }
  | .bcphase o => some
      { use := uUse o.s o.g [.s2 o.a.toNat] [.s o.d.toNat]
        res := fun s w f => do
          let a := f.getS64 o.a.toNat
          guard (!objectNeedsToken s w a)
          let phase (h : Fibre) (b : List Byte) : Fibre := h.putS o.d.toNat (if (wordAt b 8).getLsbD 0 then 1 else 0)
          -- a plain load of the object's 16 bytes
          match addrFault false [0x0, 0x8, 0x9] 16 a with
          | some t => pure (.trap f s t 0)
          | none => pure (byPacket (access s.cur.wk w 0 f s a { Acc.load 16 false with uni := true }) a phase) }
  | _ => none

/-! ## The matrix engine (12 R219 to R240) -/

/-- A fault record, not replayable. -/
def trapAt (c : Code) (sub : Nat) (a : DWord) : Trap := { code := c, sub := sub, addr := a, replay := false }

/-- The fault of the first row of a table that fails. -/
def firstOf (rows : List (Bool × Trap)) : Option Trap := (rows.find? (·.1)).map (·.2)

/-- Bits [lo + n - 1 : lo] of the word at an offset of a parameter block. -/
def blk (b : List Byte) (o lo n : Nat) : Nat := (wordAt b o).toNat / 2 ^ lo % 2 ^ n

/-- An address that stands, is not aligned, or lies on another selector than 0x0, 0x8 and 0x9. -/
def misplaced (a : DWord) (align : Nat) : Bool := a != 0 && (a.toNat % align != 0 || !([0x0, 0x8, 0x9].contains (a.toNat / 2 ^ 60)))

/-- n items rounded up to whole units. -/
def unitsOf (n u : Nat) : Nat := (n + u - 1) / u

/-- SCRATCH + STASH of a workgroup. -/
def allocation (s : State) (wk : Nat) : Nat := ((s.wg wk).map fun w => w.hdr.scratch + w.hdr.stash).getD 0

/-- Table 11-1: the bits of an element of a format code, its rate group, whether it may carry block scales. -/
def elementBits (c : Nat) : Nat := [32, 16, 16, 8, 8, 4, 4, 8].getD c 0
def rateGroup (c : Nat) : Nat := [0, 1, 1, 2, 2, 2, 2, 3].getD c 4
def mayScale (c : Nat) : Bool := [3, 4, 5, 6].contains c

/-- R226: BASE, STRIDE and SOFF of the operand map at an offset of the block. -/
def mapAligned (b : List Byte) (o : Nat) : Bool :=
  let swz := blk b (o + 16) 0 2
  let unit := if swz = 0 then 4 else if swz = 1 then 128 else 256
  blk b o 0 32 % unit == 0 && (swz == 0 || blk b (o + 8) 0 32 % unit == 0) && blk b (o + 12) 0 16 % 4 == 0

/-- R226: (lines − 1) × STRIDE + span. -/
def mapFootprint (b : List Byte) (o lines k bits : Nat) : Nat :=
  let swz := blk b (o + 16) 0 2
  let span := unitsOf (k * bits) 8
  if k = 0 then 0
  else (lines - 1) * blk b (o + 8) 0 32 +
    if swz = 0 then span else if swz = 1 then 128 * unitsOf span 128 else 256 * unitsOf span 256

/-- R227: one byte beyond SOFF + 36 × ((lines − 1) × SGS + G − 1) + 35. -/
def mapScaleEnd (b : List Byte) (o lines k : Nat) : Nat :=
  blk b (o + 12) 0 16 + 36 * ((lines - 1) * blk b (o + 12) 16 16 + unitsOf (unitsOf k 4) 32 - 1) + 36

/-- Rows 4 to 14 of Table 12-4 over a block at address a. -/
def mmaRows (s : State) (wk : Nat) (w : Workgroup) (b : List Byte) (a : DWord) : List (Bool × Trap) :=
  let ctrl := blk b 0x00
  let k := blk b 0x04 0 32
  let org := blk b 0x0C
  let bar := dwordAt b 0x10
  let af := ctrl 0 4
  let bf := ctrl 4 4
  let m := 16 * 2 ^ ctrl 12 2
  let n := 16 * 2 ^ ctrl 14 2
  let aPeer := ctrl 21 1 == 1
  let bPeer := ctrl 22 2 != 0
  let source (peer : Bool) (p : Nat) : Nat := allocation s (if peer then (s.memberKey w p).getD wk else wk)
  let scales := 8192 * w.hdr.accslots
  [(decide (8 ≤ af ∨ 8 ≤ bf), trapAt .engineParam 0x01 a),
   (rateGroup af != rateGroup bf || ctrl 8 1 == 1 && !mayScale af || ctrl 9 1 == 1 && !mayScale bf, trapAt .engineParam 0x02 a),
   (ctrl 27 5 != 0 || blk b 0x08 12 20 != 0 || org 24 8 != 0 || org 14 2 != 0 || org 7 1 != 0 ||
      blk b 0x28 2 30 != 0 || blk b 0x3C 2 30 != 0 ||
      ctrl 14 2 == 3 || ctrl 22 2 == 3 || blk b 0x28 0 2 == 3 || blk b 0x3C 0 2 == 3 || ctrl 16 1 == 1 && af != 7 ||
      -- the source fields that the sources leave unused (R229)
      !aPeer && ctrl 18 3 != 0 || !bPeer && ctrl 24 3 != 0 || ctrl 22 2 != 2 && org 16 8 != 0, trapAt .engineParam 0x03 a),
   (decide (org 0 7 % 16 ≠ 0 ∨ org 8 6 % 16 ≠ 0 ∨ 128 < org 0 7 + m ∨ 64 < org 8 6 + n), trapAt .engineParam 0x05 a),
   (decide (1048576 < k), trapAt .engineParam 0x06 a),
   (!mapAligned b 0x18 || !mapAligned b 0x2C, trapAt .engineParam 0x07 a),
   (decide (blk b 0x1C 0 32 < mapFootprint b 0x18 m k (elementBits af) ∨ blk b 0x30 0 32 < mapFootprint b 0x2C n k (elementBits bf)),
      trapAt .engineParam 0x08 a),
   (misplaced bar 16, trapAt .engineParam 0x09 bar),
   (aPeer && decide (w.hdr.hitch ≤ ctrl 18 3), trapAt .peerInvalid 0x01 a),
   (bPeer && decide (w.hdr.hitch ≤ ctrl 24 3), trapAt .peerInvalid 0x02 a),
   (decide (source aPeer (ctrl 18 3) < blk b 0x18 0 32 + blk b 0x1C 0 32), trapAt .scratchBounds 0x01 a),
   (decide (source bPeer (ctrl 24 3) < blk b 0x2C 0 32 + blk b 0x30 0 32), trapAt .scratchBounds 0x02 a),
   (ctrl 8 1 == 1 && k != 0 && decide (scales < mapScaleEnd b 0x18 m k), trapAt .scratchBounds 0x03 a),
   (ctrl 9 1 == 1 && k != 0 && decide (scales < mapScaleEnd b 0x2C n k), trapAt .scratchBounds 0x04 a)]

/-- What a copy command puts to the rows of Table 13-5: a drain's slot; rows 5, 6, 8 and 9; its addresses with their selectors;
the members that it names; its ranges (address, bytes, SUB) and those of scale memory (offset, bytes). -/
structure CopyAsks where
  slot : Option Nat
  unused : Bool
  limit : Bool
  crosses : Bool
  model : Bool
  addrs : List (DWord × List Nat)
  members : List Nat
  ranges : List (DWord × Nat × Nat)
  scales : List (Nat × Nat)

/-- R247: a range that reaches beyond the allocation of the workgroup that it addresses. -/
def outside (s : State) (wk : Nat) (w : Workgroup) (a : DWord) (n : Nat) : Bool :=
  let off := a.toNat % 2 ^ 60
  if a.toNat / 2 ^ 60 = 0x8 then decide (allocation s wk < off + n)
  else if a.toNat / 2 ^ 60 = 0x9 then
    decide (allocation s ((s.memberKey w (off / 2 ^ 57)).getD wk) < off % 2 ^ 57 + n)
  else false

/-- Rows 4 to 13 of Table 13-5 over a command with a block at address a. The selectors come before the must-be-zero bits of
07 R126, and the checks of 20 R355 on windows before the bounds. -/
def copyRows (s : State) (wk : Nat) (w : Workgroup) (x : CopyAsks) (b : List Byte) (needRec : Bool) (a : DWord) : List (Bool × Trap) :=
  let bar := dwordAt b 0x08
  let crec := dwordAt b 0x10
  let peers := x.members ++ (x.addrs.filter fun e => e.1.toNat / 2 ^ 60 == 0x9).map fun e => e.1.toNat / 2 ^ 57 % 8
  [(x.slot.any fun k => w.hdr.accslots ≤ k, trapAt .engineParam 0x04 a),
   (x.unused || blk b 0x04 12 20 != 0, trapAt .engineParam 0x03 a),
   (x.limit, trapAt .engineParam 0x0B a),
   (misplaced crec 32 || crec == 0 && needRec, trapAt .engineParam 0x0C crec),
   (x.crosses, trapAt .engineParam 0x0D a),
   (x.model, trapAt .engineParam 0x0E a),
   (x.addrs.any fun e => !e.2.contains (e.1.toNat / 2 ^ 60), trapAt .engineParam 0x0F a)] ++
  x.addrs.map (fun e => (e.1.toNat % 2 ^ 60 / (if e.1.toNat / 2 ^ 60 = 0 then 2 ^ 56 else 2 ^ 32) % (if e.1.toNat / 2 ^ 60 = 9 then 2 ^ 25 else 2 ^ 28) != 0,
    trapAt .protection 0 e.1)) ++
  [(misplaced bar 16, trapAt .engineParam 0x09 bar),
   (peers.any fun m => w.hdr.hitch ≤ m, trapAt .peerInvalid 0x03 a)] ++
  x.ranges.filterMap (fun r => (rangeWindow s w r.1 r.2.1).map fun t => (true, t)) ++
  x.ranges.map (fun r => (outside s wk w r.1 r.2.1, trapAt .scratchBounds r.2.2 a)) ++
  [(x.scales.any fun r => 8192 * w.hdr.accslots < r.1 + r.2, trapAt .scratchBounds 0x07 a)]

/-- The three selectors of memory. -/
def memSels : List Nat := [0x0, 0x8, 0x9]

/-- R249 to R251: `cpy`, with the member mask of a `cpy.mc`. A misaligned DST counts as row 6 (log 100). -/
def cpyAsks (mask : Option Word) (b : List Byte) : CopyAsks :=
  let ctrl := blk b 0x00
  let (dstk, srck, dfmt) := (ctrl 26 2, ctrl 24 2, ctrl 20 4)
  let drain := srck == 1
  let fill := srck == 2
  let src := dwordAt b 0x18
  let dst := dwordAt b 0x20
  let len := blk b 0x28 0 32
  let (cnt1, cnt2) := (blk b 0x2C 0 16, blk b 0x2C 16 16)
  let (sstr1, sstr2, dstr1, dstr2) := (blk b 0x30 0 32, blk b 0x34 0 32, blk b 0x38 0 32, blk b 0x3C 0 32)
  let e := if drain then ([4, 2, 2, 1, 1].getD dfmt 4) else 1
  let reads := (cnt2 - 1) * sstr2 + (cnt1 - 1) * sstr1 + (if drain then 4 * len else len)
  let writes := (cnt2 - 1) * dstr2 + (cnt1 - 1) * dstr1 + len * e
  let members := (mask.map fun x => (List.range 8).filter fun m => x.getLsbD m).getD []
  { slot := if drain then some (ctrl 15 3) else none
    unused := ctrl 28 4 != 0 || ctrl 0 15 != 0 || decide (2 ≤ dstk) || srck == 3 || !drain && ctrl 15 9 != 0 ||
      fill && (src.toNat / 2 ^ 32 != 0 || sstr1 != 0 || sstr2 != 0) ||
      drain && (!([0, 1, 2, 3, 4, 15].contains dfmt) || ctrl 18 1 == 1 && [1, 2, 3, 4].contains dfmt || ctrl 19 1 == 1 && dfmt == 15) ||
      mask.any fun x => dstk != 0 || x.toNat / 256 != 0
    limit := decide (len = 0 ∨ 16777216 < len ∨ cnt1 = 0 ∨ cnt2 = 0 ∨ 4294967296 ≤ len * cnt1 * cnt2 ∨
        (1 < cnt1 ∨ drain = true) ∧ dstr1 < len * e ∨ 1 < cnt2 ∧ dstr2 < (cnt1 - 1) * dstr1 + len * e) ||
      fill && [len, dst.toNat, dstr1].any (fun x => x % 4 != 0) ||
      dstk == 1 && [dst.toNat, len, sstr1, sstr2, dstr1, dstr2].any (fun x => x % 4 != 0) ||
      drain && ([src.toNat, sstr1, sstr2].any (fun x => x % 4 != 0) || decide (32768 < src.toNat + reads) ||
        dst.toNat % e != 0 || dstr1 % e != 0)
    crosses := false
    model := false
    addrs := (if srck = 0 then [(src, memSels)] else []) ++ if dstk = 0 then [(dst, if mask.isSome then [0x8] else memSels)] else []
    members := members
    ranges := (if srck = 0 then [(src, reads, 0x05)] else []) ++
      if dstk ≠ 0 then []
      else if mask.isSome then members.map fun m => (BitVec.ofNat 64 (9 * 2 ^ 60 + m * 2 ^ 57 + dst.toNat % 2 ^ 32), writes, 0x06)
      else [(dst, writes, 0x06)]
    scales := if dstk = 1 then [(dst.toNat, writes)] else [] }

/-- R252: `cpyr`. -/
def cpyrAsks (b : List Byte) : CopyAsks :=
  let src := dwordAt b 0x18
  let dst := dwordAt b 0x20
  let len := blk b 0x28 0 32
  let seqw := dwordAt b 0x30
  { slot := none
    unused := blk b 0x00 4 28 != 0 || decide (3 < blk b 0x00 0 4) || dwordAt b 0x38 != 0
    limit := decide (len % 4 ≠ 0 ∨ len < 4 ∨ 4096 < len ∨ dst.toNat % 4 ≠ 0 ∨ seqw.toNat % 4 ≠ 0 ∨
      dst.toNat < seqw.toNat + 4 ∧ seqw.toNat < dst.toNat + len)
    crosses := dst.toNat / 4096 != (dst.toNat + len - 1) / 4096
    model := false
    addrs := [(src, memSels), (dst, [0x0]), (seqw, [0x0])]
    members := []
    ranges := [(src, len, 0x05), (dst, len, 0x06), (seqw, 4, 0x06)]
    scales := [] }

/-- R253, R254: `gath`. A misaligned BT counts as row 6 (log 99), and VDST is judged whatever PARTS says (log 89). -/
def gathAsks (s : State) (b : List Byte) : CopyAsks :=
  let parts := blk b 0x00 0 2
  let bt := dwordAt b 0x18
  let (t0, nt) := (blk b 0x20 0 32, blk b 0x24 0 32)
  let (kdst, vdst, dstr) := (blk b 0x28 0 32, blk b 0x2C 0 32, blk b 0x30 0 32)
  let m := s.caddyModels.find (blk b 0x34 0 8)
  let rb := (m.map (·.rb)).getD 0
  -- a page's tokens; a model that is not registered faults before they matter
  let pt := 2 ^ (m.map (·.ptl)).getD 2
  let rows := (nt - 1) * dstr + rb
  let own (off : Nat) : DWord := BitVec.ofNat 64 (8 * 2 ^ 60 + off)
  { slot := none
    unused := blk b 0x00 16 16 != 0 || blk b 0x00 2 6 != 0 || parts == 0 || blk b 0x34 8 24 != 0 || dwordAt b 0x38 != 0
    limit := decide (nt = 0 ∨ 4096 < nt) || [kdst, vdst, dstr].any (fun x => x % 32 != 0) || decide (dstr < rb) || bt.toNat % 4 != 0 ||
      parts == 3 && decide (vdst < kdst + rows)
    crosses := false
    model := m.all fun m => m.layers ≤ blk b 0x00 8 8
    addrs := [(bt, memSels)]
    members := []
    ranges := (bt + BitVec.ofNat 64 (4 * (t0 / pt)), 4 * ((t0 + nt - 1) / pt - t0 / pt + 1), 0x05) ::
      (if parts = 2 then [] else [(own kdst, rows, 0x06)]) ++ if parts = 1 then [] else [(own vdst, rows, 0x06)]
    scales := [] }

/-- R255: `qdual`. The fields of a copy that is not made are judged for alignment too (log 89). -/
def qdualAsks (b : List Byte) : CopyAsks :=
  let ctrl := blk b 0x00
  let src := dwordAt b 0x18
  let (rows, cols, sstr) := (blk b 0x20 0 16, blk b 0x20 16 16, blk b 0x24 0 32)
  let (rdst, cdst, rsoff, csoff) := (blk b 0x2C 0 32, blk b 0x30 0 32, blk b 0x34 0 16, blk b 0x34 16 16)
  let (rstr, cstr) := (blk b 0x38 0 32, blk b 0x3C 0 32)
  let (rowc, colc) := (ctrl 7 1 == 1, ctrl 6 1 == 1)
  let line (n : Nat) : Nat := unitsOf (n * elementBits (ctrl 8 4)) 8
  let own (off : Nat) : DWord := BitVec.ofNat 64 (8 * 2 ^ 60 + off)
  { slot := none
    unused := ctrl 12 20 != 0 || ctrl 0 6 != 0 || !([3, 4, 5, 6].contains (ctrl 8 4))
    limit := decide (rows % 4 ≠ 0 ∨ rows < 4 ∨ 4096 < rows ∨ cols % 4 ≠ 0 ∨ cols < 4 ∨ 4096 < cols ∨ sstr < 4 * cols) ||
      !(rowc || colc) || [rdst, cdst, rstr, cstr, rsoff, csoff].any (fun x => x % 4 != 0) ||
      rowc && decide (rstr < line cols) || colc && decide (cstr < line rows)
    crosses := false
    model := false
    addrs := [(src, memSels)]
    members := []
    ranges := (src, (rows - 1) * sstr + 4 * cols, 0x05) ::
      (if rowc then [(own rdst, (rows - 1) * rstr + line cols, 0x06)] else []) ++
      if colc then [(own cdst, (cols - 1) * cstr + line rows, 0x06)] else []
    scales := (if rowc then [(rsoff, 36 * (rows * unitsOf cols 128))] else []) ++
      if colc then [(csoff, 36 * (cols * unitsOf rows 128))] else [] }

/-- R256: `ldrain`. -/
def ldrainAsks (b : List Byte) : CopyAsks :=
  let posn := blk b 0x18
  { slot := none
    unused := blk b 0x00 24 8 != 0 || blk b 0x00 2 14 != 0 || posn 23 9 != 0 || posn 14 2 != 0 || blk b 0x34 0 32 != 0 || dwordAt b 0x38 != 0
    limit := decide (64 < blk b 0x00 16 8 ∨ 128 < posn 0 8 + 1 ∨ 128 < posn 16 7 + posn 0 8 + 1)
    crosses := false
    model := false
    addrs := []
    members := []
    ranges := []
    scales := [] }

/-- R377: checks 3 to 5 over a record at address a. The operations stand in the order of Table 13-12. -/
def pageRows (s : State) (w : Workgroup) (op : Nat) (b : List Byte) (a : DWord) : List (Bool × Trap) :=
  let arg := blk b 0x04
  let bt := dwordAt b 0x08
  let bar := dwordAt b 0x10
  let node := (wordAt b 0x04).extractLsb' 0 12
  let unusedArg : Bool :=
    match op with
    | 0 => arg 18 14 != 0 || arg 9 6 != 0
    | 1 | 2 => arg 16 16 != 0 || arg 0 15 != 0
    | 3 => false
    | 6 => arg 14 18 != 0
    | _ => arg 0 32 != 0
  let btFault := if op = 3 then addrFault false memSels 1 bt else none
  [(blk b 0x1C 0 32 != 0 || blk b 0x18 12 20 != 0 || op != 3 && bt != 0 || op == 0 && blk b 0x00 0 32 != 0 || unusedArg,
      trapAt .engineParam 0x03 a),
   (misplaced bar 16, trapAt .engineParam 0x09 bar)] ++
  -- the selector and the must-be-zero bits of a `cow`'s block table (07 R126)
  (btFault.map fun t => (true, t)).toList ++
  [(op == 6 && (!s.fabric.populated.contains node || !(s.tenant w.tenant).nodeSet.contains node), trapAt .peerInvalid 0x04 a)]

/-- ENGINE_PARAM with its subcode and address. -/
def engineParam (sub : Nat) (a : DWord) (f : Fibre) (s : State) : Res := fault .engineParam sub a f s

/-- A command in the matrix queue of the current workgroup, with its fibre, its slack and its tick of issue: behind all that
were issued before it, and in one cycle by lane (12 R219). -/
def queued (s : State) (f : Fibre) (op : MOp) (slack : BitVec 12) : State :=
  s.updWg s.cur.wk fun w => { w with
    mq := enterQueue MCmd.iss
      { op := op, own := { wk := s.cur.wk, fid := f.fid, uid := f.uid, pc := f.pc }, iss := s.issueOf w f, slack := slack
        tick := s.tick, started := false, k := 0, psn := false, late := false, lost := 0, stalled := none, failed := false } w.mq
    nextCmd := w.nextCmd + 1 }

/-- The tile that a command of a direct-mode workgroup will write: no fibre has observed it (12 R240). -/
def tileOf (f : Fibre) (s : State) (slot r0 c0 m n : Nat) (bar : DWord) : Tile :=
  { slot := slot, r0 := r0, c0 := c0, m := m, n := n, bar := bar, done := false, seenBy := [], handed := []
    own := { wk := s.cur.wk, fid := f.fid, uid := f.uid, pc := f.pc } }

/-- One more engine command of the fibre is outstanding. -/
def oneMore (f : Fibre) : Fibre := { f with engo := f.engo + 1 }

/-- A command has been issued, and its parameter block was loaded from `a`: that is a load of the fibre (08 R151). -/
def loadedBlock (f : Fibre) (s : State) (a : DWord) (late : Bool) : Fibre := (oneMore f).count s true false [(a, late)] [] true

/-- The slack of a command: its SLK field, or the fibre's where that is 0. -/
def slackOf (f : Fibre) (slk : Word) : BitVec 12 := if slk.toNat % 4096 = 0 then f.slack else slk.extractLsb' 0 12

/-- The matrix words. A full queue holds the word back; a slot at or beyond ACCSLOTS faults ENGINE_PARAM 0x04. -/
def matrixWords : Instr → Option ObjectRule
  | .mma o => some
      -- the scales are sX and the register after it: with X = 0 the second is s1 (R236)
      { use := uUse o.s o.g (.s2 o.p.toNat :: if o.x = 0 then [.s 1] else [.s2 o.x.toNat]) []
        res := fun s w f =>
          let a := f.getS64 o.p.toNat
          if needsToken s w && tokenSel a then some (.wait f s .token)
          else if 16 ≤ w.mq.length then some (.wait f s .held)
          else if w.hdr.accslots ≤ o.k.toNat then some (engineParam 4 a f s)
          else match blockRead s.cur.wk w f s a 64 with
            | .ok h t b _ _ late =>
              let c := mmaCmd t s.cur.wk w b o.k.toNat (pair (h.getS o.x.toNat) (h.getS (o.x.toNat + 1)))
              -- an operand of a peer, or a BAR on 0x0 or 0x9, needs the token (18 R332)
              if needsToken t w && (blk b 0x00 21 3 != 0 || (dwordAt b 0x10 != 0 && tokenSel (dwordAt b 0x10))) then some (.wait h t .token)
              else match firstOf (mmaRows t s.cur.wk w b a) with
                | some x => some (.trap h t x 0)
                | none =>
                  -- row 15
                  match if c.bar = 0 then .ok t else endTarget t s.cur.wk w false 16 16 c.bar with
                  | .error (x, t) => some (.trap h t x 0)
                  | .ok t => some (.done (loadedBlock h t a late) ((queued t h (.mma c) (slackOf h (wordAt b 8))).updWg s.cur.wk fun w =>
                      w.addTile (tileOf h t o.k.toNat c.orgr c.orgc c.m c.n c.bar)))
            | .trap h t x => some (.trap h t x 0)
            | .wait h t => some (.wait h t .held) }
  | .mswap o => some
      { use := uUse o.s o.g [] []
        res := fun s w f =>
          if w.hdr.accslots ≤ o.k.toNat then some (engineParam 4 0 f s)
          else if w.hdr.accm then some (engineParam 0x0A 0 f s)
          else if f.sleep = .woken then some (.done f s)
          else if (w.mq.any fun c => c.own == { wk := s.cur.wk, fid := f.fid, uid := f.uid, pc := f.pc }) || decide (16 ≤ w.mq.length) then
            some (.wait f s .held)
          else some (.wait f (queued s f (.mswap o.k.toNat) f.slack) .held) }
  | .mclr o => some
      { use := uUse o.s o.g [] []
        res := fun s w f =>
          if w.hdr.accslots ≤ o.k.toNat then some (engineParam 4 0 f s)
          else if 16 ≤ w.mq.length then some (.wait f s .held)
          else some (.done (oneMore f) ((queued s f (.mclr o.k.toNat (o.v == 1)) f.slack).updWg s.cur.wk fun w =>
            w.addTile (tileOf f s o.k.toNat 0 0 128 64 0))) }
  | .mflag o => some
      { use := uUse o.s o.g [] [.s o.x.toNat]
        res := fun s w f =>
          if o.t = 0 ∧ w.hdr.accslots ≤ o.k.toNat then some (engineParam 4 0 f s)
          else if (f.bound o.x.toNat).isSome then
            -- the word waits for the value that its out port takes
            if f.sleep = .woken then some (.done f s)
            else if (w.mq.any fun c => c.own == { wk := s.cur.wk, fid := f.fid, uid := f.uid, pc := f.pc }) || decide (16 ≤ w.mq.length) then
              some (.wait f s .held)
            else some (.wait (oneMore f) (queued s f (.mflag o.x.toNat o.k.toNat (o.c == 1) (o.t == 1) (o.w == 1)) f.slack) .held)
          else if 16 ≤ w.mq.length then some (.wait f s .held)
          else some (.done (if o.x = 0 then oneMore f else { oneMore f with busy := f.busy ++ [o.x.toNat] })
            (queued s f (.mflag o.x.toNat o.k.toNat (o.c == 1) (o.t == 1) (o.w == 1)) f.slack)) }
  | _ => none

/-- The head of a workgroup's matrix queue, when the engine of its core is free and its arbiter grants it, after the
round has been counted (07 R140; 12 R220). -/
def granted (s : State) (wk : Nat) : Option (Workgroup × MCmd × State) := do
  let w ← s.wg wk
  guard ((s.core w.core).mrun == none)
  let b ← grantOf (s.core w.core).nonbg (s.mBids w.core)
  guard (b.key == wk)
  let c ← w.mq.head?
  pure (w, c, s.mRound w.core (s.mBids w.core) b)

/-- The running product of a workgroup. -/
def runningOf (s : State) (wk : Nat) : Option (Workgroup × MCmd × MmaCmd) := do
  let w ← s.wg wk
  guard ((s.core w.core).mrun == some wk)
  let c ← w.mq.head?
  let .mma m := c.op | none
  pure (w, c, m)

/-- R233: the k at which a product next arbitrates, or its end. -/
def nextStop (m : MmaCmd) (k : Nat) : Nat := if m.split = 0 then m.k else min m.k ((k / m.split + 1) * m.split)

/-- The command stalls with a record of KIND 2, and the engine is free (13 R376). -/
def stalledAt (wk core : Nat) (c : MCmd) (x : Trap) (t : State) : State :=
  ((t.setHead wk { c with stalled := some x.addr, failed := false }).setRun core none).engineRecord c.own 2 0 x false

/-- A command that is done: out of its queue and of ENGO, its tile final, the engine free. -/
def leaves (wk core : Nat) (c : MCmd) (m : MmaCmd) (t : State) : State :=
  (((t.popHead wk).updWg wk fun w => { w with tiles := tileDone m.slot c.own m.bar w.tiles }).setRun core none).engoDone c.own

/-- The steps of the matrix engine. -/
def matrixSteps : StepTable
  | .mmaStart wk, s => do
    let (w, c, s1) ← granted s wk
    match c.op with
    | .mma m =>
      guard (!c.started)
      -- the product starts: its bank takes its scales and, where asked, zeroes its tile; the engine is its
      pure fun t => ∃ v, t.wg wk = some v ∧ (t.core w.core).mrun = some wk ∧
        (∃ c', v.mq = c' :: w.mq.tail ∧ c'.op = c.op ∧ c'.started = true ∧ c'.k = c.k) ∧
        v.acc = w.acc.modify m.slot fun x => { x with work := m.prepare x.work }
    | .mswap slot =>
      guard (!s1.draining wk w slot c.iss)
      -- the banks change places and the fibre goes on
      pure fun t => ∃ v, t.wg wk = some v ∧ v.mq = w.mq.tail ∧
        v.acc = (w.acc.modify slot fun x => { work := x.vis, vis := x.work }) ∧
        ∀ f, s.ownerFibre c.own = some f → v.fibres = w.fibres.put f.fid { f with sleep := .woken }
    | .mclr slot vis =>
      guard (!(vis && !w.hdr.accm && s1.draining wk w slot c.iss))
      -- the bank is zero, its flags are clear
      pure fun t => ∃ v, t.wg wk = some v ∧ v.mq = w.mq.tail ∧
        v.acc = w.acc.modify slot fun x =>
          if vis = true ∧ w.hdr.accm = false then { x with vis := { x.vis with el := [], flags := 0, psn := false } }
          else { x with work := { x.work with el := [], flags := 0, psn := false } }
    | .mflag d slot clr stk wb =>
      -- sX gets the flags; they are cleared where asked
      pure fun t => t =
        (((s1.putWg wk (w.readFlags slot clr stk wb).2).popHead wk).deliverS c.own d (w.readFlags slot clr stk wb).1).engoDone c.own
  | .mmaGranule wk, s => do
    let (w, c, m) ← runningOf s wk
    guard (nextStop m c.k < m.k)
    match runSteps s wk w m c.k (nextStop m c.k) c.failed with
    | .error (x, t) => pure (becomes (stalledAt wk w.core c x t))
    | .ok (psn, t) => pure (becomes ((t.setHead wk { c with k := nextStop m c.k, psn := c.psn || psn, failed := false, stalled := none, tick := t.tick }).setRun w.core none))
  | .mmaCompletion wk, s => do
    let (w, c, m) ← runningOf s wk
    guard (m.k ≤ nextStop m c.k)
    match runSteps s wk w m c.k m.k c.failed with
    | .error (x, t) => pure (becomes (stalledAt wk w.core c x t))
    | .ok (psn, t) =>
      -- a stall that firmware declared unresolved was the addition's only when no step was left
      let c' := { c with k := m.k, psn := c.psn || psn, failed := false, stalled := if c.k = m.k then c.stalled else none }
      let t := t.setHead wk c'
      pure (becomes (
        if m.bar = 0 ∨ w.dead = true then leaves wk w.core c' m t
        -- the addition waits for the fabric stores that the fibre issued before the command (08 R158)
        else if t.fabric.storesBefore c'.own c'.iss then t
        else match c'.stalled with
          -- no translation for the object, as firmware has declared: a record of KIND 6 and no addition
          | some a => leaves wk w.core c' m (t.engineRecord c'.own 6 0 { code := .translation, sub := 1, addr := a, replay := true } true)
          -- the bytes of the tile are added, with LATE, and with ERR for a poisoned product (08 Table 8-3)
          | none => match t.engAdd wk w m.bar (4 * (m.m * m.n)) (if c'.late then (if c'.psn then 3 else 1) else if c'.psn then 2 else 0) with
            | .ok t => leaves wk w.core c' m t
            | .error (x, t) =>
              if x.replay then stalledAt wk w.core c' x t else leaves wk w.core c' m (t.engineRecord c'.own 6 0 x true)))
  | _, _ => none

/-! ## The copy engine (13 R241 to R256) -/

/-- A copy-engine word with its channel: past its checks the command stands in the channel, in issue
order. -/
def copyRule (u : Use) (p : BitVec 6) (chan : Nat) (slot : Option Nat)
    (mk : Fibre → State → List Byte → CopyOp × CopyAsks × Bool) : ObjectRule :=
  { use := u
    res := fun s w f =>
      let a := f.getS64 p.toNat
      if needsToken s w && tokenSel a then some (.wait f s .token)
      else if 32 ≤ (vget (s.core w.core).chans chan []).length then some (.wait f s .held)
      else if slot.any fun k => w.hdr.accslots ≤ k then some (engineParam 4 a f s)
      else match blockRead s.cur.wk w f s a 64 with
        | .ok h t b _ _ late =>
          let (op, asks, token) := mk h t b
          let bar := dwordAt b 0x08
          let crec := dwordAt b 0x10
          if needsToken t w && (token || (bar != 0 && tokenSel bar) || (crec != 0 && tokenSel crec)) then some (.wait h t .token)
          else match firstOf (copyRows t s.cur.wk w asks b slot.isSome a) with
            | some x => some (.trap h t x 0)
            | none =>
              let target (n align : Nat) (win : Bool) (c : DWord) (t : State) : Except (Trap × State) State :=
                if c = 0 then .ok t else endTarget t s.cur.wk w win align n c
              -- row 14
              match (target 16 16 false bar t).bind (target (if slot.isSome then 544 else 32) 32 true crec) with
              | .error (x, t) => some (.trap h t x 0)
              | .ok t =>
                let x := t.core w.core
                some (.done (loadedBlock h t a late) ((t.putCore w.core { x with chans := vset x.chans chan (enterQueue CCmd.iss
                  { op := op, own := { wk := s.cur.wk, fid := h.fid, uid := h.uid, pc := h.pc }, chan := chan, iss := t.issueOf w h
                    slack := slackOf h (wordAt b 4), tick := t.tick, bar := bar, crec := crec, started := false, done := 0, ahead := []
                    flags := 0, code := 0, aux := 0, late := false, lostRounds := 0, stage := 0, lost := false, stalled := none
                    failed := false, fab := none, hold := none, blind := w.blindTiles h.uid, data := [] } (vget x.chans chan [])) }).updWg
                  s.cur.wk fun w => { w with nextCmd := w.nextCmd + 1 }))
        | .trap h t x => some (.trap h t x 0)
        | .wait h t => some (.wait h t .held) }

/-- The copy-engine words. -/
def copyWords : Instr → Option ObjectRule
  | .cpy o => some (copyRule (uUse o.s o.g [.s2 o.p.toNat] []) o.p o.k.toNat none fun _ _ b =>
      (cpyOp none b, cpyAsks none b, (cpyAsks none b).addrs.any fun e => tokenSel e.1))
  | .cpyMc o => some (copyRule (uUse o.s o.g [.s2 o.p.toNat, .s o.x.toNat] []) o.p o.k.toNat none fun f _ b =>
      let x := cpyAsks (some (f.getS o.x.toNat)) b
      (cpyOp (some (f.getS o.x.toNat)) b, x, !x.members.isEmpty || x.addrs.any fun e => tokenSel e.1))
  | .cpyr o => some (copyRule (uUse o.s o.g [.s2 o.p.toNat] []) o.p o.k.toNat none fun _ _ b => (cpyrOp b, cpyrAsks b, true))
  | .gath o => some (copyRule (uUse o.s o.g [.s2 o.p.toNat] []) o.p o.k.toNat none fun _ s b => (gathOp b, gathAsks s b, true))
  | .qdual o => some (copyRule (uUse o.s o.g [.s2 o.p.toNat] []) o.p o.k.toNat none fun _ _ b =>
      (qdualOp b, qdualAsks b, tokenSel (dwordAt b 0x18)))
  | .ldrain o => some (copyRule (uUse o.s o.g [.s2 o.p.toNat] []) o.p o.h.toNat (some o.k.toNat) fun _ _ b =>
      (ldrainOp o.k.toNat b, ldrainAsks b, false))
  | _ => none

/-- The command has a granule before the end of its stream. -/
def splits (c : CCmd) (s : State) : Bool := c.stage == 0 && !c.failed && (c.granule.any fun g => decide (g < c.end_ s))

/-- The channel afterwards: the command's head gone when it has ended (stage 3), else in its new state. -/
def headAfter (q : List CCmd) (c : CCmd) : List CCmd := if c.stage = 3 then q.tail else c :: q.tail

/-- The steps of the copy engine: for the head of a channel that its arbiter grants (07 R140, R141), with the state after the
round. -/
def copySteps : StepTable
  | .copyGranule core ch, s => do
    let (c, t) ← s.granted core ch
    guard (splits c s)
    let r := runGranule c t
    match r.out with
    | .going | .wait => pure fun u => u.chan core ch = headAfter (r.s.chan core ch) { r.c with tick := t.tick } ∧ u.mem = r.s.mem
    -- a stream that ends or stalls before its granule is the business of the two steps below
    | .fin | .trap _ => pure (becomes s)
  | .copyCommandEnd core ch, s => do
    let (c, t) ← s.granted core ch
    if splits c s then
      -- its stream ended with a code before the granule: its record and its addition follow
      let r := runGranule c t
      let z := runEnd { r.c with stage := 1 } r.s
      if r.out = .fin ∧ z.out = .fin then pure fun u => u.chan core ch = headAfter (z.s.chan core ch) z.c ∧ u.mem = z.s.mem
      else pure (becomes s)
    else
      -- a reduction stands at its slice from here on (R252)
      let r := runHead c t core ch
      (match r.1.out with
        | .fin | .wait | .going => pure fun u => u.mem = r.2.mem ∧
            u.chan core ch = if c.isCpyr then r.2.chan core ch else headAfter ((runEnd c t).s.chan core ch) (runEnd c t).c
        | .trap _ => pure (becomes s))
  | .engineTranslationStall core ch, s => do
    let (c, t) ← s.granted core ch
    let q := runGranule c t
    let r := if splits c s then (if q.out = .fin then runEnd { q.c with stage := 1 } q.s else q) else (runHead c t core ch).1
    match r.out with
    -- what it had done stands, and a record of KIND 2 goes to the fault queue
    | .trap x => pure (becomes ((r.s.setHeadC core ch { r.c with stalled := some x.addr, failed := false }).engineRecord r.c.own 2 ch x false))
    | .fin | .wait | .going => pure (becomes s)
  | .cpyrApply n, s => do
    let c ← s.slices.find n
    guard (c.stalled == none || c.failed)
    guard (c.fab.all fun x => x.reply.isSome)
    let w ← s.wg c.own.wk
    guard (!w.dead)
    let r := sliceRun c s w
    match r.out with
    -- the command leaves its slice and ENGO
    | .fin => pure (becomes ({ r.s with slices := r.s.slices.del n }.engoDone c.own))
    -- a fault stalls it there, with a record of KIND 2
    | .trap x => pure (becomes (({ r.s with slices := r.s.slices.put n { r.c with stalled := some x.addr, failed := false } }).engineRecord
        c.own 2 c.chan x false))
    -- its turn has not come, or a packet of it is on its way
    | .wait | .going => pure (becomes (if r.c.fab = none then s else { r.s with slices := r.s.slices.put n r.c }))
  | _, _ => none

/-- R243, R245, R249: the granted head of a channel is a started fill of n bytes of scale memory with the word V, from a
granule boundary of the destination on. Its next granule is written, or, within 4 KiB of its end, its rest, and the command
leaves its channel and ENGO. -/
def FillsScaleMemory : Prop :=
  ∀ (s s0 : State) (core ch : Nat) (c : CCmd) (w : Workgroup) (v dst : DWord) (n : Nat),
    s.granted core ch = some (c, s0) → s.wg c.own.wk = some w → c.op = .cpy none 1 2 0 false false 0 v dst n 1 1 0 0 0 0 →
    c.started = true → c.stage = 0 → c.failed = false → c.code = 0 → c.fab = none → c.hold = none → c.ahead = [] →
    dst.toNat % 4096 = 0 → c.done % 4096 = 0 → c.done < n →
      let fills (k : Nat) : Workgroup := { w with
        scale := cellWrite w.scale (dst + BitVec.ofNat 64 c.done).toNat
          ((List.range k).map fun i => ((leBytes 4 (loWord v).toNat)[(c.done + i) % 4]?).getD 0)
        wp := vset w.wp c.chan (vget w.wp c.chan 0 + BitVec.ofNat 32 k) }
      (c.done + 4096 < n → ∃ t c1, exec (.copyGranule core ch) s = .next t ∧ t.mem = s.mem ∧
        t.chan core ch = c1 :: (s.chan core ch).tail ∧ t.wg c.own.wk = some (fills 4096) ∧
        -- but for its progress, its slack has aged while it waited for the grant (07 R139)
        { c1 with slack := c.slack, tick := c.tick, lostRounds := c.lostRounds } = { c with done := c.done + 4096 }) ∧
      (n ≤ c.done + 4096 → c.bar = 0 → c.crec = 0 → ∃ t, exec (.copyCommandEnd core ch) s = .next t ∧ t.mem = s.mem ∧
        t.chan core ch = (s.chan core ch).tail ∧
        ∃ x, t.wg c.own.wk = some x ∧ x.scale = (fills (n - c.done)).scale ∧ x.wp = (fills (n - c.done)).wp ∧
          ∀ f, s.ownerFibre c.own = some f → x.fibres = w.fibres.put f.fid { f with engo := f.engo - 1 })

/-- R246: a copy from global memory whose next piece meets a replayable fault stalls its channel, with a record of
KIND 2. -/
def StallsAtFault : Prop :=
  ∀ (s s0 : State) (core ch : Nat) (c : CCmd) (w : Workgroup) (src dst : DWord) (n : Nat) (u : State) (x : Trap),
    s.granted core ch = some (c, s0) → s0.wg c.own.wk = some w → c.op = .cpy none 0 0 0 false false 0 src dst n 1 1 0 0 0 0 →
    c.started = true → c.stage = 0 → c.failed = false → c.fab = none → c.ahead = [] →
    src.toNat % 4096 = 0 → dst.toNat % 4096 = 0 → c.done % 4096 = 0 → c.done < n → n ≤ c.done + 4096 →
    windowAt c s0 w (src + BitVec.ofNat 64 c.done) = none →
    s0.engRead w (engPlace s0 c.own.wk w (src + BitVec.ofNat 64 c.done)) (n - c.done) (src + BitVec.ofNat 64 c.done) =
      ([], u, some x) →
    x.replay = true →
      exec (.engineTranslationStall core ch) s =
        .next ((u.setHeadC core ch { (c.begin s0).1 with stalled := some x.addr, failed := false }).engineRecord c.own 2 ch x false)

/-- R252: a reduction at its slice whose sequence number has been passed ends with code SEQ, and leaves the slice
and ENGO: no data is written. -/
def PassedReductionEnds : Prop :=
  ∀ (s u : State) (n : Nat) (c : CCmd) (w : Workgroup) (rop len : Nat) (src dst seqw : DWord) (seq cur : Word) (b : List MByte),
    s.slices.find n = some c → s.wg c.own.wk = some w → w.dead = false → c.op = .cpyr rop src dst len seq seqw →
    c.started = true → c.stage = 0 → c.failed = false → c.stalled = none → c.fab = none → c.bar = 0 → c.crec = 0 →
    s.windowOf w.tenant (seqw.toNat % 2 ^ 56) = none →
    s.engRead w (engPlace s c.own.wk w seqw) 4 seqw = (b, u, none) → b.all (fun x => !x.2) = true → wordAt (b.map (·.1)) 0 = cur →
    cur ≠ seq → 2 ^ 31 ≤ (seq - cur).toNat →
      exec (.cpyrApply n) s = .next (({ u with slices := u.slices.del n }).engoDone c.own)

/-- Every step of the copy engine completes in every state: where its head cannot take it, nothing changes. -/
def CopyStepsComplete : Prop :=
  ∀ (core ch n : Nat) (s : State),
    (∃ t, exec (.copyGranule core ch) s = .next t) ∧ (∃ t, exec (.copyCommandEnd core ch) s = .next t) ∧
    (∃ t, exec (.engineTranslationStall core ch) s = .next t) ∧ (∃ t, exec (.cpyrApply n) s = .next t) ∧
    (s.runnable core ch = none → exec (.copyGranule core ch) s = .next s ∧ exec (.copyCommandEnd core ch) s = .next s ∧
      exec (.engineTranslationStall core ch) s = .next s) ∧
    (s.slices.find n = none → exec (.cpyrApply n) s = .next s)

/-! ## Page operations (13 R257 to R260, R377) -/

/-- A `pgop` word: its record is read and checked, and the operation arrives at the Caddy of its die; the fibre has one
more engine command outstanding, and the pair sX is owed to it. -/
def pageRule (o : SGPX) (op : Nat) : ObjectRule :=
  { use := (uUse o.s o.g [.s2 o.p.toNat] (if o.x = 0 then [] else [.s2 o.x.toNat])).syncing
    res := fun s w f =>
      let a := f.getS64 o.p.toNat
      if needsToken s w then some (.wait f s .token)
      else match blockRead s.cur.wk w f s a 32 with
        | .trap h t x => some (.trap h t x 0)
        | .wait h t => some (.wait h t .held)
        | .ok h t b _ _ late =>
          match firstOf (pageRows t w op b a) with
          | some x => some (.trap h t x 0)
          | none =>
            -- the bounds, peer, translation and permission of BAR
            match if dwordAt b 0x10 = 0 then .ok t else endTarget t s.cur.wk w false 16 16 (dwordAt b 0x10) with
            | .error (x, t) => some (.trap h t x 0)
            | .ok t => do
            let g := { loadedBlock h t a late with
              busy := if o.x = 0 then h.busy else h.busy ++ [o.x.toNat, o.x.toNat + 1] }
            let t := (t.putFibre s.cur.wk g).submitPage (if op = 0 then (wordAt b 4).toNat / 65536 % 4 else (wordAt b 0).toNat / 2 ^ 30)
              { op := op, page := wordAt b 0, arg := wordAt b 4, bt := dwordAt b 8, bar := dwordAt b 0x10
                slack := slackOf h (wordAt b 0x18), tick := t.tick, late := false, dst := o.x.toNat, tenant := w.tenant
                own := some { wk := s.cur.wk, fid := h.fid, uid := h.uid, pc := h.pc } }
            let v ← t.wg s.cur.wk
            let g ← v.fibres.find h.fid
            pure (.done g t) }

/-- The `pgop` words. -/
def pageWords : Instr → Option ObjectRule
  | .pgopAlloc o => some (pageRule o 0)
  | .pgopRef o => some (pageRule o 1)
  | .pgopUnref o => some (pageRule o 2)
  | .pgopCow o => some (pageRule o 3)
  | .pgopEvict o => some (pageRule o 4)
  | .pgopPromote o => some (pageRule o 5)
  | .pgopSend o => some (pageRule o 6)
  | _ => none

/-- Kettle's models look at their plans again when pages of a die have become free (14 R269). -/
def withRoom (s t : State) (die : Nat) : State :=
  if (s.caddyOf die).freePages < (t.caddyOf die).freePages then t.wakeModels else t

/-- The steps of Caddy: a move whose data can be copied ends as its kind says, one that meets a replayable fault stalls, and
one whose data cannot be moved ends as lost; pages leave HBM4 below the low watermark. -/
def caddySteps : StepTable
  | .caddyDataMoveDone die n, s => do
    let m ← (s.caddyOf die).moves[n]?
    guard (m.stalled == none && !m.moved && !m.failed)
    let d ← s.desc die m.page
    guard (m.complete (s.pageParts d.model))
    pure (becomes (withRoom s (match moveData s die m d with
      | .ok t => afterData t die n m
      | .error (x, t) =>
        if x.replay then t.stallMove die n m x else afterData (t.lostMove m x) die n { m with lost := true }) die))
  | .automaticEviction die, s => do
    let x := s.caddyOf die
    guard (decide (x.freeHbm < x.low))
    pure (becomes (withRoom s ((evictSome die x.descs.length s).serveCaddy die) die))
  | _, _ => none

/-! ## Sequences and sampling (14 R273 to R284) -/

/-- A Kettle word without memory: the checks of R273 on the launch and the slot number, then its own part. -/
def slotRule (u : Use) (x : BitVec 6) (go : KModel → Nat → Fibre → State → Fibre × State) : ObjectRule :=
  { use := u
    res := fun s w f =>
      if needsToken s w then some (.wait f s .token)
      else
        let n := (f.getS x.toNat).toNat
        match kettleOf s w with
        | none => some (engineParam 0x10 0 f s)
        | some (model, m, _) =>
          if 16384 ≤ n ∨ (s.kslots.find n).any (fun k => k.model != model) then some (engineParam 0x10 0 f s)
          else some (.done (go m n f s).1 (go m n f s).2) }

/-- A slot holds a running sequence. -/
def running (k : KSlot) : Bool := k.state == .prefill || k.state == .decode

/-- The words of a sequence. -/
def sequenceWords : Instr → Option ObjectRule
  | .tokdlv o => some (slotRule (uUse o.s o.g [.s2 o.x.toNat] [.s2 o.x.toNat]) o.x fun m n f s =>
      let c := commit s m n (f.getS (o.x.toNat + 1))
      let g := f.putS64 o.x.toNat (pair (BitVec.ofNat 32 c.status) (BitVec.ofNat 32 c.reason))
      (match c.fault with
       | none => g
       | some a => { g with imprecise := g.imprecise ++ [{ code := .delivery, pc := f.pc, addr := a }] }, c.s))
  | .seqstop o => some (slotRule (uUse o.s o.g [.s o.x.toNat] [.s2 o.x.toNat]) o.x fun _ n f s =>
      match (s.kslots.find n).filter fun k => running k || k.state == .deliveryWait with
      | some k => (f.putS o.x.toNat 0, s.setSlot n { k with soft := some o.k.toNat })
      | none => (f.putS o.x.toNat 2, s))
  | .repW o => some (slotRule (uUse o.s o.g [.s o.x.toNat] [.s2 o.x.toNat]) o.x fun _ n f s =>
      match s.kslots.find n with
      | none => (f.putS64 o.x.toNat 0, s)
      | some k =>
        -- `rep.clr` empties the detector, which then skips to the next aligned window
        let d := if o.c = 1 then { k.det with
            window := [], hist := [], run := 0, last := 0
            skip := if k.repW = 0 then 0 else (k.repW - k.g % k.repW) % k.repW } else k.det
        (f.putS64 o.x.toNat (pair (BitVec.ofNat 32 d.run) d.last), s.setSlot n { k with det := d }))
  | .seqnext o => some
      { use := uUse o.s o.g [.s2 o.p.toNat, .s o.x.toNat] [.s2 o.x.toNat]
        res := fun s w f =>
          let a := f.getS64 o.p.toNat
          if needsToken s w then some (.wait f s .token)
          else match kettleOf s w with
            | none => some (engineParam 0x10 0 f s)
            | some (_, m, _) =>
              let p := planBuffer m (f.getS o.x.toNat)
              match plainStore s.cur.wk w f s [0x0, 0x8] 16 16 17 p.2 a with
              | .trap h t x => some (.trap h t x 0)
              | .wait h t => some (.wait h t .held)
              | .ok h t _ _ tags late => some (.done
                  ((h.putS64 o.x.toNat (pair (BitVec.ofNat 32 p.1) m.iter)).count t false true [(a, late)] tags true) t) }
  | .rng o => some
      { use := uUse o.s o.g [.s2 o.p.toNat, .s o.x.toNat] [.s2 o.x.toNat]
        res := fun s w f =>
          let a := f.getS64 o.p.toNat
          if needsToken s w then some (.wait f s .token)
          else match plainLoad s.cur.wk w f s [0x0, 0x8, 0x9] 16 16 1 a with
            | .trap h t x => some (.trap h t x 0)
            | .wait h t => some (.wait h t .held)
            | .ok h t b _ tags late =>
              let r := philox (dwordAt b 0) (wordAt b 8) (wordAt b 12) (f.getS o.x.toNat)
              some (.done ((h.putS64 o.x.toNat (if o.h = 1 then pair r.w2 r.w3 else pair r.w0 r.w1)).count t true false [(a, late)] tags true) t) }
  | .samp o => some
      { use := uUse o.s o.g [.s2 o.p.toNat, .s2 o.x.toNat] [.s2 o.x.toNat]
        res := fun s w f =>
          let a := f.getS64 o.p.toNat
          if needsToken s w then some (.wait f s .token)
          else match plainLoad s.cur.wk w f s [0x0, 0x8, 0x9, 0xA, 0xB] 32 32 17 a with
            | .trap h t x => some (.trap h t x 0)
            | .wait h t => some (.wait h t .held)
            | .ok h t b _ tags late =>
              let r := match (t.kslots.find (f.getS o.x.toNat).toNat).filter running with
                | some k => sampleOf k (DrainRec.read b) (f.getS (o.x.toNat + 1))
                | none => (0xFFFFFFFF, 2)
              some (.done ((h.putS64 o.x.toNat (pair r.1 r.2)).count t true false [(a, late)] tags true) t) }
  | _ => none

/-! ## Tree registers (14 R287, R288) -/

/-- The checks of a tree word: another workgroup's register, then a node of 64 or more. -/
def treeChecks (t : TreeReg) (s : State) (f : Fibre) (node : Nat) (r : Res) : Res :=
  if t.holder ≠ none ∧ t.holder ≠ some s.cur.wk then fault .queueState 0x30 0 f s
  else if 64 ≤ node then fault .reservedField 9 0 f s
  else r

/-- The tree words. -/
def treeWords : Instr → Option WordRule
  | .tset o => some
      { use := uUse o.s o.g (.s o.a.toNat :: opB o.i o.b) []
        res := fun s w _ f =>
          let n := (f.getS o.a.toNat).toNat
          let par := (f.uB o.i o.b).toNat
          let t := s.treeReg w o.n.toNat
          treeChecks t s f n (
            if n ≠ 0 ∧ (n ≤ par ∨ t.nodes.find par = none) then fault .reservedField 0x0A 0 f s
            else .done f (s.setTree w o.n.toNat
              { holder := some s.cur.wk, nodes := t.nodes.put n (if n = 0 then 0 else par) })) }
  | .tanc o => some
      { use := uUse o.s o.g [.s o.a.toNat] [.s2 o.d.toNat]
        res := fun s w _ f =>
          let n := (f.getS o.a.toNat).toNat
          let t := s.treeReg w o.n.toNat
          treeChecks t s f n (.done (f.putS64 o.d.toNat (chainMask (t.chain 64 n))) s) }
  | .tdepth o => some
      { use := uUse o.s o.g [.s o.a.toNat] [.s o.d.toNat]
        res := fun s w _ f =>
          let n := (f.getS o.a.toNat).toNat
          let t := s.treeReg w o.n.toNat
          treeChecks t s f n (.done (f.putS o.d.toNat
            (if t.nodes.find n = none then 0xFFFFFFFF else BitVec.ofNat 32 ((t.chain 64 n).length - 1))) s) }
  | .tclr o => some
      { use := uUse o.s o.g [] []
        res := fun s w _ f => treeChecks (s.treeReg w o.n.toNat) s f 0
          (.done f (s.setTree w o.n.toNat { holder := some s.cur.wk, nodes := [] })) }
  | _ => none

/-! ## Launches (09 R194; 17 R301; 14 R269) -/

/-- `post`: the card is launched on this cluster or a neighbour of it. -/
def postWords : Instr → Option WordRule
  | .post o => some
      { use := (uUse o.s o.g (.s2 o.a.toNat :: opB o.i o.b ++ (if o.d = 0 then [] else [.s2 o.d.toNat])) []).syncing
        res := fun s w _ f =>
          let a := f.getS64 o.a.toNat
          let q := (f.uB o.i o.b).toNat
          let cl := w.core / 8
          let cl := cl / 16 * 16 + (if q = 0 then cl % 16 else if q = 1 then (cl % 16 + 1) % 16 else (cl % 16 + 15) % 16)
          let d := if o.d = 0 then 0 else f.getS64 o.d.toNat
          if needsToken s w then .wait f s .token
          else if 3 ≤ q then fault .reservedField 8 0 f s
          else if a.toNat % 128 ≠ 0 then fault .misalign 0 a f s
          else if s.fw.hold || decide (64 ≤ (s.pending.getD (0x40 + cl) []).length) then .wait f s .held
          else .done f (s.accept
            { qid := 0x40 + cl, tenant := w.tenant, card := a, gridx := (loWord d).toNat, gridy := (hiWord d).toNat
              gx := none, posted := some cl, kettle := none, slack := none, preds := none }).2 }
  | _ => none

/-! ## Samovar (21 R363, R364) -/

/-- The core that `State.cur` names takes an exception: mcause, mepc, M mode, mtvec, and MPIE and MPP of mstatus; what mtval
holds of the address is the implementation's (log 9). The entry that it slept in is given up. -/
def samTrap (s : State) (cause : Nat) (info : DWord) : State :=
  let k := s.cur.sam
  let c := s.samCore k
  (s.freeSleep k c).putSam k { c with
    mcause := BitVec.ofNat 64 cause, mepc := c.pc, mtval := Config.samTval cause info, pc := c.mtvec &&& 0xFFFFFFFFFFFFFFFC
    mstatus := (if c.mstatus.getLsbD 3 then 0x80 else 0) ||| (if c.userMode then 0 else 0x1800)
    userMode := false, sleep := .running }

/-- The core retires the word with a result for rd; a write of x0 is discarded. -/
def samDone (s t : State) (o : TSD) (v : DWord) : State :=
  let k := s.cur.sam
  let c := s.samCore k
  t.putSam k { c with x := if o.d = 0 then c.x else vset c.x o.d.toNat v, pc := c.pc + 4, sleep := .running }

/-- A register of the core; x0 reads zero. -/
def samReg (s : State) (r : BitVec 5) : DWord := if r = 0 then 0 else vget (s.samCore s.cur.sam).x r.toNat 0

/-- The four Samovar words, for a core that is there. -/
def samovarSteps : StepTable
  | .bfext o, s => do
    guard (decide (s.cur.sam < 4))
    let y := (samReg s o.t).toNat
    pure (becomes (samDone s s o (BitVec.ofNat 64
      ((samReg s o.s).toNat / 2 ^ (y % 64) % 2 ^ min (y / 256 % 64) (64 - y % 64)))))
  | .rgfetch o, s => do
    guard (decide (s.cur.sam < 4))
    let a := samReg s o.s
    if a.toNat % 32 ≠ 0 then pure (becomes (samTrap s 24 a))
    else match s.samRead a 32 with
      | .error n => pure (becomes (samTrap s n a))
      | .ok (d, t) => match ringFetch d (samReg s o.t) t with
        | .error n => pure (becomes (samTrap s n a))
        | .ok (v, t) => pure (becomes (samDone s t o v))
  | .sigwait o, s => do
    guard (decide (s.cur.sam < 4))
    let a := samReg s o.s
    let old := samReg s o.t
    if a.toNat % 8 ≠ 0 then pure (becomes (samTrap s 25 a))
    else match s.samPlace a 8, s.samRead a 8 with
      | none, _ => pure (becomes (samTrap s 5 a))
      | _, .error n => pure (becomes (samTrap s n a))
      | some (.sram off), .ok (b, t) =>
        if dwordAt b 0 = old then pure (becomes (t.putSam s.cur.sam { s.samCore s.cur.sam with sleep := .sram off old }))
        else pure (becomes (samDone s t o (dwordAt b 0)))
      | some (.phys pa), .ok (b, t) =>
        -- a wait on the same word that an interrupt broke off gives up its entry
        let s0 := s.freeSamAt s.cur.sam pa
        let t0 := t.freeSamAt s.cur.sam pa
        -- no entry can be taken: on the host tier, beyond 64, in a full group
        if tierOf pa = .host ∨ 64 ≤ s0.samEntries s.cur.sam then pure (becomes (samTrap s 25 a))
        else match s0.freeGeneral (watchGroup pa) with
          | none => pure (becomes (samTrap s 25 a))
          | some e =>
            if dwordAt b 0 = old then do
              guard (decide ((s.samCore s.cur.sam).sleep = .running))
              pure (becomes ((t0.arm e pa (BitVec.allOnes 64) old 1 (.samovar s.cur.sam)).putSam s.cur.sam
                { s.samCore s.cur.sam with sleep := .sigwait e }))
            else pure (becomes (samDone s t0 o (dwordAt b 0)))
  | .dispatch o, s => do
    guard (decide (s.cur.sam < 4) && !s.fw.hold)
    let y := (samReg s o.t).toNat
    let qid := y % 256
    if s.queueTakes qid = false then pure (becomes (samTrap s 26 (samReg s o.s)))
    else
      let r := s.accept { qid := qid, tenant := y / 256 % 16, card := samReg s o.s, gridx := 0, gridy := 0, gx := none
                          posted := if 0x40 ≤ qid ∧ qid < 0x80 then some (qid - 0x40) else none, kettle := none
                          slack := none, preds := none }
      -- rd gets the launch identifier, or its high half ones and the status of a launch that ended at once
      let st := if (r.2.launch r.1).isSome then 0
        else ((r.2.ended.reverse.find? fun e => e.id == r.1).map (·.status)).getD 0
      pure (becomes (samDone s r.2 o (if st = 0 then BitVec.ofNat 64 r.1 else 0xFFFFFFFF00000000 ||| BitVec.ofNat 64 st)))
  | _, _ => none

/-! ## Kettle and the launch front end (14 R262 to R281; 17 R301) -/

/-- A ring whose TAIL watch has fired holds the TAIL value that the watch saw. -/
def tailSeen (s : State) (who : Waiter) : Option Word := do
  let (_, x) ← s.watchOf who
  guard x.fired
  pure x.word

/-- The steps of Kettle. -/
def kettleSteps : StepTable
  | .submissionTailFire q, s => do
    let r ← s.kqueues.find q
    let v ← tailSeen s (.kettleTail q)
    pure fun t => ∃ polled, t.kqueues = s.kqueues.put q { r with seen := v, polled := polled }
  | .submitRecord q, s => do
    -- the head record of the queue in turn is consumed, and makes a request or is refused
    let (k, turn) ← s.nextRecord
    let r ← s.kqueues.find q
    guard (k == q)
    let (b, s1) ← (headRecord s r).toOption
    guard (recordOp b != 2)
    let s2 := s1.consumed q r turn
    if submitBad s2 r.tenant b then pure (becomes (refuse s2 r.tenant b))
    else pure (becomes (({ s2 with kserial := s2.kserial + 1 }.setSlot (s2.kslots.freeFrom 16384 0)
      (newSlot r.tenant s2.kserial b)).wakeModels))
  | .cancelRecord q, s => do
    let (k, turn) ← s.nextRecord
    let r ← s.kqueues.find q
    guard (k == q)
    let (b, s1) ← (headRecord s r).toOption
    guard (recordOp b == 2 && !ctlBad b)
    let s2 := s1.consumed q r turn
    -- every live request of the function with this TAG is cancelled, no other
    pure fun t => t.kslots = s2.kslots.map fun e =>
      (e.1, if e.2.vf = r.tenant ∧ e.2.tag = wordAt b 4 ∧ e.2.state ≠ .drain then { e.2 with cancel := true } else e.2)
  | .consWatchFire n, s => do
    let (_, x) ← s.watchOf (.kettleCons n)
    let k ← s.kslots.find n
    guard x.fired
    pure fun t => t.kslots = s.kslots.put n { k with consRoom := true } ∧ ∀ m ∈ t.kmodels.vals, m.wake = true
  | .parkLimit n, s => do
    let k ← s.kslots.find n
    let m ← s.kmodels.find k.model
    guard (k.state == .deliveryWait && decide (m.par.parklim ≤ k.parkedFor) && !k.parkEvent)
    pure fun t => t.kslots = s.kslots.put n { k with parkEvent := true } ∧ t.outbox = s.outbox ++ [.parkEvent n k.tag]
  | .pollTimer, s => do
    guard (decide (16 ≤ Config.microsOf (s.cycles - s.lastPoll)))
    pure fun t => t.lastPoll = s.cycles
  | .iterationForm n, s => do
    let m ← s.kmodels.find n
    guard (!m.busy && m.wake)
    let pt := 2 ^ ((s.modelAt n).map (·.ptl)).getD 0
    let s1 := boundary n m pt { s with kmodels := s.kmodels.put n { m with wake := false } }
    let dq := (s1.inOrder n .decode).filter fun e => !e.2.stalled
    let dec := ((s1.kslots.filter fun e => dq.contains e).foldr insertDeadline []).map fun e => planDecode e.1 e.2
    let r := planPrefill m (s1.inOrder n .prefill) (m.par.tb - (dec.map fun p => p.e.ntok).sum) s1
    -- the DECODE sequences come first in deadline order, then the PREFILL chunks that the budget allows
    pure (becomes (if (dec ++ r.1).isEmpty then r.2 else runPlan n m s.tick (dec ++ r.1) r.2))
  | .hostLaunchQueueEntry q, s => do
    guard (!s.fw.hold && s.fw.fullService)
    let s1 := s.refreshHost
    let (k, ptr, turn) ← takeTurn (fun q => ((s1.hostQueues.find q).map (·.hasMore)).getD false) s1.frontPtr s1.frontTurn
    let r ← s1.hostQueues.find q
    guard (k == q)
    let (b, s2) ← (s1.cleanRead r.tenant (BitVec.ofNat 64 (r.base.toNat + 16 * (r.taken.toNat % r.ent))) 16).toOption
    -- HEAD counts on as a release (R301)
    let s3 := s2.agentPutOr r.tenant r.head.toNat (leBytes 4 (r.taken + 1).toNat) .release
    let s4 := { s3 with
      hostQueues := s3.hostQueues.put q { r with taken := r.taken + 1 }, frontPtr := ptr, frontTurn := turn }
    pure (becomes (s4.accept { qid := q, tenant := r.tenant, card := dwordAt b 0, gridx := (wordAt b 8).toNat
                               gridy := (wordAt b 12).toNat, gx := none, posted := none, kettle := none, slack := none
                               preds := none }).2)
  | _, _ => none

/-! ## Placement, context, and teardown (04 R88; 17 R306 to R315; 18 R321 to R336) -/

/-- A member of a unit may not keep the unit from its save. -/
def restingUnit (s : State) (w : Workgroup) : Bool := (s.unitKeys w).all s.mayBeSaved

/-- Launches are dispatched, and units placed, reserved for, and ended. -/
def placementSteps : StepTable
  | .launchDispatch qid, s =>
    let ids := s.pending.getD qid []
    match ids.find? s.predFails with
    -- a failed predecessor cancels with PREDFAIL
    | some id => some (becomes (s.endLaunch id 6))
    | none => do
      let id ← ids.head?
      let l ← s.launch id
      guard (l.preds.all fun p => s.predOf p == .satisfied)
      pure (becomes (({ s with
        pending := s.pending.put qid ids.tail
        launches := s.launches.put id { l with state := .dispatched } }).enqueueUnits id l))
  | .placerRound die, s => do
    -- exits and saves that are due in the cycle come first (R310)
    guard (!(s.candidates die).any (s.mustReserve die) && !s.exitsDue die)
    let (c, cores) ← s.pick die
    guard (!c.e.saved)
    -- member m of the unit is admitted to the m-th core, and the unit has left its queue
    pure (becomes (cores.zipIdx.foldl (fun s x => s.admitMember c.e.launch (c.e.unit * cores.length + x.2) x.1) (s.takeUnit die c)))
  | .headReservation die qid, s => do
    let c ← (s.candidates die).find? fun c => c.qid == qid && s.mustReserve die c
    let cl ← s.reservable die c
    -- the cluster is held for this unit alone (R311)
    let r : Reserved := { qid := qid, launch := c.e.launch, unit := c.e.unit }
    pure fun t => (t.placer die).reserved.find cl = some r ∧
      t = { s with placers := s.placers.put die { s.placer die with reserved := (s.placer die).reserved.put cl r } }
  | .workgroupExit wk, s => do
    let w ← s.wg wk
    guard ((w.run == .resident || w.run == .stopping) && w.fibres.isEmpty && s.drained wk w && !s.namedAsSource wk w &&
      -- exits come before the rounds of their cycle (R310)
      !s.roundsBegun (dieOf w.core))
    pure (becomes (s.exitWg wk w))
  | .timeSliceExpiry launch cluster, s => do
    let l ← s.launch launch
    let units := (s.wgs.vals.filter fun w => w.launch == launch && clusterOf w.core == cluster && w.run == .resident).map (·.unit)
    guard (!units.isEmpty && s.sliceOver l cluster && s.sliceWanted launch cluster l.tenant)
    -- the units of the launch on the cluster are asked to save themselves, whole; the overrun counts from now
    pure fun t =>
      t.wgs = (s.wgs.map fun e => (e.1,
        if e.2.launch = launch ∧ e.2.unit ∈ units ∧ e.2.run = .resident then { e.2 with run := .stopping } else e.2)) ∧
      t.launches = s.launches.put launch
        { l with slices := l.slices.put cluster { start := s.cycles, charge := 0, expired := true, overFrom := some s.cycles } } ∧
      { t with wgs := s.wgs, launches := s.launches } = s
  | _, _ => none

/-- Saves, restores and the moves of the commit token. -/
def contextSteps : StepTable
  | .contextSave wk, s => do
    let w ← s.wg wk
    -- on a unit that runs it is the request of R327: the unit begins to stop (the model's choice, log 73)
    if w.run = .resident then pure (becomes { s with wgs := s.wgs.map fun e => (e.1,
      if e.2.launch = w.launch ∧ e.2.unit = w.unit ∧ e.2.run = .resident then { e.2 with run := .stopping } else e.2) })
    else do
    guard (w.run == .stopping && restingUnit s w && !s.roundsBegun (dieOf w.core))
    let t := (s.unitKeys w).foldl State.saveWg s
    let qid := ((t.launch w.launch).map (·.qid)).getD 0
    pure (becomes (t.setQueue (dieOf w.core) qid (insertSaved { launch := w.launch, unit := w.unit, since := 0, saved := true }
      ((t.placer (dieOf w.core)).inq.getD qid []))))
  | .contextRestore wk, s => do
    let w ← s.wg wk
    let (c, cores) ← s.restorePick wk w
    pure (becomes ((s.savedKeys w.launch w.unit).foldl (fun t k =>
      ((t.wg k).map fun m => t.restoreWg k (cores.getD m.member m.core)).getD t) (s.takeUnit (dieOf w.core) c)))
  | .tokenPass launch, s => do
    let l ← s.launch launch
    let g ← l.token.holder
    let w ← s.wg (wgKey launch g)
    guard (l.hdr.det && w.run == .resident && s.drained (wgKey launch g) w &&
      w.fibres.vals.all fun f => f.sleep.syncWait && !s.wakes (wgKey launch g) w f)
    pure (becomes (s.passToken (wgKey launch g) w w.retired))
  | .tokenReceipt launch, s => do
    let l ← s.launch launch
    let wk := wgKey launch l.token.next
    let w ← s.wg wk
    -- a workgroup without a fibre exits and receives none (log 71)
    guard (l.hdr.det && l.token.holder.isNone && w.run == .resident && !w.fibres.isEmpty &&
      (w.fibres.vals.all fun f => (f.sleep.syncWait && !s.wakes wk w f) || f.sleep == .token) &&
      -- it comes where slot 0 of the rotation does (the model's choice, log 2)
      (match (s.core w.core).det.find w.launch with
        | some t0 => decide ((s.cycles - t0) % 32 = 0)
        | none => true))
    -- P takes what the workgroup has retired and not published; the receipt acquires at pkg scope
    pure (becomes (({ s with
      launches := s.launches.put launch
        { l with token := { l.token with holder := some w.wgid, p := l.token.p + (w.retired - w.published) } }
      wgs := s.wgs.put wk
        { w with published := w.retired, atReceipt := w.fibres.map fun (e : Nat × Fibre) => (e.1, e.2.retc.toNat) } }).acquire w.core 3))
  | .deterministicSave launch, s => do
    let _ ← s.awaited launch
    let rs : List (Nat × Workgroup) := s.wgs.filter fun e => e.2.launch == launch && (e.2.run == .resident || e.2.run == .stopping)
    guard (rs.all fun e => e.2.run == .resident && s.quiescent e.1 e.2)
    let e ← bestBy (fun a b => b.2.wgid < a.2.wgid) rs
    pure fun t =>
      t.wgs = (s.wgs.map fun x => (x.1,
        if x.2.launch = launch ∧ x.2.unit = e.2.unit ∧ x.2.run = .resident then { x.2 with run := .stopping } else x.2)) ∧
      { t with wgs := s.wgs } = s
  | _, _ => none

/-- Teardown, the watchdog, and the end of a resolution limit. -/
def faultSteps : StepTable
  | .unitTeardown wk, s => do
    let w ← s.wg wk
    let ks := s.unitKeys w
    guard ((ks.any fun k => ((s.wg k).map fun m => m.dead).getD false) && ks.all s.atRest)
    let r := tearAll ks s
    let s1 := (r.2.setWgs (r.2.wgs.filter fun e => !ks.contains e.1)).unqueue w.launch w.unit
    let s2 := match r.1 with
      | none => s1
      | some (x, wgid, core) =>
        -- the first fault that asks for it makes the teardown launch-wide
        if ((s1.launch w.launch).map fun (l : Launch) => l.wide.isNone).getD false then
          (s1.updLaunch w.launch fun l => { l with wide := some (x, wgid, core) }).wideTeardown w.launch
            (wideRecord w.launch wgid core x)
        else s1
    pure (becomes ((s2.restSlice w).settleLaunch w.launch))
  | .watchdogExpiry wk, s => do
    let w ← s.wg wk
    let f ← w.firstFibre
    let limit := (s.tenant w.tenant).watchdogMs
    guard (limit != 0 && decide (3600000 * limit < w.residentBefore + (s.cycles - w.residentSince)) &&
      (w.run == .resident || w.run == .stopping) && !f.midWord)
    pure (becomes (s.fatal wk
      { code := .watchdog, sub := 0, strand := 0, impr := true, fid := f.fid, pc := f.pc, addr := 0, rpc := f.pc
        -- in trap mode CAUSE0 tells of the fault that entered the handler (R323)
        cause0 := f.cause0, kind := 0, peer := 0, cycle := s.cycles }))
  | .resolutionLimitExpiry wk fid, s => do
    let (w, f) ← s.parkedFibre wk fid
    guard ((s.tenant w.tenant).resolveLimit != 0)
    pure (becomes (s.raise wk w { f with sleep := .awake }
      { code := .translation, sub := 128 ||| f.parkSub, addr := f.taddr, replay := false } f.rix false f.trappc f.pc))
  | _, _ => none

/-! ## The fabric (20 R341 to R360) -/

/-- The packet has been taken: a port hears it, its personality carries it, with slack and LATE of the Ledun extension on
Ultra Ethernet (R360); it is for this node, no longer than 4,096 bytes, and not seen before. -/
def taken (p : Packet) (s : State) : Option (Packet × State) := do
  guard (!s.dieDown p.ddie.toNat && !(s.fabric.portsUp p.ddie.toNat p.ext.isSome).isEmpty)
  let q ← match p.ext with
    | none => some p
    | some e => if ueOp p.op then (readExt e).map fun x => { p with slack := x.1, late := x.2 } else none
  let t ← (s.recvFab q).1
  pure (q, t)

/-- A step of the target gateway: the partition is served, and its counter is valid; otherwise an error notice. -/
def atTarget (p : Packet) (s : State) (go : Packet → Nat → Option Counter → State → Except (Nat × State) State) :
    Option (State → Prop) := do
  let (p, s1) ← taken p s
  pure (becomes (
    match s1.serving p.part with
    | none => s1.errFab p 0x03
    | some ten =>
      match s1.counterOf p with
      | .error e => s1.errFab p e
      | .ok c =>
        -- a request that fails leaves what its walks have done
        match go p ten c s1 with
        | .error (e, t) => t.errFab p e
        | .ok t => t))

/-- A write at the target, as a store of its kind: all of it or nothing, its counter where it has one, then DONE, AUX bit 0
set for poisoned data. -/
def writeAt (counted : Bool) (kind : StoreKind) (p : Packet) (ten : Nat) (c : Option Counter) (s : State) :
    Except (Nat × State) State := do
  let s1 ← match s.caddyWrite ten p.addr.toNat (payloadBytes p) with
    | .error (t, _) => .error (targetReason t, s.agentWalk ten p.addr.toNat p.payload.length)
    | .ok t => .ok (t.stirVa s ten p.addr.toNat p.payload.length kind)
  let s2 ← if counted then
      match c with
      | some k => orReason (counterAdd s1 ten k p.payload.length)
      | none => .ok s1
    else .ok s1
  .ok (s2.replyFab p 0x07 (if p.badSectors.any id then 1 else 0) [] [])

/-- The request that an answer names is no longer outstanding, and `go` says what follows. -/
def atSource (p : Packet) (s : State) (go : Packet → FabReq → State → State) : Option (State → Prop) := do
  let (p, s1) ← taken p s
  let (q, fb) ← s1.fabric.answer fun q => q.tag % 4294967296 == p.tag.toNat && q.node == p.src
  pure (becomes (go p q (s1.setFabric fb)).serveAll)

/-- The bytes of an answer, with a mark for those of a sector that failed its check; the poison bit alone says it of all. -/
def markedBytes (p : Packet) : List (Byte × Bool) :=
  p.payload.zipIdx.map fun e => (e.1, p.badSectors.getD (e.2 / 32) false || (bit p.aux 0 && p.badSectors.isEmpty))

/-- What an answer brings: its bytes, with their marks where the packet tells of poison (13 R246). -/
def dataOf (p : Packet) : FabReply :=
  if bit p.aux 0 = true ∨ p.badSectors.any id = true then .poisoned (markedBytes p) else .data p.payload

/-- The steps of the fabric. -/
def fabricSteps : StepTable
  | .fabWr p, s => atTarget p s (writeAt true .plain)
  | .fabWrrel p, s => atTarget p s (writeAt false .release)
  | .fabRd p, s => atTarget p s fun p ten _ s => do
      if readLen p < 1 ∨ 4096 < readLen p then .error (0x06, s)
      else
        let (b, s) ← orReason (s.caddyRead ten p.addr.toNat (readLen p))
        .ok (s.replyFab p 0x04 (if b.any (·.2) then 1 else 0) (b.map (·.1)) (sectorMarks b))
  | .fabAt p, s => atTarget p s fun p ten _ s => do
      let a := p.addr.toNat
      if 10 < bitsN p.aux.toNat 28 4 ∨ atomCount p < 1 ∨ 16 < atomCount p ∨ a % 4 ≠ 0 then .error (0x06, s)
      else
        match s.agentPa ten a true with
        | .error t => .error (targetReason t, s.agentWalk ten a 4)
        | .ok pa =>
        let s := s.afterAgent ten a 4
        if tierOf pa = .host then .error (0x05, s)
        else if s.poisoned pa 4 then
          -- a poisoned word is not changed; the value in the answer is free
          .ok ((s.draw Config.freeWord).2.replyFab p 0x06 1 (leBytes 4 (s.draw Config.freeWord).1.toNat) [])
        else
          let r := s.physRead none pa 4
          let old := wordAt r.1 0
          .ok (((r.2.physWrite none pa (leBytes 4 ((atomAcc p).new old).1.toNat)).afterStore s none (none, pa) 4
            .atomic).replyFab p 0x06 0 (leBytes 4 old.toNat) [])
  | .fabPgrd p, s => atTarget p s fun p ten _ s => do
      let off := 32 * bitsN p.addr.toNat 30 26
      match s.desc p.ddie.toNat (pageIndex p) with
      | none => .error (0x05, s)
      | some d =>
        if d.ten ≠ ten ∨ d.refc = 0 ∨ 2 ≤ d.tier ∨ readLen p < 1 ∨ s.pageBytes d.model < off + readLen p then .error (0x05, s)
        else
          let (b, s) ← orReason (s.caddyRead ten (s.frameVa p.ddie.toNat ten d.tier d.loc (s.pageBytes d.model) + off) (readLen p))
          .ok (s.replyFab p 0x04 (if b.any (·.2) then 1 else 0) (b.map (·.1)) (sectorMarks b))
  | .fabPgrel p, s => atTarget p s fun p ten _ s =>
      .ok ((s.unrefPage ten (pageId p.ddie.toNat (pageIndex p)) p.slack p.late).replyFab p 0x07 0 [] [])
  | .fabPgxfer p, s => atTarget p s fun p ten _ s =>
      let part := bitsN p.aux.toNat 0 16
      let (x, s) := (s.fabric.pageIn p).elim (openPageIn p ten s) fun x => (x, s)
      let y : PageIn := { x with got := if x.got.contains part then x.got else x.got ++ [part] }
      let last := decide (bitsN p.aux.toNat 16 16 ≤ y.got.length)
      match storePart p ten x s with
      | .error (t, s) =>
        -- the page that was being filled is given back
        let s := x.page.elim s fun i => (s.updDesc x.die i fun d => { d with moving := false }).unrefPage ten (pageId x.die i) 0xFFF false
        .ok ((s.setFabric (s.fabric.setPageIn { y with page := none } (!last))).errFab p (targetReason t))
      | .ok s =>
        let s := (s.setFabric (s.fabric.setPageIn y (!last))).replyFab p 0x07 (if p.badSectors.any id then 1 else 0) [] []
        -- PGACK, once every part is there, names the page, or 0xFFFFFFFF
        .ok (if !last then s
          else x.page.elim (s.replyFab p 0x0A 0xFFFFFFFF [] []) fun i =>
            ((s.updDesc x.die i fun d => { d with moving := false }).serveCaddy x.die).replyFab p 0x0A (pageId x.die i).toNat [] [])
  | .fabRdrsp p, s => atSource p s fun p q s =>
      match q.owner with
      | .page die page =>
        s.pageBytesIn die page q.tag (markedBytes p)
      | _ => s.deliverFab q p (dataOf p)
  | .fabAtrsp p, s => atSource p s fun p q s => s.deliverFab q p (dataOf p)
  | .fabDone p, s => atSource p s fun p q s => s.deliverFab q p (if bit p.aux 0 then .poisoned [] else .data [])
  | .fabErr p, s => do
    guard (p.dst == s.fabric.own && !s.dieDown p.ddie.toNat && !(s.fabric.portsUp p.ddie.toNat p.ext.isSome).isEmpty)
    let x ← admitPkt p
    -- UET's error completion is TIMEOUT or UNREACHABLE (R360)
    let (reason, s1) := if p.ext.isSome then s.uetReason (bitsN p.aux.toNat 0 8) else (bitsN p.aux.toNat 0 8, s)
    let (q, fb) ← s1.fabric.answer fun q => q.tag % 4294967296 == x.tag.toNat && q.seq == x.seq.toNat
    pure (becomes ((s1.setFabric fb).fabFails q x.late reason))
  | .fabPgack p, s => do
    let (p, s1) ← taken p s
    let (die, page, t) ← (List.range 4).findSome? fun die =>
      (s1.caddyOf die).moves.findSome? fun m =>
        match m.kind with
        | .send node _ (some t) _ => if t % 4294967296 = p.tag.toNat ∧ node = p.src then some (die, m.page, t) else none
        | _ => none
    pure (becomes ((s1.pageAck die page t p.aux).serveAll))
  | .custodyAck n, s => some (becomes { s with fabric := { s.fabric with custody := s.fabric.custody.del n } })
  | .custodyResend n, s => do
    let c ← s.fabric.custody.find n
    -- Ultra Ethernet has its own re-sends, and what no port has taken waits for no acknowledgement
    guard (decide (c.resends < 7) && !c.noRoute && c.pkt.ext.isNone)
    -- 2 µs have aged the packet by 250 ticks, unless its slack is none
    let p := if c.pkt.slack = 0xFFF then { c.pkt with resent := true }
      else { c.pkt with resent := true, slack := BitVec.ofNat 12 (c.pkt.slack.toNat - 250)
                        late := c.pkt.late || decide (c.pkt.slack.toNat ≤ 250) }
    pure (becomes { s with
      fabric := { s.fabric with custody := s.fabric.custody.put n { pkt := p, resends := c.resends + 1, noRoute := false } }
      outbox := s.outbox ++ [.packet p] })
  | .custodyTimeout n, s => do
    let c ← s.fabric.custody.find n
    -- UNREACHABLE at once without a route, UET's error completion, TIMEOUT after seven re-sends (R347, R348, R360)
    let (reason, s0) ← if c.noRoute then some (0x01, s)
      else if c.pkt.ext.isSome then some (s.uetReason 0)
      else if 7 ≤ c.resends then some (0x02, s) else none
    let s1 := s0.setFabric { s0.fabric with custody := s0.fabric.custody.del n }
    -- the source is told, where the packet was a request of this node that is still open
    pure (becomes (((s1.fabric.answer fun q => q.tag % 4294967296 == c.pkt.tag.toNat && q.seq == c.pkt.seq.toNat &&
      q.node == c.pkt.dst).map fun x => (s1.setFabric x.2).fabFails x.1 c.pkt.late reason).getD s1))
  | .linkLevelRetry _, s => some fun t => { t with fabric := { t.fabric with linkRetries := s.fabric.linkRetries } } = s
  | .badpktDrop header, s => do
    -- a reserved OP, a bad check or a nonzero reserved field in the 32 bytes of Table 20-1
    let p := headerFields header [] []
    guard (headerBad? header && !s.dieDown p.ddie.toNat && !(s.fabric.portsUp p.ddie.toNat p.ext.isSome).isEmpty)
    pure (becomes (s.errFab p 0x06))
  | .uetUnsupportedPacketDrop port, s => do
    guard (s.fabric.uePorts.contains port)
    pure (becomes { s with fabric := { s.fabric with dropped := s.fabric.dropped + 1 } })
  | _, _ => none

/-! ## Resets (21 R370, R371) -/

/-- The launches that the workgroups belong to are cancelled. -/
def cancelAll (ids : List Nat) (s : State) : State := ids.dedup.foldl (fun s id => s.cancelLaunch id 8) s

/-- The reset steps, on a part that has power. -/
def resetSteps : StepTable
  | .packageColdReset, s => some (becomes
      { State.reset with
        -- fuses and flash are kept; host memory, what comes from outside and what has left are no state of the part
        mem := s.mem.filter fun e => tierOf e.1 == .host, poison := s.poison.filter fun k => tierOf (32 * k) == .host
        stale := s.stale.filter fun k => tierOf (32 * k) == .host
        code := s.code, lpddr := s.lpddr, free := s.free, inbox := s.inbox, outbox := s.outbox
        fw := { Firmware.fresh with bankA := s.fw.bankA, bankB := s.fw.bankB, activeA := s.fw.activeA
                                    minVersion := s.fw.minVersion, lifecycle := s.fw.lifecycle } })
  | .powerLoss, s => some fun t => t.fw.powerOff = true ∧ (t.mem = s.mem.filter fun e => tierOf e.1 == .host) ∧
      t.l2 = [] ∧ t.wgs = [] ∧ t.launches = [] ∧
      t.fw.bankA = s.fw.bankA ∧ t.fw.bankB = s.fw.bankB ∧ t.fw.activeA = s.fw.activeA ∧
      t.fw.minVersion = s.fw.minVersion ∧ t.fw.lifecycle = s.fw.lifecycle
  | i, s =>
    if s.fw.powerOff then none
    else
      match i with
      | .packageWarmReset =>
        -- every launch is cancelled and its work destroyed first, which may still write memory
        -- and what stands in L2 alone is lost
        some fun t => ∃ u, u = (s.launches.keys.foldl State.destroyLaunch s).loseL2 (fun _ => true) ∧
          t.mem = u.mem ∧ t.l2 = [] ∧ t.poison = u.poison ∧ t.stale = u.stale ∧ t.wgs = [] ∧ t.launches = [] ∧ t.tenants = [] ∧ t.cores = [] ∧
          t.watches = [] ∧ t.caddy = [] ∧ t.kmodels = [] ∧ t.kslots = [] ∧
          t.fw.trained = u.fw.trained ∧ t.fw.fullService = u.fw.fullService ∧ t.fw.trainFailed = u.fw.trainFailed ∧
          t.fw.warmReset = true ∧ t.fw.booted = false ∧ t.fw.bankA = u.fw.bankA ∧ t.fw.bankB = u.fw.bankB ∧
          t.fw.minVersion = u.fw.minVersion ∧ t.fw.lifecycle = u.fw.lifecycle
      | .dieReset die =>
        let u := (s.destroyWhere fun w => !w.stored && dieOf w.core == die).resetCaddy die
        -- reductions that wait at the die's slices end; other dies see its addresses as gone until it returns
        let v := ((u.slices.filter fun e => e.1 / 256 == die).map (·.2)).foldl State.endCommand { u with
          slices := u.slices.filter fun e => e.1 / 256 != die }
        let x := v.dropDieWatches die
        -- a launch that waited for an answer to one of the die's fabric stores waits no longer
        let x := (x.setFabric (x.fabric.dropDie die)).settleAll
        let y := (List.range 128).foldl (fun s k => s.putCore (128 * die + k) (CoreState.fresh s.cycles)) x
        let z := (y.setClusters (y.clusters.filter fun e => e.1 / 16 != die)).sweepPages die
        -- its ports; on D0 the functions of the host link and the Samovar cores; what its L2 alone holds
        let p := (List.range 8).foldl (fun s k => s.resetPort (8 * die + k)) z
        let h := if die = 0 then (List.range 4).foldl State.resetSam ((List.range 17).foldl State.resetFunction p) else p
        let l := h.loseL2 fun d => d == die
        some (becomes { l with diesInReset := if l.diesInReset.contains die then l.diesInReset else l.diesInReset ++ [die] })
      | .clusterReset cluster =>
        let u := s.destroyWhere fun w => !w.stored && clusterOf w.core == cluster
        some (becomes (((List.range 8).foldl (fun s k => s.putCore (8 * cluster + k) (CoreState.fresh s.cycles)) u).putCluster
          cluster { ClusterState.fresh with inReset := true }))
      | .coreReset core =>
        let u := s.destroyWhere fun w => !w.stored && w.core == core
        some (becomes (u.putCore core { CoreState.fresh u.cycles with inReset := true }))
      | .matrixEngineReset core =>
        let ws := s.wgs.filter fun e => !e.2.stored && e.2.core == core && !e.2.mq.isEmpty
        some (becomes (cancelAll (ws.map fun (e : Nat × Workgroup) => e.2.launch)
          ((ws.foldl (fun (s : State) (e : Nat × Workgroup) => ((e.2.mq.filter fun c => c.op.counted).foldl (fun s c => s.engoDone c.own) s).updWg e.1
            fun w => { w with mq := [] }) s).setRun core none)))
      | .copyEngineReset core =>
        let cs := (s.core core).chans.toList.flatMap id
        let u := cs.foldl State.endCommand (s.putCore core { s.core core with chans := Vector.replicate 8 [] })
        let v := u.setWgs (u.wgs.each fun _ w =>
          if !w.stored && w.core == core then { w with wp := Vector.replicate 8 0 } else w)
        some (becomes (cancelAll (cs.filterMap fun c => (v.wg c.own.wk).map (·.launch)) v))
      | .caddyReset die => some (becomes ((s.resetCaddy die).sweepPages die))
      | .kettleReset => some (becomes (s.kmodels.keys.foldl (fun s n =>
          match (s.kmodels.find n).filter (·.busy) with
          | none => s
          | some m =>
            let s := failPlan n m.slots s
            { s with kmodels := s.kmodels.upd n fun m =>
                { m with busy := false, plan := [], slk := [], running := [], wake := true } }) s))
      | .fabricPortReset port =>
        if 32 ≤ port then none
        else
          some fun t => ∃ fb, fb = { s.fabric with
              portsDown := if s.fabric.portsDown.contains port then s.fabric.portsDown else s.fabric.portsDown ++ [port] } ∧
            -- what no port that is left can carry ends with TIMEOUT; page traffic goes on by the other personality
            t = (timeOutCustody fb.custody (s.setFabric fb)).sendAgain.serveAll
      | .hostFunctionReset vf =>
        let quiet (k : Nat) (r : Ring) : Ring := if k / 4 = vf then { r with polled := false } else r
        let u := { s with
          watches := s.watches.filter fun e => !e.2.waiter.ofVf vf
          hostQueues := s.hostQueues.each quiet, kqueues := s.kqueues.each quiet
          -- its mailbox is cleared
          fw := { s.fw with mmio := s.fw.mmio.filter fun e => !ofMailbox vf e.1 } }
        some (becomes ((u.launches.keys.filter fun id => ((u.launch id).map fun (l : Launch) => l.tenant == vf).getD false).foldl
          (fun s id => s.cancelLaunch id 8) u))
      | .samovarCoreReset core => some (becomes
          { s with sam := vset s.sam core SamCore.fresh, watches := s.watches.filter fun e => e.2.waiter != .samovar core })
      | .resetComplete unit => some (becomes (
          match unit with
          | .package => { s with fw := { s.fw with warmReset := false } }
          | .die n => ({ s with
              diesInReset := s.diesInReset.filter (· != n)
              fabric := { s.fabric with portsDown := s.fabric.portsDown.filter fun p => p / 8 != n } } : State).serveAll
          | .cluster n => s.putCluster n { s.cluster n with inReset := false }
          | .core n => s.putCore n { s.core n with inReset := false }
          | .port n => (s.setFabric { s.fabric with portsDown := s.fabric.portsDown.filter (· != n) }).serveAll
          | .matrix _ | .copy _ | .caddy _ | .kettle | .vf _ | .samovar _ => s))
      | _ => none

/-- R370, R371: each reset and the loss of power complete: the two that need no power in every state, the others on every
part that has it; and what of their effect is plainest. -/
def ResetsComplete : Prop :=
  (∀ s, ∃ t, exec .packageColdReset s = .next t ∧ t.wgs = [] ∧ t.launches = [] ∧ t.tenants = [] ∧ t.cores = [] ∧ t.l2 = [] ∧
    (∀ e ∈ t.mem, e ∈ s.mem ∧ tierOf e.1 = .host) ∧ (∀ k ∈ t.poison, tierOf (32 * k) = .host) ∧ t.watches = [] ∧ t.fw.powerOff = false ∧ t.fw.trained = false ∧ t.fw.booted = false ∧
    t.fw.bankA = s.fw.bankA ∧ t.fw.bankB = s.fw.bankB ∧ t.fw.minVersion = s.fw.minVersion) ∧
  (∀ s, ∃ t, exec .powerLoss s = .next t ∧ t.fw.powerOff = true ∧ (∀ e ∈ t.mem, tierOf e.1 = .host) ∧ t.wgs = [] ∧
    t.launches = []) ∧
  ∀ s, s.fw.powerOff = false →
    (∃ t, exec .packageWarmReset s = .next t ∧ t.wgs = [] ∧ t.launches = [] ∧ t.tenants = [] ∧ t.fw.warmReset = true) ∧
    (∀ die, ∃ t, exec (.dieReset die) s = .next t ∧ t.dieDown die = true) ∧
    (∀ cluster, ∃ t, exec (.clusterReset cluster) s = .next t ∧ (t.cluster cluster).inReset = true) ∧
    (∀ core, ∃ t, exec (.coreReset core) s = .next t ∧ (t.core core).inReset = true ∧ (t.core core).mrun = none) ∧
    (∀ core, ∃ t, exec (.matrixEngineReset core) s = .next t) ∧
    (∀ core, ∃ t, exec (.copyEngineReset core) s = .next t) ∧
    (∀ die, ∃ t, exec (.caddyReset die) s = .next t) ∧
    (∃ t, exec .kettleReset s = .next t) ∧
    (∀ port, ∃ t, exec (.fabricPortReset port) s = .next t ∧ (32 ≤ port → t = s)) ∧
    (∀ vf, ∃ t, exec (.hostFunctionReset vf) s = .next t) ∧
    (∀ core, ∃ t, exec (.samovarCoreReset core) s = .next t ∧ (core < 4 → vget t.sam core SamCore.fresh = SamCore.fresh)) ∧
    (∀ unit, ∃ t, exec (.resetComplete unit) s = .next t ∧
      (∀ n, unit = .core n → (t.core n).inReset = false) ∧ (∀ n, unit = .cluster n → (t.cluster n).inReset = false) ∧
      ∀ n, unit = .die n → ∃ u : State, t = u.serveAll ∧ n ∉ u.diesInReset ∧ ∀ p ∈ u.fabric.portsDown, p / 8 ≠ n)

/-! ## Host, firmware and management (21) -/

/-- What leaves the package. -/
def reports (o : Output) (s : State) : State := { s with outbox := s.outbox ++ [o] }

/-- A TLP: a function that accepts it, and bytes that it reaches; otherwise it is rejected. -/
def asTlp (fn : HostFn) (ok : Bool) (s t : State) : Option (State → Prop) := do
  guard (!s.fw.powerOff)
  pure (becomes (if s.acceptsTlp fn && ok then t else reports (.hostReject fn) s))

/-- The TLPs of the host. -/
def hostSteps : StepTable
  | .hostWriteTlp fn pa bytes ep, s => asTlp fn (s.hostReach pa bytes.length) s
      (let t := s.hostPut (partsOf pa bytes.length) bytes .plain
       if ep then t.poisonAt pa bytes.length else t)
  | .hostReadTlp fn pa len, s => asTlp fn (s.hostReach pa len) s
      (let r := s.hostGet (partsOf pa len)
       reports (.hostRead fn r.1 (s.poisoned pa len)) r.2)
  | .hostAtomicop fn op wide pa x y, s =>
      let n := if wide then 8 else 4
      let m := 2 ^ (8 * n)
      asTlp fn (s.hostReach pa n && decide (pa % n = 0)) s (
        if s.poisoned pa n then reports (.hostAtomic fn 0 false) s
        else
          let old := leNat (s.physRead none pa n).1
          let new := match op with
            | .fetchAdd => old + x.toNat % m
            | .swap => x.toNat % m
            | .cas => if old = x.toNat % m then y.toNat % m else old
          reports (.hostAtomic fn (BitVec.ofNat 64 old) true) 
            (((s.physRead none pa n).2.physWrite none pa (leBytes n new)).afterStore s none (none, pa) n .atomic))
  | .mmioRegisterWrite fn off val, s => asTlp fn (decide (off + 8 ≤ barSize fn) && decide (off % 8 = 0)) s
      { s with fw := { s.fw with mmio := s.fw.mmio.put (fnNumber fn * 2 ^ 26 + off) val } }
  | _, _ => none

/-- A service: one who may not ask, and one whose checks fail, gets status 0; such a one leaves at most what the walks of its
checks have done. -/
def asServiceOr (who : Requester) (ten : Option Nat) (s : State) (answer : Except State (Nat × State)) : Option (State → Prop) := do
  guard (!s.fw.powerOff && s.fw.booted && s.fw.inService)
  pure (becomes (
    if s.mayAsk who ten = false then reports (.serviceDone false 0) s
    else match answer with
    | .error t => reports (.serviceDone false 0) t
    | .ok (v, t) => reports (.serviceDone true v) t))

/-- A service whose checks read no memory. -/
def asService (who : Requester) (ten : Option Nat) (s : State) (answer : Option (Nat × State)) : Option (State → Prop) :=
  asServiceOr who ten s (answer.elim (.error s) .ok)

/-- The services of the mailboxes (Table 21-3). -/
def serviceSteps : StepTable
  | .setAsidRoot who tenant asid root, s => asService who none s (do
      guard (decide (tenant < 16))
      pure (0, { s with tenants := s.tenants.put tenant { s.tenant tenant with asid := asid, root := some root } }))
  | .invalidateTranslation who asid lo len, s =>
      asService who (match who with
        | .pf => none
        | .vf n => if (s.tenant n).asid = asid then some n else none) s
        (some (0, { s with
          clusters := s.clusters.each fun _ x => { x with
            tlb := x.tlb.filter fun e => !(e.asid == asid.toNat && decide (e.va < lo + len) && decide (lo < e.va + e.size)) }
          cores := s.cores.each fun _ x => { x with l1 := x.l1.filter fun l => l.asid != asid.toNat } }))
  | .resolveFault who place entries, s => asService who none s (do
      guard (s.parkedAt place)
      pure (0, (entries.foldl (fun s (e : PteWrite) => s.physWrite none e.pa (leBytes 8 e.entry.toNat)) s).replay place))
  | .declareUnresolved who place, s => asService who none s (do
      guard (s.parkedAt place)
      pure (0, s.unresolve place))
  | .registerModel who p, s => asServiceOr who none s (
      let entered (s : State) : State := { s with
        caddyModels := s.caddyModels.put p.model { tenant := p.tenant, ptl := p.ptl, layers := p.layers, rb := p.rb } }
      if caddyLimits p = false then .error s
      else match p.kettle with
      | none => .ok (0, entered s)
      | some k =>
        let m := s.kettleEntry p.model p.tenant k
        if kettleLimits k = false then .error s
        else match readTemplate s m k.ntmpl 0 with
          | .error (_, t) => .error t
          | .ok (_, t) => .ok (0, { entered t with kmodels := t.kmodels.put p.model m }))
  | .registerQueue who p, s => asServiceOr who (some p.vf) s (
      if ringLimits p = false then .error s
      else if ringHome s p = false then .error (ringWalks s p)
      else
      let key := 4 * p.vf + p.q
      let waiter : Waiter := if p.submission then .kettleTail key else .launchQueue key
      let s1 := (ringWalks s p).unwatch waiter
      -- without a watch entry the ring is polled; in reduced service a launch queue is neither (R374)
      let idle := !p.submission && !s.fw.fullService
      let (polled, s2) := if idle then (false, s1)
        else match s1.watchWord p.vf p.tail.toNat 0 waiter with
          | .ok t => (false, t)
          | .error t => (true, t)
      let r : Ring := { tenant := p.vf, base := p.base, ent := p.ent, tail := p.tail, head := p.head, seen := 0, taken := 0
                        polled := polled }
      .ok (0, if p.submission then { s2 with kqueues := s2.kqueues.put key r }
        else { s2 with hostQueues := s2.hostQueues.put key r }))
  | .setBudgets who p, s => asService who none s (do
      guard (decide (p.tenant < 16 ∧ p.cbud ≤ 512))
      pure (0, { s with tenants := s.tenants.put p.tenant { s.tenant p.tenant with
        cbud := p.cbud, bbud := p.bbud, pbud := p.pbud, watchdogMs := p.watchdogMs, resolveLimit := p.resolveLimit } }))
  | .fabricSetup who p, s => asService who none s (
      match p with
      | .ownNode n => if n = 0xFFF then none else some (0, { s with fabric := { s.fabric with own := n } })
      | .node n up =>
        let rest := s.fabric.populated.filter (· != n)
        if n = 0xFFF then none
        else some (0, { s with fabric := { s.fabric with populated := if up then rest ++ [n] else rest } })
      | .partition t x =>
        if 16 ≤ t then none else some (0, { s with tenants := s.tenants.put t { s.tenant t with part := some x } })
      | .nodeSet t n up =>
        let rest := (s.tenant t).nodeSet.filter (· != n)
        if 16 ≤ t ∨ n = 0xFFF then none
        else some (0, { s with tenants := s.tenants.put t { s.tenant t with nodeSet := if up then rest ++ [n] else rest } })
      | .window t n x =>
        if 16 ≤ t ∨ 16 ≤ n ∨ windowOk (s.tenant t) n x = false then none
        else some (0, { s with
          tenants := s.tenants.put t { s.tenant t with windows := vset (s.tenant t).windows n x } })
      | .counter die id part va =>
        if 4 ≤ die ∨ id = 0 ∨ va.toNat % 8 ≠ 0 then none
        else some (0, { s with
          fabric := { s.fabric with counters := s.fabric.counters.put (die * 4096 + id.toNat) ⟨part, va⟩ } }))
  | .portPersonalitySelect port hawser, s => asService .pf none s (do
      guard (decide (port < 32) && !(hawser && s.code == .mE))
      let rest := s.fabric.uePorts.filter (· != port)
      pure (0, ({ s with fabric := { s.fabric with uePorts := if hawser then rest else rest ++ [port] } } : State).serveAll))
  | .cancelLaunch who launch, s => asService who ((s.launch launch).map (·.tenant)) s
      ((s.launch launch).map fun _ => (0, s.cancelLaunch launch 8))
  | .sizePools who p, s => asService who none s (do
      guard (decide (p.die < 4 ∧ p.descs ≤ 2 ^ 30 ∧ p.framesHbm ≤ 2 ^ 32 ∧ p.framesLp ≤ 2 ^ 32) &&
        p.arenas.all fun a => decide (a.1 < 16 ∧ a.2.1 < 2))
      let x := s.caddyOf p.die
      let y := { x with
        ndesc := p.descs, framesHbm := p.framesHbm, framesLp := p.framesLp, low := p.low, high := p.high
        arenas := p.arenas.foldl (fun t a => t.put (2 * a.1 + a.2.1) a.2.2) x.arenas }
      pure (0, ({ s with caddy := s.caddy.put p.die y } : State).wakeModels.serveCaddy p.die))
  | _, _ => none

/-- A step that Samovar's firmware serves. -/
def asManaged (s t : State) : Option (State → Prop) := do
  guard (!s.fw.powerOff && s.fw.booted && s.fw.inService)
  pure (becomes t)

/-- A step of a part that has power. -/
def asPowered (s t : State) : Option (State → Prop) := do
  guard (!s.fw.powerOff)
  pure (becomes t)

/-- A PLDM command in its order only. -/
def asPldm (name : String) (at_ : UpdState) (s : State) (fw : Firmware) : Option (State → Prop) :=
  asManaged s (if s.fw.upd = at_ then reports (.pldm name true) { s with fw := fw } else reports (.pldm name false) s)

/-- The image of a bank is replaced. -/
def withBank (fw : Firmware) (a : Bool) (x : Option Image) : Firmware :=
  if a then { fw with bankA := ⟨x⟩ } else { fw with bankB := ⟨x⟩ }

/-- The ROM's checks: both signatures, the keys of the lifecycle, a version that is not below the fused one. -/
def imageGood (fw : Firmware) (x : Image) : Bool :=
  x.rsaOk && x.slhOk && decide (fw.minVersion.toNat ≤ x.version.toNat) &&
    (match fw.lifecycle with
     | .blank => !x.ownerKeys
     | .provisioned | .secure => x.ownerKeys
     | .rma => false)

/-- The staged image is good. -/
def stagedGood (fw : Firmware) : Bool := (fw.staged.map (imageGood fw)).getD false

/-- A staged image that fails is erased and the update is over. -/
def erased (name : String) (s : State) : State :=
  reports (.pldm name false) { s with fw := { withBank s.fw (!s.fw.activeA) none with upd := .idle, staged := none } }

/-- An accepted image runs. -/
def imageRuns (s : State) (x : Image) : State :=
  { s with fw := { s.fw with
      booted := true, bootStatus := if s.fw.trainFailed then .reduced else .ok, measurement := some x.digest
      running := some x, since := s.cycles, fusePending := decide (s.fw.minVersion.toNat < x.version.toNat) } }

/-- Boot, update and training (R367, R368, R374). -/
def bootSteps : StepTable
  | .bootRom, s =>
      let good (a : Bool) : Option Image := (s.fw.bank a).filter (imageGood s.fw)
      asPowered s (
        if s.fw.booted || s.fw.bootStatus == .failed then s
        else
          match (good s.fw.activeA).or (good !s.fw.activeA) with
          | some x => imageRuns s x
          | none => { s with fw := { s.fw with bootStatus := .failed } })
  | .recoveryImage img, s => asPowered s (
      if s.fw.booted || s.fw.bootStatus != .failed then s
      else if imageGood s.fw img then reports (.serviceDone true 0) (imageRuns s img)
      else reports (.serviceDone false 0) s)
  | .requestUpdate, s => asPldm "RequestUpdate" .idle s { s.fw with upd := .requested, staged := none }
  | .passComponentTable, s => asPldm "PassComponentTable" .requested s { s.fw with upd := .table }
  | .updateComponent img, s => asPldm "UpdateComponent" .table s { s.fw with upd := .component, staged := some img }
  | .transferComplete, s =>
      asPldm "TransferComplete" .component s { withBank s.fw (!s.fw.activeA) s.fw.staged with upd := .transferred }
  | .verifyComplete, s => asManaged s (
      if s.fw.upd ≠ .transferred then reports (.pldm "VerifyComplete" false) s
      else if stagedGood s.fw then reports (.pldm "VerifyComplete" true) { s with fw := { s.fw with upd := .verified } }
      else erased "VerifyComplete" s)
  | .applyComplete, s => asPldm "ApplyComplete" .verified s { s.fw with upd := .applied }
  | .activateFirmware, s => asManaged s (
      if s.fw.upd ≠ .applied ∨ s.fw.warmReset = true then reports (.pldm "ActivateFirmware" false) s
      else if !stagedGood s.fw then erased "ActivateFirmware" s
      else reports (.pldm "ActivateFirmware" true)
        { s with fw := { s.fw with hold := true, activeA := !s.fw.activeA, upd := .activating, since := s.cycles
                                   fusePending := false } }.restartSam)
  | .imageReportsReady, s => asPowered s (
      -- a report later than 1 ms after the image's start comes too late
      if s.fw.upd ≠ .activating ∨ 3600000 ≤ s.cycles - s.fw.since then s
      else { s with fw := { s.fw with
        hold := false, upd := .idle, running := s.fw.staged, staged := none
        fusePending := (s.fw.staged.map fun x => decide (s.fw.minVersion.toNat < x.version.toNat)).getD false } })
  | .updateReadyTimeout, s => asPowered s (
      if s.fw.upd = .activating ∧ 3600000 ≤ s.cycles - s.fw.since then
        State.restartSam { s with fw := { s.fw with
          hold := false, upd := .idle, activeA := !s.fw.activeA, staged := none, since := s.cycles
          fusePending := (s.fw.running.map fun x => decide (s.fw.minVersion.toNat < x.version.toNat)).getD false } }
      else s)
  | .securityVersionFuse, s => asPowered s (
      match s.fw.running with
      | none => s
      | some x =>
        if s.fw.fusePending && s.fw.upd != .activating && decide (24 * 3600 * 3600000000 ≤ s.cycles - s.fw.since) then
          { s with fw := { s.fw with minVersion := x.version, fusePending := false } }
        else s)
  | .trainingStepComplete ok, s => asPowered s (
      if s.fw.fullService || s.fw.trainFailed then s
      else if ok then
        let t := { s with fw := { s.fw with trained := s.fw.trained + 1 } }
        if s.fw.trained + 1 < 55 then t
        else
          -- full service: launch queues are read from now on
          { t with
            fw := { t.fw with fullService := true }
            hostQueues := t.hostQueues.each fun _ r => { r with polled := true } }
      else { s with fw := { s.fw with
        trainFailed := true, bootStatus := if s.fw.bootStatus = .failed then .failed else .reduced } })
  | _, _ => none

/-- The next free value of the model. -/
def drawn {α : Type} (s : State) (free : Nat → α) (go : α → State → State) : State :=
  go (free s.free) { s with free := s.free + 1 }

/-- Bytes of the responder. -/
def blob (what : String) (s : State) : State := drawn s Config.spdmBytes fun n s => reports (.spdmBlob what n) s

/-- SPDM and IDE (R362). -/
def spdmSteps : StepTable
  | .getVersion, s => asManaged s (reports (.spdm "VERSION" true) { s with fw := { s.fw with spdm := .version } })
  | .getCapabilities, s => asManaged s (
      if s.fw.spdm = .version then reports (.spdm "CAPABILITIES" true) { s with fw := { s.fw with spdm := .capabilities } }
      else reports (.spdm "CAPABILITIES" false) s)
  | .negotiateAlgorithms o, s => asManaged s (
      if s.fw.spdm = .capabilities ∧ o.rsassa3072 = true ∧ o.sha384 = true ∧ o.aes256gcm = true then
        reports (.spdm "ALGORITHMS" true) { s with fw := { s.fw with spdm := .negotiated } }
      else reports (.spdm "ALGORITHMS" false) s)
  | .getDigests, s => asManaged s (
      if s.fw.spdm = .negotiated then reports (.spdm "DIGESTS" true) (blob "digests" s) else reports (.spdm "DIGESTS" false) s)
  | .getCertificate slot, s => asManaged s (
      if s.fw.spdm = .negotiated ∧ slot < 8 then reports (.spdm "CERTIFICATE" true) (blob "certificate" s)
      else reports (.spdm "CERTIFICATE" false) s)
  | .spdmChallenge _, s => asManaged s (
      if s.fw.spdm = .negotiated then reports (.spdm "CHALLENGE_AUTH" true) (blob "signature" s)
      else reports (.spdm "CHALLENGE_AUTH" false) s)
  | .getMeasurements index, s => asManaged s (
      if s.fw.spdm = .negotiated ∧ (index = 0 ∨ index = 1 ∨ index = 0xFF) then
        reports (.spdm "MEASUREMENTS" true) (reports (.measurements (if index = 0 then none else s.fw.measurement)) s)
      else reports (.spdm "MEASUREMENTS" false) s)
  | .keyExchange n, s => asManaged s (
      if s.fw.spdm = .negotiated ∧ n ∉ s.fw.sessions ++ s.fw.openSessions then
        reports (.spdm "KEY_EXCHANGE_RSP" true) { s with fw := { s.fw with openSessions := s.fw.openSessions ++ [n] } }
      else reports (.spdm "KEY_EXCHANGE_RSP" false) s)
  | .spdmFinish n, s => asManaged s (
      if n ∈ s.fw.openSessions then
        drawn s (Config.spdmVerifies n) fun ok s =>
          reports (.spdm "FINISH_RSP" ok) { s with fw := { s.fw with
            openSessions := s.fw.openSessions.filter (· != n)
            sessions := if ok then s.fw.sessions ++ [n] else s.fw.sessions } }
      else reports (.spdm "FINISH_RSP" false) s)
  | .endSession n, s => asManaged s (
      if n ∈ s.fw.sessions then
        reports (.spdm "END_SESSION_ACK" true) { s with fw := { s.fw with sessions := s.fw.sessions.filter (· != n) } }
      else reports (.spdm "END_SESSION_ACK" false) s)
  | .ideKmRequest stream key vfs, s => asManaged s (
      -- streams 0 to 3 are selective; 4 is link IDE, which covers every function (log 84)
      if 4 < stream ∨ s.fw.sessions = [] then reports (.spdm "IDE_KM" false) s
      else
        let vfs := if stream = 4 then 0xFFFF else vfs
        -- the functions that the stream covers accept TLPs again
        let t := { s with fw := { s.fw with ide := s.fw.ide.put stream { secure := true, key := key, vfs := vfs } } }
        reports (.spdm "IDE_KM" true) (((List.range 16).filter fun n => bit vfs n).foldl (fun s n =>
          { s with tenants := s.tenants.put n { s.tenant n with blocked := false } }) t))
  | .ideStreamInsecure stream, s => asPowered s (
      match (s.fw.ide.find stream).filter (·.secure) with
      | none => s
      | some x =>
        -- every launch of every tenant on the stream is cancelled, and its function blocked
        let t := { s with fw := { s.fw with ide := s.fw.ide.put stream { x with secure := false } } }
        -- and each function that was enabled before and is so no more is reset like one (Table 21-8)
        (((List.range 16).filter fun n => bit x.vfs n).foldl (fun s n =>
          let u := s.cancelTenant n
          { u with tenants := u.tenants.put n { u.tenant n with blocked := true } }) t).disableVfs
          ((List.range 16).filter s.vfEnabled))
  | _, _ => none

/-- Telemetry, debug, lifecycle, power and cooling (R369, R371, R372, R375). -/
def manageSteps : StepTable
  | .getSensorReading id, s => do
      guard (!s.fw.powerOff)
      let n := id.toNat
      match sensorUnit n with
      | none => pure (becomes (reports (.sensorInvalid id) s))
      | some u =>
        -- PEAK is no less than any VALUE shown; of what the state holds it is the greatest, with exponent 0
        pure fun t => ∃ e p, s.sensorVal n ≤ p ∧ (∀ q, s.fw.peaks.find n = some q → q ≤ p) ∧
          (0x40 ≤ n → e = 0 ∧ p = max ((s.fw.peaks.find n).getD (s.sensorVal n)) (s.sensorVal n)) ∧
          t = reports (.sensor (sensorRecord id u e (s.sensorVal n) p
              (if n ∈ s.fw.unavailable then 3 else if n ∈ s.fw.critical then 2 else if n ∈ s.fw.warnings then 1 else 0)))
            { s with free := s.free + 2, fw := { s.fw with peaks := s.fw.peaks.put n p } }
  | .debugTokenRequest target tenant, s => asManaged s (
      if !comboOk s.fw.lifecycle target ∨ (target = .authorised ∧ 16 ≤ tenant) then reports (.refused "debug") s
      else if target = .authorised then
        drawn s Config.debugTokenValid fun ok s =>
          if ok then { s with fw := { s.fw with
            debug := .authorised, debugTenant := tenant
            consents := if s.fw.lifecycle = .secure ∧ tenant ∉ s.fw.consents then s.fw.consents ++ [tenant] else s.fw.consents } }
          else reports (.refused "debug") s
      else { s with fw := { s.fw with debug := target } })
  | .lifecycleChange target, s => asManaged s (
      if !comboOk target s.fw.debug then reports (.refused "lifecycle") s
      else
        let fw := { s.fw with lifecycle := target }
        -- authorised debug stands in SECURE with its tenant's consent recorded; RMA erases the keys (log 84)
        let fw := match target with
          | .secure =>
            if fw.debug = .authorised ∧ fw.debugTenant ∉ fw.consents then { fw with consents := fw.consents ++ [fw.debugTenant] } else fw
          | .rma => { fw with ide := [], sessions := [], openSessions := [] }
          | .blank | .provisioned => fw
        ({ s with fw := fw } : State).disableVfs ((List.range 16).filter s.vfEnabled))
  | .powerStateChange target, s =>
      let tenants := (List.range 16).any s.vfEnabled
      asPowered s (
        match target with
        | .p0 c => if 64 ≤ c then s else s.putCluster c { s.cluster c with p1 := false }
        | .p1 c => if 64 ≤ c then s else s.putCluster c { s.cluster c with p1 := true }
        | .coreIdle c => if 512 ≤ c then s else s.putCore c { s.core c with gated := true }
        | .coreRun c => if 512 ≤ c then s else s.putCore c { s.core c with gated := false }
        | .dieRetention d =>
          if 4 ≤ d ∨ tenants = true then reports (.refused "power") s
          else
            -- core store with its L1, L2 and DRAM are kept (Table 21-9), the rest of the die's logic state is not
            let u := s.clearDie d true
            { u with
              caddy := u.caddy.del d, placers := u.placers.del d
              fw := { u.fw with debug := .off, dieRetention := u.fw.dieRetention.filter (· != d) ++ [d] } }
        | .dieRun d => { s with fw := { s.fw with dieRetention := s.fw.dieRetention.filter (· != d) } }
        | .off => if tenants then reports (.refused "power") s else s.off)
  | .powerCapWrite watts, s => asManaged s (
      if 4400 < watts then reports (.refused "power cap") s
      else
        -- module power as measured then: over the new cap, the cap is met at once
        drawn { s with fw := { s.fw with capW := watts } } (Config.sensorValue 0x20) fun x s =>
          if (watts : Int) < x then s.throttled 4 else s)
  | .thermalThrottle die, s => do
      guard (!s.fw.powerOff && decide (die ≤ 4))
      let n := if die = 4 then 0x20 else die + 1
      let fast (s : State) := (List.range 64).filter fun c => (decide (die = 4) || decide (c / 16 = die)) && !(s.cluster c).p1
      -- clusters in P0 go to P1, the one with the greatest power first, until none is left or the limit, as last measured, is met
      pure fun t => (fast s ≠ [] → ∃ c ∈ fast s, (t.cluster c).p1 = true ∧
          ∀ d ∈ fast s, Config.clusterPower s.free d ≤ Config.clusterPower s.free c) ∧
        (∀ c, (if c ∈ fast s then { t.cluster c with p1 := false } else t.cluster c) = s.cluster c) ∧
        (fast t = [] ∨ (let x := Config.sensorValue n (t.free - 1)
          if die = 4 then x ≤ s.fw.capW else x < 105)) ∧
        n ∈ t.fw.warnings ∧
        { t with clusters := s.clusters, free := s.free, fw := { t.fw with warnings := s.fw.warnings } } = s
  | .thermalDieReset die, s => do
      guard (!s.fw.powerOff && decide (die < 4))
      pure fun t => (die + 1) ∈ t.fw.critical ∧
        { t with fw := { t.fw with critical := (s.resetDie die).fw.critical } } = s.resetDie die
  | _, _ => none

/-! ## Return from a trap, ranges and prefetch (03 R72; 09 R169, R175, R177) -/

/-- 18 R320: the first late completion of trap mode becomes LATE at the return when FCTL.LATETRAP is 1 then and none waits. -/
def lateOnReturn (f : Fibre) : List Imprecise :=
  match f.lateInTrap with
  | none => []
  | some (pc, a) =>
    if f.fctl.getLsbD 1 && !(f.imprecise.any fun x => x.code == .late) then [{ code := .late, pc := pc, addr := a }] else []

/-- R72: in trap mode `tret` clears TM and transfers to TRAPPC, where RIX restricts the word if it is an L word; a U word
there clears RIX. The word there gets back what it had popped (09 R182). -/
def trapReturn : Instr → Option WordRule
  | .tret o => some
      { use := uUse o.s o.g [] []
        pre := fun f => if f.fstat.getLsbD 5 = false ∧ runners (uUse o.s o.g [] []) f ≠ [] then
          some { code := .privilege, sub := 0, addr := 0, replay := false } else none
        res := fun s w _ f =>
          let x := f.settle.resumeWord
          let g := { x with
            fstat := x.fstat &&& 0xFFFFFFDF#32, rixLive := true, fresh := true, lateInTrap := none
            imprecise := x.imprecise ++ lateOnReturn x }
          -- the word at TRAPPC is looked at through its page (07 R136)
          goTo f (if s.uniformAt w.tenant f.trappc then { g with fstat := setField g.fstat 0 4 0, rixLive := false } else g)
            (s.afterWalk w.tenant f.trappc.toNat) f.trappc }
  | _ => none

/-- 02 R49: PRIVILEGE stands before every other fault of a word that issues. Outside trap mode `tret` faults so; `sysw` does
under a guard that holds, for a register without a field that is writable in the current mode (the model's reading of the
guard: log 47); `sysr` and `sysw` do for a firmware register. -/
def PrivilegeFirst : Prop :=
  ∀ (i : Instr) (u : Use) (s : State) (w : Workgroup) (f : Fibre),
    i.wf = true → s.wg s.cur.wk = some w → (w.fibres.find s.cur.fid).map (issueOf u) = some f →
    (∃ o, i = .tret o ∧ u = uUse o.s o.g [] [] ∧ f.fstat.getLsbD 5 = false ∧ runners u f ≠ []) ∨
      (∃ o, i = .sysw o ∧ u = syswUse o ∧ (0x100 ≤ o.r.toNat ∨ (runners u f ≠ [] ∧ sysWritten f o.r.toNat 0 = none))) ∨
      (∃ o, i = .sysr o ∧ 0x100 ≤ o.r.toNat ∧
        u = uUse o.s o.g [] (if wideReg o.r.toNat then [.s2 o.d.toNat] else [.s o.d.toNat])) →
      exec i s = .next (s.raiseAt s.cur.wk w f { code := .privilege, sub := 0, addr := 0, replay := false } 0)

/-- `wb` and `inv`: their operands, and whether the lines are dropped. -/
def rangeWord : Instr → Option (SGIAB × Bool)
  | .wb o => some (o, false)
  | .inv o => some (o, true)
  | _ => none

/-- R175: the checks in their order, and for a good range a completion that changes no byte as any agent reads it and no
register; `inv` leaves no plain copy of a global range in the core's L1. In deterministic mode a range on selector 0x0 or 0x9
first waits for the token (18 R332). -/
def RangeWordsEnd : Prop :=
  ∀ (i : Instr) (o : SGIAB) (drop : Bool) (s : State) (w : Workgroup) (f : Fibre) (act : List Nat) (g : Fibre) (s1 : State),
    let u := (uUse o.s o.g (.s2 o.a.toNat :: opB o.i o.b) []).syncing
    let a := g.getS64 o.a.toNat
    let n := lengthAsked o.i o.b g
    let va := a.toNat % 2 ^ 56
    rangeWord i = some (o, drop) → i.wf = true → Issues u noPre s w f act g s1 →
      (selOf a = 0 ∨ selOf a = 9 → needsToken s1 w = true → Ends i s w u act f (.wait g s1 .token)) ∧
      ((selOf a ≠ 0 ∧ selOf a ≠ 9) ∨ needsToken s1 w = false →
        (∀ t, selFault false a = some t → Ends i s w u act f (.trap g s1 t 0)) ∧
        (selFault false a = none → a.toNat % 128 ≠ 0 ∨ n % 128 ≠ 0 → Ends i s w u act f (fault .misalign 0 a g s1)) ∧
        (selFault false a = none → a.toNat % 128 = 0 → n % 128 = 0 → selOf a ≠ 0 → selOf a ≠ 8 →
          Ends i s w u act f (fault .protection 9 a g s1)) ∧
        (selFault false a = none → a.toNat % 128 = 0 → n % 128 = 0 → selOf a = 0 ∨ selOf a = 8 → s1.memCanonical →
          ∃ h t, Finishes i s w u act f h t ∧ sameBytes s1 t ∧ t.memCanonical ∧
            { h with outs := g.outs, lateSeen := g.lateSeen } = g ∧
            (selOf a = 0 → drop = true → ∀ l ∈ (t.core w.core).l1,
              l.asid = (s1.tenant w.tenant).asid.toNat → l.va < va ∨ va + n ≤ l.va)))

/-- R177: the one mapping that the offset and the length name is gone afterwards, and no other; without such a mapping
`sunmap` faults RESERVED_FIELD, SUB 6. A workgroup without dirty lines changes no byte of memory as any agent reads it. `w0`
is the workgroup once the fibre's own stores have been performed. -/
def UnmapEnds : Prop :=
  ∀ (o : SGIDB) (s : State) (w w0 : Workgroup) (f : Fibre) (act : List Nat) (g : Fibre) (s1 : State),
    let u := (uUse o.s o.g (opB o.i o.b ++ [.s o.d.toNat]) []).syncing
    let off := (g.getS o.d.toNat).toNat
    let n := lengthAsked o.i o.b g
    (Instr.sunmap o).wf = true → Issues u noPre s w f act g s1 → s1.wg s.cur.wk = some w0 →
      match w0.maps.find? fun m => m.off == off && m.len == n with
      | none => Ends (.sunmap o) s w u act f (fault .reservedField 6 0 g s1)
      | some m =>
        ∃ h t, Finishes (.sunmap o) s w u act f h t ∧ { h with outs := g.outs, lateSeen := g.lateSeen } = g ∧
          (∃ w1, t.wg s.cur.wk = some w1 ∧ w1.maps = w0.maps.filter (· != m)) ∧
          ((∀ l ∈ w0.lines, l.dirty = false) → sameBytes s1 t)

/-- R169: `pf` writes no register, changes no byte as any agent reads it and makes no access; an address whose selector or
must-be-zero bits are bad, or in the alias window, faults. What a prefetch may do is bring lines in: stash lines that it reads
become clean, caches and translation units change, and a sector whose check fails is marked (21 R373). -/
def PrefetchEnds : Prop :=
  ∀ (o : SGAB) (s : State) (w : Workgroup) (f : Fibre) (act : List Nat) (g : Fibre) (s1 : State),
    let u := lUse o.s o.g [.v o.a.toNat, .s2 o.b.toNat] []
    let addrs := (positions act).map fun e => laneAddress o.b o.a g e.1 e.2
    (Instr.lPf o).wf = true → Issues u noPre s w f act g s1 → s1.memCanonical →
      ∃ t, sameBytes s1 t ∧ t.memCanonical ∧
        { t with mem := s1.mem, wgs := s1.wgs, cores := s1.cores, clusters := s1.clusters, free := s1.free, l2 := s1.l2
                 traffic := s1.traffic, poison := s1.poison, stale := s1.stale
                 fw := { t.fw with poisonedCount := s1.fw.poisonedCount } } = s1 ∧
        (if addrs.all prefetchable then Finishes (.lPf o) s w u act f g t
         else ∃ x k, Ends (.lPf o) s w u act f (.trap g t x k))

/-! ## Memory as agents read and write it (07 R134; 08 R145; 09 R163 to R173) -/

/-- A byte after bytes were stored from an address on. -/
def storedByte (bs : List Byte) (pa x : Nat) (old : Byte) : Byte :=
  if pa ≤ x ∧ x < pa + bs.length then bs.getD (x - pa) 0 else old

/-- The bytes of a range as every agent reads them. -/
def bytesAt (s : State) (pa n : Nat) : List Byte := (List.range n).map fun k => s.byteAt (pa + k)

/-- The access passes the checks of R126 and R163, goes to plain global memory at va and waits for nothing; a release at
sys scope meets no fabric error. -/
def Reaches (wk : Nat) (w : Workgroup) (strand : Nat) (f : Fibre) (s : State) (a : DWord) (q : Acc) (va : Nat) : Prop :=
  addrFault (q.kind = .rmw) q.spaces q.n a = none ∧ placeOf s wk w f.win a q.n = .ok (.glob va) ∧
    (q.sysRelease a = true → f.fabErr = false) ∧ s.accessWaits wk f w.tenant (.glob va) a q (q.agent strand) = false ∧
    s.memCanonical

/-- A byte of memory with what stores lie over it that the agent sees (08 R147, R148): the last of them counts. -/
def seenByte (q : List PendStore) (who : Option Nat) (x : Nat) (old : Byte) : Byte :=
  (((q.filter fun p => p.loc.1.isNone && p.seenBy who && decide (p.loc.2 ≤ x ∧ x < p.loc.2 + p.bytes.length)).getLast?).map
    fun p => p.bytes.getD (x - p.loc.2) 0).getD old

/-- The bytes of a range as an agent of a fibre reads them: that fibre's stores that are not performed yet come first. -/
def seenBytes (s : State) (q : List PendStore) (who : Option Nat) (pa n : Nat) : List Byte :=
  (List.range n).map fun k => seenByte q who (pa + k) (s.byteAt (pa + k))

/-- The fibre with the loads of an access's program order fixed: none of them reads again (08 R148, R149). -/
def fixedFor (q : Acc) (strand : Nat) (f : Fibre) : Fibre :=
  { f with lq := f.lq.filter fun x => !(x.agent.isNone || (q.agent strand).isNone || x.agent == q.agent strand) }

/-- A store to global memory. One that is performed with its access, and meets no claimed ticket and no barrier with an open
phase (those it makes unpredictable), leaves its bytes at the physical address that the core's copy or the translation gives,
and every other byte as it was. Any other joins the fibre's stores that are not performed, and changes no byte; when it is
performed it leaves its bytes and no others (08 R145). -/
def GlobalStoreWrites : Prop :=
  (∀ (wk : Nat) (w : Workgroup) (strand : Nat) (f : Fibre) (s : State) (a : DWord) (q : Acc) (va pa : Nat) (s1 : State),
    Reaches wk w strand f s a q va → q.kind = .store → s.storePa w.core w.tenant va a = .ok (pa, s1) →
      (q.flushes s w (.glob va) = true → f.stq = [] →
        s1.disturbs (none, pa) q.data.length (if q.ordered then .release else .plain) = [] →
        -- the loads that precede it in its program order have their values
        ∃ t, access wk w strand f s a q = .ok (fixedFor q strand f) t [] 0 [] false ∧
          ∀ x, t.byteAt x = storedByte q.data pa x (s.byteAt x)) ∧
      (q.flushes s w (.glob va) = false →
        access wk w strand f s a q = .ok (f.buffer (q.agent strand) (none, pa) (none, pa) q.data q.nc) s1 [] 0 [] false ∧
          sameBytes s s1)) ∧
  ∀ (s : State) (core : Nat) (p : PendStore), p.key = none → s.memCanonical →
    s.disturbs (none, p.addr) p.bytes.length .plain = [] →
      ∀ x, (s.performSt core p).byteAt x = storedByte p.bytes p.addr x (s.byteAt x)

/-- The core has no copy that serves a load. -/
def noCopy (s : State) (core ten va : Nat) (nc : Bool) : Prop :=
  nc = true ∨ ∀ l ∈ (s.core core).l1, l.asid ≠ (s.tenant ten).asid.toNat ∨ l.va ≠ va / 128 * 128

/-- Fibre h is f after a load at pa: of its loads whose value is not fixed none is new but this one, and this one only where
it is a plain load that may be performed later (08 R145, R154). -/
def HasLoaded (q : Acc) (strand : Nat) (f h : Fibre) (pa : Nat) : Prop :=
  { h with lq := f.lq, nextSt := f.nextSt } = f ∧
    ∀ x ∈ h.lq, x ∈ f.lq ∨ (q.late = true ∧ x.serial = f.nextSt ∧ x.agent = q.agent strand ∧ x.loc = (none, pa) ∧ x.n = q.n)

/-- A load from global memory that no copy of the core serves delivers the bytes of the point of coherence, under the stores
of its fibre that are not performed, and changes none. A load of 16 bytes makes the four loads of its words in ascending
address (08 R150). Of the fibre only the loads whose value is not fixed change: this one may join them. -/
def GlobalLoadReads : Prop :=
  (∀ (s : State) (core ten va n : Nat) (nc : Bool) (q : List PendStore) (who : Option Nat) (a : DWord) (pa : Nat)
      (e : TlbEntry) (s1 : State),
    s.memCanonical → noCopy s core ten va nc → s.translate (clusterOf core) ten va n false a = .ok (pa, e, s1) →
    s1.poisoned pa n = false →
      ∃ t, s.globLoad core ten va n nc q who a = .ok (seenBytes s q who pa n, pa, t) ∧ sameBytes s t ∧ t.memCanonical) ∧
  ∀ (wk : Nat) (w : Workgroup) (strand : Nat) (f : Fibre) (s : State) (a : DWord) (q : Acc) (va : Nat),
    Reaches wk w strand f s a q va → q.kind = .load → w.hdr.det = false ∨ f.stq = [] →
      (∀ (pa : Nat) (e : TlbEntry) (s1 : State), q.n ≠ 16 → noCopy s w.core w.tenant va q.nc →
        s.translate (clusterOf w.core) w.tenant va q.n false a = .ok (pa, e, s1) → s1.poisoned pa q.n = false →
        ∃ h t, access wk w strand f s a q = .ok h t (seenBytes s f.stq (q.agent strand) pa q.n) 0 [] false ∧ sameBytes s t ∧
          HasLoaded q strand f h pa) ∧
      ∀ (b0 b1 b2 b3 : List Byte) (p0 p1 p2 p3 : Nat) (s0 s1 s2 s3 : State), q.n = 16 →
        s.globLoad w.core w.tenant va 4 q.nc f.stq (q.agent strand) a = .ok (b0, p0, s0) →
        s0.globLoad w.core w.tenant (va + 4) 4 q.nc f.stq (q.agent strand) a = .ok (b1, p1, s1) →
        s1.globLoad w.core w.tenant (va + 8) 4 q.nc f.stq (q.agent strand) a = .ok (b2, p2, s2) →
        s2.globLoad w.core w.tenant (va + 12) 4 q.nc f.stq (q.agent strand) a = .ok (b3, p3, s3) →
        ∃ h t, access wk w strand f s a q = .ok h t (b0 ++ b1 ++ b2 ++ b3) 0 [] false ∧ sameBytes s3 t ∧
          HasLoaded q strand f h (p3 - 12)

/-- An atomic on global memory outside the host tier and outside barriers with an open phase fetches the old word and
leaves the new one, every other byte as it was. It comes after every store of its fibre. -/
def GlobalAtomicSwaps : Prop :=
  ∀ (wk : Nat) (w : Workgroup) (strand : Nat) (f : Fibre) (s : State) (a : DWord) (q : Acc) (va pa : Nat) (s1 : State),
    Reaches wk w strand f s a q va → q.kind = .rmw → f.stq = [] → s.storePa w.core w.tenant va a = .ok (pa, s1) → tierOf pa ≠ .host →
    s1.poisoned pa 4 = false → s1.disturbs (none, pa) 4 .atomic = [] →
      let old := wordAt (bytesAt s pa 4) 0
      ∃ t, access wk w strand f s a q =
          .ok (if q.flushes s w (.glob va) then fixedFor q strand f else f) t (leBytes 4 old.toNat) (q.new old).2 [] false ∧
        ∀ x, t.byteAt x = storedByte (leBytes 4 (q.new old).1.toNat) pa x (s.byteAt x)

/-- R171, R172: what an operation writes over the old word, and the FSTAT bits it raises. -/
def atomResult (aop : Nat) (d e old : Word) : Option (Word × Word) :=
  match aop with
  | 0 => some (old + d, 0)
  | 1 => some (if old.toInt ≤ d.toInt then old else d, 0)
  | 2 => some (if old.toNat ≤ d.toNat then old else d, 0)
  | 3 => some (if d.toInt ≤ old.toInt then old else d, 0)
  | 4 => some (if d.toNat ≤ old.toNat then old else d, 0)
  | 5 => some (old &&& d, 0)
  | 6 => some (old ||| d, 0)
  | 7 => some (old ^^^ d, 0)
  | 8 => some (d, 0)
  | 9 => some (if old = d then e else old, 0)
  -- `add.f32` adds like `fadd` with rounding to nearest even, and raises its FSTAT bits
  | 10 => some (fadd .rne old d)
  | _ => none

/-- Workgroups that differ at most in what is known of their tiles. -/
def likeWg (x y : Option Workgroup) : Prop := (x.map fun w => { w with tiles := [] }) = y.map fun w => { w with tiles := [] }

/-- A store to scratchpad that no mapping covers, outside claimed tickets and barriers with an open phase. One that is
performed with its access changes exactly its bytes of the target's scratchpad. Any other joins the fibre's stores that are
not performed, and when it is performed it leaves its bytes there and no others. A plain store to a line that the stash holds
joins them for the global location, and faults PROTECTION where the page is not writable. -/
def ScratchStoreWrites : Prop :=
  (∀ (wk : Nat) (w : Workgroup) (strand : Nat) (f : Fibre) (s : State) (a : DWord) (q : Acc) (k o : Nat),
    addrFault false q.spaces q.n a = none → placeOf s wk w f.win a q.n = .ok (.scratch k o) → q.kind = .store →
    (q.sysRelease a = true → f.fabErr = false) →
    s.accessWaits wk f w.tenant (.scratch k o) a q (q.agent strand) = false →
      (∀ m, q.flushes s w (.scratch k o) = true → f.stq = [] → s.wg k = some m → m.mapAt o = none → Memory.wf m.mem = true →
        s.disturbs (some k, o) q.data.length (if q.ordered then .release else .plain) = [] →
        ∃ t m1, access wk w strand f s a q = .ok (fixedFor q strand f) t [] 0 [] false ∧ t.wg k = some m1 ∧ t.mem = s.mem ∧
          (∀ x, cellGet m1.mem x = storedByte q.data o x (cellGet m.mem x)) ∧
          { m1 with mem := m.mem, poison := m.poison, tiles := m.tiles } = m ∧ ∀ j, j ≠ k → likeWg (t.wg j) (s.wg j)) ∧
      (q.flushes s w (.scratch k o) = false →
        (∀ m, s.wg k = some m → m.mapAt o = none →
          access wk w strand f s a q = .ok (f.buffer (q.agent strand) (some k, o) (some k, o) q.data q.nc) s [] 0 [] false) ∧
        -- through a mapping it is a store to the global line, which must be writable (07 R132)
        ∀ m l, s.wg k = some m → m.mapAt o ≠ none → m.lines.find? (fun l => l.off == o / 128 * 128) = some l →
          access wk w strand f s a q =
            if l.w then .ok (f.buffer (q.agent strand) (some k, o) (none, l.pa + o % 128) q.data q.nc) s [] 0 [] false
            else .trap f s { code := .protection, sub := 2, addr := a, replay := false })) ∧
  ∀ (s : State) (core k : Nat) (p : PendStore) (m : Workgroup), p.key = some k → s.wg k = some m → m.mapAt p.addr = none →
    Memory.wf m.mem = true → s.disturbs (some k, p.addr) p.bytes.length .plain = [] →
      ∃ m1, (s.performSt core p).wg k = some m1 ∧ (s.performSt core p).mem = s.mem ∧
        ∀ x, cellGet m1.mem x = storedByte p.bytes p.addr x (cellGet m.mem x)

/-! ## Queue ports (09 R182, R183) -/

/-- R182, R183: a pop takes the oldest element of the port's queue into the port's register; a push takes one allowance
and appends the register's value. -/
def PortsMoveElements : Prop :=
  (∀ (w : Workgroup) (n : Nat) (f : Fibre) (s : State) (q : KQueue) (x : Word) (xs : List Word),
    s.queueAt w (f.port (n - 48)).slot = some q → q.elems = x :: xs →
      ∃ g t, popPorts w [n] f s = (g, t) ∧ g.getS n = x ∧ g.laneS n = x ∧
        t.queueAt w (f.port (n - 48)).slot = some { q with elems := xs } ∧ { g with popped := f.popped } = f) ∧
  ∀ (w : Workgroup) (n : Nat) (f : Fibre) (s : State) (q : KQueue) (x : Word),
    n < 8 → s.queueAt w (f.port n).slot = some q →
      ∃ g t, pushPort s w f n x = (g, t) ∧ (g.port n).allow = (f.port n).allow - 1 ∧
        t.queueAt w (f.port n).slot = some { q with elems := q.elems ++ [x], reserved := q.reserved - 1, pushed := q.pushed + 1 }

/-! ## Retirement and empty words (01 R13, R14, R24, R27) -/

/-- The words whose whole effect is on registers and FSTAT. -/
def registerWords (i : Instr) : Option RegWord :=
  (laneInt i).or ((laneFloat i).or ((laneExchange i).or ((uniInt i).or (uniFloat i))))

/-- Fibre h is g retired to pc: PC, RETC and the nominal schedule go on, RIX is 0 when it restricted an L word, values
popped are gone, and nothing else has changed. -/
def Retired (u : Use) (n : Nat) (pc : DWord) (g h : Fibre) : Prop :=
  h.pc = pc ∧ h.retc = g.retc + 1 ∧ h.nom = g.nom + u.spacing n ∧ h.popped = [] ∧ h.sleep = .awake ∧
    h.fstat = (if u.lane && g.rixLive then g.fstat &&& 0xFFFFFFF0#32 else g.fstat) ∧
    -- the pass of an L word occupies its lane (04 R77)
    h.passEnd = (if u.lane then g.issuedAt - 1 + u.pass n else g.passEnd) ∧
    { h with pc := g.pc, retc := g.retc, nom := g.nom, popped := g.popped, sleep := g.sleep, fstat := g.fstat
             rixLive := g.rixLive, midStrand := g.midStrand, fabWait := g.fabWait, fresh := g.fresh, word := g.word
             lanes := g.lanes, passEnd := g.passEnd } = g

/-- The fibre with what the register of an out port held before the word. -/
def unported (old f : Fibre) (n : Nat) : Fibre :=
  { f with
    s := vset f.s n (vget old.s n 0)
    pend := f.pend.filter (fun e => decide (e.reg ≠ .s n)) ++ old.pend.filter fun e => decide (e.reg = .s n) }

/-- R183: each value that the word wrote to the register of an out port goes to the port's queue, and the register behind
the port keeps what it held. -/
def pushedOut (w : Workgroup) (old : Fibre) (ns : List Nat) (g : Fibre) (s : State) : Fibre × State :=
  ns.foldl (fun p n => pushPort p.2 w (unported old p.1 n) (n - 48) (p.1.readNow (.s n))) (g, s)

/-- A word that completes in a workgroup of the state retires, once its pushes have been made: its fibre goes on behind it,
or to the target of its transfer, and apart from the count of retired instructions nothing else of the state changes. With
FCTL.STEP set at its start and outside trap mode, BREAK with subcode 0xFF is raised at the word after it (R17). -/
def WordsRetire : Prop :=
  ∀ (wk : Nat) (w v : Workgroup) (u : Use) (n : Nat) (old g : Fibre) (s : State) (r : Res) (pc : DWord),
    let p := pushedOut w old (pushesOf old u) g s
    p.2.wg wk = some v → (r = .done g s ∧ pc = old.pc + BitVec.ofNat 64 u.len) ∨ r = .jump g s pc →
      ∃ h, Retired u n pc p.1 h ∧
        settleRes wk w u n old r =
          if old.fctl.getLsbD 3 = true ∧ old.fstat.getLsbD 5 = false then
            ({ p.2 with wgs := p.2.wgs.put wk { v with retired := v.retired + 1 } } : State).raise wk w h
              { code := .brk, sub := 0xFF, addr := 0, replay := false } 0 false pc pc
          else { p.2 with wgs := p.2.wgs.put wk { v with retired := v.retired + 1, fibres := v.fibres.put p.1.fid h } }

/-- R24: a word with an empty Active, or a U word whose guard is 0, retires without effect; an exchange word that
delivers a value for an empty Active delivers that. -/
def EmptyWordsRetire : Prop :=
  ∀ (i : Instr) (r : RegWord) (s : State) (w : Workgroup) (f : Fibre),
    registerWords i = some r → i.wf = true → s.wg s.cur.wk = some w →
    (w.fibres.find s.cur.fid).map (issueOf r.use) = some f → runners r.use f = [] → issueFault r.use none f [] = none →
    (∀ n ∈ r.use.named, f.bound n = none ∧ (r.use.always = true → n ∉ f.busy)) →
      ∃ h, exec i s = .next (s.retireTo s.cur.wk w r.use 0 f h (f.pc + BitVec.ofNat 64 r.use.len)) ∧
        -- such a word fixes the loads whose registers it names (01 R26)
        (if r.use.always then Wrote (f.fixNamed r.use) h (r.writes f []) (r.flags f []) else h = f)

/-! ## Exceptions (18 R316 to R319) -/

/-- The fibre has entered its handler: TRAPPC, TCAUSE, TADDR, the resume PC in s60:s61, TM, and PC. -/
def InHandler (hdr : Header) (f g : Fibre) (cause : Word) (addr trappc resume : DWord) : Prop :=
  g.pc = hdr.addr + 64 + BitVec.ofNat 64 hdr.trapoff ∧ g.trappc = trappc ∧ g.tcause = cause ∧ g.taddr = addr ∧
    g.readNow (.s 60) = resume.extractLsb' 0 32 ∧ g.readNow (.s 61) = resume.extractLsb' 32 32 ∧
    g.fstat = f.fstat ||| 0x20 ∧ g.pend = [] ∧ g.lq = [] ∧ g.sleep = .awake ∧ g.popped = [] ∧
    -- what the interrupted word had popped is kept for it (09 R182)
    g.kept = (if f.popped = [] then none else some (trappc, f.popped)) ∧
    (f.pend = [] → (∀ r, r ≠ .s 60 → r ≠ .s 61 → g.readNow r = f.readNow r) ∧
      { g with pc := f.pc, trappc := f.trappc, tcause := f.tcause, taddr := f.taddr, s := f.s, fstat := f.fstat
               rixLive := f.rixLive, sleep := f.sleep, rowsReq := f.rowsReq, fresh := f.fresh, popped := f.popped, kept := f.kept
               lq := f.lq } = f)

/-- TCAUSE (Table 1-6): STRAND, IMPR, SUB, CODE. -/
def tcauseOf (code sub strand : Nat) (impr : Bool) : Word :=
  BitVec.ofNat 32 (code % 256 + 256 * (sub % 256) + (if impr then 524288 else 0) + 1048576 * (strand % 16))

/-- R317: the first rule that applies. -/
def FaultsDisposed : Prop :=
  ∀ (s : State) (wk : Nat) (w : Workgroup) (f : Fibre) (t : Trap) (strand : Nat) (impr : Bool) (trappc resume : DWord),
    let cause := tcauseOf t.code.num t.sub strand impr
    let tm := f.fstat.getLsbD 5
    -- 1: a replayable TRANSLATION fault outside trap mode parks the fibre, is made known to firmware and recorded
    (t.code = .translation → t.replay = true → tm = false →
      ∃ g : Fibre, g.sleep = .parked ∧ g.trappc = trappc ∧ g.taddr = t.addr ∧ g.pc = f.pc ∧ g.fstat = f.fstat ∧
        -- TCAUSE.STRAND names the strand (04 R95)
        g.tcause = (f.tcause &&& 0xFF0FFFFF) ||| BitVec.ofNat 32 (1048576 * (strand % 16)) ∧
        s.raise wk w f t strand impr trappc resume =
          (({ s.putFibre wk g with outbox := s.outbox ++ [.firmwareNotified wk f.fid t.addr] } : State).writeRecord w.tenant
            (s.fqOf w.launch) w.launch (parkRecord w g t strand)).2) ∧
    -- 2: a handler that the header has and Table 18-1 permits
    (¬(t.code = .translation ∧ t.replay = true) → tm = false → w.hdr.traph = true → t.code ≠ .peerFault → t.code ≠ .watchdog →
      ∃ g, InHandler w.hdr f g cause t.addr trappc resume ∧ s.raise wk w f t strand impr trappc resume = s.putFibre wk g) ∧
    -- 3: fatal; in trap mode the trap record of the handler is kept, and its TCAUSE is recorded
    (tm = true ∨ (¬(t.code = .translation ∧ t.replay = true) ∧
        (w.hdr.traph = false ∨ t.code = .peerFault ∨ t.code = .watchdog)) →
      ∃ g : Fibre, (if tm then g.trappc = f.trappc ∧ g.tcause = f.tcause ∧ g.taddr = f.taddr
          else g.trappc = trappc ∧ g.tcause = cause ∧ g.taddr = t.addr) ∧
        s.raise wk w f t strand impr trappc resume = (s.putFibre wk g).fatal wk
          { code := t.code, sub := t.sub, strand := strand, impr := impr, fid := f.fid, pc := trappc, addr := t.addr
            rpc := resume, cause0 := if tm then f.tcause else 0, kind := 0, peer := 0, cycle := s.cycles })

/-- Table 18-1: the number of every code, and whether a handler may take it. -/
def codeTable : List (Code × Nat × Bool) :=
  [(.illegalOp, 0x01, true), (.reservedField, 0x02, true), (.privilege, 0x03, true), (.misalign, 0x04, true),
   (.translation, 0x05, true), (.protection, 0x06, true), (.scratchBounds, 0x07, true), (.peerInvalid, 0x08, true),
   (.divstackFull, 0x09, true), (.stallShort, 0x0A, true), (.window, 0x0B, true), (.queueState, 0x0C, true),
   (.poison, 0x0D, true), (.engineParam, 0x0E, true), (.ticketPoison, 0x0F, true), (.late, 0x10, true),
   (.trapSw, 0x11, true), (.brk, 0x12, true), (.watchFull, 0x13, true), (.peerFault, 0x14, false),
   (.watchdog, 0x15, false), (.delivery, 0x16, true), (.tokenMisuse, 0x17, true)]

/-! ## Arbiters and slack (07 R139 to R141) -/

/-- The grant of R140 among the heads of the streams. -/
def GrantsByRule : Prop :=
  ∀ (nonbg : Nat) (bs : List Bid) (b : Bid), grantOf nonbg bs = some b → b ∈ bs ∧
    (if bs.any fun c => decide (256 ≤ c.lost) then 256 ≤ b.lost ∧ ∀ c ∈ bs, 256 ≤ c.lost → b.entered ≤ c.entered
     else if decide (63 ≤ nonbg) && bs.any fun c => c.slack == 0xFFF then
       b.slack = 0xFFF ∧ ∀ c ∈ bs, c.slack = 0xFFF → b.entered ≤ c.entered
     else if bs.any fun c => c.late && c.slack != 0xFFF then
       b.late = true ∧ b.slack ≠ 0xFFF ∧ ∀ c ∈ bs, c.late = true → c.slack ≠ 0xFFF → b.entered ≤ c.entered
     else ∀ c ∈ bs, b.slack ≤ c.slack ∧ (c.slack = b.slack → b.entered ≤ c.entered))

/-- The packets of Table 7-6, and the bids at a tick of those not yet granted. -/
def packetsAt (tick : Nat) (left : List Nat) : List Bid :=
  [(0, 100, 40), (1, 103, 10), (2, 90, 0xFFF), (3, 101, 4)].filterMap fun (k, entered, slack) =>
    if left.contains k then bidOf k tick [⟨slack, false, entered, 0⟩] else none

/-! ## Byte-count barriers (08 R159) -/

/-- The object of Table 8-3: EXPECT, ARRIVED, PHASE, FLAGS. -/
def barrierObject (expect arrived phase flags : Word) : List Byte :=
  leBytes 4 expect.toNat ++ leBytes 4 arrived.toNat ++ leBytes 4 phase.toNat ++ leBytes 4 flags.toNat

/-- R159: an addition of n. -/
def AdditionsCount : Prop :=
  ∀ (expect arrived phase flags : Word) (n add : Nat),
    let sum := min 0xFFFFFFFF (arrived.toNat + n)
    let flips := decide (expect ≠ 0) && decide (expect.toNat ≤ sum)
    let rest := if flips then sum - expect.toNat else sum
    -- saturation, or enough for a further flip, sets ERR
    let err := decide (0xFFFFFFFF < arrived.toNat + n) || (flips && decide (expect.toNat ≤ rest))
    barrierSum (barrierObject expect arrived phase flags) n add =
      barrierObject expect (BitVec.ofNat 32 rest) (if flips then phase ^^^ 1 else phase)
        (flags ||| BitVec.ofNat 32 add ||| if err then 2 else 0)

/-! ## Decoding (02) and the step -/

/-- The bytes of an instruction's words in memory order. -/
def bytesOf (i : Instr) : List Byte := (encode i).flatMap wordBytes


/-- The words of the examples in 02, 03, 05, 09, 12, 13 and 14, with the operands that the example gives them. -/
noncomputable def sampleWords : List (Word × Instr) :=
  [(0x00043044, Instr.lAdd ⟨0, 0, 1, 3, 1, 4⟩), (0x26108086, Instr.lLd ⟨1, 0, 4, 8, 2, 6⟩),
   (0x8C1FFFFB, Instr.br ⟨0, 1, 0x1FFFFB⟩), (0x83258000, Instr.uLi ⟨0, 0, 11, 0⟩),
   (0x8000B2CC, Instr.uAdd ⟨0, 0, 0, 11, 11, 12⟩), (0x83C40004, Instr.uAddi64 ⟨0, 0, 8, 4⟩),
   (0x84657FFD, Instr.loopW ⟨0, 0, 10, 0x7FFD⟩), (0x8530B103, Instr.uSt ⟨0, 0, 4, 11, 4, 3⟩),
   (0x84500000, Instr.ret ⟨0, 0⟩), (0x87C02080, Instr.sysr ⟨0, 0, 8, 8⟩), (0x87D43200, Instr.slackImm ⟨0, 0, 200⟩),
   (0x018D1049, Instr.lCmpN32 ⟨0, 0, 1, 2, 1, 1, 9⟩), (0x05200006, Instr.lDmark ⟨0, 6⟩),
   (0x0D000003, Instr.lDbr ⟨0, 1, 3⟩), (0x05A10064, Instr.lMovi ⟨0, 0, 2, 100⟩)] ++
  [(0x04403080, Instr.lScanAddI32 ⟨0, 0, 0, 3, 2, 0⟩), (0x064C4088, Instr.lLdAcq ⟨0, 0, 3, 4, 2, 8⟩),
   (0x06A46088, Instr.lAtomxCas ⟨0, 0, 6, 2, 8⟩), (0x06C0500A, Instr.lRatom ⟨0, 0, 0, 5, 10⟩),
   (0x06C0504A, Instr.lRatomAddF32 ⟨0, 0, 5, 10⟩), (0x85714008, Instr.uStRel ⟨0, 0, 4, 20, 0, 8⟩),
   (0x85809308, Instr.uAtom ⟨0, 0, 0, 9, 12, 8⟩), (0x85D54204, Instr.smap ⟨0, 0, 1, 20, 8, 4⟩),
   (0x85EC0000, Instr.cwaitSt ⟨0, 0, 1, 0⟩), (0x86140003, Instr.barSync ⟨0, 0, 1, 0, 3⟩),
   (0x86470041, Instr.qbind ⟨0, 0, 48, 1, 1⟩), (0x86481C14, Instr.qgive ⟨0, 0, 0, 1, 48, 20⟩),
   (0x86600201, Instr.tkwait ⟨0, 0, 0, 8, 1⟩), (0x8685E302, Instr.watchArm ⟨0, 0, 30, 12, 2⟩),
   (0x86CCA201, Instr.post ⟨0, 0, 1, 10, 8, 1⟩)] ++
  [(0x86ED5300, Instr.bcwait ⟨0, 0, 1, 21, 12, 0⟩), (0x87014601, Instr.mma ⟨0, 0, 10, 12, 1⟩),
   (0x87200002, Instr.mswap ⟨0, 0, 2⟩), (0x8728000B, Instr.mclr ⟨0, 0, 1, 3⟩),
   (0x873004A2, Instr.mflag ⟨0, 0, 9, 1, 0, 0, 2⟩), (0x87414002, Instr.cpy ⟨0, 0, 10, 2⟩),
   (0x87414A01, Instr.cpyMc ⟨0, 0, 10, 20, 1⟩), (0x87498003, Instr.cpyr ⟨0, 0, 12, 3⟩),
   (0x8751C000, Instr.gath ⟨0, 0, 14, 0⟩), (0x875A0005, Instr.qdual ⟨0, 0, 16, 5⟩),
   (0x87624011, Instr.ldrain ⟨0, 0, 18, 2, 1⟩), (0x879A8B03, Instr.pgopCow ⟨0, 0, 20, 22⟩),
   (0x87698A00, Instr.samp ⟨0, 0, 12, 20⟩), (0x87718A01, Instr.rng ⟨0, 0, 12, 20, 1⟩),
   (0x87780A00, Instr.repW ⟨0, 0, 20, 0⟩), (0x87818A00, Instr.seqnext ⟨0, 0, 12, 20⟩),
   (0x87880A00, Instr.tokdlv ⟨0, 0, 20⟩), (0x87900A03, Instr.seqstop ⟨0, 0, 20, 3⟩),
   (0x87B82000, Instr.tclr ⟨0, 0, 2⟩)]

/-- Words that decode to no instruction, with their fault (02 R36, R41). -/
def badWords : List (Word × DecodeError) :=
  [(0x01E00000, .illegalOp), (0xFFFFFFFF, .illegalOp), (0x06149086, .reservedField)]

/-! ## `fcmp` (03 R62) -/

/-- A value that is no NaN, times 2^149; an infinity stands above every finite value. -/
def scaled (x : Word) : Int :=
  let e : Nat := x.toNat / 2 ^ 23 % 256
  let m : Nat := x.toNat % 2 ^ 23
  let v : Int := ((if e = 0 then m else (2 ^ 23 + m) * 2 ^ (e - 1) : Nat) : Int)
  if x.getLsbD 31 then -v else v

def isNaN (x : Word) : Bool := x.toNat / 2 ^ 23 % 256 == 255 && x.toNat % 2 ^ 23 != 0

def isSignalling (x : Word) : Bool := isNaN x && !x.getLsbD 22

/-- The relation and FSTAT.NV, bit 9. -/
def relF (unordered : Bool) (k : BitVec 3) (a b : Word) : Bool × Word :=
  (if isNaN a || isNaN b then unordered else cond k (scaled a) (scaled b),
   if isSignalling a || isSignalling b || (!unordered && decide (2 ≤ k) && (isNaN a || isNaN b)) then 0x200 else 0)

/-- The two forms in the uniform set. -/
def floatCompare : Instr → Option RegWord
  | .uFcmp o => some (uC o.s o.g [.s o.a.toNat, .s o.b.toNat] o.c fun f => relF false o.k (f.getS o.a.toNat) (f.getS o.b.toNat))
  | .uFcmpUn o => some (uC o.s o.g [.s o.a.toNat, .s o.b.toNat] o.c fun f => relF true o.k (f.getS o.a.toNat) (f.getS o.b.toNat))
  | _ => none

/-! ## Floating-point arithmetic (01 R34; 03 R59 to R64; 05 R107 to R109; 11 R204) -/

/-- A row of Table 11-2: the widths of exponent and significand, the bias, whether the greatest exponent is kept for
infinities and NaNs, and the canonical NaN. -/
structure Format where
  exp : Nat
  man : Nat
  bias : Int
  ieee : Bool
  nan : Nat

def binary32 : Format := ⟨8, 23, 127, true, 0x7FC00000⟩
def bfloat16 : Format := ⟨8, 7, 127, true, 0x7FC0⟩
def binary16 : Format := ⟨5, 10, 15, true, 0x7E00⟩
def byteE4M3 : Format := ⟨4, 3, 7, false, 0x7F⟩
def byteE5M2 : Format := ⟨5, 2, 15, true, 0x7E⟩

/-- The sign bit as a number, or 0. -/
def Format.signed (F : Format) (neg : Bool) : Nat := if neg then 2 ^ (F.exp + F.man) else 0
def Format.neg (F : Format) (c : Nat) : Bool := c / 2 ^ (F.exp + F.man) % 2 == 1
def Format.mag (F : Format) (c : Nat) : Nat := c % 2 ^ (F.exp + F.man)

/-- The magnitude of the largest finite value; of E4M3 it is 0.1111.110. -/
def Format.top (F : Format) : Nat := if F.ieee then (2 ^ F.exp - 1) * 2 ^ F.man - 1 else 2 ^ (F.exp + F.man) - 2

def Format.inf (F : Format) (neg : Bool) : Nat := F.signed neg + F.top + 1
def Format.isInf (F : Format) (c : Nat) : Bool := F.ieee && F.mag c == F.top + 1
def Format.isNan (F : Format) (c : Nat) : Bool := decide (F.top < F.mag c) && !F.isInf c

/-- A NaN whose quiet bit is 0; a NaN of E4M3 is always quiet. -/
def Format.signals (F : Format) (c : Nat) : Bool := F.ieee && F.isNan c && c / 2 ^ (F.man - 1) % 2 == 0

/-- R204: the k-th magnitude of the format, as if its exponents had no end. -/
def Format.ladder (F : Format) (k : Nat) : ℚ :=
  if k / 2 ^ F.man = 0 then k * 2 ^ (1 - F.bias - F.man)
  else (2 ^ F.man + (k % 2 ^ F.man : Nat)) * 2 ^ ((k / 2 ^ F.man : Nat) - F.bias - F.man)

def Format.val (F : Format) (c : Nat) : ℚ := if F.neg c then -F.ladder (F.mag c) else F.ladder (F.mag c)

/-- FSTAT.NV, bit 9, when an operand signals. -/
def invalidIf (b : Bool) : Word := if b then 0x200 else 0

/-- Where a magnitude between two neighbours goes. -/
inductive Towards where
  | near | down | up

def Towards.of (rm : RMode) (neg : Bool) : Towards :=
  match rm with
  | .rne => .near
  | .rz => .down
  | .ru => if neg then .down else .up
  | .rd => if neg then .up else .down

/-- The magnitude x lies at l or between l and l + 1, and k is the one that the direction takes: of a tie, the even one. -/
def Format.Takes (F : Format) (t : Towards) (x : ℝ) (l k : Nat) : Prop :=
  (F.ladder l : ℝ) ≤ x ∧ x < (F.ladder (l + 1) : ℝ) ∧ (x = (F.ladder l : ℝ) → k = l) ∧
    (x ≠ (F.ladder l : ℝ) →
      match t with
      | .down => k = l
      | .up => k = l + 1
      | .near =>
        let mid : ℝ := ((F.ladder l + F.ladder (l + 1) : ℚ) : ℝ) / 2
        (x < mid → k = l) ∧ (mid < x → k = l + 1) ∧ (x = mid → k % 2 = 0 ∧ (k = l ∨ k = l + 1)))

/-- R59: x rounded to the format's precision, with exponents that have no end, stays below its least normal magnitude. -/
def Format.Tiny (F : Format) (t : Towards) (x : ℝ) : Prop :=
  let least : ℝ := 2 ^ (1 - F.bias)
  match t with
  | .near => x < least - 2 ^ (1 - F.bias - 2 - F.man)
  | .down => x < least
  | .up => x ≤ least - 2 ^ (1 - F.bias - 1 - F.man)

/-- RoundFP32 (01 R34) for any format: the magnitude x > 0 rounded with the sign. Beyond the largest finite value it gives
OF (bit 10) and NX (bit 12), and ∞ but where the rounding goes towards zero or the format has none; else NX when it is not
exact, and UF (bit 11) when it is tiny as well. -/
def Format.Rounds (F : Format) (rm : RMode) (neg : Bool) (x : ℝ) (r : Nat × Word) : Prop :=
  ∃ l k : Nat, F.Takes (.of rm neg) x l k ∧
    (F.top < k → r = (F.signed neg + (match Towards.of rm neg, F.ieee with
      | .down, _ => F.top
      | _, true => F.top + 1
      | _, false => F.top), 0x1400)) ∧
    (k ≤ F.top → r.1 = F.signed neg + k ∧ (x = (F.ladder l : ℝ) → r.2 = 0) ∧
      (x ≠ (F.ladder l : ℝ) → F.Tiny (.of rm neg) x → r.2 = 0x1800) ∧
      (x ≠ (F.ladder l : ℝ) → ¬F.Tiny (.of rm neg) x → r.2 = 0x1000))

/-- The rounding of an exact value; an exact zero has the sign given for it. -/
def Format.Gives (F : Format) (rm : RMode) (zero : Bool) (x : ℚ) (r : Nat × Word) : Prop :=
  if x = 0 then r = (F.signed zero, 0) else F.Rounds rm (decide (x < 0)) ((|x| : ℚ) : ℝ) r

/-- R59, R60: a sum. -/
def Format.Adds (F : Format) (rm : RMode) (a b : Nat) (r : Nat × Word) : Prop :=
  if F.isNan a || F.isNan b then r = (F.nan, invalidIf (F.signals a || F.signals b))
  else if F.isInf a && F.isInf b then r = if F.neg a = F.neg b then (F.inf (F.neg a), 0) else (F.nan, 0x200)
  else if F.isInf a then r = (F.inf (F.neg a), 0)
  else if F.isInf b then r = (F.inf (F.neg b), 0)
  else F.Gives rm (if F.neg a = F.neg b then F.neg a else rm == .rd) (F.val a + F.val b) r

/-- R60: 0 × ∞ in a product. -/
def Format.zeroTimesInf (F : Format) (a b : Nat) : Bool :=
  F.isInf a && decide (F.mag b = 0) || F.isInf b && decide (F.mag a = 0)

/-- R60: a product. -/
def Format.Multiplies (F : Format) (rm : RMode) (a b : Nat) (r : Nat × Word) : Prop :=
  if F.isNan a || F.isNan b then r = (F.nan, invalidIf (F.signals a || F.signals b))
  else if F.zeroTimesInf a b then r = (F.nan, 0x200)
  else if F.isInf a || F.isInf b then r = (F.inf (F.neg a != F.neg b), 0)
  else F.Gives rm (F.neg a != F.neg b) (F.val a * F.val b) r

/-- R60: a product and a sum with one rounding; 0 × ∞ raises NV even when d is a quiet NaN. -/
def Format.Fuses (F : Format) (rm : RMode) (a b d : Nat) (r : Nat × Word) : Prop :=
  let signals := F.signals a || F.signals b || F.signals d
  if F.isNan a || F.isNan b then r = (F.nan, invalidIf signals)
  else if F.zeroTimesInf a b then r = (F.nan, 0x200)
  else if F.isNan d then r = (F.nan, invalidIf signals)
  else if F.isInf a || F.isInf b then
    r = if F.isInf d && F.neg d != (F.neg a != F.neg b) then (F.nan, 0x200) else (F.inf (F.neg a != F.neg b), 0)
  else if F.isInf d then r = (F.inf (F.neg d), 0)
  else F.Gives rm (if (F.neg a != F.neg b) = F.neg d then F.neg d else rm == .rd) (F.val a * F.val b + F.val d) r

/-- A word's operation as a relation of codes. -/
def asCode (r : Word × Word) : Nat × Word := (r.1.toNat, r.2)

/-- R60: the four operations, in each rounding mode that FN names. -/
def ArithmeticRounds : Prop :=
  (List.range 4).map (fun n => rmodeOf (BitVec.ofNat 2 n)) = [.rne, .rz, .ru, .rd] ∧
    ∀ (rm : RMode) (a b d : Word),
      binary32.Adds rm a.toNat b.toNat (asCode (fadd rm a b)) ∧
      binary32.Adds rm a.toNat (b ^^^ 0x80000000).toNat (asCode (fsub rm a b)) ∧
      binary32.Multiplies rm a.toNat b.toNat (asCode (fmul rm a b)) ∧
      binary32.Fuses rm a.toNat b.toNat d.toNat (asCode (ffma rm a b d))

/-- R61: the lesser or the greater operand, −0 below +0. With one NaN operand the plain forms return the other one. -/
def ExtremesTaken : Prop :=
  ∀ (isMax nanForm : Bool) (a b : Word),
    let nan (x : Word) := binary32.isNan x.toNat
    -- −0 stands just below +0
    let key (x : Word) : ℤ := if x.getLsbD 31 then -((x.toNat % 2 ^ 31 : Nat) : ℤ) - 1 else (x.toNat % 2 ^ 31 : Nat)
    fminmax isMax nanForm a b =
      (if nan a && nan b || nanForm && (nan a || nan b) then 0x7FC00000
        else if nan a then b
        else if nan b then a
        else if isMax then (if key a < key b then b else a)
        else if key b < key a then b else a,
       invalidIf (binary32.signals a.toNat || binary32.signals b.toNat))

/-- R63, Table 3-4: the special functions, DZ being bit 13. The exact value of 1/a and of 1/√a, rounded to nearest even; of
2^a where a is an integer and of log₂ a where a is a power of two. Of the other operands of these two no rational states the
value: they raise NX. -/
def FunctionsRound : Prop :=
  ∀ a : Word,
    let c := a.toNat
    let v := binary32.val c
    let n := binary32.neg c
    let nanOut (r : Nat × Word) := r = (0x7FC00000, invalidIf (binary32.signals c))
    (if binary32.isNan c then nanOut (asCode (frcp a)) ∧ nanOut (asCode (frsq a)) ∧ nanOut (asCode (fex2 a)) ∧ nanOut (asCode (flg2 a))
     else if binary32.isInf c then
       asCode (frcp a) = (binary32.signed n, 0) ∧ asCode (frsq a) = (if n then (0x7FC00000, 0x200) else (0, 0)) ∧
         asCode (fex2 a) = (if n then 0 else 0x7F800000, 0) ∧
         asCode (flg2 a) = (if n then (0x7FC00000, 0x200) else (0x7F800000, 0))
     else if binary32.mag c = 0 then
       asCode (frcp a) = (binary32.inf n, 0x2000) ∧ asCode (frsq a) = (binary32.inf n, 0) ∧ asCode (fex2 a) = (0x3F800000, 0) ∧
         asCode (flg2 a) = (0xFF800000, 0x2000)
     else
       binary32.Rounds .rne n ((1 / |v| : ℚ) : ℝ) (asCode (frcp a)) ∧
       (if n then asCode (frsq a) = (0x7FC00000, 0x200)
        else ∀ y : ℝ, 0 < y → y * y * (v : ℝ) = 1 → binary32.Rounds .rne false y (asCode (frsq a))) ∧
       (∀ z : ℤ, v = z → binary32.Rounds .rne false (((2 : ℚ) ^ z : ℚ) : ℝ) (asCode (fex2 a))) ∧
       ((∀ z : ℤ, v ≠ z) → (fex2 a).2 &&& 0x1000 = 0x1000) ∧
       (if n then asCode (flg2 a) = (0x7FC00000, 0x200)
        else (∀ z : ℤ, v = 2 ^ z → binary32.Gives .rne false z (asCode (flg2 a))) ∧
          ((∀ z : ℤ, v ≠ 2 ^ z) → (flg2 a).2 &&& 0x1000 = 0x1000)))

/-- R64: a value truncated towards zero; NV alone when it is a NaN or out of range, NX when a fraction is discarded. -/
def Truncates (lo hi : ℤ) (a : Word) (r : Word × Word) : Prop :=
  let c := a.toNat
  let v := binary32.val c
  let t : ℤ := if v < 0 then ⌈v⌉ else ⌊v⌋
  if binary32.isNan c then r = (0, 0x200)
  else if binary32.isInf c then r = (BitVec.ofInt 32 (if binary32.neg c then lo else hi), 0x200)
  else if t < lo then r = (BitVec.ofInt 32 lo, 0x200)
  else if hi < t then r = (BitVec.ofInt 32 hi, 0x200)
  else r = (BitVec.ofInt 32 t, if v = t then 0 else 0x1000)

/-- 05 R107, R108: an FP32 value narrowed under RNE; E4M3 takes an infinity to ±448 with NX. -/
def Format.Narrows (F : Format) (a : Word) (r : Nat × Word) : Prop :=
  let c := a.toNat
  let n := binary32.neg c
  if binary32.isNan c then r = (F.nan, invalidIf (binary32.signals c))
  else if binary32.isInf c then r = if F.ieee then (F.inf n, 0) else (F.signed n + F.top, 0x1000)
  else F.Gives .rne n (binary32.val c) r

/-- 05 R107, R108: a value of the format widened, exactly. -/
def Format.Widens (F : Format) (c : Nat) (r : Nat × Word) : Prop :=
  if F.isNan c then r = (0x7FC00000, invalidIf (F.signals c))
  else if F.isInf c then r = (binary32.inf (F.neg c), 0)
  else ∃ k, k ≤ binary32.top ∧ binary32.ladder k = F.ladder (F.mag c) ∧ r = (binary32.signed (F.neg c) + k, 0)

/-- The conversions, and where the packed words take and leave their halves and bytes. -/
def ConversionsRound : Prop :=
  (∀ a : Word, Truncates (-2147483648) 2147483647 a (cvtI32 a) ∧ Truncates 0 4294967295 a (cvtN32 a) ∧
    binary32.Gives .rne false a.toInt (asCode (cvtFromI32 a)) ∧ binary32.Gives .rne false a.toNat (asCode (cvtFromN32 a)) ∧
    bfloat16.Narrows a (narrow bf16 a) ∧ binary16.Narrows a (narrow fp16 a) ∧
    byteE4M3.Narrows a (narrow e4m3 a) ∧ byteE5M2.Narrows a (narrow e5m2 a)) ∧
  (∀ c, c < 2 ^ 16 → bfloat16.Widens c (asCode (widen bf16 c)) ∧ binary16.Widens c (asCode (widen fp16 c))) ∧
  (∀ c, c < 2 ^ 8 → byteE4M3.Widens c (asCode (widen e4m3 c)) ∧ byteE5M2.Widens c (asCode (widen e5m2 c))) ∧
  (∀ (x : Word) (h : Nat), h < 2 → half x h = x.toNat / 65536 ^ h % 65536) ∧
  (∀ lo hi : Nat × Word, packHalves lo hi = (BitVec.ofNat 32 (lo.1 + 65536 * hi.1), lo.2 ||| hi.2)) ∧
  ∀ (x : Word) (k v j : Nat), k < 4 → j < 4 → v < 256 →
    (setField x (8 * k) 8 v).toNat / 256 ^ j % 256 = if j = k then v else x.toNat / 256 ^ j % 256

/-- 05 R109: both halves of a pair on their own; their flags are ORed. -/
def Halves (rel : Nat → (Nat × Word) → Prop) (r : Word × Word) : Prop :=
  ∃ lo hi : Nat × Word, rel 0 lo ∧ rel 1 hi ∧ r = (BitVec.ofNat 32 (lo.1 + 65536 * hi.1), lo.2 ||| hi.2)

def HalvesRound (F : Format) (m : Fmt) : Prop :=
  ∀ a b d : Word,
    let h (x : Word) (k : Nat) := x.toNat / 65536 ^ k % 65536
    Halves (fun k => F.Adds .rne (h a k) (h b k)) (hadd2 m a b) ∧ Halves (fun k => F.Multiplies .rne (h a k) (h b k)) (hmul2 m a b) ∧
      Halves (fun k => F.Fuses .rne (h a k) (h b k) (h d k)) (hfma2 m a b d)

/-! ## The point of coherence (07 R134) -/

/-- A read and a write at the point of coherence, whichever core `c` makes them. -/
def PhysicalAccess : Prop :=
  (∀ (s : State) (c : Option Nat) (pa n : Nat), s.memCanonical →
    (s.physRead c pa n).1 = bytesAt s pa n ∧ sameBytes s (s.physRead c pa n).2 ∧ (s.physRead c pa n).2.memCanonical) ∧
  ∀ (s : State) (c : Option Nat) (pa : Nat) (bs : List Byte), s.memCanonical →
    (s.physWrite c pa bs).memCanonical ∧ ∀ x, (s.physWrite c pa bs).byteAt x = storedByte bs pa x (s.byteAt x)

/-- No pass of an L word goes on in the fibre's lane; outside deterministic mode, which alone forces the order of issue, every
order is allowed (log 2). -/
def freeLane (s : State) (w : Workgroup) (f : Fibre) : Bool :=
  !w.hdr.det || s.wgs.vals.all fun x => x.core != w.core || x.fibres.vals.all fun g => g.lane != f.lane || decide (g.passEnd ≤ s.cycles)

/-- A fibre that alone can act fetches the bytes at its PC, and its step is the meaning of the instruction that they
decode to; a word that decodes to none faults there. -/
def FibreStep : Prop :=
  ∀ (s : State) (wk fid : Nat) (w : Workgroup) (f : Fibre) (b : List Byte) (t : State),
    agents s.advance = [.fibre wk fid] → s.advance.wg wk = some w → w.fibres.find fid = some f →
    fetchBytes { s.advance with cur := ⟨wk, fid, 4⟩ } w f = .ok (b, t) →
      -- the fibre keeps the word's bytes and the cycle of its issue; before a `tokpass` it is seen who is quiescent
      (∀ i rest, decodeBytes b = .ok (i, rest) →
        step s =
          -- in deterministic mode an L word whose lane is not free lets its slot pass (04 R81, R83)
          if (wordAt b 0).getLsbD 31 || freeLane t w f then
            exec i ((t.lookAround wk w i).putFibre wk { f with word := b, issuedAt := t.cycles + 1 })
          else .next (t.putFibre wk { f with issuedAt := t.cycles + 1 })) ∧
      (∀ e, decodeBytes b = .error e → step s = .next (t.raiseAt wk w f (decodeTrap e) 0))

/-- A word that cannot be fetched faults where it stands, and RIX of a word that is being resumed is kept (04 R95). -/
def FetchFaults : Prop :=
  ∀ (s : State) (wk fid : Nat) (w : Workgroup) (f : Fibre) (x : Trap),
    agents s.advance = [.fibre wk fid] → s.advance.wg wk = some w → w.fibres.find fid = some f →
    fetchBytes { s.advance with cur := ⟨wk, fid, 4⟩ } w f = .error x →
      -- the walk that ends in the fault has read its entries (07 R136)
      step s = .next (State.raise (State.faultWalk { s.advance with cur := ⟨wk, fid, 4⟩ } w.tenant x.addr.toNat x) wk w
        { (if f.rixLive then f else f.setRix 0) with midStrand := 0, fabWait := none, word := [], lanes := none } x 0 false
        f.pc f.pc)

/-- A word is fetched from where translation puts its address, as memory holds it at the point of coherence, or from the
copy of it that the core's instruction cache holds; the fetch changes no byte. -/
def FetchReadsMemory : Prop :=
  ∀ (s : State) (w : Workgroup) (a : DWord) (pa : Nat) (e : TlbEntry) (t : State),
    a.toNat < 2 ^ 56 → s.windowOf w.tenant a.toNat = none →
    s.translate (clusterOf w.core) w.tenant a.toNat 4 false a = .ok (pa, e, t) → e.x = true → t.poisoned pa 4 = false →
    t.memCanonical →
      ∃ b u, fetchWord s w a = .ok (b, u) ∧ sameBytes t u ∧
        (b = bytesAt t pa 4 ∨ ∃ l ∈ (t.core w.core).icache, l.asid = e.asid ∧ l.va = a.toNat ∧ b = l.bytes)

/-- A Samovar core that alone can act takes the interrupt that is due, or executes the word at its pc: one of Table 21-4 by
its meaning, any other word of that opcode as an illegal instruction (R364), a base instruction as RV64IMAC has it (R363;
PRESUMED, log 9); where no word can be fetched it takes an access fault. -/
def SamovarStep : Prop :=
  ∀ (s : State) (k : Nat), agents s.advance = [.samovar k] →
    let t := s.advance
    let c := t.samCore k
    let u := (t.samFetch k).2
    (∀ n, c.takes = some n → step s = .next (t.putSam k (c.interrupt n))) ∧
    (c.takes = none →
      (∀ x i, (t.samFetch k).1 = .ok (.inr x) → fld x 0 7 = 0x0B → decodeSamovar x = .ok i →
        step s = exec i { u with cur := ⟨0, 0, k⟩ }) ∧
      (∀ x e, (t.samFetch k).1 = .ok (.inr x) → fld x 0 7 = 0x0B → decodeSamovar x = .error e →
        step s = .next (u.putSam k ((u.samCore k).trap 2 (x.setWidth 64)))) ∧
      (∀ x, (t.samFetch k).1 = .ok (.inr x) → fld x 0 7 ≠ 0x0B → step s = .next (u.samStep k (.inr x))) ∧
      (∀ h, (t.samFetch k).1 = .ok (.inl h) → step s = .next (u.samStep k (.inl h))) ∧
      ∀ a, (t.samFetch k).1 = .error a → step s = .next (u.putSam k (c.trap 1 a)))

/-- A step of another agent, or a stimulus from outside, is the meaning of that step. -/
def EventStep : Prop :=
  (∀ (s : State) (i : Instr), agents s.advance = [.event i] → step s = exec i s.advance) ∧
  ∀ (s : State) (i : Instr) (is : List Stimulus), agents s.advance = [.outside] → s.advance.inbox = .row i :: is → encode i = [] →
    step s = exec i { s.advance with inbox := is }

/-- With nobody to act only time passes; of several agents one acts. -/
def OneAgentActs : Prop :=
  (∀ s : State, agents s.advance = [] → step s = .next s.advance) ∧
  ∀ s : State, 2 ≤ (agents s.advance).length →
    ∃ a ∈ agents s.advance, step s = act a { s.advance with free := s.advance.free + 1 }

/-- The Samovar words. -/
def isSamovar (i : Instr) : Bool :=
  match i with
  | .rgfetch _ => true
  | .bfext _ => true
  | .sigwait _ => true
  | .dispatch _ => true
  | _ => false

end Sys2Proof.Claims

open Sys2Proof Sys2Proof.Machine Sys2Proof.Claims

/-! # The statements -/

/-- O1: 03 R53, R55 and R57 and the other integer words of the uniform set: `rShl` to `rRol` state R53, `rAminI32` to
`rAmaxN32` R55, `rDivI32` to `rRemN32` R57. Each word completes, and writes its result and FSTAT bits alone. -/
def Obligations.UniformIntegerResults : Prop := RegWordsComplete uniInt

/-- O2: 03 R60 to R64: each floating-point word of the uniform set performs its operation of 11 on its own operands. -/
def Obligations.UniformFloatResults : Prop := RegWordsComplete uniFloat

/-- O3: 03 R62: the relation that `fcmp` writes, and NV, by the values of the operands; major 0x15, FN 0 ordered, FN 1
unordered. -/
def Obligations.FloatComparisons : Prop :=
  RegWordsComplete floatCompare ∧
    (∀ o, (encode (.uFcmp o)).map (fun x => (fld x 31 1, fld x 21 6, fld x 19 2)) = [(1, 0x15, 0)]) ∧
    ∀ o, (encode (.uFcmpUn o)).map (fun x => (fld x 31 1, fld x 21 6, fld x 19 2)) = [(1, 0x15, 1)]

/-- O4: 05 R102 to R104: each integer word of the lane set, strand by strand. -/
def Obligations.LaneIntegerResults : Prop := RegWordsComplete laneInt

/-- O5: 05 R105 to R109: each floating-point and conversion word of the lane set, strand by strand; `fsign` states R106. -/
def Obligations.LaneFloatResults : Prop := RegWordsComplete laneFloat

/-- O6: 05 R110 to R115: exchanges, scans, reductions and votes. -/
def Obligations.LaneExchangeResults : Prop := RegWordsComplete laneExchange

/-- O7: 01 R24: what a word with an empty Active or a guard of 0 does; log 69 for results behind bound ports. -/
def Obligations.EmptyWordsHaveNoEffect : Prop := EmptyWordsRetire

/-- O8: 01 R13, R14, R17: what retiring a word that completed or transferred changes, and nothing else, with the pushes of
its out ports (09 R183) and BREAK of a single step (18 R319). -/
def Obligations.RetirementAdvances : Prop := WordsRetire

/-- O9: 09 R182, R183: pops and pushes of queue ports. -/
def Obligations.PortsMoveQueueElements : Prop := PortsMoveElements

/-- O10: 03 R67 to R70, R72: transfers of control, rotation, traps and breakpoints. Which of the two faults of a target comes
first, and TADDR, are the model's choice (log 67). -/
def Obligations.ControlWordsEnd : Prop := WordsEnd control ∧ WordsEnd retiresAsNop

/-- O11: 03 R72: `tret`; 02 R49: PRIVILEGE before every other fault of an issue. What becomes of held pops when `tret` goes
elsewhere is the model's choice (log 66), and so are the order of the two faults of its target and TADDR (log 67). That the
word at TRAPPC is looked at as `tret` executes is its reading (log 12). -/
def Obligations.TrapReturns : Prop := WordsEnd trapReturn ∧ PrivilegeFirst

/-- O12: 01 R14, R15; 03 R73, R75: system registers and counters. -/
def Obligations.SystemRegisters : Prop := WordsEnd systemRegs

/-- O13: 04 R85, R86; 05 R116 to R120: the divergence stack. That a bad target is judged before a full stack is the model's
choice (log 67). -/
def Obligations.DivergenceStack : Prop := WordsEnd divergence

/-- O14: 05 R121 to R123; 04 R87 to R91: fibres, windows and rows. Where a first-fit search places
rows is the model's reading (log 17), and so is a SUB of 0 where no rule names one (log 46). That a fork which already waits at
32 fibres goes on waiting (log 85), that an ended fibre counts on its lane until it has drained (log 98), the order of the two
faults of `fork`'s start PC and TADDR (log 67) are the model's choice. -/
def Obligations.FibresAndRows : Prop := WordsEnd fibreControl ∧ StepsHappen rowSteps

/-- O15: 09 R164 to R173: the lane set's memory words, strand by strand. -/
def Obligations.LaneMemoryWords : Prop := LaneMemoryEnds laneMemory

/-- O16: 03 R71; 09 R164 to R173: the uniform set's memory words. -/
def Obligations.UniformMemoryWords : Prop := UniformMemoryEnds uniMemory

/-- O17: 09 R174: one packet, and what each strand fetches. -/
def Obligations.RepeatedAtomics : Prop :=
  (∀ o : SGODB, RatomEnds (.lRatom o) o.s o.g o.d o.b o.o.toNat) ∧
    ∀ o : SGDB, RatomEnds (.lRatomAddF32 o) o.s o.g o.d o.b 10

/-- O18: 09 R169: `pf`. -/
def Obligations.PrefetchChangesNothing : Prop := PrefetchEnds

/-- O19: 09 R175, R177: `wb`, `inv`, `sunmap`. -/
def Obligations.RangesAndMappings : Prop := RangeWordsEnd ∧ UnmapEnds

/-- O20: 09 R176, R178: `smap`, `cwait`; the faults of an `smap` with selector 0xF or into a window are the model's
reading (log 19), TADDR of its MISALIGN and SCRATCH_BOUNDS its choice (log 87). -/
def Obligations.MappingsAndCounters : Prop := WordsEnd cacheWords

/-- O21: 07 R138, R139, R143; 08 R151; 18 R320: completions, write-backs and imprecise faults. How long a request waits
is any value (log 13). -/
def Obligations.AccessesComplete : Prop := StepsHappen accessSteps

/-- O22: 07 R134; 08 R145: reads and writes at the point of coherence. -/
def Obligations.CoherentMemory : Prop := PhysicalAccess

/-- O23: 09 R166, R170: which byte of memory a store changes, and that no other changes. Which objects a store disturbs is
the model's reading (log 22); so in O25, O26 and O32. When a plain store is
performed is free (log 5); so in O26. -/
def Obligations.GlobalStoresWrite : Prop := GlobalStoreWrites

/-- O24: 09 R165; 08 R147, R150: what a load from memory delivers as it executes; until something asks for it a plain load may
read again (log 5). -/
def Obligations.GlobalLoadsRead : Prop := GlobalLoadReads

/-- O25: 09 R171, R172: an atomic fetches the old word and leaves the operation's result, `add.f32` included. -/
def Obligations.GlobalAtomicsSwap : Prop :=
  GlobalAtomicSwaps ∧ ∀ aop d e old x, atomResult aop d e old = some x → atomNew aop d e old = x

/-- O26: 07 R127, R132; 09 R166: a store to scratchpad, and one to a line that a mapping covers. -/
def Obligations.ScratchStoresWrite : Prop := ScratchStoreWrites

/-- O27: 09 R179, R180: named barriers and knots. That a count of 0 agrees with the fibres held at the first arrival is the
model's reading (log 21); so are PEER_FAULT for a fibre whose knot fails while it waits (log 15), and that a fibre which sleeps
in its wait ends the word without the token (log 14). -/
def Obligations.BarriersAndKnots : Prop := WordsEnd barriers ∧ WordsEnd knotWords

/-- O28: 09 R184: `queue`. That `qbind` judges a bound port before a slot without a knot is the model's choice (log 86). -/
def Obligations.QueueWords : Prop := WordsEnd queueWords

/-- O29: 09 R186, R187: tickets. That a late access counts for LATEC alone (log 91), and that a fibre which sleeps in its wait
ends the word without the token (log 14), are the model's reading; so in O30 and O32. -/
def Obligations.Tickets : Prop := ObjectWordsEnd tickets

/-- O30: 09 R189, R191: watches. Which free entry is taken is the model's choice (log 18). Where the arm record may lie
(log 94), a late access that counts for LATEC alone (log 91) and the end of a wait without the token (log 14) are its reading. -/
def Obligations.Watches : Prop := ObjectWordsEnd watchWords

/-- O31: 09 R192, R193; 18 R333: the commit token and the trigger. -/
def Obligations.TokenAndTrigger : Prop := WordsEnd tokenWords

/-- O32: 09 R195 to R198: byte-count barrier words. FLAGS of a phase that no flip has set (log 70), a late access that counts
for LATEC alone (log 91), and the end of a wait without the token (log 14) are the model's reading. -/
def Obligations.ByteBarrierWords : Prop := ObjectWordsEnd byteBarriers

/-- O33: 08 R159: additions to a byte-count barrier. -/
def Obligations.BarrierAdditions : Prop := AdditionsCount

/-- O34: 12 R219 to R225, R231, R238, Table 12-4: matrix words with their checks. The bounds check on the operands and the
order of the checks (log 23), and the block's address in TADDR of ENGINE_PARAM (log 51), are the model's reading; that the
running command takes one of the 16 entries is its choice (log 95), and selector 0xA of an operand gives the fault of the table
(log 76). -/
def Obligations.MatrixWords : Prop := ObjectWordsEnd matrixWords

/-- O35: 12 R220, R232, R233, R239; 08 R159: steps of the matrix engine, with the addition of a product's barrier, its LATE and
ERR, and a barrier that cannot be reached (13 R376). -/
def Obligations.MatrixEngine : Prop := StepsHappen matrixSteps

/-- O36: 13 R241 to R245, Table 13-5: copy-engine words with their checks; log 24, log 89, log 99 and log 100 name the model's
choices. The block's address in TADDR of ENGINE_PARAM is its reading (log 51), and so is the table's fault for selector 0xA
(log 76). -/
def Obligations.CopyWords : Prop := ObjectWordsEnd copyWords

/-- O37: 13 R243 to R252: steps of the copy engine (`copyGranule`, `copyCommandEnd`, `engineTranslationStall`, `cpyrApply`):
their effect wherever the head of a channel or a slice can take them, and that each completes in every state; the granule
of one step (log 24) and what poison in a command's own words does (log 88) are the model's choice. -/
def Obligations.CopyEngine : Prop :=
  StepsHappen copySteps ∧ FillsScaleMemory ∧ StallsAtFault ∧ PassedReductionEnds ∧ CopyStepsComplete

/-- O38: 13 R257 to R260, R377: page operations with their checks, and Caddy; log 27 names the model's choices, and TADDR of
ENGINE_PARAM is its reading (log 51). -/
def Obligations.PageOperations : Prop := ObjectWordsEnd pageWords ∧ StepsHappen caddySteps

/-- O39: 14 R273 to R284, R287, R288: words of a sequence, and tree registers; log 29 and log 57 name the model's
choices. -/
def Obligations.SequencesAndTrees : Prop := ObjectWordsEnd sequenceWords ∧ WordsEnd treeWords

/-- O40: 09 R194: `post`. -/
def Obligations.Posting : Prop := WordsEnd postWords

/-- O41: 21 R364: the four Samovar words; where the private SRAM lies is the model's choice (log 10), the entry of a trap
is presumed from RISC-V (log 9), and what an interrupted `sigwait` leaves is the model's choice (log 82). -/
def Obligations.SamovarWords : Prop := StepsHappen samovarSteps

/-- O42: 14 R262 to R281; 17 R301: Kettle and the launch front end; log 29, log 30, log 90, log 96, log 102 and log 104 name
the model's choices. -/
def Obligations.KettleSteps : Prop := StepsHappen kettleSteps

/-- O43: 17 R303 to R314: placement; log 31 names the model's choices. -/
def Obligations.Placement : Prop := StepsHappen placementSteps

/-- O44: 18 R326 to R335: saving, restoring, and the token's way; log 32, log 71, log 73 and, for the cycle of a receipt,
log 2 name the model's choices. -/
def Obligations.ContextsAndToken : Prop := StepsHappen contextSteps

/-- O45: 18 R318, R321 to R325: teardown, watchdogs and the resolution limit; log 33 and log 34 name the model's
choices. -/
def Obligations.FatalSteps : Prop := StepsHappen faultSteps

/-- O46: 20 R346 to R360: the fabric; the offset of a PGRD (log 52), the reasons of some notices (log 35), the SUB of a
record for a poison DONE (log 79) and what a Ledun extension of another version meets (log 81) are the model's choice. -/
def Obligations.FabricSteps : Prop := StepsHappen fabricSteps

/-- O47: 21 R370 to R375: resets and power, and that each reset and the loss of power complete; log 43 and log 64 name the
model's choices. -/
def Obligations.ResetsAndPower : Prop := StepsHappen resetSteps ∧ ResetsComplete

/-- O48: 21 R367, R368: boot and update; log 40 names the model's choices. -/
def Obligations.BootAndUpdate : Prop := StepsHappen bootSteps

/-- O49: 21 R362: SPDM and IDE; the order of the requests is presumed from SPDM (log 39), and that stream 4 is link IDE, which
covers every function, is the model's reading (log 84). -/
def Obligations.SecuritySessions : Prop := StepsHappen spdmSteps

/-- O50: 21 R365: firmware services; the limits that the spec does not state are the model's choice (log 38, log 101). -/
def Obligations.FirmwareServices : Prop := StepsHappen serviceSteps

/-- O51: 21 R369, R371, R372, R375: sensors, debug, lifecycle, power and cooling; log 42, log 44, log 45 and, for the keys and
the consent, log 84 name the model's choices. -/
def Obligations.Management : Prop := StepsHappen manageSteps

/-- O52: 21 R361, R373: the host's TLPs; that they carry physical addresses is the model's reading (log 37). -/
def Obligations.HostAccesses : Prop := StepsHappen hostSteps

/-- O53: 18 R317: how a fault is disposed of, with the entry to the handler of R319; Table 18-1: the numbers of the codes, and
which of them a handler may take. -/
def Obligations.FaultDisposal : Prop := FaultsDisposed ∧ ∀ e ∈ codeTable, e.1.num = e.2.1 ∧ e.1.handled = e.2.2

/-- O54: 03 R59 to R61, R63, R64; 05 R107 to R109: what the floating-point operations compute that the words of O2 and O5
perform, by the exact values of 11 R204: results, NaNs, FSTAT bits. Of `fex2` and `flg2` where the value is no rational number
it says NX alone. -/
def Obligations.FloatArithmetic : Prop :=
  ArithmeticRounds ∧ ExtremesTaken ∧ FunctionsRound ∧ ConversionsRound ∧ HalvesRound bfloat16 bf16 ∧ HalvesRound binary16 fp16

/-- O55: 07 R140, R141: the arbiter's grant, and the order of Table 7-7, in which packet 3 (D) goes first, then 1 (B),
0 (A) and 2 (C). -/
def Obligations.ArbiterGrants : Prop :=
  GrantsByRule ∧
    (grantOf 10 (packetsAt 105 [0, 1, 2, 3])).map (·.key) = some 3 ∧ (grantOf 11 (packetsAt 106 [0, 1, 2])).map (·.key) = some 1 ∧
    (grantOf 12 (packetsAt 107 [0, 2])).map (·.key) = some 0 ∧ (grantOf 13 (packetsAt 108 [2])).map (·.key) = some 2

/-- O56: 21 R370, Table 21-8: nothing is resident after a package cold reset, memory reads zero (the spec clears it; that
an unlisted byte reads 0 is log 6), and its list is canonical. -/
def Obligations.ResetState : Prop :=
  State.reset.wgs = [] ∧ State.reset.launches = [] ∧ State.reset.watches = [] ∧ State.reset.cycles = 0 ∧
    State.reset.pageClock = 0 ∧ State.reset.poison = [] ∧ State.reset.l2 = [] ∧ (∀ pa, State.reset.byteAt pa = 0) ∧ State.reset.memCanonical

/-- O57: every step keeps memory in its canonical form. -/
def Obligations.StepKeepsMemoryCanonical : Prop :=
  ∀ s t : State, s.memCanonical → step s = .next t → t.memCanonical

/-- O58: 02 R35 to R49; 21 R364: every well-formed instruction that has words is what its words decode to. -/
def Obligations.WordsDecodeBack : Prop :=
  (∀ i : Instr, i.wf = true → encode i ≠ [] → isSamovar i = false → decodeBytes (bytesOf i) = .ok (i, [])) ∧
    ∀ i : Instr, isSamovar i = true → ∃ x, encode i = [x] ∧ decodeSamovar x = .ok i

/-- O59: a step is the meaning of the instruction that is fetched and decoded, or of the step of the agent that acts. What
the instruction cache holds is the model's choice (log 92), and so is that in deterministic mode an L word on an occupied lane lets
its slot pass (04 R81, R83; log 2); the base instructions of Samovar are presumed from RISC-V (log 9). -/
def Obligations.StepRunsTheInstruction : Prop := FibreStep ∧ FetchFaults ∧ FetchReadsMemory ∧ SamovarStep ∧ EventStep ∧ OneAgentActs

/-- O60: words written out from the spec's examples decode to the instructions they stand for; three bad words fault. -/
def Obligations.ExampleWordsDecode : Prop :=
  (∀ e ∈ sampleWords, decodeBytes (wordBytes e.1) = .ok (e.2, [])) ∧ (∀ e ∈ badWords, decodeBytes (wordBytes e.1) = .error e.2) ∧
    decodeSamovar 0x00C5950B = .ok (.bfext ⟨12, 11, 10⟩)
end

