-- ==== Sys2Proof/Laws/Memory.lean ====
section
/-! SUPPORT. Memory: reading after writing, the canonical form, and what a recall of stash lines leaves (07 R132, R134;
08 R145). -/

namespace Sys2Proof.Machine

/-! ## Cells -/

theorem wfFrom_le {lo hi : Nat} (h : lo ≤ hi) : ∀ {m : List Host.Cell}, wfFrom hi m = true → wfFrom lo m = true
  | [], _ => rfl
  | (k, x) :: t, hm => by
    simp only [wfFrom, Bool.and_eq_true, decide_eq_true_eq] at hm ⊢
    exact ⟨⟨by omega, hm.1.2⟩, hm.2⟩

/-- An address below a canonical memory is unlisted. -/
theorem cellGet_below : ∀ {m : List Host.Cell} {lo a : Nat}, wfFrom lo m = true → a < lo → cellGet m a = emptyByte
  | [], _, _, _, _ => rfl
  | (k, x) :: t, lo, a, hm, h => by
    simp only [wfFrom, Bool.and_eq_true, decide_eq_true_eq] at hm
    have hk : k ≠ a := by omega
    simp only [cellGet, hk, if_false]
    exact cellGet_below hm.2 (by omega)

/-- A write keeps the canonical form. -/
theorem wfFrom_cellPut (b : Byte) : ∀ {m : List Host.Cell} {lo a : Nat}, wfFrom lo m = true → lo ≤ a →
    wfFrom lo (cellPut m a b) = true
  | [], lo, a, _, ha => by
    unfold cellPut
    split
    · rfl
    · rename_i hb; simp [wfFrom, ha, hb]
  | (k, x) :: t, lo, a, hm, ha => by
    have hm' := hm
    simp only [wfFrom, Bool.and_eq_true, decide_eq_true_eq] at hm'
    obtain ⟨⟨h1, h2⟩, h3⟩ := hm'
    unfold cellPut
    split
    · split
      · exact hm
      · rename_i hlt hb
        simp only [wfFrom, Bool.and_eq_true, decide_eq_true_eq]
        exact ⟨⟨ha, by simpa using hb⟩, ⟨by omega, h2⟩, h3⟩
    · split
      · split
        · exact wfFrom_le (by omega) h3
        · rename_i _ he hb
          subst he
          simp only [wfFrom, Bool.and_eq_true, decide_eq_true_eq]
          exact ⟨⟨ha, by simpa using hb⟩, h3⟩
      · simp only [wfFrom, Bool.and_eq_true, decide_eq_true_eq]
        exact ⟨⟨h1, h2⟩, wfFrom_cellPut b h3 (by omega)⟩

/-- Reading after a write of one byte. -/
theorem cellGet_cellPut (b : Byte) : ∀ {m : List Host.Cell} {lo : Nat} (a x : Nat), wfFrom lo m = true →
    cellGet (cellPut m a b) x = if x = a then b else cellGet m x
  | [], _, a, x, _ => by
    unfold cellPut
    split
    · rename_i hb; subst hb; simp [cellGet]
    · by_cases h : x = a
      · subst h; simp [cellGet]
      · simp [cellGet, h, Ne.symm h]
  | (k, y) :: t, lo, a, x, hm => by
    simp only [wfFrom, Bool.and_eq_true, decide_eq_true_eq] at hm
    obtain ⟨⟨_, _⟩, h3⟩ := hm
    unfold cellPut
    split
    · rename_i hlt
      split
      · rename_i hb
        subst hb
        by_cases h : x = a
        · subst h
          have : k ≠ x := by omega
          simp [cellGet, this, cellGet_below h3 (show x < k + 1 by omega)]
        · simp [h]
      · by_cases h : x = a
        · subst h; simp [cellGet]
        · simp [cellGet, h, Ne.symm h]
    · split
      · rename_i _ he
        subst he
        split
        · rename_i hb
          subst hb
          by_cases h : x = a
          · subst h; simp [cellGet_below h3 (Nat.lt_succ_self x)]
          · simp [cellGet, h, Ne.symm h]
        · by_cases h : x = a
          · subst h; simp [cellGet]
          · simp [cellGet, h, Ne.symm h]
      · rename_i _ hne
        by_cases h : k = x
        · subst h
          have : k ≠ a := fun e => hne e.symm
          simp [cellGet, this]
        · simp only [cellGet, h, if_false]
          rw [cellGet_cellPut b a x h3]

/-- Writing several bytes keeps the canonical form. -/
theorem wf_cellWrite : ∀ (bs : List Byte) (m : List Host.Cell) (a : Nat), Memory.wf m = true →
    Memory.wf (cellWrite m a bs) = true
  | [], _, _, h => h
  | b :: bs, _, a, h => wf_cellWrite bs _ (a + 1) (wfFrom_cellPut b h (Nat.zero_le a))

/-- Reading after writing several bytes. -/
theorem cellGet_cellWrite : ∀ (bs : List Byte) (m : List Host.Cell) (a x : Nat), Memory.wf m = true →
    cellGet (cellWrite m a bs) x = if a ≤ x ∧ x < a + bs.length then bs.getD (x - a) 0 else cellGet m x
  | [], m, a, x, _ => by
    rw [cellWrite, if_neg]
    simp only [List.length_nil]
    omega
  | b :: bs, m, a, x, h => by
    rw [cellWrite, cellGet_cellWrite bs _ (a + 1) x (wfFrom_cellPut b h (Nat.zero_le a)), cellGet_cellPut b a x h]
    by_cases h1 : x = a
    · subst h1; simp
    · by_cases h2 : a + 1 ≤ x ∧ x < a + 1 + bs.length
      · have : x - a = (x - (a + 1)) + 1 := by omega
        rw [if_pos h2, if_pos ⟨by omega, by simp only [List.length_cons]; omega⟩, this, List.getD_cons_succ]
      · rw [if_neg h2, if_neg h1, if_neg (by simp only [List.length_cons]; omega)]

/-! ## Bytes at the point of coherence -/

/-- Two sets of workgroups whose dirty lines hold the same bytes for an address show the same byte. -/
theorem cohByte_map (g : Workgroup → Workgroup) (m1 m2 : List Host.Cell) (pa : Nat)
    (hw : ∀ w, (g w).mem = w.mem)
    (hf : ∀ w, ((g w).lines.find? fun l => l.dirty && l.pa == lineOf pa) = w.lines.find? fun l => l.dirty && l.pa == lineOf pa)
    (hm : cellGet m1 pa = cellGet m2 pa) :
    ∀ wgs : Tbl Workgroup, cohByte (wgs.map fun e => (e.1, g e.2)) m1 pa = cohByte wgs m2 pa
  | [] => hm
  | (k, w) :: t => by
    simp only [List.map_cons, cohByte, hf, hw]
    split
    · rfl
    · exact cohByte_map g m1 m2 pa hw hf hm t

/-- Without a dirty line over an address its byte is memory's. -/
theorem cohByte_clean (mem : List Host.Cell) (pa : Nat) :
    ∀ wgs : Tbl Workgroup, (∀ e ∈ wgs, ∀ l ∈ e.2.lines, l.pa = lineOf pa → l.dirty = false) → cohByte wgs mem pa = cellGet mem pa
  | [], _ => rfl
  | (k, w) :: t, h => by
    have hn : (w.lines.find? fun l => l.dirty && l.pa == lineOf pa) = none := by
      rw [List.find?_eq_none]
      intro l hl
      by_cases hp : l.pa = lineOf pa
      · simp [h (k, w) (by simp) l hl hp]
      · simp [hp]
    simp only [cohByte, hn]
    exact cohByte_clean mem pa t fun e he => h e (by simp [he])

theorem recall_mem (w : Workgroup) (keep : Bool) (line : Nat) : (w.recall keep line).mem = w.mem := rfl

/-- After a recall of its line no line over an address is dirty. -/
theorem recall_clean (w : Workgroup) (keep : Bool) (line : Nat) : ∀ l ∈ (w.recall keep line).lines, l.pa = line → l.dirty = false := by
  intro l hl hp
  cases keep
  · simp only [Workgroup.recall, Bool.false_eq_true, if_false, List.mem_filter] at hl
    simp [hp] at hl
  · simp only [Workgroup.recall, if_true, List.mem_map] at hl
    obtain ⟨l0, _, rfl⟩ := hl
    by_cases h : l0.pa = line
    · simp [h]
    · simp [h] at hp

/-- A recall of one line does not touch the dirty lines over other addresses. -/
theorem recall_find (w : Workgroup) (keep : Bool) (line pa : Nat) (h : lineOf pa ≠ line) :
    ((w.recall keep line).lines.find? fun l => l.dirty && l.pa == lineOf pa) = w.lines.find? fun l => l.dirty && l.pa == lineOf pa := by
  cases keep
  · simp only [Workgroup.recall, Bool.false_eq_true, if_false, List.find?_filter]
    congr 1
    funext l
    by_cases hp : l.pa = lineOf pa
    · have : l.pa ≠ line := by rw [hp]; exact h
      simp [hp, h]
    · simp [hp]
  · simp only [Workgroup.recall, if_true]
    induction w.lines with
    | nil => rfl
    | cons l ls ih =>
      simp only [List.map_cons, List.find?_cons]
      by_cases hl : l.pa = line
      · have : l.pa ≠ lineOf pa := by rw [hl]; exact Ne.symm h
        simp only [hl, if_true]
        have hb : (line == lineOf pa) = false := by simp [Ne.symm h]
        simp [hb, ih]
      · simp [hl, ih]

/-! ## Recall -/

theorem lineOf_in {line x : Nat} (hl : line % 128 = 0) (h1 : line ≤ x) (h2 : x < line + 128) : lineOf x = line := by
  unfold lineOf; omega

/-- A recall of a line shows every agent the bytes it showed before. -/
theorem byteAt_recallLine (s : State) (keep : Bool) (line x : Nat) (hl : line % 128 = 0) (hm : s.memCanonical) :
    (s.recallLine keep line).byteAt x = s.byteAt x := by
  unfold State.recallLine
  split
  · unfold State.byteAt
    simp only [State.setMem, State.setWgs]
    by_cases hx : lineOf x = line
    · rw [cohByte_clean]
      · rw [cellGet_cellWrite _ _ _ _ hm]
        have h1 : line ≤ x ∧ x < line + 128 := by unfold lineOf at hx; omega
        have h2 : x - line < 128 := by omega
        rw [if_pos (by simpa [State.coh] using h1)]
        simp only [State.coh, List.getD_eq_getElem?_getD, List.getElem?_map, List.getElem?_range h2]
        simp [show line + (x - line) = x by omega]
      · intro e he l hl2 hp
        simp only [Tbl.each, List.mem_map] at he
        obtain ⟨e0, _, rfl⟩ := he
        exact recall_clean e0.2 keep line l hl2 (by rw [hp, hx])
    · have hm2 : cellGet (cellWrite s.mem line (s.coh line 128)) x = cellGet s.mem x := by
        rw [cellGet_cellWrite _ _ _ _ hm, if_neg]
        rintro ⟨h1, h2⟩
        exact hx (lineOf_in hl h1 (by simpa [State.coh] using h2))
      exact cohByte_map (fun w => w.recall keep line) _ _ x (fun w => recall_mem w keep line)
        (fun w => recall_find w keep line x hx) hm2 s.wgs
  · rfl

theorem canonical_recallLine (s : State) (keep : Bool) (line : Nat) (hm : s.memCanonical) : (s.recallLine keep line).memCanonical := by
  unfold State.memCanonical at *
  unfold State.recallLine
  split
  · simp only [State.setMem, State.setWgs]
    exact wf_cellWrite _ _ _ hm
  · exact hm

/-- A line that no dirty line stands over keeps that through a recall of any line. -/
theorem clean_recallLine (s : State) (keep : Bool) (line x : Nat)
    (h : lineOf x = line ∨ ∀ e ∈ s.wgs, ∀ l ∈ e.2.lines, l.pa = lineOf x → l.dirty = false) :
    ∀ e ∈ (s.recallLine keep line).wgs, ∀ l ∈ e.2.lines, l.pa = lineOf x → l.dirty = false := by
  unfold State.recallLine
  split
  · intro e he l hl hp
    simp only [State.setWgs, Tbl.each, List.mem_map] at he
    obtain ⟨e0, he0, rfl⟩ := he
    rcases h with h | h
    · exact recall_clean e0.2 keep line l hl (by rw [hp, h])
    · cases keep
      · simp only [Workgroup.recall, Bool.false_eq_true, if_false, List.mem_filter] at hl
        exact h e0 he0 l hl.1 hp
      · simp only [Workgroup.recall, if_true, List.mem_map] at hl
        obtain ⟨l0, hl0, rfl⟩ := hl
        by_cases hq : l0.pa = line
        · simp [hq]
        · simp only [hq, if_false] at hp ⊢
          exact h e0 he0 l0 hl0 hp
  · rename_i hno
    intro e he l hl hp
    rcases h with h | h
    · exfalso
      apply hno
      rw [List.any_eq_true]
      exact ⟨e, he, by rw [List.any_eq_true]; exact ⟨l, hl, by simp [hp, h]⟩⟩
    · exact h e he l hl hp

/-- Lines recalled one after another. -/
theorem recallLines (keep : Bool) (x : Nat) : ∀ (ls : List Nat) (s : State), (∀ l ∈ ls, l % 128 = 0) → s.memCanonical →
    let t := ls.foldl (fun s line => s.recallLine keep line) s
    t.byteAt x = s.byteAt x ∧ t.memCanonical ∧
      ((lineOf x ∈ ls ∨ ∀ e ∈ s.wgs, ∀ l ∈ e.2.lines, l.pa = lineOf x → l.dirty = false) →
        ∀ e ∈ t.wgs, ∀ l ∈ e.2.lines, l.pa = lineOf x → l.dirty = false)
  | [], s, _, hm => by
    refine ⟨rfl, hm, fun h => ?_⟩
    rcases h with h | h
    · simp at h
    · exact h
  | a :: ls, s, hl, hm => by
    obtain ⟨h1, h2, h3⟩ := recallLines keep x ls (s.recallLine keep a) (fun l h => hl l (by simp [h]))
      (canonical_recallLine s keep a hm)
    refine ⟨?_, h2, fun h => h3 ?_⟩
    · rw [← byteAt_recallLine s keep a x (hl a (by simp)) hm]; exact h1
    · by_cases hx : lineOf x ∈ ls
      · exact .inl hx
      · refine .inr (clean_recallLine s keep a x ?_)
        rcases h with h | h
        · rcases List.mem_cons.mp h with h | h
          · exact .inl h
          · exact absurd h hx
        · exact .inr h

theorem mem_lines {pa n x : Nat} (h1 : pa ≤ x) (h2 : x < pa + n) :
    lineOf x ∈ linesTouched pa n := by
  rw [linesTouched, List.mem_map]
  refine ⟨x / 128 - pa / 128, List.mem_range.mpr ?_, ?_⟩
  · omega
  · unfold lineOf; omega

theorem linesTouched_mod {pa n : Nat} : ∀ l ∈ linesTouched pa n, l % 128 = 0 := by
  intro l h
  rw [linesTouched, List.mem_map] at h
  obtain ⟨k, _, rfl⟩ := h
  omega

/-- A recall shows every agent the bytes it showed before. -/
theorem byteAt_recall (s : State) (keep : Bool) (pa n x : Nat) (hm : s.memCanonical) : (s.recall keep pa n).byteAt x = s.byteAt x := by
  exact (recallLines keep x _ s linesTouched_mod hm).1

/-- A recall keeps the canonical form. -/
theorem canonical_recall (s : State) (keep : Bool) (pa n : Nat) (hm : s.memCanonical) : (s.recall keep pa n).memCanonical := by
  exact (recallLines keep 0 _ s linesTouched_mod hm).2.1

/-- After a recall memory itself holds the bytes of the range, and no dirty line stands over it. -/
theorem clean_recall (s : State) (keep : Bool) (pa n x : Nat) (hm : s.memCanonical) (h1 : pa ≤ x) (h2 : x < pa + n) :
    ∀ e ∈ (s.recall keep pa n).wgs, ∀ l ∈ e.2.lines, l.pa = lineOf x → l.dirty = false := by
  exact (recallLines keep x _ s linesTouched_mod hm).2.2
    (.inl (mem_lines h1 h2))

/-! ## Parts of the state that hold no memory -/

theorem disown_mem (s : State) (keep : Option Nat) (line : Nat) : (s.disown keep line).mem = s.mem ∧ (s.disown keep line).wgs = s.wgs := by
  unfold State.disown; split <;> exact ⟨rfl, rfl⟩

theorem l2Room_mem (s : State) (line : Nat) : (s.l2Room line).mem = s.mem ∧ (s.l2Room line).wgs = s.wgs := by
  unfold State.l2Room
  simp only []
  split <;> exact ⟨rfl, rfl⟩

/-- The check that a read verifies leaves memory and workgroups as they are. -/
theorem verify_mem (s : State) (pa n : Nat) : (s.verify pa n).mem = s.mem ∧ (s.verify pa n).wgs = s.wgs := by
  unfold State.verify
  simp only []
  split <;> exact ⟨rfl, rfl⟩

/-- What an L2 notes of a line that it is about to modify leaves memory and workgroups as they are. -/
theorem modifyLine_mem (s : State) (line : Nat) : (s.modifyLine line).mem = s.mem ∧ (s.modifyLine line).wgs = s.wgs := by
  unfold State.modifyLine
  simp only []
  split
  · exact ⟨rfl, rfl⟩
  · exact ⟨rfl, rfl⟩
  · split
    · exact l2Room_mem s line
    · split <;> exact ⟨rfl, rfl⟩

theorem modify_mem (s : State) (pa n : Nat) : (s.modify pa n).mem = s.mem ∧ (s.modify pa n).wgs = s.wgs := by
  unfold State.modify
  induction linesTouched pa n generalizing s with
  | nil => exact ⟨rfl, rfl⟩
  | cons a as ih =>
    rw [List.foldl_cons]
    exact ⟨(ih _).1.trans (modifyLine_mem s a).1, (ih _).2.trans (modifyLine_mem s a).2⟩

theorem refresh_mem (s : State) (c pa n : Nat) : (s.refresh c pa n).mem = s.mem ∧ (s.refresh c pa n).wgs = s.wgs := by
  unfold State.refresh
  simp only []
  split <;> exact ⟨rfl, rfl⟩

theorem evalWatches_mem (s : State) (pa n : Nat) : (s.evalWatches pa n).mem = s.mem ∧ (s.evalWatches pa n).wgs = s.wgs := ⟨rfl, rfl⟩

/-- The state after a write: its memory and its workgroups. -/
theorem physWrite_mem (s : State) (c : Option Nat) (pa : Nat) (bs : List Byte) :
    (s.physWrite c pa bs).mem = cellWrite (s.recall false pa bs.length).mem pa bs ∧
      (s.physWrite c pa bs).wgs = (s.recall false pa bs.length).wgs := by
  have hd := disown_mem (s.recall false pa bs.length) c (lineOf pa)
  unfold State.physWrite
  simp only [evalWatches_mem]
  cases c with
  | none => simp only []; split <;> simp [State.setMem, State.setPoison, State.setStale, modify_mem, hd]
  | some k =>
    simp only [refresh_mem]
    split <;> simp [State.setMem, State.setPoison, State.setStale, modify_mem, hd]

/-- The state after a read: its memory and its workgroups. -/
theorem physRead_mem (s : State) (c : Option Nat) (pa n : Nat) :
    (s.physRead c pa n).2.mem = (s.recall true pa n).mem ∧ (s.physRead c pa n).2.wgs = (s.recall true pa n).wgs := by
  have hd := disown_mem (s.recall true pa n) c (lineOf pa)
  unfold State.physRead
  cases c with
  | none => simp only [verify_mem]; exact hd
  | some k => simp only [refresh_mem, verify_mem]; exact hd

/-- A write at the point of coherence keeps the canonical form. -/
theorem canonical_physWrite (s : State) (c : Option Nat) (pa : Nat) (bs : List Byte) (h : s.memCanonical) :
    (s.physWrite c pa bs).memCanonical := by
  unfold State.memCanonical
  rw [(physWrite_mem s c pa bs).1]
  exact wf_cellWrite _ _ _ (canonical_recall s false pa bs.length h)

/-- A read at the point of coherence keeps the canonical form. -/
theorem canonical_physRead (s : State) (c : Option Nat) (pa n : Nat) (h : s.memCanonical) : (s.physRead c pa n).2.memCanonical := by
  unfold State.memCanonical
  rw [(physRead_mem s c pa n).1]
  exact canonical_recall s true pa n h

/-- Memory after reset is canonical. -/
theorem canonical_reset : State.reset.memCanonical := rfl

end Sys2Proof.Machine
end

