-- ==== Sys2Proof/Laws/Registers.lean ====
section
/-! SUPPORT. What writing a register does to every register, and what the strand loop of a lane word writes. -/

namespace Sys2Proof.Machine

/-! ## Vectors and masks -/

theorem vget_vset {α : Type} {n : Nat} (v : Vector α n) (i j : Nat) (a d : α) :
    vget (vset v i a) j d = if i = j ∧ i < n then a else vget v j d := by
  unfold vget vset
  rw [Vector.getElem?_setIfInBounds]
  by_cases h : i = j
  · subst h
    by_cases hi : i < n
    · simp [hi]
    · simp [hi]
  · simp [h]

theorem bit_setBit {w : Nat} (x : BitVec w) (i j : Nat) (b : Bool) :
    bit (setBit x i b) j = if i = j ∧ i < w then b else bit x j := by
  unfold bit setBit
  cases b
  · by_cases h : i = j
    · subst h
      by_cases hi : i < w
      · simp [hi]
      · simp [hi, BitVec.getLsbD_of_ge x i (Nat.le_of_not_lt hi)]
    · have hk : ∀ k, j - i = k → j < i ∨ k ≠ 0 := fun k hk => by omega
      simp only [if_neg (fun c : i = j ∧ i < w => h c.1), Bool.false_eq_true, if_false,
        BitVec.getLsbD_and, BitVec.getLsbD_not, BitVec.getLsbD_shiftLeft, BitVec.getLsbD_one]
      by_cases hj : j < w
      · rcases Nat.lt_or_ge j i with hlt | hge
        · simp [hj, hlt]
        · have : j - i ≠ 0 := by omega
          simp [hj, this]
      · simp [BitVec.getLsbD_of_ge x j (Nat.le_of_not_lt hj)]
  · by_cases h : i = j
    · subst h
      by_cases hi : i < w
      · simp [hi]
      · simp [hi, BitVec.getLsbD_of_ge x i (Nat.le_of_not_lt hi)]
    · simp only [if_neg (fun c : i = j ∧ i < w => h c.1), if_true,
        BitVec.getLsbD_or, BitVec.getLsbD_shiftLeft, BitVec.getLsbD_one]
      by_cases hj : j < w
      · rcases Nat.lt_or_ge j i with hlt | hge
        · simp [hlt]
        · have : j - i ≠ 0 := by omega
          simp [this]
      · simp [hj]

/-! ## One register -/

/-- A register that the machine has: its number lies in its file. -/
def Reg.exists_ : Reg → Prop
  | .s n => n < 64
  | .c n => n < 8
  | .v row i => row < 64 ∧ i < 16
  | .p n i => n < 8 ∧ i < 16

/-- A register whose writes are discarded: s0, c0, p0 (01 R10, R12). -/
def Reg.fixed : Reg → Bool
  | .s n => n == 0
  | .c n => n == 0
  | .v _ _ => false
  | .p n _ => n == 0

/-- A value that a register can hold: one bit for conditions and predicates. -/
def Reg.holds : Reg → Word → Prop
  | .c _, x => x = 0 ∨ x = 1
  | .p _ _, x => x = 0 ∨ x = 1
  | _, _ => True

theorem b2w_holds (b : Bool) : b2w b = 0 ∨ b2w b = 1 := by cases b <;> simp [b2w]

theorem stored_store (f : Fibre) (r q : Reg) (x : Word) (he : r.exists_) (hf : r.fixed = false) (hx : r.holds x) :
    (f.store r x).stored q = if r = q then x else f.stored q := by
  have bw : ∀ y : Word, (y = 0 ∨ y = 1) → b2w (y != 0) = y := by
    rintro y (rfl | rfl) <;> decide
  cases r with
  | s n =>
    have hn : n ≠ 0 := by simpa [Reg.fixed] using hf
    cases q <;> simp [Fibre.store, Fibre.stored, hn, vget_vset]
    rename_i m
    by_cases hm : n = m
    · subst hm; simp [hn, show n < 64 from he]
    · simp [hm]
  | c n =>
    have hn : n ≠ 0 := by simpa [Reg.fixed] using hf
    cases q <;> simp [Fibre.store, Fibre.stored, hn, vget_vset]
    rename_i m
    by_cases hm : n = m
    · subst hm; simp [hn, show n < 8 from he]; exact bw x hx
    · simp [hm]
  | v row i =>
    obtain ⟨hr, hi⟩ : row < 64 ∧ i < 16 := he
    cases q <;> simp [Fibre.store, Fibre.stored, vget_vset]
    rename_i row' i'
    by_cases h1 : row = row'
    · subst h1
      by_cases h2 : i = i'
      · subst h2; simp [hr, hi, vget_vset]
      · simp [hr, h2, vget_vset]
    · simp [h1]
  | p n i =>
    have hn : n ≠ 0 := by simpa [Reg.fixed] using hf
    obtain ⟨h8, h16⟩ : n < 8 ∧ i < 16 := he
    cases q <;> simp [Fibre.store, Fibre.stored, hn, vget_vset]
    rename_i m i'
    by_cases hm : n = m
    · subst hm
      by_cases h2 : i = i'
      · subst h2; simp [hn, h8, h16, bit_setBit]; exact bw x hx
      · simp [hn, h8, h2, bit_setBit]
    · simp [hm]

theorem newest_append (r : Reg) (l m : List InFlight) (d : Word) : newest r (l ++ m) d = newest r m (newest r l d) := by
  induction l generalizing d with
  | nil => rfl
  | cons e es ih => simp [newest, ih]

theorem newest_skip (r q : Reg) (h : r ≠ q) (l : List InFlight) (d : Word) :
    newest q (l.filter fun e => decide (e.reg ≠ r)) d = newest q l d := by
  induction l generalizing d with
  | nil => rfl
  | cons e es ih =>
    by_cases he : e.reg = r
    · simp only [ne_eq, decide_not] at ih
      have : e.reg ≠ q := by rw [he]; exact h
      simp [newest, he, ih, h]
    · simp only [ne_eq, decide_not] at ih
      simp [newest, he, ih]

theorem newest_none (r : Reg) (l : List InFlight) (d : Word) :
    newest r (l.filter fun e => decide (e.reg ≠ r)) d = d := by
  induction l with
  | nil => rfl
  | cons e es ih =>
    by_cases he : e.reg = r
    · simpa [he] using ih
    · simp [he, newest]
      simpa using ih

/-- A fixed-latency write: the register will hold the value, every other one is unchanged. -/
theorem readNow_writeAt (f : Fibre) (t : Nat) (r q : Reg) (x : Word) :
    (f.writeAt t r x).readNow q = if r = q then x else f.readNow q := by
  unfold Fibre.readNow Fibre.writeAt
  simp only [newest_append]
  by_cases h : r = q
  · simp [newest, h]
  · simp only [newest, h, if_false]
    rfl

/-- A variable-latency write, likewise. -/
theorem readNow_writeNow (f : Fibre) (r q : Reg) (x : Word) (he : r.exists_) (hf : r.fixed = false) (hx : r.holds x) :
    (f.writeNow r x).readNow q = if r = q then x else f.readNow q := by
  unfold Fibre.readNow Fibre.writeNow
  have hst : ({ f.store r x with pend := f.pend.filter fun e => decide (e.reg ≠ r) } : Fibre).stored q
      = (f.store r x).stored q := by cases q <;> rfl
  rw [hst, stored_store f r q x he hf hx]
  by_cases h : r = q
  · subst h; rw [if_pos rfl, if_pos rfl]; exact newest_none r f.pend x
  · simp only [h, if_false]
    exact newest_skip r q h _ _

/-! ## What a write leaves -/

/-- Only registers, results in flight and FSTAT differ. -/
def SameRest (g h : Fibre) : Prop :=
  { h with s := g.s, v := g.v, p := g.p, c := g.c, pend := g.pend, fstat := g.fstat } = g

theorem SameRest.refl (g : Fibre) : SameRest g g := rfl

theorem SameRest.trans {f g h : Fibre} (a : SameRest f g) (b : SameRest g h) : SameRest f h := by
  unfold SameRest at *
  rw [← a, ← b]

theorem sameRest_store (f : Fibre) (r : Reg) (x : Word) : SameRest f (f.store r x) := by
  unfold SameRest
  cases r <;> simp only [Fibre.store] <;> (try split) <;> rfl

theorem fstat_store (f : Fibre) (r : Reg) (x : Word) : (f.store r x).fstat = f.fstat := by
  cases r <;> simp only [Fibre.store] <;> (try split) <;> rfl

theorem sameRest_writeAt (f : Fibre) (t : Nat) (r : Reg) (x : Word) : SameRest f (f.writeAt t r x) := rfl

theorem sameRest_writeNow (f : Fibre) (r : Reg) (x : Word) : SameRest f (f.writeNow r x) := by
  have := sameRest_store f r x
  unfold SameRest at *
  exact this

theorem sameRest_sticky (f : Fibre) (m : Word) : SameRest f (f.sticky m) := rfl

theorem readNow_sticky (f : Fibre) (m : Word) (r : Reg) : (f.sticky m).readNow r = f.readNow r := by
  cases r <;> rfl

/-! ## Several writes -/

theorem lastOf_append (l m : List (Reg × Word)) (r : Reg) (d : Word) : lastOf (l ++ m) r d = lastOf m r (lastOf l r d) := by
  induction l generalizing d with
  | nil => rfl
  | cons e es ih => simp [lastOf, ih]

theorem Wrote.refl (g : Fibre) : Wrote g g [] 0 := ⟨fun _ => rfl, by simp, rfl⟩

/-- Writes one after another. -/
theorem Wrote.trans {f g h : Fibre} {l m : List (Reg × Word)} {a b : Word} (x : Wrote f g l a) (y : Wrote g h m b) :
    Wrote f h (l ++ m) (a ||| b) :=
  ⟨fun r => by rw [y.regs, x.regs, lastOf_append], by rw [y.status, x.status, BitVec.or_assoc],
    SameRest.trans x.rest y.rest⟩

theorem wrote_writeAt (f : Fibre) (t : Nat) (r : Reg) (x : Word) : Wrote f (f.writeAt t r x) [(r, x)] 0 :=
  ⟨fun q => by simp [readNow_writeAt, lastOf], by simp [Fibre.writeAt], rfl⟩

theorem wrote_writeNow (f : Fibre) (r : Reg) (x : Word) (he : r.exists_) (hf : r.fixed = false) (hx : r.holds x) :
    Wrote f (f.writeNow r x) [(r, x)] 0 :=
  ⟨fun q => by simp [readNow_writeNow f r q x he hf hx, lastOf],
    by simp [Fibre.writeNow, fstat_store], sameRest_writeNow f r x⟩

theorem wrote_sticky (f : Fibre) (m : Word) : Wrote f (f.sticky m) [] m :=
  ⟨fun q => by simp [readNow_sticky, lastOf], rfl, rfl⟩

/-! ## The writes of the meanings -/

theorem wrote_setS (f : Fibre) (lat n : Nat) (x : Word) : Wrote f (f.setS lat n x) (toS n x) 0 := by
  unfold Fibre.setS toS
  split
  · exact Wrote.refl f
  · exact wrote_writeAt _ _ _ _

theorem wrote_putS (f : Fibre) (n : Nat) (x : Word) (h : n < 64) : Wrote f (f.putS n x) (toS n x) 0 := by
  unfold Fibre.putS toS
  split
  · exact Wrote.refl f
  · rename_i hn; exact wrote_writeNow _ _ _ h (by simpa [Reg.fixed] using hn) trivial

theorem wrote_setC (f : Fibre) (lat n : Nat) (x : Bool) : Wrote f (f.setC lat n x) (toC n x) 0 := by
  unfold Fibre.setC toC
  split
  · exact Wrote.refl f
  · exact wrote_writeAt _ _ _ _

theorem wrote_putC (f : Fibre) (n : Nat) (x : Bool) (h : n < 8) : Wrote f (f.putC n x) (toC n x) 0 := by
  unfold Fibre.putC toC
  split
  · exact Wrote.refl f
  · rename_i hn; exact wrote_writeNow _ _ _ h (by simpa [Reg.fixed] using hn) (b2w_holds x)

theorem wrote_putS64 (f : Fibre) (n : Nat) (x : DWord) (h : n + 1 < 64) : Wrote f (f.putS64 n x) (toS64 n x) 0 := by
  unfold Fibre.putS64 toS64
  split
  · exact Wrote.refl f
  · rename_i hn
    have a := wrote_putS f n (loWord x) (by omega)
    have b := wrote_putS (f.putS n (loWord x)) (n + 1) (hiWord x) h
    have c := a.trans b
    simpa [toS, hn] using c

theorem wrote_setS64 (f : Fibre) (lat n : Nat) (x : DWord) : Wrote f (f.setS64 lat n x) (toS64 n x) 0 := by
  unfold Fibre.setS64 toS64
  split
  · exact Wrote.refl f
  · rename_i hn
    have a := wrote_setS f lat n (loWord x)
    have b := wrote_setS (f.setS lat n (loWord x)) lat (n + 1) (hiWord x)
    have c := a.trans b
    simpa [toS, hn] using c

theorem phys_lt (f : Fibre) (n : Nat) : f.phys n < 64 := Nat.mod_lt _ (by decide)

theorem wrote_putV (f : Fibre) (i n : Nat) (x : Word) (h : i < 16) :
    Wrote f (f.putV i n x) [(.v (f.phys n) i, x)] 0 :=
  wrote_writeNow _ _ _ ⟨phys_lt f n, h⟩ rfl trivial

theorem wrote_resV (f : Fibre) (l : Lat) (i j n : Nat) (x : Word) (h : i < 16) :
    Wrote f (f.resV l i j n x) [(.v (f.phys n) i, x)] 0 := by
  match l with
  | .fixed c => exact wrote_writeAt _ _ _ _
  | .variable => exact wrote_putV f i n x h

theorem wrote_resP (f : Fibre) (l : Lat) (i j n : Nat) (x : Bool) (h : i < 16) (h8 : n < 8) :
    Wrote f (f.resP l i j n x) (if n = 0 then [] else [(.p n i, b2w x)]) 0 := by
  match l with
  | .fixed c =>
    simp only [Fibre.resP, Fibre.setP]
    split
    · exact Wrote.refl f
    · exact wrote_writeAt _ _ _ _
  | .variable =>
    simp only [Fibre.resP, Fibre.putP]
    split
    · exact Wrote.refl f
    · rename_i hn; exact wrote_writeNow _ _ _ ⟨h8, h⟩ (by simpa [Reg.fixed] using hn) (b2w_holds x)

theorem wrote_resS (f : Fibre) (l : Lat) (n : Nat) (x : Word) (h : n < 64) : Wrote f (f.resS l n x) (toS n x) 0 := by
  match l with
  | .fixed c => exact wrote_setS f c n x
  | .variable => exact wrote_putS f n x h

theorem wrote_resC (f : Fibre) (l : Lat) (n : Nat) (x : Bool) (h : n < 8) : Wrote f (f.resC l n x) (toC n x) 0 := by
  match l with
  | .fixed c => exact wrote_setC f c n x
  | .variable => exact wrote_putC f n x h

theorem phys_of_sameRest {g h : Fibre} (e : SameRest g h) (n : Nat) : h.phys n = g.phys n := by
  unfold SameRest at e
  have hw : h.win = g.win := by have x := congrArg Fibre.win e; exact x
  have hr : h.rots = g.rots := by have x := congrArg Fibre.rots e; exact x
  have hb : h.rotb = g.rotb := by have x := congrArg Fibre.rotb e; exact x
  unfold Fibre.phys
  rw [hw, hr, hb]

/-! ## Strands -/

theorem strand_lt {m : BitVec 16} {i : Nat} (h : i ∈ strandsOf m) : i < 16 := by
  unfold strandsOf at h
  exact List.mem_range.mp (List.mem_of_mem_filter h)

/-- The strands of an L word that has more than the one pass. -/
theorem runners_lt {u : Use} {f : Fibre} {i : Nat} (h : i ∈ runners u f) : i < 16 := by
  unfold runners at h
  split at h
  · split at h
    · simp at h; omega
    · unfold Fibre.actives at h
      exact strand_lt (List.mem_of_mem_filter h)
  · split at h
    · simp at h; omega
    · simp at h

/-- A strand loop whose body makes one write per strand, of a value that does not depend on the writes before it. -/
theorem wrote_overStrands (g : Fibre) (step : Nat → Nat → Fibre → Fibre) (ws : Nat → Nat → List (Reg × Word))
    (fl : Nat → Nat → Word)
    (hs : ∀ i j h, i < 16 → SameRest g h → Wrote h (step i j h) (ws i j) (fl i j)) :
    ∀ (act : List Nat) (k : Nat) (h : Fibre), (∀ i ∈ act, i < 16) → SameRest g h →
      Wrote h (overStrands step act k h) ((act.zipIdx k).flatMap fun e => ws e.1 e.2)
        ((act.zipIdx k).foldl (fun m e => m ||| fl e.1 e.2) 0) := by
  intro act
  induction act with
  | nil => intro k h _ _; exact Wrote.refl h
  | cons i is ih =>
    intro k h hlt hr
    have a := hs i k h (hlt i (by simp)) hr
    have b := ih (k + 1) (step i k h) (fun x hx => hlt x (by simp [hx])) (hr.trans a.rest)
    have c := a.trans b
    have hfold : ∀ (l : List (Nat × Nat)) (z : Word),
        l.foldl (fun m e => m ||| fl e.1 e.2) z = z ||| l.foldl (fun m e => m ||| fl e.1 e.2) 0 := by
      intro l
      induction l with
      | nil => intro z; simp
      | cons e es ih2 => intro z; simp only [List.foldl_cons]; rw [ih2, ih2 (0 ||| fl e.1 e.2)]; simp [BitVec.or_assoc]
    simp only [overStrands, List.zipIdx_cons, List.flatMap_cons, List.foldl_cons]
    rw [hfold _ (0 ||| fl i k)]
    simpa using c

end Sys2Proof.Machine
end

