-- ==== Sys2Proof/Laws/Tables.lean ====
section
/-! SUPPORT. Reading a sparse table after a write. -/

namespace Sys2Proof.Machine

variable {α : Type}

theorem Tbl.find_put_self (t : Tbl α) (k : Nat) (a : α) : (Tbl.put t k a).find k = some a := by
  induction t with
  | nil => simp [Tbl.put, Tbl.find]
  | cons e t ih =>
    obtain ⟨j, b⟩ := e
    unfold Tbl.put
    split
    · simp [Tbl.find]
    · split
      · simp [Tbl.find]
      · rename_i h
        simp [Tbl.find, Ne.symm h, ih]

theorem Tbl.find_put_ne (t : Tbl α) {j k : Nat} (a : α) (h : j ≠ k) : (Tbl.put t k a).find j = Tbl.find t j := by
  induction t with
  | nil => simp [Tbl.put, Tbl.find, Ne.symm h]
  | cons e t ih =>
    obtain ⟨i, b⟩ := e
    unfold Tbl.put
    split
    · simp [Tbl.find, Ne.symm h]
    · split
      · rename_i hk
        simp [Tbl.find, ← hk, Ne.symm h]
      · simp only [Tbl.find, ih]

theorem Tbl.put_put (t : Tbl α) (k : Nat) (a b : α) : Tbl.put (Tbl.put t k a) k b = Tbl.put t k b := by
  induction t with
  | nil => simp [Tbl.put]
  | cons e t ih =>
    obtain ⟨j, c⟩ := e
    unfold Tbl.put
    by_cases h1 : k < j
    · simp [h1, Tbl.put]
    · by_cases h2 : k = j
      · simp [h2, Tbl.put]
      · simp [h1, h2, Tbl.put, ih]

theorem Tbl.upd_of_find {t : Tbl α} {k : Nat} {a : α} {g : α → α} (h : Tbl.find t k = some a) :
    Tbl.upd t k g = Tbl.put t k (g a) := by
  simp only [Tbl.upd, h]

theorem Tbl.upd_of_none {t : Tbl α} {k : Nat} {g : α → α} (h : Tbl.find t k = none) : Tbl.upd t k g = t := by
  simp only [Tbl.upd, h]

theorem Tbl.find_upd_ne (t : Tbl α) {j k : Nat} (g : α → α) (h : j ≠ k) : (Tbl.upd t k g).find j = Tbl.find t j := by
  unfold Tbl.upd
  split
  · rfl
  · exact Tbl.find_put_ne t _ h

theorem Tbl.find_del_ne (t : Tbl α) {j k : Nat} (h : j ≠ k) : (Tbl.del t k).find j = Tbl.find t j := by
  induction t with
  | nil => rfl
  | cons e t ih =>
    obtain ⟨i, b⟩ := e
    unfold Tbl.del
    split
    · rename_i hk
      simp [Tbl.find, hk, Ne.symm h]
    · simp only [Tbl.find, ih]

theorem Tbl.find_each (t : Tbl α) (f : Nat → α → α) (k : Nat) : (Tbl.each t f).find k = (Tbl.find t k).map (f k) := by
  induction t with
  | nil => rfl
  | cons e t ih =>
    obtain ⟨j, b⟩ := e
    simp only [Tbl.each, List.map_cons, Tbl.find] at ih ⊢
    split
    · rename_i h
      simp [h]
    · exact ih

end Sys2Proof.Machine
end

