-- ==== Sys2Proof/Laws/State.lean ====
section
/-! SUPPORT. What each update of the state leaves of its fields: for every update the field that it writes, and every
other field, each a rewriting rule. -/

namespace Sys2Proof.Machine

@[simp] theorem State.setMem_mem (s : State) (m : List Host.Cell) : (s.setMem m).mem = m := rfl

@[simp] theorem State.setMem_rest (s : State) (m : List Host.Cell) :
    (s.setMem m).poison = s.poison ∧ (s.setMem m).cycles = s.cycles ∧ (s.setMem m).free = s.free ∧ (s.setMem m).stale = s.stale ∧
    (s.setMem m).cur = s.cur ∧ (s.setMem m).inbox = s.inbox ∧ (s.setMem m).outbox = s.outbox ∧
    (s.setMem m).cores = s.cores ∧ (s.setMem m).clusters = s.clusters ∧ (s.setMem m).wgs = s.wgs ∧
    (s.setMem m).claims = s.claims ∧ (s.setMem m).openBars = s.openBars ∧ (s.setMem m).launches = s.launches ∧
    (s.setMem m).ended = s.ended ∧ (s.setMem m).qcount = s.qcount ∧ (s.setMem m).pending = s.pending ∧
    (s.setMem m).placers = s.placers ∧ (s.setMem m).hostQueues = s.hostQueues ∧ (s.setMem m).frontPtr = s.frontPtr ∧
    (s.setMem m).frontTurn = s.frontTurn ∧ (s.setMem m).tenants = s.tenants ∧ (s.setMem m).watches = s.watches ∧
    (s.setMem m).caddyModels = s.caddyModels ∧ (s.setMem m).caddy = s.caddy ∧ (s.setMem m).slices = s.slices ∧
    (s.setMem m).pageClock = s.pageClock ∧ (s.setMem m).kmodels = s.kmodels ∧ (s.setMem m).kslots = s.kslots ∧
    (s.setMem m).kqueues = s.kqueues ∧ (s.setMem m).kettlePtr = s.kettlePtr ∧
    (s.setMem m).kettleTurn = s.kettleTurn ∧ (s.setMem m).kserial = s.kserial ∧ (s.setMem m).lastPoll = s.lastPoll ∧
    (s.setMem m).fabric = s.fabric ∧ (s.setMem m).images = s.images ∧ (s.setMem m).sam = s.sam ∧
    (s.setMem m).sram = s.sram ∧ (s.setMem m).fw = s.fw ∧ (s.setMem m).diesInReset = s.diesInReset ∧
    (s.setMem m).code = s.code ∧ (s.setMem m).lpddr = s.lpddr ∧ (s.setMem m).flips = s.flips ∧
    (s.setMem m).l2 = s.l2 ∧ (s.setMem m).traffic = s.traffic :=
  by and_intros <;> rfl

@[simp] theorem State.setPoison_poison (s : State) (p : List Nat) : (s.setPoison p).poison = p := rfl

@[simp] theorem State.setPoison_rest (s : State) (p : List Nat) :
    (s.setPoison p).mem = s.mem ∧ (s.setPoison p).cycles = s.cycles ∧ (s.setPoison p).free = s.free ∧ (s.setPoison p).stale = s.stale ∧
    (s.setPoison p).cur = s.cur ∧ (s.setPoison p).inbox = s.inbox ∧ (s.setPoison p).outbox = s.outbox ∧
    (s.setPoison p).cores = s.cores ∧ (s.setPoison p).clusters = s.clusters ∧ (s.setPoison p).wgs = s.wgs ∧
    (s.setPoison p).claims = s.claims ∧ (s.setPoison p).openBars = s.openBars ∧
    (s.setPoison p).launches = s.launches ∧ (s.setPoison p).ended = s.ended ∧ (s.setPoison p).qcount = s.qcount ∧
    (s.setPoison p).pending = s.pending ∧ (s.setPoison p).placers = s.placers ∧
    (s.setPoison p).hostQueues = s.hostQueues ∧ (s.setPoison p).frontPtr = s.frontPtr ∧
    (s.setPoison p).frontTurn = s.frontTurn ∧ (s.setPoison p).tenants = s.tenants ∧
    (s.setPoison p).watches = s.watches ∧ (s.setPoison p).caddyModels = s.caddyModels ∧
    (s.setPoison p).caddy = s.caddy ∧ (s.setPoison p).slices = s.slices ∧ (s.setPoison p).pageClock = s.pageClock ∧
    (s.setPoison p).kmodels = s.kmodels ∧ (s.setPoison p).kslots = s.kslots ∧ (s.setPoison p).kqueues = s.kqueues ∧
    (s.setPoison p).kettlePtr = s.kettlePtr ∧ (s.setPoison p).kettleTurn = s.kettleTurn ∧
    (s.setPoison p).kserial = s.kserial ∧ (s.setPoison p).lastPoll = s.lastPoll ∧ (s.setPoison p).fabric = s.fabric ∧
    (s.setPoison p).images = s.images ∧ (s.setPoison p).sam = s.sam ∧ (s.setPoison p).sram = s.sram ∧
    (s.setPoison p).fw = s.fw ∧ (s.setPoison p).diesInReset = s.diesInReset ∧
    (s.setPoison p).code = s.code ∧ (s.setPoison p).lpddr = s.lpddr ∧ (s.setPoison p).flips = s.flips ∧
    (s.setPoison p).l2 = s.l2 ∧ (s.setPoison p).traffic = s.traffic :=
  by and_intros <;> rfl

@[simp] theorem State.setStale_stale (s : State) (p : List Nat) : (s.setStale p).stale = p := rfl

@[simp] theorem State.setStale_rest (s : State) (p : List Nat) :
    (s.setStale p).mem = s.mem ∧ (s.setStale p).cycles = s.cycles ∧ (s.setStale p).free = s.free ∧ (s.setStale p).poison = s.poison ∧
    (s.setStale p).cur = s.cur ∧ (s.setStale p).inbox = s.inbox ∧ (s.setStale p).outbox = s.outbox ∧
    (s.setStale p).cores = s.cores ∧ (s.setStale p).clusters = s.clusters ∧ (s.setStale p).wgs = s.wgs ∧
    (s.setStale p).claims = s.claims ∧ (s.setStale p).openBars = s.openBars ∧
    (s.setStale p).launches = s.launches ∧ (s.setStale p).ended = s.ended ∧ (s.setStale p).qcount = s.qcount ∧
    (s.setStale p).pending = s.pending ∧ (s.setStale p).placers = s.placers ∧
    (s.setStale p).hostQueues = s.hostQueues ∧ (s.setStale p).frontPtr = s.frontPtr ∧
    (s.setStale p).frontTurn = s.frontTurn ∧ (s.setStale p).tenants = s.tenants ∧
    (s.setStale p).watches = s.watches ∧ (s.setStale p).caddyModels = s.caddyModels ∧
    (s.setStale p).caddy = s.caddy ∧ (s.setStale p).slices = s.slices ∧ (s.setStale p).pageClock = s.pageClock ∧
    (s.setStale p).kmodels = s.kmodels ∧ (s.setStale p).kslots = s.kslots ∧ (s.setStale p).kqueues = s.kqueues ∧
    (s.setStale p).kettlePtr = s.kettlePtr ∧ (s.setStale p).kettleTurn = s.kettleTurn ∧
    (s.setStale p).kserial = s.kserial ∧ (s.setStale p).lastPoll = s.lastPoll ∧ (s.setStale p).fabric = s.fabric ∧
    (s.setStale p).images = s.images ∧ (s.setStale p).sam = s.sam ∧ (s.setStale p).sram = s.sram ∧
    (s.setStale p).fw = s.fw ∧ (s.setStale p).diesInReset = s.diesInReset ∧
    (s.setStale p).code = s.code ∧ (s.setStale p).lpddr = s.lpddr ∧ (s.setStale p).flips = s.flips ∧
    (s.setStale p).l2 = s.l2 ∧ (s.setStale p).traffic = s.traffic :=
  by and_intros <;> rfl

@[simp] theorem State.setL2_l2 (s : State) (x : Tbl L2Line) : (s.setL2 x).l2 = x := rfl

@[simp] theorem State.setL2_rest (s : State) (x : Tbl L2Line) :
    (s.setL2 x).poison = s.poison ∧ (s.setL2 x).cycles = s.cycles ∧ (s.setL2 x).free = s.free ∧ (s.setL2 x).stale = s.stale ∧
    (s.setL2 x).cur = s.cur ∧ (s.setL2 x).inbox = s.inbox ∧ (s.setL2 x).outbox = s.outbox ∧
    (s.setL2 x).cores = s.cores ∧ (s.setL2 x).clusters = s.clusters ∧ (s.setL2 x).wgs = s.wgs ∧
    (s.setL2 x).claims = s.claims ∧ (s.setL2 x).openBars = s.openBars ∧ (s.setL2 x).launches = s.launches ∧
    (s.setL2 x).ended = s.ended ∧ (s.setL2 x).qcount = s.qcount ∧ (s.setL2 x).pending = s.pending ∧
    (s.setL2 x).placers = s.placers ∧ (s.setL2 x).hostQueues = s.hostQueues ∧ (s.setL2 x).frontPtr = s.frontPtr ∧
    (s.setL2 x).frontTurn = s.frontTurn ∧ (s.setL2 x).tenants = s.tenants ∧ (s.setL2 x).watches = s.watches ∧
    (s.setL2 x).caddyModels = s.caddyModels ∧ (s.setL2 x).caddy = s.caddy ∧ (s.setL2 x).slices = s.slices ∧
    (s.setL2 x).pageClock = s.pageClock ∧ (s.setL2 x).kmodels = s.kmodels ∧ (s.setL2 x).kslots = s.kslots ∧
    (s.setL2 x).kqueues = s.kqueues ∧ (s.setL2 x).kettlePtr = s.kettlePtr ∧
    (s.setL2 x).kettleTurn = s.kettleTurn ∧ (s.setL2 x).kserial = s.kserial ∧ (s.setL2 x).lastPoll = s.lastPoll ∧
    (s.setL2 x).fabric = s.fabric ∧ (s.setL2 x).images = s.images ∧ (s.setL2 x).sam = s.sam ∧
    (s.setL2 x).sram = s.sram ∧ (s.setL2 x).fw = s.fw ∧ (s.setL2 x).diesInReset = s.diesInReset ∧
    (s.setL2 x).code = s.code ∧ (s.setL2 x).lpddr = s.lpddr ∧ (s.setL2 x).flips = s.flips ∧
    (s.setL2 x).mem = s.mem ∧ (s.setL2 x).traffic = s.traffic :=
  by and_intros <;> rfl

@[simp] theorem State.setCores_cores (s : State) (t : Tbl CoreState) : (s.setCores t).cores = t := rfl

@[simp] theorem State.setCores_rest (s : State) (t : Tbl CoreState) :
    (s.setCores t).mem = s.mem ∧ (s.setCores t).poison = s.poison ∧ (s.setCores t).cycles = s.cycles ∧
    (s.setCores t).free = s.free ∧ (s.setCores t).stale = s.stale ∧ (s.setCores t).cur = s.cur ∧ (s.setCores t).inbox = s.inbox ∧
    (s.setCores t).outbox = s.outbox ∧ (s.setCores t).clusters = s.clusters ∧ (s.setCores t).wgs = s.wgs ∧
    (s.setCores t).claims = s.claims ∧ (s.setCores t).openBars = s.openBars ∧ (s.setCores t).launches = s.launches ∧
    (s.setCores t).ended = s.ended ∧ (s.setCores t).qcount = s.qcount ∧ (s.setCores t).pending = s.pending ∧
    (s.setCores t).placers = s.placers ∧ (s.setCores t).hostQueues = s.hostQueues ∧
    (s.setCores t).frontPtr = s.frontPtr ∧ (s.setCores t).frontTurn = s.frontTurn ∧
    (s.setCores t).tenants = s.tenants ∧ (s.setCores t).watches = s.watches ∧
    (s.setCores t).caddyModels = s.caddyModels ∧ (s.setCores t).caddy = s.caddy ∧ (s.setCores t).slices = s.slices ∧
    (s.setCores t).pageClock = s.pageClock ∧ (s.setCores t).kmodels = s.kmodels ∧ (s.setCores t).kslots = s.kslots ∧
    (s.setCores t).kqueues = s.kqueues ∧ (s.setCores t).kettlePtr = s.kettlePtr ∧
    (s.setCores t).kettleTurn = s.kettleTurn ∧ (s.setCores t).kserial = s.kserial ∧
    (s.setCores t).lastPoll = s.lastPoll ∧ (s.setCores t).fabric = s.fabric ∧ (s.setCores t).images = s.images ∧
    (s.setCores t).sam = s.sam ∧ (s.setCores t).sram = s.sram ∧ (s.setCores t).fw = s.fw ∧
    (s.setCores t).diesInReset = s.diesInReset ∧
    (s.setCores t).code = s.code ∧ (s.setCores t).lpddr = s.lpddr ∧ (s.setCores t).flips = s.flips ∧
    (s.setCores t).l2 = s.l2 ∧ (s.setCores t).traffic = s.traffic :=
  by and_intros <;> rfl

@[simp] theorem State.setClusters_clusters (s : State) (t : Tbl ClusterState) : (s.setClusters t).clusters = t := rfl

@[simp] theorem State.setClusters_rest (s : State) (t : Tbl ClusterState) :
    (s.setClusters t).mem = s.mem ∧ (s.setClusters t).poison = s.poison ∧ (s.setClusters t).cycles = s.cycles ∧
    (s.setClusters t).free = s.free ∧ (s.setClusters t).stale = s.stale ∧ (s.setClusters t).cur = s.cur ∧ (s.setClusters t).inbox = s.inbox ∧
    (s.setClusters t).outbox = s.outbox ∧ (s.setClusters t).cores = s.cores ∧ (s.setClusters t).wgs = s.wgs ∧
    (s.setClusters t).claims = s.claims ∧ (s.setClusters t).openBars = s.openBars ∧
    (s.setClusters t).launches = s.launches ∧ (s.setClusters t).ended = s.ended ∧
    (s.setClusters t).qcount = s.qcount ∧ (s.setClusters t).pending = s.pending ∧
    (s.setClusters t).placers = s.placers ∧ (s.setClusters t).hostQueues = s.hostQueues ∧
    (s.setClusters t).frontPtr = s.frontPtr ∧ (s.setClusters t).frontTurn = s.frontTurn ∧
    (s.setClusters t).tenants = s.tenants ∧ (s.setClusters t).watches = s.watches ∧
    (s.setClusters t).caddyModels = s.caddyModels ∧ (s.setClusters t).caddy = s.caddy ∧
    (s.setClusters t).slices = s.slices ∧ (s.setClusters t).pageClock = s.pageClock ∧
    (s.setClusters t).kmodels = s.kmodels ∧ (s.setClusters t).kslots = s.kslots ∧
    (s.setClusters t).kqueues = s.kqueues ∧ (s.setClusters t).kettlePtr = s.kettlePtr ∧
    (s.setClusters t).kettleTurn = s.kettleTurn ∧ (s.setClusters t).kserial = s.kserial ∧
    (s.setClusters t).lastPoll = s.lastPoll ∧ (s.setClusters t).fabric = s.fabric ∧
    (s.setClusters t).images = s.images ∧ (s.setClusters t).sam = s.sam ∧ (s.setClusters t).sram = s.sram ∧
    (s.setClusters t).fw = s.fw ∧ (s.setClusters t).diesInReset = s.diesInReset ∧
    (s.setClusters t).code = s.code ∧ (s.setClusters t).lpddr = s.lpddr ∧ (s.setClusters t).flips = s.flips ∧
    (s.setClusters t).l2 = s.l2 ∧ (s.setClusters t).traffic = s.traffic :=
  by and_intros <;> rfl

@[simp] theorem State.setWgs_wgs (s : State) (t : Tbl Workgroup) : (s.setWgs t).wgs = t := rfl

@[simp] theorem State.setWgs_rest (s : State) (t : Tbl Workgroup) :
    (s.setWgs t).mem = s.mem ∧ (s.setWgs t).poison = s.poison ∧ (s.setWgs t).cycles = s.cycles ∧
    (s.setWgs t).free = s.free ∧ (s.setWgs t).stale = s.stale ∧ (s.setWgs t).cur = s.cur ∧ (s.setWgs t).inbox = s.inbox ∧
    (s.setWgs t).outbox = s.outbox ∧ (s.setWgs t).cores = s.cores ∧ (s.setWgs t).clusters = s.clusters ∧
    (s.setWgs t).claims = s.claims ∧ (s.setWgs t).openBars = s.openBars ∧ (s.setWgs t).launches = s.launches ∧
    (s.setWgs t).ended = s.ended ∧ (s.setWgs t).qcount = s.qcount ∧ (s.setWgs t).pending = s.pending ∧
    (s.setWgs t).placers = s.placers ∧ (s.setWgs t).hostQueues = s.hostQueues ∧ (s.setWgs t).frontPtr = s.frontPtr ∧
    (s.setWgs t).frontTurn = s.frontTurn ∧ (s.setWgs t).tenants = s.tenants ∧ (s.setWgs t).watches = s.watches ∧
    (s.setWgs t).caddyModels = s.caddyModels ∧ (s.setWgs t).caddy = s.caddy ∧ (s.setWgs t).slices = s.slices ∧
    (s.setWgs t).pageClock = s.pageClock ∧ (s.setWgs t).kmodels = s.kmodels ∧ (s.setWgs t).kslots = s.kslots ∧
    (s.setWgs t).kqueues = s.kqueues ∧ (s.setWgs t).kettlePtr = s.kettlePtr ∧
    (s.setWgs t).kettleTurn = s.kettleTurn ∧ (s.setWgs t).kserial = s.kserial ∧ (s.setWgs t).lastPoll = s.lastPoll ∧
    (s.setWgs t).fabric = s.fabric ∧ (s.setWgs t).images = s.images ∧ (s.setWgs t).sam = s.sam ∧
    (s.setWgs t).sram = s.sram ∧ (s.setWgs t).fw = s.fw ∧ (s.setWgs t).diesInReset = s.diesInReset ∧
    (s.setWgs t).code = s.code ∧ (s.setWgs t).lpddr = s.lpddr ∧ (s.setWgs t).flips = s.flips ∧
    (s.setWgs t).l2 = s.l2 ∧ (s.setWgs t).traffic = s.traffic :=
  by and_intros <;> rfl

@[simp] theorem State.setWatches_watches (s : State) (t : Tbl Watch) : (s.setWatches t).watches = t := rfl

@[simp] theorem State.setWatches_rest (s : State) (t : Tbl Watch) :
    (s.setWatches t).mem = s.mem ∧ (s.setWatches t).poison = s.poison ∧ (s.setWatches t).cycles = s.cycles ∧
    (s.setWatches t).free = s.free ∧ (s.setWatches t).stale = s.stale ∧ (s.setWatches t).cur = s.cur ∧ (s.setWatches t).inbox = s.inbox ∧
    (s.setWatches t).outbox = s.outbox ∧ (s.setWatches t).cores = s.cores ∧ (s.setWatches t).clusters = s.clusters ∧
    (s.setWatches t).wgs = s.wgs ∧ (s.setWatches t).claims = s.claims ∧ (s.setWatches t).openBars = s.openBars ∧
    (s.setWatches t).launches = s.launches ∧ (s.setWatches t).ended = s.ended ∧ (s.setWatches t).qcount = s.qcount ∧
    (s.setWatches t).pending = s.pending ∧ (s.setWatches t).placers = s.placers ∧
    (s.setWatches t).hostQueues = s.hostQueues ∧ (s.setWatches t).frontPtr = s.frontPtr ∧
    (s.setWatches t).frontTurn = s.frontTurn ∧ (s.setWatches t).tenants = s.tenants ∧
    (s.setWatches t).caddyModels = s.caddyModels ∧ (s.setWatches t).caddy = s.caddy ∧
    (s.setWatches t).slices = s.slices ∧ (s.setWatches t).pageClock = s.pageClock ∧
    (s.setWatches t).kmodels = s.kmodels ∧ (s.setWatches t).kslots = s.kslots ∧
    (s.setWatches t).kqueues = s.kqueues ∧ (s.setWatches t).kettlePtr = s.kettlePtr ∧
    (s.setWatches t).kettleTurn = s.kettleTurn ∧ (s.setWatches t).kserial = s.kserial ∧
    (s.setWatches t).lastPoll = s.lastPoll ∧ (s.setWatches t).fabric = s.fabric ∧
    (s.setWatches t).images = s.images ∧ (s.setWatches t).sam = s.sam ∧ (s.setWatches t).sram = s.sram ∧
    (s.setWatches t).fw = s.fw ∧ (s.setWatches t).diesInReset = s.diesInReset ∧
    (s.setWatches t).code = s.code ∧ (s.setWatches t).lpddr = s.lpddr ∧ (s.setWatches t).flips = s.flips ∧
    (s.setWatches t).l2 = s.l2 ∧ (s.setWatches t).traffic = s.traffic :=
  by and_intros <;> rfl

@[simp] theorem State.setLaunches_launches (s : State) (t : Tbl Launch) : (s.setLaunches t).launches = t := rfl

@[simp] theorem State.setLaunches_rest (s : State) (t : Tbl Launch) :
    (s.setLaunches t).mem = s.mem ∧ (s.setLaunches t).poison = s.poison ∧ (s.setLaunches t).cycles = s.cycles ∧
    (s.setLaunches t).free = s.free ∧ (s.setLaunches t).stale = s.stale ∧ (s.setLaunches t).cur = s.cur ∧ (s.setLaunches t).inbox = s.inbox ∧
    (s.setLaunches t).outbox = s.outbox ∧ (s.setLaunches t).cores = s.cores ∧
    (s.setLaunches t).clusters = s.clusters ∧ (s.setLaunches t).wgs = s.wgs ∧ (s.setLaunches t).claims = s.claims ∧
    (s.setLaunches t).openBars = s.openBars ∧ (s.setLaunches t).ended = s.ended ∧
    (s.setLaunches t).qcount = s.qcount ∧ (s.setLaunches t).pending = s.pending ∧
    (s.setLaunches t).placers = s.placers ∧ (s.setLaunches t).hostQueues = s.hostQueues ∧
    (s.setLaunches t).frontPtr = s.frontPtr ∧ (s.setLaunches t).frontTurn = s.frontTurn ∧
    (s.setLaunches t).tenants = s.tenants ∧ (s.setLaunches t).watches = s.watches ∧
    (s.setLaunches t).caddyModels = s.caddyModels ∧ (s.setLaunches t).caddy = s.caddy ∧
    (s.setLaunches t).slices = s.slices ∧ (s.setLaunches t).pageClock = s.pageClock ∧
    (s.setLaunches t).kmodels = s.kmodels ∧ (s.setLaunches t).kslots = s.kslots ∧
    (s.setLaunches t).kqueues = s.kqueues ∧ (s.setLaunches t).kettlePtr = s.kettlePtr ∧
    (s.setLaunches t).kettleTurn = s.kettleTurn ∧ (s.setLaunches t).kserial = s.kserial ∧
    (s.setLaunches t).lastPoll = s.lastPoll ∧ (s.setLaunches t).fabric = s.fabric ∧
    (s.setLaunches t).images = s.images ∧ (s.setLaunches t).sam = s.sam ∧ (s.setLaunches t).sram = s.sram ∧
    (s.setLaunches t).fw = s.fw ∧ (s.setLaunches t).diesInReset = s.diesInReset ∧
    (s.setLaunches t).code = s.code ∧ (s.setLaunches t).lpddr = s.lpddr ∧ (s.setLaunches t).flips = s.flips ∧
    (s.setLaunches t).l2 = s.l2 ∧ (s.setLaunches t).traffic = s.traffic :=
  by and_intros <;> rfl

@[simp] theorem State.emit_outbox (s : State) (o : Output) : (s.emit o).outbox = s.outbox ++ [o] := rfl

@[simp] theorem State.emit_rest (s : State) (o : Output) :
    (s.emit o).mem = s.mem ∧ (s.emit o).poison = s.poison ∧ (s.emit o).cycles = s.cycles ∧ (s.emit o).free = s.free ∧ (s.emit o).stale = s.stale ∧
    (s.emit o).cur = s.cur ∧ (s.emit o).inbox = s.inbox ∧ (s.emit o).cores = s.cores ∧
    (s.emit o).clusters = s.clusters ∧ (s.emit o).wgs = s.wgs ∧ (s.emit o).claims = s.claims ∧
    (s.emit o).openBars = s.openBars ∧ (s.emit o).launches = s.launches ∧ (s.emit o).ended = s.ended ∧
    (s.emit o).qcount = s.qcount ∧ (s.emit o).pending = s.pending ∧ (s.emit o).placers = s.placers ∧
    (s.emit o).hostQueues = s.hostQueues ∧ (s.emit o).frontPtr = s.frontPtr ∧ (s.emit o).frontTurn = s.frontTurn ∧
    (s.emit o).tenants = s.tenants ∧ (s.emit o).watches = s.watches ∧ (s.emit o).caddyModels = s.caddyModels ∧
    (s.emit o).caddy = s.caddy ∧ (s.emit o).slices = s.slices ∧ (s.emit o).pageClock = s.pageClock ∧
    (s.emit o).kmodels = s.kmodels ∧ (s.emit o).kslots = s.kslots ∧ (s.emit o).kqueues = s.kqueues ∧
    (s.emit o).kettlePtr = s.kettlePtr ∧ (s.emit o).kettleTurn = s.kettleTurn ∧ (s.emit o).kserial = s.kserial ∧
    (s.emit o).lastPoll = s.lastPoll ∧ (s.emit o).fabric = s.fabric ∧ (s.emit o).images = s.images ∧
    (s.emit o).sam = s.sam ∧ (s.emit o).sram = s.sram ∧ (s.emit o).fw = s.fw ∧
    (s.emit o).diesInReset = s.diesInReset ∧
    (s.emit o).code = s.code ∧ (s.emit o).lpddr = s.lpddr ∧ (s.emit o).flips = s.flips ∧
    (s.emit o).l2 = s.l2 ∧ (s.emit o).traffic = s.traffic :=
  by and_intros <;> rfl

@[simp] theorem State.setFabric_fabric (s : State) (x : Fabric) : (s.setFabric x).fabric = x := rfl

@[simp] theorem State.setFabric_rest (s : State) (x : Fabric) :
    (s.setFabric x).mem = s.mem ∧ (s.setFabric x).poison = s.poison ∧ (s.setFabric x).cycles = s.cycles ∧
    (s.setFabric x).free = s.free ∧ (s.setFabric x).stale = s.stale ∧ (s.setFabric x).cur = s.cur ∧ (s.setFabric x).inbox = s.inbox ∧
    (s.setFabric x).outbox = s.outbox ∧ (s.setFabric x).cores = s.cores ∧ (s.setFabric x).clusters = s.clusters ∧
    (s.setFabric x).wgs = s.wgs ∧ (s.setFabric x).claims = s.claims ∧ (s.setFabric x).openBars = s.openBars ∧
    (s.setFabric x).launches = s.launches ∧ (s.setFabric x).ended = s.ended ∧ (s.setFabric x).qcount = s.qcount ∧
    (s.setFabric x).pending = s.pending ∧ (s.setFabric x).placers = s.placers ∧
    (s.setFabric x).hostQueues = s.hostQueues ∧ (s.setFabric x).frontPtr = s.frontPtr ∧
    (s.setFabric x).frontTurn = s.frontTurn ∧ (s.setFabric x).tenants = s.tenants ∧
    (s.setFabric x).watches = s.watches ∧ (s.setFabric x).caddyModels = s.caddyModels ∧
    (s.setFabric x).caddy = s.caddy ∧ (s.setFabric x).slices = s.slices ∧ (s.setFabric x).pageClock = s.pageClock ∧
    (s.setFabric x).kmodels = s.kmodels ∧ (s.setFabric x).kslots = s.kslots ∧ (s.setFabric x).kqueues = s.kqueues ∧
    (s.setFabric x).kettlePtr = s.kettlePtr ∧ (s.setFabric x).kettleTurn = s.kettleTurn ∧
    (s.setFabric x).kserial = s.kserial ∧ (s.setFabric x).lastPoll = s.lastPoll ∧ (s.setFabric x).images = s.images ∧
    (s.setFabric x).sam = s.sam ∧ (s.setFabric x).sram = s.sram ∧ (s.setFabric x).fw = s.fw ∧
    (s.setFabric x).diesInReset = s.diesInReset ∧
    (s.setFabric x).code = s.code ∧ (s.setFabric x).lpddr = s.lpddr ∧ (s.setFabric x).flips = s.flips ∧
    (s.setFabric x).l2 = s.l2 ∧ (s.setFabric x).traffic = s.traffic :=
  by and_intros <;> rfl

@[simp] theorem State.setFw_fw (s : State) (x : Firmware) : (s.setFw x).fw = x := rfl

@[simp] theorem State.setFw_rest (s : State) (x : Firmware) :
    (s.setFw x).mem = s.mem ∧ (s.setFw x).poison = s.poison ∧ (s.setFw x).cycles = s.cycles ∧
    (s.setFw x).free = s.free ∧ (s.setFw x).stale = s.stale ∧ (s.setFw x).cur = s.cur ∧ (s.setFw x).inbox = s.inbox ∧
    (s.setFw x).outbox = s.outbox ∧ (s.setFw x).cores = s.cores ∧ (s.setFw x).clusters = s.clusters ∧
    (s.setFw x).wgs = s.wgs ∧ (s.setFw x).claims = s.claims ∧ (s.setFw x).openBars = s.openBars ∧
    (s.setFw x).launches = s.launches ∧ (s.setFw x).ended = s.ended ∧ (s.setFw x).qcount = s.qcount ∧
    (s.setFw x).pending = s.pending ∧ (s.setFw x).placers = s.placers ∧ (s.setFw x).hostQueues = s.hostQueues ∧
    (s.setFw x).frontPtr = s.frontPtr ∧ (s.setFw x).frontTurn = s.frontTurn ∧ (s.setFw x).tenants = s.tenants ∧
    (s.setFw x).watches = s.watches ∧ (s.setFw x).caddyModels = s.caddyModels ∧ (s.setFw x).caddy = s.caddy ∧
    (s.setFw x).slices = s.slices ∧ (s.setFw x).pageClock = s.pageClock ∧ (s.setFw x).kmodels = s.kmodels ∧
    (s.setFw x).kslots = s.kslots ∧ (s.setFw x).kqueues = s.kqueues ∧ (s.setFw x).kettlePtr = s.kettlePtr ∧
    (s.setFw x).kettleTurn = s.kettleTurn ∧ (s.setFw x).kserial = s.kserial ∧ (s.setFw x).lastPoll = s.lastPoll ∧
    (s.setFw x).fabric = s.fabric ∧ (s.setFw x).images = s.images ∧ (s.setFw x).sam = s.sam ∧
    (s.setFw x).sram = s.sram ∧ (s.setFw x).diesInReset = s.diesInReset ∧
    (s.setFw x).code = s.code ∧ (s.setFw x).lpddr = s.lpddr ∧ (s.setFw x).flips = s.flips ∧
    (s.setFw x).l2 = s.l2 ∧ (s.setFw x).traffic = s.traffic :=
  by and_intros <;> rfl

/-! ## Updates of one entry are updates of its table -/

theorem State.putCore_eq (s : State) (c : Nat) (x : CoreState) : s.putCore c x = s.setCores (s.cores.put c x) := rfl

@[simp] theorem State.putCore_mem (s : State) (c : Nat) (x : CoreState) : (s.putCore c x).mem = s.mem := rfl
@[simp] theorem State.putCore_poison (s : State) (c : Nat) (x : CoreState) : (s.putCore c x).poison = s.poison := rfl
@[simp] theorem State.putCore_l2 (s : State) (c : Nat) (x : CoreState) : (s.putCore c x).l2 = s.l2 := rfl
@[simp] theorem State.putCore_cycles (s : State) (c : Nat) (x : CoreState) : (s.putCore c x).cycles = s.cycles := rfl
@[simp] theorem State.putCore_free (s : State) (c : Nat) (x : CoreState) : (s.putCore c x).free = s.free := rfl
@[simp] theorem State.putCore_cur (s : State) (c : Nat) (x : CoreState) : (s.putCore c x).cur = s.cur := rfl
@[simp] theorem State.putCore_outbox (s : State) (c : Nat) (x : CoreState) : (s.putCore c x).outbox = s.outbox := rfl
@[simp] theorem State.putCore_clusters (s : State) (c : Nat) (x : CoreState) : (s.putCore c x).clusters = s.clusters := rfl
@[simp] theorem State.putCore_wgs (s : State) (c : Nat) (x : CoreState) : (s.putCore c x).wgs = s.wgs := rfl
@[simp] theorem State.putCore_launches (s : State) (c : Nat) (x : CoreState) : (s.putCore c x).launches = s.launches := rfl
@[simp] theorem State.putCore_watches (s : State) (c : Nat) (x : CoreState) : (s.putCore c x).watches = s.watches := rfl
@[simp] theorem State.putCore_tenants (s : State) (c : Nat) (x : CoreState) : (s.putCore c x).tenants = s.tenants := rfl
@[simp] theorem State.putCore_fabric (s : State) (c : Nat) (x : CoreState) : (s.putCore c x).fabric = s.fabric := rfl
@[simp] theorem State.putCore_fw (s : State) (c : Nat) (x : CoreState) : (s.putCore c x).fw = s.fw := rfl

theorem State.putCluster_eq (s : State) (c : Nat) (x : ClusterState) : s.putCluster c x = s.setClusters (s.clusters.put c x) := rfl

@[simp] theorem State.putCluster_mem (s : State) (c : Nat) (x : ClusterState) : (s.putCluster c x).mem = s.mem := rfl
@[simp] theorem State.putCluster_poison (s : State) (c : Nat) (x : ClusterState) : (s.putCluster c x).poison = s.poison := rfl
@[simp] theorem State.putCluster_l2 (s : State) (c : Nat) (x : ClusterState) : (s.putCluster c x).l2 = s.l2 := rfl
@[simp] theorem State.putCluster_cycles (s : State) (c : Nat) (x : ClusterState) : (s.putCluster c x).cycles = s.cycles := rfl
@[simp] theorem State.putCluster_free (s : State) (c : Nat) (x : ClusterState) : (s.putCluster c x).free = s.free := rfl
@[simp] theorem State.putCluster_cur (s : State) (c : Nat) (x : ClusterState) : (s.putCluster c x).cur = s.cur := rfl
@[simp] theorem State.putCluster_outbox (s : State) (c : Nat) (x : ClusterState) : (s.putCluster c x).outbox = s.outbox := rfl
@[simp] theorem State.putCluster_cores (s : State) (c : Nat) (x : ClusterState) : (s.putCluster c x).cores = s.cores := rfl
@[simp] theorem State.putCluster_wgs (s : State) (c : Nat) (x : ClusterState) : (s.putCluster c x).wgs = s.wgs := rfl
@[simp] theorem State.putCluster_launches (s : State) (c : Nat) (x : ClusterState) : (s.putCluster c x).launches = s.launches := rfl
@[simp] theorem State.putCluster_watches (s : State) (c : Nat) (x : ClusterState) : (s.putCluster c x).watches = s.watches := rfl
@[simp] theorem State.putCluster_tenants (s : State) (c : Nat) (x : ClusterState) : (s.putCluster c x).tenants = s.tenants := rfl
@[simp] theorem State.putCluster_fabric (s : State) (c : Nat) (x : ClusterState) : (s.putCluster c x).fabric = s.fabric := rfl
@[simp] theorem State.putCluster_fw (s : State) (c : Nat) (x : ClusterState) : (s.putCluster c x).fw = s.fw := rfl

theorem State.putWg_eq (s : State) (k : Nat) (w : Workgroup) : s.putWg k w = s.setWgs (s.wgs.put k w) := rfl

@[simp] theorem State.putWg_mem (s : State) (k : Nat) (w : Workgroup) : (s.putWg k w).mem = s.mem := rfl
@[simp] theorem State.putWg_poison (s : State) (k : Nat) (w : Workgroup) : (s.putWg k w).poison = s.poison := rfl
@[simp] theorem State.putWg_l2 (s : State) (k : Nat) (w : Workgroup) : (s.putWg k w).l2 = s.l2 := rfl
@[simp] theorem State.putWg_cycles (s : State) (k : Nat) (w : Workgroup) : (s.putWg k w).cycles = s.cycles := rfl
@[simp] theorem State.putWg_free (s : State) (k : Nat) (w : Workgroup) : (s.putWg k w).free = s.free := rfl
@[simp] theorem State.putWg_cur (s : State) (k : Nat) (w : Workgroup) : (s.putWg k w).cur = s.cur := rfl
@[simp] theorem State.putWg_outbox (s : State) (k : Nat) (w : Workgroup) : (s.putWg k w).outbox = s.outbox := rfl
@[simp] theorem State.putWg_cores (s : State) (k : Nat) (w : Workgroup) : (s.putWg k w).cores = s.cores := rfl
@[simp] theorem State.putWg_clusters (s : State) (k : Nat) (w : Workgroup) : (s.putWg k w).clusters = s.clusters := rfl
@[simp] theorem State.putWg_launches (s : State) (k : Nat) (w : Workgroup) : (s.putWg k w).launches = s.launches := rfl
@[simp] theorem State.putWg_watches (s : State) (k : Nat) (w : Workgroup) : (s.putWg k w).watches = s.watches := rfl
@[simp] theorem State.putWg_tenants (s : State) (k : Nat) (w : Workgroup) : (s.putWg k w).tenants = s.tenants := rfl
@[simp] theorem State.putWg_fabric (s : State) (k : Nat) (w : Workgroup) : (s.putWg k w).fabric = s.fabric := rfl
@[simp] theorem State.putWg_fw (s : State) (k : Nat) (w : Workgroup) : (s.putWg k w).fw = s.fw := rfl

theorem State.updWg_eq (s : State) (k : Nat) (g : Workgroup → Workgroup) : s.updWg k g = s.setWgs (s.wgs.upd k g) := rfl

@[simp] theorem State.updWg_mem (s : State) (k : Nat) (g : Workgroup → Workgroup) : (s.updWg k g).mem = s.mem := rfl
@[simp] theorem State.updWg_poison (s : State) (k : Nat) (g : Workgroup → Workgroup) : (s.updWg k g).poison = s.poison := rfl
@[simp] theorem State.updWg_l2 (s : State) (k : Nat) (g : Workgroup → Workgroup) : (s.updWg k g).l2 = s.l2 := rfl
@[simp] theorem State.updWg_cycles (s : State) (k : Nat) (g : Workgroup → Workgroup) : (s.updWg k g).cycles = s.cycles := rfl
@[simp] theorem State.updWg_free (s : State) (k : Nat) (g : Workgroup → Workgroup) : (s.updWg k g).free = s.free := rfl
@[simp] theorem State.updWg_cur (s : State) (k : Nat) (g : Workgroup → Workgroup) : (s.updWg k g).cur = s.cur := rfl
@[simp] theorem State.updWg_outbox (s : State) (k : Nat) (g : Workgroup → Workgroup) : (s.updWg k g).outbox = s.outbox := rfl
@[simp] theorem State.updWg_cores (s : State) (k : Nat) (g : Workgroup → Workgroup) : (s.updWg k g).cores = s.cores := rfl
@[simp] theorem State.updWg_clusters (s : State) (k : Nat) (g : Workgroup → Workgroup) : (s.updWg k g).clusters = s.clusters := rfl
@[simp] theorem State.updWg_launches (s : State) (k : Nat) (g : Workgroup → Workgroup) : (s.updWg k g).launches = s.launches := rfl
@[simp] theorem State.updWg_watches (s : State) (k : Nat) (g : Workgroup → Workgroup) : (s.updWg k g).watches = s.watches := rfl
@[simp] theorem State.updWg_tenants (s : State) (k : Nat) (g : Workgroup → Workgroup) : (s.updWg k g).tenants = s.tenants := rfl
@[simp] theorem State.updWg_fabric (s : State) (k : Nat) (g : Workgroup → Workgroup) : (s.updWg k g).fabric = s.fabric := rfl
@[simp] theorem State.updWg_fw (s : State) (k : Nat) (g : Workgroup → Workgroup) : (s.updWg k g).fw = s.fw := rfl

theorem State.putLaunch_eq (s : State) (k : Nat) (l : Launch) : s.putLaunch k l = s.setLaunches (s.launches.put k l) := rfl

@[simp] theorem State.putLaunch_mem (s : State) (k : Nat) (l : Launch) : (s.putLaunch k l).mem = s.mem := rfl
@[simp] theorem State.putLaunch_poison (s : State) (k : Nat) (l : Launch) : (s.putLaunch k l).poison = s.poison := rfl
@[simp] theorem State.putLaunch_l2 (s : State) (k : Nat) (l : Launch) : (s.putLaunch k l).l2 = s.l2 := rfl
@[simp] theorem State.putLaunch_cycles (s : State) (k : Nat) (l : Launch) : (s.putLaunch k l).cycles = s.cycles := rfl
@[simp] theorem State.putLaunch_free (s : State) (k : Nat) (l : Launch) : (s.putLaunch k l).free = s.free := rfl
@[simp] theorem State.putLaunch_cur (s : State) (k : Nat) (l : Launch) : (s.putLaunch k l).cur = s.cur := rfl
@[simp] theorem State.putLaunch_outbox (s : State) (k : Nat) (l : Launch) : (s.putLaunch k l).outbox = s.outbox := rfl
@[simp] theorem State.putLaunch_cores (s : State) (k : Nat) (l : Launch) : (s.putLaunch k l).cores = s.cores := rfl
@[simp] theorem State.putLaunch_clusters (s : State) (k : Nat) (l : Launch) : (s.putLaunch k l).clusters = s.clusters := rfl
@[simp] theorem State.putLaunch_wgs (s : State) (k : Nat) (l : Launch) : (s.putLaunch k l).wgs = s.wgs := rfl
@[simp] theorem State.putLaunch_watches (s : State) (k : Nat) (l : Launch) : (s.putLaunch k l).watches = s.watches := rfl
@[simp] theorem State.putLaunch_tenants (s : State) (k : Nat) (l : Launch) : (s.putLaunch k l).tenants = s.tenants := rfl
@[simp] theorem State.putLaunch_fabric (s : State) (k : Nat) (l : Launch) : (s.putLaunch k l).fabric = s.fabric := rfl
@[simp] theorem State.putLaunch_fw (s : State) (k : Nat) (l : Launch) : (s.putLaunch k l).fw = s.fw := rfl

theorem State.updLaunch_eq (s : State) (k : Nat) (g : Launch → Launch) : s.updLaunch k g = s.setLaunches (s.launches.upd k g) := rfl

@[simp] theorem State.updLaunch_mem (s : State) (k : Nat) (g : Launch → Launch) : (s.updLaunch k g).mem = s.mem := rfl
@[simp] theorem State.updLaunch_poison (s : State) (k : Nat) (g : Launch → Launch) : (s.updLaunch k g).poison = s.poison := rfl
@[simp] theorem State.updLaunch_l2 (s : State) (k : Nat) (g : Launch → Launch) : (s.updLaunch k g).l2 = s.l2 := rfl
@[simp] theorem State.updLaunch_cycles (s : State) (k : Nat) (g : Launch → Launch) : (s.updLaunch k g).cycles = s.cycles := rfl
@[simp] theorem State.updLaunch_free (s : State) (k : Nat) (g : Launch → Launch) : (s.updLaunch k g).free = s.free := rfl
@[simp] theorem State.updLaunch_cur (s : State) (k : Nat) (g : Launch → Launch) : (s.updLaunch k g).cur = s.cur := rfl
@[simp] theorem State.updLaunch_outbox (s : State) (k : Nat) (g : Launch → Launch) : (s.updLaunch k g).outbox = s.outbox := rfl
@[simp] theorem State.updLaunch_cores (s : State) (k : Nat) (g : Launch → Launch) : (s.updLaunch k g).cores = s.cores := rfl
@[simp] theorem State.updLaunch_clusters (s : State) (k : Nat) (g : Launch → Launch) : (s.updLaunch k g).clusters = s.clusters := rfl
@[simp] theorem State.updLaunch_wgs (s : State) (k : Nat) (g : Launch → Launch) : (s.updLaunch k g).wgs = s.wgs := rfl
@[simp] theorem State.updLaunch_watches (s : State) (k : Nat) (g : Launch → Launch) : (s.updLaunch k g).watches = s.watches := rfl
@[simp] theorem State.updLaunch_tenants (s : State) (k : Nat) (g : Launch → Launch) : (s.updLaunch k g).tenants = s.tenants := rfl
@[simp] theorem State.updLaunch_fabric (s : State) (k : Nat) (g : Launch → Launch) : (s.updLaunch k g).fabric = s.fabric := rfl
@[simp] theorem State.updLaunch_fw (s : State) (k : Nat) (g : Launch → Launch) : (s.updLaunch k g).fw = s.fw := rfl

theorem State.putFibre_eq (s : State) (k : Nat) (f : Fibre) : s.putFibre k f = s.setWgs (s.wgs.upd k fun w => { w with fibres := w.fibres.put f.fid f }) := rfl

@[simp] theorem State.putFibre_mem (s : State) (k : Nat) (f : Fibre) : (s.putFibre k f).mem = s.mem := rfl
@[simp] theorem State.putFibre_poison (s : State) (k : Nat) (f : Fibre) : (s.putFibre k f).poison = s.poison := rfl
@[simp] theorem State.putFibre_l2 (s : State) (k : Nat) (f : Fibre) : (s.putFibre k f).l2 = s.l2 := rfl
@[simp] theorem State.putFibre_cycles (s : State) (k : Nat) (f : Fibre) : (s.putFibre k f).cycles = s.cycles := rfl
@[simp] theorem State.putFibre_free (s : State) (k : Nat) (f : Fibre) : (s.putFibre k f).free = s.free := rfl
@[simp] theorem State.putFibre_cur (s : State) (k : Nat) (f : Fibre) : (s.putFibre k f).cur = s.cur := rfl
@[simp] theorem State.putFibre_outbox (s : State) (k : Nat) (f : Fibre) : (s.putFibre k f).outbox = s.outbox := rfl
@[simp] theorem State.putFibre_cores (s : State) (k : Nat) (f : Fibre) : (s.putFibre k f).cores = s.cores := rfl
@[simp] theorem State.putFibre_clusters (s : State) (k : Nat) (f : Fibre) : (s.putFibre k f).clusters = s.clusters := rfl
@[simp] theorem State.putFibre_launches (s : State) (k : Nat) (f : Fibre) : (s.putFibre k f).launches = s.launches := rfl
@[simp] theorem State.putFibre_watches (s : State) (k : Nat) (f : Fibre) : (s.putFibre k f).watches = s.watches := rfl
@[simp] theorem State.putFibre_tenants (s : State) (k : Nat) (f : Fibre) : (s.putFibre k f).tenants = s.tenants := rfl
@[simp] theorem State.putFibre_fabric (s : State) (k : Nat) (f : Fibre) : (s.putFibre k f).fabric = s.fabric := rfl
@[simp] theorem State.putFibre_fw (s : State) (k : Nat) (f : Fibre) : (s.putFibre k f).fw = s.fw := rfl

/-! ## Free values -/

@[simp] theorem State.draw_snd_free {α : Type} (s : State) (f : Nat → α) : (s.draw f).2.free = s.free + 1 := rfl

@[simp] theorem State.draw_snd_mem {α : Type} (s : State) (f : Nat → α) : (s.draw f).2.mem = s.mem := rfl

@[simp] theorem State.draw_snd_l2 {α : Type} (s : State) (f : Nat → α) : (s.draw f).2.l2 = s.l2 := rfl

@[simp] theorem State.draw_snd_wgs {α : Type} (s : State) (f : Nat → α) : (s.draw f).2.wgs = s.wgs := rfl

/-! ## Reading an entry after an update -/

@[simp] theorem State.wg_setWgs (s : State) (t : Tbl Workgroup) (k : Nat) : (s.setWgs t).wg k = t.find k := rfl

@[simp] theorem State.launch_setLaunches (s : State) (t : Tbl Launch) (k : Nat) : (s.setLaunches t).launch k = t.find k := rfl

theorem State.wg_putWg_self (s : State) (k : Nat) (w : Workgroup) : (s.putWg k w).wg k = some w := Tbl.find_put_self ..

theorem State.wg_putWg_ne (s : State) {j k : Nat} (w : Workgroup) (h : j ≠ k) : (s.putWg k w).wg j = s.wg j :=
  Tbl.find_put_ne _ _ h

theorem State.wg_updWg_self {s : State} {k : Nat} {w : Workgroup} (g : Workgroup → Workgroup) (h : s.wg k = some w) :
    (s.updWg k g).wg k = some (g w) := by
  rw [State.updWg_eq, Tbl.upd_of_find h]; exact Tbl.find_put_self ..

theorem State.wg_updWg_ne (s : State) {j k : Nat} (g : Workgroup → Workgroup) (h : j ≠ k) : (s.updWg k g).wg j = s.wg j :=
  Tbl.find_upd_ne _ _ h

theorem State.core_putCore_self (s : State) (k : Nat) (x : CoreState) : (s.putCore k x).core k = x := by
  simp [State.core, State.putCore_eq, Tbl.getD, Tbl.find_put_self]

theorem State.core_putCore_ne (s : State) {j k : Nat} (x : CoreState) (h : j ≠ k) : (s.putCore k x).core j = s.core j := by
  simp [State.core, State.putCore_eq, Tbl.getD, Tbl.find_put_ne _ _ h]

theorem State.launch_updLaunch_self {s : State} {k : Nat} {l : Launch} (g : Launch → Launch) (h : s.launch k = some l) :
    (s.updLaunch k g).launch k = some (g l) := by
  rw [State.updLaunch_eq, Tbl.upd_of_find h]; exact Tbl.find_put_self ..

/-! ## What every step notes -/

@[simp] theorem State.notePeaks_rest (s : State) :
    s.notePeaks.mem = s.mem ∧ s.notePeaks.wgs = s.wgs ∧ s.notePeaks.cycles = s.cycles ∧ s.notePeaks.free = s.free ∧
    s.notePeaks.inbox = s.inbox ∧ s.notePeaks.cores = s.cores ∧ s.notePeaks.launches = s.launches := by
  unfold State.notePeaks
  and_intros <;> rfl

end Sys2Proof.Machine
end

