-- ==== Sys2Proof/Laws/Words.lean ====
section
/-! SUPPORT. What a word does once nothing stands before its effect: one lemma per shape of word. -/

namespace Sys2Proof.Machine

theorem flatMap_one {α β : Type} (l : List α) (f : α → β) : (l.flatMap fun e => [f e]) = l.map f := by
  induction l with
  | nil => rfl
  | cons a as ih => simp [ih]

theorem flatMap_nothing {α β : Type} (l : List α) : (l.flatMap fun _ => ([] : List β)) = [] := by
  induction l with
  | nil => rfl
  | cons a as ih => simp [ih]

/-- A word that nothing holds back ends as its body says. -/
theorem word_next {u : Use} {pre : Fibre → Option Trap} {body : Nat → Workgroup → List Nat → Fibre → State → Res}
    {s s1 : State} {w : Workgroup} {f g : Fibre} {act : List Nat} (h : Issues u pre s w f act g s1) :
    word u pre body s = .next (settleRes s.cur.wk w u act.length (beforeWord w u f s).1 (body s.cur.wk w act g s1)) := by
  obtain ⟨h1, h2, h3, h4, h5, hh, h6⟩ := h
  unfold word wordBy
  rw [h1]
  cases hf : w.fibres.find s.cur.fid with
  | none => rw [hf] at h2; simp at h2
  | some f0 =>
    rw [hf] at h2
    simp only [Option.map_some, Option.some.injEq] at h2
    have he : act.isEmpty = false := by cases act <;> simp_all
    simp only [hf, runWord]
    have hi : (if u.lane = true then f0.atIssue else f0.atIssue.dropRix) = f := h2
    rw [hi, ← h3, h5]
    simp only [he, hh, h6]
    rfl

theorem issues_lt {u : Use} {pre : Fibre → Option Trap} {s s1 : State} {w : Workgroup} {f g : Fibre} {act : List Nat}
    (h : Issues u pre s w f act g s1) {i : Nat} (hi : i ∈ act) : i < 16 := by
  rw [h.strands] at hi
  exact runners_lt hi

/-- The strand loop of a lane word writes one value per strand. -/
theorem wrote_laneLoop (l : Lat) (d : Nat) (val : Fibre → Nat → Nat → Word × Word) (act : List Nat) (g : Fibre)
    (h : ∀ i ∈ act, i < 16) :
    Wrote g (laneLoop l d val act g) (toV d (fun i j => (val g i j).1) g act) (allFlags (fun i j => (val g i j).2) act) := by
  have := wrote_overStrands g (fun i j h => (h.resV l i j d (val g i j).1).sticky (val g i j).2)
    (fun i j => [(.v (g.phys d) i, (val g i j).1)]) (fun i j => (val g i j).2)
    (fun i j k hi hk => by
      have a := wrote_resV k l i j d (val g i j).1 hi
      have b := wrote_sticky (k.resV l i j d (val g i j).1) (val g i j).2
      have c := a.trans b
      rw [phys_of_sameRest hk] at c
      simpa using c) act 0 g h rfl
  simpa [laneLoop, toV, allFlags, positions, flatMap_one] using this

theorem laneWord_finishes {i : Instr} {s s1 : State} {sc g : BitVec 2} {reads : List Opnd} {d : BitVec 6} {l : Lat}
    {val : Fibre → Nat → Nat → Word × Word} {w : Workgroup} {f k : Fibre} {act : List Nat}
    (he : exec i s = laneWord sc g reads d l val s) (h : Issues (lUse sc g reads [.v d.toNat]) noPre s w f act k s1) :
    ∃ h, Finishes i s w (lUse sc g reads [.v d.toNat]) act f h s1 ∧
      Wrote k h (toV d.toNat (fun i j => (val k i j).1) k act) (allFlags (fun i j => (val k i j).2) act) :=
  ⟨_, by unfold Finishes Ends; rw [he]; exact word_next h,
    wrote_laneLoop l d.toNat val act k fun _ hi => issues_lt h hi⟩

theorem laneCmp_finishes {i : Instr} {s s1 : State} {o : SGUKPAB} {l : Lat} {c : Cmp}
    {w : Workgroup} {f k : Fibre} {act : List Nat} (he : exec i s = laneCmp o l c s)
    (h : Issues (lUse o.s o.g ([.v o.a.toNat] ++ opLB o.u o.b) [.p o.p.toNat]) noPre s w f act k s1) :
    ∃ h, Finishes i s w (lUse o.s o.g ([.v o.a.toNat] ++ opLB o.u o.b) [.p o.p.toNat]) act f h s1 ∧
      Wrote k h (toP o.p.toNat (fun i j => (c o.k (k.getV i j o.a.toNat) (k.lB o.u o.b i j)).1) act)
        (allFlags (fun i j => (c o.k (k.getV i j o.a.toNat) (k.lB o.u o.b i j)).2) act) := by
  refine ⟨_, by unfold Finishes Ends; rw [he]; exact word_next h, ?_⟩
  have := wrote_overStrands k
    (fun i j h => (h.resP l i j o.p.toNat (c o.k (k.getV i j o.a.toNat) (k.lB o.u o.b i j)).1).sticky
        (c o.k (k.getV i j o.a.toNat) (k.lB o.u o.b i j)).2)
    (fun i j => if o.p.toNat = 0 then [] else [(.p o.p.toNat i, b2w (c o.k (k.getV i j o.a.toNat) (k.lB o.u o.b i j)).1)])
    (fun i j => (c o.k (k.getV i j o.a.toNat) (k.lB o.u o.b i j)).2)
    (fun i j m hi _ => by
      have a := wrote_resP m l i j o.p.toNat (c o.k (k.getV i j o.a.toNat) (k.lB o.u o.b i j)).1 hi o.p.isLt
      have b := wrote_sticky (m.resP l i j o.p.toNat (c o.k (k.getV i j o.a.toNat) (k.lB o.u o.b i j)).1)
        (c o.k (k.getV i j o.a.toNat) (k.lB o.u o.b i j)).2
      simpa using a.trans b) act 0 k (fun _ hi => issues_lt h hi) rfl
  by_cases hp : o.p.toNat = 0
  · simpa [toP, hp, allFlags, positions, flatMap_nothing] using this
  · simpa [toP, hp, allFlags, positions, flatMap_one] using this

theorem uniWord_finishes {i : Instr} {s s1 : State} {u : Use} {d : BitVec 6} {l : Lat} {val : Fibre → Word × Word}
    {w : Workgroup} {f k : Fibre} {act : List Nat} (he : exec i s = uniWord u d l val s) (h : Issues u noPre s w f act k s1) :
    ∃ h, Finishes i s w u act f h s1 ∧ Wrote k h (toS d.toNat (val k).1) (val k).2 := by
  refine ⟨_, by unfold Finishes Ends; rw [he]; exact word_next h, ?_⟩
  simpa using (wrote_resS k l d.toNat (val k).1 d.isLt).trans (wrote_sticky _ (val k).2)

theorem uniCmp_finishes {i : Instr} {s s1 : State} {sc g : BitVec 2} {reads : List Opnd} {c : BitVec 3} {l : Lat}
    {val : Fibre → Bool × Word} {w : Workgroup} {f k : Fibre} {act : List Nat} (he : exec i s = uniCmp sc g reads c l val s)
    (h : Issues (uUse sc g reads [.c c.toNat]) noPre s w f act k s1) :
    ∃ h, Finishes i s w (uUse sc g reads [.c c.toNat]) act f h s1 ∧ Wrote k h (toC c.toNat (val k).1) (val k).2 := by
  refine ⟨_, by unfold Finishes Ends; rw [he]; exact word_next h, ?_⟩
  simpa using (wrote_resC k l c.toNat (val k).1 c.isLt).trans (wrote_sticky _ (val k).2)

theorem uniWide_finishes {i : Instr} {s s1 : State} {u : Use} {d : BitVec 6} {val : Fibre → DWord}
    {w : Workgroup} {f k : Fibre} {act : List Nat} (he : exec i s = uniWide u d val s) (h : Issues u noPre s w f act k s1) :
    ∃ h, Finishes i s w u act f h s1 ∧ Wrote k h (toS64 d.toNat (val k)) 0 :=
  ⟨_, by unfold Finishes Ends; rw [he]; exact word_next h, wrote_setS64 k 2 d.toNat (val k)⟩

/-! ## What serving queue ports leaves alone (09 R182, R183) -/

/-- Only the launches, where the queues are, the cores, where the L1 copies are, and the workgroups, where a pop makes
direct-mode tiles observed (12 R240), differ. -/
def OnlyQueues (s t : State) : Prop := { t with launches := s.launches, cores := s.cores, wgs := s.wgs } = s

theorem OnlyQueues.refl (s : State) : OnlyQueues s s := rfl

theorem OnlyQueues.trans {a b c : State} (h : OnlyQueues a b) (k : OnlyQueues b c) : OnlyQueues a c := by
  unfold OnlyQueues at *
  rw [← h, ← k]

theorem onlyQueues_upd (s : State) (w : Workgroup) (slot : Nat) (g : KQueue → KQueue) : OnlyQueues s (s.updQueue w slot g) := by
  unfold State.updQueue
  split <;> rfl

theorem onlyQueues_acquire (s : State) (c scope : Nat) : OnlyQueues s (s.acquire c scope) := by
  unfold State.acquire
  split <;> rfl

theorem onlyQueues_syncQueue (s : State) (w : Workgroup) (uid slot : Nat) (push : Bool) :
    OnlyQueues s (s.syncQueue w uid slot push) := by
  unfold State.syncQueue
  split
  · unfold State.syncAt
    split <;> rfl
  · rfl

theorem onlyQueues_popOne (w : Workgroup) (n : Nat) (f : Fibre) (s : State) : OnlyQueues s (popPort w n f s).2 := by
  unfold popPort
  simp only []
  split
  · exact OnlyQueues.refl s
  · exact ((onlyQueues_syncQueue _ _ _ _ _).trans (onlyQueues_upd _ _ _ _)).trans (onlyQueues_acquire _ _ _)

theorem onlyQueues_pop (w : Workgroup) (l : List Nat) (f : Fibre) (s : State) : OnlyQueues s (popPorts w l f s).2 := by
  induction l generalizing f s with
  | nil =>
    rw [popPorts]
    exact OnlyQueues.refl s
  | cons n ns ih =>
    rw [popPorts]
    exact (onlyQueues_popOne w n f s).trans (ih _ _)

theorem onlyQueues_request (s : State) (w : Workgroup) (f : Fibre) (k : Nat) : OnlyQueues s (requestSlots s w f k).2 := by
  unfold requestSlots
  simp only []
  split
  · rfl
  · split
    · rfl
    · exact onlyQueues_upd _ _ _ _

theorem onlyQueues_requests (w : Workgroup) (l : List Nat) (r : Fibre × State) :
    OnlyQueues r.2 (l.foldl (fun r n => requestSlots r.2 w r.1 (n - 48)) r).2 := by
  induction l generalizing r with
  | nil => exact OnlyQueues.refl r.2
  | cons n ns ih => exact (onlyQueues_request r.2 w r.1 (n - 48)).trans (ih _)

theorem onlyQueues_operandWait {w : Workgroup} {u : Use} {f g : Fibre} {s s1 : State} (h : operandWait w u f s = (g, s1, none)) :
    OnlyQueues s s1 := by
  unfold operandWait at h
  simp only [] at h
  split at h
  · simp at h
  · split at h
    · simp at h
    · split at h
      · simp at h
      · split at h
        · simp at h
        · split at h
          · simp at h
          · simp only [Prod.mk.injEq, and_true] at h
            rw [← h.2]
            exact (onlyQueues_pop w _ f s).trans (onlyQueues_requests w _ _)

/-- Serving its queue ports, a word changes the queues and what their pops acquire, and nothing else. -/
theorem issues_served {u : Use} {pre : Fibre → Option Trap} {s s1 : State} {w : Workgroup} {f g : Fibre} {act : List Nat}
    (h : Issues u pre s w f act g s1) : OnlyQueues (beforeWord w u f s).2 s1 :=
  onlyQueues_operandWait h.ports

end Sys2Proof.Machine
end

