-- ==== Sys2Proof/Tests/Slice0.lean ====
section
/-! SUPPORT. Tests of the model, and a state and operands for every statement that has hypotheses. Expected results are
from the spec's tables and examples, or calculated by hand from its rules. -/

namespace Sys2Proof.Tests

set_option Elab.async false

open Sys2Proof Sys2Proof.Machine Sys2Proof.Claims

/-! ## A small state: one workgroup of one fibre -/

/-- One fibre of one workgroup at its first word, tenant 0 with two pages mapped onto themselves. -/
def base : State := State.reset.withFetchWord 32 0

/-- Its fibre changed. -/
def withFib (g : Fibre → Fibre) (s : State) : State :=
  s.updWg 0 fun w => { w with fibres := w.fibres.upd 0 g }

/-- The fibre with some s registers. -/
def withS (l : List (Nat × Word)) (s : State) : State :=
  withFib (fun f => l.foldl (fun f e => f.putS e.1 e.2) f) s

/-- A word of usage u has its effect in s. -/
def issues (u : Use) (pre : Fibre → Option Trap) (s : State) : Bool :=
  match s.wg s.cur.wk with
  | none => false
  | some w =>
    match (w.fibres.find s.cur.fid).map (issueOf u) with
    | none => false
    | some f => !(runners u f).isEmpty && (issueFault u (pre f) f (runners u f)).isNone && !syncHold s.cur.wk u f s &&
        (operandWait w u (beforeWord w u f s).1 (beforeWord w u f s).2).2.2.isNone

theorem issues_spec {u : Use} {pre : Fibre → Option Trap} {s : State} (h : issues u pre s = true) :
    ∃ w f act g s1, Issues u pre s w f act g s1 := by
  unfold issues at h
  split at h
  · cases h
  · rename_i w hw
    split at h
    · cases h
    · rename_i f hf
      simp only [Bool.and_eq_true, Bool.not_eq_true', List.isEmpty_eq_false_iff, Option.isNone_iff_eq_none] at h
      exact ⟨w, f, runners u f, _, _, ⟨hw, hf, rfl, h.1.1.1, h.1.1.2, h.1.2, Prod.ext rfl (Prod.ext rfl h.2)⟩⟩

/-- A register word of a table has its effect in s. -/
def regOk (table : Instr → Option RegWord) (s : State) (i : Instr) : Bool :=
  match table i with
  | none => false
  | some r => i.wf && issues r.use noPre s

theorem regOk_spec {table : Instr → Option RegWord} {s : State} {i : Instr} (h : regOk table s i = true) :
    ∃ r w f act g s1, table i = some r ∧ i.wf = true ∧ Issues r.use noPre s w f act g s1 := by
  unfold regOk at h
  split at h
  · cases h
  · rename_i r hr
    simp only [Bool.and_eq_true] at h
    obtain ⟨w, f, act, g, s1, k⟩ := issues_spec h.2
    exact ⟨r, w, f, act, g, s1, hr, h.1, k⟩

def oSGUDAB : SGUDAB := ⟨0, 0, 0, 4, 8, 6⟩
def oSGDA : SGDA := ⟨0, 0, 4, 8⟩
def oSGFUDAB : SGFUDAB := ⟨0, 0, 0, 0, 4, 8, 6⟩
def oSGUKPAB : SGUKPAB := ⟨0, 0, 0, 1, 2, 8, 6⟩
def oSGUDB : SGUDB := ⟨0, 0, 0, 4, 6⟩
def oSGD : SGD := ⟨0, 0, 4⟩
def oSGDAI : SGDAI := ⟨0, 0, 4, 8, 0⟩
def oSGDI : SGDI := ⟨0, 0, 4, 0⟩
def oSGPA : SGPA := ⟨0, 0, 2, 8⟩
def oSGDM : SGDM := ⟨0, 0, 4, 1⟩
def oSGRUDAB : SGRUDAB := ⟨0, 0, 0, 0, 4, 8, 6⟩
def oSGDAH : SGDAH := ⟨0, 0, 4, 8, 1⟩
def oSGDAK2 : SGDAK2 := ⟨0, 0, 4, 8, 1⟩
def oSGDAJ : SGDAJ := ⟨0, 0, 4, 8, 1⟩
def oSGDAN4 : SGDAN4 := ⟨0, 0, 4, 8, 1⟩
def oSGUDAB2 : SGUDAB := ⟨0, 0, 0, 4, 8, 0⟩
def oSGCM : SGCM := ⟨0, 0, 1, 1⟩
def oSGIDAB : SGIDAB := ⟨0, 0, 0, 4, 8, 6⟩
def oSGDAB : SGDAB := ⟨0, 0, 4, 8, 6⟩
def oSGFIDAB : SGFIDAB := ⟨0, 0, 0, 0, 4, 8, 6⟩
def oSGIKCAB : SGIKCAB := ⟨0, 0, 0, 1, 1, 8, 6⟩
def oSGKCAI : SGKCAI := ⟨0, 0, 1, 1, 8, 0⟩
def oSGDV : SGDV := ⟨0, 0, 4, 5⟩
def oSGRDAB : SGRDAB := ⟨0, 0, 0, 4, 8, 6⟩
def oSGKCAB : SGKCAB := ⟨0, 0, 1, 1, 8, 6⟩

/-- The integer words of the lane set, one each. -/
noncomputable def laneIntWords : List Instr :=
  [Instr.lAdd oSGUDAB, Instr.lAddSatI32 oSGUDAB, Instr.lAddSatN32 oSGUDAB, Instr.lSub oSGUDAB, Instr.lSubSatI32 oSGUDAB, Instr.lSubSatN32 oSGUDAB,
   Instr.lMul oSGUDAB, Instr.lMulhI32 oSGUDAB, Instr.lMulhN32 oSGUDAB, Instr.lMad oSGUDAB, Instr.lMinI32 oSGUDAB, Instr.lMinN32 oSGUDAB,
   Instr.lMaxI32 oSGUDAB, Instr.lMaxN32 oSGUDAB, Instr.lAnd oSGUDAB] ++
  [Instr.lOr oSGUDAB, Instr.lXor oSGUDAB, Instr.lAndn oSGUDAB, Instr.lShl oSGUDAB, Instr.lShr oSGUDAB, Instr.lSar oSGUDAB, Instr.lRol oSGUDAB,
   Instr.lPopc oSGDA, Instr.lClz oSGDA, Instr.lBrev oSGDA, Instr.lFfs oSGDA, Instr.lBfxI32 oSGUDAB, Instr.lBfxN32 oSGUDAB, Instr.lBfi oSGUDAB,
   Instr.lAminI32 oSGUDAB] ++
  [Instr.lAminN32 oSGUDAB, Instr.lAmaxI32 oSGUDAB, Instr.lAmaxN32 oSGUDAB, Instr.lSel oSGFUDAB, Instr.lCmpI32 oSGUKPAB, Instr.lCmpN32 oSGUKPAB,
   Instr.lMov oSGUDB, Instr.lSid oSGD, Instr.lLid oSGD, Instr.lAddi oSGDAI, Instr.lMovi oSGDI, Instr.lMuli oSGDAI, Instr.lPset oSGPA, Instr.lPget oSGDM]

theorem test_laneInt_words_issue : laneIntWords.all (regOk laneInt base) = true := by decide

/-- Its floating-point words, one each. -/
noncomputable def laneFloatWords : List Instr :=
  [Instr.lFadd oSGRUDAB, Instr.lFsub oSGRUDAB, Instr.lFmul oSGRUDAB, Instr.lFfma oSGRUDAB, Instr.lFmin oSGUDAB, Instr.lFmax oSGUDAB,
   Instr.lFminNan oSGUDAB, Instr.lFmaxNan oSGUDAB, Instr.lFcmp oSGUKPAB, Instr.lFcmpUn oSGUKPAB, Instr.lFrcp oSGDA, Instr.lFrsq oSGDA,
   Instr.lFex2 oSGDA, Instr.lFlg2 oSGDA, Instr.lCvtiI32F32 oSGDA] ++
  [Instr.lCvtiN32F32 oSGDA, Instr.lCvtiF32I32 oSGDA, Instr.lCvtiF32N32 oSGDA, Instr.lCvtfBf16x2F32 oSGUDAB, Instr.lCvtfF16x2F32 oSGUDAB,
   Instr.lCvtfF32Bf16 oSGDAH, Instr.lCvtfF32F16 oSGDAH, Instr.lCvt8E4m3F32 oSGDAK2, Instr.lCvt8E5m2F32 oSGDAK2, Instr.lCvt8F32E4m3 oSGDAK2,
   Instr.lCvt8F32E5m2 oSGDAK2, Instr.lHadd2Bf16 oSGUDAB, Instr.lHadd2F16 oSGUDAB, Instr.lHmul2Bf16 oSGUDAB, Instr.lHmul2F16 oSGUDAB] ++
  [Instr.lHfma2Bf16 oSGUDAB, Instr.lHfma2F16 oSGUDAB, Instr.lFabs oSGDA, Instr.lFneg oSGDA, Instr.lFcopysign oSGUDAB]

theorem test_laneFloat_words_issue : laneFloatWords.all (regOk laneFloat base) = true := by decide

/-- Its exchange words, one each. -/
noncomputable def laneExchangeWords : List Instr :=
  [Instr.lXch oSGUDAB, Instr.lXchImm oSGDAJ, Instr.lXchXor oSGDAJ, Instr.lShup oSGDAN4, Instr.lShdn oSGDAN4, Instr.lShupWrap oSGDAN4,
   Instr.lShdnWrap oSGDAN4, Instr.lScanAddI32 oSGUDAB2, Instr.lScanAddF32 oSGUDAB2, Instr.lScanMinI32 oSGUDAB2, Instr.lScanMaxI32 oSGUDAB2,
   Instr.lRedAddI32 oSGUDAB2, Instr.lRedAddF32 oSGUDAB2, Instr.lRedAnd oSGUDAB2, Instr.lRedOr oSGUDAB2] ++
  [Instr.lRedixMinI32 oSGDA, Instr.lRedixMinN32 oSGDA, Instr.lRedixMaxI32 oSGDA, Instr.lRedixMaxN32 oSGDA, Instr.lPick oSGDA, Instr.lVoteAny oSGCM,
   Instr.lVoteAll oSGCM, Instr.lBallot oSGDM]

theorem test_laneExchange_words_issue : laneExchangeWords.all (regOk laneExchange base) = true := by decide

/-- The integer words of the uniform set, one each. -/
noncomputable def uniIntWords : List Instr :=
  [Instr.uAdd oSGIDAB, Instr.uAddSatI32 oSGIDAB, Instr.uAddSatN32 oSGIDAB, Instr.uSub oSGIDAB, Instr.uSubSatI32 oSGIDAB, Instr.uSubSatN32 oSGIDAB,
   Instr.uMul oSGIDAB, Instr.uMulhI32 oSGIDAB, Instr.uMulhN32 oSGIDAB, Instr.uMad oSGIDAB, Instr.uMinI32 oSGIDAB, Instr.uMinN32 oSGIDAB,
   Instr.uMaxI32 oSGIDAB, Instr.uMaxN32 oSGIDAB, Instr.uAnd oSGIDAB] ++
  [Instr.uOr oSGIDAB, Instr.uXor oSGIDAB, Instr.uAndn oSGIDAB, Instr.uShl oSGIDAB, Instr.uShr oSGIDAB, Instr.uSar oSGIDAB, Instr.uRol oSGIDAB,
   Instr.uPopc oSGDA, Instr.uClz oSGDA, Instr.uBrev oSGDA, Instr.uFfs oSGDA, Instr.uBfxI32 oSGDAB, Instr.uBfxN32 oSGDAB, Instr.uBfi oSGDAB,
   Instr.uAminI32 oSGIDAB] ++
  [Instr.uAminN32 oSGIDAB, Instr.uAmaxI32 oSGIDAB, Instr.uAmaxN32 oSGIDAB, Instr.uSel oSGFIDAB, Instr.uCmpI32 oSGIKCAB, Instr.uCmpN32 oSGIKCAB,
   Instr.uCmpi oSGKCAI, Instr.uDivI32 oSGIDAB, Instr.uDivN32 oSGIDAB, Instr.uRemI32 oSGIDAB, Instr.uRemN32 oSGIDAB, Instr.uAdd64 oSGIDAB,
   Instr.uSub64 oSGIDAB, Instr.uCmp64 oSGIKCAB, Instr.uAddi oSGDI] ++
  [Instr.uLi oSGDI, Instr.uLui oSGDI, Instr.uMuli oSGDI, Instr.uLit oSGDV, Instr.uAddi64 oSGDI]

theorem test_uniInt_words_issue : uniIntWords.all (regOk uniInt base) = true := by decide

/-- Its floating-point words, one each. -/
noncomputable def uniFloatWords : List Instr :=
  [Instr.uFadd oSGRDAB, Instr.uFsub oSGRDAB, Instr.uFmul oSGRDAB, Instr.uFfma oSGRDAB, Instr.uFmin oSGDAB, Instr.uFmax oSGDAB, Instr.uFminNan oSGDAB,
   Instr.uFmaxNan oSGDAB, Instr.uFcmp oSGKCAB, Instr.uFcmpUn oSGKCAB, Instr.uFrcp oSGDA, Instr.uFrsq oSGDA, Instr.uFex2 oSGDA, Instr.uFlg2 oSGDA,
   Instr.uCvtiI32F32 oSGDA] ++
  [Instr.uCvtiN32F32 oSGDA, Instr.uCvtiF32I32 oSGDA, Instr.uCvtiF32N32 oSGDA]

theorem test_uniFloat_words_issue : uniFloatWords.all (regOk uniFloat base) = true := by decide

/-- Its comparisons, one each. -/
noncomputable def floatCompareWords : List Instr :=
  [Instr.uFcmp oSGKCAB, Instr.uFcmpUn oSGKCAB]

theorem test_floatCompare_words_issue : floatCompareWords.all (regOk floatCompare base) = true := by decide



/-! ## Words that end otherwise: how each ends -/

/-- How a word ends: 0 completed, 1 transferred, 2 waits, 3 ends its fibre, and a fault by its code and subcode. -/
def kindOf : Res → Nat
  | .done .. => 0
  | .jump .. => 1
  | .wait .. => 2
  | .ends .. => 3
  | .trap _ _ t _ => 0x10000 + 256 * t.code.num + t.sub

/-- A word of a table has its effect in s; how the table ends it. -/
def wordKind (table : Instr → Option WordRule) (i : Instr) (s : State) : Option Nat := do
  let r ← table i
  guard (i.wf && issues r.use r.pre s)
  let w ← s.wg s.cur.wk
  let f ← (w.fibres.find s.cur.fid).map (issueOf r.use)
  let q := operandWait w r.use (beforeWord w r.use f s).1 (beforeWord w r.use f s).2
  guard (r.fires w q.1)
  pure (kindOf (r.res q.2.1 w (runners r.use f) q.1))

/-- The same for a word on an object. -/
def objectKind (table : Instr → Option ObjectRule) (i : Instr) (s : State) : Option Nat := do
  let r ← table i
  guard (i.wf && issues r.use noPre s)
  let w ← s.wg s.cur.wk
  let f ← (w.fibres.find s.cur.fid).map (issueOf r.use)
  let q := operandWait w r.use (beforeWord w r.use f s).1 (beforeWord w r.use f s).2
  (r.res q.2.1 w q.1).map kindOf

theorem wordKind_spec {table : Instr → Option WordRule} {i : Instr} {s : State} {k : Nat} (h : wordKind table i s = some k) :
    ∃ r w f act g s1, table i = some r ∧ i.wf = true ∧ Issues r.use r.pre s w f act g s1 := by
  unfold wordKind at h
  cases hr : table i with
  | none => simp [hr] at h
  | some r =>
    cases hg : i.wf && issues r.use r.pre s with
    | false => simp only [hr, hg, guard, Bool.false_eq_true, if_false, Option.bind_eq_bind, Option.bind_some] at h; cases h
    | true =>
      rw [Bool.and_eq_true] at hg
      obtain ⟨w, f, act, g, s1, k⟩ := issues_spec hg.2
      exact ⟨r, w, f, act, g, s1, rfl, hg.1, k⟩

/-- The workgroup changed, and the launch. -/
def withWg (g : Workgroup → Workgroup) (s : State) : State := s.updWg 0 g
def withLaunch (g : Launch → Launch) (s : State) : State := s.updLaunch 0 g
def withBytes (pa : Nat) (bs : List Byte) (s : State) : State := s.setMem (cellWrite s.mem pa bs)

/-- A launch of deterministic mode that has given its commit token to nobody. -/
def detBase : State := withWg (fun w => { w with hdr := { w.hdr with det := true } }) base

def trapped (s : State) : State := withFib (fun f => { f with fstat := f.fstat ||| 0x20 }) s

def entry (kind : Bool) (mask : BitVec 16) : StackEntry := { kind := kind, mask := mask, pclo := 0x20000 }

/-- 03 R67 to R70, R72: targets are PC + 4 × offset, a register, or s63; the faults are MISALIGN 0x04, PROTECTION 0x06,
RESERVED_FIELD 0x02, TRAP 0x11, BREAK 0x12. -/
theorem test_control_ends :
    [wordKind control (Instr.br ⟨0, 0, 5⟩) base, wordKind control (Instr.br ⟨0, 0, 0x100000⟩) base,
     wordKind control (Instr.call ⟨0, 0, 5⟩) base, wordKind control (Instr.jr ⟨0, 0, 8⟩) (withS [(8, 0x20000)] base),
     wordKind control (Instr.jr ⟨0, 0, 8⟩) (withS [(8, 0x20002)] base),
     wordKind control (Instr.callr ⟨0, 0, 8⟩) (withS [(8, 0x20000)] base),
     wordKind control (Instr.ret ⟨0, 0⟩) (withS [(63, 0x20000)] base), wordKind control (Instr.ret ⟨0, 0⟩) (withS [(63, 1)] base),
     wordKind control (Instr.loopW ⟨0, 0, 4, 7⟩) (withS [(4, 2)] base),
     wordKind control (Instr.loopW ⟨0, 0, 4, 7⟩) (withS [(4, 1)] base)] =
      [some 1, some 0x10600, some 1, some 1, some 0x10400, some 1, some 1, some 0x10400, some 1, some 0] := by decide

theorem test_rotation_and_traps_end :
    [wordKind control (Instr.rotset ⟨0, 0, 1, 32⟩) base, wordKind control (Instr.rotset ⟨0, 0, 0, 6⟩) (withS [(6, 5)] base),
     wordKind control (Instr.rotbase ⟨0, 0, 0, 6⟩) base, wordKind control (Instr.rotbase ⟨0, 0, 0, 6⟩) (withS [(6, 1)] base),
     wordKind control (Instr.trap ⟨0, 0, 1, 5⟩) base, wordKind control (Instr.brk ⟨0, 0, 1, 5⟩) base,
     wordKind retiresAsNop (Instr.brk ⟨0, 0, 1, 5⟩) (withFib (fun f => { f with fctl := 0 }) base),
     wordKind retiresAsNop (Instr.yield ⟨0, 0, 1, 9⟩) detBase, wordKind control (Instr.nop ⟨0, 0⟩) base, wordKind control (Instr.slackImm ⟨0, 0, 200⟩) base,
     wordKind control (Instr.slackReg ⟨0, 0, 4⟩) base] =
      [some 0, some 0x10201, some 0, some 0x10201, some 0x11105, some 0x11205, some 0, some 0, some 0, some 0, some 0] := by decide

/-- 03 R72: in trap mode to TRAPPC; outside it the word has no effect of its own. -/
theorem test_tret_ends :
    [wordKind trapReturn (Instr.tret ⟨0, 0⟩) (withFib (fun f => { f with trappc := 0x20000 }) (trapped base)),
     wordKind trapReturn (Instr.tret ⟨0, 0⟩) base] = [some 1, none] := by decide

/-- Each register of 01 Table 1-2 can be read; FSTAT can be written, WGID never, TRAPPC in trap mode alone. -/
theorem test_system_registers_end :
    [0x000, 0x001, 0x002, 0x003, 0x004, 0x005, 0x006, 0x007, 0x008, 0x009, 0x00A, 0x00B, 0x00C, 0x010, 0x018, 0x019, 0x01A].all
        (fun r => wordKind systemRegs (Instr.sysr ⟨0, 0, BitVec.ofNat 9 r, 4⟩) base == some 0) = true ∧
      [wordKind systemRegs (Instr.sysw ⟨0, 0, 0, 4⟩) base, wordKind systemRegs (Instr.sysw ⟨0, 0, 0x00A, 4⟩) base,
       wordKind systemRegs (Instr.sysw ⟨0, 0, 0x018, 4⟩) base, wordKind systemRegs (Instr.sysw ⟨0, 0, 0x018, 4⟩) (trapped base),
       wordKind systemRegs (Instr.sysr ⟨0, 0, 8, 4⟩) detBase, wordKind systemRegs (Instr.rdcnt ⟨0, 0, 0, 4⟩) base,
       wordKind systemRegs (Instr.rdcnt ⟨0, 0, 4, 4⟩) base] =
        [some 0, none, none, some 0, some 2, some 0, some 0] := by decide

/-- The fibre with p1 set in some strands and entries on its stack, 4 deep. -/
def diverged (p1 active : BitVec 16) (es : List StackEntry) (s : State) : State :=
  withFib (fun f => es.foldl (fun f e => { f.putStack f.divd e with divd := f.divd + 1 })
    { f with p := vset f.p 1 p1, active := active }) s

/-- 05 R117 to R120: DIVSTACK_FULL is 0x09, SUB 0 for a push and 1 for a pop. -/
theorem test_divergence_ends :
    [wordKind divergence (Instr.lDmark ⟨0, 5⟩) base, wordKind divergence (Instr.lDmark ⟨0, 0x100000⟩) base,
     wordKind divergence (Instr.lDmark ⟨0, 5⟩) (diverged 0 0xFFFF (List.replicate 4 (entry true 0xFFFF)) base),
     wordKind divergence (Instr.lDbr ⟨0, 1, 3⟩) (diverged 0 0xFFFF [] base), wordKind divergence (Instr.lDbr ⟨0, 0, 3⟩) base,
     wordKind divergence (Instr.lDbr ⟨0, 1, 3⟩) (diverged 0xFF 0xFFFF [] base),
     wordKind divergence (Instr.lDbr ⟨0, 1, 3⟩) (diverged 0xFF 0xFFFF (List.replicate 4 (entry true 0xFFFF)) base),
     wordKind divergence (Instr.lJoin ⟨0⟩) base,
     wordKind divergence (Instr.lJoin ⟨0⟩) (diverged 0 0xFF [entry true 0xFFFF] base),
     wordKind divergence (Instr.lJoin ⟨0⟩) (diverged 0 0xFF [entry true 0xFFFF, entry false 0xFF00] base),
     wordKind divergence (Instr.lJoin ⟨0⟩) (diverged 0 0xFF [entry false 0xFF00] base),
     wordKind divergence (Instr.lExit ⟨0, 0⟩) base, wordKind divergence (Instr.lExit ⟨0, 1⟩) (diverged 0xFF 0xFFFF [] base),
     wordKind divergence (Instr.lExit ⟨0, 0⟩) (diverged 0 0xFF [entry true 0xFFFF] base)] =
      [some 0, some 0x10600, some 0x10900, some 0, some 1, some 0, some 0x10900, some 0x10901, some 1, some 1, some 1,
       some 3, some 0, some 1] := by decide

/-- The workgroup with 32 fibres. -/
def crowded (s : State) : State :=
  withWg (fun w => { w with fibres := (w.fibres.find 0).elim [] fun f => (List.range 32).map fun k => (k, { f with fid := k }) }) s

def windowOf (n : Nat) (s : State) : State := withFib (fun f => { f with win := n }) s

/-- A load that has not been performed. -/
def inFlight : Outstanding :=
  { uid := 0, ld := true, st := false, slack := 0, tick := 0, pc := 0, accs := [(0, false)], tags := [7], stores := [], loads := [], whole := true
    again := false }

/-- 05 R121 to R123: RESERVED_FIELD 0x02 SUB 3 for a size, MISALIGN for a fork's target. -/
theorem test_fibre_words_end :
    [wordKind fibreControl (Instr.fork ⟨0, 0, 1, 4, 8, 1⟩) (withS [(8, 0x20000)] base),
     wordKind fibreControl (Instr.fork ⟨0, 0, 1, 4, 8, 1⟩) (withS [(8, 0x20002)] base),
     wordKind fibreControl (Instr.fork ⟨0, 0, 1, 4, 8, 1⟩) (withS [(8, 0x20000)] (crowded base)),
     wordKind fibreControl (Instr.fork ⟨0, 0, 1, 4, 8, 1⟩) (withFib (fun f => { f with rowsReq := some (.placed 3) }) base),
     wordKind fibreControl (Instr.fctlEnd ⟨0, 0⟩) base, wordKind fibreControl (Instr.yield ⟨0, 0, 1, 9⟩) base,
     wordKind fibreControl (Instr.vgrow ⟨0, 0, 1, 8⟩) base, wordKind fibreControl (Instr.vgrow ⟨0, 0, 0, 6⟩) (withS [(6, 5)] base),
     wordKind fibreControl (Instr.vgrow ⟨0, 0, 1, 8⟩) (windowOf 8 base),
     wordKind fibreControl (Instr.vgrow ⟨0, 0, 1, 8⟩) (withFib (fun f => { f with outs := [inFlight] }) (windowOf 8 base)),
     wordKind fibreControl (Instr.vshrink ⟨0, 0, 1, 1⟩) base,
     wordKind fibreControl (Instr.vshrink ⟨0, 0, 0, 6⟩) (withS [(6, 12)] base)] =
      [some 0, some 0x10400, some 0, some 0, some 3, some 0, some 0, some 0x10203, some 0, some 2, some 0, some 0x10203] := by
  decide

/-- 09 R176, R178: offset 4096 is the first of the stash; selector 0xF is PRIVILEGE 0x03. -/
theorem test_cache_words_end :
    [wordKind cacheWords (Instr.smap ⟨0, 0, 1, 4, 8, 1⟩) (withS [(4, 4096), (8, 0x20000)] base),
     wordKind cacheWords (Instr.smap ⟨0, 0, 1, 4, 8, 1⟩) (withS [(4, 4096), (9, 0xF0000000)] base),
     wordKind cacheWords (Instr.smap ⟨0, 0, 1, 4, 8, 1⟩) detBase,
     wordKind cacheWords (Instr.cwaitLd ⟨0, 0, 1, 0⟩) base,
     wordKind cacheWords (Instr.cwaitLd ⟨0, 0, 1, 0⟩) (withFib (fun f => { f with outs := [inFlight] }) base),
     wordKind cacheWords (Instr.cwaitSt ⟨0, 0, 1, 0⟩) (withFib (fun f => { f with outs := [inFlight] }) base),
     wordKind cacheWords (Instr.cwaitEng ⟨0, 0, 1, 0⟩) base,
     wordKind cacheWords (Instr.cwaitEng ⟨0, 0, 1, 0⟩) (withFib (fun f => { f with engo := 1 }) base)] =
      [some 0, some 0x10300, some 2, some 0, some 2, some 0, some 0, some 2] := by decide

/-! ## Synchronisation words -/

def withBar (b : Nat) (x : Bar) (s : State) : State := withWg (fun w => { w with bars := vset w.bars b x }) s

/-- The fibre has arrived at barrier 3 in phase 0. -/
def arrived3 (s : State) : State := withFib (fun f => { f with rv := 8 }) s

def bar3 (phase : Bool) (arr exp : Nat) (s : State) : State :=
  withBar 3 { phase := phase, arr := arr, exp := exp, wait := 0, held := 1 } s

/-- 09 R179: RESERVED_FIELD 0x02 SUB 7 and 0, QUEUE_STATE 0x0C SUB 0x21 to 0x23. -/
theorem test_barriers_end :
    [wordKind barriers (Instr.barArrive ⟨0, 0, 1, 8, 3⟩) base,
     wordKind barriers (Instr.barArrive ⟨0, 0, 1, 8, 3⟩) (withS [(8, 32)] base),
     wordKind barriers (Instr.barArrive ⟨0, 0, 1, 8, 3⟩) (withS [(8, 33)] base),
     wordKind barriers (Instr.barArrive ⟨0, 0, 1, 8, 15⟩) base, wordKind barriers (Instr.barArrive ⟨0, 0, 0, 8, 6⟩) (withS [(6, 16)] base),
     wordKind barriers (Instr.barArrive ⟨0, 0, 1, 8, 3⟩) (withWg (fun w => { w with hdr := { w.hdr with nbar := 0 } }) base),
     wordKind barriers (Instr.barArrive ⟨0, 0, 1, 8, 3⟩) (bar3 false 1 2 (arrived3 (withS [(8, 2)] base))),
     wordKind barriers (Instr.barArrive ⟨0, 0, 1, 8, 3⟩) (bar3 false 1 3 (withS [(8, 2)] base)),
     wordKind barriers (Instr.barWait ⟨0, 0, 1, 3⟩) base,
     wordKind barriers (Instr.barWait ⟨0, 0, 1, 3⟩) (bar3 true 0 0 (arrived3 base)),
     wordKind barriers (Instr.barWait ⟨0, 0, 1, 3⟩) (bar3 false 1 2 (arrived3 base)),
     wordKind barriers (Instr.barSync ⟨0, 0, 1, 8, 3⟩) base, wordKind barriers (Instr.barSync ⟨0, 0, 1, 8, 3⟩) (withS [(8, 2)] base),
     wordKind barriers (Instr.barSync ⟨0, 0, 1, 8, 3⟩) (withFib (fun f => { f with sleep := .woken }) (arrived3 base))] =
      [some 0, some 0, some 0x10207, some 0, some 0x10207, some 0x10200, some 0x10C21, some 0x10C23, some 0x10C22, some 0,
       some 2, some 0, some 2, some 0] := by decide

/-- Slot 0 names a knot of some members, with a queue or none. -/
def knotted (members arrived : List Nat) (failed : Bool) (q : Option KQueue) (s : State) : State :=
  withLaunch (fun l => { l with knots := [(0, { members := members, phase := false, arrived := arrived, failed := failed, queue := q })] })
    (withWg (fun w => { w with hdr := { w.hdr with knots := 1 }, knots := vset w.knots 0 (some 0) }) s)

def hasRec (s : State) : State := withWg (fun w => { w with knotRec := vset w.knotRec 0 ⟨true, false⟩ }) s

/-- 09 R180: the faults of `bar`, and PEER_FAULT 0x14 SUB 0x10 + slot for a failed knot. -/
theorem test_knots_end :
    [wordKind knotWords (Instr.knotArrive ⟨0, 0, 1, 0⟩) (knotted [0, 1] [] false none base),
     wordKind knotWords (Instr.knotArrive ⟨0, 0, 1, 0⟩) (hasRec (knotted [0, 1] [0] false none base)),
     wordKind knotWords (Instr.knotWait ⟨0, 0, 1, 0⟩) (knotted [0, 1] [] false none base),
     wordKind knotWords (Instr.knotWait ⟨0, 0, 1, 0⟩) (hasRec (knotted [0, 1] [0] false none base)),
     wordKind knotWords (Instr.knotSync ⟨0, 0, 1, 0⟩) (knotted [0] [] false none base),
     wordKind knotWords (Instr.knotSync ⟨0, 0, 1, 0⟩) (knotted [0, 1] [] false none base),
     wordKind knotWords (Instr.knotSync ⟨0, 0, 0, 6⟩) (withS [(6, 4)] base), wordKind knotWords (Instr.knotSync ⟨0, 0, 1, 3⟩) base,
     wordKind knotWords (Instr.knotSync ⟨0, 0, 1, 0⟩) (knotted [0] [] true none base),
     wordKind knotWords (Instr.knotSync ⟨0, 0, 1, 0⟩) (knotted [0] [] false none detBase)] =
      [some 0, some 0x10C21, some 0x10C22, some 2, some 0, some 2, some 0x10207, some 0x10200, some 0x11410, some 2] := by
  decide

def aQueue (elems : List Word) (outBinds : Nat) : KQueue :=
  { cap := 4, elems := elems, reserved := 0, outBinds := outBinds, hadOut := outBinds != 0, pushed := elems.length }

/-- Port 0 bound to slot 0, out or in, in a knot with a queue. -/
def ported (out : Bool) (q : KQueue) (s : State) : State :=
  withFib (fun f => f.setPort 0 { bound := true, out := out, slot := 0, allow := 0 }) (knotted [0] [] false (some q) s)

/-- 09 R184: QUEUE_STATE SUB 4 unbound, 2 wrong direction, 1 bound twice, 7 no queue, 6 closed; RESERVED_FIELD SUB 0. -/
theorem test_queue_words_end :
    [wordKind queueWords (Instr.qbind ⟨0, 0, 48, 1, 0⟩) (knotted [0] [] false (some (aQueue [] 0)) base),
     wordKind queueWords (Instr.qbind ⟨0, 0, 48, 1, 0⟩) (ported true (aQueue [] 1) base),
     wordKind queueWords (Instr.qbind ⟨0, 0, 48, 1, 0⟩) base,
     wordKind queueWords (Instr.qbind ⟨0, 0, 48, 1, 0⟩) (knotted [0] [] false none base),
     wordKind queueWords (Instr.qbind ⟨0, 0, 48, 1, 0⟩) (knotted [0] [] false (some { aQueue [] 0 with hadOut := true }) base),
     wordKind queueWords (Instr.qgive ⟨0, 0, 1, 1, 48, 7⟩) base,
     wordKind queueWords (Instr.qgive ⟨0, 0, 1, 1, 48, 7⟩) (ported false (aQueue [] 1) base),
     wordKind queueWords (Instr.qgive ⟨0, 0, 1, 1, 48, 7⟩) (ported true (aQueue [] 1) base),
     wordKind queueWords (Instr.qtry ⟨0, 0, 1, 48, 4⟩) (ported false (aQueue [9] 1) base),
     wordKind queueWords (Instr.qtry ⟨0, 0, 1, 48, 4⟩) (ported true (aQueue [9] 1) base),
     wordKind queueWords (Instr.qclose ⟨0, 0, 48⟩) (ported true (aQueue [] 1) base),
     wordKind queueWords (Instr.qclose ⟨0, 0, 48⟩) (ported true (aQueue [] 1) detBase)] =
      [some 0, some 0x10C01, some 0x10200, some 0x10C07, some 0x10C06, some 0x10C04, some 0x10C02, some 0, some 0, some 0x10C02,
       some 0, some 2] := by decide

def hasToken (s : State) : State := withLaunch (fun l => { l with token := { l.token with holder := some 0 } }) s

/-- 09 R192, R193: TOKEN_MISUSE 0x17. -/
theorem test_token_words_end :
    [wordKind tokenWords (Instr.tokpass ⟨0, 0⟩) base, wordKind tokenWords (Instr.tokpass ⟨0, 0⟩) detBase,
     wordKind tokenWords (Instr.tokpass ⟨0, 0⟩) (hasToken detBase),
     wordKind tokenWords (Instr.tokpass ⟨0, 0⟩) (hasToken (withFib (fun f => { f with outs := [inFlight] }) detBase)),
     wordKind tokenWords (Instr.tokq ⟨0, 0, 1⟩) base, wordKind tokenWords (Instr.trig ⟨0, 0⟩) base,
     wordKind tokenWords (Instr.trig ⟨0, 0⟩) detBase] =
      [some 0, some 0x11700, some 0, some 2, some 0, some 0, some 2] := by decide

/-- Tree register 0 of core 0. -/
def withTree (t : TreeReg) (s : State) : State := s.putCore 0 { s.core 0 with tree := vset (s.core 0).tree 0 t }

/-- 14 R288: QUEUE_STATE SUB 0x30, RESERVED_FIELD SUB 9 and 0x0A. -/
theorem test_tree_words_end :
    [wordKind treeWords (Instr.tset ⟨0, 0, 1, 0, 8, 0⟩) base, wordKind treeWords (Instr.tset ⟨0, 0, 1, 0, 8, 0⟩) (withS [(8, 1)] base),
     wordKind treeWords (Instr.tset ⟨0, 0, 1, 0, 8, 0⟩) (withS [(8, 1)] (withTree ⟨some 0, [(0, 0)]⟩ base)),
     wordKind treeWords (Instr.tset ⟨0, 0, 1, 0, 8, 0⟩) (withS [(8, 64)] base),
     wordKind treeWords (Instr.tset ⟨0, 0, 1, 0, 8, 0⟩) (withTree ⟨some 1, []⟩ base),
     wordKind treeWords (Instr.tanc ⟨0, 0, 4, 8, 0⟩) (withS [(8, 63)] base), wordKind treeWords (Instr.tdepth ⟨0, 0, 4, 8, 0⟩) base,
     wordKind treeWords (Instr.tclr ⟨0, 0, 0⟩) base] =
      [some 0, some 0x1020A, some 0, some 0x10209, some 0x10C30, some 0, some 0, some 0] := by decide

def at8 (x : Word) (s : State) : State := withS [(8, x)] s

/-- 09 R194: RESERVED_FIELD SUB 8, MISALIGN; a hold keeps it waiting. -/
theorem test_post_ends :
    [wordKind postWords (Instr.post ⟨0, 0, 1, 0, 8, 2⟩) (at8 0x20000 base), wordKind postWords (Instr.post ⟨0, 0, 0, 0, 8, 6⟩) (at8 0x20000 (withS [(6, 3)] base)),
     wordKind postWords (Instr.post ⟨0, 0, 1, 0, 8, 0⟩) (at8 0x20040 base),
     wordKind postWords (Instr.post ⟨0, 0, 1, 0, 8, 0⟩) (at8 0x20000 { base with fw := { base.fw with hold := true } }),
     wordKind postWords (Instr.post ⟨0, 0, 1, 0, 8, 0⟩) detBase] =
      [some 0, some 0x10208, some 0x10400, some 2, some 2] := by decide

/-- s8:s9 names an offset of the own scratchpad, which holds some bytes. -/
def own8 (x : Word) (s : State) : State := withS [(8, x), (9, 0x80000000)] s
def inPad (off : Nat) (bs : List Byte) (s : State) : State := withWg (fun w => { w with mem := cellWrite w.mem off bs }) s

/-- A claim on the object at offset 0x100. -/
def claiming (n : Word) (s : State) : State := withWg (fun w => { w with claim := some (0x8000000000000100, n) }) s

/-- 09 R187: QUEUE_STATE SUB 0x10 and 0x11, TICKET_POISON 0x0F. The object at offset 0x100 has SERVE 0. -/
theorem test_tickets_end :
    [objectKind tickets (Instr.tkwait ⟨0, 0, 1, 8, 0⟩) (own8 0x100 base), objectKind tickets (Instr.tkwait ⟨0, 0, 1, 8, 1⟩) (own8 0x100 base),
     objectKind tickets (Instr.tkwait ⟨0, 0, 1, 8, 0⟩) (own8 0x100 (inPad 0x104 [1] base)),
     objectKind tickets (Instr.tkwait ⟨0, 0, 1, 8, 0⟩) (own8 0x100 (claiming 1 base)),
     objectKind tickets (Instr.tkpoll ⟨0, 0, 1, 1, 8, 0⟩) (own8 0x100 base), objectKind tickets (Instr.tkpoll ⟨0, 0, 1, 1, 8, 1⟩) (own8 0x100 base),
     objectKind tickets (Instr.tkpass ⟨0, 0, 8⟩) (own8 0x100 base), objectKind tickets (Instr.tkpass ⟨0, 0, 8⟩) (own8 0x100 (claiming 0 base)),
     objectKind tickets (Instr.tkpass ⟨0, 0, 8⟩) (own8 0x100 (claiming 1 base)),
     objectKind tickets (Instr.tkpass ⟨0, 0, 8⟩) (own8 0x100 (claiming 0 (inPad 0x104 [1] base)))] =
      [some 0, some 2, some 0x10F00, some 0x10C10, some 0, some 0, some 0x10C11, some 0, some 0x10C11, some 0x10F00] := by
  decide

/-- A record of 32 or 64 bytes, from the words that are not 0. -/
def block (n : Nat) (l : Tbl Word) : List Byte := (List.range (n / 4)).flatMap fun k => leBytes 4 (l.getD (4 * k) 0).toNat

def aWatch (who : Waiter) (fired : Bool) : Watch :=
  { pa := 0x20040, mask := BitVec.allOnes 64, operand := 0, cond := 1, waiter := who, fired := fired, value := 5 }

/-- The fibre holds entry 7. -/
def watching (fired : Bool) (s : State) : State :=
  withFib (fun f => { f with watches := [7] }) (s.setWatches [(7, aWatch (.fibre 0 0 0) fired)])

/-- The record of a watch on 0x20040. -/
def watchRecord : List Byte := block 32 [(0, 0x20040), (8, 0xFFFFFFFF), (12, 0xFFFFFFFF)]

/-- All general entries of the group of an address are in use. -/
def groupFull (pa : Nat) (s : State) : State :=
  s.setWatches (((List.range 224).map fun k => (entryKey (watchGroup pa) k, aWatch (.kettleTail 0) false)))

/-- 09 R189, R191: WATCH_FULL 0x13, QUEUE_STATE SUB 0x20. -/
theorem test_watch_words_end :
    [objectKind watchWords (Instr.watchArm ⟨0, 0, 4, 8, 1⟩) (own8 0x100 (inPad 0x100 watchRecord base)),
     objectKind watchWords (Instr.watchArm ⟨0, 0, 4, 8, 1⟩) (own8 0x100 (groupFull 0x20040 (inPad 0x100 watchRecord base))),
     objectKind watchWords (Instr.watchArm ⟨0, 0, 4, 8, 1⟩)
       (withFib (fun f => { f with watches := List.range 8 }) (own8 0x100 (inPad 0x100 watchRecord base))),
     objectKind watchWords (Instr.wwait ⟨0, 0, 4, 8⟩) (at8 7 base), objectKind watchWords (Instr.wwait ⟨0, 0, 4, 8⟩) (at8 7 (watching true base)),
     objectKind watchWords (Instr.wwait ⟨0, 0, 4, 8⟩) (at8 7 (watching false base)), objectKind watchWords (Instr.disarm ⟨0, 0, 8⟩) (at8 7 base),
     objectKind watchWords (Instr.disarm ⟨0, 0, 8⟩) (at8 7 (watching false base))] =
      [some 0, some 0x11300, some 0x11301, some 0x10C20, some 0, some 2, some 0x10C20, some 0] := by decide +kernel

/-- 09 R195 to R198, on an object of zeros at offset 0x100. -/
theorem test_byte_barriers_end :
    [objectKind byteBarriers (Instr.bcinit ⟨0, 0, 1, 8, 10⟩) (own8 0x100 base),
     objectKind byteBarriers (Instr.bcwait ⟨0, 0, 1, 4, 8, 1⟩) (own8 0x100 base),
     objectKind byteBarriers (Instr.bcwait ⟨0, 0, 1, 4, 8, 0⟩) (own8 0x100 base),
     objectKind byteBarriers (Instr.bcadd ⟨0, 0, 1, 8, 4⟩) (own8 0x100 base),
     objectKind byteBarriers (Instr.bcphase ⟨0, 0, 4, 8⟩) (own8 0x100 base)] = [some 0, some 0, some 2, some 0, some 0] := by
  decide

/-! ## Engine words -/

/-- The block at offset 0x100, which s8:s9 names. -/
def blocked (b : List Byte) (s : State) : State := own8 0x100 (inPad 0x100 b s)

def accMode (s : State) : State := withWg (fun w => { w with hdr := { w.hdr with accm := true } }) s

/-- The issue of a command before every other. -/
def early : Issue := { cycle := 0, lane := 0, serial := 0, mark := 0, made := 0 }

/-- Some cycles on. -/
def later (s : State) : State := { s with cycles := 9 }

def aCommand (op : MOp) (fid : Nat) : MCmd :=
  { op := op, own := { wk := 0, fid := fid, uid := fid, pc := 0x10040 }, iss := early, slack := 5, tick := 0, started := false, k := 0
    psn := false, late := false, lost := 0, stalled := none, failed := false }

def queueM (q : List MCmd) (s : State) : State := withWg (fun w => { w with mq := q }) s

/-- 12 R219 to R239: ENGINE_PARAM 0x0E SUB 4, 0x0A; a product of depth 0 over formats of code 0. -/
theorem test_matrix_words_end :
    [objectKind matrixWords (Instr.mma ⟨0, 0, 8, 12, 0⟩) (blocked (block 64 []) base),
     objectKind matrixWords (Instr.mma ⟨0, 0, 8, 12, 0⟩) (blocked (block 64 []) (queueM (List.replicate 16 (aCommand (.mclr 0 true) 1)) base)),
     objectKind matrixWords (Instr.mma ⟨0, 0, 8, 12, 1⟩) base, objectKind matrixWords (Instr.mma ⟨0, 0, 8, 12, 0⟩) (own8 0x120 base),
     objectKind matrixWords (Instr.mma ⟨0, 0, 8, 12, 0⟩) (at8 0x20000 detBase),
     objectKind matrixWords (Instr.mswap ⟨0, 0, 1⟩) base, objectKind matrixWords (Instr.mswap ⟨0, 0, 0⟩) (accMode base),
     objectKind matrixWords (Instr.mswap ⟨0, 0, 0⟩) base,
     objectKind matrixWords (Instr.mswap ⟨0, 0, 0⟩) (withFib (fun f => { f with sleep := .woken }) base),
     objectKind matrixWords (Instr.mclr ⟨0, 0, 1, 0⟩) base, objectKind matrixWords (Instr.mclr ⟨0, 0, 1, 1⟩) base,
     objectKind matrixWords (Instr.mflag ⟨0, 0, 9, 0, 0, 0, 0⟩) base, objectKind matrixWords (Instr.mflag ⟨0, 0, 9, 0, 0, 0, 1⟩) base,
     objectKind matrixWords (Instr.mflag ⟨0, 0, 9, 0, 0, 0, 0⟩) (queueM (List.replicate 16 (aCommand (.mclr 0 true) 1)) base)] =
      [some 0, some 2, some 0x10E04, some 0x10400, some 2, some 0x10E04, some 0x10E0A, some 2, some 0, some 0, some 0x10E04,
       some 0, some 0x10E04, some 2] := by decide

/-- 12 Table 12-4, rows 4 to 15: ENGINE_PARAM 0x0E, PEER_INVALID 0x08, SCRATCH_BOUNDS 0x07; a BAR whose page is not mapped. -/
theorem test_products_are_refused :
    [block 64 [(0, 8)], block 64 [(0, 0x30)], block 64 [(0, 0x100)], block 64 [(0, 0xC000)], block 64 [(0, 0x40000)],
     block 64 [(0x0C, 8)], block 64 [(4, 1048577)], block 64 [(0x18, 2)], block 64 [(4, 1), (0x20, 16)],
     block 64 [(0x10, 0x108), (0x14, 0x80000000)], block 64 [(0x10, 0x100), (0x14, 0xA0000000)],
     block 64 [(0, 0x240000)], block 64 [(0, 0x1400000)], block 64 [(0x1C, 0x10000)], block 64 [(0x30, 0x10000)],
     block 64 [(0, 0x133), (4, 4), (0x1C, 4), (0x30, 4), (0x24, 0x4000)], block 64 [(0, 0x233), (4, 4), (0x1C, 4), (0x30, 4), (0x38, 0x4000)],
     block 64 [(0x10, 0x40000000)]].map (fun b => objectKind matrixWords (Instr.mma ⟨0, 0, 8, 12, 0⟩) (blocked b base)) =
      [some 0x10E01, some 0x10E02, some 0x10E02, some 0x10E03, some 0x10E03, some 0x10E05, some 0x10E06, some 0x10E07, some 0x10E08,
       some 0x10E09, some 0x10E09, some 0x10801, some 0x10802, some 0x10701, some 0x10702, some 0x10703, some 0x10704, some 0x10501] := by
  decide +kernel

/-- A tile of 32 bytes from 0x20100 to 0x20200; a sum of 4 bytes; rows of a page; a 4 × 4 tile; a drain record. -/
def cpyBlock : List Byte := block 64 [(0x18, 0x20100), (0x20, 0x20200), (0x28, 32), (0x2C, 0x10001)]
def mcBlock : List Byte := block 64 [(0x18, 0x20100), (0x20, 0x100), (0x24, 0x80000000), (0x28, 32), (0x2C, 0x10001)]
def cpyrBlock : List Byte := block 64 [(0x18, 0x20100), (0x20, 0x20200), (0x28, 4), (0x30, 0x20300)]
def gathBlock : List Byte := block 64 [(0, 1), (0x18, 0x20100), (0x24, 1), (0x30, 32), (0x34, 3)]
def qdualBlock : List Byte :=
  block 64 [(0, 0x480), (0x18, 0x20100), (0x20, 0x40004), (0x24, 16), (0x38, 4), (0x3C, 4)]
def ldrainBlock : List Byte := block 64 [(0x10, 0x400), (0x14, 0x80000000)]

/-- Model 3 of tenant 0 in Caddy's table. -/
def modelled (s : State) : State := { s with caddyModels := [(3, { tenant := 0, ptl := 4, layers := 2, rb := 32 })] }

def fullChannels (s : State) : State :=
  let c : CCmd :=
    { op := cpyOp none cpyBlock, own := { wk := 0, fid := 0, uid := 0, pc := 0 }, chan := 0, iss := early, slack := 5, tick := 0, bar := 0
      crec := 0, started := false, done := 0, ahead := [], flags := 0, code := 0, aux := 0, late := false, lostRounds := 0, stage := 0, lost := false
      stalled := none, failed := false, fab := none, hold := none, blind := [], data := [] }
  s.putCore 0 { s.core 0 with chans := Vector.replicate 8 (List.replicate 32 c) }

/-- 13 R241 to R256. -/
theorem test_copy_words_end :
    [objectKind copyWords (Instr.cpy ⟨0, 0, 8, 2⟩) (blocked cpyBlock base),
     objectKind copyWords (Instr.cpy ⟨0, 0, 8, 2⟩) (blocked cpyBlock (fullChannels base)),
     objectKind copyWords (Instr.cpy ⟨0, 0, 8, 2⟩) (at8 0x20000 detBase),
     objectKind copyWords (Instr.cpy ⟨0, 0, 8, 2⟩) (own8 0x120 base),
     objectKind copyWords (Instr.cpyMc ⟨0, 0, 8, 12, 2⟩) (withS [(12, 1)] (blocked mcBlock base)),
     objectKind copyWords (Instr.cpyr ⟨0, 0, 8, 2⟩) (blocked cpyrBlock base),
     objectKind copyWords (Instr.gath ⟨0, 0, 8, 2⟩) (modelled (blocked gathBlock base)),
     objectKind copyWords (Instr.qdual ⟨0, 0, 8, 2⟩) (blocked qdualBlock base),
     objectKind copyWords (Instr.ldrain ⟨0, 0, 8, 2, 0⟩) (blocked ldrainBlock base),
     objectKind copyWords (Instr.ldrain ⟨0, 0, 8, 2, 1⟩) (blocked ldrainBlock base)] =
      [some 0, some 2, some 2, some 0x10400, some 0, some 0, some 0, some 0, some 0, some 0x10E04] := by decide

/-- 13 Table 13-5, rows 4 to 14; the last four blocks are a `gath` of a model that is not registered, a `cpyr` across 4 KiB, an
`ldrain` without a record, and a `cpy.mc` to a member that is not there. -/
theorem test_copies_are_refused :
    [block 64 [(0, 0x1008000), (0x28, 1), (0x2C, 0x10001)], block 64 [(0, 1)], block 64 [(4, 0x1000)], block 64 [(0x2C, 0x10001)],
     block 64 [(0x18, 0x20100), (0x20, 0x20200), (0x28, 32), (0x2C, 0x10001), (0x10, 16)],
     block 64 [(0x1C, 0xA0000000), (0x20, 0x20200), (0x28, 32), (0x2C, 0x10001)],
     block 64 [(0x1C, 0x01000000), (0x20, 0x20200), (0x28, 32), (0x2C, 0x10001)],
     block 64 [(0x18, 0x20100), (0x20, 0x20200), (0x28, 32), (0x2C, 0x10001), (0x08, 8)],
     block 64 [(0x1C, 0x92000000), (0x20, 0x20200), (0x28, 32), (0x2C, 0x10001)],
     block 64 [(0x18, 0xFFFFFF00), (0x1C, 0x80000000), (0x20, 0x20200), (0x28, 32), (0x2C, 0x10001)],
     block 64 [(0x18, 0x20100), (0x20, 0xFFFFFF00), (0x24, 0x80000000), (0x28, 32), (0x2C, 0x10001)],
     block 64 [(0, 0x4000000), (0x18, 0x20100), (0x20, 0x4000), (0x28, 32), (0x2C, 0x10001)],
     block 64 [(0x18, 0x20100), (0x20, 0x20200), (0x28, 32), (0x2C, 0x10001), (0x08, 0x40000000)]].map
        (fun b => objectKind copyWords (Instr.cpy ⟨0, 0, 8, 2⟩) (blocked b base)) =
      [some 0x10E04, some 0x10E03, some 0x10E03, some 0x10E0B, some 0x10E0C, some 0x10E0F, some 0x10600, some 0x10E09, some 0x10803,
       some 0x10705, some 0x10706, some 0x10707, some 0x10501] ∧
    [objectKind copyWords (Instr.gath ⟨0, 0, 8, 2⟩) (blocked gathBlock base),
     objectKind copyWords (Instr.cpyr ⟨0, 0, 8, 2⟩) (blocked (block 64 [(0x18, 0x20100), (0x20, 0x20FFC), (0x28, 8), (0x30, 0x20300)]) base),
     objectKind copyWords (Instr.ldrain ⟨0, 0, 8, 2, 0⟩) (blocked (block 64 []) base),
     objectKind copyWords (Instr.cpyMc ⟨0, 0, 8, 12, 2⟩) (withS [(12, 0x80)] (blocked mcBlock base))] =
      [some 0x10E0E, some 0x10E0D, some 0x10E0C, some 0x10803] := by decide +kernel

/-- 13 R259: the record of each operation at offset 0x100; `send` needs a node that is there. -/
def noded (s : State) : State :=
  { s with fabric := { s.fabric with populated := [5] }, tenants := s.tenants.put 0 { s.tenant 0 with nodeSet := [5] } }

theorem test_page_words_end :
    [objectKind pageWords (Instr.pgopAlloc ⟨0, 0, 8, 4⟩) (blocked (block 32 []) base),
     objectKind pageWords (Instr.pgopAlloc ⟨0, 0, 8, 4⟩) (blocked (block 32 [(0, 1)]) base),
     objectKind pageWords (Instr.pgopAlloc ⟨0, 0, 8, 4⟩) (own8 0x110 base),
     objectKind pageWords (Instr.pgopAlloc ⟨0, 0, 8, 4⟩) (own8 0x100 detBase),
     objectKind pageWords (Instr.pgopRef ⟨0, 0, 8, 4⟩) (blocked (block 32 []) base),
     objectKind pageWords (Instr.pgopUnref ⟨0, 0, 8, 4⟩) (blocked (block 32 []) base),
     objectKind pageWords (Instr.pgopCow ⟨0, 0, 8, 4⟩) (blocked (block 32 []) base),
     objectKind pageWords (Instr.pgopEvict ⟨0, 0, 8, 4⟩) (blocked (block 32 []) base),
     objectKind pageWords (Instr.pgopPromote ⟨0, 0, 8, 4⟩) (blocked (block 32 []) base),
     objectKind pageWords (Instr.pgopSend ⟨0, 0, 8, 0⟩) (noded (blocked (block 32 [(4, 5)]) base)),
     objectKind pageWords (Instr.pgopSend ⟨0, 0, 8, 0⟩) (blocked (block 32 [(4, 5)]) base),
     objectKind pageWords (Instr.pgopRef ⟨0, 0, 8, 4⟩) (blocked (block 32 [(4, 1)]) base),
     objectKind pageWords (Instr.pgopRef ⟨0, 0, 8, 4⟩) (blocked (block 32 [(0x10, 8)]) base),
     objectKind pageWords (Instr.pgopCow ⟨0, 0, 8, 4⟩) (blocked (block 32 [(0x0C, 0x01000000)]) base),
     objectKind pageWords (Instr.pgopRef ⟨0, 0, 8, 4⟩) (blocked (block 32 [(0x10, 0x40000000)]) base)] =
      [some 0, some 0x10E03, some 0x10400, some 2, some 0, some 0, some 0, some 0, some 0, some 0, some 0x10804, some 0x10E03,
       some 0x10E09, some 0x10600, some 0x10501] := by decide +kernel

/-! ## Words of a sequence -/

def aModel : KModel :=
  { tenant := 0, par := { tmpl := 0x20400, ntmpl := 1, tb := 64, chunk := 16, gsize := 1, hr := 0, ovh := 0, parklim := 10
                          ib0 := 0x20500, ib1 := 0x20800, kvt := 0x21000, maxp := 4, exactok := true }
    iter := 1, running := [], busy := false, plan := [], slk := [], wake := true }

def aSlot (st : SlotState) : KSlot :=
  { state := st, vf := 0, model := 3, tag := 9, prompt := 0x22000, plen := 4, maxt := 8, ttft := 0, itl := 0, seed := 1, mode := 0
    topk := 0, itemp := 0, topp := 0, stops := [], ring := 0x23000, ringn := 4, rep := false, repN := 0, repW := 0, repact := false
    nodes := 0, seqid := 1, exact := true, serial := 0, done := 0, g := 0, lastTok := 0, home := 0, admitTick := 0
    commitTick := 0, stalled := false, held := none, mute := false, parkedFor := 0, parkEvent := false, parkedNow := false
    committed := 0, cancel := false, soft := none, consRoom := false, consPolled := false
    det := { window := [], skip := 0, hist := [], run := 0, last := 0 } }

/-- A launch of Kettle's model 3 with one slot. -/
def kettled (st : SlotState) (s : State) : State :=
  { withLaunch (fun l => { l with kettle := some (3, 0x20500, false) }) (modelled s) with
    kmodels := [(3, aModel)], kslots := [(0, aSlot st)] }

/-- 14 R273 to R284: ENGINE_PARAM 0x0E SUB 0x10 outside a launch of Kettle and for slot 16384. -/
theorem test_sequence_words_end :
    [objectKind sequenceWords (Instr.tokdlv ⟨0, 0, 8⟩) (kettled .decode base), objectKind sequenceWords (Instr.tokdlv ⟨0, 0, 8⟩) base,
     objectKind sequenceWords (Instr.tokdlv ⟨0, 0, 8⟩) (at8 16384 (kettled .decode base)),
     objectKind sequenceWords (Instr.tokdlv ⟨0, 0, 8⟩) (at8 16383 (kettled .decode base)),
     objectKind sequenceWords (Instr.tokdlv ⟨0, 0, 8⟩) (kettled .decode detBase),
     objectKind sequenceWords (Instr.seqstop ⟨0, 0, 8, 3⟩) (kettled .decode base),
     objectKind sequenceWords (Instr.repW ⟨0, 0, 8, 1⟩) (kettled .decode base),
     objectKind sequenceWords (Instr.seqnext ⟨0, 0, 8, 12⟩) (own8 0x100 (kettled .decode base)),
     objectKind sequenceWords (Instr.seqnext ⟨0, 0, 8, 12⟩) (own8 0x108 (kettled .decode base)),
     objectKind sequenceWords (Instr.rng ⟨0, 0, 8, 12, 1⟩) (own8 0x100 base),
     objectKind sequenceWords (Instr.rng ⟨0, 0, 8, 12, 1⟩) (own8 0x108 base),
     objectKind sequenceWords (Instr.samp ⟨0, 0, 8, 12⟩) (own8 0x100 (kettled .decode base)),
     objectKind sequenceWords (Instr.samp ⟨0, 0, 8, 12⟩) (own8 0x110 base)] =
      [some 0, some 0x10E10, some 0x10E10, some 0, some 2, some 0, some 0, some 0, some 0x10400, some 0, some 0x10400, some 0,
       some 0x10400] := by decide

/-! ## Memory words -/

/-- A fibre's word at its issue: the workgroup, the fibre, the strands, and fibre and state past the ports. -/
def atIssue (u : Use) (s : State) : Option (Workgroup × List Nat × Fibre × State) := do
  let w ← s.wg s.cur.wk
  let f ← (w.fibres.find s.cur.fid).map (issueOf u)
  let q := operandWait w u (beforeWord w u f s).1 (beforeWord w u f s).2
  pure (w, runners u f, q.1, q.2.1)

/-- How a lane memory word ends: as `kindOf` says, and 9 for a wait for the commit token. -/
def laneMemKind (i : Instr) (s : State) : Option Nat := do
  let r ← laneMemory i
  guard (i.wf && issues r.use noPre s)
  let (w, act, g, s1) ← atIssue r.use s
  if tokenWait s1 w (r.ld && !r.st && !(r.req g 0 0).ordered) ((positions act).map fun e => r.addr g e.1 e.2) then pure 9
  else
    pure (match (memLoop s.cur.wk w g.beforeLanes (r.addr g) (r.req g) r.deliver act 0 ⟨g, s1, [], []⟩).2 with
      | none => 0
      | some .wait => 2
      | some (.trap t _) => 0x10000 + 256 * t.code.num + t.sub)

/-- The same for a uniform memory word. -/
def uniMemKind (i : Instr) (s : State) : Option Nat := do
  let r ← uniMemory i
  guard (i.wf && issues r.use noPre s)
  let (w, _, g, s1) ← atIssue r.use s
  let a := r.addr g 0 0
  if tokenWait s1 w (r.ld && !r.st && !(r.req g 0 0).ordered) [a] then pure 9
  else
    pure (match access s.cur.wk w 0 g s1 a { r.req g 0 0 with uni := true } with
      | .ok .. => 0
      | .wait .. => 2
      | .trap _ _ t => 0x10000 + 256 * t.code.num + t.sub)

/-- s6:s7 names an offset of the own scratchpad. -/
def own6 (x : Word) (s : State) : State := withS [(6, x), (7, 0x80000000)] s

/-- A store of the fabric that no answer has come for. -/
def storeOut (s : State) : State :=
  { s with fabric := { s.fabric with reqs := [{ tag := 1, seq := 1, node := 5, sdie := 0, core := 0, sector := 0, span := 1, rel := false
                                                owner := .store 0 0 0 0 0 0 0, agent := none }] } }

/-- The memory words of the lane set, on word 0x100 of the own scratchpad. -/
def laneMemoryWords : List Instr :=
  [Instr.lLd ⟨0, 0, 4, 4, 8, 6⟩, Instr.lLdNc ⟨0, 0, 4, 4, 8, 6⟩, Instr.lSt ⟨0, 0, 4, 4, 8, 6⟩, Instr.lStNc ⟨0, 0, 4, 4, 8, 6⟩,
   Instr.lLdAcq ⟨0, 0, 1, 4, 8, 6⟩, Instr.lStRel ⟨0, 0, 1, 4, 8, 6⟩, Instr.lAtom ⟨0, 0, 1, 4, 8, 6⟩, Instr.lAtomxXchg ⟨0, 0, 4, 8, 6⟩,
   Instr.lAtomxCas ⟨0, 0, 4, 8, 6⟩, Instr.lAtomxAddF32 ⟨0, 0, 4, 8, 6⟩]

/-- They complete; a word at 0x101 is MISALIGN; a release at sys scope waits for the fabric; a global load without the
commit token waits. -/
theorem test_lane_memory_ends :
    laneMemoryWords.all (fun i => laneMemKind i (own6 0x100 base) == some 0) = true ∧
      [laneMemKind (Instr.lLd ⟨0, 0, 4, 4, 8, 6⟩) (own6 0x101 base), laneMemKind (Instr.lStRel ⟨0, 0, 4, 4, 8, 6⟩) (storeOut (own6 0x100 base)),
       laneMemKind (Instr.lStRel ⟨0, 0, 1, 4, 8, 6⟩) (withS [(6, 0x20000)] detBase)] =
        [some 0x10400, some 2, some 9] := by decide +kernel

/-- The memory words of the uniform set. -/
noncomputable def uniMemoryWords : List Instr :=
  [Instr.uLd ⟨0, 0, 4, 4, 6, 0⟩, Instr.uSt ⟨0, 0, 4, 4, 6, 0⟩, Instr.uLdAcq ⟨0, 0, 1, 4, 8, 6⟩, Instr.uStRel ⟨0, 0, 1, 4, 8, 6⟩,
   Instr.uAtom ⟨0, 0, 1, 4, 8, 6⟩, Instr.uAtomxXchg ⟨0, 0, 4, 8, 6⟩, Instr.uAtomxCas ⟨0, 0, 4, 8, 6⟩, Instr.uAtomxAddF32 ⟨0, 0, 4, 8, 6⟩]

theorem test_uniform_memory_ends :
    uniMemoryWords.all (fun i => uniMemKind i (own6 0x100 base) == some 0) = true ∧
      [uniMemKind (Instr.uLd ⟨0, 0, 4, 4, 6, 0⟩) (own6 0x101 base), uniMemKind (Instr.uStRel ⟨0, 0, 4, 4, 8, 6⟩) (storeOut (own6 0x100 base)),
       uniMemKind (Instr.uStRel ⟨0, 0, 1, 4, 8, 6⟩) (withS [(6, 0x20000)] detBase)] =
        [some 0x10400, some 2, some 9] := by decide +kernel

/-- `ratom` issues, needs no token, and its atomic is answered. -/
def ratomOk (sc g0 : BitVec 2) (d b : BitVec 6) (aop : Nat) (s : State) : Bool :=
  issues (xUse sc g0 [.s2 b.toNat, .v d.toNat] [.v d.toNat]) noPre s &&
    ((atIssue (xUse sc g0 [.s2 b.toNat, .v d.toNat] [.v d.toNat]) s).map fun x =>
      !tokenWait x.2.2.2 x.1 false [x.2.2.1.laneS64 b.toNat] &&
        match access s.cur.wk x.1 0 x.2.2.1 x.2.2.2 (x.2.2.1.laneS64 b.toNat) (ratomAcc aop (x.2.1.map fun k => x.2.2.1.xchV k d.toNat)) with
        | .ok .. => true
        | _ => false).getD false

theorem test_ratom_issues :
    ratomOk 0 0 4 6 0 (own6 0x100 base) = true ∧ ratomOk 0 0 4 6 10 (own6 0x100 base) = true ∧
      (Instr.lRatom ⟨0, 0, 0, 4, 6⟩).wf = true ∧ (Instr.lRatomAddF32 ⟨0, 0, 4, 6⟩).wf = true := by decide +kernel

/-- Which clause of the statement on `wb` and `inv` applies: a bad selector, MISALIGN, another space, no token, a good
range. -/
def rangeKind (i : Instr) (s : State) : Option Nat := do
  let (o, _) ← rangeWord i
  guard (i.wf && issues (uUse o.s o.g (.s2 o.a.toNat :: opB o.i o.b) []).syncing noPre s)
  let (w, _, g, s1) ← atIssue (uUse o.s o.g (.s2 o.a.toNat :: opB o.i o.b) []).syncing s
  let a := g.getS64 o.a.toNat
  let n := lengthAsked o.i o.b g
  pure (if selOf a = 0 ∧ needsToken s1 w = true then 4 else if selFault false a ≠ none then 1
    else if a.toNat % 128 ≠ 0 ∨ n % 128 ≠ 0 then 2 else if selOf a ≠ 0 ∧ selOf a ≠ 8 then 3
    else if Memory.wf s1.mem then 5 else 6)

theorem test_ranges_issue :
    [rangeKind (Instr.wb ⟨0, 0, 1, 8, 1⟩) (withS [(9, 0xF0000000)] base), rangeKind (Instr.wb ⟨0, 0, 1, 8, 1⟩) (at8 0x20001 base),
     rangeKind (Instr.wb ⟨0, 0, 1, 8, 1⟩) (withS [(9, 0x90000000)] base), rangeKind (Instr.inv ⟨0, 0, 1, 8, 1⟩) (at8 0x20000 detBase),
     rangeKind (Instr.inv ⟨0, 0, 1, 8, 1⟩) (at8 0x20000 base), rangeKind (Instr.wb ⟨0, 0, 1, 8, 1⟩) (own8 0 base)] =
      [some 1, some 2, some 3, some 4, some 5, some 5] := by decide +kernel

/-- A workgroup with a mapping of 128 bytes at offset 4096. -/
def mapped (s : State) : State := withWg (fun w => { w with maps := [{ off := 4096, len := 128, va := 0x20000, filled := [] }] }) s

/-- `sunmap` issues: 1 with its mapping there, 0 without. -/
def unmapKind (o : SGIDB) (s : State) : Option Nat := do
  guard ((Instr.sunmap o).wf && issues (uUse o.s o.g (opB o.i o.b ++ [.s o.d.toNat]) []).syncing noPre s)
  let (_, _, g, s1) ← atIssue (uUse o.s o.g (opB o.i o.b ++ [.s o.d.toNat]) []).syncing s
  let w ← s1.wg s.cur.wk
  pure (if (w.maps.find? fun m => m.off == (g.getS o.d.toNat).toNat && m.len == lengthAsked o.i o.b g).isSome then 1 else 0)

theorem test_sunmap_issues :
    [unmapKind ⟨0, 0, 1, 4, 1⟩ (withS [(4, 4096)] (mapped base)), unmapKind ⟨0, 0, 1, 4, 1⟩ (withS [(4, 4096)] base),
     unmapKind ⟨0, 0, 1, 4, 2⟩ (withS [(4, 4096)] (mapped base))] = [some 1, some 0, some 0] := by decide +kernel

/-- `pf` issues: whether every address can be prefetched. -/
def prefetchKind (o : SGAB) (s : State) : Option Bool := do
  guard ((Instr.lPf o).wf && issues (lUse o.s o.g [.v o.a.toNat, .s2 o.b.toNat] []) noPre s)
  let (_, act, g, s1) ← atIssue (lUse o.s o.g [.v o.a.toNat, .s2 o.b.toNat] []) s
  guard (Memory.wf s1.mem)
  pure (((positions act).map fun e => laneAddress o.b o.a g e.1 e.2).all prefetchable)

theorem test_prefetch_issues :
    [prefetchKind ⟨0, 0, 8, 6⟩ base, prefetchKind ⟨0, 0, 8, 6⟩ (withS [(7, 0xA0000000)] base)] = [some true, some false] := by
  decide +kernel

/-! ## Accesses at the point of coherence -/

/-- The workgroup and the fibre of the small state. -/
def theWg : Workgroup := (base.wg 0).getD (newWorkgroup base 0 probeLaunch 0 0 0)
def theFibre : Fibre := (theWg.fibres.find 0).getD (startFibre theWg 0 (0, 0) 0 0 0)

/-- A word of these registers faults with PRIVILEGE outside trap mode, before every other fault of its issue: `tret`,
`sysw` to WGID and to TRAPPC; in trap mode TRAPPC can be written. -/
theorem test_privilege_first :
    (theFibre.fstat.getLsbD 5 = false ∧ runners (uUse 0 0 [] []) (issueOf (uUse 0 0 [] []) theFibre) ≠ []) ∧
      sysWritten theFibre 0x00A 0 = none ∧ sysWritten theFibre 0x018 0 = none ∧
      (sysWritten { theFibre with fstat := 0x20 } 0x018 0).isSome = true ∧ (Instr.sysr ⟨0, 0, 0x100, 4⟩).wf = true := by
  decide +kernel

theorem test_canonical : base.memCanonical ∧ State.reset.memCanonical := by
  constructor <;> unfold State.memCanonical <;> decide +kernel

/-- A plain access to plain global memory that passes every check and meets no open object, with its physical address. -/
def reachesAt (q : Acc) (a : DWord) (va pa : Nat) : Bool :=
  (addrFault (decide (q.kind = .rmw)) q.spaces q.n a).isNone &&
    (match placeOf base 0 theWg theFibre.win a q.n with
     | .ok (.glob v) => v == va
     | _ => false) && !q.sysRelease a && !base.accessWaits 0 theFibre theWg.tenant (.glob va) a q (q.agent 3) &&
    match base.storePa 0 0 va a with
    | .ok (p, s1) => p == pa && !s1.poisoned pa 4 &&
      (s1.disturbs (none, pa) 4 .plain).isEmpty && (s1.disturbs (none, pa) 4 .atomic).isEmpty
    | .error _ => false

theorem reaches_spec {q : Acc} {a : DWord} {va pa : Nat} (h : reachesAt q a va pa = true) :
    Reaches 0 theWg 3 theFibre base a q va ∧ ∃ s1, base.storePa 0 0 va a = .ok (pa, s1) ∧ s1.poisoned pa 4 = false ∧
      s1.disturbs (none, pa) 4 .plain = [] ∧ s1.disturbs (none, pa) 4 .atomic = [] := by
  simp only [reachesAt, Bool.and_eq_true, Bool.not_eq_true', Option.isNone_iff_eq_none] at h
  obtain ⟨⟨⟨⟨h1, h2⟩, h3⟩, h5⟩, h4⟩ := h
  refine ⟨⟨h1, ?_, fun h => absurd (h.symm.trans h3) (by decide), h5, test_canonical.1⟩, ?_⟩
  · split at h2
    · rename_i v hv; rw [hv, beq_iff_eq.mp h2]
    · cases h2
  · split at h4
    · rename_i p s1 hp
      simp only [Bool.and_eq_true, Bool.not_eq_true', List.isEmpty_iff, beq_iff_eq] at h4
      exact ⟨s1, by rw [hp, h4.1.1.1], h4.1.1.2, h4.1.2, h4.2⟩
    · cases h4

/-- Page 0 of tenant 0 is mapped onto itself. -/
theorem test_global_store_reaches :
    ∃ s1, Reaches 0 theWg 3 theFibre base 0x20100 (Acc.store [1, 2, 3, 4] false) 0x20100 ∧
      base.storePa 0 0 0x20100 0x20100 = .ok (0x20100, s1) ∧ s1.disturbs (none, 0x20100) 4 .plain = [] := by
  obtain ⟨h, s1, k⟩ := reaches_spec (q := Acc.store [1, 2, 3, 4] false) (a := 0x20100) (va := 0x20100) (pa := 0x20100)
    (by decide +kernel)
  exact ⟨s1, h, k.1, k.2.2.1⟩

/-- A plain store is not performed with its access; a release is, and in deterministic mode a plain store too. -/
theorem test_stores_flush :
    (Acc.store [1, 2, 3, 4] false).flushes base theWg (.glob 0x20100) = false ∧
      (Acc.store [1, 2, 3, 4] false).flushes base theWg (.scratch 0 0x100) = false ∧
      (Acc.rel [1, 2, 3, 4] 1).flushes base theWg (.glob 0x20100) = true ∧
      (Acc.rel [1, 2, 3, 4] 1).flushes base theWg (.scratch 0 0x100) = true ∧ theFibre.stq = [] ∧
      Reaches 0 theWg 3 theFibre base 0x20100 (Acc.rel [1, 2, 3, 4] 1) 0x20100 ∧
      base.disturbs (none, 0x20100) 4 .plain = [] ∧ base.disturbs (some 0, 0x100) 4 .plain = [] :=
  ⟨by decide +kernel, by decide +kernel, by decide +kernel, by decide +kernel, by decide +kernel,
    (reaches_spec (q := Acc.rel [1, 2, 3, 4] 1) (a := 0x20100) (va := 0x20100) (pa := 0x20100) (by decide +kernel)).1,
    by decide +kernel, by decide +kernel⟩

/-- A load of 16 bytes: its four words are at hand. -/
theorem test_wide_load_reads :
    Reaches 0 theWg 3 theFibre base 0x20100 (Acc.load 16 true) 0x20100 ∧ theWg.hdr.det = false ∧
      [0, 4, 8, 12].all (fun k =>
        match base.globLoad 0 0 (0x20100 + k) 4 true [] (some 0) 0x20100 with
        | .ok (b, _) => b == [0, 0, 0, 0]
        | .error _ => false) = true :=
  ⟨(reaches_spec (q := Acc.load 16 true) (a := 0x20100) (va := 0x20100) (pa := 0x20100) (by decide +kernel)).1,
    by decide +kernel, by decide +kernel⟩

/-- 08 R147, R148: a strand sees its own store that is not performed, and that of the uniform pipe, not another strand's. -/
theorem test_own_stores_are_seen :
    let q (who : Option Nat) : PendStore :=
      { serial := 0, agent := who, key := none, addr := 0x20102, loc := (none, 0x20102), bytes := [7], nc := false, named := false }
    [overlay [q (some 3)] (some 3) (none, 0x20100) [0, 0, 0, 0], overlay [q none] (some 3) (none, 0x20100) [0, 0, 0, 0],
     overlay [q (some 4)] (some 3) (none, 0x20100) [0, 0, 0, 0], overlay [q (some 4)] none (none, 0x20100) [0, 0, 0, 0]] =
      [[0, 0, 7, 0], [0, 0, 7, 0], [0, 0, 0, 0], [0, 0, 7, 0]] := by decide +kernel

theorem test_global_atomic_reaches :
    ∃ s1, Reaches 0 theWg 3 theFibre base 0x20100 (Acc.rmw 0 5 0) 0x20100 ∧
      base.storePa 0 0 0x20100 0x20100 = .ok (0x20100, s1) ∧ tierOf 0x20100 ≠ .host ∧ s1.poisoned 0x20100 4 = false ∧
      s1.disturbs (none, 0x20100) 4 .atomic = [] := by
  obtain ⟨h, s1, k⟩ := reaches_spec (q := Acc.rmw 0 5 0) (a := 0x20100) (va := 0x20100) (pa := 0x20100) (by decide +kernel)
  exact ⟨s1, h, k.1, by decide +kernel, k.2.1, k.2.2.2⟩

theorem test_global_load_reaches :
    Reaches 0 theWg 3 theFibre base 0x20100 (Acc.load 4 false) 0x20100 ∧
      (∀ l ∈ (base.core 0).l1, l.asid ≠ (base.tenant 0).asid.toNat ∨ l.va ≠ 0x20100 / 128 * 128) ∧
      base.poisoned 0x20100 4 = false ∧
      (match base.translate 0 0 0x20100 4 false 0x20100 with
       | .ok (pa, _, _) => pa == 0x20100
       | .error _ => false) = true :=
  ⟨(reaches_spec (q := Acc.load 4 false) (a := 0x20100) (va := 0x20100) (pa := 0x20100) (by decide +kernel)).1,
    by decide +kernel, by decide +kernel, by decide +kernel⟩

theorem test_scratch_store_reaches :
    (match placeOf base 0 theWg theFibre.win 0x8000000000000100 4 with
     | .ok (.scratch k o) => k == 0 && o == 0x100
     | _ => false) = true ∧
      addrFault false (Acc.store [1, 2, 3, 4] false).spaces 4 0x8000000000000100 = none ∧ theWg.mapAt 0x100 = none ∧
      Memory.wf theWg.mem = true ∧ base.disturbs (some 0, 0x100) 4 .plain = [] := by decide +kernel

/-- 08 R159: an addition that leaves bytes counted opens the phase; a plain store then meets the object, an atomic too;
after a flip to 0 it does not. -/
theorem test_open_barrier_is_disturbed :
    let opened := base.noteSum (some (some 0, 0x100)) (barrierSum (leBytes 16 100) 40 0)
    opened.disturbs (some 0, 0x104) 4 .plain = [(0x100, 16)] ∧ opened.disturbs (some 0, 0x10C) 4 .atomic = [(0x100, 16)] ∧
      opened.disturbs (some 0, 0x110) 4 .plain = [] ∧
      (opened.noteSum (some (some 0, 0x100)) (barrierSum (leBytes 4 100 ++ leBytes 12 40) 60 0)).openBars = [] := by
  decide +kernel

/-- 09 R186: a plain store meets a claimed ticket, an atomic and a release do not. -/
theorem test_claimed_ticket_is_disturbed :
    let claimed := withWg (fun w => { w with claim := some (0x8000000000000100, 1) }) base
    claimed.disturbs (some 0, 0x104) 4 .plain = [(0x100, 8)] ∧ claimed.disturbs (some 0, 0x104) 4 .atomic = [] ∧
      claimed.disturbs (some 0, 0x104) 4 .release = [] := by
  decide +kernel

/-- 09 R171: the integer operations; `add.f32` of 1 and 2 is exact, and NV is raised for ∞ − ∞. -/
theorem test_atom_results :
    [atomResult 0 5 0 7, atomResult 1 0xFFFFFFFF 0 1, atomResult 2 0xFFFFFFFF 0 1, atomResult 9 7 3 7, atomResult 9 7 3 8,
     atomResult 10 0x3F800000 0 0x40000000, atomResult 10 0x7F800000 0 0xFF800000] =
      [some (12, 0), some (0xFFFFFFFF, 0), some (1, 0), some (3, 0), some (8, 0), some (0x40400000, 0), some (0x7FC00000, 0x200)] := by
  decide +kernel

/-! ## Queue ports, retirement, empty words, faults, grants -/

theorem test_ports_have_queues :
    ((ported false (aQueue [9, 8] 1) base).queueAt ((ported false (aQueue [9, 8] 1) base).wg 0 |>.getD theWg) 0).map (·.elems) =
      some [9, 8] := by decide +kernel

/-- A plain store of the word at 0x1000 of a scratchpad whose line there is mapped and filled. -/
def mappedLine (w : Bool) : Workgroup :=
  { theWg with maps := [{ off := 4096, len := 128, va := 0x20000, filled := [4096] }]
               lines := [{ off := 4096, pa := 0x20000, w := w, dirty := false }] }

theorem test_mapped_store_reaches :
    (mappedLine true).mapAt 0x1000 ≠ none ∧
      ((mappedLine true).lines.find? fun l => l.off == 0x1000 / 128 * 128) = some { off := 4096, pa := 0x20000, w := true, dirty := false } ∧
      ((mappedLine false).lines.find? fun l => l.off == 0x1000 / 128 * 128) = some { off := 4096, pa := 0x20000, w := false, dirty := false } ∧
      (Acc.store [1, 2, 3, 4] false).flushes base (mappedLine true) (.scratch 0 0x1000) = false := by decide +kernel

/-- The lane of fibre 0 is occupied until cycle 5, which counts in deterministic mode alone (04 R77, R81). -/
theorem test_occupied_lane :
    let busy (s : State) : State := withFib (fun f => { f with passEnd := 5 }) s
    let free (s : State) : Bool := freeLane s ((s.wg 0).getD theWg) theFibre
    [free (busy base), free (busy detBase), free { busy detBase with cycles := 5 }, free detBase] =
      [true, false, true, true] := by decide +kernel

/-- A word that is single-stepped, and one that writes the register of an out port. -/
theorem test_word_steps_and_pushes :
    ((withFib (fun f => { f with fctl := 8 }) base).wg 0).any (fun w => w.fibres.vals.any fun f =>
        f.fctl.getLsbD 3 && !f.fstat.getLsbD 5) = true ∧
      ((ported true (aQueue [9, 8] 1) base).wg 0).any (fun w => w.fibres.vals.any fun f =>
        pushesOf f (uUse 0 0 [.s 4] [.s 48]) == [48]) = true := by decide +kernel

/-- 03 R63: operands of each kind for `frsq`, `fex2` and `flg2`. -/
theorem test_function_operands :
    binary32.val 0x40800000 = 4 ∧ (1 / 2 : ℝ) * (1 / 2) * ((4 : ℚ) : ℝ) = 1 ∧ binary32.val 0x40800000 = 2 ^ (2 : ℤ) ∧
      binary32.val 0x3FC00000 = 3 / 2 := by
  refine ⟨by decide +kernel, by norm_num, by decide +kernel, by decide +kernel⟩

/-- A word at the small state has no port to push to and is not single-stepped. -/
theorem test_word_retires :
    (base.wg 0).isSome = true ∧ pushesOf theFibre (uUse 0 0 [.s 8] [.s 4]) = [] ∧ theFibre.fctl.getLsbD 3 = false := by
  decide +kernel

/-- A word of the lane set with an empty Active; a reduction then delivers. -/
theorem test_empty_words_issue :
    [Instr.lAdd oSGUDAB, Instr.lRedAddI32 oSGUDAB2].all (fun i =>
      match registerWords i, (diverged 0 0 [] base).wg 0 with
      | some r, some w =>
        match (w.fibres.find 0).map (issueOf r.use) with
        | some f => i.wf && (runners r.use f).isEmpty && (issueFault r.use none f []).isNone &&
            r.use.named.all fun n => (f.bound n).isNone && !f.busy.contains n
        | none => false
      | _, _ => false) = true := by decide +kernel

/-- The three rules of 18 R317: a fault that parks, one that a handler takes, and fatal ones. -/
theorem test_fault_rules :
    let park : Trap := { code := .translation, sub := 0, addr := 0x20000, replay := true }
    let soft : Trap := { code := .trapSw, sub := 5, addr := 0, replay := false }
    let peer : Trap := { code := .peerFault, sub := 0, addr := 0, replay := false }
    let w := { theWg with hdr := { theWg.hdr with traph := true } }
    (park.code = .translation ∧ park.replay = true ∧ theFibre.fstat.getLsbD 5 = false) ∧
      (¬(soft.code = .translation ∧ soft.replay = true) ∧ w.hdr.traph = true ∧ soft.code ≠ .peerFault ∧ soft.code ≠ .watchdog) ∧
      (¬(peer.code = .translation ∧ peer.replay = true) ∧ peer.code = .peerFault) := by decide +kernel

/-- 07 R140: the four rules, each where it decides. -/
theorem test_grants :
    let b (k e sl lost : Nat) (late : Bool) : Bid := { key := k, slack := sl, late := late, entered := e, lost := lost }
    [grantOf 0 [b 0 5 9 0 false, b 1 7 99 256 false, b 2 6 99 256 false], grantOf 63 [b 0 5 9 0 false, b 1 7 0xFFF 0 false],
     grantOf 62 [b 0 5 9 0 false, b 1 7 0xFFF 0 false], grantOf 0 [b 0 5 9 0 false, b 1 7 99 0 true],
     grantOf 0 [b 0 5 9 0 false, b 1 4 9 0 false]].map (fun g => g.map (·.key)) = [some 2, some 1, some 0, some 1, some 1] := by
  decide +kernel

/-- 07 Tables 7-6 and 7-7: D, B, A, C. -/
theorem test_arbiter_example :
    [grantOf 10 (packetsAt 105 [0, 1, 2, 3]), grantOf 11 (packetsAt 106 [0, 1, 2]), grantOf 12 (packetsAt 107 [0, 2]),
     grantOf 13 (packetsAt 108 [2])].map (fun g => g.map (·.key)) = [some 3, some 1, some 0, some 2] := by decide +kernel

/-! ## Decoding and the step -/

/-- Instructions of every format and family decode from their own words. -/
theorem test_words_decode_back :
    (laneIntWords ++ laneFloatWords ++ laneExchangeWords ++ uniIntWords ++ uniFloatWords ++ laneMemoryWords ++ uniMemoryWords).all
      (fun i => decide (decodeBytes (bytesOf i) = .ok (i, []))) = true := by decide +kernel

theorem test_lane_words_from_the_tables :
    (decide (decodeBytes (wordBytes 0x00043044) = .ok (.lAdd ⟨0, 0, 1, 3, 1, 4⟩, [])) &&
      decide (decodeBytes (wordBytes 0x26108086) = .ok (.lLd ⟨1, 0, 4, 8, 2, 6⟩, [])) &&
      decide (decodeBytes (wordBytes 0x05200006) = .ok (.lDmark ⟨0, 6⟩, [])) &&
      decide (decodeBytes (wordBytes 0x06C0504A) = .ok (.lRatomAddF32 ⟨0, 0, 5, 10⟩, []))) = true := by decide +kernel

theorem test_uniform_words_from_the_tables :
    (decide (decodeBytes (wordBytes 0x8C1FFFFB) = .ok (.br ⟨0, 1, 0x1FFFFB⟩, [])) &&
      decide (decodeBytes (wordBytes 0x87C02080) = .ok (.sysr ⟨0, 0, 8, 8⟩, [])) &&
      decide (decodeBytes (wordBytes 0x86140003) = .ok (.barSync ⟨0, 0, 1, 0, 3⟩, [])) &&
      decide (decodeBytes (wordBytes 0x87014601) = .ok (.mma ⟨0, 0, 10, 12, 1⟩, [])) &&
      decide (decodeBytes (wordBytes 0x87414A01) = .ok (.cpyMc ⟨0, 0, 10, 20, 1⟩, [])) &&
      decide (decodeBytes (wordBytes 0x879A8B03) = .ok (.pgopCow ⟨0, 0, 20, 22⟩, [])) &&
      decide (decodeBytes (wordBytes 0x87818A00) = .ok (.seqnext ⟨0, 0, 12, 20⟩, [])) &&
      decide (decodeBytes (wordBytes 0x01E00000) = .error .illegalOp)) = true := by decide +kernel

theorem test_samovar_word : decodeSamovar 0x00C5950B = .ok (.bfext ⟨12, 11, 10⟩) := by decide +kernel

theorem test_one_fibre_acts :
    agents (State.reset.withFetchWord 32 0x00043044).advance = [.fibre 0 0] ∧
      (match fetchBytes (State.reset.withFetchWord 32 0x00043044).advance theWg theFibre with
       | .ok (b, _) => decide (b = wordBytes 0x00043044)
       | .error _ => false) = true ∧
      (match base.translate 0 0 0x210040 4 false 0x210040 with
       | .ok (pa, e, t) => e.x && !t.poisoned pa 4 && Memory.wf t.mem
       | .error _ => false) = true := by decide +kernel

theorem test_samovar_acts :
    agents (State.reset.withFetchWord 32 0x00C5950B).advance = [.samovar 0] ∧
      (match ((State.reset.withFetchWord 32 0x00C5950B).advance.samFetch 0).1 with
       | .ok (.inr x) => x == 0x00C5950B
       | _ => false) = true := by decide +kernel

/-- RV64IMAC: `addi x1, x0, 5`; `c.addi x1, 1`; the remainder of −9 by 2 rounds towards zero. -/
theorem test_base_instructions :
    let at1 (t : State) := ((t.samCore 0).x[1], (t.samCore 0).pc)
    at1 (State.reset.samStep 0 (.inr 0x00500093)) = (5, 4) ∧ at1 (State.reset.samStep 0 (.inl 0x0085)) = (1, 2) ∧
      rvMul 6 (BitVec.ofInt 64 (-9)) 2 = BitVec.ofInt 64 (-1) ∧ ((State.reset.samStep 0 (.inr 0)).samCore 0).mcause = 2 := by decide +kernel

/-- A core with a base instruction, one with a compressed one, one whose pc nothing holds, one with an interrupt. -/
theorem test_samovar_cases :
    let got (b : List Byte) := ((State.reset.probeSam b).advance.samFetch 0).1
    let lost := let s := State.reset.probeSam []; s.putSam 0 { s.samCore 0 with pc := 0xFFFFFFFFFFFFFFF0 }
    let hit := let s := State.reset.probeSam []; s.putSam 0 { s.samCore 0 with mstatus := 8, mie := 0x80, mip := 0x80 }
    (match got (wordBytes 0x00500093) with
     | .ok (.inr x) => x == 0x00500093
     | _ => false) = true ∧
    (match got [0x85, 0x00] with
     | .ok (.inl h) => h == 0x0085
     | _ => false) = true ∧
    (match (lost.advance.samFetch 0).1 with
     | .error a => a == 0xFFFFFFFFFFFFFFF0
     | _ => false) = true ∧
    (hit.advance.samCore 0).takes = some 7 ∧
    [State.reset.probeSam (wordBytes 0x00500093), State.reset.probeSam [0x85, 0x00], State.reset.probeSam (wordBytes 0x0000700B), lost,
      hit].map (fun s => agents s.advance) = List.replicate 5 [.samovar 0] ∧
    decodeSamovar 0x0000700B = .error .illegalOp := by decide +kernel

/-- A fibre whose PC no page maps: its word cannot be fetched. -/
theorem test_fetch_faults :
    let s := withFib (fun f => { f with pc := 0x40000000 }) base
    agents s.advance = [.fibre 0 0] ∧
      (match fetchBytes { s.advance with cur := ⟨0, 0, 4⟩ } theWg { theFibre with pc := 0x40000000 } with
       | .error x => x.code == .translation
       | .ok _ => false) = true := by decide +kernel

/-- A packet from node 5 to this node, node 0. -/
def aPacket (op : BitVec 6) : Packet :=
  { dst := 0, src := 5, ddie := 0, sdie := 0, op := op, slack := 300, late := false, resent := false, seq := 1, ctr := 0, part := 1
    addr := 0x20000, aux := 0, tag := 1, payload := [], badSectors := [], ext := none }

/-- 20 R346: the check of "123456789" is 0x29B1; a header that the model lays out is good, with OP 63 bad. -/
theorem test_header_check :
    crc16 [0x31, 0x32, 0x33, 0x34, 0x35, 0x36, 0x37, 0x38, 0x39] = 0x29B1 ∧ headerBad? (hawserHeader (aPacket 1)) = false ∧
      headerBad? (hawserHeader (aPacket 63)) = true ∧ headerFields (hawserHeader (aPacket 1)) [] [] = aPacket 1 := by decide +kernel

theorem test_outside_acts :
    agents { State.reset with inbox := [.row .bootRom] }.advance = [.outside] ∧ encode .bootRom = [] := by decide +kernel

theorem test_nobody_acts : agents State.reset.advance = [] := by decide +kernel

theorem test_two_act : 2 ≤ (agents { base with inbox := [.row .bootRom] }.advance).length := by decide +kernel

/-! ## Steps of other agents: a state in which each happens -/

/-- The table gives the step an effect in s. -/
def happens (table : StepTable) (e : Instr × State) : Bool := (table e.1 e.2).isSome

def asking (r : RowsReq) (s : State) : State := withFib (fun f => { f with rowsReq := some r, sleep := .rows }) s

/-- A second fibre, younger, that waits at barrier 0. -/
def withSecond (s : State) : State :=
  withWg (fun w => { w with fibres := w.fibres.put 1 { theFibre with fid := 1, uid := 1, base := 70, sleep := .bar 0 false } }) s

theorem test_row_steps_happen :
    [(Instr.forkPlacement 0 0, asking (.fork 0x20000 1) base), (Instr.vgrowGrant 0 0, asking (.grow 64) (windowOf 8 base)),
     (Instr.coreSpill 0, asking (.fork 0x20000 1) (withSecond base)),
     (Instr.spillRestore 0 0, withFib (fun f => { f with spilled := true }) base)].all (happens rowSteps) = true := by decide +kernel

def performed : Outstanding := { inFlight with tags := [] }

def dirtyLine : StashLine := { off := 4096, pa := 0x20000, w := true, dirty := true }

theorem test_access_steps_happen :
    [(Instr.accessCompletion 0 0, withFib (fun f => { f with outs := [performed] }) base),
     (Instr.accessCompletion 0 32, withWg (fun w => { w with orphans := [performed] }) base),
     (Instr.lazyStashWriteBack 0 4096, withWg (fun w => { w with lines := [dirtyLine] }) base),
     (Instr.lateTrap 0 0, withFib (fun f => { f with imprecise := [{ code := .late, pc := 0, addr := 0 }] }) base)].all
      (happens accessSteps) = true ∧
    [isLate 7 false 6, isLate 7 false 7, isLate 0 false 0, isLate 0xFFF true 5000] = [false, true, true, false] := by decide +kernel

/-- A product of depth k on slot 0, of 16 × 16 with operands at offset 0. -/
def product (k split : Nat) : MmaCmd :=
  { slot := 0, m := 16, n := 16, k := k, zero := true, isat := false, split := split, orgr := 0, orgc := 0, bar := 0, sa := 0, sb := 0
    opA := { src := 0, base := 0, stride := 16, sgs := 0, soff := 0, swz := 0, fmt := 7, scl := false }
    opB := { src := 0, base := 0, stride := 16, sgs := 0, soff := 0, swz := 0, fmt := 7, scl := false } }

/-- Its engine runs the head of the workgroup's queue. -/
def runsHead (s : State) : State := s.putCore 0 { s.core 0 with mrun := some 0 }

theorem test_matrix_steps_happen :
    [(Instr.mmaStart 0, queueM [aCommand (.mma (product 8 0)) 0] (later base)), (Instr.mmaStart 0, queueM [aCommand (.mswap 0) 0] (later base)),
     (Instr.mmaStart 0, queueM [aCommand (.mclr 0 true) 0] (later base)), (Instr.mmaStart 0, queueM [aCommand (.mflag 9 0 true false false) 0] (later base)),
     (Instr.mmaGranule 0, runsHead (queueM [{ aCommand (.mma (product 128 64)) 0 with started := true }] (later base))),
     (Instr.mmaCompletion 0, runsHead (queueM [{ aCommand (.mma (product 0 0)) 0 with started := true }] (later base))),
     -- with a barrier at offset 0x200, late, poisoned; and with one that no page holds
     (Instr.mmaCompletion 0, runsHead (queueM
       [{ aCommand (.mma { product 0 0 with bar := 0x8000000000000200 }) 0 with started := true, late := true, psn := true }] (later base))),
     (Instr.mmaCompletion 0, runsHead (queueM [{ aCommand (.mma { product 0 0 with bar := 0x40000000 }) 0 with started := true }] (later base)))].all
      (happens matrixSteps) = true := by decide +kernel

/-- A copy command of the fibre. -/
def aCopy (op : CopyOp) : CCmd :=
  { op := op, own := { wk := 0, fid := 0, uid := 0, pc := 0x10040 }, chan := 0, iss := early, slack := 5, tick := 0, bar := 0
    crec := 0, started := false, done := 0, ahead := [], flags := 0, code := 0, aux := 0, late := false, lostRounds := 0, stage := 0, lost := false
    stalled := none, failed := false, fab := none, hold := none, blind := [], data := [] }

def inChannel (c : CCmd) (s : State) : State :=
  s.putCore 0 { s.core 0 with chans := vset (s.core 0).chans 0 [c] }

/-- A tile of 8 rows, which has a granule before its end; a fill of 32 bytes of the own scratchpad; a copy from an address
that nothing maps; a sum. -/
def aTile : CopyOp := .qdual 4 true false 0x8000000000000000 8 4 16 0 0x800 0 0 0 4 4

def fill (n : Nat) : CopyOp := .cpy none 0 2 0 false false 0 0x11 0x8000000000000000 n 1 1 0 0 0 0

def fromNowhere : CopyOp := .cpy none 0 0 0 false false 0 0x40000000 0x8000000000000000 32 1 1 0 0 0 0

def aSum : CopyOp := .cpyr 0 0x20100 0x20200 4 0 0x20300

theorem test_copy_steps_happen :
    [(Instr.copyGranule 0 0, inChannel (aCopy aTile) (later base)), (Instr.copyCommandEnd 0 0, inChannel (aCopy (fill 32)) (later base)), (Instr.engineTranslationStall 0 0, inChannel (aCopy fromNowhere) (later base)),
     (Instr.cpyrApply 7, { later base with slices := [(7, { aCopy aSum with stage := 1 })] })].all (happens copySteps) = true := by
  decide +kernel

/-- A started fill of n bytes of scale memory from offset 4096 on, done bytes along. -/
def filling (n done : Nat) : State :=
  inChannel { aCopy (.cpy none 1 2 0 false false 0 0x11223344 4096 n 1 1 0 0 0 0) with started := true, done := done } (later base)

/-- It can run, with 8 KiB to go or with 2 bytes; these are the low bytes of the word. -/
theorem test_scale_fill :
    ((filling 8192 0).granted 0 0).any (fun (c, _) => c.started && c.stage == 0 && !c.failed && c.code == 0 && c.fab.isNone &&
        c.hold.isNone && c.ahead.isEmpty && c.done == 0 && c.bar == 0 && c.crec == 0) = true ∧
      ((filling 2 0).granted 0 0).isSome = true ∧
      (match exec (.copyCommandEnd 0 0) (filling 2 0) with
       | .next t => (t.chan 0 0).isEmpty && (t.wg 0).any fun w => vget w.wp 0 0 == 2 && cellRead w.scale 4096 3 == [0x44, 0x33, 0]
       | _ => false) = true := by decide +kernel

/-- A copy whose source nothing maps: its fault is replayable, and stalls it. -/
def stalling : State := inChannel { aCopy (.cpy none 0 0 0 false false 0 0x40000000 0x8000000000000000 32 1 1 0 0 0 0) with started := true } (later base)

theorem test_stall :
    (stalling.granted 0 0).any (fun (c, t) => c.started && c.stage == 0 && (windowAt c t theWg 0x40000000).isNone) = true ∧
      (match ((stalling.granted 0 0).map (·.2)).map fun t => t.engRead theWg (engPlace t 0 theWg 0x40000000) 32 0x40000000 with
       | some ([], _, some x) => x.replay
       | _ => false) = true ∧
      (match exec (.engineTranslationStall 0 0) stalling with
       | .next t => (t.chan 0 0).map (fun c => c.stalled.isSome)
       | _ => []) = [true] := by decide +kernel

/-- A reduction at its slice whose sequence word, at 0x20300, has gone on to 2: it ends. -/
def passed : State := { withBytes 0x20300 [2] (later base) with slices := [(7, { aCopy aSum with started := true })] }

theorem test_passed_reduction :
    (match passed.engRead theWg (engPlace passed 0 theWg 0x20300) 4 0x20300 with
     | (b, _, none) => b == [(2, false), (0, false), (0, false), (0, false)]
     | _ => false) = true ∧ passed.windowOf 0 0x20300 = none ∧
      2 ^ 31 ≤ ((0 : Word) - 2).toNat ∧
      (match exec (.cpyrApply 7) passed with
       | .next t => t.slices.isEmpty
       | _ => false) = true := by decide +kernel

def aDesc (refc tier loc : Nat) : Desc :=
  { refc := refc, tier := tier, pinned := false, dirty := false, moving := false, model := 3, loc := loc, auxl := 0, stamp := 0
    holds := 0, ten := 0, relSlack := 0, relLate := false }

/-- A Caddy with one page of model 3. -/
def pooled (d : Desc) (ms : List Move) (s : State) : State :=
  { modelled s with caddy := [(0, { CaddyDie.fresh with
      ndesc := 8, framesHbm := 4, framesLp := 4, low := 4, high := 4, arenas := [(0, 0x100000), (1, 0x200000)], descs := [(0, d)], moves := ms })] }

/-- A move of a page of a model that is no longer registered, which has no bytes. -/
def aMove : Move :=
  { page := 0, kind := .evict 0, req := none, moved := false, lost := false, stalled := none, failed := false, bytes := 0 }

theorem test_caddy_steps_happen :
    [(Instr.caddyDataMoveDone 0 0, pooled { aDesc 1 0 0 with model := 99 } [aMove] base), (Instr.automaticEviction 0, pooled (aDesc 1 0 0) [] base)].all (happens caddySteps) = true := by decide +kernel

theorem test_samovar_steps_happen :
    [Instr.bfext ⟨12, 11, 10⟩, Instr.rgfetch ⟨12, 11, 10⟩, Instr.sigwait ⟨12, 11, 10⟩, Instr.dispatch ⟨12, 11, 10⟩].all
      (fun i => happens samovarSteps (i, { State.reset with cur := ⟨0, 0, 3⟩ })) = true := by decide +kernel

/-- A ring of 4 records at 0x24000, with something to take. -/
def aRing : Ring :=
  { tenant := 0, base := 0x24000, ent := 4, tail := 0x25000, head := 0x25080, seen := 1, taken := 0, polled := false }

def waking (who : Waiter) (s : State) : State := s.setWatches [(7, aWatch who true)]

def submitting (op : Byte) (s : State) : State := { withBytes 0x24000 [op] s with kqueues := [(0, aRing)] }

theorem test_kettle_steps_happen :
    [(Instr.submissionTailFire 0, waking (.kettleTail 0) { base with kqueues := [(0, aRing)] }),
     (Instr.consWatchFire 0, waking (.kettleCons 0) (kettled .deliveryWait base)),
     (Instr.parkLimit 0, { kettled .deliveryWait base with kslots := [(0, { aSlot .deliveryWait with parkedFor := 10 })] }),
     (Instr.pollTimer, { base with cycles := 57600 }), (Instr.iterationForm 3, kettled .decode base),
     (Instr.submitRecord 0, submitting 1 base), (Instr.cancelRecord 0, submitting 2 base),
     (Instr.hostLaunchQueueEntry 0, { base with hostQueues := [(0, aRing)], fw := { base.fw with fullService := true } })].all
      (happens kettleSteps) = true := by decide +kernel

/-- A second launch, of tenant 1, whose unit 0 waits at die 0; `h` is its header. -/
def secondLaunch (h : Header) (s : State) : State :=
  { s with
    launches := s.launches.put 1 { probeLaunch with qid := 1, tenant := 1, hdr := h, posted := some 0 }
    placers := [(0, { Placer.fresh with inq := [(1, [{ launch := 1, unit := 0, since := 1, saved := false }])], backfills := [(1, 64)] })] }

/-- A header that takes all eight accumulator slots of eight cores. -/
def greedy : Header := { probeHeader with hitch := 8, accslots := 8 }

def late (s : State) : State := { s with cycles := 1000000000 }

def stopped (r : Run) (s : State) : State := withWg (fun w => { w with run := r }) s

theorem test_placement_steps_happen :
    [(Instr.launchDispatch 0, { base with pending := [(0, [0])] }),
     (Instr.launchDispatch 0, withLaunch (fun l => { l with preds := [7] })
       { base with pending := [(0, [0])], qcount := [(0, 8)], ended := [{ id := 7, status := 5, trig := false }] }),
     (Instr.placerRound 0, secondLaunch probeHeader base), (Instr.headReservation 0 1, secondLaunch greedy base),
     (Instr.workgroupExit 0, withWg (fun w => { w with fibres := [] }) base),
     (Instr.timeSliceExpiry 0 0, late (withLaunch (fun l => { l with tslice := 1 }) (secondLaunch greedy base)))].all
      (happens placementSteps) = true := by decide +kernel

def asleep (s : State) : State := withFib (fun f => { f with sleep := .bar 0 false }) s

def detLaunch (holder : Option Nat) (next : Nat) (s : State) : State :=
  withLaunch (fun l => { l with hdr := { l.hdr with det := true }, token := { holder := holder, next := next, p := 0 } })
    (withWg (fun w => { w with hdr := { w.hdr with det := true } }) s)

theorem test_context_steps_happen :
    [(Instr.contextSave 0, stopped .stopping base),
     (Instr.contextRestore 0, stopped .saved { base with
       placers := [(0, { Placer.fresh with inq := [(0, [{ launch := 0, unit := 0, since := 1, saved := true }])] })] }),
     (Instr.tokenPass 0, asleep (detLaunch (some 0) 0 base)), (Instr.tokenReceipt 0, asleep (detLaunch none 0 base)),
     (Instr.deterministicSave 0, asleep (detLaunch none 1 base))].all (happens contextSteps) = true := by decide +kernel

def aFatal : Fatal :=
  { code := .misalign, sub := 0, strand := 0, impr := false, fid := 0, pc := 0x10040, addr := 0, rpc := 0x10040, cause0 := 0
    kind := 0, peer := 0, cycle := 0 }

def limited (t : Tenant → Tenant) (s : State) : State := { s with tenants := s.tenants.put 0 (t (s.tenant 0)) }

theorem test_fault_steps_happen :
    [(Instr.unitTeardown 0, stopped (.dying aFatal) base),
     (Instr.watchdogExpiry 0, late (limited (fun t => { t with watchdogMs := 1 }) base)),
     (Instr.resolutionLimitExpiry 0 0,
       withFib (fun f => { f with sleep := .parked }) (limited (fun t => { t with resolveLimit := 1 }) base))].all
      (happens faultSteps) = true := by decide +kernel

/-- All ports have the Hawser personality. -/
def hawser (s : State) : State := { s with fabric := { s.fabric with uePorts := [] } }

def asked (o : FabOwner) (s : State) : State :=
  { s with fabric := { s.fabric with reqs := [{ tag := 1, seq := 1, node := 5, sdie := 0, core := 0, sector := 0, span := 1, rel := false, owner := o, agent := none }] } }

def inCustody (n : Nat) (s : State) : State :=
  { s with fabric := { s.fabric with custody := [(0, { pkt := aPacket 1, resends := n, noRoute := false })] } }

theorem test_fabric_steps_happen :
    [(Instr.fabWr (aPacket 1), (hawser base)), (Instr.fabWrrel (aPacket 2), (hawser base)), (Instr.fabRd (aPacket 3), (hawser base)), (Instr.fabAt (aPacket 5), (hawser base)),
     (Instr.fabPgrd (aPacket 9), (hawser base)), (Instr.fabPgrel (aPacket 11), (hawser base)), (Instr.fabPgxfer (aPacket 8), (hawser base)),
     (Instr.fabRdrsp (aPacket 4), asked (.load 0 0 0) (hawser base)), (Instr.fabAtrsp (aPacket 6), asked (.load 0 0 0) (hawser base)),
     (Instr.fabDone (aPacket 7), asked (.store 0 0 0 0 0 0 0) (hawser base)), (Instr.fabErr (aPacket 12), asked (.store 0 0 0 0 0 0 0) (hawser base)),
     (Instr.fabPgack (aPacket 10), pooled (aDesc 1 0 0) [{ aMove with kind := .send 5 0 (some 1) 0 }] (hawser base)),
     (Instr.custodyAck 0, inCustody 0 (hawser base)), (Instr.custodyResend 0, inCustody 6 (hawser base)), (Instr.custodyTimeout 0, inCustody 7 (hawser base)),
     (Instr.linkLevelRetry 0, (hawser base)), (Instr.badpktDrop (hawserHeader (aPacket 63)), (hawser base)), (Instr.uetUnsupportedPacketDrop 3, base),
     (Instr.fabPgrd { aPacket 9 with ext := some (ledunExt 300 false) }, base), (Instr.custodyTimeout 0, { base with fabric := { base.fabric with custody := [(0, { pkt := aPacket 1, resends := 0, noRoute := true })] } })].all
      (happens fabricSteps) = true := by decide +kernel

theorem test_reset_steps_happen :
    [Instr.packageColdReset, Instr.powerLoss, Instr.packageWarmReset, Instr.dieReset 3, Instr.dieReset 0, Instr.clusterReset 63, Instr.coreReset 511,
     Instr.matrixEngineReset 0, Instr.copyEngineReset 0, Instr.caddyReset 0, Instr.kettleReset, Instr.fabricPortReset 31,
     Instr.hostFunctionReset 15, Instr.samovarCoreReset 3, Instr.resetComplete .package, Instr.resetComplete (.die 3),
     Instr.resetComplete (.port 31)].all (fun i => happens resetSteps (i, base)) = true := by decide +kernel

theorem test_host_steps_happen :
    [Instr.hostWriteTlp .pf 0x20000 [1, 2] false, Instr.hostReadTlp (.vf 3) 0x20000 4, Instr.hostAtomicop .pf .swap true 0x20000 1 0,
     Instr.hostAtomicop .pf .cas false 0x20002 1 0, Instr.mmioRegisterWrite .pf 0x100 7].all (fun i => happens hostSteps (i, base)) = true := by
  decide +kernel

/-- Firmware runs and D0 has trained. -/
def served (s : State) : State := { s with fw := { s.fw with booted := true, trained := 1 } }

def anImage : Image := { rsaOk := true, slhOk := true, ownerKeys := false, version := 1, digest := 0 }

def aPool : PoolParams := { die := 0, descs := 8, framesHbm := 4, framesLp := 4, low := 1, high := 2, arenas := [(0, 0, 0x100000)] }

theorem test_service_steps_happen :
    [Instr.setAsidRoot .pf 1 5 0x100000, Instr.setAsidRoot .pf 16 5 0x100000, Instr.setAsidRoot (.vf 1) 1 5 0x100000,
     Instr.invalidateTranslation .pf 5 0 4096, Instr.resolveFault .pf (.fibre 0 0) [], Instr.declareUnresolved .pf (.fibre 0 0),
     Instr.registerModel .pf { model := 3, tenant := 0, ptl := 4, layers := 2, rb := 32, kettle := none },
     Instr.registerQueue .pf { submission := true, vf := 0, q := 0, base := 0x24000, ent := 4, tail := 0x25000, head := 0x25080 },
     Instr.registerQueue .pf { submission := false, vf := 0, q := 0, base := 0x24000, ent := 16, tail := 0x25000, head := 0x25080 },
     Instr.setBudgets .pf { tenant := 0, cbud := 512, bbud := 1, pbud := 1, watchdogMs := 0, resolveLimit := 0 },
     Instr.fabricSetup .pf (.ownNode 4094), Instr.fabricSetup .pf (.ownNode 0xFFF), Instr.portPersonalitySelect 31 true,
     Instr.portPersonalitySelect 32 true, Instr.cancelLaunch .pf 0, Instr.sizePools .pf aPool].all
      (fun i => happens serviceSteps (i, served base)) = true := by decide +kernel

theorem test_boot_steps_happen :
    [Instr.bootRom, Instr.recoveryImage anImage, Instr.requestUpdate, Instr.passComponentTable, Instr.updateComponent anImage,
     Instr.transferComplete, Instr.verifyComplete, Instr.applyComplete, Instr.activateFirmware, Instr.imageReportsReady,
     Instr.updateReadyTimeout, Instr.securityVersionFuse, Instr.trainingStepComplete true, Instr.trainingStepComplete false].all
      (fun i => happens bootSteps (i, served base)) = true := by decide +kernel

theorem test_spdm_steps_happen :
    [Instr.getVersion, Instr.getCapabilities, Instr.negotiateAlgorithms ⟨true, true, true⟩, Instr.getDigests, Instr.getCertificate 7,
     Instr.spdmChallenge 0, Instr.getMeasurements 0xFF, Instr.keyExchange 1, Instr.spdmFinish 1, Instr.endSession 1,
     Instr.ideKmRequest 3 1 0xFFFF, Instr.ideStreamInsecure 0].all (fun i => happens spdmSteps (i, served base)) = true := by
  decide +kernel

theorem test_management_steps_happen :
    [Instr.getSensorReading 1, Instr.getSensorReading 0xFFFF, Instr.debugTokenRequest .off 0, Instr.lifecycleChange .blank,
     Instr.powerStateChange (.p1 63), Instr.powerStateChange .off, Instr.powerCapWrite 4400, Instr.powerCapWrite 4401,
     Instr.thermalThrottle 4, Instr.thermalDieReset 3, Instr.getSensorReading 0x40, Instr.powerStateChange (.dieRetention 3),
     Instr.thermalThrottle 0].all (fun i => happens manageSteps (i, served base)) = true := by
  decide +kernel

/-- Custody of one packet: its resend is the one step that anyone can make. -/
theorem test_one_event_acts : agents (inCustody 0 State.reset).advance = [.event (.custodyResend 0)] := by
  have h1 : (inCustody 0 State.reset).advance.moves (.custodyTimeout 0) = false := by
    have : exec (.custodyTimeout 0) (inCustody 0 State.reset).advance = .next (inCustody 0 State.reset).advance := rfl
    simp only [State.moves, this, ne_eq, not_true_eq_false, decide_false]
  have h2 : (inCustody 0 State.reset).advance.moves (.custodyResend 0) = true := by
    unfold State.moves
    split
    · rename_i t ht
      refine decide_eq_true fun e => ?_
      subst e
      have : ∀ u, exec (.custodyResend 0) (inCustody 0 State.reset).advance = .next u →
          u.outbox = [.packet { aPacket 1 with resent := true, slack := 50 }] := by
        intro u hu; injection hu with hu; rw [← hu]; decide +kernel
      exact absurd (this _ ht) (by decide +kernel)
    · rfl
  have h3 : ownEvents (inCustody 0 State.reset).advance = [.custodyResend 0, .custodyTimeout 0] := by decide +kernel
  have h4 : (inCustody 0 State.reset).advance.issuers = [] := by decide +kernel
  have h5 : (List.range 4).filter (inCustody 0 State.reset).advance.samActs = [] := by decide +kernel
  simp only [agents, h3, h4, h5, List.filter, h1, h2]
  rfl
/-! ## Results, calculated by hand from the rules -/

/-- s4 and FSTAT after a word, from s8 := a, s6 := b and s4 := d. -/
def gives (i : Instr) (a b d : Word) : Option (Word × Word) :=
  match exec i (withS [(8, a), (6, b), (4, d)] base) with
  | .next t => do
    let w ← t.wg 0
    let f ← w.fibres.find 0
    some (f.readNow (.s 4), f.fstat)
  | _ => none

/-- c1 and FSTAT after a comparison of s8 := a with s6 := b. -/
def compares (i : Instr) (a b : Word) : Option (Word × Word) :=
  match exec i (withS [(8, a), (6, b)] base) with
  | .next t => do
    let w ← t.wg 0
    let f ← w.fibres.find 0
    some (f.readNow (.c 1), f.fstat)
  | _ => none

/-- v4 of strand n and FSTAT after a word, from strand i's v8 := a i, v6 := b i and v4 := d. -/
def strandGives (i : Instr) (a b : Nat → Word) (d : Word) (n : Nat) : Option (Word × Word) :=
  match exec i (withFib (fun f => (List.range 16).foldl (fun f k => ((f.putV k 8 (a k)).putV k 6 (b k)).putV k 4 d) f) base) with
  | .next t => do
    let w ← t.wg 0
    let f ← w.fibres.find 0
    some (f.readNow (.v (f.phys 4) n), f.fstat)
  | _ => none

def uO : SGIDAB := ⟨0, 0, 0, 4, 8, 6⟩
def uImm (n : BitVec 6) : SGIDAB := ⟨0, 0, 1, 4, 8, n⟩

theorem test_integer_results :
    gives (Instr.uAdd uO) 0xFFFFFFFF 2 0 = some (1, 0) ∧
    gives (Instr.uAddSatI32 uO) 0x7FFFFFFF 1 0 = some (0x7FFFFFFF, 0x4000) ∧
    gives (Instr.uSubSatN32 uO) 1 2 0 = some (0, 0x4000) ∧
    gives (Instr.uMulhI32 uO) 0xFFFFFFFF 2 0 = some (0xFFFFFFFF, 0) ∧
    gives (Instr.uMulhN32 uO) 0xFFFFFFFF 2 0 = some (1, 0) ∧
    gives (Instr.uMad uO) 3 5 7 = some (22, 0) ∧
    gives (Instr.uMinI32 (uImm 63)) 0xFFFFFFFF 0 0 = some (0xFFFFFFFF, 0) ∧
    gives (Instr.uMinN32 (uImm 63)) 0xFFFFFFFF 0 0 = some (63, 0) ∧
    gives (Instr.uAndn uO) 0xFF 0x0F 0 = some (0xF0, 0) := by decide +kernel

theorem test_shift_and_bit_results :
    gives (Instr.uShl uO) 1 32 0 = some (0, 0) ∧
    gives (Instr.uSar uO) 0x80000000 40 0 = some (0xFFFFFFFF, 0) ∧
    gives (Instr.uShr uO) 0x80000000 31 0 = some (1, 0) ∧
    gives (Instr.uRol uO) 0x80000001 33 0 = some (3, 0) ∧
    gives (Instr.uClz ⟨0, 0, 4, 8⟩) 0 0 0 = some (32, 0) ∧
    gives (Instr.uFfs ⟨0, 0, 4, 8⟩) 0x50 0 0 = some (4, 0) ∧
    gives (Instr.uBrev ⟨0, 0, 4, 8⟩) 1 0 0 = some (0x80000000, 0) ∧
    gives (Instr.uBfxN32 ⟨0, 0, 4, 8, 6⟩) 0xA0000000 0xC1C 0 = some (0xA, 0) ∧
    gives (Instr.uBfxI32 ⟨0, 0, 4, 8, 6⟩) 0xA0000000 0xC1C 0 = some (0xFFFFFFFA, 0) ∧
    gives (Instr.uBfi ⟨0, 0, 4, 8, 6⟩) 0xFF 0x0404 0xFFFF0000 = some (0xFFFF00F0, 0) := by decide +kernel

theorem test_amin_and_division_results :
    gives (Instr.uAminI32 uO) 0xFFFFFFFE 1 0 = some (0xFFFFFFFF, 0) ∧
    gives (Instr.uAmaxN32 uO) 0xFFFFFFFF 3 1 = some (2, 0) ∧
    gives (Instr.uDivI32 uO) 7 0 0 = some (0xFFFFFFFF, 0) ∧
    gives (Instr.uRemI32 uO) 7 0 0 = some (7, 0) ∧
    gives (Instr.uDivI32 uO) 0x80000000 0xFFFFFFFF 0 = some (0x80000000, 0) ∧
    gives (Instr.uDivI32 uO) 0xFFFFFFF9 2 0 = some (0xFFFFFFFD, 0) ∧
    gives (Instr.uRemI32 uO) 0xFFFFFFF9 2 0 = some (0xFFFFFFFF, 0) ∧
    gives (Instr.uRemN32 uO) 0x80000000 0xFFFFFFFF 0 = some (0x80000000, 0) := by decide +kernel

theorem test_comparison_results :
    compares (Instr.uCmpI32 ⟨0, 0, 0, 2, 1, 8, 6⟩) 0xFFFFFFFF 1 = some (1, 0) ∧
    compares (Instr.uCmpN32 ⟨0, 0, 0, 2, 1, 8, 6⟩) 0xFFFFFFFF 1 = some (0, 0) ∧
    compares (Instr.uFcmp ⟨0, 0, 0, 1, 8, 6⟩) 0x80000000 0 = some (1, 0) ∧
    compares (Instr.uFcmp ⟨0, 0, 1, 1, 8, 6⟩) 0x7FC00000 0 = some (0, 0) ∧
    compares (Instr.uFcmpUn ⟨0, 0, 2, 1, 8, 6⟩) 0x7FC00000 0 = some (1, 0) ∧
    compares (Instr.uFcmp ⟨0, 0, 2, 1, 8, 6⟩) 0x7FC00000 0 = some (0, 0x200) := by decide +kernel

theorem test_float_results :
    gives (Instr.uFadd ⟨0, 0, 0, 4, 8, 6⟩) 0x3F800000 0x40000000 0 = some (0x40400000, 0) ∧
    gives (Instr.uFadd ⟨0, 0, 3, 4, 8, 6⟩) 0x3F800000 0xBF800000 0 = some (0x80000000, 0) ∧
    gives (Instr.uFsub ⟨0, 0, 0, 4, 8, 6⟩) 0x7F800000 0x7F800000 0 = some (0x7FC00000, 0x200) ∧
    gives (Instr.uFmul ⟨0, 0, 0, 4, 8, 6⟩) 0x7F7FFFFF 0x40000000 0 = some (0x7F800000, 0x1400) ∧
    gives (Instr.uFmul ⟨0, 0, 1, 4, 8, 6⟩) 0x7F7FFFFF 0x40000000 0 = some (0x7F7FFFFF, 0x1400) ∧
    gives (Instr.uFfma ⟨0, 0, 0, 4, 8, 6⟩) 0x40000000 0x40400000 0x3F800000 = some (0x40E00000, 0) ∧
    gives (Instr.uFmin ⟨0, 0, 4, 8, 6⟩) 0x7FC00000 0x3F800000 0 = some (0x3F800000, 0) ∧
    gives (Instr.uFminNan ⟨0, 0, 4, 8, 6⟩) 0x7FC00000 0x3F800000 0 = some (0x7FC00000, 0) ∧
    gives (Instr.uFrcp ⟨0, 0, 4, 8⟩) 0x40000000 0 0 = some (0x3F000000, 0) ∧
    gives (Instr.uFrcp ⟨0, 0, 4, 8⟩) 0x80000000 0 0 = some (0xFF800000, 0x2000) ∧
    gives (Instr.uCvtiI32F32 ⟨0, 0, 4, 8⟩) 0xBFC00000 0 0 = some (0xFFFFFFFF, 0x1000) ∧
    gives (Instr.uCvtiN32F32 ⟨0, 0, 4, 8⟩) 0xBF000000 0 0 = some (0, 0x1000) := by decide +kernel

theorem test_square_root_and_exponential_results :
    gives (Instr.uFrsq ⟨0, 0, 4, 8⟩) 0x40800000 0 0 = some (0x3F000000, 0) ∧
    gives (Instr.uFex2 ⟨0, 0, 4, 8⟩) 0x40400000 0 0 = some (0x41000000, 0) ∧
    gives (Instr.uFlg2 ⟨0, 0, 4, 8⟩) 0x41000000 0 0 = some (0x40400000, 0) := by decide +kernel

/-- 11 R215: 464 lies on the midpoint of 448 and 480 and rounds to 448; beyond it the code saturates. E2M1 has 6 as its
largest value, and 6.5 rounds to it. -/
theorem test_quantised_codes :
    [quantCode e4m3 (464, 0) (1, 0), quantCode e4m3 (465, 0) (1, 0), quantCode e2m1 (13, -1) (1, 0), quantCode e2m1 (1, 0) (1, 0)] =
      [(0x7E, false), (0x7E, true), (7, false), (2, false)] := by decide +kernel

theorem test_immediate_results :
    gives (Instr.uAddi ⟨0, 0, 4, 0x7FFF⟩) 0 0 0 = some (0xFFFFFFFF, 0) ∧
    gives (Instr.uLui ⟨0, 0, 4, 1⟩) 0 0 5 = some (0x00020005, 0) ∧
    gives (Instr.uLit ⟨0, 0, 4, 0x12345678⟩) 0 0 0 = some (0x12345678, 0) := by decide +kernel

theorem test_strand_results :
    strandGives (Instr.lXchXor ⟨0, 0, 4, 8, 1⟩) (fun k => BitVec.ofNat 32 k) (fun _ => 0) 0 6 = some (7, 0) ∧
    strandGives (Instr.lShup ⟨0, 0, 4, 8, 3⟩) (fun k => BitVec.ofNat 32 k) (fun _ => 0) 0 2 = some (2, 0) ∧
    strandGives (Instr.lShdnWrap ⟨0, 0, 4, 8, 3⟩) (fun k => BitVec.ofNat 32 k) (fun _ => 0) 0 14 = some (1, 0) ∧
    strandGives (Instr.lScanAddI32 ⟨0, 0, 0, 4, 8, 0⟩) (fun k => BitVec.ofNat 32 k) (fun _ => 0) 0 5 = some (15, 0) ∧
    strandGives (Instr.lCvt8E4m3F32 ⟨0, 0, 4, 8, 2⟩) (fun _ => 0x3F800000) (fun _ => 0) 0x11111111 9 =
      some (0x11381111, 0) ∧
    strandGives (Instr.lHadd2Bf16 ⟨0, 0, 0, 4, 8, 6⟩) (fun _ => 0x3F800000) (fun _ => 0x3F804000) 0 3 =
      some (0x40004000, 0) := by decide +kernel

/-! ## Well-formedness: each check refuses an ill-formed term and admits its neighbour -/

/-- An ill-formed term for each check of `Instr.wf` (02 R40 to R44, R48). -/
noncomputable def illFormed : List Instr :=
  [Instr.lCmpI32 ⟨0, 0, 0, 6, 2, 2, 2⟩, Instr.lCmpN32 ⟨0, 0, 0, 0, 0, 2, 2⟩, Instr.lFcmp ⟨0, 0, 0, 7, 2, 2, 2⟩,
   Instr.lFcmpUn ⟨0, 0, 0, 0, 0, 2, 2⟩, Instr.uCmpI32 ⟨0, 0, 0, 6, 1, 2, 2⟩, Instr.uCmpN32 ⟨0, 0, 0, 0, 0, 2, 2⟩,
   Instr.uFcmp ⟨0, 0, 6, 1, 2, 2⟩, Instr.uFcmpUn ⟨0, 0, 0, 0, 2, 2⟩, Instr.uCmpi ⟨0, 0, 7, 1, 2, 0⟩,
   Instr.lShup ⟨0, 0, 4, 2, 0⟩, Instr.lShdn ⟨0, 0, 4, 2, 0⟩, Instr.lShupWrap ⟨0, 0, 4, 2, 0⟩] ++
  [Instr.lShdnWrap ⟨0, 0, 4, 2, 0⟩, Instr.lScanAddI32 ⟨0, 0, 0, 4, 2, 1⟩, Instr.lScanAddF32 ⟨0, 0, 0, 4, 2, 1⟩,
   Instr.lScanMinI32 ⟨0, 0, 0, 4, 2, 1⟩, Instr.lScanMaxI32 ⟨0, 0, 0, 4, 2, 1⟩,
   Instr.lRedAddI32 ⟨0, 0, 0, 4, 2, 1⟩, Instr.lRedAddF32 ⟨0, 0, 0, 4, 2, 1⟩, Instr.lRedAnd ⟨0, 0, 0, 4, 2, 1⟩,
   Instr.lRedOr ⟨0, 0, 0, 4, 2, 1⟩, Instr.lRedixMinI32 ⟨0, 0, 3, 2⟩, Instr.lRedixMaxN32 ⟨0, 0, 0, 2⟩,
   Instr.uAddi64 ⟨0, 0, 0, 0⟩] ++
  [Instr.tanc ⟨0, 0, 5, 2, 1⟩, Instr.lVoteAny ⟨0, 0, 0, 0⟩, Instr.lVoteAll ⟨0, 0, 0, 0⟩,
   Instr.qgive ⟨0, 0, 0, 0, 2, 2⟩, Instr.qtry ⟨0, 0, 0, 2, 2⟩, Instr.tokq ⟨0, 0, 0⟩,
   Instr.tkpoll ⟨0, 0, 0, 0, 2, 2⟩, Instr.lPset ⟨0, 0, 0, 2⟩, Instr.lLd ⟨0, 0, 7, 4, 2, 2⟩,
   Instr.lLd ⟨0, 0, 0, 4, 2, 3⟩, Instr.lLdNc ⟨0, 0, 5, 5, 2, 2⟩, Instr.lSt ⟨0, 0, 6, 6, 2, 2⟩] ++
  [Instr.lSt ⟨0, 0, 1, 4, 2, 2⟩, Instr.lStNc ⟨0, 0, 3, 4, 2, 2⟩, Instr.lLdAcq ⟨0, 0, 5, 4, 2, 2⟩,
   Instr.lStRel ⟨0, 0, 0, 4, 2, 3⟩, Instr.uLdAcq ⟨0, 0, 6, 4, 2, 2⟩, Instr.uStRel ⟨0, 0, 7, 4, 2, 2⟩,
   Instr.lAtom ⟨0, 0, 0, 4, 2, 1⟩, Instr.lAtomxCas ⟨0, 0, 3, 2, 2⟩, Instr.uAtom ⟨0, 0, 0, 4, 2, 1⟩,
   Instr.uAtomxCas ⟨0, 0, 3, 2, 2⟩, Instr.lPf ⟨0, 0, 2, 1⟩, Instr.lRatom ⟨0, 0, 0, 4, 1⟩] ++
  [Instr.uLd ⟨0, 0, 6, 4, 2, 0⟩, Instr.uLd ⟨0, 0, 5, 0, 2, 0⟩, Instr.uSt ⟨0, 0, 1, 4, 2, 0⟩,
   Instr.uSt ⟨0, 0, 0, 4, 3, 0⟩, Instr.uAdd64 ⟨0, 0, 0, 3, 2, 2⟩, Instr.uSub64 ⟨0, 0, 0, 4, 2, 3⟩,
   Instr.uCmp64 ⟨0, 0, 0, 0, 1, 3, 2⟩, Instr.jr ⟨0, 0, 3⟩, Instr.callr ⟨0, 0, 3⟩, Instr.fork ⟨0, 0, 0, 4, 3, 2⟩,
   Instr.wb ⟨0, 0, 0, 3, 2⟩, Instr.inv ⟨0, 0, 0, 3, 2⟩] ++
  [Instr.smap ⟨0, 0, 0, 4, 3, 2⟩, Instr.tkwait ⟨0, 0, 0, 3, 2⟩, Instr.tkpass ⟨0, 0, 3⟩,
   Instr.bcadd ⟨0, 0, 0, 3, 2⟩, Instr.bcphase ⟨0, 0, 4, 3⟩, Instr.rotset ⟨0, 0, 1, 7⟩, Instr.vgrow ⟨0, 0, 1, 9⟩,
   Instr.vshrink ⟨0, 0, 1, 0⟩, Instr.barArrive ⟨0, 0, 1, 2, 16⟩, Instr.barWait ⟨0, 0, 1, 16⟩,
   Instr.barSync ⟨0, 0, 1, 2, 16⟩, Instr.knotArrive ⟨0, 0, 1, 4⟩] ++
  [Instr.knotWait ⟨0, 0, 1, 4⟩, Instr.knotSync ⟨0, 0, 1, 4⟩, Instr.qbind ⟨0, 0, 47, 0, 0⟩,
   Instr.qbind ⟨0, 0, 56, 0, 0⟩, Instr.watchArm ⟨0, 0, 4, 2, 6⟩, Instr.wwait ⟨0, 0, 3, 2⟩,
   Instr.post ⟨0, 0, 1, 4, 2, 3⟩, Instr.bcinit ⟨0, 0, 1, 2, 32⟩, Instr.bcwait ⟨0, 0, 1, 4, 2, 2⟩,
   Instr.mma ⟨0, 0, 2, 3, 0⟩, Instr.pgopAlloc ⟨0, 0, 3, 2⟩, Instr.pgopSend ⟨0, 0, 2, 3⟩] ++
  [Instr.mflag ⟨0, 0, 2, 1, 1, 0, 1⟩, Instr.cpy ⟨0, 0, 3, 0⟩, Instr.cpyMc ⟨0, 0, 2, 0, 0⟩,
   Instr.samp ⟨0, 0, 2, 3⟩, Instr.rng ⟨0, 0, 2, 0, 0⟩, Instr.seqnext ⟨0, 0, 3, 2⟩, Instr.repW ⟨0, 0, 0, 1⟩,
   Instr.tokdlv ⟨0, 0, 1⟩, Instr.seqstop ⟨0, 0, 0, 0⟩, Instr.sysr ⟨0, 0, 13, 4⟩, Instr.sysr ⟨0, 0, 8, 3⟩,
   Instr.sysw ⟨0, 0, 8, 3⟩] ++
  [Instr.sysw ⟨0, 0, 27, 4⟩, Instr.rdcnt ⟨0, 0, 5, 4⟩, Instr.rdcnt ⟨0, 0, 0, 3⟩]

theorem test_ill_formed_terms_are_refused : illFormed.all (fun i => !i.wf) = true := by decide +kernel

/-- A well-formed term of each of those instructions. -/
noncomputable def wellFormed : List Instr :=
  [Instr.lCmpI32 ⟨0, 0, 0, 0, 2, 2, 2⟩, Instr.lCmpN32 ⟨0, 0, 0, 0, 2, 2, 2⟩, Instr.lFcmp ⟨0, 0, 0, 0, 2, 2, 2⟩,
   Instr.lFcmpUn ⟨0, 0, 0, 0, 2, 2, 2⟩, Instr.uCmpI32 ⟨0, 0, 0, 0, 1, 2, 2⟩, Instr.uCmpN32 ⟨0, 0, 0, 0, 1, 2, 2⟩,
   Instr.uFcmp ⟨0, 0, 0, 1, 2, 2⟩, Instr.uFcmpUn ⟨0, 0, 0, 1, 2, 2⟩, Instr.uCmpi ⟨0, 0, 0, 1, 2, 0⟩,
   Instr.lShup ⟨0, 0, 4, 2, 1⟩, Instr.lShdn ⟨0, 0, 4, 2, 1⟩, Instr.lShupWrap ⟨0, 0, 4, 2, 1⟩] ++
  [Instr.lShdnWrap ⟨0, 0, 4, 2, 1⟩, Instr.lScanAddI32 ⟨0, 0, 1, 4, 2, 2⟩, Instr.lScanAddF32 ⟨0, 0, 1, 4, 2, 2⟩,
   Instr.lScanMinI32 ⟨0, 0, 1, 4, 2, 2⟩, Instr.lScanMaxI32 ⟨0, 0, 1, 4, 2, 2⟩,
   Instr.lRedAddI32 ⟨0, 0, 1, 4, 2, 2⟩, Instr.lRedAddF32 ⟨0, 0, 1, 4, 2, 2⟩, Instr.lRedAnd ⟨0, 0, 1, 4, 2, 2⟩,
   Instr.lRedOr ⟨0, 0, 1, 4, 2, 2⟩, Instr.lRedixMinI32 ⟨0, 0, 4, 2⟩, Instr.lRedixMaxN32 ⟨0, 0, 4, 2⟩,
   Instr.uAddi64 ⟨0, 0, 4, 0⟩] ++
  [Instr.tanc ⟨0, 0, 4, 2, 1⟩, Instr.lVoteAny ⟨0, 0, 1, 0⟩, Instr.lVoteAll ⟨0, 0, 1, 0⟩,
   Instr.qgive ⟨0, 0, 0, 1, 2, 2⟩, Instr.qtry ⟨0, 0, 1, 2, 2⟩, Instr.tokq ⟨0, 0, 1⟩,
   Instr.tkpoll ⟨0, 0, 0, 1, 2, 2⟩, Instr.lPset ⟨0, 0, 1, 2⟩, Instr.lLd ⟨0, 0, 0, 4, 2, 2⟩,
   Instr.lLdNc ⟨0, 0, 0, 4, 2, 2⟩, Instr.lSt ⟨0, 0, 0, 4, 2, 2⟩, Instr.lStNc ⟨0, 0, 0, 4, 2, 2⟩] ++
  [Instr.lLdAcq ⟨0, 0, 0, 4, 2, 2⟩, Instr.lStRel ⟨0, 0, 0, 4, 2, 2⟩, Instr.uLdAcq ⟨0, 0, 0, 4, 2, 2⟩,
   Instr.uStRel ⟨0, 0, 0, 4, 2, 2⟩, Instr.lAtom ⟨0, 0, 0, 4, 2, 2⟩, Instr.lAtomxCas ⟨0, 0, 4, 2, 2⟩,
   Instr.uAtom ⟨0, 0, 0, 4, 2, 2⟩, Instr.uAtomxCas ⟨0, 0, 4, 2, 2⟩, Instr.lPf ⟨0, 0, 2, 2⟩,
   Instr.lRatom ⟨0, 0, 0, 4, 2⟩, Instr.uLd ⟨0, 0, 0, 4, 2, 0⟩, Instr.uSt ⟨0, 0, 0, 4, 2, 0⟩] ++
  [Instr.uAdd64 ⟨0, 0, 0, 4, 2, 2⟩, Instr.uSub64 ⟨0, 0, 0, 4, 2, 2⟩, Instr.uCmp64 ⟨0, 0, 0, 0, 1, 2, 2⟩,
   Instr.jr ⟨0, 0, 2⟩, Instr.callr ⟨0, 0, 2⟩, Instr.fork ⟨0, 0, 0, 4, 2, 2⟩, Instr.wb ⟨0, 0, 0, 2, 2⟩,
   Instr.inv ⟨0, 0, 0, 2, 2⟩, Instr.smap ⟨0, 0, 0, 4, 2, 2⟩, Instr.tkwait ⟨0, 0, 0, 2, 2⟩,
   Instr.tkpass ⟨0, 0, 2⟩, Instr.bcadd ⟨0, 0, 0, 2, 2⟩] ++
  [Instr.bcphase ⟨0, 0, 4, 2⟩, Instr.rotset ⟨0, 0, 0, 2⟩, Instr.vgrow ⟨0, 0, 0, 2⟩, Instr.vshrink ⟨0, 0, 0, 2⟩,
   Instr.barArrive ⟨0, 0, 0, 2, 2⟩, Instr.barWait ⟨0, 0, 0, 2⟩, Instr.barSync ⟨0, 0, 0, 2, 2⟩,
   Instr.knotArrive ⟨0, 0, 0, 2⟩, Instr.knotWait ⟨0, 0, 0, 2⟩, Instr.knotSync ⟨0, 0, 0, 2⟩,
   Instr.qbind ⟨0, 0, 48, 0, 0⟩, Instr.watchArm ⟨0, 0, 4, 2, 0⟩] ++
  [Instr.wwait ⟨0, 0, 4, 2⟩, Instr.post ⟨0, 0, 0, 4, 2, 2⟩, Instr.bcinit ⟨0, 0, 0, 2, 2⟩,
   Instr.bcwait ⟨0, 0, 0, 4, 2, 2⟩, Instr.mma ⟨0, 0, 2, 2, 0⟩, Instr.pgopAlloc ⟨0, 0, 2, 2⟩,
   Instr.pgopSend ⟨0, 0, 2, 2⟩, Instr.mflag ⟨0, 0, 2, 1, 1, 0, 0⟩, Instr.cpy ⟨0, 0, 2, 0⟩,
   Instr.cpyMc ⟨0, 0, 2, 2, 0⟩, Instr.samp ⟨0, 0, 2, 2⟩, Instr.rng ⟨0, 0, 2, 2, 0⟩] ++
  [Instr.seqnext ⟨0, 0, 2, 2⟩, Instr.repW ⟨0, 0, 2, 1⟩, Instr.tokdlv ⟨0, 0, 2⟩, Instr.seqstop ⟨0, 0, 2, 0⟩,
   Instr.sysr ⟨0, 0, 1, 4⟩, Instr.sysw ⟨0, 0, 1, 4⟩, Instr.rdcnt ⟨0, 0, 2, 4⟩]

theorem test_well_formed_terms_are_admitted : wellFormed.all Instr.wf = true := by decide +kernel

end Sys2Proof.Tests
end

section
/-! # The sequential machine: retirement (01 R13, R14, R17, R27; 09 R183) -/

namespace Sys2Proof.Machine

/-- The pushes of a word, one port after another, as O8 states them. -/
theorem pushPorts_eq_pushedOut (w : Workgroup) (old : Fibre) : ∀ (ns : List Nat) (g : Fibre) (s : State),
    pushPorts w old ns g s = Claims.pushedOut w old ns g s
  | [], _, _ => rfl
  | n :: ns, g, s => by
    rw [pushPorts, pushPorts_eq_pushedOut w old ns]
    rfl

/-- RIX set to 0 (01 Table 1-3). -/
theorem fstat_setRix_zero (f : Fibre) : (f.setRix 0).fstat = f.fstat &&& 0xFFFFFFF0#32 := by
  simp [Fibre.setRix, setField]

theorem retired_retire (f : Fibre) (u : Use) (n : Nat) (pc : DWord) : Claims.Retired u n pc f (f.retire u n pc) := by
  refine ⟨rfl, rfl, rfl, rfl, rfl, ?_, rfl, ?_⟩
  · show (if u.lane && f.rixLive then f.setRix 0 else f).fstat = _
    split
    · exact fstat_setRix_zero f
    · rfl
  · unfold Fibre.retire
    split <;> rfl

/-- Retirement in a workgroup of the state: it counts the instruction, and raises BREAK in a single step or puts the retired
fibre back. -/
theorem retireTo_eq {s : State} {wk : Nat} {w v : Workgroup} {u : Use} {n : Nat} {old f : Fibre} {pc : DWord}
    (hv : s.wg wk = some v) :
    s.retireTo wk w u n old f pc =
      if old.fctl.getLsbD 3 = true ∧ old.fstat.getLsbD 5 = false then
        ({ s with wgs := s.wgs.put wk { v with retired := v.retired + 1 } } : State).raise wk w (f.retire u n pc)
          { code := .brk, sub := 0xFF, addr := 0, replay := false } 0 false pc pc
      else { s with wgs := s.wgs.put wk { v with retired := v.retired + 1, fibres := v.fibres.put f.fid (f.retire u n pc) } } := by
  have hcount : s.updWg wk Workgroup.countRetired = { s with wgs := s.wgs.put wk { v with retired := v.retired + 1 } } := by
    rw [State.updWg_eq, Tbl.upd_of_find hv]
    rfl
  have hfid : (f.retire u n pc).fid = f.fid := by
    unfold Fibre.retire
    split <;> rfl
  have hput : ({ s with wgs := s.wgs.put wk { v with retired := v.retired + 1 } } : State).putFibre wk (f.retire u n pc) =
      { s with wgs := s.wgs.put wk { v with retired := v.retired + 1, fibres := v.fibres.put f.fid (f.retire u n pc) } } := by
    rw [State.putFibre_eq, Tbl.upd_of_find (Tbl.find_put_self ..), Tbl.put_put, hfid]
    rfl
  have hstep : (old.stepping && !old.tm) = true ↔ old.fctl.getLsbD 3 = true ∧ old.fstat.getLsbD 5 = false := by
    simp [Fibre.stepping, Fibre.tm, bit]
  unfold State.retireTo
  simp only [hcount, hput, hstep]
  rfl

/-- A word that completes and a word that transfers settle alike: pushes, then retirement at the PC that follows. -/
theorem settleRes_retires {wk : Nat} {w : Workgroup} {u : Use} {n : Nat} {old g : Fibre} {s : State} {r : Res} {pc : DWord}
    (h : (r = .done g s ∧ pc = old.pc + BitVec.ofNat 64 u.len) ∨ r = .jump g s pc) :
    settleRes wk w u n old r =
      (Claims.pushedOut w old (pushesOf old u) g s).2.retireTo wk w u n old
        (Claims.pushedOut w old (pushesOf old u) g s).1 pc := by
  rw [← pushPorts_eq_pushedOut]
  rcases h with ⟨rfl, rfl⟩ | rfl <;> rfl

/-- Settles O8: the retired fibre is `Fibre.retire` of the fibre whose pushes have been made. -/
theorem retirementAdvances : Obligations.RetirementAdvances := by
  intro wk w v u n old g s r pc p hv hr
  exact ⟨p.1.retire u n pc, retired_retire p.1 u n pc, (settleRes_retires hr).trans (retireTo_eq hv)⟩

end Sys2Proof.Machine
end

section
/-! # The sequential machine: system registers and counters (01 R14, R15; 03 R73, R75; 18 R332) -/

namespace Sys2Proof.Machine

/-! ## When a read of the clock waits -/

theorem tokenStall_eq_needsToken (s : State) (w : Workgroup) : s.tokenStall w = Claims.needsToken s w := by
  unfold State.tokenStall Claims.needsToken State.holdsToken
  congr 1
  cases s.launch w.launch <;> rfl

theorem cycOf_eq_clock (s : State) (w : Workgroup) (f : Fibre) : cycOf s w f = BitVec.ofNat 64 (Claims.clock s w f) := by
  unfold cycOf Claims.clock
  split
  · cases s.launch w.launch <;> rfl
  · rfl

/-! ## What is read -/

theorem loWord_ofNat (x : Nat) : loWord (BitVec.ofNat 64 x) = BitVec.ofNat 32 x := by
  apply BitVec.eq_of_toNat_eq
  simp [loWord]

theorem sysWide_eq_wideReg (r : BitVec 9) : sysWide r = Claims.wideReg r.toNat := by
  simp [sysWide, Claims.wideReg, Bool.or_assoc, Bool.beq_eq_decide_eq]

theorem sysOpnd_eq (r : BitVec 9) (d : BitVec 6) :
    sysOpnd r d = if Claims.wideReg r.toNat then [.s2 d.toNat] else [.s d.toNat] := by
  rw [sysOpnd, sysWide_eq_wideReg]

theorem putWide_ofNat (f : Fibre) (wide : Bool) (d x : Nat) :
    f.putWide wide d (BitVec.ofNat 64 x) = Claims.delivered f wide d x := by
  rw [Fibre.putWide, Claims.delivered, loWord_ofNat]

/-- Table 1-2, register by register. -/
theorem sysRead_eq_sysValue (s : State) (w : Workgroup) (f : Fibre) (r : BitVec 9) :
    sysRead s w f r = BitVec.ofNat 64 (Claims.sysValue s w f r.toNat) := by
  unfold sysRead
  split <;> simp_all [Claims.sysValue, cycOf_eq_clock]

/-- Table 3-5, counter by counter. -/
theorem counterOf_eq_counter (s : State) (w : Workgroup) (f : Fibre) (r : BitVec 9) :
    counterOf s w f r = BitVec.ofNat 64 (Claims.counter s w f r.toNat) := by
  unfold counterOf
  split <;> simp_all [Claims.counter, cycOf_eq_clock]

/-- A read that waits for the commit token when it reads the clock. -/
theorem clockWait_eq_clocked (s : State) (w : Workgroup) (f : Fibre) (r k : BitVec 9) (e : Res) :
    (if r = k ∧ s.tokenStall w = true then .wait f s .token else e) = Claims.clocked (r.toNat == k.toNat) s w f e := by
  have hk : (r.toNat == k.toNat) = decide (r = k) := by
    rw [Bool.beq_eq_decide_eq, decide_eq_decide, BitVec.toNat_inj]
  simp only [Claims.clocked, hk, ← tokenStall_eq_needsToken, Bool.and_eq_true, decide_eq_true_eq]

/-! ## What is written -/

/-- Which bits `sysw` writes, register by register. -/
theorem sysWrite_eq_sysWritten (f : Fibre) (r : BitVec 9) (x : DWord) : sysWrite f r x = Claims.sysWritten f r.toNat x := by
  unfold sysWrite
  have hslack : (loWord x).extractLsb' 0 12 = x.extractLsb' 0 12 := by
    unfold loWord
    ext i hi
    simp
  split <;> simp_all [Claims.sysWritten, underMask, loWord, Fibre.tm, bit]

theorem firmwareReg_eq_notFirmware (r : BitVec 9) : firmwareReg r = Claims.notFirmware r.toNat := rfl

theorem syswPre_eq_syswCheck (o : SGRD) : syswPre (Claims.syswUse o) o.r = Claims.syswCheck o := by
  funext f
  by_cases hfw : 0x100 ≤ o.r.toNat
  · simp [syswPre, firmwareReg, Claims.syswCheck, trapOf, hfw]
  · simp [syswPre, firmwareReg, Claims.syswCheck, trapOf, hfw, privilegeIf, sysWrite_eq_sysWritten, and_comm]

/-! ## The words -/

/-- An instruction that is a word of the rule's usage and checks ends as its body says wherever it issues. -/
theorem ends_of_word {i : Instr} {u : Use} {pre : Fibre → Option Trap} {body : Nat → Workgroup → List Nat → Fibre → State → Res}
    {s s1 : State} {w : Workgroup} {f g : Fibre} {act : List Nat} (he : exec i s = word u pre body s)
    (h : Issues u pre s w f act g s1) : Ends i s w u act f (body s.cur.wk w act g s1) :=
  he.trans (word_next h)

theorem exec_sysr (o : SGRD) (s : State) : exec (.sysr o) s = execSysr o s := rfl
theorem exec_sysw (o : SGRD) (s : State) : exec (.sysw o) s = execSysw o s := rfl
theorem exec_rdcnt (o : SGRD) (s : State) : exec (.rdcnt o) s = execRdcnt o s := rfl

theorem execSysr_eq (o : SGRD) (s : State) :
    execSysr o s =
      word (uUse o.s o.g [] (if Claims.wideReg o.r.toNat then [.s2 o.d.toNat] else [.s o.d.toNat])) (Claims.notFirmware o.r.toNat)
        (fun _ w _ f s => Claims.clocked (o.r.toNat == 8) s w f
          (.done (Claims.delivered f (Claims.wideReg o.r.toNat) o.d.toNat (Claims.sysValue s w f o.r.toNat)) s)) s := by
  unfold execSysr
  simp only [sysOpnd_eq, firmwareReg_eq_notFirmware, clockWait_eq_clocked, sysRead_eq_sysValue, putWide_ofNat, sysWide_eq_wideReg]
  rfl

theorem execSysw_eq (o : SGRD) (s : State) :
    execSysw o s =
      word (Claims.syswUse o) (Claims.syswCheck o)
        (fun _ _ _ f s => .done ((Claims.sysWritten f o.r.toNat
          (if Claims.wideReg o.r.toNat then f.getS64 o.d.toNat else (f.getS o.d.toNat).zeroExtend 64)).getD f) s) s := by
  have huse : uUse o.s o.g (sysOpnd o.r o.d) [] = Claims.syswUse o := by rw [Claims.syswUse, sysOpnd_eq]
  unfold execSysw
  simp only [huse, syswPre_eq_syswCheck, sysWrite_eq_sysWritten, sysWide_eq_wideReg]
  rfl

theorem execRdcnt_eq (o : SGRD) (s : State) :
    execRdcnt o s =
      word (uUse o.s o.g [] (if o.r.toNat ≤ 1 then [.s2 o.d.toNat] else [.s o.d.toNat])) noPre
        (fun _ w _ f s => Claims.clocked (o.r.toNat == 0) s w f
          (.done (Claims.delivered f (decide (o.r.toNat ≤ 1)) o.d.toNat (Claims.counter s w f o.r.toNat)) s)) s := by
  unfold execRdcnt
  simp only [clockWait_eq_clocked, counterOf_eq_counter, putWide_ofNat, decide_eq_true_eq]
  rfl

/-- Settles O12: the meanings of `sysr`, `sysw` and `rdcnt` are the words of the table. -/
theorem systemRegisters : Obligations.SystemRegisters := by
  intro i r s w f act g s1 hi hwf h hfires
  unfold Claims.systemRegs at hi
  split at hi
  case h_1 o =>
    cases hi
    exact ends_of_word ((exec_sysr o s).trans (execSysr_eq o s)) h
  case h_2 o =>
    cases hi
    exact ends_of_word ((exec_sysw o s).trans (execSysw_eq o s)) h
  case h_3 o =>
    cases hi
    exact ends_of_word ((exec_rdcnt o s).trans (execRdcnt_eq o s)) h
  case h_4 => cases hi

end Sys2Proof.Machine
end

section
/-! # The sequential machine: words with an empty Active (01 R24, R27; 05 R112 to R115) -/

namespace Sys2Proof.Machine

/-! ## Two kinds of word: without effect for an empty Active, or with a value for it -/

/-- The instruction is a word of usage u, without checks of its own, that has no effect for an empty Active. -/
def PlainWord (i : Instr) (u : Use) : Prop :=
  u.always = false ∧ ∃ body, ∀ s, exec i s = word u noPre body s

/-- The instruction is a word, without checks of its own, that for an empty Active writes what the table says and leaves the
state, where no port stands behind a register that it names. -/
def DeliveringWord (i : Instr) (r : RegWord) : Prop :=
  r.use.always = true ∧ ∃ body, (∀ s, exec i s = word r.use noPre body s) ∧
    ∀ (wk : Nat) (w : Workgroup) (f : Fibre) (s : State), (∀ n ∈ r.use.named, f.bound n = none) →
      ∃ h, body wk w [] (f.fixNamed r.use) s = .done h s ∧ Wrote (f.fixNamed r.use) h (r.writes f []) (r.flags f [])

/-! ## What the common part of execution does with them -/

theorem emptyRes_plain {u : Use} (hu : u.always = false) (f : Fibre) (s : State) (body : List Nat → Fibre → State → Res) :
    emptyRes u f s body = (f, s) := by
  rw [emptyRes, if_neg (by simp [hu])]

theorem named_of_writes {u : Use} {n : Nat} (h : n ∈ singles u.writes ++ pairRegs u.writes) : n ∈ u.named := by
  simp only [Use.named, singles, pairRegs, List.filterMap_append, List.flatMap_append, List.mem_append] at h ⊢
  rcases h with h | h
  · exact .inl (.inr h)
  · exact .inr (.inr h)

theorem portTargets_unbound {u : Use} {f : Fibre} (h : ∀ n ∈ u.named, f.bound n = none) : portTargets f u = [] := by
  rw [portTargets, List.filter_eq_nil_iff]
  intro n hn
  simp [h n (named_of_writes hn)]

theorem owed_of_free {u : Use} {f : Fibre} (h : ∀ n ∈ u.named, n ∉ f.busy) : owed f u = false := by
  rw [owed, List.any_eq_false]
  intro n hn
  simpa using h n hn

theorem emptyRes_delivers {u : Use} (hu : u.always = true) {f h : Fibre} {s : State} {body : List Nat → Fibre → State → Res}
    (hports : ∀ n ∈ u.named, f.bound n = none) (hb : body [] (f.fixNamed u) s = .done h s) :
    emptyRes u f s body = (h, s) := by
  rw [emptyRes, if_pos hu, hb, portTargets_unbound hports]
  rfl

/-- A word that no strand executes and whose checks pass retires with what its entry gives that case. -/
theorem word_empty {u : Use} {body : Nat → Workgroup → List Nat → Fibre → State → Res} {s : State} {w : Workgroup} {f : Fibre}
    (hw : s.wg s.cur.wk = some w) (hf : (w.fibres.find s.cur.fid).map (issueOf u) = some f) (hact : runners u f = [])
    (hclear : issueFault u none f [] = none) (howed : (u.always && owed f u) = false) :
    word u noPre body s =
      .next ((emptyRes u f s (body s.cur.wk w)).2.retireTo s.cur.wk w u 0 f (emptyRes u f s (body s.cur.wk w)).1
        (f.pc + BitVec.ofNat 64 u.len)) := by
  obtain ⟨f0, hf0, hissue⟩ := Option.map_eq_some_iff.mp hf
  have hstart : (if u.lane = true then f0.atIssue else f0.atIssue.dropRix) = f := hissue
  unfold word wordBy
  rw [hw]
  simp only [hf0, runWord, hstart, hact, noPre, hclear, howed, List.isEmpty_nil, if_true, Bool.false_eq_true, if_false]

/-! ## The shapes of words -/

theorem plainWord_laneWord {i : Instr} {sc g : BitVec 2} {reads : List Opnd} {d : BitVec 6} {l : Lat}
    {val : Fibre → Nat → Nat → Word × Word} (h : ∀ s, exec i s = laneWord sc g reads d l val s) :
    PlainWord i (lUse sc g reads [.v d.toNat]) := ⟨rfl, _, h⟩

theorem plainWord_laneCmp {i : Instr} {o : SGUKPAB} {l : Lat} {c : Cmp} (h : ∀ s, exec i s = laneCmp o l c s) :
    PlainWord i (lUse o.s o.g ([.v o.a.toNat] ++ opLB o.u o.b) [.p o.p.toNat]) := ⟨rfl, _, h⟩

theorem plainWord_pset (o : SGPA) : PlainWord (.lPset o) (lUse o.s o.g [.v o.a.toNat] [.p o.p.toNat]) :=
  have h : ∀ s, exec (.lPset o) s = execLPset o s := fun _ => rfl
  ⟨rfl, _, h⟩

theorem plainWord_uniWord {i : Instr} {u : Use} {d : BitVec 6} {l : Lat} {val : Fibre → Word × Word} (hu : u.always = false)
    (h : ∀ s, exec i s = uniWord u d l val s) : PlainWord i u := ⟨hu, _, h⟩

theorem plainWord_uniCmp {i : Instr} {sc g : BitVec 2} {reads : List Opnd} {c : BitVec 3} {l : Lat} {val : Fibre → Bool × Word}
    (h : ∀ s, exec i s = uniCmp sc g reads c l val s) : PlainWord i (uUse sc g reads [.c c.toNat]) := ⟨rfl, _, h⟩

theorem plainWord_uniWide {i : Instr} {u : Use} {d : BitVec 6} {val : Fibre → DWord} (hu : u.always = false)
    (h : ∀ s, exec i s = uniWide u d val s) : PlainWord i u := ⟨hu, _, h⟩

theorem plainWord_exchange {i : Instr} {sc g : BitVec 2} {reads : List Opnd} {d a : BitVec 6} {src : Fibre → Nat → Nat}
    (h : ∀ s, exec i s = exchange sc g reads d a src s) :
    PlainWord i (xUse sc g (reads ++ [.v a.toNat]) [.v d.toNat]) := ⟨rfl, _, h⟩

theorem plainWord_scanWord {i : Instr} {o : SGUDAB} {op : Comb} {ident : Word} (h : ∀ s, exec i s = scanWord o op ident s) :
    PlainWord i (xUse o.s o.g (Claims.seedReads o) [.v o.d.toNat]) := ⟨rfl, _, h⟩

/-! ## The shapes that deliver -/

/-- With no port behind sB the seed of a chain over no strand is that of R112. -/
theorem chainSeed_unbound {o : SGUDAB} {f : Fibre} (ident : Word) (s : State) (h : o.u = 1 → f.bound o.b.toNat = none) :
    chainSeed o ident [] f s = (if o.u = 1 then f.laneS o.b.toNat else ident, s) := by
  unfold chainSeed
  split
  · rename_i hu
    simp [h hu]
  · rfl

theorem deliveringWord_redWord {i : Instr} {o : SGUDAB} {op : Comb} {ident : Word} (h : ∀ s, exec i s = redWord o op ident s) :
    DeliveringWord i (Claims.redRow o op ident) := by
  refine ⟨rfl, _, h, fun wk w f s hports => ?_⟩
  have hb : o.u = 1 → f.bound o.b.toNat = none := fun hu => hports _ (by
    simp [Claims.redRow, Claims.seedReads, Use.named, singles, xUse, lUse, hu])
  generalize (Claims.redRow o op ident).use = u
  refine ⟨((f.fixNamed u).putS o.d.toNat (Claims.combined o op ident f []).1).sticky 0, ?_, ?_⟩
  · have hseed := chainSeed_unbound (f := f.fixNamed u) ident s hb
    simp only [hseed]
    rfl
  · have hwrote := (wrote_putS (f.fixNamed u) o.d.toNat (Claims.combined o op ident f []).1 o.d.isLt).trans (wrote_sticky _ 0)
    rw [List.append_nil, BitVec.or_self] at hwrote
    exact hwrote

theorem deliveringWord_redixWord {i : Instr} {o : SGDA} {better : Word → Word → Bool} {ident : Word} (hd : o.d.toNat + 1 < 64)
    (h : ∀ s, exec i s = redixWord o better ident s) : DeliveringWord i (Claims.redixRow o better ident) :=
  ⟨rfl, _, h, fun _ _ f _ _ => ⟨_, rfl, wrote_putS64 (f.fixNamed _) o.d.toNat _ hd⟩⟩

theorem deliveringWord_pick {o : SGDA} {r : RegWord} (h : Claims.laneExchange (.lPick o) = some r) : DeliveringWord (.lPick o) r := by
  have he : ∀ s, exec (.lPick o) s = execLPick o s := fun _ => rfl
  cases h
  exact ⟨rfl, _, he, fun _ _ f _ _ => ⟨_, rfl, wrote_putS (f.fixNamed _) o.d.toNat 0 o.d.isLt⟩⟩

theorem deliveringWord_ballot {o : SGDM} {r : RegWord} (h : Claims.laneExchange (.lBallot o) = some r) :
    DeliveringWord (.lBallot o) r := by
  have he : ∀ s, exec (.lBallot o) s = execLBallot o s := fun _ => rfl
  cases h
  exact ⟨rfl, _, he, fun _ _ f _ _ => ⟨_, rfl, wrote_putS (f.fixNamed _) o.d.toNat 0 o.d.isLt⟩⟩

theorem deliveringWord_voteAny (o : SGCM) : DeliveringWord (.lVoteAny o) (Claims.voteRow o fun l => l.contains true) :=
  have he : ∀ s, exec (.lVoteAny o) s = execLVoteAny o s := fun _ => rfl
  ⟨rfl, _, he, fun _ _ f _ _ => ⟨_, rfl, wrote_putC (f.fixNamed _) o.c.toNat false o.c.isLt⟩⟩

theorem deliveringWord_voteAll (o : SGCM) : DeliveringWord (.lVoteAll o) (Claims.voteRow o fun l => !l.contains false) :=
  have he : ∀ s, exec (.lVoteAll o) s = execLVoteAll o s := fun _ => rfl
  ⟨rfl, _, he, fun _ _ f _ _ => ⟨_, rfl, wrote_putC (f.fixNamed _) o.c.toNat true o.c.isLt⟩⟩

/-! ## The tables -/

theorem plainWord_of_laneInt {i : Instr} {r : RegWord} (h : Claims.laneInt i = some r) : PlainWord i r.use := by
  unfold Claims.laneInt at h
  split at h <;> cases h
  case h_35 | h_36 => exact plainWord_laneCmp fun _ => rfl
  case h_43 o => exact plainWord_pset o
  all_goals exact plainWord_laneWord fun _ => rfl

theorem plainWord_of_laneFloat {i : Instr} {r : RegWord} (h : Claims.laneFloat i = some r) : PlainWord i r.use := by
  unfold Claims.laneFloat at h
  split at h <;> cases h
  case h_9 | h_10 => exact plainWord_laneCmp fun _ => rfl
  all_goals exact plainWord_laneWord fun _ => rfl

theorem plainWord_of_uniInt {i : Instr} {r : RegWord} (h : Claims.uniInt i = some r) : PlainWord i r.use := by
  unfold Claims.uniInt at h
  split at h <;> cases h
  case h_35 | h_36 | h_37 | h_44 => exact plainWord_uniCmp fun _ => rfl
  case h_42 | h_43 | h_50 => exact plainWord_uniWide rfl fun _ => rfl
  all_goals exact plainWord_uniWord rfl fun _ => rfl

theorem plainWord_of_uniFloat {i : Instr} {r : RegWord} (h : Claims.uniFloat i = some r) : PlainWord i r.use := by
  unfold Claims.uniFloat at h
  split at h <;> cases h
  case h_9 | h_10 => exact plainWord_uniCmp fun _ => rfl
  all_goals exact plainWord_uniWord rfl fun _ => rfl

/-- The pair that a `redix` writes ends within the file (02 R41). -/
theorem pairDst_lt {d : BitVec 6} (h : pairDst d = true) : d.toNat + 1 < 64 := by
  have := d.isLt
  simp only [pairDst, even, Bool.and_eq_true, beq_iff_eq] at h
  omega

theorem plain_or_delivering_of_laneExchange {i : Instr} {r : RegWord} (h : Claims.laneExchange i = some r) (hwf : i.wf = true) :
    PlainWord i r.use ∨ DeliveringWord i r := by
  have hall := h
  unfold Claims.laneExchange at h
  split at h <;> cases h
  case h_8 | h_9 | h_10 | h_11 => exact .inl (plainWord_scanWord fun _ => rfl)
  case h_12 | h_13 | h_14 | h_15 => exact .inr (deliveringWord_redWord fun _ => rfl)
  case h_16 | h_17 | h_18 | h_19 => exact .inr (deliveringWord_redixWord (pairDst_lt hwf) fun _ => rfl)
  case h_20 => exact .inr (deliveringWord_pick hall)
  case h_21 o => exact .inr (deliveringWord_voteAny o)
  case h_22 o => exact .inr (deliveringWord_voteAll o)
  case h_23 => exact .inr (deliveringWord_ballot hall)
  all_goals exact .inl (plainWord_exchange fun _ => rfl)

theorem plain_or_delivering {i : Instr} {r : RegWord} (h : Claims.registerWords i = some r) (hwf : i.wf = true) :
    PlainWord i r.use ∨ DeliveringWord i r := by
  simp only [Claims.registerWords, Option.or_eq_some_iff] at h
  rcases h with h | ⟨-, h | ⟨-, h | ⟨-, h | ⟨-, h⟩⟩⟩⟩
  · exact .inl (plainWord_of_laneInt h)
  · exact .inl (plainWord_of_laneFloat h)
  · exact plain_or_delivering_of_laneExchange h hwf
  · exact .inl (plainWord_of_uniInt h)
  · exact .inl (plainWord_of_uniFloat h)

/-- Settles O7: the common part of execution retires a word with an empty Active, and only the words of 05 R113 to R115
deliver. -/
theorem emptyWordsHaveNoEffect : Obligations.EmptyWordsHaveNoEffect := by
  intro i r s w f hi hwf hw hf hact hclear hnamed
  rcases plain_or_delivering hi hwf with ⟨hplain, body, he⟩ | ⟨halways, body, he, hdelivers⟩
  · have hnext := word_empty (body := body) hw hf hact hclear (by simp [hplain])
    rw [emptyRes_plain hplain] at hnext
    exact ⟨f, (he s).trans hnext, by simp [hplain]⟩
  · have hports : ∀ n ∈ r.use.named, f.bound n = none := fun n hn => (hnamed n hn).1
    have howed : owed f r.use = false := owed_of_free fun n hn => (hnamed n hn).2 halways
    obtain ⟨h, hb, hwrote⟩ := hdelivers s.cur.wk w f s hports
    have hnext := word_empty (body := body) hw hf hact hclear (by simp [howed])
    rw [emptyRes_delivers halways hports hb] at hnext
    exact ⟨h, (he s).trans hnext, by rw [if_pos halways]; exact hwrote⟩

end Sys2Proof.Machine
end

section
/-! # The sequential machine: one step (01 R9, R13; 02 R35; 21 R363) -/

namespace Sys2Proof.Machine

/-! ## Whose step it is -/

theorem step_of_agents_nil {s : State} (h : agents s.advance = []) : step s = .next s.advance := by
  rw [step, h, oneActs]

theorem step_of_agents_one {s : State} {a : Agent} (h : agents s.advance = [a]) : step s = act a s.advance := by
  rw [step, h, oneActs]

/-- Of several agents the free value chooses one that can act. -/
theorem oneActs_mem (as : List Agent) (s : State) (h : 2 ≤ as.length) :
    ∃ a ∈ as, oneActs as s = act a { s with free := s.free + 1 } := by
  match as, h with
  | a :: b :: rest, _ =>
    have hlt : Config.choose s.free % (a :: b :: rest).length < (a :: b :: rest).length := Nat.mod_lt _ (by simp)
    refine ⟨(a :: b :: rest).getD (Config.choose s.free % (a :: b :: rest).length) a, ?_, rfl⟩
    rw [List.getD_eq_getElem _ _ hlt]
    exact List.getElem_mem hlt

/-! ## A fibre's step -/

theorem laneFree_eq_freeLane (s : State) (w : Workgroup) (f : Fibre) : s.laneFree w f = Claims.freeLane s w f := rfl

theorem step_fibre_fetchFault {s : State} {wk fid : Nat} {w : Workgroup} {f : Fibre} {x : Trap}
    (ha : agents s.advance = [.fibre wk fid]) (hw : s.advance.wg wk = some w) (hf : w.fibres.find fid = some f)
    (hx : fetchBytes { s.advance with cur := ⟨wk, fid, 4⟩ } w f = .error x) :
    step s = .next ((State.faultWalk { s.advance with cur := ⟨wk, fid, 4⟩ } w.tenant x.addr.toNat x).raiseFetch wk w f x) := by
  rw [step_of_agents_one ha, act, issueFibre, hw]
  simp only [hf, hx]

theorem step_fibre_undecoded {s t : State} {wk fid : Nat} {w : Workgroup} {f : Fibre} {b : List Byte} {e : DecodeError}
    (ha : agents s.advance = [.fibre wk fid]) (hw : s.advance.wg wk = some w) (hf : w.fibres.find fid = some f)
    (hb : fetchBytes { s.advance with cur := ⟨wk, fid, 4⟩ } w f = .ok (b, t)) (he : decodeBytes b = .error e) :
    step s = .next (t.raiseAt wk w f (decodeTrap e) 0) := by
  rw [step_of_agents_one ha, act, issueFibre, hw]
  simp only [hf, hb, he]

/-- A word that decodes is executed; in deterministic mode an L word issues only on a free lane (04 R81, R83). -/
theorem step_fibre_decoded {s t : State} {wk fid : Nat} {w : Workgroup} {f : Fibre} {b : List Byte} {i : Instr} {rest : List Byte}
    (ha : agents s.advance = [.fibre wk fid]) (hw : s.advance.wg wk = some w) (hf : w.fibres.find fid = some f)
    (hb : fetchBytes { s.advance with cur := ⟨wk, fid, 4⟩ } w f = .ok (b, t)) (hi : decodeBytes b = .ok (i, rest)) :
    step s =
      if bit (wordAt b 0) 31 || t.laneFree w f then exec i ((t.lookAround wk w i).putFibre wk (f.begin b t.cycles))
      else .next (t.putFibre wk (f.passSlot t.cycles)) := by
  rw [step_of_agents_one ha, act, issueFibre, hw]
  simp only [hf, hb, hi]

theorem fibreStep : Claims.FibreStep := fun _ _ _ _ _ _ _ ha hw hf hb =>
  ⟨fun _ _ hi => step_fibre_decoded ha hw hf hb hi, fun _ he => step_fibre_undecoded ha hw hf hb he⟩

theorem fetchFaults : Claims.FetchFaults := fun _ _ _ _ _ _ ha hw hf hx => step_fibre_fetchFault ha hw hf hx

/-! ## What a fetch reads (07 R132, R136) -/

theorem byteAt_congr {s t : State} (hm : t.mem = s.mem) (hw : t.wgs = s.wgs) (x : Nat) : t.byteAt x = s.byteAt x := by
  rw [State.byteAt, State.byteAt, hm, hw]

theorem poisoned_congr {s t : State} (hw : t.wgs = s.wgs) (hp : t.poison = s.poison) (hs : t.stale = s.stale) (pa n : Nat) :
    t.poisoned pa n = s.poisoned pa n := by
  rw [State.poisoned, State.poisoned, hw, hp, hs]

/-- A look into the instruction cache answers a word that it holds, or none; it changes the core's cache and the count of
free values alone. -/
theorem iLook_cases (s : State) (c asid va : Nat) :
    (∃ l ∈ (s.core c).icache, l.asid = asid ∧ l.va = va ∧ (s.iLook c asid va).1 = some l.bytes) ∨
      (s.iLook c asid va).1 = none := by
  unfold State.iLook
  split
  · exact .inr rfl
  · rename_i l hl
    have hkey : l.asid = asid ∧ l.va = va := by simpa using List.find?_some hl
    dsimp only
    split
    · exact .inl ⟨l, List.mem_of_find?_eq_some hl, hkey.1, hkey.2, rfl⟩
    · exact .inr rfl

theorem iLook_rest (s : State) (c asid va : Nat) :
    (s.iLook c asid va).2.mem = s.mem ∧ (s.iLook c asid va).2.wgs = s.wgs ∧ (s.iLook c asid va).2.poison = s.poison ∧
      (s.iLook c asid va).2.stale = s.stale := by
  unfold State.iLook
  split
  · exact ⟨rfl, rfl, rfl, rfl⟩
  · dsimp only
    split <;> exact ⟨rfl, rfl, rfl, rfl⟩

theorem sliceRead_mem (s : State) (c : Option Nat) (pa n : Nat) :
    (s.sliceRead c pa n).2.mem = (s.recall true pa n).mem ∧ (s.sliceRead c pa n).2.wgs = (s.recall true pa n).wgs := by
  have hd := disown_mem (s.recall true pa n) c (lineOf pa)
  have hv := verify_mem ((s.recall true pa n).disown c (lineOf pa)) pa n
  exact ⟨hv.1.trans hd.1, hv.2.trans hd.2⟩

/-- A read at a slice changes no byte as agents read it. -/
theorem sameBytes_sliceRead (s : State) (c : Option Nat) (pa n : Nat) (hm : s.memCanonical) :
    Claims.sameBytes s (s.sliceRead c pa n).2 := fun x => by
  have h := sliceRead_mem s c pa n
  rw [byteAt_congr h.1 h.2, byteAt_recall s true pa n x hm]

/-- A read at a slice answers the bytes at the point of coherence: its recall leaves no dirty line over them. -/
theorem sliceRead_bytes (s : State) (c : Option Nat) (pa n : Nat) (hm : s.memCanonical) :
    (s.sliceRead c pa n).1 = Claims.bytesAt s pa n := by
  have hmem : (s.sliceRead c pa n).1 = cellRead (s.recall true pa n).mem pa n :=
    congrArg (cellRead · pa n) (sliceRead_mem s c pa n).1
  rw [hmem, cellRead, Claims.bytesAt]
  refine List.map_congr_left fun k hk => ?_
  have hk : k < n := List.mem_range.mp hk
  have hclean := clean_recall s true pa n (pa + k) hm (by omega) (by omega)
  rw [← byteAt_recall s true pa n (pa + k) hm, State.byteAt, cohByte_clean _ _ _ hclean]

section
variable {s t u : State} {w : Workgroup} {a : DWord} {pa : Nat} {e : TlbEntry}

/-- A global address outside the tenant's fabric windows passes the first check of a fetch. -/
theorem fetch_inside (hlo : a.toNat < 2 ^ 56) (hwin : s.windowOf w.tenant a.toNat = none) :
    ¬(a.toNat / 2 ^ 56 ≠ 0 ∨ (s.windowOf w.tenant a.toNat).isSome = true) := by
  rintro (hhi | hsome)
  · exact hhi (Nat.div_eq_of_lt hlo)
  · simp [hwin] at hsome

/-- A permitted fetch of a word that the core's instruction cache holds. -/
theorem fetchWord_cached {b : List Byte} (hlo : a.toNat < 2 ^ 56) (hwin : s.windowOf w.tenant a.toNat = none)
    (ht : s.translate (clusterOf w.core) w.tenant a.toNat 4 false a = .ok (pa, e, t)) (hx : e.x = true)
    (hl : t.iLook w.core e.asid a.toNat = (some b, u)) : fetchWord s w a = .ok (b, u) := by
  rw [fetchWord, if_neg (fetch_inside hlo hwin), ht]
  simp only [hx, Bool.not_true, Bool.false_eq_true, if_false, hl]

/-- A permitted fetch of any other word: it is read at its slice, and kept. -/
theorem fetchWord_read (hlo : a.toNat < 2 ^ 56) (hwin : s.windowOf w.tenant a.toNat = none)
    (ht : s.translate (clusterOf w.core) w.tenant a.toNat 4 false a = .ok (pa, e, t)) (hx : e.x = true)
    (hl : t.iLook w.core e.asid a.toNat = (none, u)) (hclean : u.poisoned pa 4 = false) :
    fetchWord s w a =
      .ok ((u.sliceRead (some w.core) pa 4).1,
        (u.sliceRead (some w.core) pa 4).2.iFill w.core e.asid a.toNat (u.sliceRead (some w.core) pa 4).1) := by
  rw [fetchWord, if_neg (fetch_inside hlo hwin), ht]
  simp only [hx, Bool.not_true, Bool.false_eq_true, if_false, hl, hclean]

end

theorem fetchReadsMemory : Claims.FetchReadsMemory := by
  intro s w a pa e t hlo hwin ht hx hclean hm
  obtain ⟨hmem, hwgs, hpoison, hstale⟩ := iLook_rest t w.core e.asid a.toNat
  have hsame := byteAt_congr hmem hwgs
  rcases iLook_cases t w.core e.asid a.toNat with ⟨l, hl, hasid, hva, hb⟩ | hnone
  · exact ⟨l.bytes, _, fetchWord_cached hlo hwin ht hx (Prod.ext hb rfl), hsame, .inr ⟨l, hl, hasid, hva, rfl⟩⟩
  · have hm' : (t.iLook w.core e.asid a.toNat).2.memCanonical := by rw [State.memCanonical, hmem]; exact hm
    have hclean' := (poisoned_congr hwgs hpoison hstale pa 4).trans hclean
    refine ⟨_, _, fetchWord_read hlo hwin ht hx (Prod.ext hnone rfl) hclean', fun x => ?_, .inl ?_⟩
    · exact (sameBytes_sliceRead _ (some w.core) pa 4 hm' x).trans (hsame x)
    · rw [sliceRead_bytes _ (some w.core) pa 4 hm']
      exact List.map_congr_left fun k _ => hsame _

/-! ## A Samovar core's step (21 R363, R364) -/

theorem step_samovar {s : State} {k : Nat} (ha : agents s.advance = [.samovar k]) : step s = issueSam k s.advance :=
  step_of_agents_one ha

theorem issueSam_interrupt {s : State} {k n : Nat} (h : (s.samCore k).takes = some n) :
    issueSam k s = .next (s.putSam k ((s.samCore k).interrupt n)) := by
  rw [issueSam]
  simp only [h]

section
variable {s t : State} {k : Nat}

theorem issueSam_unfetched {a : DWord} (hn : (s.samCore k).takes = none) (hf : s.samFetch k = (.error a, t)) :
    issueSam k s = .next (t.putSam k ((s.samCore k).trap 1 a)) := by
  rw [issueSam]
  simp only [hn, hf]

theorem issueSam_compressed {h : Nat} (hn : (s.samCore k).takes = none) (hf : s.samFetch k = (.ok (.inl h), t)) :
    issueSam k s = .next (t.samStep k (.inl h)) := by
  rw [issueSam]
  simp only [hn, hf]

/-- A full word goes by its opcode: the custom words of Table 21-4, or the base set. -/
theorem issueSam_word {x : Word} (hn : (s.samCore k).takes = none) (hf : s.samFetch k = (.ok (.inr x), t)) :
    issueSam k s = if fld x 0 7 = 0x0B then issueCustom k x t else .next (t.samStep k (.inr x)) := by
  rw [issueSam]
  simp only [hn, hf]

end

theorem issueCustom_decoded {s : State} {k : Nat} {x : Word} {i : Instr} (h : decodeSamovar x = .ok i) :
    issueCustom k x s = exec i { s with cur := ⟨0, 0, k⟩ } := by
  rw [issueCustom, h]

theorem issueCustom_illegal {s : State} {k : Nat} {x : Word} {e : DecodeError} (h : decodeSamovar x = .error e) :
    issueCustom k x s = .next (s.putSam k ((s.samCore k).trap 2 (x.setWidth 64))) := by
  rw [issueCustom, h]

theorem samovarStep : Claims.SamovarStep := by
  intro s k ha
  simp only [step_samovar ha]
  refine ⟨fun n hn => issueSam_interrupt hn, fun hn =>
    ⟨fun x i hx hop hi => ?_, fun x e hx hop he => ?_, fun x hx hop => ?_, fun h hx => ?_, fun a hx => ?_⟩⟩
  · rw [issueSam_word hn (Prod.ext hx rfl), if_pos hop, issueCustom_decoded hi]
  · rw [issueSam_word hn (Prod.ext hx rfl), if_pos hop, issueCustom_illegal he]
  · rw [issueSam_word hn (Prod.ext hx rfl), if_neg hop]
  · exact issueSam_compressed hn (Prod.ext hx rfl)
  · exact issueSam_unfetched hn (Prod.ext hx rfl)

/-! ## Steps of other agents -/

theorem eventStep : Claims.EventStep := by
  refine ⟨fun s i ha => step_of_agents_one ha, fun s i is ha hin henc => ?_⟩
  have hstim : isStimulus i = true := by rw [isStimulus, henc]; rfl
  rw [step_of_agents_one ha, act, hin]
  simp only [stimulate, hstim, if_true]

theorem oneAgentActs : Claims.OneAgentActs :=
  ⟨fun _ h => step_of_agents_nil h, fun s h => oneActs_mem (agents s.advance) s.advance h⟩

/-- Settles O59: the six ways of a step, each by what `step` unfolds to once it is known who acts. -/
theorem stepRunsTheInstruction : Obligations.StepRunsTheInstruction :=
  ⟨fibreStep, fetchFaults, fetchReadsMemory, samovarStep, eventStep, oneAgentActs⟩

end Sys2Proof.Machine
end

section
/-! # Encoding and decoding (02 R35 to R49; 21 R364) -/

namespace Sys2Proof.Machine

/-! ## Bits of a word packed from fields -/

section
variable {n m lo k : Nat}

/-- A field that lies within the lower part; both bounds are inequalities between numerals once `lo`, `k` and `m` are. -/
theorem extract_append_low (x : BitVec n) (y : BitVec m) (h : lo ≤ m) (hk : k ≤ m - lo) :
    (x ++ y).extractLsb' lo k = y.extractLsb' lo k :=
  BitVec.extractLsb'_append_eq_of_add_le (by omega)

/-- A mask applied to two packed parts is applied to each. -/
theorem append_and_eq_iff (x : BitVec n) (y : BitVec m) (c v : Nat) :
    (x ++ y).toNat &&& c = v ↔ x.toNat &&& c >>> m = v >>> m ∧ y.toNat &&& c % 2 ^ m = v % 2 ^ m := by
  have hlow : (x ++ y).toNat % 2 ^ m = y.toNat := by
    rw [← BitVec.toNat_setWidth, BitVec.setWidth_append_eq_right]
  have hhigh : (x ++ y).toNat >>> m = x.toNat := by
    rw [BitVec.toNat_append, Nat.shiftRight_or_distrib, Nat.shiftLeft_shiftRight, Nat.shiftRight_eq_zero _ _ y.isLt,
      Nat.or_zero]
  constructor
  · rintro rfl
    rw [Nat.shiftRight_and_distrib, Nat.and_mod_two_pow, hlow, hhigh]
    exact ⟨rfl, rfl⟩
  · rintro ⟨hx, hy⟩
    rw [← hhigh, ← Nat.shiftRight_and_distrib, Nat.shiftRight_eq_div_pow, Nat.shiftRight_eq_div_pow] at hx
    rw [← hlow, ← Nat.and_mod_two_pow] at hy
    rw [← Nat.div_add_mod ((x ++ y).toNat &&& c) (2 ^ m), hx, hy, Nat.div_add_mod]

end

section
variable {v w : Word}

/-- A field of the word that `v` packs. -/
theorem fld_packed (h : v = w) (lo k : Nat) : fld w lo k = v.extractLsb' lo k := h ▸ rfl

/-- The check of must-be-zero bits, or of a constant field, on the word that `v` packs. -/
theorem mask_packed (h : v = w) (c d : Nat) :
    w &&& BitVec.ofNat 32 c = BitVec.ofNat 32 d ↔ v.toNat &&& c % 2 ^ 32 = d % 2 ^ 32 := by
  rw [← h, ← BitVec.toNat_inj, BitVec.toNat_and, BitVec.toNat_ofNat, BitVec.toNat_ofNat]

end

/-! ## Words and bytes -/

theorem word4_wordBytes (w : Word) : word4 (fld w 0 8) (fld w 8 8) (fld w 16 8) (fld w 24 8) = w := by
  unfold word4 fld
  rw [BitVec.extractLsb'_append_extractLsb'_eq_extractLsb' (start₂ := 24) (start₁ := 16) rfl,
    BitVec.extractLsb'_append_extractLsb'_eq_extractLsb' (start₂ := 16) (start₁ := 8) rfl,
    BitVec.extractLsb'_append_extractLsb'_eq_extractLsb' (start₂ := 8) (start₁ := 0) rfl]
  exact BitVec.extractLsb'_eq_self

@[simp] theorem takeWord_wordBytes (w : Word) (rest : List Byte) : takeWord (wordBytes w ++ rest) = some (w, rest) := by
  simp only [wordBytes, List.cons_append, List.nil_append, takeWord, word4_wordBytes]

/-- A word that the map sends to a well-formed row decodes to it. -/
theorem decodeTifenko_row {w d : Word} {i : Instr} (hm : mapWord w d = .row (some i)) (hwf : i.wf = true) :
    decodeTifenko w d = .ok i := by
  rw [decodeTifenko, hm]
  simp only [hwf, if_true]

/-! ## What the maps must say of an instruction's words -/

/-- The words `ws` are read as one instruction, and the maps of Tables 2-5 and 2-6 send them to the row of `i`; only a
`lit` has a second word (R39). -/
def MapsBack (i : Instr) : List Word → Prop
  | [] => True
  | [w] => isLit w = false ∧ mapWord w 0 = .row (some i)
  | [w, d] => isLit w = true ∧ mapWord w d = .row (some i)
  | _ => False

theorem decodeBytes_of_mapsBack {i : Instr} (hwf : i.wf = true) :
    ∀ {ws : List Word}, MapsBack i ws → ws ≠ [] → decodeBytes (ws.flatMap wordBytes) = .ok (i, [])
  | [], _, hne => absurd rfl hne
  | [w], ⟨hlit, hm⟩, _ => by
    rw [decodeBytes, List.flatMap_cons, List.flatMap_nil, takeWord_wordBytes]
    simp only [hlit, Bool.false_eq_true, if_false, decodeTifenko_row hm hwf]
    rfl
  | [w, d], ⟨hlit, hm⟩, _ => by
    rw [decodeBytes, List.flatMap_cons, List.flatMap_cons, List.flatMap_nil, takeWord_wordBytes]
    simp only [hlit, if_true, takeWord_wordBytes, decodeTifenko_row hm hwf]
    rfl

section
variable {i : Instr} {x : Word}

/-- An L-set word; it is stated of a variable equal to `x`, so that the map is not unfolded on the packed fields. -/
theorem mapsBack_lane (h : ∀ w, x = w → fld w 31 1 = 0 ∧ mapL w = .row (some i)) : MapsBack i [x] := by
  obtain ⟨hset, hmap⟩ := h x rfl
  exact ⟨by simp [isLit, hset], by rw [mapWord, if_pos hset, hmap]⟩

/-- A U-set word that is no `lit`. -/
theorem mapsBack_uniform (h : ∀ w, x = w → fld w 31 1 = 1 ∧ fld w 21 6 ≠ 0x1B ∧ mapU w 0 = .row (some i)) :
    MapsBack i [x] := by
  obtain ⟨hset, hop, hmap⟩ := h x rfl
  exact ⟨by simpa [isLit, hset] using hop, by rw [mapWord, if_neg (by simp [hset]), hmap]⟩

/-- A `lit` and its data word. -/
theorem mapsBack_lit {d : Word} (h : ∀ w, x = w → fld w 31 1 = 1 ∧ fld w 21 6 = 0x1B ∧ mapU w d = .row (some i)) :
    MapsBack i [x, d] := by
  obtain ⟨hset, hop, hmap⟩ := h x rfl
  exact ⟨by simp [isLit, hset, hop], by rw [mapWord, if_neg (by simp [hset]), hmap]⟩

end

/-- A row found by evaluation, and then rewritten. -/
theorem row_trans {m : Mapped} {r r' : Option Instr} (hm : m = .row r) (hr : r = r') : m = .row r' :=
  hm.trans (congrArg _ hr)

/-! ## The rows of the opcode table

`Instr` has one constructor for each row, in the table's order, so that a range of rows is a range of constructors. The four
theorems below each take a range of rows. Every row is read in one way: the fields that choose it (set, major, FN) are
constants of the packed word, and with them the map is its row, whose operands and must-be-zero bits are again fields of the
packed word. -/

/-- A row with words of a fibre. -/
def isWord (i : Instr) : Bool := !isStimulus i && !Claims.isSamovar i

/-- `i` stands before `j` in the opcode table. -/
def before (j i : Instr) : Bool := i.ctorIdx < j.ctorIdx

/-- L major 0x20: the rows before it are the lane arithmetic. -/
abbrev firstExchange : Instr := .lXch ⟨0, 0, 0, 0, 0, 0⟩

/-- U major 0x00: the rows before it are Table 2-5. -/
abbrev firstUniform : Instr := .uAdd ⟨0, 0, 0, 0, 0, 0⟩

/-- U major 0x28: the U-set rows before it are arithmetic and control flow. -/
abbrev firstUniformMemory : Instr := .uLd ⟨0, 0, 0, 0, 0, 0⟩

/-- Table 2-5, majors 0x00 to 0x1D. -/
theorem mapsBack_laneArithmetic {i : Instr} (h : (isWord i && before firstExchange i) = true) : MapsBack i (encode i) := by
  cases i with
  | lAdd o | lAddSatI32 o | lAddSatN32 o | lSub o | lSubSatI32 o | lSubSatN32 o | lMul o | lMulhI32 o | lMulhN32 o
  | lMad o | lMinI32 o | lMinN32 o | lMaxI32 o | lMaxN32 o | lAnd o | lOr o | lXor o | lAndn o | lShl o | lShr o
  | lSar o | lRol o | lPopc o | lClz o | lBrev o | lFfs o | lBfxI32 o | lBfxN32 o | lBfi o | lSel o | lCmpI32 o
  | lCmpN32 o | lAminI32 o | lAminN32 o | lAmaxI32 o | lAmaxN32 o | lMov o | lSid o | lLid o | lFadd o | lFsub o
  | lFmul o | lFfma o | lFmin o | lFmax o | lFminNan o | lFmaxNan o | lFcmp o | lFcmpUn o | lFrcp o | lFrsq o
  | lFex2 o | lFlg2 o | lCvtiI32F32 o | lCvtiN32F32 o | lCvtiF32I32 o | lCvtiF32N32 o | lCvtfBf16x2F32 o
  | lCvtfF32Bf16 o | lCvtfF16x2F32 o | lCvtfF32F16 o | lCvt8E4m3F32 o | lCvt8E5m2F32 o | lCvt8F32E4m3 o
  | lCvt8F32E5m2 o | lHadd2Bf16 o | lHadd2F16 o | lHmul2Bf16 o | lHmul2F16 o | lHfma2Bf16 o | lHfma2F16 o | lFabs o
  | lFneg o | lFcopysign o =>
    refine mapsBack_lane fun w hw => ?_
    have hset := fld_packed hw 31 1
    have hop := fld_packed hw 21 6
    have hfn := fld_packed hw 19 2
    simp only [BitVec.extractLsb'_append_eq_of_le, extract_append_low, Nat.reduceSub, Nat.reduceLeDiff,
      BitVec.extractLsb'_eq_self, BitVec.reduceExtractLsb'] at hset hop hfn
    refine ⟨hset, ?_⟩
    rw [mapL, hop, hfn]
    refine row_trans rfl ?_
    simp only [fld_packed hw, mask_packed hw, append_and_eq_iff, BitVec.extractLsb'_append_eq_of_le, extract_append_low,
      Nat.reduceSub, Nat.reduceLeDiff, BitVec.extractLsb'_eq_self, BitVec.reduceToNat, Nat.reduceShiftRight,
      Nat.reduceMod, Nat.reducePow, Nat.reduceAnd, Nat.and_zero, Nat.zero_and, and_self, if_true]
  | _ => exact absurd h Bool.false_ne_true

/-- Table 2-5, majors 0x20 to 0x39. -/
theorem mapsBack_laneRest {i : Instr} (h : (isWord i && !before firstExchange i && before firstUniform i) = true) :
    MapsBack i (encode i) := by
  cases i with
  | lXch o | lXchImm o | lXchXor o | lShup o | lShdn o | lShupWrap o | lShdnWrap o | lScanAddI32 o | lScanAddF32 o
  | lScanMinI32 o | lScanMaxI32 o | lRedAddI32 o | lRedAddF32 o | lRedAnd o | lRedOr o | lRedixMinI32 o
  | lRedixMinN32 o | lRedixMaxI32 o | lRedixMaxN32 o | lPick o | lVoteAny o | lVoteAll o | lBallot o | lDbr o
  | lDmark o | lJoin o | lExit o | lPset o | lPget o | lAddi o | lMovi o | lMuli o | lLd o | lSt o | lLdAcq o
  | lStRel o | lAtom o | lAtomxXchg o | lAtomxCas o | lAtomxAddF32 o | lRatom o | lRatomAddF32 o | lPf o | lLdNc o
  | lStNc o =>
    refine mapsBack_lane fun w hw => ?_
    have hset := fld_packed hw 31 1
    have hop := fld_packed hw 21 6
    have hfn := fld_packed hw 19 2
    simp only [BitVec.extractLsb'_append_eq_of_le, extract_append_low, Nat.reduceSub, Nat.reduceLeDiff,
      BitVec.extractLsb'_eq_self, BitVec.reduceExtractLsb'] at hset hop hfn
    refine ⟨hset, ?_⟩
    rw [mapL, hop, hfn]
    refine row_trans rfl ?_
    simp only [fld_packed hw, mask_packed hw, append_and_eq_iff, BitVec.extractLsb'_append_eq_of_le, extract_append_low,
      Nat.reduceSub, Nat.reduceLeDiff, BitVec.extractLsb'_eq_self, BitVec.reduceExtractLsb', BitVec.reduceToNat,
      Nat.reduceShiftRight, Nat.reduceMod, Nat.reducePow, Nat.reduceAnd, Nat.and_zero, Nat.zero_and, and_self, if_true,
      and_false, if_false, Nat.reduceEqDiff, Nat.one_ne_zero, true_and, and_true]
  | _ => exact absurd h Bool.false_ne_true

theorem mapsBack_uLit (o : SGDV) : MapsBack (.uLit o) (encode (.uLit o)) := by
  refine mapsBack_lit fun w hw => ?_
  have hset := fld_packed hw 31 1
  have hop := fld_packed hw 21 6
  simp only [BitVec.extractLsb'_append_eq_of_le, extract_append_low, Nat.reduceSub, Nat.reduceLeDiff,
    BitVec.extractLsb'_eq_self] at hset hop
  refine ⟨hset, hop, ?_⟩
  rw [mapU, hop]
  refine row_trans rfl ?_
  simp only [fld_packed hw, mask_packed hw, append_and_eq_iff, BitVec.extractLsb'_append_eq_of_le, extract_append_low,
    Nat.reduceSub, Nat.reduceLeDiff, BitVec.extractLsb'_eq_self, BitVec.reduceToNat, Nat.reduceShiftRight, Nat.reduceMod,
    Nat.reducePow, Nat.and_zero, Nat.zero_and, and_self, if_true]

/-- Table 2-6, majors 0x00 to 0x27. -/
theorem mapsBack_uniformControl {i : Instr}
    (h : (isWord i && !before firstUniform i && before firstUniformMemory i) = true) : MapsBack i (encode i) := by
  cases i with
  | uAdd o | uAddSatI32 o | uAddSatN32 o | uSub o | uSubSatI32 o | uSubSatN32 o | uMul o | uMulhI32 o | uMulhN32 o
  | uMad o | uMinI32 o | uMinN32 o | uMaxI32 o | uMaxN32 o | uAnd o | uOr o | uXor o | uAndn o | uShl o | uShr o
  | uSar o | uRol o | uPopc o | uClz o | uBrev o | uFfs o | uBfxI32 o | uBfxN32 o | uBfi o | uSel o | uCmpI32 o
  | uCmpN32 o | uAminI32 o | uAminN32 o | uAmaxI32 o | uAmaxN32 o | uDivI32 o | uDivN32 o | uRemI32 o | uRemN32 o
  | uAdd64 o | uSub64 o | uCmp64 o | uFadd o | uFsub o | uFmul o | uFfma o | uFmin o | uFmax o | uFminNan o
  | uFmaxNan o | uFcmp o | uFcmpUn o | uFrcp o | uFrsq o | uFex2 o | uFlg2 o | uCvtiI32F32 o | uCvtiN32F32 o
  | uCvtiF32I32 o | uCvtiF32N32 o | uAddi o | uLi o | uLui o | uCmpi o | uMuli o | uAddi64 o | br o | call o | jr o
  | callr o | ret o | loopW o | rotset o | rotbase o | fork o | fctlEnd o | yield o | vgrow o | vshrink o | trap o
  | tret o | brk o | nop o =>
    refine mapsBack_uniform fun w hw => ?_
    have hset := fld_packed hw 31 1
    have hop := fld_packed hw 21 6
    have hfn := fld_packed hw 19 2
    simp only [BitVec.extractLsb'_append_eq_of_le, extract_append_low, Nat.reduceSub, Nat.reduceLeDiff,
      BitVec.extractLsb'_eq_self, BitVec.reduceExtractLsb'] at hset hop hfn
    refine ⟨hset, by rw [hop]; decide, ?_⟩
    rw [mapU, hop, hfn]
    refine row_trans rfl ?_
    simp only [fld_packed hw, mask_packed hw, append_and_eq_iff, BitVec.extractLsb'_append_eq_of_le, extract_append_low,
      Nat.reduceSub, Nat.reduceLeDiff, BitVec.extractLsb'_eq_self, BitVec.reduceToNat, Nat.reduceShiftRight,
      Nat.reduceMod, Nat.reducePow, Nat.reduceAnd, Nat.and_zero, Nat.zero_and, and_self, if_true]
  | uLit o => exact mapsBack_uLit o
  | _ => exact absurd h Bool.false_ne_true

/-- A mask over all of a register field. -/
theorem toNat_and_63 (r : BitVec 6) : r.toNat &&& 63 = r.toNat :=
  (Nat.and_two_pow_sub_one_eq_mod r.toNat 6).trans (Nat.mod_eq_of_lt r.isLt)

/-- `cpy` to several hitch members shares its major and FN with `cpy`, from which X tells it (13 R250). -/
theorem mapsBack_cpyMc (o : SGPXK) (hx : o.x ≠ 0) : MapsBack (.cpyMc o) (encode (.cpyMc o)) := by
  have hxne : o.x.toNat ≠ 0 := fun h => hx (BitVec.eq_of_toNat_eq h)
  refine mapsBack_uniform fun w hw => ?_
  have hset := fld_packed hw 31 1
  have hop := fld_packed hw 21 6
  have hfn := fld_packed hw 19 2
  simp only [BitVec.extractLsb'_append_eq_of_le, extract_append_low, Nat.reduceSub, Nat.reduceLeDiff,
    BitVec.extractLsb'_eq_self, BitVec.reduceExtractLsb'] at hset hop hfn
  refine ⟨hset, by rw [hop]; decide, ?_⟩
  rw [mapU, hop, hfn]
  refine row_trans rfl ?_
  simp only [fld_packed hw, mask_packed hw, append_and_eq_iff, BitVec.extractLsb'_append_eq_of_le, extract_append_low,
    Nat.reduceSub, Nat.reduceLeDiff, BitVec.extractLsb'_eq_self, BitVec.reduceToNat, Nat.reduceShiftRight, Nat.reduceMod,
    Nat.reducePow, Nat.and_zero, Nat.zero_and, and_self, if_true, toNat_and_63, hxne, and_false, false_and, if_false]

/-- Table 2-6, majors 0x28 to 0x3E. -/
theorem mapsBack_uniformRest {i : Instr} (hwf : i.wf = true) (h : (isWord i && !before firstUniformMemory i) = true) :
    MapsBack i (encode i) := by
  cases i with
  | uLd o | uSt o | uLdAcq o | uStRel o | uAtom o | uAtomxXchg o | uAtomxCas o | uAtomxAddF32 o | wb o | inv o
  | smap o | sunmap o | cwaitLd o | cwaitSt o | cwaitEng o | barArrive o | barWait o | barSync o | knotArrive o
  | knotWait o | knotSync o | qbind o | qgive o | qtry o | qclose o | tkwait o | tkpass o | tkpoll o | watchArm o
  | wwait o | disarm o | tokpass o | tokq o | trig o | post o | bcinit o | bcwait o | bcadd o | bcphase o | mma o
  | mswap o | mclr o | mflag o | cpy o | cpyr o | gath o | qdual o | ldrain o | samp o | rng o | repW o | seqnext o
  | tokdlv o | seqstop o | pgopAlloc o | pgopRef o | pgopUnref o | pgopCow o | pgopEvict o | pgopPromote o
  | pgopSend o | tset o | tanc o | tdepth o | tclr o | sysr o | sysw o | slackImm o | slackReg o | rdcnt o =>
    refine mapsBack_uniform fun w hw => ?_
    have hset := fld_packed hw 31 1
    have hop := fld_packed hw 21 6
    have hfn := fld_packed hw 19 2
    simp only [BitVec.extractLsb'_append_eq_of_le, extract_append_low, Nat.reduceSub, Nat.reduceLeDiff,
      BitVec.extractLsb'_eq_self, BitVec.reduceExtractLsb'] at hset hop hfn
    refine ⟨hset, by rw [hop]; decide, ?_⟩
    rw [mapU, hop, hfn]
    refine row_trans rfl ?_
    simp only [fld_packed hw, mask_packed hw, append_and_eq_iff, BitVec.extractLsb'_append_eq_of_le, extract_append_low,
      Nat.reduceSub, Nat.reduceLeDiff, BitVec.extractLsb'_eq_self, BitVec.reduceExtractLsb', BitVec.reduceToNat,
      Nat.reduceShiftRight, Nat.reduceMod, Nat.reducePow, Nat.reduceAnd, Nat.and_zero, Nat.zero_and, and_self, if_true,
      and_false, if_false, Nat.reduceEqDiff, Nat.one_ne_zero, false_and, and_true]
  | cpyMc o =>
    rw [Instr.wf, Bool.and_eq_true, bne_iff_ne] at hwf
    exact mapsBack_cpyMc o hwf.2
  | _ => exact absurd h Bool.false_ne_true

theorem mapsBack_encode {i : Instr} (hwf : i.wf = true) (hw : isWord i = true) : MapsBack i (encode i) := by
  cases hmem : before firstUniformMemory i
  · exact mapsBack_uniformRest hwf (by simp [hw, hmem])
  cases huni : before firstUniform i
  · exact mapsBack_uniformControl (by simp [hw, huni, hmem])
  cases hxch : before firstExchange i
  · exact mapsBack_laneRest (by simp [hw, hxch, huni])
  · exact mapsBack_laneArithmetic (by simp [hw, hxch])

/-! ## Samovar words (21 R364) -/

/-- The fields of a custom-0 word with funct3 `f`. -/
theorem samovar_fields {w : Word} {f : BitVec 3} {o : TSD}
    (hw : 0x0#7 ++ o.t ++ o.s ++ f ++ o.d ++ 0xb#7 = w) :
    (fld w 0 7 = 0x0B ∧ fld w 25 7 = 0) ∧ fld w 12 3 = f ∧ (⟨fld w 20 5, fld w 15 5, fld w 7 5⟩ : TSD) = o := by
  simp only [fld_packed hw, BitVec.extractLsb'_append_eq_of_le, extract_append_low, Nat.reduceSub, Nat.reduceLeDiff,
    BitVec.extractLsb'_eq_self, BitVec.ofNat_eq_ofNat, and_self]

theorem samovarWordDecodesBack {i : Instr} (h : Claims.isSamovar i = true) : ∃ x, encode i = [x] ∧ decodeSamovar x = .ok i := by
  cases i with
  | rgfetch o | bfext o | sigwait o | dispatch o =>
    refine ⟨_, rfl, ?_⟩
    obtain ⟨hcustom, hfunct, ho⟩ := samovar_fields (o := o) rfl
    rw [decodeSamovar, if_pos hcustom, hfunct]
    exact congrArg _ (congrArg _ ho)
  | _ => exact absurd h Bool.false_ne_true

/-! ## The statements -/

/-- Settles O58: the bytes of the words give the words back, and the maps send these to the instruction's row. -/
theorem wordsDecodeBack : Obligations.WordsDecodeBack := by
  refine ⟨fun i hwf hne hsam => decodeBytes_of_mapsBack hwf (mapsBack_encode hwf ?_) hne, fun _ => samovarWordDecodesBack⟩
  simp [isWord, isStimulus, hne, hsam]

/-- An instruction of one word decodes from the bytes of that word. -/
theorem decodeBytes_wordBytes {i : Instr} {w : Word} (he : encode i = [w]) (hwf : i.wf = true)
    (hsam : Claims.isSamovar i = false) : decodeBytes (wordBytes w) = .ok (i, []) := by
  have h := wordsDecodeBack.1 i hwf (by simp [he]) hsam
  rwa [Claims.bytesOf, he, List.flatMap_singleton] at h

/-- The words of the examples are what the encoder gives for their instructions. -/
theorem sampleWords_encoded :
    ∀ e ∈ Claims.sampleWords, encode e.2 = [e.1] ∧ e.2.wf = true ∧ Claims.isSamovar e.2 = false := by decide +kernel

/-- Settles O60: the examples are words of the encoder, which decode back; the other words are evaluated. -/
theorem exampleWordsDecode : Obligations.ExampleWordsDecode := by
  refine ⟨fun e he => ?_, by decide +kernel, by decide +kernel⟩
  obtain ⟨henc, hwf, hsam⟩ := sampleWords_encoded e he
  exact decodeBytes_wordBytes henc hwf hsam

end Sys2Proof.Machine
end

section
/-! # Uniform instructions: control flow, rotation, traps and breakpoints (01 R13; 03 R67 to R70, R72, R74) -/

namespace Sys2Proof.Machine

/-! ## Targets of transfers -/

theorem transfer_eq_goTo (f g : Fibre) (s : State) (t : DWord) : transfer f g s t = Claims.goTo f g s t := by
  have htop : t.toNat / 2 ^ 56 ≠ 0 ↔ 0x100000000000000 ≤ t.toNat := by omega
  unfold transfer targetFault Claims.goTo
  by_cases halign : t.toNat % 4 ≠ 0
  · rw [if_pos halign, if_pos halign]
    rfl
  rw [if_neg halign, if_neg halign]
  by_cases hhigh : t.toNat / 2 ^ 56 ≠ 0
  · rw [if_pos hhigh, if_pos (htop.mp hhigh)]
    rfl
  · rw [if_neg hhigh, if_neg (mt htop.mpr hhigh)]

theorem branchTarget_eq_relative {n : Nat} (pc : DWord) (o : BitVec n) : branchTarget pc o = Claims.relative pc o := by
  unfold branchTarget Claims.relative sext64
  rw [BitVec.shiftLeft_eq_mul_twoPow, BitVec.mul_comm]
  rfl

theorem getLsbD_pair (lo hi : Word) (i : Nat) :
    (pair lo hi).getLsbD i = if i < 32 then lo.getLsbD i else hi.getLsbD (i - 32) := BitVec.getLsbD_append

/-- The target of `ret`: the high half of PC and the word of s63. -/
theorem pair_hiWord (lo : Word) (pc : DWord) : pair lo (hiWord pc) = (pc &&& 0xFFFFFFFF00000000) + lo.zeroExtend 64 := by
  have hmask : ∀ i : Fin 64, (0xFFFFFFFF00000000#64).getLsbD i = decide (32 ≤ i.val) := by decide
  have hbit (i : Nat) (hi : i < 64) : (0xFFFFFFFF00000000#64).getLsbD i = decide (32 ≤ i) := hmask ⟨i, hi⟩
  have hdisjoint : (pc &&& 0xFFFFFFFF00000000) &&& lo.zeroExtend 64 = 0#64 := by
    refine BitVec.eq_of_getLsbD_eq fun i hi => ?_
    by_cases h : i < 32
    · simp [hbit i hi, Nat.not_le.mpr h]
    · simp [BitVec.getLsbD_of_ge lo i (Nat.le_of_not_lt h)]
  rw [BitVec.add_eq_or_of_and_eq_zero _ _ hdisjoint]
  refine BitVec.eq_of_getLsbD_eq fun i hi => ?_
  rw [getLsbD_pair, BitVec.getLsbD_or, BitVec.getLsbD_and, BitVec.getLsbD_setWidth]
  by_cases h : i < 32
  · rw [if_pos h, show (0xFFFFFFFF00000000 : DWord).getLsbD i = decide (32 ≤ i) from hbit i hi]
    simp [hi, Nat.not_le.mpr h]
  · have hlow : i - 32 < 32 := by omega
    have hback : 32 + (i - 32) = i := by omega
    rw [if_neg h, show (0xFFFFFFFF00000000 : DWord).getLsbD i = decide (32 ≤ i) from hbit i hi,
      BitVec.getLsbD_of_ge lo i (Nat.le_of_not_lt h), hiWord, BitVec.getLsbD_extractLsb', hback]
    simp [hlow, Nat.le_of_not_lt h]

/-! ## Rotation (R70) -/

theorem rotsetOk_eq_rotSizeOk (f : Fibre) (v : Nat) : f.rotsetOk v = Claims.rotSizeOk f v := by
  simp [Fibre.rotsetOk, Claims.rotSizeOk, Bool.or_assoc, Bool.beq_eq_decide_eq]

/-- With a rotating region, 0 is less than ROTS. -/
theorem rotbaseOk_eq_rotBaseOk (f : Fibre) (v : Nat) : f.rotbaseOk v = Claims.rotBaseOk f v := by
  rw [Bool.eq_iff_iff]
  simp only [Fibre.rotbaseOk, Claims.rotBaseOk, Bool.or_eq_true, decide_eq_true_eq, beq_iff_eq]
  omega

/-- An operand that is an immediate of six bits or a register, as a number. -/
theorem toNat_uB (o : SGIB) (f : Fibre) : (f.uB o.i o.b).toNat = Claims.rotValue o f := by
  unfold Fibre.uB Claims.rotValue
  split
  · exact BitVec.toNat_setWidth_of_le (by decide)
  · rfl

theorem swSub_eq_softSub (o : SGIB) (f : Fibre) : f.swSub o.i o.b = Claims.softSub o f := by
  rw [Fibre.swSub, toNat_uB, Claims.rotValue, Claims.softSub]
  have := o.b.isLt
  split
  · exact Nat.mod_eq_of_lt (by omega)
  · rfl

/-- A word of `rot` whose accepted values are those of the table. -/
theorem rotWord_eq (o : SGIB) {ok accepted : Fibre → Nat → Bool} (hok : ∀ f v, ok f v = accepted f v)
    (act : Fibre → Nat → Fibre) (s : State) :
    rotWord o ok act s =
      word (uUse o.s o.g (opB o.i o.b) []) (Claims.immediateCheck o fun f => accepted f o.b.toNat)
        (fun _ _ _ f s =>
          if accepted f (Claims.rotValue o f) then .done (act f (Claims.rotValue o f)) s
          else Claims.fault .reservedField 1 0 f s) s := by
  unfold rotWord
  simp only [toNat_uB, funext₂ hok]
  rfl

/-! ## Counting loops (R69) -/

theorem rots_setS (f : Fibre) (lat n : Nat) (x : Word) : (f.setS lat n x).rots = f.rots := by
  unfold Fibre.setS
  split <;> rfl

theorem rotb_setS (f : Fibre) (lat n : Nat) (x : Word) : (f.setS lat n x).rotb = f.rotb := by
  unfold Fibre.setS
  split <;> rfl

/-! ## What the ports of a word leave of the fibre (09 R182, R183) -/

/-- Popped values and port records alone differ. -/
def OnlyPorts (f g : Fibre) : Prop := { g with popped := f.popped, ports := f.ports } = f

theorem OnlyPorts.refl (f : Fibre) : OnlyPorts f f := rfl

theorem OnlyPorts.trans {f g h : Fibre} (a : OnlyPorts f g) (b : OnlyPorts g h) : OnlyPorts f h := by
  unfold OnlyPorts at *
  rw [← a, ← b]

theorem onlyPorts_popPort (w : Workgroup) (n : Nat) (f : Fibre) (s : State) : OnlyPorts f (popPort w n f s).1 := by
  unfold popPort
  simp only []
  split <;> rfl

theorem onlyPorts_popPorts (w : Workgroup) (l : List Nat) (f : Fibre) (s : State) : OnlyPorts f (popPorts w l f s).1 := by
  induction l generalizing f s with
  | nil => exact OnlyPorts.refl f
  | cons n ns ih => exact (onlyPorts_popPort w n f s).trans (ih _ _)

theorem onlyPorts_requestSlots (s : State) (w : Workgroup) (f : Fibre) (k : Nat) : OnlyPorts f (requestSlots s w f k).1 := by
  unfold requestSlots
  simp only []
  split
  · rfl
  · split <;> rfl

theorem onlyPorts_requests (w : Workgroup) (l : List Nat) (r : Fibre × State) :
    OnlyPorts r.1 (l.foldl (fun r n => requestSlots r.2 w r.1 (n - 48)) r).1 := by
  induction l generalizing r with
  | nil => exact OnlyPorts.refl r.1
  | cons n ns ih => exact (onlyPorts_requestSlots r.2 w r.1 (n - 48)).trans (ih _)

/-- Serving its queue ports, a word changes the fibre's popped values and port records, and nothing else of it. -/
theorem onlyPorts_operandWait {w : Workgroup} {u : Use} {f g : Fibre} {s s1 : State}
    (h : operandWait w u f s = (g, s1, none)) : OnlyPorts f g := by
  unfold operandWait at h
  simp only [] at h
  repeat' split at h
  all_goals simp only [Prod.mk.injEq, reduceCtorEq, and_false, and_true] at h
  rw [← h.1]
  exact (onlyPorts_popPorts w _ f s).trans (onlyPorts_requests w _ _)

/-- A word that neither synchronises nor writes a register has its effect on the fibre at issue, but for ports and for the
loads that it has fixed. -/
theorem issues_fibre {u : Use} {pre : Fibre → Option Trap} {s s1 : State} {w : Workgroup} {f g : Fibre} {act : List Nat}
    (h : Issues u pre s w f act g s1) (hsync : u.sync = false) (hwrites : u.writes = []) : OnlyPorts (f.fixNamed u) g := by
  have hflush : u.flushes f = false := by simp [Use.flushes, hsync, pushesOf, hwrites, singles]
  have hports := h.ports
  rw [beforeWord, hflush] at hports
  exact onlyPorts_operandWait hports

/-! ## Words whose operands depend on the fibre -/

theorem wordBy_eq_word {uf : Workgroup → Fibre → Use} {u : Use} {pre : Fibre → Option Trap}
    {body : Nat → Workgroup → List Nat → Fibre → State → Res} {s : State} {w : Workgroup} {f : Fibre}
    (hw : s.wg s.cur.wk = some w) (hf : w.fibres.find s.cur.fid = some f) (hu : uf w f = u) :
    wordBy uf pre body s = word u pre body s := by
  unfold word wordBy
  rw [hw]
  simp only [hf, hu]

/-- A word that names the operands of u for the fibre it finds ends as its body says. -/
theorem ends_of_wordBy {i : Instr} {uf : Workgroup → Fibre → Use} {u : Use} {pre : Fibre → Option Trap}
    {body : Nat → Workgroup → List Nat → Fibre → State → Res} {s s1 : State} {w : Workgroup} {f g : Fibre} {act : List Nat}
    (he : exec i s = wordBy uf pre body s) (h : Issues u pre s w f act g s1) (hu : ∀ f0, issueOf u f0 = f → uf w f0 = u) :
    Ends i s w u act f (body s.cur.wk w act g s1) := by
  obtain ⟨f0, hf0, hissue⟩ := Option.map_eq_some_iff.mp h.fibre
  exact ends_of_word (he.trans (wordBy_eq_word h.wg hf0 (hu f0 hissue))) h

/-! ## Breakpoints (R72) -/

theorem commitTo_rest (f : Fibre) (t : Nat) : SameRest f (f.commitTo t) ∧ (f.commitTo t).fstat = f.fstat := by
  have hfold : ∀ (l : List InFlight) (g : Fibre),
      SameRest g (l.foldl (fun g e => g.store e.reg e.val) g) ∧ (l.foldl (fun g e => g.store e.reg e.val) g).fstat = g.fstat := by
    intro l
    induction l with
    | nil => exact fun g => ⟨SameRest.refl g, rfl⟩
    | cons e es ih =>
      intro g
      obtain ⟨hrest, hfstat⟩ := ih (g.store e.reg e.val)
      exact ⟨(sameRest_store g e.reg e.val).trans hrest, hfstat.trans (fstat_store g e.reg e.val)⟩
  exact hfold _ f

/-- At issue a fibre has the breakpoint enable and the trap mode that it was found with. -/
theorem breaks_issueOf (u : Use) (f : Fibre) : Claims.breaks (issueOf u f) = Claims.breaks f := by
  obtain ⟨hrest, hfstat⟩ := commitTo_rest f f.nom
  have hfctl : f.atIssue.fctl = f.fctl := by
    have hfields := congrArg Fibre.fctl hrest
    exact hfields
  have hcommit : Claims.breaks f.atIssue = Claims.breaks f := by
    rw [Claims.breaks, Claims.breaks, hfctl, show f.atIssue.fstat = f.fstat from hfstat]
  have hdrop : Claims.breaks f.atIssue.dropRix = Claims.breaks f.atIssue := by
    unfold Fibre.dropRix
    split
    · have hbit : (f.atIssue.setRix 0).fstat.getLsbD 5 = f.atIssue.fstat.getLsbD 5 := by
        rw [fstat_setRix_zero, BitVec.getLsbD_and]
        exact Bool.and_true _
      exact congrArg (fun b => f.atIssue.fctl.getLsbD 2 && !b) hbit
    · rfl
  unfold issueOf
  split
  · exact hcommit
  · exact hdrop.trans hcommit

/-- While the ports of a word that writes no register are served, it stays whether a breakpoint is taken. -/
theorem issues_breaks {u : Use} {pre : Fibre → Option Trap} {s s1 : State} {w : Workgroup} {f g : Fibre} {act : List Nat}
    (h : Issues u pre s w f act g s1) (hsync : u.sync = false) (hwrites : u.writes = []) : Claims.breaks g = Claims.breaks f := by
  have hports := issues_fibre h hsync hwrites
  have hsame : Claims.breaks (f.fixNamed u) = Claims.breaks f := rfl
  rw [← hsame, ← hports]
  rfl

/-! ## The statements -/

theorem brk_taken {o : SGIB} {s s1 : State} {w : Workgroup} {f g : Fibre} {act : List Nat}
    (h : Issues (uUse o.s o.g (opB o.i o.b) []) noPre s w f act g s1) (hbreaks : Claims.breaks f = true) :
    Ends (.brk o) s w (uUse o.s o.g (opB o.i o.b) []) act f (Claims.fault .brk (Claims.softSub o g) 0 g s1) := by
  have he : exec (.brk o) s = execBrk o s := rfl
  have hends := ends_of_wordBy he h fun f0 hissue => by
    have hacts : f0.brkActs = true := by rw [← hbreaks, ← hissue, breaks_issueOf]; rfl
    simp only [hacts, if_true]
  have hacts : g.brkActs = true := (issues_breaks h rfl rfl).trans hbreaks
  simp only [hacts, if_true, swSub_eq_softSub] at hends
  exact hends

theorem brk_ignored {o : SGIB} {s s1 : State} {w : Workgroup} {f g : Fibre} {act : List Nat}
    (h : Issues (uUse o.s o.g [] []) noPre s w f act g s1) (hbreaks : Claims.breaks f = false) :
    Ends (.brk o) s w (uUse o.s o.g [] []) act f (.done g s1) := by
  have he : exec (.brk o) s = execBrk o s := rfl
  have hends := ends_of_wordBy he h fun f0 hissue => by
    have hacts : f0.brkActs = false := by rw [← hbreaks, ← hissue, breaks_issueOf]; rfl
    simp only [hacts, Bool.false_eq_true, if_false]
  have hacts : g.brkActs = false := (issues_breaks h rfl rfl).trans hbreaks
  simpa only [hacts, Bool.false_eq_true, if_false] using hends

/-- 05 R122: in deterministic mode `yield` reads nothing and retires. -/
theorem yield_ignored {o : SGIB} {s s1 : State} {w : Workgroup} {f g : Fibre} {act : List Nat}
    (h : Issues (uUse o.s o.g [] []) noPre s w f act g s1) (hdet : w.hdr.det = true) :
    Ends (.yield o) s w (uUse o.s o.g [] []) act f (.done g s1) := by
  have he : exec (.yield o) s = execYield o s := rfl
  have hends := ends_of_wordBy he h fun f0 _ => by simp only [hdet, if_true]
  simpa only [hdet, if_true] using hends

/-- A word of a transfer: `target` as the model forms it is the target of the table. -/
theorem ends_of_transfer {i : Instr} {u : Use} {left : Fibre → Fibre} {target table : Fibre → DWord}
    {s s1 : State} {w : Workgroup} {f g : Fibre} {act : List Nat}
    (he : exec i s = word u noPre (fun _ _ _ f s => transfer f (left f) s (target f)) s) (htarget : ∀ f, target f = table f)
    (h : Issues u noPre s w f act g s1) : Ends i s w u act f (Claims.goTo g (left g) s1 (table g)) := by
  have hends := ends_of_word he h
  rwa [transfer_eq_goTo, htarget] at hends

/-- `loop`: the count goes down, and a branch back rotates the window (R69). -/
theorem execLoopW_eq (o : SGDO) (s : State) :
    execLoopW o s =
      word (uUse o.s o.g [.s o.d.toNat] [.s o.d.toNat]) noPre (fun _ _ _ f s =>
        let n := f.getS o.d.toNat - 1
        let g := f.setS 2 o.d.toNat n
        if n = 0 then .done g s
        else Claims.goTo f (if f.rots = 0 then g else { g with rotb := (f.rotb + f.rots - 1) % f.rots }) s
          (Claims.relative f.pc o.o)) s := by
  unfold execLoopW
  simp only [transfer_eq_goTo, branchTarget_eq_relative, Fibre.rotate, rots_setS, rotb_setS]

theorem controlWords : Claims.WordsEnd Claims.control := by
  intro i r s w f act g s1 hi hwf h hfires
  unfold Claims.control at hi
  split at hi <;> cases hi
  case h_1 o => exact ends_of_transfer (left := id) rfl (fun f => branchTarget_eq_relative f.pc o.o) h
  case h_2 o => exact ends_of_transfer (left := Fibre.link) rfl (fun f => branchTarget_eq_relative f.pc o.o) h
  case h_3 o =>
    exact ends_of_transfer (i := .jr o) (left := id) (target := fun f => f.getS64 o.a.toNat) rfl (fun _ => rfl) h
  case h_4 o =>
    exact ends_of_transfer (i := .callr o) (left := Fibre.link) (target := fun f => f.getS64 o.a.toNat) rfl (fun _ => rfl) h
  case h_5 o => exact ends_of_transfer (left := id) rfl (fun f => pair_hiWord (f.getS 63) f.pc) h
  case h_6 o =>
    have he : exec (.loopW o) s = execLoopW o s := rfl
    exact ends_of_word (he.trans (execLoopW_eq o s)) h
  case h_7 o =>
    have he : exec (.rotset o) s = execRotset o s := rfl
    exact ends_of_word (he.trans (rotWord_eq o rotsetOk_eq_rotSizeOk _ s)) h
  case h_8 o =>
    have he : exec (.rotbase o) s = execRotbase o s := rfl
    exact ends_of_word (he.trans (rotWord_eq o rotbaseOk_eq_rotBaseOk _ s)) h
  case h_9 o =>
    have he : exec (.trap o) s = execTrap o s := rfl
    have hends := ends_of_word he h
    rw [swSub_eq_softSub] at hends
    exact hends
  case h_10 o => exact brk_taken h hfires
  case h_11 o =>
    have he : exec (.nop o) s = execNop o s := rfl
    exact ends_of_word he h
  case h_12 o =>
    have he : exec (.slackImm o) s = execSlackImm o s := rfl
    exact ends_of_word he h
  case h_13 o =>
    have he : exec (.slackReg o) s = execSlackReg o s := rfl
    exact ends_of_word he h

theorem nopWords : Claims.WordsEnd Claims.retiresAsNop := by
  intro i r s w f act g s1 hi hwf h hfires
  unfold Claims.retiresAsNop at hi
  split at hi <;> cases hi
  case h_1 o => exact brk_ignored h (Bool.not_eq_true' _ ▸ hfires)
  case h_2 o => exact yield_ignored h hfires

/-- Settles O10: the model's targets, accepted values and subcodes are those of the table, and whether a breakpoint is taken
does not change while a word issues. -/
theorem controlWordsEnd : Obligations.ControlWordsEnd := ⟨controlWords, nopWords⟩

end Sys2Proof.Machine
end

section
/-! # Uniform instructions: return from a trap, and PRIVILEGE before every other fault (03 R72; 02 R49) -/

namespace Sys2Proof.Machine

/-! ## `tret` -/

/-- Outside trap mode, and under a guard that holds, `tret` faults PRIVILEGE at decode. -/
theorem privilegeIf_eq (u : Use) (bad : Fibre → Bool) (f : Fibre) :
    privilegeIf u bad f =
      if bad f = true ∧ runners u f ≠ [] then some { code := .privilege, sub := 0, addr := 0, replay := false } else none := by
  simp only [privilegeIf, trapOf, Bool.and_eq_true, Bool.not_eq_true', List.isEmpty_eq_false_iff]

theorem not_tm_iff (f : Fibre) : (!f.tm) = true ↔ f.fstat.getLsbD 5 = false := by
  rw [Fibre.tm, bit, Bool.not_eq_true']

/-- The checks of `tret` (02 R49). -/
theorem tretPre_eq (o : SG) :
    privilegeIf (uUse o.s o.g [] []) (fun f => !f.tm) = fun f =>
      if f.fstat.getLsbD 5 = false ∧ runners (uUse o.s o.g [] []) f ≠ [] then
        some { code := .privilege, sub := 0, addr := 0, replay := false } else none := by
  funext f
  simp only [privilegeIf_eq, not_tm_iff]

theorem trapReturnWord : Claims.WordsEnd Claims.trapReturn := by
  intro i r s w f act g s1 hi hwf h hfires
  unfold Claims.trapReturn at hi
  split at hi <;> cases hi
  case h_1 o =>
    have he : exec (.tret o) s = execTret o s := rfl
    rw [execTret, tretPre_eq] at he
    have hends := ends_of_word he h
    rw [transfer_eq_goTo] at hends
    exact hends

/-! ## PRIVILEGE -/

/-- A word whose check finds a fault at issue raises it, whatever else stands against it. -/
theorem exec_of_preFault {i : Instr} {u : Use} {pre : Fibre → Option Trap}
    {body : Nat → Workgroup → List Nat → Fibre → State → Res} {s : State} {w : Workgroup} {f : Fibre} {t : Trap}
    (he : exec i s = word u pre body s) (hw : s.wg s.cur.wk = some w)
    (hf : (w.fibres.find s.cur.fid).map (issueOf u) = some f) (hpre : pre f = some t) :
    exec i s = .next (s.raiseAt s.cur.wk w f t 0) := by
  obtain ⟨f0, hf0, hissue⟩ := Option.map_eq_some_iff.mp hf
  have hstart : (if u.lane = true then f0.atIssue else f0.atIssue.dropRix) = f := hissue
  rw [he]
  unfold word wordBy
  rw [hw]
  simp only [hf0, runWord, hstart, hpre, issueFault]

theorem privilegeFirst : Claims.PrivilegeFirst := by
  intro i u s w f hwf hw hf hcase
  rcases hcase with ⟨o, rfl, rfl, htm, hguard⟩ | ⟨o, rfl, rfl, hbad⟩ | ⟨o, rfl, hfirmware, rfl⟩
  · have he : exec (.tret o) s = execTret o s := rfl
    rw [execTret, tretPre_eq] at he
    exact exec_of_preFault he hw hf (if_pos ⟨htm, hguard⟩)
  · exact exec_of_preFault ((exec_sysw o s).trans (execSysw_eq o s)) hw hf (if_pos hbad)
  · exact exec_of_preFault ((exec_sysr o s).trans (execSysr_eq o s)) hw hf (if_pos hfirmware)

/-- Settles O11: `tret` is the transfer of the table, and the fault that a word's own check finds stands first. -/
theorem trapReturns : Obligations.TrapReturns := ⟨trapReturnWord, privilegeFirst⟩

end Sys2Proof.Machine
end

section
/-! # Integer results as functions of the operands (03 R52 to R58, R65) -/

namespace Sys2Proof.Machine

/-! ## Saturation and selection (R52, R55) -/

theorem clampInt_eq_max_min {lo hi : Int} (h : lo ≤ hi) (x : Int) : clampInt x lo hi = max lo (min x hi) := by
  unfold clampInt
  split
  · omega
  · split <;> omega

theorem saturate_eq_clamped {lo hi : Int} (h : lo ≤ hi) (x : Word → Word → Int) :
    (fun a b (_ : Word) => saturate lo hi (x a b)) = Claims.clamped lo hi x := by
  funext a b d
  have hin : (lo ≤ x a b ∧ x a b ≤ hi) ↔ ¬(x a b < lo ∨ hi < x a b) := by omega
  simp only [saturate, Claims.clamped, clampInt_eq_max_min h, flagIf, Bool.or_eq_true, decide_eq_true_eq, hin, ite_not]
  rfl

theorem aAddSatI32_eq : aAddSatI32 = Claims.rAddSatI32 := saturate_eq_clamped (by decide) _
theorem aAddSatN32_eq : aAddSatN32 = Claims.rAddSatN32 := saturate_eq_clamped (by decide) _
theorem aSubSatI32_eq : aSubSatI32 = Claims.rSubSatI32 := saturate_eq_clamped (by decide) _
theorem aSubSatN32_eq : aSubSatN32 = Claims.rSubSatN32 := saturate_eq_clamped (by decide) _

/-- Two results without FSTAT bits that agree on every operand. -/
theorem quiet_congr {g h : Word → Word → Word → Word} (e : ∀ a b d, g a b d = h a b d) :
    (fun a b d => plain (g a b d)) = Claims.quiet h := by
  funext a b d
  exact congrArg plain (e a b d)

theorem aMinI32_eq : aMinI32 = Claims.rMinI32 := quiet_congr fun a b _ => by simp only [minI, ← not_le, ite_not]
theorem aMinN32_eq : aMinN32 = Claims.rMinN32 := quiet_congr fun a b _ => by simp only [minN, ← not_le, ite_not]
theorem aMaxI32_eq : aMaxI32 = Claims.rMaxI32 := quiet_congr fun a b _ => by simp only [maxI, ← not_le, ite_not]
theorem aMaxN32_eq : aMaxN32 = Claims.rMaxN32 := quiet_congr fun a b _ => by simp only [maxN, ← not_le, ite_not]

/-! ## Products and shifts (R52, R53) -/

/-- The high half of an exact product is its quotient by 2^32. -/
theorem highHalf_eq_div (x : Int) : highHalf x = BitVec.ofInt 32 (x / 4294967296) := by
  apply BitVec.eq_of_toNat_eq
  rw [highHalf, BitVec.extractLsb'_toNat, BitVec.toNat_ofInt, BitVec.toNat_ofInt, Nat.shiftRight_eq_div_pow]
  omega

theorem aMulhI32_eq : aMulhI32 = Claims.rMulhI32 := quiet_congr fun _ _ _ => highHalf_eq_div _

theorem aShl_eq : aShl = Claims.rShl := quiet_congr fun a b _ => by
  unfold shlW
  split
  · exact BitVec.eq_of_toNat_eq (by simp [Nat.shiftLeft_eq])
  · rfl

theorem aShr_eq : aShr = Claims.rShr := quiet_congr fun a b _ => by
  unfold shrW
  split
  · exact BitVec.eq_of_toNat_eq (by
      rw [BitVec.toNat_ushiftRight, BitVec.toNat_ofNat, Nat.shiftRight_eq_div_pow]
      exact (Nat.mod_eq_of_lt ((Nat.div_le_self _ _).trans_lt a.isLt)).symm)
  · rfl

/-- An arithmetic shift is a division that rounds down. -/
theorem sshiftRight_eq_ofInt (a : Word) (n : Nat) : a.sshiftRight n = BitVec.ofInt 32 (a.toInt / 2 ^ n) := by
  rw [← BitVec.ofInt_toInt (x := a.sshiftRight n), BitVec.toInt_sshiftRight, Int.shiftRight_eq_div_pow]
  norm_cast

theorem aSar_eq : aSar = Claims.rSar := quiet_congr fun a b _ => by
  have hlo := BitVec.le_toInt a
  have hhi := BitVec.toInt_lt (x := a)
  rw [sarW, sshiftRight_eq_ofInt]
  split
  · rw [Nat.min_eq_left (by omega)]
  · rw [Nat.min_eq_right (by omega)]
    split
    · rw [show a.toInt / 2 ^ 32 = -1 by omega]
      rfl
    · rw [show a.toInt / 2 ^ 32 = 0 by omega]
      rfl

/-! ## Counts and reversals of bits (R52) -/

theorem popcount_eq_countP {w : Nat} (x : BitVec w) (n : Nat) : popcount x n = (List.range n).countP fun k => x.getLsbD k := by
  induction n with
  | zero => rfl
  | succ n ih =>
    rw [popcount, List.range_succ, List.countP_append, ih]
    simp [List.countP_cons]

theorem aPopc_eq : aPopc = Claims.rPopc := quiet_congr fun _ _ _ => congrArg _ (popcount_eq_countP _ _)

/-- Above the highest 1 bit k there are n - 1 - k zeros. -/
theorem leadingZeros_of_highest {w : Nat} (x : BitVec w) {k : Nat} (hk : x.getLsbD k = true) :
    ∀ n, k < n → (∀ j, k < j → j < n → x.getLsbD j = false) → leadingZeros x n = n - 1 - k
  | 0, hn, _ => absurd hn (Nat.not_lt_zero k)
  | n + 1, hn, habove => by
    rw [leadingZeros]
    by_cases hkn : k = n
    · rw [← hkn, if_pos hk]
      omega
    · have hlt : k < n := by omega
      rw [if_neg (by simp [habove n hlt (Nat.lt_succ_self n)]),
        leadingZeros_of_highest x hk n hlt fun j hj hjn => habove j hj (Nat.lt_succ_of_lt hjn)]
      omega

theorem aClz_eq : aClz = Claims.rClz := quiet_congr fun a _ _ => by
  by_cases ha : a = 0
  · rw [if_pos ha, ha]
    decide
  · rw [if_neg ha]
    have hne : a.toNat ≠ 0 := fun h => ha (BitVec.eq_of_toNat_eq h)
    have htop : a.toNat.log2 < 32 := (Nat.log2_lt hne).mpr a.isLt
    refine congrArg _ ((leadingZeros_of_highest a (Nat.testBit_log2 hne) 32 htop fun j hj _ => ?_).trans (by omega))
    exact Nat.testBit_lt_two_pow (Nat.lt_log2_self.trans_le (Nat.pow_le_pow_right (by decide) hj))

theorem getLsbD_orBit {n : Nat} (x : BitVec n) (b : Bool) (m j : Nat) (hj : j < n) :
    (if b then x ||| (1#n <<< m) else x).getLsbD j = (x.getLsbD j || (b && decide (j = m))) := by
  have hone : (1#n <<< m).getLsbD j = decide (j = m) := by
    rw [BitVec.getLsbD_shiftLeft, BitVec.getLsbD_one]
    simp only [hj, show 0 < n by omega, decide_true, Bool.true_and]
    rw [← decide_not, ← Bool.decide_and, decide_eq_decide]
    omega
  cases b
  · simp
  · simp only [if_true, BitVec.getLsbD_or, hone, Bool.true_and]

/-- Bit j of the word whose bit i is q i. -/
theorem getLsbD_bitsOf {n : Nat} (q : Nat → Bool) {j : Nat} (hj : j < n) : (Claims.bitsOf n q).getLsbD j = q j := by
  have hprefix : ∀ m, ((List.range m).foldl (fun (x : BitVec n) i => if q i then x ||| (1#n <<< i) else x) 0).getLsbD j =
      (decide (j < m) && q j) := by
    intro m
    induction m with
    | zero => simp
    | succ m ih =>
      rw [List.range_succ, List.foldl_append, List.foldl_cons, List.foldl_nil, getLsbD_orBit _ _ _ _ hj, ih]
      rcases Nat.lt_trichotomy j m with h | rfl | h
      · simp [h, h.ne, h.trans (Nat.lt_succ_self m)]
      · simp
      · simp [h.not_gt, h.ne', Nat.not_lt.mpr (Nat.succ_le_of_lt h)]
  exact (hprefix n).trans (by rw [decide_eq_true hj, Bool.true_and])

/-- Bit j comes from bit 31 - j, for the lowest n bits of x. -/
theorem getLsbD_reverseBits (x : Word) {j : Nat} (hj : j < 32) :
    ∀ n, n ≤ 32 → (reverseBits x n).getLsbD j = (decide (31 - j < n) && x.getLsbD (31 - j))
  | 0, _ => by simp [reverseBits]
  | n + 1, hn => by
    have hbit : (0x80000000#32 >>> n).getLsbD j = decide (31 - j = n) := by
      rw [show (0x80000000#32) = BitVec.twoPow 32 31 from rfl, BitVec.getLsbD_ushiftRight, BitVec.getLsbD_twoPow, decide_eq_true (by decide : 31 < 32),
        Bool.true_and, decide_eq_decide]
      omega
    have hlow : (if x.getLsbD n = true then 0x80000000#32 >>> n else 0).getLsbD j = (decide (31 - j = n) && x.getLsbD n) := by
      split
      · rename_i h
        rw [hbit, h, Bool.and_true]
      · rename_i h
        simp [h]
    rw [reverseBits, BitVec.getLsbD_or, getLsbD_reverseBits x hj n (by omega), hlow]
    rcases Nat.lt_trichotomy (31 - j) n with h | h | h
    · simp [h, h.ne, h.trans (Nat.lt_succ_self n)]
    · simp [h]
    · simp [h.not_gt, h.ne', Nat.not_lt.mpr (Nat.succ_le_of_lt h)]

theorem aBrev_eq : aBrev = Claims.rBrev := quiet_congr fun a _ _ => BitVec.eq_of_getLsbD_eq fun j hj => by
  rw [getLsbD_bitsOf _ hj, getLsbD_reverseBits a hj 32 le_rfl, decide_eq_true (by omega), Bool.true_and]

theorem lowestFrom_eq_find {w : Nat} (x : BitVec w) :
    ∀ n i, lowestFrom x n i = ((List.range' i n).find? fun k => x.getLsbD k).getD (i + n)
  | 0, i => rfl
  | n + 1, i => by
    rw [lowestFrom, List.range'_succ, List.find?_cons, lowestFrom_eq_find x n (i + 1), Nat.add_right_comm i 1 n]
    cases x.getLsbD i <;> rfl

theorem aFfs_eq : aFfs = Claims.rFfs := quiet_congr fun a _ _ => by
  rw [lowestFrom_eq_find, List.range_eq_range']

/-! ## Fields (R54) -/

theorem fieldPos_eq_pos (b : Word) : fieldPos b = Claims.pos b := by simp [fieldPos, Claims.pos, bitsN]

theorem fieldLen_eq_len (b : Word) : fieldLen b = Claims.len b := by
  simp [fieldLen, Claims.len, bitsN, fieldPos_eq_pos]

theorem bitsN_eq_field (a b : Word) : bitsN a.toNat (Claims.pos b) (Claims.len b) = Claims.field a b := rfl

theorem aBfxN32_eq : aBfxN32 = Claims.rBfxN32 := quiet_congr fun a b _ => by
  rw [bfxN, fieldPos_eq_pos, fieldLen_eq_len, bitsN_eq_field]

/-- The highest bit of a field that has a bit. -/
theorem bitN_top_iff {x l : Nat} (hl : l ≠ 0) (hx : x < 2 ^ l) : bitN x (l - 1) = true ↔ 2 ^ (l - 1) ≤ x := by
  have hdouble : 2 ^ l = 2 ^ (l - 1) * 2 := by rw [← pow_succ, Nat.sub_add_cancel (Nat.pos_of_ne_zero hl)]
  have hquot : x / 2 ^ (l - 1) < 2 := Nat.div_lt_of_lt_mul (hdouble ▸ hx)
  rw [bitN, beq_iff_eq, Nat.mod_eq_of_lt hquot, ← Nat.one_le_div_iff (Nat.two_pow_pos _)]
  omega

theorem aBfxI32_eq : aBfxI32 = Claims.rBfxI32 := quiet_congr fun a b _ => by
  have hfield : Claims.field a b < 2 ^ Claims.len b := Nat.mod_lt _ (Nat.two_pow_pos _)
  simp only [bfxI, fieldPos_eq_pos, fieldLen_eq_len, bitsN_eq_field, Claims.signField]
  by_cases hl : Claims.len b = 0
  · have hzero : Claims.field a b = 0 := by simpa [hl] using hfield
    simp [hl, hzero]
  · simp only [hl, if_false, bitN_top_iff hl hfield, ne_eq, not_false_eq_true, true_and]
    split
    · norm_cast
    · exact (BitVec.ofInt_natCast 32 _).symm

/-- A field of n bits of v, moved up by k, is what a mask of these bits leaves of v moved up. -/
theorem shiftedField_eq_and (v n k : Nat) :
    BitVec.ofNat 32 (v % 2 ^ n) <<< k = BitVec.ofNat 32 (v * 2 ^ k) &&& BitVec.ofNat 32 ((2 ^ n - 1) * 2 ^ k) := by
  refine BitVec.eq_of_getLsbD_eq fun i hi => ?_
  rw [BitVec.getLsbD_shiftLeft, BitVec.getLsbD_and, BitVec.getLsbD_ofNat, BitVec.getLsbD_ofNat, BitVec.getLsbD_ofNat,
    Nat.testBit_mod_two_pow, Nat.testBit_mul_two_pow, Nat.testBit_mul_two_pow, Nat.testBit_two_pow_sub_one]
  by_cases hk : k ≤ i
  · simp [hi, hk, Nat.not_lt.mpr hk, show i - k < 32 by omega, Bool.and_comm]
  · simp [hk, Nat.lt_of_not_le hk]

theorem shiftedMask_eq (n k : Nat) : BitVec.ofNat 32 (2 ^ n - 1) <<< k = BitVec.ofNat 32 ((2 ^ n - 1) * 2 ^ k) := by
  apply BitVec.eq_of_toNat_eq
  simp [Nat.shiftLeft_eq]

theorem aBfi_eq : aBfi = Claims.rBfi := quiet_congr fun a b d => by
  rw [bfiW, setField, fieldPos_eq_pos, fieldLen_eq_len, shiftedMask_eq, shiftedField_eq_and]
  rfl

/-! ## Relations (R56) and immediates (R65) -/

/-- Code by code (02 Table 2-4). -/
theorem condHolds_eq_cond (k : BitVec 3) (a b : Int) : condHolds k a b = Claims.cond k a b := by
  obtain ⟨⟨n, hn⟩⟩ := k
  have hcode : ∀ m : Nat, m < 8 → ((⟨⟨n, hn⟩⟩ : BitVec 3) = BitVec.ofNat 3 m ↔ n = m) := by
    intro m hm
    rw [← BitVec.toNat_inj, BitVec.toNat_ofNat, Nat.mod_eq_of_lt hm]
    rfl
  simp only [Claims.cond, BitVec.ofNat_eq_ofNat, hcode 0 (by decide), hcode 1 (by decide), hcode 2 (by decide),
    hcode 3 (by decide), hcode 4 (by decide)]
  match n with
  | 0 => exact Bool.beq_eq_decide_eq a b
  | 1 =>
    have hne : (a != b) = decide (a ≠ b) := by rw [bne, Bool.beq_eq_decide_eq, ← decide_not]
    exact hne
  | 2 | 3 | 4 | _ + 5 => rfl

theorem kCmpI32_eq : kCmpI32 = Claims.relI := by
  funext k a b
  rw [kCmpI32, cmpI, condHolds_eq_cond, Claims.relI]

theorem kCmpN32_eq : kCmpN32 = Claims.relN := by
  funext k a b
  rw [kCmpN32, cmpN, condHolds_eq_cond, Claims.relN]

/-- `lui`: the immediate above the low 17 bits of sD. -/
theorem lui_eq (i : BitVec 15) (d : Word) :
    (zext32 i <<< 17) ||| (d &&& 0x0001FFFF) = BitVec.ofNat 32 (i.toNat * 131072 + d.toNat % 131072) := by
  have hi := i.isLt
  have hlow : (d &&& 0x0001FFFF).toNat = d.toNat % 2 ^ 17 := by
    rw [BitVec.toNat_and]
    exact Nat.and_two_pow_sub_one_eq_mod d.toNat 17
  have hhigh : (zext32 i <<< 17).toNat = i.toNat <<< 17 := by
    rw [BitVec.toNat_shiftLeft, zext32, BitVec.toNat_setWidth_of_le (by decide), Nat.shiftLeft_eq]
    omega
  apply BitVec.eq_of_toNat_eq
  rw [BitVec.toNat_or, hlow, hhigh, ← Nat.shiftLeft_add_eq_or_of_lt (Nat.mod_lt _ (by decide)), Nat.shiftLeft_eq,
    BitVec.toNat_ofNat]
  omega

/-! ## The words of the uniform set -/

/-- Wherever the instruction issues as the register word r, it completes and writes what r says and nothing else. -/
def CompletesAs (i : Instr) (r : RegWord) : Prop :=
  ∀ (s : State) (w : Workgroup) (f : Fibre) (act : List Nat) (g : Fibre) (s1 : State), Issues r.use noPre s w f act g s1 →
    ∃ h, Finishes i s w r.use act f h s1 ∧ Wrote g h (r.writes g act) (r.flags g act)

theorem completesAs_uniRow {i : Instr} {u : Use} {d : BitVec 6} {l : Lat} {val table : Fibre → Word × Word}
    (he : ∀ s, exec i s = uniWord u d l val s) (hval : val = table) : CompletesAs i (Claims.uniRow u d table) :=
  hval ▸ fun s _ _ _ _ _ h => uniWord_finishes (he s) h

theorem completesAs_uR {i : Instr} {o : SGIDAB} {destr : Bool} {l : Lat} {op table : Alu}
    (he : ∀ s, exec i s = uniR o destr l op s) (hop : op = table) : CompletesAs i (Claims.uR o destr table) :=
  hop ▸ completesAs_uniRow he rfl

theorem completesAs_uD {i : Instr} {o : SGDAB} {destr : Bool} {l : Lat} {op table : Alu}
    (he : ∀ s, exec i s = uniD o destr l op s) (hop : op = table) : CompletesAs i (Claims.uD o destr table) :=
  hop ▸ completesAs_uniRow he rfl

theorem completesAs_uA {i : Instr} {o : SGDA} {l : Lat} {op table : Alu}
    (he : ∀ s, exec i s = uniA o l op s) (hop : op = table) : CompletesAs i (Claims.uA o table) :=
  hop ▸ completesAs_uniRow he rfl

theorem completesAs_uI {i : Instr} {o : SGDI} {destr : Bool} {val table : Fibre → Word}
    (he : ∀ s, exec i s = uniI o destr val s) (hval : ∀ f, val f = table f) : CompletesAs i (Claims.uI o destr table) :=
  completesAs_uniRow he (funext fun f => congrArg plain (hval f))

theorem completesAs_uC {i : Instr} {sc g : BitVec 2} {reads : List Opnd} {c : BitVec 3} {l : Lat}
    {val table : Fibre → Bool × Word} (he : ∀ s, exec i s = uniCmp sc g reads c l val s) (hval : ∀ f, val f = table f) :
    CompletesAs i (Claims.uC sc g reads c table) :=
  (funext hval : val = table) ▸ fun s _ _ _ _ _ h => uniCmp_finishes (he s) h

theorem completesAs_uW {i : Instr} {u : Use} {d : BitVec 6} {val : Fibre → DWord}
    (he : ∀ s, exec i s = uniWide u d val s) : CompletesAs i (Claims.uW u d val) :=
  fun s _ _ _ _ _ h => uniWide_finishes (he s) h

theorem regWordsComplete_of {table : Instr → Option RegWord} (h : ∀ i r, table i = some r → CompletesAs i r) :
    RegWordsComplete table :=
  fun i r s w f act g s1 hi _ hissues => h i r hi s w f act g s1 hissues

theorem completesAs_uniInt {i : Instr} {r : RegWord} (hi : Claims.uniInt i = some r) : CompletesAs i r := by
  unfold Claims.uniInt at hi
  split at hi <;> cases hi
  case h_1 | h_4 | h_7 | h_10 | h_15 | h_16 | h_17 | h_18 => exact completesAs_uR (fun _ => rfl) rfl
  case h_2 => exact completesAs_uR (fun _ => rfl) aAddSatI32_eq
  case h_3 => exact completesAs_uR (fun _ => rfl) aAddSatN32_eq
  case h_5 => exact completesAs_uR (fun _ => rfl) aSubSatI32_eq
  case h_6 => exact completesAs_uR (fun _ => rfl) aSubSatN32_eq
  case h_8 => exact completesAs_uR (fun _ => rfl) aMulhI32_eq
  case h_9 => exact completesAs_uR (fun _ => rfl) rfl
  case h_11 => exact completesAs_uR (fun _ => rfl) aMinI32_eq
  case h_12 => exact completesAs_uR (fun _ => rfl) aMinN32_eq
  case h_13 => exact completesAs_uR (fun _ => rfl) aMaxI32_eq
  case h_14 => exact completesAs_uR (fun _ => rfl) aMaxN32_eq
  case h_19 => exact completesAs_uR (fun _ => rfl) aShl_eq
  case h_20 => exact completesAs_uR (fun _ => rfl) aShr_eq
  case h_21 => exact completesAs_uR (fun _ => rfl) aSar_eq
  case h_22 => exact completesAs_uR (fun _ => rfl) rfl
  case h_23 => exact completesAs_uA (fun _ => rfl) aPopc_eq
  case h_24 => exact completesAs_uA (fun _ => rfl) aClz_eq
  case h_25 => exact completesAs_uA (fun _ => rfl) aBrev_eq
  case h_26 => exact completesAs_uA (fun _ => rfl) aFfs_eq
  case h_27 => exact completesAs_uD (fun _ => rfl) aBfxI32_eq
  case h_28 => exact completesAs_uD (fun _ => rfl) aBfxN32_eq
  case h_29 => exact completesAs_uD (fun _ => rfl) aBfi_eq
  case h_30 | h_31 | h_32 | h_33 => exact completesAs_uR (fun _ => rfl) rfl
  case h_34 => exact completesAs_uniRow (fun _ => rfl) rfl
  case h_35 => exact completesAs_uC (fun _ => rfl) fun _ => by rw [kCmpI32_eq]
  case h_36 => exact completesAs_uC (fun _ => rfl) fun _ => by rw [kCmpN32_eq]
  case h_37 => exact completesAs_uC (fun _ => rfl) fun _ => by rw [kCmpI32_eq]; rfl
  case h_38 | h_39 | h_40 | h_41 => exact completesAs_uR (fun _ => rfl) rfl
  case h_42 | h_43 | h_50 => exact completesAs_uW fun _ => rfl
  case h_44 => exact completesAs_uC (fun _ => rfl) fun _ => by rw [cmp64, condHolds_eq_cond]
  case h_45 | h_46 | h_48 => exact completesAs_uI (fun _ => rfl) fun _ => rfl
  case h_47 => exact completesAs_uI (fun _ => rfl) fun _ => lui_eq _ _
  case h_49 => exact completesAs_uniRow (fun _ => rfl) rfl

theorem completesAs_uniFloat {i : Instr} {r : RegWord} (hi : Claims.uniFloat i = some r) : CompletesAs i r := by
  unfold Claims.uniFloat at hi
  split at hi <;> cases hi
  case h_1 | h_2 | h_3 | h_4 | h_5 | h_6 | h_7 | h_8 => exact completesAs_uD (fun _ => rfl) rfl
  case h_9 | h_10 => exact completesAs_uC (fun _ => rfl) fun _ => rfl
  all_goals exact completesAs_uA (fun _ => rfl) rfl

/-- Settles O1: each word is of a shape that writes one result, and its result is the table's function of the operands. -/
theorem uniformIntegerResults : Obligations.UniformIntegerResults := regWordsComplete_of fun _ _ => completesAs_uniInt

/-- Settles O2: each word is of a shape that writes one result, which is the operation that the table names. -/
theorem uniformFloatResults : Obligations.UniformFloatResults := regWordsComplete_of fun _ _ => completesAs_uniFloat

end Sys2Proof.Machine
end

section
/-! # Magnitudes and codes of the floating-point formats (11 R204) -/

namespace Sys2Proof.Machine

/-! ## The k-th magnitude, in units of the least one -/

/-- The k-th magnitude of a format with p significand bits, as a multiple of its least nonzero magnitude. -/
def magUnits (p k : Nat) : Nat := if k / 2 ^ p = 0 then k else (2 ^ p + k % 2 ^ p) * 2 ^ (k / 2 ^ p - 1)

/-- The code of a significand n in the block a of codes with one exponent: with its leading bit, or below it in the lowest
block. The first code of the next block is reached as well. -/
theorem magUnits_block {p a n : Nat} (hn : n ≤ 2 ^ (p + 1)) (ha : a = 0 ∨ 2 ^ p ≤ n) : magUnits p (a * 2 ^ p + n) = n * 2 ^ a := by
  have hpos : 0 < 2 ^ p := Nat.two_pow_pos p
  have hsplit : (a * 2 ^ p + n) / 2 ^ p = a + n / 2 ^ p := by rw [Nat.add_comm, Nat.add_mul_div_right _ _ hpos, Nat.add_comm]
  have hrest : (a * 2 ^ p + n) % 2 ^ p = n % 2 ^ p := Nat.mul_add_mod_self_right a (2 ^ p) n
  have hmod := Nat.div_add_mod n (2 ^ p)
  have hquot : n / 2 ^ p ≤ 2 := Nat.div_le_of_le_mul (by rwa [pow_succ] at hn)
  have hcarry : n / 2 ^ p = 2 → n % 2 ^ p = 0 := by
    intro h
    rw [h, ← pow_succ] at hmod
    omega
  have hbelow : n / 2 ^ p = 0 → a = 0 := by
    intro h
    have := (Nat.div_eq_zero_iff_lt hpos).mp h
    omega
  rw [magUnits, hsplit, hrest]
  generalize n / 2 ^ p = t at hmod hquot hcarry hbelow
  match t with
  | 0 => simp [hbelow rfl]
  | 1 =>
    rw [if_neg (Nat.succ_ne_zero a), Nat.add_sub_cancel]
    rw [mul_one] at hmod
    rw [hmod]
  | 2 =>
    rw [if_neg (Nat.succ_ne_zero (a + 1)), hcarry rfl]
    rw [hcarry rfl] at hmod
    rw [← hmod, show a + 2 - 1 = a + 1 from rfl]
    ring

/-- Every code stands in a block. -/
theorem exists_block (p k : Nat) : ∃ a n, k = a * 2 ^ p + n ∧ n < 2 ^ (p + 1) ∧ (a = 0 ∨ 2 ^ p ≤ n) := by
  have hmod := Nat.div_add_mod k (2 ^ p)
  have hlt := Nat.mod_lt k (Nat.two_pow_pos p)
  rw [pow_succ]
  cases ht : k / 2 ^ p with
  | zero => exact ⟨0, k, by simp, by rw [ht] at hmod; omega, .inl rfl⟩
  | succ a =>
    refine ⟨a, 2 ^ p + k % 2 ^ p, ?_, by omega, .inr (Nat.le_add_right ..)⟩
    rw [ht] at hmod
    rw [← hmod]
    simp only [Nat.mul_add_mod, Nat.mod_mod]
    ring

theorem magUnits_strictMono (p : Nat) : StrictMono (magUnits p) := by
  refine strictMono_nat_of_lt_succ fun k => ?_
  obtain ⟨a, n, rfl, hn, ha⟩ := exists_block p k
  rw [Nat.add_assoc, magUnits_block hn.le ha, magUnits_block (Nat.succ_le_of_lt hn) (ha.imp_right Nat.le_succ_of_le)]
  exact Nat.mul_lt_mul_of_pos_right (Nat.lt_succ_self n) (Nat.two_pow_pos a)

/-- The exponent of the least nonzero magnitude of a format. -/
def leastExp (F : Claims.Format) : ℤ := 1 - F.bias - F.man

theorem ladder_eq_magUnits (F : Claims.Format) (k : Nat) : F.ladder k = magUnits F.man k * 2 ^ leastExp F := by
  have htwo : (2 : ℚ) ≠ 0 := two_ne_zero
  rw [Claims.Format.ladder, magUnits, leastExp]
  split
  · rfl
  · rename_i h
    have hexp : ((k / 2 ^ F.man : Nat) : ℤ) - F.bias - F.man = ((k / 2 ^ F.man - 1 : Nat) : ℤ) + (1 - F.bias - F.man) := by
      generalize k / 2 ^ F.man = t at h ⊢
      omega
    rw [hexp, zpow_add₀ htwo, zpow_natCast]
    push_cast
    ring

/-- The magnitude of a code in a block. -/
theorem ladder_block (F : Claims.Format) {a n : Nat} (hn : n ≤ 2 ^ (F.man + 1)) (ha : a = 0 ∨ 2 ^ F.man ≤ n) :
    F.ladder (a * 2 ^ F.man + n) = n * 2 ^ (a + leastExp F) := by
  rw [ladder_eq_magUnits, magUnits_block hn ha, zpow_add₀ two_ne_zero, zpow_natCast]
  push_cast
  ring

/-! ## Codes of the model's formats -/

/-- The model's format m is the row F of Table 11-2. -/
structure Describes (F : Claims.Format) (m : Fmt) : Prop where
  exp : m.eb = F.exp
  man : m.mb = F.man
  bias : (m.bias : ℤ) = F.bias
  top : m.maxCode = F.top
  inf : m.hasInf = F.ieee
  nan : m.nan = F.nan
  exp_pos : 0 < F.exp
  man_pos : 0 < F.man
  top_lt : F.top + 1 < 2 ^ (F.exp + F.man)
  nan_lt : F.nan < 2 ^ (F.exp + F.man)

theorem describes_binary32 : Describes Claims.binary32 fp32 := by constructor <;> decide
theorem describes_bfloat16 : Describes Claims.bfloat16 bf16 := by constructor <;> decide
theorem describes_binary16 : Describes Claims.binary16 fp16 := by constructor <;> decide
theorem describes_byteE4M3 : Describes Claims.byteE4M3 e4m3 := by constructor <;> decide
theorem describes_byteE5M2 : Describes Claims.byteE5M2 e5m2 := by constructor <;> decide

section
variable {F : Claims.Format} {m : Fmt} {c : Nat}

/-- Above the largest finite magnitude stand ∞, with significand 0, and the NaNs. -/
theorem mag_eq_inf_iff (M : Describes F m) (hieee : F.ieee = true) (htop : F.top < F.mag c) :
    F.mag c = F.top + 1 ↔ F.mag c % 2 ^ F.man = 0 := by
  have hexp : 1 ≤ 2 ^ F.exp - 1 := by
    have := Nat.pow_le_pow_right (show 0 < 2 by decide) M.exp_pos
    omega
  have htop' : F.top + 1 = (2 ^ F.exp - 1) * 2 ^ F.man := by
    have := Nat.mul_le_mul hexp (Nat.two_pow_pos F.man)
    rw [Claims.Format.top, if_pos hieee]
    omega
  have hmag : F.mag c < 2 ^ F.exp * 2 ^ F.man := by
    rw [← pow_add]
    exact Nat.mod_lt _ (Nat.two_pow_pos _)
  constructor
  · intro h
    rw [h, htop', Nat.mul_mod_left]
  · intro h
    obtain ⟨q, hq⟩ := Nat.dvd_of_mod_eq_zero h
    have hlt : q < 2 ^ F.exp := by
      rw [hq, Nat.mul_comm] at hmag
      exact Nat.lt_of_mul_lt_mul_right hmag
    have hle : 2 ^ F.exp - 1 ≤ q := by
      rw [← Nat.succ_le_iff, Nat.succ_eq_add_one, htop', hq, Nat.mul_comm (2 ^ F.man)] at htop
      exact Nat.le_of_mul_le_mul_right htop (Nat.two_pow_pos _)
    rw [htop', hq, Nat.mul_comm, show q = 2 ^ F.exp - 1 by omega]

theorem quietBit_eq (hman : 0 < F.man) : F.mag c % 2 ^ F.man / 2 ^ (F.man - 1) = c / 2 ^ (F.man - 1) % 2 := by
  have hsplit : 2 ^ F.man = 2 ^ (F.man - 1) * 2 := by rw [← pow_succ, Nat.sub_add_cancel hman]
  rw [Claims.Format.mag, Nat.mod_mod_of_dvd _ (pow_dvd_pow 2 (Nat.le_add_left ..)), hsplit, Nat.mod_mul_right_div_self]

theorem decodeF_eq (M : Describes F m) :
    decodeF m c =
      if F.top < F.mag c then
        if F.ieee && F.mag c % 2 ^ F.man == 0 then .inf (F.neg c)
        else .nan (F.ieee && F.mag c % 2 ^ F.man / 2 ^ (F.man - 1) == 0)
      else if F.mag c / 2 ^ F.man = 0 then .fin (F.neg c) (F.mag c % 2 ^ F.man) (leastExp F)
      else .fin (F.neg c) (F.mag c % 2 ^ F.man + 2 ^ F.man) ((F.mag c / 2 ^ F.man : Nat) - F.bias - F.man) := by
  unfold decodeF
  rw [M.exp, M.man, M.bias, M.top, M.inf]
  rfl

theorem decodeF_of_nan (M : Describes F m) (h : F.isNan c = true) : decodeF m c = .nan (F.signals c) := by
  have hsignals : F.signals c = (F.ieee && c / 2 ^ (F.man - 1) % 2 == 0) := by rw [Claims.Format.signals, h, Bool.and_true]
  simp only [Claims.Format.isNan, Bool.and_eq_true, decide_eq_true_eq, Bool.not_eq_true'] at h
  obtain ⟨htop, hinf⟩ := h
  have hsig : (F.ieee && F.mag c % 2 ^ F.man == 0) = false := by
    cases hieee : F.ieee
    · rfl
    · rw [Claims.Format.isInf, hieee, Bool.true_and, beq_eq_false_iff_ne, ne_eq, mag_eq_inf_iff M hieee htop] at hinf
      rw [Bool.true_and, beq_eq_false_iff_ne]
      exact hinf
  rw [decodeF_eq M, if_pos htop, hsig, if_neg Bool.false_ne_true, hsignals, quietBit_eq M.man_pos]

theorem decodeF_of_inf (M : Describes F m) (h : F.isInf c = true) : decodeF m c = .inf (F.neg c) := by
  simp only [Claims.Format.isInf, Bool.and_eq_true, beq_iff_eq] at h
  obtain ⟨hieee, hmag⟩ := h
  have htop : F.top < F.mag c := by omega
  have hsig := (mag_eq_inf_iff M hieee htop).mp hmag
  rw [decodeF_eq M, if_pos htop, hieee, hsig]
  rfl

/-- A finite code: its significand and its block. -/
theorem decodeF_of_fin (M : Describes F m) (hnan : F.isNan c = false) (hinf : F.isInf c = false) :
    ∃ a n : Nat, decodeF m c = .fin (F.neg c) n (a + leastExp F) ∧ F.mag c = a * 2 ^ F.man + n ∧ n < 2 ^ (F.man + 1) ∧
      (a = 0 ∨ 2 ^ F.man ≤ n) ∧ F.mag c ≤ F.top := by
  have htop : ¬F.top < F.mag c := by simpa [Claims.Format.isNan, hinf] using hnan
  have hmod := Nat.div_add_mod (F.mag c) (2 ^ F.man)
  have hlt := Nat.mod_lt (F.mag c) (Nat.two_pow_pos F.man)
  rw [decodeF_eq M, if_neg htop, pow_succ]
  split
  · rename_i hblock
    rw [hblock] at hmod
    exact ⟨0, F.mag c % 2 ^ F.man, by simp, by omega, by omega, .inl rfl, Nat.le_of_not_lt htop⟩
  · rename_i hblock
    obtain ⟨a, ha⟩ := Nat.exists_eq_succ_of_ne_zero hblock
    refine ⟨a, F.mag c % 2 ^ F.man + 2 ^ F.man, ?_, ?_, by omega, .inr (Nat.le_add_left ..), Nat.le_of_not_lt htop⟩
    · rw [ha, leastExp]
      congr 1
      push_cast
      ring
    · have hsucc : 2 ^ F.man * a.succ = a * 2 ^ F.man + 2 ^ F.man := by rw [Nat.succ_eq_add_one]; ring
      rw [ha] at hmod
      omega

/-- What a code stands for: a NaN, an infinity, or the value of its sign, block and significand. -/
inductive Decoded (F : Claims.Format) (m : Fmt) (c : Nat) : Prop where
  | nan (hnan : F.isNan c = true) (hdec : decodeF m c = .nan (F.signals c))
  | inf (hnan : F.isNan c = false) (hinf : F.isInf c = true) (hdec : decodeF m c = .inf (F.neg c))
  | fin (a n : Nat) (hnan : F.isNan c = false) (hinf : F.isInf c = false) (hdec : decodeF m c = .fin (F.neg c) n (a + leastExp F))
      (hmag : F.mag c = a * 2 ^ F.man + n) (hn : n < 2 ^ (F.man + 1)) (ha : a = 0 ∨ 2 ^ F.man ≤ n) (htop : F.mag c ≤ F.top)

theorem decoded (M : Describes F m) (c : Nat) : Decoded F m c := by
  cases hnan : F.isNan c
  · cases hinf : F.isInf c
    · obtain ⟨a, n, hdec, hmag, hn, ha, htop⟩ := decodeF_of_fin M hnan hinf
      exact .fin a n hnan hinf hdec hmag hn ha htop
    · exact .inf hnan hinf (decodeF_of_inf M hinf)
  · exact .nan hnan (decodeF_of_nan M hnan)

theorem signals_of_not_nan (h : F.isNan c = false) : F.signals c = false := by
  rw [Claims.Format.signals, h, Bool.and_false, Bool.false_and]

theorem isNan_decodeF (M : Describes F m) (c : Nat) : (decodeF m c).isNan = F.isNan c := by
  cases decoded M c with
  | nan hnan hdec => rw [hdec, hnan]; rfl
  | inf hnan hinf hdec => rw [hdec, hnan]; rfl
  | fin a n hnan hinf hdec => rw [hdec, hnan]; rfl

theorem isSnan_decodeF (M : Describes F m) (c : Nat) : (decodeF m c).isSnan = F.signals c := by
  cases decoded M c with
  | nan hnan hdec => rw [hdec]; rfl
  | inf hnan hinf hdec => rw [hdec, signals_of_not_nan hnan]; rfl
  | fin a n hnan hinf hdec => rw [hdec, signals_of_not_nan hnan]; rfl

end

end Sys2Proof.Machine
end

section
/-! # Uniform instructions: floating-point comparisons (03 R62) -/

namespace Sys2Proof.Machine

/-! ## `fcmp` (R62) -/

/-- The value of a word that is no NaN, by its sign and its magnitude. -/
theorem scaled_eq (x : Word) :
    Claims.scaled x = if x.getLsbD 31 then -(magUnits 23 (x.toNat % 2 ^ 31) : Int) else magUnits 23 (x.toNat % 2 ^ 31) := by
  have hexp : x.toNat % 2 ^ 31 / 2 ^ 23 = x.toNat / 2 ^ 23 % 256 := by omega
  have hman : x.toNat % 2 ^ 31 % 2 ^ 23 = x.toNat % 2 ^ 23 := by omega
  have hlow : x.toNat / 2 ^ 23 % 256 = 0 → x.toNat % 2 ^ 31 = x.toNat % 2 ^ 23 := by omega
  have hmag : magUnits 23 (x.toNat % 2 ^ 31) =
      if x.toNat / 2 ^ 23 % 256 = 0 then x.toNat % 2 ^ 23
      else (2 ^ 23 + x.toNat % 2 ^ 23) * 2 ^ (x.toNat / 2 ^ 23 % 256 - 1) := by
    rw [magUnits, hexp, hman]
    split
    · rename_i h
      exact hlow h
    · rfl
  rw [hmag]
  rfl

/-- Zeros apart, the order of keys is the order of values; the zeros are equal in both. -/
theorem cmpKey_lt_iff (a b : Word) : cmpKey a < cmpKey b ↔ Claims.scaled a < Claims.scaled b := by
  have hmono := magUnits_strictMono 23
  have hzero : magUnits 23 0 = 0 := rfl
  have hlt (m n : Nat) : ((m : Int) < n) ↔ (magUnits 23 m : Int) < magUnits 23 n := by
    rw [Int.ofNat_lt, Int.ofNat_lt, hmono.lt_iff_lt]
  have hpos (m : Nat) : 0 < m ↔ 0 < magUnits 23 m := by rw [← hmono.lt_iff_lt (a := 0), hzero]
  rw [scaled_eq, scaled_eq, cmpKey, cmpKey, bit, bit]
  generalize a.toNat % 2 ^ 31 = m
  generalize b.toNat % 2 ^ 31 = n
  have hmn := hlt m n
  have hnm := hlt n m
  have hm := hpos m
  have hn := hpos n
  cases a.getLsbD 31 <;> cases b.getLsbD 31 <;> simp only [Bool.false_eq_true, if_true, if_false] <;> omega

theorem cmpKey_eq_iff (a b : Word) : cmpKey a = cmpKey b ↔ Claims.scaled a = Claims.scaled b := by
  have hab := cmpKey_lt_iff a b
  have hba := cmpKey_lt_iff b a
  omega

/-- A condition holds of two pairs of numbers in the same order alike. -/
theorem cond_congr (k : BitVec 3) {a b c d : Int} (hlt : a < b ↔ c < d) (heq : a = b ↔ c = d) :
    Claims.cond k a b = Claims.cond k c d := by
  have hle : a ≤ b ↔ c ≤ d := by omega
  have hgt : b < a ↔ d < c := by omega
  have hge : b ≤ a ↔ d ≤ c := by omega
  simp only [Claims.cond, hlt, heq, hle, hgt, hge, ne_eq]

theorem isNaN_eq (x : Word) : Claims.isNaN x = Claims.binary32.isNan x.toNat := by
  have hmag : Claims.binary32.mag x.toNat = x.toNat % 2 ^ 31 := rfl
  have htop : Claims.binary32.top = 0x7F7FFFFF := rfl
  have hieee : Claims.binary32.ieee = true := rfl
  rw [Claims.Format.isNan, Claims.Format.isInf, hmag, htop, hieee, Claims.isNaN, Bool.eq_iff_iff]
  simp only [Bool.and_eq_true, beq_iff_eq, bne_iff_ne, decide_eq_true_eq, Bool.not_eq_true', Bool.true_and,
    beq_eq_false_iff_ne]
  omega

theorem isSignalling_eq (x : Word) : Claims.isSignalling x = Claims.binary32.signals x.toNat := by
  have hquiet : (x.toNat / 2 ^ 22 % 2 == 0) = !x.getLsbD 22 := by
    rw [BitVec.getLsbD, Nat.testBit_eq_decide_div_mod_eq, Bool.eq_iff_iff]
    simp only [beq_iff_eq, Bool.not_eq_true', decide_eq_false_iff_not]
    omega
  rw [Claims.isSignalling, isNaN_eq, ← hquiet]
  rfl

/-- A condition code from `lt` on asks for an order. -/
theorem two_le_iff (k : BitVec 3) : 2 ≤ k ↔ 2 ≤ k.toNat := BitVec.le_def

theorem fcmp_eq_relF (k : BitVec 3) (unordered : Bool) (a b : Word) : fcmp k unordered a b = Claims.relF unordered k a b := by
  have hsignals (x : Word) (h : Claims.binary32.isNan x.toNat = false) : Claims.binary32.signals x.toNat = false := by
    rw [Claims.Format.signals, h, Bool.and_false, Bool.false_and]
  simp only [fcmp, Claims.relF, val32, isNan_decodeF describes_binary32, isSnan_decodeF describes_binary32, isNaN_eq,
    isSignalling_eq, two_le_iff]
  cases hnan : Claims.binary32.isNan a.toNat || Claims.binary32.isNan b.toNat
  · obtain ⟨ha, hb⟩ := Bool.or_eq_false_iff.mp hnan
    simp only [hsignals a ha, hsignals b hb, Bool.false_eq_true, if_false, Bool.or_self, Bool.and_false, condHolds_eq_cond]
    rw [cond_congr k (cmpKey_lt_iff a b) (cmpKey_eq_iff a b)]
  · cases unordered
    · simp only [if_true, Bool.false_eq_true, if_false, Bool.not_false, Bool.true_and, Bool.and_true]
      rfl
    · simp only [if_true, Bool.not_true, Bool.false_and, Bool.or_false]
      rfl

theorem completesAs_floatCompare {i : Instr} {r : RegWord} (hi : Claims.floatCompare i = some r) : CompletesAs i r := by
  unfold Claims.floatCompare at hi
  split at hi <;> cases hi
  case h_1 | h_2 => exact completesAs_uC (fun _ => rfl) fun _ => fcmp_eq_relF ..

/-- The fields that choose the row of `fcmp` and of `fcmp.un` (02 Table 2-6). -/
theorem fcmp_row (o : SGKCAB) :
    (encode (.uFcmp o)).map (fun x => (fld x 31 1, fld x 21 6, fld x 19 2)) = [(1, 0x15, 0)] ∧
      (encode (.uFcmpUn o)).map (fun x => (fld x 31 1, fld x 21 6, fld x 19 2)) = [(1, 0x15, 1)] := by
  refine ⟨congrArg (fun e => [e]) ?_, congrArg (fun e => [e]) ?_⟩
  all_goals
    simp only [fld, BitVec.extractLsb'_append_eq_of_le, extract_append_low, Nat.reduceSub, Nat.reduceLeDiff,
      BitVec.extractLsb'_eq_self, BitVec.reduceExtractLsb']
    rfl

/-- Settles O3: the keys that the model compares are in the order of the values. -/
theorem floatComparisons : Obligations.FloatComparisons :=
  ⟨regWordsComplete_of fun _ _ => completesAs_floatCompare, fun o => (fcmp_row o).1, fun o => (fcmp_row o).2⟩

end Sys2Proof.Machine
end

section
/-! # Rounding (01 R34; 03 R59; 11 R204) -/

namespace Sys2Proof.Machine

/-! ## Rounding to an integer -/

/-- y lies at n or between n and n + 1, and k is the one of both that the direction takes: of a tie, the even one. -/
def RoundsTo (t : Claims.Towards) (y : ℝ) (n k : Nat) : Prop :=
  (n : ℝ) ≤ y ∧ y < n + 1 ∧ (y = n → k = n) ∧
    (y ≠ n →
      match t with
      | .down => k = n
      | .up => k = n + 1
      | .near => (y < n + 1 / 2 → k = n) ∧ (n + 1 / 2 < y → k = n + 1) ∧ (y = n + 1 / 2 → k % 2 = 0 ∧ (k = n ∨ k = n + 1)))

/-- An integer rounds to itself. -/
theorem roundsTo_self (t : Claims.Towards) (n : Nat) : RoundsTo t n n n :=
  ⟨le_rfl, lt_add_one _, fun _ => rfl, fun h => absurd rfl h⟩

/-- Whether a remainder r of a division by d moves the quotient n up. -/
def movesUp : Claims.Towards → Nat → Nat → Nat → Bool
  | .near, n, r, d => decide (d < 2 * r) || (2 * r == d && n % 2 == 1)
  | .down, _, _, _ => false
  | .up, _, r, _ => r != 0

theorem roundShift_eq (rm : RMode) (neg : Bool) (m sh : Nat) :
    roundShift rm neg m sh =
      (if movesUp (.of rm neg) (m / 2 ^ sh) (m % 2 ^ sh) (2 ^ sh) then m / 2 ^ sh + 1 else m / 2 ^ sh, m % 2 ^ sh != 0) := by
  cases rm with
  | rne =>
    have htie : (2 * (m % 2 ^ sh) == 2 ^ sh && sh != 0) = (2 * (m % 2 ^ sh) == 2 ^ sh) := by
      cases sh with
      | zero => simp [Nat.mod_one]
      | succ sh => simp
    simp only [roundShift, Claims.Towards.of, movesUp, htie]
    rfl
  | rz => rfl
  | ru | rd => cases neg <;> simp [roundShift, Claims.Towards.of, movesUp]

theorem roundsTo_movesUp (t : Claims.Towards) {n r d : Nat} (hr : r < d) :
    RoundsTo t (n + r / d) n (if movesUp t n r d then n + 1 else n) := by
  have hd : (0 : ℝ) < d := by exact_mod_cast Nat.zero_lt_of_lt hr
  have hlt : (r : ℝ) / d < 1 := (div_lt_one hd).mpr (by exact_mod_cast hr)
  have hnonneg : (0 : ℝ) ≤ r / d := by positivity
  have hzero : (r : ℝ) / d = 0 ↔ r = 0 := by
    rw [div_eq_zero_iff]
    simp [hd.ne']
  have hbelow : (r : ℝ) / d < 1 / 2 ↔ 2 * r < d := by
    rw [div_lt_div_iff₀ hd two_pos]
    norm_cast
    omega
  have habove : 1 / 2 < (r : ℝ) / d ↔ d < 2 * r := by
    rw [div_lt_div_iff₀ two_pos hd]
    norm_cast
    omega
  refine ⟨by linarith, by linarith, fun h => ?_, fun h => ?_⟩
  · have hr0 : r = 0 := hzero.mp (by linarith)
    have hstay : movesUp t n r d = false := by
      cases t <;> simp [movesUp, hr0]
      omega
    rw [hstay, if_neg Bool.false_ne_true]
  · have hr0 : r ≠ 0 := fun h0 => h (by rw [h0]; simp)
    cases t with
    | down => rfl
    | up => simp [movesUp, hr0]
    | near =>
      refine ⟨fun hy => ?_, fun hy => ?_, fun hy => ?_⟩
      · have := hbelow.mp (by linarith)
        have hstay : movesUp .near n r d = false := by simp [movesUp]; omega
        rw [hstay, if_neg Bool.false_ne_true]
      · have := habove.mp (by linarith)
        have hup : movesUp .near n r d = true := by simp [movesUp, this]
        rw [hup, if_pos rfl]
      · have h1 : ¬(2 * r < d) := fun h => by have := hbelow.mpr h; linarith
        have h2 : ¬(d < 2 * r) := fun h => by have := habove.mpr h; linarith
        have htie : 2 * r = d := by omega
        rcases Nat.mod_two_eq_zero_or_one n with hn | hn
        · have hstay : movesUp .near n r d = false := by simp [movesUp, htie, hn]
          rw [hstay, if_neg Bool.false_ne_true]
          exact ⟨hn, .inl rfl⟩
        · have hup : movesUp .near n r d = true := by simp [movesUp, htie, hn]
          rw [hup, if_pos rfl]
          exact ⟨by omega, .inr rfl⟩

/-- Rounding in a direction does not take y up to N. -/
def StaysBelow (N : Nat) (y : ℝ) : Claims.Towards → Prop
  | .near => y < N - 1 / 2
  | .down => y < N
  | .up => y ≤ N - 1

theorem roundsTo_lt_iff {t : Claims.Towards} {y : ℝ} {n k N : Nat} (h : RoundsTo t y n k) (hy : y < N) (hN : N % 2 = 0) :
    k < N ↔ StaysBelow N y t := by
  obtain ⟨hlo, hhi, hexact, hround⟩ := h
  have hn : n < N := by exact_mod_cast hlo.trans_lt hy
  have hnext : k ≤ n + 1 := by
    by_cases h0 : y = n
    · rw [hexact h0]
      omega
    · have := hround h0
      cases t with
      | down => simp only at this; omega
      | up => simp only at this; omega
      | near =>
        simp only at this
        obtain ⟨hb, ha, ht⟩ := this
        rcases lt_trichotomy y (n + 1 / 2) with h | h | h
        · rw [hb h]; omega
        · rcases (ht h).2 with h | h <;> omega
        · rw [ha h]
  by_cases hlast : n + 1 = N
  · have hcast : (N : ℝ) = n + 1 := by exact_mod_cast hlast.symm
    by_cases h0 : y = n
    · have hk := hexact h0
      have hlt : k < N := by omega
      cases t <;> simp only [hlt, true_iff, StaysBelow] <;> linarith
    · have hk := hround h0
      have hgt : (n : ℝ) < y := lt_of_le_of_ne hlo (Ne.symm h0)
      cases t with
      | down =>
        simp only [StaysBelow] at hk ⊢
        exact ⟨fun _ => hy, fun _ => by omega⟩
      | up =>
        simp only [StaysBelow] at hk ⊢
        exact ⟨fun h => by omega, fun h => by linarith⟩
      | near =>
        simp only [StaysBelow] at hk ⊢
        obtain ⟨hb, ha, ht⟩ := hk
        constructor
        · intro hlt
          by_contra hge
          rcases eq_or_lt_of_le (not_lt.mp hge) with h | h
          · have := ht (by linarith)
            omega
          · have := ha (by linarith)
            omega
        · intro hlt
          have := hb (by linarith)
          omega
  · have hcast : (n : ℝ) + 2 ≤ N := by exact_mod_cast (by omega : n + 2 ≤ N)
    have hlt : k < N := by omega
    cases t <;> simp only [hlt, true_iff, StaysBelow] <;> linarith

/-! ## Values that a rounding does not tell apart -/

/-- No multiple of 2^c stands between x and y, nor at one of them alone. -/
def SameSide (c : ℤ) (x y : ℝ) : Prop := ∀ j : ℤ, (x < j * 2 ^ c ↔ y < j * 2 ^ c) ∧ (j * 2 ^ c < x ↔ j * 2 ^ c < y)

theorem SameSide.refl (c : ℤ) (x : ℝ) : SameSide c x x := fun _ => ⟨Iff.rfl, Iff.rfl⟩

section
variable {c q : ℤ} {x y : ℝ}

/-- A multiple of a greater power of two. -/
theorem SameSide.of_le (h : SameSide c x y) (hq : c ≤ q) : SameSide q x y := by
  intro j
  obtain ⟨d, hd⟩ := Int.eq_ofNat_of_zero_le (sub_nonneg.mpr hq)
  have hpow : (j : ℝ) * 2 ^ q = ((j * 2 ^ d : ℤ) : ℝ) * 2 ^ c := by
    rw [show q = d + c by omega, zpow_add₀ two_ne_zero, zpow_natCast]
    push_cast
    ring
  rw [hpow]
  exact h _

theorem SameSide.lt_iff (h : SameSide c x y) (j : ℤ) : x < j * 2 ^ c ↔ y < j * 2 ^ c := (h j).1
theorem SameSide.gt_iff (h : SameSide c x y) (j : ℤ) : j * 2 ^ c < x ↔ j * 2 ^ c < y := (h j).2
theorem SameSide.le_iff (h : SameSide c x y) (j : ℤ) : x ≤ j * 2 ^ c ↔ y ≤ j * 2 ^ c := by
  rw [← not_lt, ← not_lt, h.gt_iff]
theorem SameSide.ge_iff (h : SameSide c x y) (j : ℤ) : j * 2 ^ c ≤ x ↔ j * 2 ^ c ≤ y := by
  rw [← not_lt, ← not_lt, h.lt_iff]
theorem SameSide.eq_iff (h : SameSide c x y) (j : ℤ) : x = j * 2 ^ c ↔ y = j * 2 ^ c := by
  rw [le_antisymm_iff, le_antisymm_iff, h.le_iff, h.ge_iff]

theorem SameSide.quot_eq_iff (h : SameSide c x y) (hq : c ≤ q) (n : Nat) : x / 2 ^ q = n ↔ y / 2 ^ q = n := by
  have hpos : (0 : ℝ) < 2 ^ q := by positivity
  rw [div_eq_iff hpos.ne', div_eq_iff hpos.ne']
  exact_mod_cast (h.of_le hq).eq_iff n

/-- Scaled so that the unit is 2^q, the two round alike: half a unit is a multiple of 2^c. -/
theorem SameSide.roundsTo (h : SameSide c x y) (hq : c < q) {t : Claims.Towards} {n k : Nat}
    (hy : RoundsTo t (y / 2 ^ q) n k) : RoundsTo t (x / 2 ^ q) n k := by
  have hpos : (0 : ℝ) < 2 ^ q := by positivity
  have hhalf : SameSide (q - 1) x y := h.of_le (by omega)
  have hsplit : (2 : ℝ) ^ q = 2 * 2 ^ (q - 1) := by
    rw [show q = 1 + (q - 1) by ring, zpow_add₀ two_ne_zero, zpow_one]
    ring_nf
  have hunit (a : ℝ) (j : ℤ) (ha : 2 * a = j) : a * 2 ^ q = j * 2 ^ (q - 1) := by rw [hsplit, ← ha]; ring
  have hlt (a : ℝ) (j : ℤ) (ha : 2 * a = j) : x / 2 ^ q < a ↔ y / 2 ^ q < a := by
    rw [div_lt_iff₀ hpos, div_lt_iff₀ hpos, hunit a j ha]
    exact hhalf.lt_iff j
  have hgt (a : ℝ) (j : ℤ) (ha : 2 * a = j) : a < x / 2 ^ q ↔ a < y / 2 ^ q := by
    rw [lt_div_iff₀ hpos, lt_div_iff₀ hpos, hunit a j ha]
    exact hhalf.gt_iff j
  have heq (a : ℝ) (j : ℤ) (ha : 2 * a = j) : x / 2 ^ q = a ↔ y / 2 ^ q = a := by
    rw [div_eq_iff hpos.ne', div_eq_iff hpos.ne', hunit a j ha]
    exact hhalf.eq_iff j
  have h0 : 2 * (n : ℝ) = (2 * n : ℤ) := by push_cast; ring
  have h1 : 2 * ((n : ℝ) + 1 / 2) = (2 * n + 1 : ℤ) := by push_cast; ring
  have h2 : 2 * ((n : ℝ) + 1) = (2 * n + 2 : ℤ) := by push_cast; ring
  obtain ⟨hlo, hhi, hexact, hround⟩ := hy
  refine ⟨?_, (hlt _ _ h2).mpr hhi, fun hx => hexact ((heq _ _ h0).mp hx), fun hx => ?_⟩
  · rw [← not_lt, hlt _ _ h0, not_lt]
    exact hlo
  · have hy := hround (mt (heq _ _ h0).mpr hx)
    cases t with
    | down | up => exact hy
    | near =>
      obtain ⟨hb, ha, ht⟩ := hy
      exact ⟨fun h => hb ((hlt _ _ h1).mp h), fun h => ha ((hgt _ _ h1).mp h), fun h => ht ((heq _ _ h1).mp h)⟩

end

/-! ## Rounding to a code of a format -/

section
variable {F : Claims.Format} {m : Fmt}

/-- A significand of a block that rounds gives the code that rounds: the next code of the block, or the first of the next. -/
theorem takes_of_roundsTo (hman : 0 < F.man) {t : Claims.Towards} {a n k : Nat} {x : ℝ} (hn : n < 2 ^ (F.man + 1))
    (ha : a = 0 ∨ 2 ^ F.man ≤ n) (h : RoundsTo t (x / 2 ^ (a + leastExp F)) n k) :
    F.Takes t x (a * 2 ^ F.man + n) (a * 2 ^ F.man + k) ∧ (x = F.ladder (a * 2 ^ F.man + n) ↔ x / 2 ^ (a + leastExp F) = n) := by
  have hpos : (0 : ℝ) < 2 ^ (a + leastExp F) := by positivity
  have hlo : ((F.ladder (a * 2 ^ F.man + n) : ℚ) : ℝ) = n * 2 ^ (a + leastExp F) := by
    rw [ladder_block F hn.le ha]
    push_cast
    rfl
  have hhi : ((F.ladder (a * 2 ^ F.man + n + 1) : ℚ) : ℝ) = (n + 1) * 2 ^ (a + leastExp F) := by
    rw [Nat.add_assoc, ladder_block F (Nat.succ_le_of_lt hn) (ha.imp_right Nat.le_succ_of_le)]
    push_cast
    rfl
  have hmid : ((F.ladder (a * 2 ^ F.man + n) + F.ladder (a * 2 ^ F.man + n + 1) : ℚ) : ℝ) / 2 =
      (n + 1 / 2) * 2 ^ (a + leastExp F) := by
    rw [Rat.cast_add, hlo, hhi]
    ring
  have heven : 2 ∣ a * 2 ^ F.man := Dvd.dvd.mul_left (dvd_pow_self 2 hman.ne') a
  have hexact : x = F.ladder (a * 2 ^ F.man + n) ↔ x / 2 ^ (a + leastExp F) = n := by rw [hlo, div_eq_iff hpos.ne']
  obtain ⟨hb, ha', hself, hround⟩ := h
  refine ⟨⟨?_, ?_, fun hx => ?_, fun hx => ?_⟩, hexact⟩
  · rw [hlo, ← le_div_iff₀ hpos]
    exact hb
  · rw [hhi, ← div_lt_iff₀ hpos]
    exact ha'
  · rw [hself (hexact.mp hx)]
  · have hk := hround (mt hexact.mpr hx)
    cases t with
    | down =>
      simp only at hk ⊢
      rw [hk]
    | up =>
      simp only at hk ⊢
      rw [hk, Nat.add_assoc]
    | near =>
      simp only at hk ⊢
      obtain ⟨hbelow, habove, htie⟩ := hk
      rw [hmid]
      refine ⟨fun h => ?_, fun h => ?_, fun h => ?_⟩
      · rw [hbelow ((div_lt_iff₀ hpos).mpr h)]
      · rw [habove ((lt_div_iff₀ hpos).mpr h), Nat.add_assoc]
      · obtain ⟨hpar, hk⟩ := htie ((div_eq_iff hpos.ne').mpr h)
        exact ⟨by omega, by omega⟩

/-! ## The model's rounding -/

/-- m × 2^e rounded to a multiple of 2^q, and whether it is none. -/
def roundAt (rm : RMode) (neg : Bool) (m : Nat) (e q : ℤ) : Nat × Bool :=
  if q ≤ e then (m * 2 ^ (e - q).toNat, false) else roundShift rm neg m (q - e).toNat

theorem roundAt_roundsTo (rm : RMode) (neg : Bool) (m : Nat) (e q : ℤ) :
    ∃ n, RoundsTo (.of rm neg) (m * 2 ^ e / 2 ^ q) n (roundAt rm neg m e q).1 ∧
      ((roundAt rm neg m e q).2 = true ↔ (m * 2 ^ e / 2 ^ q : ℝ) ≠ n) := by
  have hquot : (m * 2 ^ e / 2 ^ q : ℝ) = m * 2 ^ (e - q) := by rw [zpow_sub₀ two_ne_zero, mul_div_assoc]
  rw [roundAt, hquot]
  split
  · rename_i hq
    obtain ⟨d, hd⟩ := Int.eq_ofNat_of_zero_le (sub_nonneg.mpr hq)
    have hint : (m * 2 ^ (e - q) : ℝ) = (m * 2 ^ d : Nat) := by
      rw [hd, zpow_natCast]
      push_cast
      rfl
    refine ⟨m * 2 ^ d, ?_, by simp [hint]⟩
    rw [hint, hd]
    exact roundsTo_self _ _
  · rename_i hq
    obtain ⟨d, hd⟩ := Int.eq_ofNat_of_zero_le (show 0 ≤ q - e by omega)
    have hpos : (0 : ℝ) < 2 ^ d := by positivity
    have hdiv : (m : ℝ) = (m / 2 ^ d : Nat) * 2 ^ d + (m % 2 ^ d : Nat) := by
      exact_mod_cast (Nat.div_add_mod' m (2 ^ d)).symm
    have hsplit : (m * 2 ^ (e - q) : ℝ) = (m / 2 ^ d : Nat) + (m % 2 ^ d : Nat) / (2 ^ d : Nat) := by
      rw [show e - q = -(d : ℤ) by omega, zpow_neg, zpow_natCast, ← div_eq_mul_inv, div_eq_iff hpos.ne', add_mul]
      push_cast
      rw [div_mul_cancel₀ _ hpos.ne']
      exact hdiv
    refine ⟨m / 2 ^ d, ?_, ?_⟩
    · rw [hsplit, hd, roundShift_eq]
      exact roundsTo_movesUp _ (Nat.mod_lt _ (Nat.two_pow_pos d))
    · rw [hsplit, hd, roundShift_eq, bne_iff_ne, not_iff_not]
      simp [hpos.ne']

theorem two_pow_le_of_bitLen {m : Nat} (hm : m ≠ 0) : 2 ^ (bitLen m - 1) ≤ m ∧ m < 2 ^ bitLen m ∧ 0 < bitLen m := by
  rw [bitLen, if_neg hm]
  exact ⟨Nat.log2_self_le hm, Nat.lt_log2_self, Nat.succ_pos _⟩

/-- m × 2^e stands between 2^top and 2^(top + 1). -/
theorem bitLen_bounds {m : Nat} (hm : m ≠ 0) (e : ℤ) :
    (2 : ℝ) ^ (e + bitLen m - 1) ≤ m * 2 ^ e ∧ (m * 2 ^ e : ℝ) < 2 ^ (e + bitLen m) := by
  obtain ⟨hlo, hhi, hpos⟩ := two_pow_le_of_bitLen hm
  have hlo' : ((2 ^ (bitLen m - 1) : Nat) : ℝ) ≤ m := by exact_mod_cast hlo
  have hhi' : (m : ℝ) < (2 ^ bitLen m : Nat) := by exact_mod_cast hhi
  have he : (0 : ℝ) < 2 ^ e := by positivity
  constructor
  · rw [show e + bitLen m - 1 = ((bitLen m - 1 : Nat) : ℤ) + e by omega, zpow_add₀ two_ne_zero, zpow_natCast]
    push_cast at hlo'
    exact mul_le_mul_of_nonneg_right hlo' he.le
  · rw [add_comm, zpow_add₀ two_ne_zero, zpow_natCast]
    push_cast at hhi'
    exact mul_lt_mul_of_pos_right hhi' he

/-- The exponent of the unit to which a value with highest bit `top` is rounded: that of the precision, but not below the least
magnitude of the format. -/
def unitExp (F : Claims.Format) (top : ℤ) : ℤ := if top - F.man < leastExp F then leastExp F else top - F.man

theorem roundMag_eq (M : Describes F m) (rm : RMode) (neg : Bool) (s : Nat) (e : ℤ) :
    roundMag m rm neg s e =
      let top := e + bitLen s - 1
      let q := unitExp F top
      { code := (q - leastExp F).toNat * 2 ^ F.man + (roundAt rm neg s e q).1, inexact := (roundAt rm neg s e q).2
        tiny := top < 1 - F.bias && (top + 1 < 1 - F.bias || (roundAt rm neg s e (top - F.man)).1 < 2 ^ (F.man + 1)) } := by
  unfold roundMag
  rw [M.man, M.bias]
  rfl

/-- Tininess, in units of the precision just below the least normal magnitude. -/
theorem tiny_iff {t : Claims.Towards} {x : ℝ} :
    F.Tiny t x ↔ StaysBelow (2 ^ (F.man + 1)) (x / 2 ^ (-F.bias - F.man)) t := by
  have hpos : (0 : ℝ) < 2 ^ (-F.bias - F.man) := by positivity
  have hleast : (2 : ℝ) ^ (1 - F.bias) = (2 ^ (F.man + 1) : Nat) * 2 ^ (-F.bias - F.man) := by
    rw [show 1 - F.bias = ((F.man + 1 : Nat) : ℤ) + (-F.bias - F.man) by push_cast; ring, zpow_add₀ two_ne_zero, zpow_natCast]
    push_cast
    rfl
  have hup : (2 : ℝ) ^ (1 - F.bias - 1 - F.man) = 2 ^ (-F.bias - F.man) := by ring_nf
  have hnear : (2 : ℝ) ^ (1 - F.bias - 2 - F.man) = 1 / 2 * 2 ^ (-F.bias - F.man) := by
    rw [show 1 - F.bias - 2 - F.man = -1 + (-F.bias - F.man) by ring, zpow_add₀ two_ne_zero, zpow_neg_one]
    ring
  unfold Claims.Format.Tiny
  cases t with
  | near =>
    simp only [StaysBelow]
    rw [hleast, hnear, ← sub_mul, div_lt_iff₀ hpos]
  | down =>
    simp only [StaysBelow]
    rw [hleast, div_lt_iff₀ hpos]
  | up =>
    simp only [StaysBelow]
    rw [hleast, hup, div_le_iff₀ hpos, sub_mul, one_mul]

section
variable {rm : RMode} {neg : Bool} {s : Nat} {e c : ℤ} {x : ℝ}

/-- A value that the unit of its precision does not tell from s × 2^e has the same highest bit. -/
theorem SameSide.bounds (hs : s ≠ 0) (hx : SameSide c x (s * 2 ^ e)) (hc : c < e + bitLen s) :
    (2 : ℝ) ^ (e + bitLen s - 1) ≤ x ∧ x < 2 ^ (e + bitLen s) := by
  obtain ⟨hlo, hhi⟩ := bitLen_bounds hs e
  have hge := (hx.of_le (show c ≤ e + bitLen s - 1 by omega)).ge_iff 1
  have hlt := (hx.of_le (show c ≤ e + bitLen s by omega)).lt_iff 1
  simp only [Int.cast_one, one_mul] at hge hlt
  exact ⟨hge.mpr hlo, hlt.mpr hhi⟩

theorem div_two_zpow_lt {y : ℝ} {q r : ℤ} {p : Nat} (hy : y < 2 ^ q) (hq : q ≤ p + r) : y / 2 ^ r < (2 ^ p : Nat) := by
  rw [div_lt_iff₀ (by positivity)]
  refine hy.trans_le ((zpow_le_zpow_right₀ one_le_two hq).trans_eq ?_)
  rw [zpow_add₀ two_ne_zero, zpow_natCast]
  push_cast
  rfl

theorem le_div_two_zpow {y : ℝ} {q r : ℤ} {p : Nat} (hy : (2 : ℝ) ^ q ≤ y) (hq : p + r ≤ q) : ((2 ^ p : Nat) : ℝ) ≤ y / 2 ^ r := by
  rw [le_div_iff₀ (by positivity)]
  refine Eq.trans_le ?_ ((zpow_le_zpow_right₀ one_le_two hq).trans hy)
  rw [zpow_add₀ two_ne_zero, zpow_natCast]
  push_cast
  rfl

/-- Whether the model finds a value tiny (R59). -/
theorem tiny_roundMag (M : Describes F m) (hs : s ≠ 0) (hx : SameSide c x (s * 2 ^ e)) (hc : c + F.man + 2 ≤ e + bitLen s) :
    (roundMag m rm neg s e).tiny = true ↔ F.Tiny (.of rm neg) x := by
  obtain ⟨hlo, hhi⟩ := hx.bounds hs (by omega)
  rw [roundMag_eq M, tiny_iff]
  simp only [Bool.and_eq_true, Bool.or_eq_true, decide_eq_true_eq]
  rcases lt_trichotomy (e + bitLen s) (1 - F.bias) with htop | htop | htop
  · have hsmall : x / 2 ^ (-F.bias - F.man) < (2 ^ F.man : Nat) := div_two_zpow_lt hhi (by omega)
    have hone : ((2 ^ F.man : Nat) : ℝ) ≤ (2 ^ (F.man + 1) : Nat) - 1 := by
      rw [le_sub_iff_add_le]
      exact_mod_cast (by rw [pow_succ]; have := Nat.two_pow_pos F.man; omega : 2 ^ F.man + 1 ≤ 2 ^ (F.man + 1))
    have hlhs : e + bitLen s - 1 < 1 - F.bias ∧ (e + bitLen s - 1 + 1 < 1 - F.bias ∨
        (roundAt rm neg s e (e + bitLen s - 1 - F.man)).1 < 2 ^ (F.man + 1)) := ⟨by omega, .inl (by omega)⟩
    refine iff_of_true hlhs ?_
    cases Claims.Towards.of rm neg <;> simp only [StaysBelow] <;> linarith
  · obtain ⟨n, hround, -⟩ := roundAt_roundsTo rm neg s e (e + bitLen s - 1 - F.man)
    have hround' := hx.roundsTo (by omega) hround
    have hlt : x / 2 ^ (e + bitLen s - 1 - F.man) < (2 ^ (F.man + 1) : Nat) := div_two_zpow_lt hhi (by push_cast; omega)
    have hiff := roundsTo_lt_iff hround' hlt (by rw [pow_succ, Nat.mul_mod_left])
    rw [show -F.bias - F.man = e + bitLen s - 1 - F.man by omega, ← hiff]
    constructor
    · rintro ⟨-, h | h⟩
      · omega
      · exact h
    · exact fun h => ⟨by omega, .inr h⟩
  · have hlarge : ((2 ^ (F.man + 1) : Nat) : ℝ) ≤ x / 2 ^ (-F.bias - F.man) := le_div_two_zpow hlo (by push_cast; omega)
    refine iff_of_false (fun h => by omega) ?_
    cases Claims.Towards.of rm neg <;> simp only [StaysBelow] <;> linarith

/-- The code that the model gives a magnitude is the one that the direction takes. -/
theorem takes_roundMag (M : Describes F m) (hs : s ≠ 0) (hx : SameSide c x (s * 2 ^ e)) (hc : c + F.man + 2 ≤ e + bitLen s) :
    ∃ l, F.Takes (.of rm neg) x l (roundMag m rm neg s e).code ∧
      ((roundMag m rm neg s e).inexact = true ↔ x ≠ F.ladder l) := by
  obtain ⟨hlo, hhi⟩ := bitLen_bounds hs e
  rw [roundMag_eq M]
  simp only
  have hq : e + bitLen s - 1 - F.man ≤ unitExp F (e + bitLen s - 1) ∧ leastExp F ≤ unitExp F (e + bitLen s - 1) ∧
      (unitExp F (e + bitLen s - 1) = leastExp F ∨ unitExp F (e + bitLen s - 1) = e + bitLen s - 1 - F.man) := by
    rw [unitExp]
    split <;> omega
  obtain ⟨hq1, hq2, hq3⟩ := hq
  generalize unitExp F (e + bitLen s - 1) = q at hq1 hq2 hq3
  obtain ⟨a, ha⟩ := Int.eq_ofNat_of_zero_le (sub_nonneg.mpr hq2)
  obtain rfl : q = a + leastExp F := by omega
  obtain ⟨n, hround, hinexact⟩ := roundAt_roundsTo rm neg s e (a + leastExp F)
  have hblock : a = 0 ∨ 2 ^ F.man ≤ n := by
    refine hq3.imp (fun h => by omega) fun h => ?_
    have hge : ((2 ^ F.man : Nat) : ℝ) ≤ s * 2 ^ e / 2 ^ (a + leastExp F) := le_div_two_zpow hlo (by omega)
    have hlt := hge.trans_lt hround.2.1
    exact Nat.lt_succ_iff.mp (by exact_mod_cast hlt)
  have hn : n < 2 ^ (F.man + 1) := by
    have hlt : s * 2 ^ e / 2 ^ (a + leastExp F) < ((2 ^ (F.man + 1) : Nat) : ℝ) := div_two_zpow_lt hhi (by push_cast; omega)
    exact_mod_cast hround.1.trans_lt hlt
  obtain ⟨htakes, hexact⟩ := takes_of_roundsTo M.man_pos hn hblock (hx.roundsTo (by omega) hround)
  refine ⟨a * 2 ^ F.man + n, ?_, ?_⟩
  · rwa [ha, Int.toNat_natCast]
  · rw [hinexact, ne_eq, ne_eq, hexact, hx.quot_eq_iff (by omega)]

/-- The magnitude that an overflow gives: ∞ where the direction goes away from zero and the format has one. -/
def overflowMag (F : Claims.Format) (t : Claims.Towards) : Nat :=
  match t, F.ieee with
  | .down, _ => F.top
  | _, true => F.top + 1
  | _, false => F.top

theorem roundF_overflow (M : Describes F m) (h : F.top < (roundMag m rm neg s e).code) :
    roundF m rm neg s e = (F.signed neg + overflowMag F (.of rm neg), 0x1400) := by
  unfold roundF overflowMag
  rw [M.exp, M.man, M.top, M.inf]
  simp only [if_pos h]
  cases rm <;> cases neg <;> cases F.ieee <;> rfl

theorem roundF_within (M : Describes F m) (h : ¬F.top < (roundMag m rm neg s e).code) :
    roundF m rm neg s e =
      (F.signed neg + (roundMag m rm neg s e).code,
        flagIf (roundMag m rm neg s e).inexact fNX |||
          flagIf ((roundMag m rm neg s e).tiny && (roundMag m rm neg s e).inexact) fUF) := by
  unfold roundF
  rw [M.exp, M.man, M.top]
  simp only [if_neg h]
  rfl

/-- RoundFP32 for any format (01 R34): the model's rounding is the one that the rules state. -/
theorem rounds_roundF (M : Describes F m) (hs : s ≠ 0) (hx : SameSide c x (s * 2 ^ e)) (hc : c + F.man + 2 ≤ e + bitLen s) :
    F.Rounds rm neg x (roundF m rm neg s e) := by
  obtain ⟨l, htakes, hinexact⟩ := takes_roundMag (rm := rm) (neg := neg) M hs hx hc
  have htiny := tiny_roundMag (rm := rm) (neg := neg) M hs hx hc
  refine ⟨l, (roundMag m rm neg s e).code, htakes, fun hover => ?_, fun hfin => ?_⟩
  · exact roundF_overflow M hover
  · rw [roundF_within M (Nat.not_lt.mpr hfin)]
    refine ⟨rfl, fun hx => ?_, fun hx ht => ?_, fun hx ht => ?_⟩
    · have h : (roundMag m rm neg s e).inexact = false := by
        rw [← Bool.not_eq_true, hinexact, not_not]
        exact hx
      rw [h, Bool.and_false]
      rfl
    · rw [hinexact.mpr hx, htiny.mpr ht]
      rfl
    · have h : (roundMag m rm neg s e).tiny = false := by
        rw [← Bool.not_eq_true, htiny]
        exact ht
      rw [hinexact.mpr hx, h]
      rfl

/-- The same for the exact value. -/
theorem rounds_roundF_exact (M : Describes F m) (rm : RMode) (neg : Bool) (hs : s ≠ 0) (e : ℤ) :
    F.Rounds rm neg (s * 2 ^ e) (roundF m rm neg s e) :=
  rounds_roundF M hs (SameSide.refl (e + bitLen s - F.man - 2) _) (by omega)

end

end

end Sys2Proof.Machine
end

section
/-! # Sums and products with one rounding (03 R59, R60; 05 R109) -/

namespace Sys2Proof.Machine

/-! ## Exact values -/

/-- An integer from its sign and its magnitude. -/
def signedInt (neg : Bool) (n : Nat) : ℤ := if neg then -(n : ℤ) else n

theorem signedInt_eq_zero_iff (neg : Bool) (n : Nat) : signedInt neg n = 0 ↔ n = 0 := by
  unfold signedInt
  split <;> omega

theorem natAbs_signedInt (neg : Bool) (n : Nat) : (signedInt neg n).natAbs = n := by
  unfold signedInt
  split <;> simp

theorem signedInt_neg_iff {neg : Bool} {n : Nat} (hn : n ≠ 0) : decide (signedInt neg n < 0) = neg := by
  unfold signedInt
  cases neg <;> simp
  omega

theorem signedInt_mul (a b : Bool) (m n : Nat) : signedInt a m * signedInt b n = signedInt (a != b) (m * n) := by
  unfold signedInt
  cases a <;> cases b <;> simp

section
variable {F : Claims.Format} {m : Fmt}

/-- The value of a finite code. -/
theorem val_eq {c a n : Nat} (hmag : F.mag c = a * 2 ^ F.man + n) (hn : n < 2 ^ (F.man + 1)) (ha : a = 0 ∨ 2 ^ F.man ≤ n) :
    F.val c = signedInt (F.neg c) n * 2 ^ (a + leastExp F) := by
  rw [Claims.Format.val, hmag, ladder_block F hn.le ha, signedInt]
  split
  · push_cast
    ring
  · norm_cast

theorem mag_eq_zero_iff {c a n : Nat} (hmag : F.mag c = a * 2 ^ F.man + n) (ha : a = 0 ∨ 2 ^ F.man ≤ n) :
    F.mag c = 0 ↔ n = 0 := by
  have hpos := Nat.two_pow_pos F.man
  rw [hmag]
  constructor
  · omega
  · intro hn
    obtain rfl : a = 0 := by omega
    omega

theorem zeroF_eq (M : Describes F m) (neg : Bool) : zeroF m neg = F.signed neg := by
  rw [zeroF, Claims.Format.signed, M.exp, M.man]

theorem infF_eq (M : Describes F m) (neg : Bool) : infF m neg = F.inf neg := by
  rw [infF, zeroF_eq M, M.top]
  rfl

/-- An exact value that is rounded; z × 2^e is zero only for z = 0. -/
theorem gives_roundF (M : Describes F m) (rm : RMode) (zero : Bool) {z : ℤ} (hz : z ≠ 0) (e : ℤ) :
    F.Gives rm zero (z * 2 ^ e) (roundF m rm (decide (z < 0)) z.natAbs e) := by
  have hpos : (0 : ℚ) < 2 ^ e := by positivity
  have hne : (z * 2 ^ e : ℚ) ≠ 0 := mul_ne_zero (by exact_mod_cast hz) hpos.ne'
  have hneg : (z * 2 ^ e : ℚ) < 0 ↔ z < 0 := by
    rw [mul_neg_iff]
    simp [hpos, hpos.not_gt]
  have habs : ((|(z * 2 ^ e : ℚ)| : ℚ) : ℝ) = z.natAbs * 2 ^ e := by
    rw [abs_mul, abs_of_pos hpos, Nat.cast_natAbs]
    push_cast
    rfl
  rw [Claims.Format.Gives, if_neg hne, habs]
  simp only [hneg]
  exact rounds_roundF_exact M rm _ (Int.natAbs_ne_zero.mpr hz) e

theorem gives_zero {rm : RMode} {zero neg : Bool} {x : ℚ} (hx : x = 0) (h : zero = neg) : F.Gives rm zero x (F.signed neg, 0) := by
  rw [Claims.Format.Gives, if_pos hx, h]

/-- A signed significand that may be zero. -/
theorem gives_packF (M : Describes F m) (rm : RMode) (neg : Bool) (n : Nat) (e : ℤ) :
    F.Gives rm neg (signedInt neg n * 2 ^ e) (packF m rm neg n e) := by
  rw [packF]
  split
  · rename_i hn
    rw [zeroF_eq M]
    exact gives_zero (by rw [(signedInt_eq_zero_iff neg n).mpr hn]; simp) rfl
  · rename_i hn
    have h := gives_roundF M rm neg (mt (signedInt_eq_zero_iff neg n).mp hn) e
    rwa [signedInt_neg_iff hn, natAbs_signedInt] at h

/-- The sum of two finite values; an exact zero of unlike signs is negative under RD alone. -/
theorem gives_addFin (M : Describes F m) (rm : RMode) (n1 n2 : Bool) (m1 m2 : Nat) (e1 e2 : ℤ) :
    F.Gives rm (if n1 = n2 then n1 else rm == .rd) (signedInt n1 m1 * 2 ^ e1 + signedInt n2 m2 * 2 ^ e2)
      (addFin m rm n1 m1 e1 n2 m2 e2) := by
  obtain ⟨d1, h1⟩ := Int.eq_ofNat_of_zero_le (show 0 ≤ e1 - min e1 e2 by omega)
  obtain ⟨d2, h2⟩ := Int.eq_ofNat_of_zero_le (show 0 ≤ e2 - min e1 e2 by omega)
  have hscale (neg : Bool) (s d : Nat) {e : ℤ} (he : e - min e1 e2 = d) :
      (signedInt neg s * 2 ^ e : ℚ) = (signedInt neg (s * 2 ^ d) : ℚ) * 2 ^ min e1 e2 := by
    have hint : (signedInt neg (s * 2 ^ d) : ℚ) = signedInt neg s * 2 ^ d := by
      unfold signedInt
      cases neg <;> simp
    rw [hint, show e = d + min e1 e2 by omega, zpow_add₀ two_ne_zero, zpow_natCast, mul_assoc]
  have hval : (signedInt n1 m1 * 2 ^ e1 + signedInt n2 m2 * 2 ^ e2 : ℚ) =
      ((signedInt n1 (m1 * 2 ^ d1) + signedInt n2 (m2 * 2 ^ d2) : ℤ) : ℚ) * 2 ^ min e1 e2 := by
    rw [hscale n1 m1 d1 h1, hscale n2 m2 d2 h2]
    push_cast
    ring
  have hsum : addFin m rm n1 m1 e1 n2 m2 e2 =
      let z := signedInt n1 (m1 * 2 ^ d1) + signedInt n2 (m2 * 2 ^ d2)
      if z = 0 then (zeroF m (if m1 = 0 ∧ m2 = 0 ∧ n1 = n2 then n1 else rm == .rd), 0)
      else roundF m rm (decide (z < 0)) z.natAbs (min e1 e2) := by
    unfold addFin
    simp only [h1, h2, Int.toNat_natCast]
    rfl
  rw [hval, hsum]
  by_cases hz : signedInt n1 (m1 * 2 ^ d1) + signedInt n2 (m2 * 2 ^ d2) = 0
  · simp only [if_pos hz, zeroF_eq M]
    refine gives_zero (by rw [hz]; simp) ?_
    by_cases hn : n1 = n2
    · subst hn
      have hboth : m1 * 2 ^ d1 = 0 ∧ m2 * 2 ^ d2 = 0 := by
        unfold signedInt at hz
        split at hz <;> omega
      have h0 : m1 = 0 ∧ m2 = 0 := by simpa using hboth
      simp [h0]
    · simp [hn]
  · simp only [if_neg hz]
    exact gives_roundF M rm _ hz _

/-! ## The operations on codes -/

/-- R59, R60: a sum. -/
theorem adds_addV (M : Describes F m) (rm : RMode) (a b : Nat) : F.Adds rm a b (addV m rm (decodeF m a) (decodeF m b)) := by
  cases decoded M a with
  | nan hnan hdec =>
    simp only [Claims.Format.Adds, hnan, hdec, addV, isSnan_decodeF M b, M.nan, Bool.true_or, if_true]
    rfl
  | inf hnan hinf hdec =>
    have hsig := signals_of_not_nan hnan
    cases decoded M b with
    | nan hnanb hdecb =>
      simp only [Claims.Format.Adds, hnan, hdec, hnanb, hdecb, hsig, addV, M.nan, Bool.false_or, if_true]
      rfl
    | inf hnanb hinfb hdecb =>
      simp only [Claims.Format.Adds, hnan, hdec, hnanb, hdecb, hinf, hinfb, addV, infF_eq M, M.nan, Bool.or_self, Bool.and_self,
        Bool.false_eq_true, if_true, if_false]
      rfl
    | fin d k hnanb hinfb hdecb =>
      simp only [Claims.Format.Adds, hnan, hdec, hnanb, hdecb, hinf, hinfb, addV, infF_eq M, Bool.or_self, Bool.and_false,
        Bool.false_eq_true, if_true, if_false]
  | fin c n hnan hinf hdec hmag hn hc htop =>
    have hsig := signals_of_not_nan hnan
    cases decoded M b with
    | nan hnanb hdecb =>
      simp only [Claims.Format.Adds, hnan, hdec, hnanb, hdecb, hsig, addV, M.nan, Bool.false_or, if_true]
      rfl
    | inf hnanb hinfb hdecb =>
      simp only [Claims.Format.Adds, hnan, hdec, hnanb, hdecb, hinf, hinfb, addV, infF_eq M, Bool.or_self, Bool.and_true,
        Bool.false_eq_true, if_true, if_false]
    | fin d k hnanb hinfb hdecb hmagb hk hd htopb =>
      simp only [Claims.Format.Adds, hnan, hdec, hnanb, hdecb, hinf, hinfb, addV, Bool.or_self, Bool.and_self,
        Bool.false_eq_true, if_false, val_eq hmag hn hc, val_eq hmagb hk hd]
      exact gives_addFin M rm _ _ n k _ _

theorem mag_ne_zero_of_inf {c : Nat} (h : F.isInf c = true) : F.mag c ≠ 0 := by
  simp only [Claims.Format.isInf, Bool.and_eq_true, beq_iff_eq] at h
  omega

/-- The product of two finite values. -/
theorem val_mul {a b c d n k : Nat} (hmag : F.mag a = c * 2 ^ F.man + n) (hn : n < 2 ^ (F.man + 1)) (hc : c = 0 ∨ 2 ^ F.man ≤ n)
    (hmagb : F.mag b = d * 2 ^ F.man + k) (hk : k < 2 ^ (F.man + 1)) (hd : d = 0 ∨ 2 ^ F.man ≤ k) :
    F.val a * F.val b = signedInt (F.neg a != F.neg b) (n * k) * 2 ^ ((c + leastExp F) + (d + leastExp F)) := by
  rw [val_eq hmag hn hc, val_eq hmagb hk hd, ← signedInt_mul, zpow_add₀ two_ne_zero (c + leastExp F), Int.cast_mul,
    mul_mul_mul_comm]

/-- R60: a product. -/
theorem multiplies_mulV (M : Describes F m) (rm : RMode) (a b : Nat) :
    F.Multiplies rm a b (mulV m rm (decodeF m a) (decodeF m b)) := by
  cases decoded M a with
  | nan hnan hdec =>
    simp only [Claims.Format.Multiplies, hnan, hdec, mulV, isSnan_decodeF M b, M.nan, Bool.true_or, if_true]
    rfl
  | inf hnan hinf hdec =>
    have hmag := mag_ne_zero_of_inf hinf
    cases decoded M b with
    | nan hnanb hdecb =>
      simp only [Claims.Format.Multiplies, hdec, hnanb, hdecb, signals_of_not_nan hnan, mulV, M.nan, Bool.or_true, if_true]
      rfl
    | inf hnanb hinfb hdecb =>
      have hmagb := mag_ne_zero_of_inf hinfb
      simp [Claims.Format.Multiplies, Claims.Format.zeroTimesInf, hnan, hdec, hnanb, hdecb, hinf, hmag, hmagb, mulV, infF_eq M]
    | fin d k hnanb hinfb hdecb hmagb hk hd htopb =>
      have hzero := mag_eq_zero_iff hmagb hd
      cases k with
      | zero => simp [Claims.Format.Multiplies, Claims.Format.zeroTimesInf, hnan, hdec, hnanb, hdecb, hinf, mulV, M.nan, hzero, fNV]
      | succ k =>
        simp [Claims.Format.Multiplies, Claims.Format.zeroTimesInf, hnan, hdec, hnanb, hdecb, hinf, hinfb, mulV, infF_eq M, hzero]
  | fin c n hnan hinf hdec hmag hn hc htop =>
    have hzero := mag_eq_zero_iff hmag hc
    cases decoded M b with
    | nan hnanb hdecb =>
      simp only [Claims.Format.Multiplies, hdec, hnanb, hdecb, signals_of_not_nan hnan, mulV, M.nan, Bool.or_true, if_true]
      rfl
    | inf hnanb hinfb hdecb =>
      have hmagb := mag_ne_zero_of_inf hinfb
      cases n with
      | zero => simp [Claims.Format.Multiplies, Claims.Format.zeroTimesInf, hnan, hdec, hnanb, hdecb, hinfb, mulV, M.nan, hzero, fNV]
      | succ n =>
        simp [Claims.Format.Multiplies, Claims.Format.zeroTimesInf, hnan, hdec, hnanb, hdecb, hinf, hinfb, mulV, infF_eq M, hzero]
    | fin d k hnanb hinfb hdecb hmagb hk hd htopb =>
      have hgives := gives_packF M rm (F.neg a != F.neg b) (n * k) ((c + leastExp F) + (d + leastExp F))
      rw [← val_mul hmag hn hc hmagb hk hd] at hgives
      simpa [Claims.Format.Multiplies, Claims.Format.zeroTimesInf, hnan, hdec, hnanb, hdecb, hinf, hinfb, mulV] using hgives

/-- An infinite product and a sum. -/
theorem addInf_eq (M : Describes F m) (d : Nat) (n : Bool) (nv : Word) :
    fmaV.addInf m (decodeF m d) n nv =
      if F.isNan d then (F.nan, nv) else if F.isInf d && F.neg d != n then (F.nan, 0x200) else (F.inf n, 0) := by
  cases decoded M d with
  | nan hnan hdec => simp only [hnan, hdec, fmaV.addInf, M.nan, if_true]
  | inf hnan hinf hdec =>
    by_cases hn : F.neg d = n
    · simp [hnan, hdec, hinf, fmaV.addInf, infF_eq M, hn]
    · simp [hnan, hdec, hinf, fmaV.addInf, M.nan, hn, fNV]
  | fin c k hnan hinf hdec => simp [hnan, hdec, hinf, fmaV.addInf, infF_eq M]

/-- The NV of a fused product for signalling operands. -/
theorem fmaV_eq (M : Describes F m) (rm : RMode) (a b d : Nat) :
    fmaV m rm (decodeF m a) (decodeF m b) (decodeF m d) =
      let nv := Claims.invalidIf (F.signals a || F.signals b || F.signals d)
      match decodeF m a, decodeF m b with
      | .nan _, _ => (m.nan, nv)
      | _, .nan _ => (m.nan, nv)
      | .inf _, .fin _ 0 _ => (m.nan, fNV)
      | .fin _ 0 _, .inf _ => (m.nan, fNV)
      | .inf na, .inf nb => fmaV.addInf m (decodeF m d) (na != nb) nv
      | .inf na, .fin nb _ _ => fmaV.addInf m (decodeF m d) (na != nb) nv
      | .fin na _ _, .inf nb => fmaV.addInf m (decodeF m d) (na != nb) nv
      | .fin na ma ea, .fin nb mb eb =>
        match decodeF m d with
        | .nan _ => (m.nan, nv)
        | .inf nd => (infF m nd, 0)
        | .fin nd md ed => addFin m rm (na != nb) (ma * mb) (ea + eb) nd md ed := by
  unfold fmaV
  rw [isSnan_decodeF M a, isSnan_decodeF M b, isSnan_decodeF M d]
  rfl

/-- An infinite product, with the summand d. -/
theorem fuses_addInf (M : Describes F m) (rm : RMode) {a b : Nat} (d : Nat) (hnan : F.isNan a = false) (hnanb : F.isNan b = false)
    (hzero : F.zeroTimesInf a b = false) (hinf : (F.isInf a || F.isInf b) = true) :
    F.Fuses rm a b d (fmaV.addInf m (decodeF m d) (F.neg a != F.neg b)
      (Claims.invalidIf (F.signals a || F.signals b || F.signals d))) := by
  rw [Claims.Format.Fuses, addInf_eq M, hnan, hnanb, hzero, hinf]
  cases F.isNan d <;> rfl

/-- R60: a product and a sum with one rounding. -/
theorem fuses_fmaV (M : Describes F m) (rm : RMode) (a b d : Nat) :
    F.Fuses rm a b d (fmaV m rm (decodeF m a) (decodeF m b) (decodeF m d)) := by
  rw [fmaV_eq M]
  cases decoded M a with
  | nan hnan hdec => simp only [Claims.Format.Fuses, hnan, hdec, M.nan, Bool.true_or, if_true]
  | inf hnan hinf hdec =>
    have hmag := mag_ne_zero_of_inf hinf
    cases decoded M b with
    | nan hnanb hdecb => simp only [Claims.Format.Fuses, hnanb, hdec, hdecb, M.nan, Bool.or_true, if_true]
    | inf hnanb hinfb hdecb =>
      have hmagb := mag_ne_zero_of_inf hinfb
      rw [hdec, hdecb]
      exact fuses_addInf M rm d hnan hnanb (by simp [Claims.Format.zeroTimesInf, hmag, hmagb]) (by rw [hinf, Bool.true_or])
    | fin e k hnanb hinfb hdecb hmagb hk he htopb =>
      have hzero := mag_eq_zero_iff hmagb he
      cases k with
      | zero => simp [Claims.Format.Fuses, Claims.Format.zeroTimesInf, hnan, hdec, hnanb, hdecb, hinf, M.nan, hzero, fNV]
      | succ k =>
        rw [hdec, hdecb]
        exact fuses_addInf M rm d hnan hnanb (by simp [Claims.Format.zeroTimesInf, hinfb, hzero]) (by rw [hinf, Bool.true_or])
  | fin c n hnan hinf hdec hmag hn hc htop =>
    have hzero := mag_eq_zero_iff hmag hc
    cases decoded M b with
    | nan hnanb hdecb => simp only [Claims.Format.Fuses, hnanb, hdec, hdecb, M.nan, Bool.or_true, if_true]
    | inf hnanb hinfb hdecb =>
      have hmagb := mag_ne_zero_of_inf hinfb
      cases n with
      | zero => simp [Claims.Format.Fuses, Claims.Format.zeroTimesInf, hnan, hdec, hnanb, hdecb, hinfb, M.nan, hzero, fNV]
      | succ n =>
        rw [hdec, hdecb]
        exact fuses_addInf M rm d hnan hnanb (by simp [Claims.Format.zeroTimesInf, hinf, hzero]) (by rw [hinfb, Bool.or_true])
    | fin e k hnanb hinfb hdecb hmagb hk he htopb =>
      have hval := val_mul hmag hn hc hmagb hk he
      cases decoded M d with
      | nan hnand hdecd =>
        simp [Claims.Format.Fuses, Claims.Format.zeroTimesInf, hnan, hdec, hnanb, hdecb, hinf, hinfb, hnand, hdecd, M.nan]
      | inf hnand hinfd hdecd =>
        simp [Claims.Format.Fuses, Claims.Format.zeroTimesInf, hnan, hdec, hnanb, hdecb, hinf, hinfb, hnand, hinfd, hdecd,
          infF_eq M]
      | fin g j hnand hinfd hdecd hmagd hj hg htopd =>
        have hgives := gives_addFin M rm (F.neg a != F.neg b) (F.neg d) (n * k) j ((c + leastExp F) + (e + leastExp F))
          (g + leastExp F)
        have hsign : (if (F.neg a != F.neg b) = F.neg d then F.neg a != F.neg b else rm == .rd) =
            if (F.neg a != F.neg b) = F.neg d then F.neg d else rm == .rd := ite_congr rfl id fun _ => rfl
        rw [← hval, ← val_eq hmagd hj hg, hsign] at hgives
        simpa [Claims.Format.Fuses, Claims.Format.zeroTimesInf, hnan, hdec, hnanb, hdecb, hinf, hinfb, hnand, hinfd, hdecd] using hgives

/-! ## Results as words -/

/-- A result of the format fits its bits. -/
def Fits (F : Claims.Format) (r : Nat × Word) : Prop := r.1 < 2 ^ (F.exp + F.man + 1)

theorem signed_add_lt (neg : Bool) {k : Nat} (h : k < 2 ^ (F.exp + F.man)) : F.signed neg + k < 2 ^ (F.exp + F.man + 1) := by
  rw [Claims.Format.signed, pow_succ]
  split <;> omega

theorem fits_inf (M : Describes F m) (neg : Bool) (w : Word) : Fits F (F.inf neg, w) := signed_add_lt neg M.top_lt

theorem fits_nan (M : Describes F m) (w : Word) : Fits F (F.nan, w) :=
  M.nan_lt.trans (Nat.pow_lt_pow_right (by decide) (Nat.lt_succ_self _))

theorem overflowMag_le (t : Claims.Towards) : overflowMag F t ≤ F.top + 1 := by
  unfold overflowMag
  split <;> omega

theorem fits_rounds (M : Describes F m) {rm : RMode} {neg : Bool} {x : ℝ} {r : Nat × Word} (h : F.Rounds rm neg x r) : Fits F r := by
  obtain ⟨l, k, -, hover, hfin⟩ := h
  rcases Nat.lt_or_ge F.top k with hk | hk
  · rw [hover hk]
    exact signed_add_lt neg ((overflowMag_le (.of rm neg)).trans_lt M.top_lt)
  · rw [Fits, (hfin hk).1]
    exact signed_add_lt neg (hk.trans_lt (Nat.lt_of_succ_lt M.top_lt))

theorem fits_gives (M : Describes F m) {rm : RMode} {zero : Bool} {x : ℚ} {r : Nat × Word} (h : F.Gives rm zero x r) : Fits F r := by
  unfold Claims.Format.Gives at h
  split at h
  · rw [h]
    exact signed_add_lt (k := 0) zero (Nat.two_pow_pos _)
  · exact fits_rounds M h

theorem fits_adds (M : Describes F m) {rm : RMode} {a b : Nat} {r : Nat × Word} (h : F.Adds rm a b r) : Fits F r := by
  unfold Claims.Format.Adds at h
  split_ifs at h
  · exact h ▸ fits_nan M _
  · exact h ▸ fits_inf M _ _
  · exact h ▸ fits_nan M _
  · exact h ▸ fits_inf M _ _
  · exact h ▸ fits_inf M _ _
  · exact fits_gives M h
  · exact fits_gives M h

theorem fits_multiplies (M : Describes F m) {rm : RMode} {a b : Nat} {r : Nat × Word} (h : F.Multiplies rm a b r) : Fits F r := by
  unfold Claims.Format.Multiplies at h
  split_ifs at h
  · exact h ▸ fits_nan M _
  · exact h ▸ fits_nan M _
  · exact h ▸ fits_inf M _ _
  · exact fits_gives M h

theorem fits_fuses (M : Describes F m) {rm : RMode} {a b d : Nat} {r : Nat × Word} (h : F.Fuses rm a b d r) : Fits F r := by
  unfold Claims.Format.Fuses at h
  simp only at h
  split_ifs at h
  · exact h ▸ fits_nan M _
  · exact h ▸ fits_nan M _
  · exact h ▸ fits_nan M _
  · exact h ▸ fits_nan M _
  · exact h ▸ fits_inf M _ _
  · exact h ▸ fits_inf M _ _
  · exact fits_gives M h
  · exact fits_gives M h

end

theorem asCode_toWord {r : Nat × Word} (h : Fits Claims.binary32 r) : Claims.asCode (toWord r) = r :=
  Prod.ext (Nat.mod_eq_of_lt h) rfl

/-- The sign bit of a word alone flipped. -/
theorem decodeF_flip (b : Word) : decodeF fp32 (b ^^^ 0x80000000).toNat = (decodeF fp32 b.toNat).negate := by
  have hmag : Claims.binary32.mag (b ^^^ 0x80000000).toNat = Claims.binary32.mag b.toNat := by
    show (b ^^^ 0x80000000).toNat % 2 ^ 31 = b.toNat % 2 ^ 31
    rw [BitVec.toNat_xor, Nat.xor_mod_two_pow]
    exact Nat.xor_zero _
  have hneg : Claims.binary32.neg (b ^^^ 0x80000000).toNat = !Claims.binary32.neg b.toNat := by
    have hbit (n : Nat) : Claims.binary32.neg n = n.testBit 31 := by
      rw [Nat.testBit_eq_decide_div_mod_eq, ← Bool.beq_eq_decide_eq]
      rfl
    rw [hbit, hbit, BitVec.toNat_xor, Nat.testBit_xor]
    exact Bool.xor_true _
  rw [decodeF_eq describes_binary32, decodeF_eq describes_binary32, hmag, hneg]
  split_ifs <;> rfl

theorem arithmeticRounds : Claims.ArithmeticRounds := by
  have M := describes_binary32
  refine ⟨by decide, fun rm a b d => ⟨?_, ?_, ?_, ?_⟩⟩
  · have h := adds_addV M rm a.toNat b.toNat
    exact (asCode_toWord (fits_adds M h)).symm ▸ h
  · have h := adds_addV M rm a.toNat (b ^^^ 0x80000000).toNat
    have hsub := (asCode_toWord (fits_adds M h)).symm ▸ h
    rw [decodeF_flip] at hsub
    exact hsub
  · have h := multiplies_mulV M rm a.toNat b.toNat
    exact (asCode_toWord (fits_multiplies M h)).symm ▸ h
  · have h := fuses_fmaV M rm a.toNat b.toNat d.toNat
    exact (asCode_toWord (fits_fuses M h)).symm ▸ h

/-! ## Packed halves (05 R109) -/

theorem half_eq (x : Word) (k : Nat) : half x k = x.toNat / 65536 ^ k % 65536 := by
  rw [half, bitsN, pow_mul]
  rfl

theorem halvesRound {F : Claims.Format} {m : Fmt} (M : Describes F m) : Claims.HalvesRound F m := by
  intro a b d
  simp only
  have h0 (x : Word) : x.toNat / 65536 ^ 0 % 65536 = half x 0 := (half_eq x _).symm
  have h1 (x : Word) : x.toNat / 65536 ^ 1 % 65536 = half x 1 := (half_eq x _).symm
  refine ⟨⟨_, _, ?_, ?_, rfl⟩, ⟨_, _, ?_, ?_, rfl⟩, ⟨_, _, ?_, ?_, rfl⟩⟩
  all_goals simp only [h0, h1]
  · exact adds_addV M .rne _ _
  · exact adds_addV M .rne _ _
  · exact multiplies_mulV M .rne _ _
  · exact multiplies_mulV M .rne _ _
  · exact fuses_fmaV M .rne _ _ _
  · exact fuses_fmaV M .rne _ _ _

/-! ## Extremes (R61) -/

/-- Of two numbers the lesser or the greater, the first when the keys are equal. -/
theorem fminmax_of_numbers {isMax nanForm : Bool} {a b : Word} (ha : Claims.binary32.isNan a.toNat = false)
    (hb : Claims.binary32.isNan b.toNat = false) :
    fminmax isMax nanForm a b =
      (if isMax then (if orderKey a < orderKey b then b else a) else if orderKey b < orderKey a then b else a, 0) := by
  simp only [fminmax, val32, isNan_decodeF describes_binary32, ha, hb]
  cases isMax <;> simp only [Bool.false_eq_true, if_true, if_false, ← not_lt, ite_not]

theorem extremesTaken : Claims.ExtremesTaken := by
  intro isMax nanForm a b
  show fminmax isMax nanForm a b =
    (if Claims.binary32.isNan a.toNat && Claims.binary32.isNan b.toNat ||
        nanForm && (Claims.binary32.isNan a.toNat || Claims.binary32.isNan b.toNat) then 0x7FC00000
      else if Claims.binary32.isNan a.toNat then b
      else if Claims.binary32.isNan b.toNat then a
      else if isMax then (if orderKey a < orderKey b then b else a)
      else if orderKey b < orderKey a then b else a,
     Claims.invalidIf (Claims.binary32.signals a.toNat || Claims.binary32.signals b.toNat))
  cases ha : Claims.binary32.isNan a.toNat <;> cases hb : Claims.binary32.isNan b.toNat
  · rw [fminmax_of_numbers ha hb, signals_of_not_nan ha, signals_of_not_nan hb, Bool.or_self, Bool.and_self, Bool.and_false,
      Bool.or_self]
    rfl
  all_goals simp only [fminmax, val32, isNan_decodeF describes_binary32, isSnan_decodeF describes_binary32, ha, hb]
  · cases nanForm <;> rfl
  · cases nanForm <;> rfl
  · rfl

end Sys2Proof.Machine
end

section
/-! # Conversions (03 R64; 05 R107, R108) -/

namespace Sys2Proof.Machine
open Sys2Proof.Claims

/-! ## Truncation -/

/-- The model's truncation of a magnitude; the exponent of an FP32 value is far below 128. -/
theorem truncFin_eq {n : Nat} {e : ℤ} (he : e ≤ 128) :
    ⌊(n * 2 ^ e : ℚ)⌋ = (truncFin n e).1 ∧ ((truncFin n e).2 = true ↔ (n * 2 ^ e : ℚ) ≠ (truncFin n e).1) := by
  unfold truncFin
  split
  · rename_i hpos
    obtain ⟨d, rfl⟩ := Int.eq_ofNat_of_zero_le hpos
    have hint : (n * 2 ^ (d : ℤ) : ℚ) = (n * 2 ^ d : Nat) := by
      rw [zpow_natCast]
      push_cast
      rfl
    rw [min_eq_left he, Int.toNat_natCast, hint]
    exact ⟨Int.floor_natCast _, by simp⟩
  · rename_i hneg
    obtain ⟨d, hd⟩ := Int.eq_ofNat_of_zero_le (show 0 ≤ -e by omega)
    have hquot : (n * 2 ^ e : ℚ) = n / (2 ^ d : Nat) := by
      rw [show e = -(d : ℤ) by omega, zpow_neg, zpow_natCast, ← div_eq_mul_inv]
      push_cast
      rfl
    have hpos : ((2 ^ d : Nat) : ℚ) ≠ 0 := by positivity
    rw [hquot, hd, Int.toNat_natCast]
    refine ⟨Rat.floor_natCast_div_natCast n (2 ^ d), ?_⟩
    rw [bne_iff_ne, not_iff_not, div_eq_iff hpos, ← Nat.dvd_iff_mod_eq_zero]
    constructor
    · intro h
      exact_mod_cast (Nat.div_mul_cancel h).symm
    · intro h
      exact Dvd.intro_left _ (by exact_mod_cast h.symm)

/-- The same with a sign: towards zero. -/
theorem trunc_signedInt {neg : Bool} {n : Nat} {e : ℤ} (he : e ≤ 128) :
    (if (signedInt neg n * 2 ^ e : ℚ) < 0 then ⌈(signedInt neg n * 2 ^ e : ℚ)⌉ else ⌊(signedInt neg n * 2 ^ e : ℚ)⌋) =
      signedInt neg (truncFin n e).1 := by
  obtain ⟨hfloor, -⟩ := truncFin_eq (n := n) he
  cases neg
  · have hnonneg : ¬((n : ℤ) * 2 ^ e : ℚ) < 0 := not_lt.mpr (by positivity)
    simp only [signedInt, Bool.false_eq_true, if_false, if_neg hnonneg]
    exact_mod_cast hfloor
  · have hval : (((-(n : ℤ) : ℤ) : ℚ) * 2 ^ e) = -(n * 2 ^ e) := by push_cast; ring
    simp only [signedInt, if_true, hval, Int.ceil_neg, hfloor]
    split
    · rfl
    · rename_i hnot
      have hzero : (n * 2 ^ e : ℚ) = 0 := le_antisymm (by linarith) (by positivity)
      rw [hzero, Int.floor_zero] at hfloor
      rw [hzero, ← hfloor]
      rfl

theorem signedInt_cast_eq_iff (neg : Bool) {n t : Nat} {e : ℤ} :
    (signedInt neg n * 2 ^ e : ℚ) = signedInt neg t ↔ (n * 2 ^ e : ℚ) = t := by
  cases neg <;> simp [signedInt]

theorem truncates_f2int (lo hi : ℤ) (a : Word) : Truncates lo hi a (f2int lo hi a) := by
  unfold f2int val32
  cases decoded describes_binary32 a.toNat with
  | nan hnan hdec =>
    simp only [Truncates, hdec, hnan, if_true]
    rfl
  | inf hnan hinf hdec =>
    simp only [Truncates, hdec, hnan, hinf, if_true, Bool.false_eq_true, if_false]
    rfl
  | fin b n hnan hinf hdec hmag hn hb htop =>
    have he : (b + leastExp binary32 : ℤ) ≤ 128 := by
      have htop' : binary32.mag a.toNat ≤ 2139095039 := htop
      rw [hmag, show (2 : Nat) ^ binary32.man = 8388608 from rfl] at htop'
      rw [show leastExp binary32 = -149 from rfl]
      omega
    have hexact := not_iff_not.mpr (truncFin_eq (n := n) he).2
    rw [not_not, Bool.not_eq_true] at hexact
    simp only [Truncates, hdec, hnan, hinf, Bool.false_eq_true, if_false, val_eq hmag hn hb, trunc_signedInt he,
      signedInt_cast_eq_iff, ← hexact]
    have hsigned (k : Nat) : (if binary32.neg a.toNat then -(k : ℤ) else k) = signedInt (binary32.neg a.toNat) k := rfl
    have hflag (f : Bool) : flagIf f fNX = if f = false then 0 else 0x1000 := by cases f <;> rfl
    rw [hsigned, hflag]
    split_ifs <;> rfl

/-! ## Integers to FP32, and FP32 to a narrower format -/

theorem gives_int2f (z : ℤ) : binary32.Gives .rne false z (asCode (int2f z)) := by
  have M := describes_binary32
  have h : binary32.Gives .rne false z (packF fp32 .rne (z < 0) z.natAbs 0) := by
    unfold packF
    split
    · rename_i hz
      rw [Int.natAbs_eq_zero] at hz
      subst hz
      exact gives_zero Int.cast_zero rfl
    · rename_i hz
      have h := gives_roundF M .rne false (mt Int.natAbs_eq_zero.mpr hz) 0
      rwa [zpow_zero, mul_one] at h
  exact (asCode_toWord (fits_gives M h)).symm ▸ h

theorem narrows_narrow {F : Format} {m : Fmt} (M : Describes F m) (a : Word) : F.Narrows a (narrow m a) := by
  unfold narrow val32
  cases decoded describes_binary32 a.toNat with
  | nan hnan hdec =>
    simp only [Format.Narrows, hdec, hnan, if_true, M.nan]
    rfl
  | inf hnan hinf hdec =>
    simp only [Format.Narrows, hdec, hnan, hinf, if_true, Bool.false_eq_true, if_false, M.inf, M.top, infF_eq M, zeroF_eq M]
    rfl
  | fin b n hnan hinf hdec hmag hn hb htop =>
    simp only [Format.Narrows, hdec, hnan, hinf, Bool.false_eq_true, if_false, val_eq hmag hn hb]
    exact gives_packF M .rne _ n _

/-! ## Widening -/

theorem ladder_strictMono (F : Format) : StrictMono F.ladder := by
  intro j k h
  rw [ladder_eq_magUnits, ladder_eq_magUnits]
  have hunits : (magUnits F.man j : ℚ) < magUnits F.man k := by exact_mod_cast magUnits_strictMono F.man h
  exact mul_lt_mul_of_pos_right hunits (by positivity)

/-- A magnitude of the format rounds to its own code. -/
theorem rounds_ladder {F : Format} {rm : RMode} {neg : Bool} {k : Nat} {r : Nat × Word} (hk : k ≤ F.top)
    (h : F.Rounds rm neg (F.ladder k) r) : r = (F.signed neg + k, 0) := by
  obtain ⟨l, j, ⟨hlo, hhi, hself, -⟩, -, hfin⟩ := h
  have hlk : l ≤ k := (ladder_strictMono F).le_iff_le.mp (by exact_mod_cast hlo)
  have hkl : k < l + 1 := (ladder_strictMono F).lt_iff_lt.mp (by exact_mod_cast hhi)
  obtain rfl : k = l := by omega
  obtain rfl := hself rfl
  obtain ⟨hcode, hflags, -⟩ := hfin hk
  exact Prod.ext hcode (hflags rfl)

/-- A significand of at most 24 bits, in the range of FP32, is a magnitude of FP32. -/
theorem exists_ladder {n : Nat} {e : ℤ} (hn : n < 2 ^ 24) (he : -149 ≤ e) (hlt : (n * 2 ^ e : ℚ) < 2 ^ 128) :
    ∃ k, k ≤ binary32.top ∧ binary32.ladder k = n * 2 ^ e := by
  rcases Nat.eq_zero_or_pos n with rfl | hpos
  · exact ⟨0, Nat.zero_le _, by rw [ladder_eq_magUnits]; simp [magUnits]⟩
  obtain ⟨hlo, hhi, hlen⟩ := two_pow_le_of_bitLen hpos.ne'
  have hlen24 : bitLen n ≤ 24 := by
    have := (Nat.pow_lt_pow_iff_right (show 1 < 2 by decide)).mp (hlo.trans_lt hn)
    omega
  have hexp : e + bitLen n ≤ 128 := by
    have hlo' : ((2 : ℚ) ^ (bitLen n - 1)) ≤ n := by exact_mod_cast hlo
    have hpow : (2 : ℚ) ^ (((bitLen n - 1 : Nat) : ℤ) + e) < 2 ^ (128 : ℤ) := by
      rw [zpow_add₀ two_ne_zero, zpow_natCast]
      exact (mul_le_mul_of_nonneg_right hlo' (by positivity)).trans_lt (by exact_mod_cast hlt)
    have := (zpow_lt_zpow_iff_right₀ (show (1 : ℚ) < 2 by norm_num)).mp hpow
    omega
  obtain ⟨j, hj⟩ := Int.eq_ofNat_of_zero_le (show 0 ≤ e + 149 by omega)
  -- the shift that brings the leading bit to place, or the exponent to its least value
  obtain ⟨s, hs, hplace, hleast⟩ : ∃ s : Nat, s ≤ j ∧ s + bitLen n ≤ 24 ∧ (s = j ∨ s + bitLen n = 24) := by
    rcases Nat.le_total j (24 - bitLen n) with h | h
    · exact ⟨j, le_rfl, by omega, .inl rfl⟩
    · exact ⟨24 - bitLen n, h, by omega, .inr (by omega)⟩
  have hshifted : n * 2 ^ s < 2 ^ 24 := by
    calc n * 2 ^ s < 2 ^ bitLen n * 2 ^ s := Nat.mul_lt_mul_of_pos_right hhi (Nat.two_pow_pos s)
      _ = 2 ^ (bitLen n + s) := (pow_add ..).symm
      _ ≤ 2 ^ 24 := Nat.pow_le_pow_right (by decide) (by omega)
  have hlead : j - s = 0 ∨ 2 ^ 23 ≤ n * 2 ^ s := by
    refine hleast.imp (fun h => by omega) fun h => ?_
    calc 2 ^ 23 = 2 ^ (bitLen n - 1) * 2 ^ s := by rw [← pow_add]; congr 1; omega
      _ ≤ n * 2 ^ s := Nat.mul_le_mul_right _ hlo
  refine ⟨(j - s) * 2 ^ binary32.man + n * 2 ^ s, ?_, ?_⟩
  · have htop : binary32.top = 2139095039 := rfl
    have hman : 2 ^ binary32.man = 8388608 := rfl
    rw [htop, hman]
    omega
  · rw [ladder_block binary32 hshifted.le hlead, show leastExp binary32 = -149 from rfl]
    rw [show e = (s : ℤ) + (((j - s : Nat) : ℤ) + -149) by omega, zpow_add₀ two_ne_zero (s : ℤ), zpow_natCast]
    push_cast
    ring

/-- Every value of the format is one of FP32. -/
structure InFp32 (F : Format) : Prop where
  man : F.man ≤ 23
  least : -149 ≤ leastExp F
  top : F.ladder F.top < 2 ^ 128

theorem inFp32_bfloat16 : InFp32 bfloat16 := ⟨by decide, by decide, by norm_num [Format.ladder, Format.top, bfloat16]⟩
theorem inFp32_binary16 : InFp32 binary16 := ⟨by decide, by decide, by norm_num [Format.ladder, Format.top, binary16]⟩
theorem inFp32_byteE4M3 : InFp32 byteE4M3 := ⟨by decide, by decide, by norm_num [Format.ladder, Format.top, byteE4M3]⟩
theorem inFp32_byteE5M2 : InFp32 byteE5M2 := ⟨by decide, by decide, by norm_num [Format.ladder, Format.top, byteE5M2]⟩

theorem widens_widen {F : Format} {m : Fmt} (M : Describes F m) (W : InFp32 F) (c : Nat) : F.Widens c (asCode (widen m c)) := by
  have M32 := describes_binary32
  unfold widen
  cases decoded M c with
  | nan hnan hdec =>
    simp only [Format.Widens, hdec, hnan, if_true]
    rfl
  | inf hnan hinf hdec =>
    simp only [Format.Widens, hdec, hnan, hinf, if_true, Bool.false_eq_true, if_false, infF_eq M32]
    exact asCode_toWord (fits_inf M32 _ _)
  | fin a n hnan hinf hdec hmag hn ha htop =>
    have hladder : F.ladder (F.mag c) = n * 2 ^ (a + leastExp F) := hmag ▸ ladder_block F hn.le ha
    have hbelow := ((ladder_strictMono F).monotone htop).trans_lt W.top
    have hbits : n < 2 ^ 24 := hn.trans_le (Nat.pow_le_pow_right (by decide) (Nat.succ_le_succ W.man))
    obtain ⟨k, hk, hkn⟩ := exists_ladder hbits (by have := W.least; omega) (hladder ▸ hbelow)
    have hcode : packF fp32 .rne (F.neg c) n (a + leastExp F) = (binary32.signed (F.neg c) + k, 0) := by
      unfold packF
      split
      · rename_i hzero
        have hk0 : k = 0 := by
          refine (ladder_strictMono binary32).injective (hkn.trans ?_)
          rw [hzero, ladder_eq_magUnits]
          simp [magUnits]
        rw [hk0, zeroF_eq M32, Nat.add_zero]
      · rename_i hne
        have h := rounds_roundF_exact M32 .rne (F.neg c) hne (a + leastExp F)
        have hcast : ((n : ℝ) * 2 ^ (a + leastExp F)) = (binary32.ladder k : ℚ) := by
          rw [hkn]
          push_cast
          rfl
        rw [hcast] at h
        exact rounds_ladder hk h
    simp only [Format.Widens, hdec, hnan, hinf, Bool.false_eq_true, if_false, hcode, hladder]
    exact ⟨k, hk, hkn, asCode_toWord (signed_add_lt _ (hk.trans_lt (Nat.lt_of_succ_lt M32.top_lt)))⟩

/-! ## Bytes of a word -/

theorem testBit_byte (n j i : Nat) : (n / 256 ^ j % 256).testBit i = (decide (i < 8) && n.testBit (8 * j + i)) := by
  rw [show 256 ^ j = 2 ^ (8 * j) from (pow_mul 2 8 j).symm, show 256 = 2 ^ 8 from rfl, Nat.testBit_mod_two_pow, Nat.testBit_div_two_pow,
    Nat.add_comm]

theorem testBit_setField {x : Word} {lo v p : Nat} (hv : v < 256) (hp : p < 32) :
    (setField x lo 8 v).toNat.testBit p =
      if lo ≤ p ∧ p < lo + 8 then v.testBit (p - lo) else x.toNat.testBit p := by
  have hmask : (BitVec.ofNat 32 (2 ^ 8 - 1)).getLsbD (p - lo) = decide (p - lo < 8) := by
    rw [BitVec.getLsbD_ofNat, Nat.testBit_two_pow_sub_one]
    have : p - lo < 32 := by omega
    simp [this]
  have hvalue : (BitVec.ofNat 32 (v % 2 ^ 8)).getLsbD (p - lo) = v.testBit (p - lo) := by
    rw [BitVec.getLsbD_ofNat, Nat.mod_eq_of_lt (show v < 2 ^ 8 from hv)]
    have : p - lo < 32 := by omega
    simp [this]
  rw [BitVec.testBit_toNat, BitVec.testBit_toNat, setField, BitVec.getLsbD_or, BitVec.getLsbD_and, BitVec.getLsbD_not,
    BitVec.getLsbD_shiftLeft, BitVec.getLsbD_shiftLeft, hmask, hvalue]
  by_cases hlo : lo ≤ p
  · by_cases hhi : p < lo + 8
    · have h8 : p - lo < 8 := by omega
      simp [hp, hlo, hhi, h8, Nat.not_lt.mpr hlo]
    · have h8 : ¬p - lo < 8 := by omega
      have hzero : v.testBit (p - lo) = false :=
        Nat.testBit_lt_two_pow (hv.trans_le (Nat.pow_le_pow_right two_pos (Nat.le_of_not_lt h8)))
      simp [hp, hlo, hhi, h8, hzero]
  · simp [hp, hlo, Nat.lt_of_not_le hlo]

theorem byte_setField {x : Word} {k v j : Nat} (hk : k < 4) (hj : j < 4) (hv : v < 256) :
    (setField x (8 * k) 8 v).toNat / 256 ^ j % 256 = if j = k then v else x.toNat / 256 ^ j % 256 := by
  refine Nat.eq_of_testBit_eq fun i => ?_
  rw [testBit_byte]
  by_cases hi : i < 8
  · rw [testBit_setField hv (by omega)]
    by_cases hjk : j = k
    · subst hjk
      simp [hi]
    · have hout : ¬(8 * k ≤ 8 * j + i ∧ 8 * j + i < 8 * k + 8) := by omega
      rw [if_neg hout, if_neg hjk, testBit_byte]
  · have hbeyond : v.testBit i = false :=
      Nat.testBit_lt_two_pow (hv.trans_le (Nat.pow_le_pow_right two_pos (Nat.le_of_not_lt hi)))
    split
    · simp [hi, hbeyond]
    · rw [testBit_byte]
      simp [hi]

theorem conversionsRound : ConversionsRound := by
  refine ⟨fun a => ⟨truncates_f2int _ _ a, truncates_f2int _ _ a, gives_int2f _, ?_, narrows_narrow describes_bfloat16 a,
      narrows_narrow describes_binary16 a, narrows_narrow describes_byteE4M3 a, narrows_narrow describes_byteE5M2 a⟩,
    fun c _ => ⟨widens_widen describes_bfloat16 inFp32_bfloat16 c, widens_widen describes_binary16 inFp32_binary16 c⟩,
    fun c _ => ⟨widens_widen describes_byteE4M3 inFp32_byteE4M3 c, widens_widen describes_byteE5M2 inFp32_byteE5M2 c⟩,
    fun x h _ => half_eq x h, fun _ _ => rfl, fun x k v j hk hj hv => byte_setField hk hj hv⟩
  have h := gives_int2f a.toNat
  rwa [Int.cast_natCast] at h

end Sys2Proof.Machine
end

section
/-! # Special functions (03 R63) -/

namespace Sys2Proof.Machine
open Sys2Proof.Claims

/-! ## Values known by their floor and by whether something was lost -/

/-- Two values above M × 2^e and below the next multiple, both or none at M × 2^e. -/
theorem sameSide_of_floor {M : Nat} {e : ℤ} {x y : ℝ} (hx : M * 2 ^ e ≤ x ∧ x < (M + 1) * 2 ^ e)
    (hy : M * 2 ^ e ≤ y ∧ y < (M + 1) * 2 ^ e) (h : x = M * 2 ^ e ↔ y = M * 2 ^ e) : SameSide e x y := by
  intro j
  have hpos : (0 : ℝ) < 2 ^ e := by positivity
  obtain ⟨hxlo, hxhi⟩ := hx
  obtain ⟨hylo, hyhi⟩ := hy
  rcases lt_trichotomy j M with hj | rfl | hj
  · have hlt : (j : ℝ) * 2 ^ e < M * 2 ^ e := mul_lt_mul_of_pos_right (by exact_mod_cast hj) hpos
    exact ⟨iff_of_false (by linarith) (by linarith), iff_of_true (by linarith) (by linarith)⟩
  · rw [Int.cast_natCast]
    refine ⟨iff_of_false (by linarith) (by linarith), ?_⟩
    rw [lt_iff_le_and_ne, lt_iff_le_and_ne, and_iff_right hxlo, and_iff_right hylo]
    exact not_congr (eq_comm.trans (h.trans eq_comm))
  · have hle : ((M : ℝ) + 1) * 2 ^ e ≤ j * 2 ^ e := mul_le_mul_of_nonneg_right (by exact_mod_cast hj) hpos.le
    exact ⟨iff_of_true (by linarith) (by linarith), iff_of_false (by linarith) (by linarith)⟩

/-- One further bit stands for all that was lost below a significand of 25 bits. -/
theorem rounds_roundSticky (neg : Bool) {M : Nat} {more : Bool} {e : ℤ} {y : ℝ} (hM : 2 ^ 24 ≤ M) (hlo : M ≤ y) (hhi : y < M + 1)
    (hmore : more = true ↔ y ≠ M) : binary32.Rounds .rne neg (y * 2 ^ e) (roundSticky neg M more e) := by
  have hpos : (0 : ℝ) < 2 ^ e := by positivity
  have hhalf : (2 : ℝ) ^ e = 2 * 2 ^ (e - 1) := by
    rw [← zpow_one_add₀ two_ne_zero]
    congr 1
    ring
  have hs : 2 ^ 25 ≤ 2 * M + (if more then 1 else 0) := by omega
  have hlen : 26 ≤ bitLen (2 * M + if more then 1 else 0) := by
    have := (Nat.pow_lt_pow_iff_right (show 1 < 2 by decide)).mp (hs.trans_lt (two_pow_le_of_bitLen (by omega)).2.1)
    omega
  refine rounds_roundF describes_binary32 (c := e) (by omega) ?_ (by rw [show binary32.man = 23 from rfl]; omega)
  have hsticky : (((2 * M + if more then 1 else 0 : Nat) : ℝ) * 2 ^ (e - 1)) = (M + if more then 1 / 2 else 0) * 2 ^ e := by
    rw [hhalf]
    cases more <;> simp <;> ring
  rw [hsticky]
  refine sameSide_of_floor (M := M) ⟨mul_le_mul_of_nonneg_right hlo hpos.le, mul_lt_mul_of_pos_right hhi hpos⟩ ⟨?_, ?_⟩ ?_
  · exact mul_le_mul_of_nonneg_right (by cases more <;> simp) hpos.le
  · exact mul_lt_mul_of_pos_right (by cases more <;> norm_num) hpos
  · rw [mul_left_inj' hpos.ne', mul_left_inj' hpos.ne', ← not_iff_not, ← ne_eq, ← hmore]
    cases more <;> simp

/-! ## 1/a and 1/√a -/

theorem rounds_recipFin (neg : Bool) {m : Nat} (hm : m ≠ 0) (e : ℤ) :
    binary32.Rounds .rne neg (1 / (m * 2 ^ e)) (recipFin neg m e) := by
  have hmpos : (0 : ℝ) < m := by exact_mod_cast Nat.pos_of_ne_zero hm
  have hval : (1 / (m * 2 ^ e) : ℝ) = (2 ^ (bitLen m + 40) : Nat) / m * 2 ^ (-((bitLen m + 40 : Nat) : ℤ) - e) := by
    rw [zpow_sub₀ two_ne_zero, zpow_neg, zpow_natCast]
    push_cast
    field_simp
  have hfloor : 2 ^ 24 ≤ 2 ^ (bitLen m + 40) / m := by
    rw [Nat.le_div_iff_mul_le (Nat.pos_of_ne_zero hm)]
    calc 2 ^ 24 * m ≤ 2 ^ 40 * 2 ^ bitLen m := Nat.mul_le_mul (by decide) (two_pow_le_of_bitLen hm).2.1.le
      _ = 2 ^ (bitLen m + 40) := by rw [← pow_add, Nat.add_comm]
  rw [hval]
  refine rounds_roundSticky neg hfloor Nat.cast_div_le ?_ ?_
  · rw [div_lt_iff₀ hmpos]
    have hlt := Nat.lt_mul_div_succ (2 ^ (bitLen m + 40)) (Nat.pos_of_ne_zero hm)
    rw [Nat.mul_comm] at hlt
    exact_mod_cast hlt
  · rw [bne_iff_ne, not_iff_not, ← Nat.dvd_iff_mod_eq_zero, div_eq_iff hmpos.ne']
    constructor
    · intro h
      exact_mod_cast (Nat.div_mul_cancel h).symm
    · intro h
      exact Dvd.intro_left _ (by exact_mod_cast h.symm)

/-- The integer square root, from the part already found. -/
theorem isqrtFrom_spec {x : Nat} {k r : Nat} (hlo : r * r ≤ x) (hhi : x < (r + 2 ^ k) * (r + 2 ^ k)) :
    isqrtFrom x k r * isqrtFrom x k r ≤ x ∧ x < (isqrtFrom x k r + 1) * (isqrtFrom x k r + 1) := by
  induction k generalizing r with
  | zero => exact ⟨hlo, hhi⟩
  | succ k ih =>
    rw [isqrtFrom]
    split
    · rename_i h
      refine ih h ?_
      rwa [Nat.add_assoc, ← two_mul, ← pow_succ']
    · rename_i h
      exact ih hlo (Nat.lt_of_not_le h)

/-- 1/√(m × 2^(2h)), m of at most 25 bits. -/
theorem rounds_rsqrt {m : Nat} (hm : m ≠ 0) (hbits : m < 2 ^ 25) {h : ℤ} {y : ℝ} (hy : 0 < y) (hsq : y * y * (m * 2 ^ (2 * h)) = 1) :
    binary32.Rounds .rne false y (roundSticky false (isqrtFrom (2 ^ 160 / m) 81 0)
      (isqrtFrom (2 ^ 160 / m) 81 0 * isqrtFrom (2 ^ 160 / m) 81 0 * m != 2 ^ 160) (-80 - h)) := by
  have hmnat := Nat.pos_of_ne_zero hm
  have hmpos : (0 : ℝ) < m := by exact_mod_cast hmnat
  obtain ⟨hlo, hhi⟩ := isqrtFrom_spec (x := 2 ^ 160 / m) (k := 81) (r := 0) (Nat.zero_le _)
    ((Nat.div_le_self _ _).trans_lt (by decide))
  generalize isqrtFrom (2 ^ 160 / m) 81 0 = r at hlo hhi ⊢
  have hlow : 2 ^ 24 ≤ r := by
    by_contra hlt
    have hquot : 2 ^ 135 ≤ 2 ^ 160 / m := by
      rw [Nat.le_div_iff_mul_le hmnat]
      omega
    have hsmall : (r + 1) * (r + 1) ≤ 2 ^ 24 * 2 ^ 24 := Nat.mul_le_mul (by omega) (by omega)
    omega
  -- in units of 2^(-80 - h) the value Y has Y² m = 2^160
  obtain ⟨Y, hY⟩ : ∃ Y : ℝ, Y = y * 2 ^ (80 + h) := ⟨_, rfl⟩
  have hYpos : 0 < Y := by rw [hY]; positivity
  have hback : y = Y * 2 ^ (-80 - h) := by
    rw [hY, mul_assoc, ← zpow_add₀ two_ne_zero, show 80 + h + (-80 - h) = 0 by ring, zpow_zero, mul_one]
  have hYsq : Y * Y * m = 2 ^ 160 := by
    have hpow : (2 : ℝ) ^ (80 + h) * 2 ^ (80 + h) = 2 ^ 160 * 2 ^ (2 * h) := by
      rw [← zpow_add₀ two_ne_zero, show 80 + h + (80 + h) = (160 : Nat) + 2 * h by push_cast; ring, zpow_add₀ two_ne_zero,
        zpow_natCast]
    calc Y * Y * m = y * y * m * (2 ^ (80 + h) * 2 ^ (80 + h)) := by rw [hY]; ring
      _ = 2 ^ 160 * (y * y * (m * 2 ^ (2 * h))) := by rw [hpow]; ring
      _ = 2 ^ 160 := by rw [hsq, mul_one]
  have hbelow : (r : ℝ) * r * m ≤ 2 ^ 160 := by exact_mod_cast (Nat.le_div_iff_mul_le hmnat).mp hlo
  have habove : (2 : ℝ) ^ 160 < (r + 1) * (r + 1) * m := by exact_mod_cast (Nat.div_lt_iff_lt_mul hmnat).mp hhi
  rw [hback]
  refine rounds_roundSticky false hlow ?_ ?_ ?_
  · rw [← hYsq] at hbelow
    exact (mul_self_le_mul_self_iff (by positivity) hYpos.le).mpr (le_of_mul_le_mul_right hbelow hmpos)
  · rw [← hYsq] at habove
    exact (mul_self_lt_mul_self_iff hYpos.le (by positivity)).mpr (lt_of_mul_lt_mul_right habove hmpos.le)
  · rw [bne_iff_ne, not_iff_not]
    have hcast : r * r * m = 2 ^ 160 ↔ (r : ℝ) * r * m = 2 ^ 160 := by norm_cast
    rw [hcast, ← hYsq, mul_left_inj' hmpos.ne', mul_self_inj (by positivity) hYpos.le, eq_comm]

theorem rounds_rsqrtFin {m : Nat} (hm : m ≠ 0) (hbits : m < 2 ^ 24) {e : ℤ} {y : ℝ} (hy : 0 < y) (hsq : y * y * (m * 2 ^ e) = 1) :
    binary32.Rounds .rne false y (rsqrtFin m e) := by
  unfold rsqrtFin
  by_cases hodd : e % 2 ≠ 0
  · simp only [if_pos hodd]
    refine rounds_rsqrt (by omega) (by omega) hy ?_
    rw [show 2 * ((e - 1) / 2) = e - 1 by omega]
    rw [show e = 1 + (e - 1) by ring, zpow_one_add₀ two_ne_zero] at hsq
    rw [← hsq]
    push_cast
    ring_nf
  · simp only [if_neg hodd]
    refine rounds_rsqrt hm (by omega) hy ?_
    rwa [show 2 * (e / 2) = e by omega]

/-! ## What is no value of the format raises NX -/

theorem inexact_of_rounds {F : Format} {rm : RMode} {neg : Bool} {x : ℝ} {r : Nat × Word} (h : F.Rounds rm neg x r)
    (hx : ∀ l, x ≠ F.ladder l) : r.2 &&& 0x1000 = 0x1000 := by
  obtain ⟨l, k, -, hover, hfin⟩ := h
  rcases Nat.lt_or_ge F.top k with hk | hk
  · rw [hover hk]
    show (0x1400 : Word) &&& 0x1000 = 0x1000
    decide
  · obtain ⟨-, -, htiny, hnormal⟩ := hfin hk
    by_cases ht : F.Tiny (.of rm neg) x
    · rw [htiny (hx l) ht]
      rfl
    · rw [hnormal (hx l) ht]
      rfl

/-- An odd significand of more bits than the format has. -/
theorem odd_ne_ladder (F : Format) {M : Nat} (hM : 2 ^ F.man ≤ M) (e : ℤ) (l : Nat) :
    (((2 * M + 1 : Nat) : ℝ) * 2 ^ e) ≠ F.ladder l := by
  obtain ⟨a, n, rfl, hn, ha⟩ := exists_block F.man l
  rw [ladder_block F hn.le ha]
  push_cast
  intro h
  rw [pow_succ] at hn
  have hshift {j k : Nat} {c d : ℤ} (hcd : c ≤ d) (h : (j : ℝ) * 2 ^ c = k * 2 ^ d) : ∃ s, j = k * 2 ^ s := by
    obtain ⟨s, hs⟩ := Int.eq_ofNat_of_zero_le (sub_nonneg.mpr hcd)
    refine ⟨s, ?_⟩
    rw [show d = s + c by omega, zpow_add₀ two_ne_zero, zpow_natCast, ← mul_assoc, mul_left_inj' (by positivity)] at h
    exact_mod_cast h
  rcases le_total e (a + leastExp F) with hle | hle
  · obtain ⟨s, hs⟩ := hshift (j := 2 * M + 1) hle (by push_cast; exact h)
    cases s with
    | zero => omega
    | succ s =>
      rw [pow_succ, ← mul_assoc] at hs
      omega
  · obtain ⟨s, hs⟩ := hshift (k := 2 * M + 1) hle (by push_cast; exact h.symm)
    have := Nat.le_mul_of_pos_right (2 * M + 1) (Nat.two_pow_pos s)
    omega

theorem inexact_roundSticky (neg : Bool) {M : Nat} (hM : 2 ^ 24 ≤ M) (e : ℤ) :
    (roundSticky neg M true e).2 &&& 0x1000 = 0x1000 :=
  inexact_of_rounds (rounds_roundF_exact describes_binary32 .rne neg (Nat.succ_ne_zero _) (e - 1))
    (odd_ne_ladder binary32 (le_trans (by decide) hM) (e - 1))

/-! ## 2^a -/

/-- Beyond the range to nearest even: ∞ with OF and NX. -/
theorem overflow_of_rounds {F : Format} {neg : Bool} {x : ℝ} {r : Nat × Word} (hieee : F.ieee = true)
    (hx : (F.ladder (F.top + 1) : ℝ) ≤ x) (h : F.Rounds .rne neg x r) : r = (F.inf neg, 0x1400) := by
  obtain ⟨l, k, ⟨-, hhi, hself, hround⟩, hover, -⟩ := h
  have hl : F.top + 1 < l + 1 := (ladder_strictMono F).lt_iff_lt.mp (by exact_mod_cast hx.trans_lt hhi)
  have hk : l ≤ k := by
    by_cases hxl : x = F.ladder l
    · rw [hself hxl]
    · obtain ⟨hbelow, habove, htie⟩ := hround hxl
      rcases lt_trichotomy x (((F.ladder l + F.ladder (l + 1) : ℚ) : ℝ) / 2) with h | h | h
      · rw [hbelow h]
      · rcases (htie h).2 with h | h <;> omega
      · rw [habove h]
        exact Nat.le_succ l
  rw [hover (by omega)]
  simp only [Towards.of, hieee, Format.inf, Nat.add_assoc]

/-- Below half the least magnitude: 0 with UF and NX. -/
theorem rounds_underflow {F : Format} {neg : Bool} {x : ℝ} (hman : 0 < F.man) (hpos : 0 < x) (hx : x < 2 ^ (leastExp F - 1)) :
    F.Rounds .rne neg x (F.signed neg, 0x1800) := by
  have hhalf : (2 : ℝ) ^ leastExp F = 2 * 2 ^ (leastExp F - 1) := by
    rw [← zpow_one_add₀ two_ne_zero]
    congr 1
    ring
  have hunit : (0 : ℝ) < 2 ^ (leastExp F - 1) := by positivity
  have hzero : ((F.ladder 0 : ℚ) : ℝ) = 0 := by rw [ladder_eq_magUnits]; simp [magUnits]
  have hone : ((F.ladder (0 + 1) : ℚ) : ℝ) = 2 ^ leastExp F := by
    have hunits : magUnits F.man 1 = 1 := by
      rw [magUnits, if_pos (Nat.div_eq_of_lt (Nat.one_lt_two_pow hman.ne'))]
    rw [ladder_eq_magUnits, hunits]
    push_cast
    rw [one_mul]
  have hne : x ≠ F.ladder 0 := by
    rw [hzero]
    exact hpos.ne'
  refine ⟨0, 0, ⟨?_, ?_, fun _ => rfl, fun _ => ?_⟩, fun h => absurd h (Nat.not_lt_zero _), fun _ => ⟨rfl, ?_, fun _ _ => rfl, ?_⟩⟩
  · rw [hzero]
    exact hpos.le
  · rw [hone, hhalf]
    linarith
  · have hmid : x < ((F.ladder 0 + F.ladder (0 + 1) : ℚ) : ℝ) / 2 := by
      rw [Rat.cast_add, hzero, hone, hhalf]
      linarith
    exact ⟨fun _ => rfl, fun h => absurd h hmid.not_gt, fun h => absurd h hmid.ne⟩
  · exact fun h => absurd h hne
  · refine fun _ ht => absurd ?_ ht
    -- the least normal magnitude is at least two units
    have hleast : (2 : ℝ) ^ (1 - F.bias) = 2 ^ F.man * 2 ^ leastExp F := by
      rw [leastExp, ← zpow_natCast, ← zpow_add₀ two_ne_zero]
      congr 1
      ring
    have hstep : (2 : ℝ) ^ (1 - F.bias - 2 - F.man) < 2 ^ leastExp F :=
      zpow_lt_zpow_right₀ one_lt_two (by rw [leastExp]; omega)
    have htwo : (2 : ℝ) ≤ 2 ^ F.man := by
      calc (2 : ℝ) = 2 ^ 1 := (pow_one 2).symm
        _ ≤ 2 ^ F.man := pow_le_pow_right₀ one_le_two hman
    have hmul := mul_le_mul_of_nonneg_right htwo (show (0 : ℝ) ≤ 2 ^ leastExp F by positivity)
    show x < 2 ^ (1 - F.bias) - 2 ^ (1 - F.bias - 2 - F.man)
    linarith

/-- The first term of the series is 1. -/
theorem le_exp2Frac (x : Nat) : 2 ^ 192 ≤ exp2Frac x := Nat.le_add_right ..

section
variable {neg : Bool} {m : Nat} {e : ℤ}

theorem abs_signedInt : |(signedInt neg m * 2 ^ e : ℚ)| = m * 2 ^ e := by
  rw [abs_mul, abs_of_pos (show (0 : ℚ) < 2 ^ e by positivity), ← Int.cast_abs, Int.abs_eq_natAbs, natAbs_signedInt]
  rfl

/-- The bounds of a magnitude by its highest bit. -/
theorem abs_signedInt_bounds (hm : m ≠ 0) :
    (2 : ℚ) ^ (e + bitLen m - 1) ≤ |(signedInt neg m * 2 ^ e : ℚ)| ∧ |(signedInt neg m * 2 ^ e : ℚ)| < 2 ^ (e + bitLen m) := by
  obtain ⟨hlo, hhi⟩ := bitLen_bounds hm e
  rw [abs_signedInt]
  exact ⟨(Rat.cast_le (K := ℝ)).mp (by push_cast; exact hlo), (Rat.cast_lt (K := ℝ)).mp (by push_cast; exact hhi)⟩

/-- An integer exponent below 2^-30 in magnitude is 0. -/
theorem not_integer_of_small (hm : m ≠ 0) (htop : e + bitLen m < -30) (z : ℤ) : (signedInt neg m * 2 ^ e : ℚ) ≠ z := by
  obtain ⟨hlo, hhi⟩ := abs_signedInt_bounds (neg := neg) (e := e) hm
  intro h
  rw [h, ← Int.cast_abs] at hlo hhi
  have hone : ((|z| : ℤ) : ℚ) < 1 := hhi.trans_le (zpow_le_one_of_nonpos₀ one_le_two (by omega))
  have hz : |z| < 1 := by exact_mod_cast hone
  have hpos : (0 : ℚ) < (|z| : ℤ) := (show (0 : ℚ) < 2 ^ (e + bitLen m - 1) by positivity).trans_le hlo
  have : 0 < |z| := by exact_mod_cast hpos
  omega

/-- The exponent in units of 2^-64. -/
def expUnits (neg : Bool) (m : Nat) (e : ℤ) : ℤ := signedInt neg (m * 2 ^ (e + 64).toNat)

theorem expUnits_eq (he : -64 ≤ e) : (signedInt neg m * 2 ^ e : ℚ) * 2 ^ 64 = expUnits neg m e := by
  obtain ⟨d, hd⟩ := Int.eq_ofNat_of_zero_le (show 0 ≤ e + 64 by omega)
  have hsplit : (2 : ℚ) ^ e * 2 ^ 64 = 2 ^ d := by
    rw [← zpow_natCast 2 64, ← zpow_add₀ two_ne_zero, show e + ((64 : Nat) : ℤ) = d by push_cast; omega, zpow_natCast]
  rw [expUnits, hd, Int.toNat_natCast, mul_assoc, hsplit]
  cases neg <;> simp [signedInt]

/-- Within the range the model splits the exponent into its integer part and 64 fraction bits. -/
theorem exp2Fin_eq (hm : m ≠ 0) (hlo : -30 ≤ e + bitLen m) (hhi : e + bitLen m ≤ 9) :
    exp2Fin neg m e =
      if (expUnits neg m e % 2 ^ 64).toNat = 0 then roundF fp32 .rne false 1 (expUnits neg m e / 2 ^ 64)
      else roundSticky false (exp2Frac (expUnits neg m e % 2 ^ 64).toNat) true (expUnits neg m e / 2 ^ 64 - 192) := by
  unfold exp2Fin
  simp only [if_neg hm, if_neg (not_lt.mpr hlo), if_neg (not_lt.mpr hhi)]
  rfl

theorem exp2Fin_small (hm : m ≠ 0) (h : e + bitLen m < -30) : exp2Fin neg m e = (0x3F800000, fNX) := by
  unfold exp2Fin
  simp only [if_neg hm, if_pos h]

theorem roundF_two_pow_neg1000 : roundF fp32 .rne false 1 (-1000) = (0, 0x1800) := by decide +kernel

theorem roundF_two_pow_1000 : roundF fp32 .rne false 1 1000 = (0x7F800000, 0x1400) := by decide +kernel

theorem exp2Fin_large (hm : m ≠ 0) (h : 9 < e + bitLen m) :
    exp2Fin neg m e = if neg then roundF fp32 .rne false 1 (-1000) else roundF fp32 .rne false 1 1000 := by
  unfold exp2Fin
  simp only [if_neg hm, if_neg (show ¬e + bitLen m < -30 by omega), if_pos h]

theorem bitLen_le {k : Nat} (h : m < 2 ^ k) : bitLen m ≤ k := by
  rcases Nat.eq_zero_or_pos m with rfl | hpos
  · exact Nat.zero_le _
  · have := (Nat.pow_lt_pow_iff_right (show 1 < 2 by decide)).mp ((two_pow_le_of_bitLen hpos.ne').1.trans_lt h)
    omega

theorem inf_binary32 : binary32.inf false = 0x7F800000 := by decide +kernel

theorem ladder_beyond_binary32 : ((binary32.ladder (binary32.top + 1) : ℚ) : ℝ) = 2 ^ (128 : ℤ) := by
  norm_num [Format.ladder, Format.top, binary32]

/-- 2^z for an integer z. -/
theorem rounds_exp2Fin (hm : m ≠ 0) (hbits : m < 2 ^ 24) {z : ℤ} (hz : (signedInt neg m * 2 ^ e : ℚ) = z) :
    binary32.Rounds .rne false (2 ^ z) (exp2Fin neg m e) := by
  have hlen := bitLen_le hbits
  have hone := rounds_roundF_exact describes_binary32 .rne false one_ne_zero z
  rw [Nat.cast_one, one_mul] at hone
  rcases lt_or_ge (e + bitLen m) (-30) with hsmall | hlo
  · exact absurd hz (not_integer_of_small hm hsmall z)
  rcases lt_or_ge 9 (e + bitLen m) with hlarge | hhi
  · have hbig : 512 ≤ |z| := by
      have hpow : (512 : ℚ) ≤ 2 ^ (e + bitLen m - 1) := by
        calc (512 : ℚ) = 2 ^ (9 : ℤ) := by norm_num
          _ ≤ 2 ^ (e + bitLen m - 1) := zpow_le_zpow_right₀ one_le_two (by omega)
      have habs := hpow.trans (abs_signedInt_bounds (neg := neg) (e := e) hm).1
      rw [hz] at habs
      exact_mod_cast habs
    rw [exp2Fin_large hm hlarge, roundF_two_pow_neg1000, roundF_two_pow_1000]
    cases neg with
    | true =>
      have hle : z ≤ 0 := by
        have hle : (z : ℚ) ≤ 0 := by
          rw [← hz]
          exact mul_nonpos_of_nonpos_of_nonneg (by simp [signedInt]) (by positivity)
        exact_mod_cast hle
      rw [abs_of_nonpos hle] at hbig
      refine rounds_underflow (by decide) (by positivity) (zpow_lt_zpow_right₀ one_lt_two ?_)
      rw [show leastExp binary32 = -149 from rfl]
      omega
    | false =>
      have hge : 0 ≤ z := by
        have hge : (0 : ℚ) ≤ z := by
          rw [← hz]
          exact mul_nonneg (by simp [signedInt]) (by positivity)
        exact_mod_cast hge
      rw [abs_of_nonneg hge] at hbig
      have hover : ((binary32.ladder (binary32.top + 1) : ℚ) : ℝ) ≤ 2 ^ z := by
        rw [ladder_beyond_binary32]
        exact zpow_le_zpow_right₀ one_le_two (by omega)
      have hinf := overflow_of_rounds rfl hover hone
      rw [hinf, inf_binary32] at hone
      exact hone
  · have hunits := expUnits_eq (neg := neg) (m := m) (e := e) (by omega)
    rw [hz] at hunits
    have hint : expUnits neg m e = z * 2 ^ 64 := by exact_mod_cast hunits.symm
    rw [exp2Fin_eq hm hlo hhi, hint, Int.mul_emod_left, Int.mul_ediv_cancel _ (by decide), if_pos Int.toNat_zero]
    exact hone

/-- Of any other exponent the power is inexact. -/
theorem inexact_exp2Fin (hm : m ≠ 0) (hbits : m < 2 ^ 24) (hz : ∀ z : ℤ, (signedInt neg m * 2 ^ e : ℚ) ≠ z) :
    (exp2Fin neg m e).2 &&& 0x1000 = 0x1000 := by
  have hlen := bitLen_le hbits
  rcases lt_or_ge (e + bitLen m) (-30) with hsmall | hlo
  · rw [exp2Fin_small hm hsmall]
    decide
  rcases lt_or_ge 9 (e + bitLen m) with hlarge | hhi
  · rw [exp2Fin_large hm hlarge, roundF_two_pow_neg1000, roundF_two_pow_1000]
    cases neg <;> decide
  · have hfrac : (expUnits neg m e % 2 ^ 64).toNat ≠ 0 := by
      intro h
      have hmod : expUnits neg m e = expUnits neg m e / 2 ^ 64 * 2 ^ 64 := by omega
      have hunits := expUnits_eq (neg := neg) (m := m) (e := e) (by omega)
      rw [hmod] at hunits
      push_cast at hunits
      exact hz _ (mul_right_cancel₀ (by positivity) hunits)
    rw [exp2Fin_eq hm hlo hhi, if_neg hfrac]
    exact inexact_roundSticky false (le_trans (by decide) (le_exp2Frac _)) _

end

/-! ## log₂ a -/

theorem atanhTerms_mono {x y : Nat} (hxy : x ≤ y) (n i : Nat) {s t : Nat} (hst : s ≤ t) :
    atanhTerms x n i s ≤ atanhTerms y n i t := by
  induction n generalizing i s t with
  | zero => exact le_rfl
  | succ n ih =>
    exact Nat.add_le_add (Nat.div_le_div_right hst) (ih (i + 1) (Nat.div_le_div_right (Nat.mul_le_mul hst hxy)))

/-- The model's 2^192 z of log₂ t, z = (t - 1) / (t + 1), for t = m / 2^k. -/
def logArg (m k : Nat) : Nat := (m - 2 ^ k) * 2 ^ 192 / (m + 2 ^ k)

theorem log2Frac_eq (m k : Nat) :
    log2Frac m k = 2 * atanhTerms (logArg m k * logArg m k / 2 ^ 192) 64 0 (logArg m k) * invLn2Fix / 2 ^ 192 := rfl

section
variable {m k : Nat}

theorem logArg_le (hk : k ≤ 23) (hlo : 2 ^ k < m) (hhi : m < 2 ^ (k + 1)) : logArg m k ≤ logArg (2 ^ 24 - 1) 23 := by
  have hpow : 2 ^ k ≤ 2 ^ 23 := Nat.pow_le_pow_right (by decide) hk
  rw [pow_succ] at hhi
  have hcross : (m - 2 ^ k) * (2 ^ 24 - 1 + 2 ^ 23) ≤ (2 ^ 24 - 1 - 2 ^ 23) * (m + 2 ^ k) := by
    generalize 2 ^ k = p at hlo hhi hpow ⊢
    omega
  unfold logArg
  rw [Nat.le_div_iff_mul_le (by decide)]
  refine Nat.le_of_mul_le_mul_right (c := m + 2 ^ k) ?_ (by omega)
  calc (m - 2 ^ k) * 2 ^ 192 / (m + 2 ^ k) * (2 ^ 24 - 1 + 2 ^ 23) * (m + 2 ^ k)
      = (m - 2 ^ k) * 2 ^ 192 / (m + 2 ^ k) * (m + 2 ^ k) * (2 ^ 24 - 1 + 2 ^ 23) := Nat.mul_right_comm ..
    _ ≤ (m - 2 ^ k) * 2 ^ 192 * (2 ^ 24 - 1 + 2 ^ 23) := Nat.mul_le_mul_right _ (Nat.div_mul_le_self ..)
    _ = (m - 2 ^ k) * (2 ^ 24 - 1 + 2 ^ 23) * 2 ^ 192 := Nat.mul_right_comm ..
    _ ≤ (2 ^ 24 - 1 - 2 ^ 23) * (m + 2 ^ k) * 2 ^ 192 := Nat.mul_le_mul_right _ hcross
    _ = (2 ^ 24 - 1 - 2 ^ 23) * 2 ^ 192 * (m + 2 ^ k) := Nat.mul_right_comm ..

/-- The first term of the series is at least 2^-25. -/
theorem le_log2Frac (hk : k ≤ 23) (hlo : 2 ^ k < m) (hhi : m < 2 ^ (k + 1)) : 2 ^ 24 ≤ log2Frac m k := by
  have hpow : 2 ^ k ≤ 2 ^ 23 := Nat.pow_le_pow_right (by decide) hk
  rw [pow_succ] at hhi
  have harg : 2 ^ 167 ≤ logArg m k := by
    rw [logArg, Nat.le_div_iff_mul_le (by omega)]
    omega
  have hfirst : logArg m k ≤ atanhTerms (logArg m k * logArg m k / 2 ^ 192) 64 0 (logArg m k) := by
    rw [atanhTerms, Nat.mul_zero, Nat.zero_add, Nat.div_one]
    exact Nat.le_add_right ..
  rw [log2Frac_eq, Nat.le_div_iff_mul_le (by decide)]
  exact Nat.mul_le_mul (by omega) (by decide)

theorem log2Frac_le (hk : k ≤ 23) (hlo : 2 ^ k < m) (hhi : m < 2 ^ (k + 1)) : log2Frac m k ≤ 2 ^ 192 - 2 ^ 24 := by
  have harg := logArg_le hk hlo hhi
  calc log2Frac m k ≤ log2Frac (2 ^ 24 - 1) 23 := by
        rw [log2Frac_eq, log2Frac_eq]
        refine Nat.div_le_div_right (Nat.mul_le_mul_right _ (Nat.mul_le_mul_left _ (atanhTerms_mono ?_ _ _ harg)))
        exact Nat.div_le_div_right (Nat.mul_le_mul harg harg)
    _ ≤ 2 ^ 192 - 2 ^ 24 := by decide +kernel

end

section
variable {m : Nat} {e : ℤ}

/-- log₂ of a power of two is an integer. -/
theorem log2Fin_two_pow (k : Nat) (e : ℤ) : log2Fin (2 ^ k) e = packF fp32 .rne (e + k < 0) (e + k).natAbs 0 := by
  have hlen : bitLen (2 ^ k) - 1 = k := by
    rw [bitLen, if_neg (Nat.two_pow_pos k).ne', Nat.log2_two_pow, Nat.add_sub_cancel]
  unfold log2Fin
  simp only [hlen, if_true]

/-- Any other logarithm is inexact. -/
theorem inexact_log2Fin (hm : m ≠ 0) (hbits : m < 2 ^ 24) (hpow : ∀ k, m ≠ 2 ^ k) : (log2Fin m e).2 &&& 0x1000 = 0x1000 := by
  obtain ⟨hlo, hhi, hlen⟩ := two_pow_le_of_bitLen hm
  have hlen24 := bitLen_le hbits
  obtain ⟨k, hk⟩ := Nat.exists_eq_add_of_lt hlen
  rw [Nat.zero_add] at hk
  rw [hk, Nat.add_sub_cancel] at hlo
  rw [hk] at hhi
  have hlt := lt_of_le_of_ne hlo (hpow k).symm
  have hfrac := le_log2Frac (by omega) hlt hhi
  have hfrac' := log2Frac_le (by omega) hlt hhi
  unfold log2Fin
  simp only [hk, Nat.add_sub_cancel, if_neg (hpow k)]
  refine inexact_roundSticky _ ?_ _
  generalize log2Frac m k = x at hfrac hfrac'
  omega

end

/-! ## The words -/

/-- A word whose result rounds a value. -/
theorem rounds_toWord {rm : RMode} {neg : Bool} {x : ℝ} {r : Nat × Word} (h : binary32.Rounds rm neg x r) :
    binary32.Rounds rm neg x (asCode (toWord r)) :=
  (asCode_toWord (fits_rounds describes_binary32 h)).symm ▸ h

theorem asCode_toWord_inf (neg : Bool) (w : Word) : asCode (toWord (infF fp32 neg, w)) = (binary32.inf neg, w) := by
  rw [infF_eq describes_binary32]
  exact asCode_toWord (fits_inf describes_binary32 neg w)

theorem asCode_toWord_zero (neg : Bool) (w : Word) : asCode (toWord (zeroF fp32 neg, w)) = (binary32.signed neg, w) := by
  rw [zeroF_eq describes_binary32]
  exact asCode_toWord (signed_add_lt (k := 0) neg (Nat.two_pow_pos _))

section
variable {a : Word}

theorem functions_of_nan {sig : Bool} (h : val32 a = .nan sig) :
    let r : Nat × Word := (0x7FC00000, invalidIf sig)
    asCode (frcp a) = r ∧ asCode (frsq a) = r ∧ asCode (fex2 a) = r ∧ asCode (flg2 a) = r := by
  simp only [frcp, frsq, fex2, flg2, h]
  exact ⟨rfl, rfl, rfl, rfl⟩

theorem functions_of_inf {neg : Bool} (h : val32 a = .inf neg) :
    asCode (frcp a) = (binary32.signed neg, 0) ∧ asCode (frsq a) = (if neg then (0x7FC00000, 0x200) else (0, 0)) ∧
      asCode (fex2 a) = (if neg then 0 else 0x7F800000, 0) ∧
      asCode (flg2 a) = (if neg then (0x7FC00000, 0x200) else (0x7F800000, 0)) := by
  simp only [frcp, frsq, fex2, flg2, h, asCode_toWord_zero, true_and]
  cases neg <;> exact ⟨rfl, rfl, rfl⟩

theorem functions_of_zero {neg : Bool} {e : ℤ} (h : val32 a = .fin neg 0 e) :
    asCode (frcp a) = (binary32.inf neg, 0x2000) ∧ asCode (frsq a) = (binary32.inf neg, 0) ∧ asCode (fex2 a) = (0x3F800000, 0) ∧
      asCode (flg2 a) = (0xFF800000, 0x2000) := by
  simp only [frcp, frsq, fex2, flg2, h, asCode_toWord_inf, exp2Fin, if_true]
  exact ⟨rfl, trivial, rfl, rfl⟩

section
variable {neg : Bool} {n : Nat} {e : ℤ} (h : val32 a = .fin neg n e) (hn : n ≠ 0) (hbits : n < 2 ^ 24)
include h hn

theorem frcp_of_fin : frcp a = toWord (recipFin neg n e) := by
  obtain ⟨k, rfl⟩ := Nat.exists_eq_succ_of_ne_zero hn
  simp only [frcp, h]

theorem frsq_of_fin : frsq a = if neg then (0x7FC00000, 0x200) else toWord (rsqrtFin n e) := by
  obtain ⟨k, rfl⟩ := Nat.exists_eq_succ_of_ne_zero hn
  cases neg <;> simp only [frsq, h] <;> rfl

theorem flg2_of_fin : flg2 a = if neg then (0x7FC00000, 0x200) else toWord (log2Fin n e) := by
  obtain ⟨k, rfl⟩ := Nat.exists_eq_succ_of_ne_zero hn
  cases neg <;> simp only [flg2, h] <;> rfl

omit hn in
theorem fex2_of_fin : fex2 a = toWord (exp2Fin neg n e) := by simp only [fex2, h]

theorem rounds_frcp : binary32.Rounds .rne neg ((1 / |(signedInt neg n * 2 ^ e : ℚ)| : ℚ) : ℝ) (asCode (frcp a)) := by
  rw [frcp_of_fin h hn, abs_signedInt]
  push_cast
  exact rounds_toWord (rounds_recipFin neg hn e)

include hbits in
theorem rounds_fex2 {z : ℤ} (hz : (signedInt neg n * 2 ^ e : ℚ) = z) :
    binary32.Rounds .rne false (((2 : ℚ) ^ z : ℚ) : ℝ) (asCode (fex2 a)) := by
  rw [fex2_of_fin h]
  push_cast
  exact rounds_toWord (rounds_exp2Fin hn hbits hz)

end

/-- 1/√a of a positive value, as the real y with y² a = 1. -/
theorem rounds_frsq {n : Nat} {e : ℤ} (h : val32 a = .fin false n e) (hn : n ≠ 0) (hbits : n < 2 ^ 24) {y : ℝ} (hy : 0 < y)
    (hsq : y * y * (((signedInt false n * 2 ^ e : ℚ)) : ℝ) = 1) : binary32.Rounds .rne false y (asCode (frsq a)) := by
  rw [frsq_of_fin h hn, if_neg Bool.false_ne_true]
  refine rounds_toWord (rounds_rsqrtFin hn hbits hy ?_)
  simpa [signedInt] using hsq

theorem gives_flg2 {n : Nat} {e z : ℤ} (h : val32 a = .fin false n e) (hn : n ≠ 0) (hz : (signedInt false n * 2 ^ e : ℚ) = 2 ^ z) :
    binary32.Gives .rne false z (asCode (flg2 a)) := by
  have hsig : (n : ℚ) = 2 ^ (z - e) := by
    rw [zpow_sub₀ two_ne_zero, eq_div_iff (by positivity), ← hz]
    simp [signedInt]
  have hge : e ≤ z := by
    have hone : (2 : ℚ) ^ (0 : ℤ) ≤ 2 ^ (z - e) := by
      rw [zpow_zero, ← hsig]
      exact_mod_cast Nat.pos_of_ne_zero hn
    have := (zpow_le_zpow_iff_right₀ (show (1 : ℚ) < 2 by norm_num)).mp hone
    omega
  obtain ⟨k, hk⟩ := Int.eq_ofNat_of_zero_le (sub_nonneg.mpr hge)
  rw [hk, zpow_natCast] at hsig
  obtain rfl : n = 2 ^ k := by exact_mod_cast hsig
  rw [flg2_of_fin h hn, if_neg Bool.false_ne_true, log2Fin_two_pow, show e + k = z by omega]
  exact gives_int2f z

theorem inexact_flg2 {n : Nat} {e : ℤ} (h : val32 a = .fin false n e) (hn : n ≠ 0) (hbits : n < 2 ^ 24)
    (hz : ∀ z : ℤ, (signedInt false n * 2 ^ e : ℚ) ≠ 2 ^ z) : (flg2 a).2 &&& 0x1000 = 0x1000 := by
  rw [flg2_of_fin h hn, if_neg Bool.false_ne_true]
  refine inexact_log2Fin hn hbits fun k hk => hz (k + e) ?_
  rw [hk, zpow_add₀ two_ne_zero, zpow_natCast]
  simp [signedInt]

end

theorem functionsRound : FunctionsRound := by
  intro a
  simp only
  cases decoded describes_binary32 a.toNat with
  | nan hnan hdec =>
    rw [if_pos hnan]
    exact functions_of_nan hdec
  | inf hnan hinf hdec =>
    rw [hnan, hinf, if_neg Bool.false_ne_true, if_pos rfl]
    exact functions_of_inf hdec
  | fin b n hnan hinf hdec hmag hn hb htop =>
    rw [hnan, hinf, if_neg Bool.false_ne_true, if_neg Bool.false_ne_true]
    by_cases hzero : n = 0
    · rw [if_pos ((mag_eq_zero_iff hmag hb).mpr hzero)]
      rw [hzero] at hdec
      exact functions_of_zero hdec
    · rw [if_neg (mt (mag_eq_zero_iff hmag hb).mp hzero), val_eq hmag hn hb]
      refine ⟨rounds_frcp hdec hzero, ?_, fun z hz => rounds_fex2 hdec hzero hn hz, fun hz => ?_, ?_⟩
      · cases hneg : binary32.neg a.toNat with
        | true =>
          rw [hneg] at hdec
          rw [if_pos rfl, frsq_of_fin hdec hzero]
          rfl
        | false =>
          rw [hneg] at hdec
          rw [if_neg Bool.false_ne_true]
          exact fun y hy hsq => rounds_frsq hdec hzero hn hy hsq
      · rw [fex2_of_fin hdec]
        exact inexact_exp2Fin hzero hn hz
      · cases hneg : binary32.neg a.toNat with
        | true =>
          rw [hneg] at hdec
          rw [if_pos rfl, flg2_of_fin hdec hzero]
          rfl
        | false =>
          rw [hneg] at hdec
          rw [if_neg Bool.false_ne_true]
          exact ⟨fun z hz => gives_flg2 hdec hzero hz, fun hz => inexact_flg2 hdec hzero hn hz⟩

/-- Settles O54: each operation forms the exact value, or of it the floor and whether something was lost below it, and rounds
once. -/
theorem floatArithmetic : Obligations.FloatArithmetic :=
  ⟨arithmeticRounds, extremesTaken, functionsRound, conversionsRound, halvesRound describes_bfloat16, halvesRound describes_binary16⟩

end Sys2Proof.Machine
end

section
/-! # A uniform load through a fabric window whose reply has more bytes than it asked for -/

namespace Sys2Proof.Machine
open Sys2Proof.Claims

/-- `ld.bs` of s4 from the base pair s0:s1, offset 0: the signed byte at address 0. -/
def loadSignedByte : SGZDBO := ⟨0, 0, 1, 4, 0, 0⟩

/-- A window that holds the first 64 KiB, onto node 1. -/
def lowWindow : FabWindow := { FabWindow.invalid with v := true, size := 1, node := 1 }

/-- Tenant 0 has the window and may reach node 1. -/
def withLowWindow (s : State) : State :=
  { s.updTenant 0 fun x => { x with nodeSet := [1], windows := vset x.windows 0 lowWindow } with
    fabric := { s.fabric with populated := [1], uePorts := [] } }

/-- The fibre's load has been answered with the bytes 0xC8 and 1. -/
def overlongReply (f : Fibre) : Fibre :=
  { f with fabWait := some { strand := 0, tag := 0, late := false, reply := some (.data [0xC8, 1]) } }

/-- One fibre, whose load through the window has been answered. -/
def overlongState : State :=
  (withLowWindow (State.reset.withFetchWord 32 0)).updWg 0 fun w => { w with fibres := w.fibres.upd 0 overlongReply }

/-- What s4 of the fibre holds in a state. -/
def loadedIn (s : State) : Option Word := ((s.wg 0).bind fun w => w.fibres.find 0).map fun f => f.readNow (.s 4)

/-- The same after a step. -/
def loadedBy : Host.Outcome State Fault Refusal → Option Word
  | .next s => loadedIn s
  | _ => none

/-- What s4 holds once a uniform memory word has issued, made its access and retired as its rule says; nothing where one of
these does not happen. -/
def loadedByRule (r : MemRule) (s : State) : Option Word :=
  match s.wg s.cur.wk with
  | none => none
  | some w =>
    match (w.fibres.find s.cur.fid).map (issueOf r.use) with
    | none => none
    | some f =>
      let act := runners r.use f
      let x := operandWait w r.use (beforeWord w r.use f s).1 (beforeWord w r.use f s).2
      let a := r.addr x.1 0 0
      let q := { r.req x.1 0 0 with uni := true }
      if act ≠ [] ∧ issueFault r.use none f act = none ∧ syncHold s.cur.wk r.use f s = false ∧ x.2.2 = none ∧
          tokenWait x.2.1 w (r.ld && !r.st && !q.ordered) [a] = false then
        match access s.cur.wk w 0 x.1 x.2.1 a q with
        | .ok h t b fl tags late =>
          loadedIn (settleRes s.cur.wk w r.use act.length (beforeWord w r.use f s).1
            (.done (((r.deliver h 0 b).sticky fl).count t r.ld r.st [(a, late)] tags true) t))
        | _ => none
      else none

/-- The statement says of s4 what the rule gives. -/
theorem loadedBy_of_uniformMemoryEnds {table : Instr → Option MemRule} {i : Instr} {r : MemRule} {s : State} {v : Word}
    (h : UniformMemoryEnds table) (hr : table i = some r) (hwf : i.wf = true) (hv : loadedByRule r s = some v) :
    loadedBy (exec i s) = some v := by
  unfold loadedByRule at hv
  split at hv
  · cases hv
  next w hw =>
  split at hv
  · cases hv
  next f hf =>
  dsimp only at hv
  split at hv
  case isFalse => cases hv
  case isTrue hok =>
  obtain ⟨hact, hclear, hhold, hports, htoken⟩ := hok
  split at hv
  case h_2 => cases hv
  case h_1 g t b fl tags late hacc =>
  have issued : Issues r.use noPre s w f (runners r.use f) _ _ :=
    ⟨hw, hf, rfl, hact, hclear, hhold, Prod.ext rfl (Prod.ext rfl hports)⟩
  have said := h i r s w f _ _ _ hr hwf issued
  dsimp only at said
  rw [htoken] at said
  have finished := said.1 g t b fl tags late hacc
  unfold Finishes Ends at finished
  rw [finished]
  exact hv

/-- The model extends the number that all the bytes of the reply make: 456 + 0xFFFFFF00. -/
theorem loadedBy_overlong : loadedBy (exec (.uLd loadSignedByte) overlongState) = some 0xC8 := by decide +kernel

/-- The statement extends the byte 0xC8. -/
theorem loadedByRule_overlong :
    (uniMemory (.uLd loadSignedByte)).bind (fun r => loadedByRule r overlongState) = some 0xFFFFFFC8 := by decide +kernel

/-- Refutes O16: a fabric load of one signed byte may be answered with two bytes (no state excludes such a reply). Of 0xC8, 1
the statement delivers 0xC8 extended, and the model 0x1C8 + 0xFFFFFF00. -/
theorem not_uniformMemoryWords : ¬ Obligations.UniformMemoryWords := by
  unfold Obligations.UniformMemoryWords
  intro h
  obtain ⟨r, hr, hv⟩ := Option.bind_eq_some_iff.mp loadedByRule_overlong
  have said := loadedBy_of_uniformMemoryEnds h hr (by decide) hv
  rw [loadedBy_overlong] at said
  exact absurd said (by decide)

end Sys2Proof.Machine
end

section
/-! # The divergence stack (04 R85, R86; 05 R116 to R120) -/

namespace Sys2Proof.Machine

/-! ## Masks built strand by strand -/

/-- Setting bit i to q i for each i of a list writes the bits of the list alone. -/
theorem bit_foldl_setBit {w : Nat} (q : Nat → Bool) {j : Nat} (hj : j < w) (is : List Nat) (m : BitVec w) :
    bit (is.foldl (fun m i => setBit m i (q i)) m) j = if j ∈ is then q j else bit m j := by
  induction is generalizing m with
  | nil => simp
  | cons i is ih =>
    rw [List.foldl_cons, ih, bit_setBit]
    by_cases hij : i = j
    · simp [hij, hj]
    · simp [hij, Ne.symm hij]

/-- A word into which bits q i of a list are set is the word of those bits. -/
theorem foldl_setBit_eq_bitsOf {w : Nat} (q : Nat → Bool) (is : List Nat) :
    is.foldl (fun m i => setBit m i (q i)) (0 : BitVec w) = Claims.bitsOf w fun i => is.contains i && q i := by
  refine BitVec.eq_of_getLsbD_eq fun j hj => ?_
  rw [getLsbD_bitsOf _ hj, ← bit, bit_foldl_setBit q hj]
  by_cases hmem : j ∈ is <;> simp [bit, hmem]

/-- The strands that a `dbr` takes (R118). -/
theorem taken_eq_branching (f : Fibre) (g : BitVec 2) : f.taken g = Claims.branching g f := by
  unfold Fibre.taken Claims.branching
  rw [foldl_setBit_eq_bitsOf]
  refine BitVec.eq_of_getLsbD_eq fun i hi => ?_
  rw [getLsbD_bitsOf _ hi, getLsbD_bitsOf _ hi]
  simp [hi, bit, Fibre.guardP]

/-- The strands that an `exit` takes out of the mask (R120). -/
theorem exiting_eq_bitsOf (act : List Nat) :
    act.foldl (fun m i => setBit m i true) (0 : BitVec 16) = Claims.bitsOf 16 fun i => act.contains i := by
  simpa only [Bool.and_true] using foldl_setBit_eq_bitsOf (w := 16) (fun _ => true) act

/-! ## Unwind (R120) -/

/-- One pop of Unwind. -/
theorem unwind_pop (pc : DWord) (k : Nat) (f : Fibre) (n : Nat) (a : BitVec 16) :
    unwind pc (k + 1) { f with divd := n + 1, active := a } =
      let m := (f.stackAt n).mask &&& ~~~f.exitMask
      if m = 0 then unwind pc k { f with divd := n, active := m }
      else some ({ f with divd := n, active := m }, (f.stackAt n).target pc) := rfl

/-- The pops of Unwind from depth n, whatever mask they begin with: the entry that leaves a strand is the one that the table
finds. -/
theorem unwind_eq_unwound (pc : DWord) (f : Fibre) (n : Nat) (a : BitVec 16) :
    unwind pc (n + 1) { f with divd := n, active := a } =
      (Claims.unwound f n).map fun e => ({ f with divd := e.1, active := e.2 }, (f.stackAt e.1).target pc) := by
  induction n generalizing a with
  | zero => rfl
  | succ n ih =>
    rw [unwind_pop, Claims.unwound]
    dsimp only
    by_cases hempty : (f.stackAt n).mask &&& ~~~f.exitMask = 0
    · rw [if_pos hempty, if_pos hempty, ih]
    · rw [if_neg hempty, if_neg hempty]
      rfl

theorem afterMask_eq_unlessEmpty (f : Fibre) (s : State) (go : Fibre → State → Res) :
    afterMask f s go = Claims.unlessEmpty f s (go f s) := by
  unfold afterMask Claims.unlessEmpty
  by_cases hactive : f.active = 0
  · have hunwind := unwind_eq_unwound f.pc f f.divd f.active
    rw [if_pos hactive, if_neg (not_not_intro hactive), show unwind f.pc (f.divd + 1) f = _ from hunwind]
    cases Claims.unwound f f.divd <;> rfl
  · rw [if_neg hactive, if_pos hactive]

/-! ## Targets and pushes (R86, R116) -/

/-- A target is judged as that of a transfer. -/
theorem goTo_eq_elim (f g : Fibre) (s : State) (t : DWord) :
    Claims.goTo f g s t = (targetFault t).elim (.jump g s t) fun x => .trap f s x 0 := by
  rw [← transfer_eq_goTo, transfer]
  cases targetFault t <;> rfl

/-- The table's push is the model's, which finds no room when the stack is full. -/
theorem pushed_eq_elim (f : Fibre) (s : State) (kind : Bool) (mask : BitVec 16) (t : DWord) (go : Fibre → Res) :
    Claims.pushed f s kind mask t go =
      (f.push { kind := kind, mask := mask, pclo := loWord t }).elim (.trap f s stackFull 0) go := by
  unfold Claims.pushed Fibre.push
  by_cases hfull : f.depth ≤ f.divd
  · rw [if_pos hfull, if_pos hfull]
    rfl
  · rw [if_neg hfull, if_neg hfull]
    rfl

/-! ## The statement -/

/-- A word ends with what its body comes to on the fibre and the state that its ports have left. -/
theorem ends_of_effect {i : Instr} {u : Use} {pre : Fibre → Option Trap} {body : Nat → Workgroup → List Nat → Fibre → State → Res}
    {s s1 : State} {w : Workgroup} {f g : Fibre} {act : List Nat} {r : Res} (he : exec i s = word u pre body s)
    (h : Issues u pre s w f act g s1) (heffect : body s.cur.wk w act g s1 = r) : Ends i s w u act f r :=
  heffect ▸ ends_of_word he h

/-- Settles O13: masks, targets and pushes are those of the table, and the model's Unwind, which changes the fibre pop by pop,
finds the entry that the table's search over the entries finds. -/
theorem divergenceStack : Obligations.DivergenceStack := by
  intro i r s w f act g s1 hi hwf h hfires
  unfold Claims.divergence at hi
  split at hi <;> cases hi
  case h_1 o =>
    have he : exec (.lDmark o) s = execLDmark o s := rfl
    refine ends_of_effect he h ?_
    dsimp only
    rw [goTo_eq_elim, branchTarget_eq_relative]
    cases targetFault (Claims.relative g.pc o.o) with
    | some x => rfl
    | none =>
      dsimp only [Option.elim_none]
      rw [pushed_eq_elim]
      cases g.push { kind := true, mask := g.active, pclo := loWord (Claims.relative g.pc o.o) } <;> rfl
  case h_2 o =>
    have he : exec (.lDbr o) s = execLDbr o s := rfl
    refine ends_of_effect he h ?_
    dsimp only
    rw [goTo_eq_elim, branchTarget_eq_relative, taken_eq_branching]
    cases targetFault (Claims.relative g.pc o.o) with
    | some x => rfl
    | none =>
      dsimp only [Option.elim_none]
      rw [pushed_eq_elim]
      cases g.push { kind := false, mask := Claims.branching o.g g, pclo := loWord (Claims.relative g.pc o.o) } <;> rfl
  case h_3 o =>
    have he : exec (.lJoin o) s = execLJoin o s := rfl
    have hends := ends_of_word he h
    simp only [afterMask_eq_unlessEmpty] at hends
    exact hends
  case h_4 o =>
    have he : exec (.lExit o) s = execLExit o s := rfl
    have hends := ends_of_word he h
    simp only [afterMask_eq_unlessEmpty, exiting_eq_bitsOf] at hends
    exact hends

end Sys2Proof.Machine
end

section
/-! # Lane instructions: integer, floating-point and conversion words (05 R102 to R109, R120) -/

namespace Sys2Proof.Machine

/-! ## Shapes of words -/

theorem completesAs_laneRow {i : Instr} {sc g : BitVec 2} {reads : List Opnd} {d : BitVec 6} {l : Lat}
    {val table : Fibre → Nat → Nat → Word × Word} (he : ∀ s, exec i s = laneWord sc g reads d l val s) (hval : val = table) :
    CompletesAs i (Claims.laneRow sc g reads d table) :=
  hval ▸ fun s _ _ _ _ _ h => laneWord_finishes (he s) h

theorem completesAs_lR {i : Instr} {o : SGUDAB} {destr : Bool} {l : Lat} {op table : Alu}
    (he : ∀ s, exec i s = laneR o destr l op s) (hop : op = table) : CompletesAs i (Claims.lR o destr table) :=
  hop ▸ completesAs_laneRow he rfl

theorem completesAs_lA {i : Instr} {o : SGDA} {l : Lat} {op table : Alu}
    (he : ∀ s, exec i s = laneA o l op s) (hop : op = table) : CompletesAs i (Claims.lA o table) :=
  hop ▸ completesAs_laneRow he rfl

theorem completesAs_lC {i : Instr} {o : SGUKPAB} {l : Lat} {k table : Cmp}
    (he : ∀ s, exec i s = laneCmp o l k s) (hk : k = table) : CompletesAs i (Claims.lC o table) :=
  hk ▸ fun s _ _ _ _ _ h => laneCmp_finishes (he s) h

/-- The strand loop of a word that writes a predicate of each strand (05 R120). -/
theorem wrote_setP_loop {act : List Nat} {p : Nat} (lat : Nat) (x : Nat → Nat → Bool) (g : Fibre) (h : ∀ i ∈ act, i < 16)
    (hp : p < 8) : Wrote g (overStrands (fun i j h => h.setP lat i j p (x i j)) act 0 g) (toP p x act) 0 := by
  have hloop := wrote_overStrands g (fun i j h => h.setP lat i j p (x i j))
    (fun i j => if p = 0 then [] else [(.p p i, b2w (x i j))]) (fun _ _ => 0)
    (fun i j k hi _ => wrote_resP k (.fixed lat) i j p (x i j) hi hp) act 0 g h rfl
  by_cases hzero : p = 0
  · simpa [toP, hzero, flatMap_nothing] using hloop
  · simpa [toP, hzero, positions, flatMap_one] using hloop

theorem completesAs_pset {o : SGPA} {r : RegWord} (hi : Claims.laneInt (.lPset o) = some r) : CompletesAs (.lPset o) r := by
  cases hi
  intro s w f act g s1 h
  have he : exec (.lPset o) s = execLPset o s := rfl
  exact ⟨_, ends_of_word he h, wrote_setP_loop 4 _ g (fun _ hi => issues_lt h hi) o.p.isLt⟩

theorem completesAs_laneInt {i : Instr} {r : RegWord} (hi : Claims.laneInt i = some r) : CompletesAs i r := by
  have hrow := hi
  unfold Claims.laneInt at hi
  split at hi <;> cases hi
  case h_1 | h_4 | h_7 | h_10 | h_15 | h_16 | h_17 | h_18 => exact completesAs_lR (fun _ => rfl) rfl
  case h_2 => exact completesAs_lR (fun _ => rfl) aAddSatI32_eq
  case h_3 => exact completesAs_lR (fun _ => rfl) aAddSatN32_eq
  case h_5 => exact completesAs_lR (fun _ => rfl) aSubSatI32_eq
  case h_6 => exact completesAs_lR (fun _ => rfl) aSubSatN32_eq
  case h_8 => exact completesAs_lR (fun _ => rfl) aMulhI32_eq
  case h_9 => exact completesAs_lR (fun _ => rfl) rfl
  case h_11 => exact completesAs_lR (fun _ => rfl) aMinI32_eq
  case h_12 => exact completesAs_lR (fun _ => rfl) aMinN32_eq
  case h_13 => exact completesAs_lR (fun _ => rfl) aMaxI32_eq
  case h_14 => exact completesAs_lR (fun _ => rfl) aMaxN32_eq
  case h_19 => exact completesAs_lR (fun _ => rfl) aShl_eq
  case h_20 => exact completesAs_lR (fun _ => rfl) aShr_eq
  case h_21 => exact completesAs_lR (fun _ => rfl) aSar_eq
  case h_22 => exact completesAs_lR (fun _ => rfl) rfl
  case h_23 => exact completesAs_lA (fun _ => rfl) aPopc_eq
  case h_24 => exact completesAs_lA (fun _ => rfl) aClz_eq
  case h_25 => exact completesAs_lA (fun _ => rfl) aBrev_eq
  case h_26 => exact completesAs_lA (fun _ => rfl) aFfs_eq
  case h_27 => exact completesAs_lR (fun _ => rfl) aBfxI32_eq
  case h_28 => exact completesAs_lR (fun _ => rfl) aBfxN32_eq
  case h_29 => exact completesAs_lR (fun _ => rfl) aBfi_eq
  case h_30 | h_31 | h_32 | h_33 => exact completesAs_lR (fun _ => rfl) rfl
  case h_35 => exact completesAs_lC (fun _ => rfl) kCmpI32_eq
  case h_36 => exact completesAs_lC (fun _ => rfl) kCmpN32_eq
  case h_43 => exact completesAs_pset hrow
  case h_34 | h_37 | h_38 | h_39 | h_40 | h_41 | h_42 | h_44 => exact completesAs_laneRow (fun _ => rfl) rfl

/-- Settles O4: each word is of a shape that writes one result per strand, and its result is the table's function of the
strand's operands. -/
theorem laneIntegerResults : Obligations.LaneIntegerResults := regWordsComplete_of fun _ _ => completesAs_laneInt

theorem completesAs_laneFloat {i : Instr} {r : RegWord} (hi : Claims.laneFloat i = some r) : CompletesAs i r := by
  unfold Claims.laneFloat at hi
  split at hi <;> cases hi
  case h_1 | h_2 | h_3 | h_4 | h_5 | h_6 | h_7 | h_8 | h_19 | h_20 | h_27 | h_28 | h_29 | h_30 | h_31 | h_32 | h_35 =>
    exact completesAs_lR (fun _ => rfl) rfl
  case h_9 | h_10 => exact completesAs_lC (fun _ => rfl) rfl
  case h_23 | h_24 => exact completesAs_laneRow (fun _ => rfl) rfl
  all_goals exact completesAs_lA (fun _ => rfl) rfl

/-- Settles O5: each word is of a shape that writes one result per strand, which is the operation that the table names. -/
theorem laneFloatResults : Obligations.LaneFloatResults := regWordsComplete_of fun _ _ => completesAs_laneFloat

end Sys2Proof.Machine
end

section
/-! # Lane instructions: exchanges, scans, reductions, picks and votes (05 R110 to R115) -/

namespace Sys2Proof.Machine

/-! ## Values moved between strands (R110, R111) -/

/-- A loop that writes vD of each strand, without latency. -/
theorem wrote_putV_loop {act : List Nat} (d : Nat) (x : Nat → Word) (g : Fibre) (h : ∀ i ∈ act, i < 16) :
    Wrote g (overStrands (fun i _ h => h.putV i d (x i)) act 0 g) (act.map fun i => (.v (g.phys d) i, x i)) 0 := by
  have hloop := wrote_overStrands g (fun i _ h => h.putV i d (x i)) (fun i _ => [(.v (g.phys d) i, x i)]) (fun _ _ => 0)
    (fun i _ k hi hk => phys_of_sameRest hk d ▸ wrote_putV k i d (x i) hi) act 0 g h rfl
  have hstrands : act.zipIdx.map (fun e => (Reg.v (g.phys d) e.1, x e.1)) = act.map fun i => (.v (g.phys d) i, x i) := by
    rw [← Function.comp_def (fun i => (Reg.v (g.phys d) i, x i)) Prod.fst, ← List.map_map, List.zipIdx_map_fst]
  simpa [flatMap_one, hstrands] using hloop

theorem completesAs_xRow {i : Instr} {sc g : BitVec 2} {reads : List Opnd} {d a : BitVec 6} {src table : Fibre → Nat → Nat}
    (he : ∀ s, exec i s = exchange sc g reads d a src s) (hsrc : ∀ f k, src f k = table f k) :
    CompletesAs i (Claims.xRow sc g reads d a table) :=
  (funext₂ hsrc : src = table) ▸ fun s _ _ _ _ _ h =>
    ⟨_, ends_of_word (he s) h, wrote_putV_loop d.toNat _ _ fun _ hi => issues_lt h hi⟩

/-! ## Chains (R112, R113) -/

theorem combMin_eq : combMin = Claims.minOf := by
  funext r x
  simp only [combMin, minI, Claims.minOf, ← not_le, ite_not]
  rfl

theorem combMax_eq : combMax = Claims.maxOf := by
  funext r x
  simp only [combMax, maxI, Claims.maxOf, ← not_le, ite_not]
  rfl

/-- The chain is the fold of the values; each strand's part of it is the fold up to its own. -/
theorem chain_eq (op : Comb) (a : BitVec 6) (f : Fibre) (act : List Nat) (run fl : Word) (vs : List (Nat × Word)) :
    let upTo (l : List Nat) : Word × Word := (l.map fun i => f.xchV i a.toNat).foldl (Claims.combine op) (run, fl)
    chain op a f act run fl vs =
      ((upTo act).1, (upTo act).2, vs ++ (positions act).map fun e => (e.1, (upTo (act.take (e.2 + 1))).1)) := by
  induction act generalizing run fl vs with
  | nil => simp [chain, positions]
  | cons i is ih =>
    have hrest := ih (op run (f.xchV i a.toNat)).1 (fl ||| (op run (f.xchV i a.toNat)).2)
      (vs ++ [(i, (op run (f.xchV i a.toNat)).1)])
    dsimp only at hrest ⊢
    rw [chain, hrest, positions, positions, List.zipIdx_cons', List.append_assoc]
    simp only [List.map_cons, List.map_map]
    rfl

/-- With a strand that pops a port behind sB, a chain starts from sB or the identity. -/
theorem chainSeed_of_strands {o : SGUDAB} {act : List Nat} (hact : act ≠ []) (ident : Word) (f : Fibre) (s : State) :
    chainSeed o ident act f s = (if o.u = 1 then f.laneS o.b.toNat else ident, s) := by
  have hne : act.isEmpty = false := List.isEmpty_eq_false_iff.mpr hact
  simp only [chainSeed, hne, Bool.false_and, Bool.false_eq_true, if_false]
  split <;> rfl

/-- A chain over strands gives what R112 combines. -/
theorem chain_seeded {o : SGUDAB} {act : List Nat} (hact : act ≠ []) (op : Comb) (ident : Word) (f : Fibre) (s : State) :
    chain op o.a f act (chainSeed o ident act f s).1 0 [] =
      ((Claims.combined o op ident f act).1, (Claims.combined o op ident f act).2,
        (positions act).map fun e => (e.1, (Claims.combined o op ident f (act.take (e.2 + 1))).1)) := by
  rw [chainSeed_of_strands hact, chain_eq]
  rfl

/-- Values written to vD of strands, one after another. -/
theorem wrote_putV_foldl {g : Fibre} (d : Nat) (es : List (Nat × Word)) (h : Fibre) (hes : ∀ e ∈ es, e.1 < 16)
    (hrest : SameRest g h) :
    Wrote h (es.foldl (fun h e => h.putV e.1 d e.2) h) (es.map fun e => (.v (g.phys d) e.1, e.2)) 0 := by
  induction es generalizing h with
  | nil => exact Wrote.refl h
  | cons e es ih =>
    have hone := wrote_putV h e.1 d e.2 (hes e List.mem_cons_self)
    have htail := ih (h.putV e.1 d e.2) (fun x hx => hes x (List.mem_cons_of_mem e hx)) (hrest.trans hone.rest)
    have hboth := hone.trans htail
    rwa [phys_of_sameRest hrest, BitVec.or_self] at hboth

/-- Writes, and then the FSTAT bits of all of them. -/
theorem Wrote.withFlags {g h : Fibre} {ws : List (Reg × Word)} (w : Wrote g h ws 0) (m : Word) : Wrote g (h.sticky m) ws m := by
  simpa using w.trans (wrote_sticky h m)

/-- A strand at its position is a strand of the word. -/
theorem mem_of_positions {act : List Nat} {e : Nat × Nat} (h : e ∈ positions act) : e.1 ∈ act :=
  List.fst_mem_of_mem_zipIdx h

theorem completesAs_scanRow {i : Instr} {o : SGUDAB} {op table : Comb} {ident : Word}
    (he : ∀ s, exec i s = scanWord o op ident s) (hop : op = table) : CompletesAs i (Claims.scanRow o table ident) := by
  subst hop
  intro s w f act g s1 h
  have hends := ends_of_word (he s) h
  dsimp only at hends
  rw [chain_seeded h.some_strand, chainSeed_of_strands h.some_strand] at hends
  refine ⟨_, hends, ?_⟩
  have hvalues := wrote_putV_foldl o.d.toNat
    ((positions act).map fun e => (e.1, (Claims.combined o op ident g (act.take (e.2 + 1))).1)) g
    (fun x hx => by
      obtain ⟨e, he, rfl⟩ := List.mem_map.mp hx
      exact issues_lt h (mem_of_positions he)) (SameRest.refl g)
  rw [List.map_map] at hvalues
  exact hvalues.withFlags _

theorem completesAs_redRow {i : Instr} {o : SGUDAB} {op table : Comb} {ident : Word}
    (he : ∀ s, exec i s = redWord o op ident s) (hop : op = table) : CompletesAs i (Claims.redRow o table ident) := by
  subst hop
  intro s w f act g s1 h
  have hends := ends_of_word (he s) h
  dsimp only at hends
  rw [chain_seeded h.some_strand, chainSeed_of_strands h.some_strand] at hends
  exact ⟨_, hends, (wrote_putS g o.d.toNat (Claims.combined o op ident g act).1 o.d.isLt).withFlags _⟩

/-! ## Extreme values (R114) -/

/-- A `redix` prefers values with a lesser key, and every other value to its identity. -/
structure Prefers (key : Word → Int) (lt : Word → Word → Bool) (ident : Word) : Prop where
  lt_iff : ∀ x b, lt x b = true ↔ key x < key b
  ident_last : ∀ x, x = ident ∨ key x < key ident

section
variable {key : Word → Int} {lt : Word → Word → Bool} {ident : Word}

/-- The best of some values is the one that the search began with, or better than that. -/
theorem foldl_better (P : Prefers key lt ident) (l : List Word) (b : Word) :
    l.foldl (Claims.better lt) b = b ∨ key (l.foldl (Claims.better lt) b) < key b := by
  induction l generalizing b with
  | nil => exact .inl rfl
  | cons x xs ih =>
    rw [List.foldl_cons, Claims.better]
    split
    · rename_i hlt
      have hx := (P.lt_iff x b).mp hlt
      rcases ih x with h | h
      · exact .inr (by rwa [h])
      · exact .inr (h.trans hx)
    · exact ih b

theorem foldl_better_le (P : Prefers key lt ident) (l : List Word) (b : Word) : key (l.foldl (Claims.better lt) b) ≤ key b :=
  (foldl_better P l b).elim (fun h => (congrArg key h).le) le_of_lt

/-- No strand's number is the index of "none yet". -/
theorem ofNat_strand_ne {k : Nat} (hk : k < 16) : BitVec.ofNat 32 k ≠ 0xFFFFFFFF := by
  intro h
  have hnat := congrArg BitVec.toNat h
  rw [BitVec.toNat_ofNat, Nat.mod_eq_of_lt (by omega)] at hnat
  change k = 4294967295 at hnat
  omega

/-- The first strand that holds a value. -/
theorem firstHolder_cons (x : Nat → Word) (top : Word) (i : Nat) (is : List Nat) (d : Nat) :
    ((i :: is).find? fun i => x i == top).getD d =
      if top = x i then i else (is.find? fun i => x i == top).getD d := by
  rw [List.find?_cons]
  by_cases h : x i = top
  · simp [h]
  · rw [if_neg (Ne.symm h), beq_eq_false_iff_ne.mpr h]

/-- Once the search holds the value `best` of strand k, it ends with the best value and the first strand that holds it. -/
theorem extreme_from (P : Prefers key lt ident) (a : BitVec 6) (f : Fibre) (act : List Nat) (hlt : ∀ i ∈ act, i < 16)
    (best : Word) (k : Nat) (hk : k < 16) :
    let top := (act.map fun i => f.xchV i a.toNat).foldl (Claims.better lt) best
    extreme lt a f act best (BitVec.ofNat 32 k) =
      (top, BitVec.ofNat 32 (if top = best then k else (act.find? fun i => f.xchV i a.toNat == top).getD 0xFFFFFFFF)) := by
  induction act generalizing best k with
  | nil => simp [extreme]
  | cons i is ih =>
    obtain ⟨hi, his⟩ := List.forall_mem_cons.mp hlt
    have hle := foldl_better_le P (is.map fun i => f.xchV i a.toNat)
    simp only [extreme, ofNat_strand_ne hk, false_or, List.map_cons, List.foldl_cons,
      firstHolder_cons fun i => f.xchV i a.toNat]
    generalize is.map (fun i => f.xchV i a.toNat) = xs at hle ih ⊢
    generalize f.xchV i a.toNat = x
    cases hbetter : lt x best
    · have hworse : ¬key x < key best := by rw [← P.lt_iff, hbetter]; exact Bool.false_ne_true
      rw [if_neg Bool.false_ne_true, Claims.better, hbetter, if_neg Bool.false_ne_true, ih his best k hk]
      rcases foldl_better P xs best with htop | htop
      · simp only [htop, if_true]
      · have hother : xs.foldl (Claims.better lt) best ≠ x := fun h => hworse (h ▸ htop)
        rw [if_neg hother]
    · have hgain := (hle x).trans_lt ((P.lt_iff x best).mp hbetter)
      have hnew : xs.foldl (Claims.better lt) x ≠ best := fun h => (congrArg key h).not_lt hgain
      rw [if_pos rfl, Claims.better, hbetter, if_pos rfl, ih his x i hi, if_neg hnew]

/-- From the identity the first strand is taken, whatever it holds. -/
theorem extreme_eq (P : Prefers key lt ident) (a : BitVec 6) (f : Fibre) {act : List Nat} (hact : act ≠ [])
    (hlt : ∀ i ∈ act, i < 16) :
    let top := (act.map fun i => f.xchV i a.toNat).foldl (Claims.better lt) ident
    extreme lt a f act ident 0xFFFFFFFF =
      (top, BitVec.ofNat 32 ((act.find? fun i => f.xchV i a.toNat == top).getD 0xFFFFFFFF)) := by
  obtain ⟨i, is, rfl⟩ := List.exists_cons_of_ne_nil hact
  obtain ⟨hi, his⟩ := List.forall_mem_cons.mp hlt
  have hfirst : Claims.better lt ident (f.xchV i a.toNat) = f.xchV i a.toNat := by
    rcases P.ident_last (f.xchV i a.toNat) with h | h
    · rw [Claims.better, h, ite_self]
    · rw [Claims.better, if_pos ((P.lt_iff _ _).mpr h)]
  simp only [extreme, true_or, if_true, List.map_cons, List.foldl_cons, firstHolder_cons fun i => f.xchV i a.toNat, hfirst]
  exact extreme_from P a f is his _ i hi

theorem completesAs_redixRow {i : Instr} {o : SGDA} (P : Prefers key lt ident) (hd : o.d.toNat + 1 < 64)
    (he : ∀ s, exec i s = redixWord o lt ident s) : CompletesAs i (Claims.redixRow o lt ident) := by
  intro s w f act g s1 h
  have hends := ends_of_word (he s) h
  dsimp only at hends
  rw [extreme_eq P o.a g h.some_strand fun _ hi => issues_lt h hi] at hends
  exact ⟨_, hends, wrote_putS64 g o.d.toNat _ hd⟩

end

/-- The least signed value. -/
theorem prefers_minI : Prefers BitVec.toInt (fun x b => decide (x.toInt < b.toInt)) 0x7FFFFFFF where
  lt_iff _ _ := decide_eq_true_iff
  ident_last x := by
    have hlt := BitVec.toInt_lt (x := x)
    have hident : (0x7FFFFFFF : Word).toInt = 2147483647 := rfl
    rw [← BitVec.toInt_inj, hident]
    omega

/-- The least unsigned value. -/
theorem prefers_minN : Prefers (fun x => x.toNat) (fun x b => decide (x.toNat < b.toNat)) 0xFFFFFFFF where
  lt_iff _ _ := decide_eq_true_iff.trans Int.ofNat_lt.symm
  ident_last x := by
    have hlt := x.isLt
    have hident : (0xFFFFFFFF : Word).toNat = 4294967295 := rfl
    rw [← BitVec.toNat_inj, hident]
    omega

/-- The greatest signed value. -/
theorem prefers_maxI : Prefers (fun x => -x.toInt) (fun x b => decide (b.toInt < x.toInt)) 0x80000000 where
  lt_iff _ _ := decide_eq_true_iff.trans neg_lt_neg_iff.symm
  ident_last x := by
    have hle := BitVec.le_toInt x
    have hident : (0x80000000 : Word).toInt = -2147483648 := rfl
    rw [← BitVec.toInt_inj, hident]
    omega

/-- The greatest unsigned value. -/
theorem prefers_maxN : Prefers (fun x => -x.toNat) (fun x b => decide (b.toNat < x.toNat)) 0 where
  lt_iff _ _ := decide_eq_true_iff.trans (Int.ofNat_lt.symm.trans neg_lt_neg_iff.symm)
  ident_last x := by
    have hident : (0 : Word).toNat = 0 := rfl
    rw [← BitVec.toNat_inj, hident]
    omega

/-! ## Picks and votes (R115) -/

theorem completesAs_pick {o : SGDA} {r : RegWord} (hi : Claims.laneExchange (.lPick o) = some r) :
    CompletesAs (.lPick o) r := by
  cases hi
  intro s w f act g s1 h
  have he : exec (.lPick o) s = execLPick o s := rfl
  refine ⟨_, ends_of_word he h, ?_⟩
  cases act with
  | nil => exact absurd rfl h.some_strand
  | cons i is => exact wrote_putS g o.d.toNat (g.xchV i o.a.toNat) o.d.isLt

theorem completesAs_ballot {o : SGDM} {r : RegWord} (hi : Claims.laneExchange (.lBallot o) = some r) :
    CompletesAs (.lBallot o) r := by
  cases hi
  intro s w f act g s1 h
  have he : exec (.lBallot o) s = execLBallot o s := rfl
  have hends := ends_of_word he h
  dsimp only at hends
  rw [foldl_setBit_eq_bitsOf fun i => g.xchP i o.m.toNat] at hends
  exact ⟨_, hends, wrote_putS g o.d.toNat _ o.d.isLt⟩

theorem completesAs_voteAny (o : SGCM) : CompletesAs (.lVoteAny o) (Claims.voteRow o fun l => l.contains true) := by
  intro s w f act g s1 h
  have he : exec (.lVoteAny o) s = execLVoteAny o s := rfl
  have hany : (act.any fun i => g.xchP i o.m.toNat) = (act.map fun i => g.xchP i o.m.toNat).contains true := by
    rw [List.contains_eq_any_beq, List.any_map]
    simp [Function.comp_def]
  have hends := ends_of_word he h
  dsimp only at hends
  rw [hany] at hends
  exact ⟨_, hends, wrote_putC g o.c.toNat _ o.c.isLt⟩

theorem completesAs_voteAll (o : SGCM) : CompletesAs (.lVoteAll o) (Claims.voteRow o fun l => !l.contains false) := by
  intro s w f act g s1 h
  have he : exec (.lVoteAll o) s = execLVoteAll o s := rfl
  have hall : (act.all fun i => g.xchP i o.m.toNat) = !(act.map fun i => g.xchP i o.m.toNat).contains false := by
    rw [List.contains_eq_any_beq, List.any_map, List.not_any_eq_all_not]
    simp
  have hends := ends_of_word he h
  dsimp only at hends
  rw [hall] at hends
  exact ⟨_, hends, wrote_putC g o.c.toNat _ o.c.isLt⟩

/-! ## The statement -/

theorem completesAs_laneExchange {i : Instr} {r : RegWord} (hi : Claims.laneExchange i = some r) (hwf : i.wf = true) :
    CompletesAs i r := by
  have hrow := hi
  unfold Claims.laneExchange at hi
  split at hi <;> cases hi
  case h_1 | h_2 | h_3 | h_6 | h_7 => exact completesAs_xRow (fun _ => rfl) fun _ _ => rfl
  case h_4 | h_5 => exact completesAs_xRow (fun _ => rfl) fun _ _ => by simp only [← Nat.not_le, ite_not]
  case h_8 | h_9 => exact completesAs_scanRow (fun _ => rfl) rfl
  case h_10 => exact completesAs_scanRow (fun _ => rfl) combMin_eq
  case h_11 => exact completesAs_scanRow (fun _ => rfl) combMax_eq
  case h_12 | h_13 | h_14 | h_15 => exact completesAs_redRow (fun _ => rfl) rfl
  case h_16 => exact completesAs_redixRow prefers_minI (pairDst_lt hwf) fun _ => rfl
  case h_17 => exact completesAs_redixRow prefers_minN (pairDst_lt hwf) fun _ => rfl
  case h_18 => exact completesAs_redixRow prefers_maxI (pairDst_lt hwf) fun _ => rfl
  case h_19 => exact completesAs_redixRow prefers_maxN (pairDst_lt hwf) fun _ => rfl
  case h_20 => exact completesAs_pick hrow
  case h_21 o => exact completesAs_voteAny o
  case h_22 o => exact completesAs_voteAll o
  case h_23 => exact completesAs_ballot hrow

/-- Settles O6: the values that a word writes are formed from its strands' values before any is written, and the model's
running combinations and searches are the folds of the table. -/
theorem laneExchangeResults : Obligations.LaneExchangeResults := fun _ _ s w f act g s1 hi hwf h =>
  completesAs_laneExchange hi hwf s w f act g s1 h

end Sys2Proof.Machine
end

section
/-! # What stands before a word's effect leaves the agent that acts (08 R152, R157) -/

namespace Sys2Proof.Machine

theorem foldl_cur {α : Type} {g : State → α → State} (h : ∀ s a, (g s a).cur = s.cur) (l : List α) (s : State) :
    (l.foldl g s).cur = s.cur := by
  induction l generalizing s with
  | nil => rfl
  | cons a as ih => rw [List.foldl_cons, ih, h]

@[simp] theorem disown_cur (s : State) (keep : Option Nat) (line : Nat) : (s.disown keep line).cur = s.cur := by
  unfold State.disown
  split <;> rfl

@[simp] theorem l2Room_cur (s : State) (line : Nat) : (s.l2Room line).cur = s.cur := by
  unfold State.l2Room
  dsimp only
  split <;> rfl

@[simp] theorem modifyLine_cur (s : State) (line : Nat) : (s.modifyLine line).cur = s.cur := by
  unfold State.modifyLine
  dsimp only
  split
  · rfl
  · rfl
  · split
    · exact l2Room_cur s line
    · split <;> rfl

@[simp] theorem modify_cur (s : State) (pa n : Nat) : (s.modify pa n).cur = s.cur := foldl_cur modifyLine_cur _ s

@[simp] theorem recallLine_cur (s : State) (keep : Bool) (line : Nat) : (s.recallLine keep line).cur = s.cur := by
  unfold State.recallLine
  split
  · simp only [State.setWgs_rest, State.setMem_rest]
    split
    · simp only [State.setStale_rest, State.setPoison_rest, modifyLine_cur]
    · rfl
  · rfl

@[simp] theorem recall_cur (s : State) (keep : Bool) (pa n : Nat) : (s.recall keep pa n).cur = s.cur :=
  foldl_cur (fun s line => recallLine_cur s keep line) _ s

@[simp] theorem verify_cur (s : State) (pa n : Nat) : (s.verify pa n).cur = s.cur := by
  unfold State.verify
  dsimp only
  split <;> rfl

@[simp] theorem refresh_cur (s : State) (c pa n : Nat) : (s.refresh c pa n).cur = s.cur := by
  unfold State.refresh
  dsimp only
  split <;> rfl

@[simp] theorem evalWatches_cur (s : State) (pa n : Nat) : (s.evalWatches pa n).cur = s.cur := rfl

@[simp] theorem sliceRead_cur (s : State) (c : Option Nat) (pa n : Nat) : (s.sliceRead c pa n).2.cur = s.cur :=
  (verify_cur _ pa n).trans ((disown_cur _ c _).trans (recall_cur s true pa n))

@[simp] theorem physWrite_cur (s : State) (c : Option Nat) (pa : Nat) (bs : List Byte) : (s.physWrite c pa bs).cur = s.cur := by
  have hmodify : ((((s.recall false pa bs.length).disown c (lineOf pa))).modify pa bs.length).cur = s.cur :=
    (modify_cur _ pa _).trans ((disown_cur _ c _).trans (recall_cur s false pa _))
  unfold State.physWrite
  dsimp only
  rw [evalWatches_cur]
  cases c with
  | none => dsimp only; split <;> exact hmodify
  | some k => dsimp only; rw [refresh_cur]; split <;> exact hmodify

@[simp] theorem afterWalk_cur (s : State) (ten va : Nat) : (s.afterWalk ten va).cur = s.cur := by
  unfold State.afterWalk
  split
  · rfl
  · exact foldl_cur (fun s a => sliceRead_cur s none a 8) _ s

theorem page_cur {s t : State} {cl ten va : Nat} {a : DWord} {e : TlbEntry} (h : s.page cl ten va a = .ok (e, t)) :
    t.cur = s.cur := by
  unfold State.page at h
  dsimp only at h
  split at h
  · split at h
    · cases h
      rfl
    · split at h
      · cases h
      · cases h
        exact afterWalk_cur (s.draw Config.tlbHolds).2 ten va
  · split at h
    · cases h
    · cases h
      exact afterWalk_cur s ten va

theorem translate_cur {s t : State} {cl ten va n pa : Nat} {store : Bool} {a : DWord} {e : TlbEntry}
    (h : s.translate cl ten va n store a = .ok (pa, e, t)) : t.cur = s.cur := by
  unfold State.translate at h
  split at h
  · cases h
  · rename_i hpage
    split at h
    · cases h
    · split at h
      · cases h
      · cases h
        have hcur := page_cur hpage
        exact hcur

theorem stashLine_cur {s t : State} {wk off : Nat} {a : DWord} {l : Option StashLine} (h : s.stashLine wk off a = .ok (l, t)) :
    t.cur = s.cur := by
  unfold State.stashLine at h
  split at h
  · cases h
    rfl
  split at h
  · cases h
    rfl
  dsimp only at h
  split at h
  · cases h
    rfl
  split at h
  · cases h
  rename_i htranslate
  split at h
  · cases h
  cases h
  rw [refresh_cur, State.updWg_cur, disown_cur, recall_cur, translate_cur htranslate]

theorem scratchWrite_cur {s t : State} {wk off : Nat} {bs : List Byte} {a : DWord} (h : s.scratchWrite wk off bs a = .ok t) :
    t.cur = s.cur := by
  unfold State.scratchWrite at h
  split at h
  · cases h
  · rename_i hline
    split at h
    · split at h
      · cases h
      · cases h
        rw [evalWatches_cur, refresh_cur, State.updWg_cur, stashLine_cur hline]
    · cases h
      rw [State.updWg_cur, stashLine_cur hline]

@[simp] theorem freeBytes_cur (n : Nat) (s : State) : (freeBytes n s).2.cur = s.cur := by
  induction n generalizing s with
  | zero => rfl
  | succ n ih => exact ih _

@[simp] theorem stirObjs_cur (s : State) (core key : Option Nat) (rs : List (Nat × Nat)) : (s.stirObjs core key rs).cur = s.cur := by
  unfold State.stirObjs
  split
  · rfl
  · refine (foldl_cur (fun s r => ?_) rs _).trans rfl
    cases key with
    | none => exact (physWrite_cur _ core r.1 _).trans (freeBytes_cur r.2 s)
    | some k =>
      dsimp only
      cases hwrite : (freeBytes r.2 s).2.scratchWrite k r.1 (freeBytes r.2 s).1 0 with
      | error => exact freeBytes_cur r.2 s
      | ok t => exact (scratchWrite_cur hwrite).trans (freeBytes_cur r.2 s)

@[simp] theorem afterStore_cur (s old : State) (core : Option Nat) (x : Option Nat × Nat) (n : Nat) (k : StoreKind) :
    (s.afterStore old core x n k).cur = s.cur := by
  have hends (t : State) : (t.endHanded x n).cur = t.cur := by
    unfold State.endHanded
    split <;> rfl
  have hstir : ((s.stirObjs core x.1 (old.disturbs x n k)).forgetFlips x n).cur = s.cur := stirObjs_cur s core x.1 _
  unfold State.afterStore
  dsimp only
  split
  · exact hstir
  · exact (hends _).trans hstir

@[simp] theorem l1Drop_cur (s : State) (core pa : Nat) : (s.l1Drop core pa).cur = s.cur := by
  unfold State.l1Drop
  dsimp only
  split <;> rfl

@[simp] theorem performSt_cur (s : State) (core : Nat) (p : PendStore) : (s.performSt core p).cur = s.cur := by
  unfold State.performSt
  split
  · rw [afterStore_cur]
    split
    · exact (l1Drop_cur _ core _).trans (physWrite_cur s _ _ _)
    · exact physWrite_cur s _ _ _
  · split
    · rfl
    · rename_i hwrite
      exact (afterStore_cur ..).trans (scratchWrite_cur hwrite)

@[simp] theorem flush_cur (f : Fibre) (who : Option Nat) (core : Nat) (s : State) : (f.flush who core s).2.cur = s.cur :=
  foldl_cur (fun s p => performSt_cur s core p) _ s

@[simp] theorem beforeWord_cur (w : Workgroup) (u : Use) (f : Fibre) (s : State) : (beforeWord w u f s).2.cur = s.cur := by
  unfold beforeWord
  split
  · exact flush_cur f none w.core s
  · rfl

/-- A word has its effect for the agent that issued it. -/
theorem issues_cur {u : Use} {pre : Fibre → Option Trap} {s s1 : State} {w : Workgroup} {f g : Fibre} {act : List Nat}
    (h : Issues u pre s w f act g s1) : s1.cur = s.cur := by
  have hserved := congrArg State.cur (issues_served h)
  exact (show s1.cur = _ from hserved).trans (beforeWord_cur w u f s)

end Sys2Proof.Machine
end

section
/-! # Fibres, windows and rows (04 R87 to R91; 05 R121 to R123) -/

namespace Sys2Proof.Machine

/-! ## fork, yield and window sizes (05 R121 to R123) -/

/-- The window sizes: 8 to 64 in steps of 8. -/
theorem sizeOk_eq_windowSize (n : Nat) : sizeOk n = Claims.windowSize n := by
  rw [Bool.eq_iff_iff]
  simp only [sizeOk, Claims.windowSize, Bool.and_eq_true, bne_iff_ne, decide_eq_true_eq, beq_iff_eq, List.contains_iff_mem,
    List.mem_cons, List.not_mem_nil, or_false]
  omega

theorem shrinkOk_eq (f : Fibre) (n : Nat) : f.shrinkOk n = (Claims.windowSize n && decide (f.rots ≤ n)) := by
  rw [Fibre.shrinkOk, sizeOk_eq_windowSize]

/-- 05 R122: outside deterministic mode `yield` delays the fibre's next word. -/
theorem yield_delays {o : SGIB} {s s1 : State} {w : Workgroup} {f g : Fibre} {act : List Nat}
    (h : Issues (uUse o.s o.g (opB o.i o.b) []) noPre s w f act g s1) (hdet : w.hdr.det = false) :
    Ends (.yield o) s w (uUse o.s o.g (opB o.i o.b) []) act f
      (.done { g with yieldUntil := s1.cycles + (if o.i = 1 then o.b.toNat else (g.getS o.b.toNat).toNat % 65536) } s1) := by
  have he : exec (.yield o) s = execYield o s := rfl
  have hdelay : (g.uB o.i o.b).toNat % 65536 = if o.i = 1 then o.b.toNat else (g.getS o.b.toNat).toNat % 65536 := by
    have hsmall : o.b.toNat % 65536 = o.b.toNat := Nat.mod_eq_of_lt (o.b.isLt.trans (by decide))
    rw [toNat_uB, Claims.rotValue, apply_ite (· % 65536), hsmall]
  have hends := ends_of_wordBy he h fun f0 _ => by simp only [hdet, Bool.false_eq_true, if_false]
  simpa only [hdet, Bool.false_eq_true, if_false, hdelay] using hends

theorem execVgrow_eq (o : SGIB) (s : State) :
    execVgrow o s =
      word (uUse o.s o.g (opB o.i o.b) []) (Claims.immediateCheck o fun _ => Claims.windowSize (8 * o.b.toNat))
        (fun wk w _ f s =>
          let n := Claims.sizeAsked o f
          if Claims.windowSize n = false then Claims.fault .reservedField 3 0 f s
          else if n ≤ f.win then .done f s
          else if 24576 - s.scratchRows w.core < n + (f.depth + 7) / 8 then Claims.fault .window 2 0 f s
          else match s.tryGrow w f n with
            | some g => .done g ((s.putFibre wk g).l1Trim w.core)
            | none => .wait { f with rowsReq := some (.grow n) } s .rows) s := by
  have hcheck : (sizeCheck o.i o.b fun _ => sizeOk) = Claims.immediateCheck o fun _ => Claims.windowSize (8 * o.b.toNat) := by
    funext f
    rw [sizeCheck, sizeOk_eq_windowSize]
    rfl
  unfold execVgrow
  simp only [hcheck, sizeOk_eq_windowSize, Bool.not_eq_true']
  rfl

theorem execVshrink_eq (o : SGIB) (s : State) :
    execVshrink o s =
      word (uUse o.s o.g (opB o.i o.b) [])
        (Claims.immediateCheck o fun f => Claims.windowSize (8 * o.b.toNat) && decide (f.rots ≤ 8 * o.b.toNat))
        (fun _ _ _ f s =>
          let n := Claims.sizeAsked o f
          if Claims.windowSize n = false ∨ n < f.rots then Claims.fault .reservedField 3 0 f s
          else if f.win ≤ n then .done f s else .done (f.resize n) s) s := by
  have hcheck : sizeCheck o.i o.b Fibre.shrinkOk =
      Claims.immediateCheck o fun f => Claims.windowSize (8 * o.b.toNat) && decide (f.rots ≤ 8 * o.b.toNat) := by
    funext f
    rw [sizeCheck, shrinkOk_eq]
    rfl
  unfold execVshrink
  simp only [hcheck, shrinkOk_eq, Bool.not_eq_true', Bool.and_eq_false_iff, decide_eq_false_iff_not, Nat.not_le]
  rfl

theorem fibreControlWords : Claims.WordsEnd Claims.fibreControl := by
  intro i r s w f act g s1 hi hwf h hfires
  unfold Claims.fibreControl at hi
  split at hi <;> cases hi
  case h_1 o =>
    have he : exec (.fork o) s = execFork o s := rfl
    refine ends_of_effect he h ?_
    dsimp only
    rw [issues_cur h, goTo_eq_elim]
    cases targetFault (g.getS64 o.a.toNat) <;> rcases g.rowsReq with _ | _ | _ | _ <;> rfl
  case h_2 o =>
    have he : exec (.fctlEnd o) s = execFctlEnd o s := rfl
    exact ends_of_word he h
  case h_3 o => exact yield_delays h (Bool.not_eq_true' _ ▸ hfires)
  case h_4 o =>
    have he : exec (.vgrow o) s = execVgrow o s := rfl
    have hends := ends_of_word (he.trans (execVgrow_eq o s)) h
    rw [← issues_cur h] at hends
    exact hends
  case h_5 o =>
    have he : exec (.vshrink o) s = execVshrink o s := rfl
    exact ends_of_word (he.trans (execVshrink_eq o s)) h

/-! ## Steps that grant, spill and restore rows (04 R87, R89, R91) -/

theorem forkPlacement_happens {wk fid : Nat} {s : State} {effect : State → Prop}
    (h : Claims.rowSteps (.forkPlacement wk fid) s = some effect) :
    ∃ t, exec (.forkPlacement wk fid) s = .next t ∧ effect t := by
  have he : exec (.forkPlacement wk fid) s = execForkPlacement wk fid s := rfl
  simp only [Claims.rowSteps, Option.bind_eq_bind, Option.bind_eq_some_iff, Option.guard_eq_some', Prod.exists,
    Option.pure_def, Bool.not_eq_true'] at h
  obtain ⟨w, f, hf, -, hspilled, h⟩ := h
  rcases hreq : f.rowsReq with _ | _ | ⟨pc, v⟩ | _ <;> rw [hreq] at h
  case some.fork =>
    simp only [Option.bind_eq_some_iff, Prod.exists, Option.some.injEq] at h
    obtain ⟨k, t, htry, rfl⟩ := h
    refine ⟨_, he, ?_⟩
    simp only [hf, hspilled, State.placeFork, hreq, htry, Bool.false_eq_true, if_false]
    rfl
  all_goals cases h

theorem vgrowGrant_happens {wk fid : Nat} {s : State} {effect : State → Prop}
    (h : Claims.rowSteps (.vgrowGrant wk fid) s = some effect) :
    ∃ t, exec (.vgrowGrant wk fid) s = .next t ∧ effect t := by
  have he : exec (.vgrowGrant wk fid) s = execVgrowGrant wk fid s := rfl
  simp only [Claims.rowSteps, Option.bind_eq_bind, Option.bind_eq_some_iff, Option.guard_eq_some', Prod.exists,
    Option.pure_def, Bool.not_eq_true'] at h
  obtain ⟨w, f, hf, -, hspilled, h⟩ := h
  rcases hreq : f.rowsReq with _ | n | _ | _ <;> rw [hreq] at h
  case some.grow =>
    cases hquiet : f.noneInFlight <;>
      simp only [hquiet, Bool.false_eq_true, if_true, if_false, Option.bind_none, Option.bind_eq_some_iff,
        Option.some.injEq, reduceCtorEq] at h
    obtain ⟨lo, hgrant, rfl⟩ := h
    refine ⟨_, he, ?_⟩
    simp only [hf, hspilled, State.grantWindow, hreq, State.tryGrow, hquiet, hgrant, Option.map_some,
      Bool.false_eq_true, if_true, if_false]
    rfl
  all_goals cases h

theorem coreSpill_happens {core : Nat} {s : State} {effect : State → Prop}
    (h : Claims.rowSteps (.coreSpill core) s = some effect) : ∃ t, exec (.coreSpill core) s = .next t ∧ effect t := by
  have he : exec (.coreSpill core) s = execCoreSpill core s := rfl
  simp only [Claims.rowSteps, Option.bind_eq_bind, Option.bind_eq_some_iff, Option.guard_eq_some', Option.pure_def,
    Option.some.injEq, List.head?_eq_some_iff] at h
  obtain ⟨-, hblocked, o, ⟨os, holdest⟩, t, hspill, rfl⟩ := h
  refine ⟨_, he, ?_⟩
  simp only [hblocked, holdest, hspill, if_true, Option.getD_some]
  rfl

theorem spillRestore_happens {wk fid : Nat} {s : State} {effect : State → Prop}
    (h : Claims.rowSteps (.spillRestore wk fid) s = some effect) :
    ∃ t, exec (.spillRestore wk fid) s = .next t ∧ effect t := by
  have he : exec (.spillRestore wk fid) s = execSpillRestore wk fid s := rfl
  simp only [Claims.rowSteps, Option.bind_eq_bind, Option.bind_eq_some_iff, Option.guard_eq_some', Prod.exists,
    Option.pure_def] at h
  obtain ⟨w, f, hf, -, hback, h⟩ := h
  refine ⟨_, he, ?_⟩
  rcases hreq : f.rowsReq with _ | n | ⟨pc, v⟩ | k <;> rw [hreq] at h <;>
    simp only [Option.bind_eq_some_iff, Option.guard_eq_some', Option.some.injEq] at h
  case some.fork =>
    obtain ⟨lo, hfit, -, hroom, rfl⟩ := h
    simp only [State.unspill, hf, hback, Fibre.request, hreq, hfit, hroom, if_true]
    rfl
  all_goals
    obtain ⟨lo, hfit, rfl⟩ := h
    simp only [State.unspill, hf, hback, Fibre.request, hreq, hfit, if_true]
    rfl

theorem rowStepsHappen : Claims.StepsHappen Claims.rowSteps := by
  intro i s effect h
  have hrow := h
  unfold Claims.rowSteps at h
  split at h
  · exact forkPlacement_happens hrow
  · exact vgrowGrant_happens hrow
  · exact coreSpill_happens hrow
  · exact spillRestore_happens hrow
  · cases h

/-- Settles O14: the words' checks and sizes are those of the table, a word has its effect for the workgroup that issued it,
and the steps that grant rows do what the table says where their conditions hold. -/
theorem fibresAndRows : Obligations.FibresAndRows := ⟨fibreControlWords, rowStepsHappen⟩

end Sys2Proof.Machine
end

section
/-! # The arbiter's grant (07 R140, R141) -/

namespace Sys2Proof.Machine

/-! ## The bid that a rule prefers -/

theorem bestBid_eq_none {before : Bid → Bid → Bool} {bs : List Bid} (h : bestBid before bs = none) : bs = [] := by
  cases bs with
  | nil => rfl
  | cons b bs =>
    rw [bestBid] at h
    split at h
    · cases h
    · split at h <;> cases h

theorem bestBid_mem {before : Bid → Bid → Bool} {bs : List Bid} {b : Bid} (h : bestBid before bs = some b) : b ∈ bs := by
  induction bs generalizing b with
  | nil => cases h
  | cons c cs ih =>
    rw [bestBid] at h
    split at h
    · cases h
      exact List.mem_cons_self
    · rename_i d hd
      split at h
      · cases h
        exact List.mem_cons_of_mem c (ih hd)
      · cases h
        exact List.mem_cons_self

/-- The bid that is preferred stands, by a total preorder, before every other: `before` is its strict part. -/
theorem bestBid_least {before : Bid → Bid → Bool} {le : Bid → Bid → Prop} (hrefl : ∀ a, le a a)
    (htrans : ∀ a b c, le a b → le b c → le a c) (hyes : ∀ a b, before a b = true → le a b)
    (hno : ∀ a b, before a b = false → le b a) {bs : List Bid} {b : Bid} (h : bestBid before bs = some b) :
    ∀ c ∈ bs, le b c := by
  induction bs generalizing b with
  | nil => cases h
  | cons a as ih =>
    rw [bestBid] at h
    split at h
    · rename_i hnone
      cases h
      rw [bestBid_eq_none hnone, List.forall_mem_singleton]
      exact hrefl a
    · rename_i d hd
      rw [List.forall_mem_cons]
      split at h
      · rename_i hbefore
        cases h
        exact ⟨hyes _ a hbefore, ih hd⟩
      · rename_i hafter
        cases h
        have hle : le a d := hno d a (Bool.eq_false_iff.mpr hafter)
        exact ⟨hrefl a, fun c hc => htrans a d c hle (ih hd c hc)⟩

theorem oldestBid_least {bs : List Bid} {b : Bid} (h : oldestBid bs = some b) : ∀ c ∈ bs, b.entered ≤ c.entered :=
  bestBid_least (le := fun a c => a.entered ≤ c.entered) (fun _ => le_rfl) (fun _ _ _ => le_trans)
    (fun _ _ hlt => Nat.le_of_lt (of_decide_eq_true hlt)) (fun _ _ hge => Nat.le_of_not_lt (of_decide_eq_false hge)) h

/-- Of the bids that satisfy p the oldest is preferred, if there are any. -/
theorem oldestBid_filter_cases (p : Bid → Bool) (bs : List Bid) :
    (∃ b, oldestBid (bs.filter p) = some b ∧ bs.any p = true ∧ b ∈ bs ∧ p b = true ∧
        ∀ c ∈ bs, p c = true → b.entered ≤ c.entered) ∨
      (oldestBid (bs.filter p) = none ∧ bs.any p = false) := by
  cases h : oldestBid (bs.filter p) with
  | none =>
    have hnone := bestBid_eq_none h
    rw [List.filter_eq_nil_iff] at hnone
    exact .inr ⟨rfl, by simpa using hnone⟩
  | some b =>
    obtain ⟨hb, hp⟩ := List.mem_filter.mp (bestBid_mem h)
    exact .inl ⟨b, rfl, List.any_eq_true.mpr ⟨b, hb, hp⟩, hb, hp,
      fun c hc hpc => oldestBid_least h c (List.mem_filter.mpr ⟨hc, hpc⟩)⟩

/-- The background quota as a condition on each bid. -/
theorem quota_filter (nonbg : Nat) (bs : List Bid) :
    (if 63 ≤ nonbg then oldestBid (bs.filter fun b => b.slack == 0xFFF) else none) =
      oldestBid (bs.filter fun b => decide (63 ≤ nonbg) && b.slack == 0xFFF) := by
  by_cases hn : 63 ≤ nonbg
  · simp only [hn, if_true, decide_true, Bool.true_and]
  · simp only [hn, if_false, decide_false, Bool.false_and, List.filter_false]
    rfl

theorem quota_any (nonbg : Nat) (bs : List Bid) :
    (decide (63 ≤ nonbg) && bs.any fun c => c.slack == 0xFFF) =
      bs.any fun c => decide (63 ≤ nonbg) && c.slack == 0xFFF := by
  cases decide (63 ≤ nonbg) <;> simp

/-- The bid with the least slack is the oldest of those that have it. -/
theorem leastBid_least {bs : List Bid} {b : Bid} (h : leastBid bs = some b) :
    ∀ c ∈ bs, b.slack ≤ c.slack ∧ (c.slack = b.slack → b.entered ≤ c.entered) := by
  refine bestBid_least (le := fun a c => a.slack ≤ c.slack ∧ (c.slack = a.slack → a.entered ≤ c.entered)) ?_ ?_ ?_ ?_ h
  · intro a
    exact ⟨le_rfl, fun _ => le_rfl⟩
  · intro a b c hab hbc
    exact ⟨hab.1.trans hbc.1, fun he => by omega⟩
  all_goals
    intro a b
    simp only [Bool.or_eq_true, Bool.or_eq_false_iff, Bool.and_eq_true, Bool.and_eq_false_iff, beq_iff_eq, beq_eq_false_iff_ne,
      decide_eq_true_eq, decide_eq_false_iff_not]
    omega

/-! ## The grant -/

theorem grantsByRule : Claims.GrantsByRule := by
  intro nonbg bs b h
  rw [grantOf, quota_filter] at h
  rw [quota_any]
  rcases oldestBid_filter_cases (fun c => decide (256 ≤ c.lost)) bs with ⟨c, hc, hany, hmem, hlost, hold⟩ | ⟨hc, hany⟩
  · rw [hc] at h
    cases h
    rw [hany]
    simp only [decide_eq_true_eq] at hlost hold
    exact ⟨hmem, hlost, hold⟩
  simp only [hc] at h
  rcases oldestBid_filter_cases (fun c => decide (63 ≤ nonbg) && c.slack == 0xFFF) bs with
    ⟨c, hquota, hanyq, hmem, hbg, hold⟩ | ⟨hquota, hanyq⟩
  · rw [hquota] at h
    cases h
    rw [hany, hanyq]
    simp only [Bool.and_eq_true, decide_eq_true_eq, beq_iff_eq, and_imp] at hbg hold
    exact ⟨hmem, hbg.2, fun c hc => hold c hc hbg.1⟩
  simp only [hquota] at h
  rcases oldestBid_filter_cases (fun c => c.late && c.slack != 0xFFF) bs with
    ⟨c, hlate, hanyl, hmem, hp, hold⟩ | ⟨hlate, hanyl⟩
  · rw [hlate] at h
    cases h
    rw [hany, hanyq, hanyl]
    simp only [Bool.and_eq_true, bne_iff_ne, and_imp] at hp hold
    exact ⟨hmem, hp.1, hp.2, hold⟩
  simp only [hlate] at h
  rw [hany, hanyq, hanyl]
  exact ⟨bestBid_mem h, leastBid_least h⟩

/-- Settles O55: each stage of the grant picks the best bid of a filtered list, and is passed over only where that list is
empty; the grants of Table 7-7 are evaluated. -/
theorem arbiterGrants : Obligations.ArbiterGrants := ⟨grantsByRule, by decide, by decide, by decide, by decide⟩

end Sys2Proof.Machine
end

section
/-! # Reads and writes at the point of coherence (07 R134; 08 R145) -/

namespace Sys2Proof.Machine

/-! ## Reads -/

/-- A read by any agent answers what a read at a slice answers: the copies of its core follow memory. -/
theorem physRead_bytes (s : State) (c : Option Nat) (pa n : Nat) (hm : s.memCanonical) :
    (s.physRead c pa n).1 = Claims.bytesAt s pa n := by
  have hmem : (s.physRead c pa n).1 = cellRead (s.recall true pa n).mem pa n :=
    congrArg (cellRead · pa n) (physRead_mem s c pa n).1
  have hslice : (s.sliceRead c pa n).1 = cellRead (s.recall true pa n).mem pa n :=
    congrArg (cellRead · pa n) (sliceRead_mem s c pa n).1
  rw [hmem, ← hslice, sliceRead_bytes s c pa n hm]

theorem sameBytes_physRead (s : State) (c : Option Nat) (pa n : Nat) (hm : s.memCanonical) :
    Claims.sameBytes s (s.physRead c pa n).2 := fun x => by
  have h := physRead_mem s c pa n
  rw [byteAt_congr h.1 h.2, byteAt_recall s true pa n x hm]

/-! ## Writes -/

/-- Memories that agree on a byte show it alike, whatever lines are dirty. -/
theorem cohByte_congr_mem {m1 m2 : List Host.Cell} {pa : Nat} (hm : cellGet m1 pa = cellGet m2 pa) (wgs : Tbl Workgroup) :
    cohByte wgs m1 pa = cohByte wgs m2 pa := by
  have h := cohByte_map id m1 m2 pa (fun _ => rfl) (fun _ => rfl) hm wgs
  simpa using h

/-- A write leaves its bytes, which no dirty line hides after its recall, and every other byte as it was. -/
theorem byteAt_physWrite (s : State) (c : Option Nat) (pa : Nat) (bs : List Byte) (x : Nat) (hm : s.memCanonical) :
    (s.physWrite c pa bs).byteAt x = Claims.storedByte bs pa x (s.byteAt x) := by
  obtain ⟨hmem, hwgs⟩ := physWrite_mem s c pa bs
  have hget := cellGet_cellWrite bs (s.recall false pa bs.length).mem pa x (canonical_recall s false pa bs.length hm)
  rw [State.byteAt, hmem, hwgs, Claims.storedByte]
  by_cases hx : pa ≤ x ∧ x < pa + bs.length
  · rw [cohByte_clean _ _ _ (clean_recall s false pa bs.length x hm hx.1 hx.2), hget, if_pos hx, if_pos hx]
  · rw [if_neg hx] at hget
    rw [if_neg hx, cohByte_congr_mem hget, ← byteAt_recall s false pa bs.length x hm, State.byteAt]

/-- Settles O22: a recall moves dirty bytes to memory first, so memory itself answers a read and takes a write. -/
theorem coherentMemory : Obligations.CoherentMemory :=
  ⟨fun s c pa n hm => ⟨physRead_bytes s c pa n hm, sameBytes_physRead s c pa n hm, canonical_physRead s c pa n hm⟩,
    fun s c pa bs hm => ⟨canonical_physWrite s c pa bs hm, fun x => byteAt_physWrite s c pa bs x hm⟩⟩

end Sys2Proof.Machine
end

section
/-! # Stores to scratchpad (07 R127, R132; 09 R166; 08 R145, R152) -/

namespace Sys2Proof.Machine

/-! ## What follows a store touches workgroups in their tiles alone -/

section
variable {s t old : State}

/-- Memory is the same, and so are the workgroups but for what is known of their tiles. -/
def TilesAlone (s t : State) : Prop := t.mem = s.mem ∧ ∀ j, Claims.likeWg (t.wg j) (s.wg j)

theorem TilesAlone.refl (s : State) : TilesAlone s s := ⟨rfl, fun _ => rfl⟩

theorem TilesAlone.trans {u : State} (a : TilesAlone s t) (b : TilesAlone t u) : TilesAlone s u :=
  ⟨b.1.trans a.1, fun j => (b.2 j).trans (a.2 j)⟩

theorem tilesAlone_of_eq (h : t.mem = s.mem ∧ t.wgs = s.wgs) : TilesAlone s t :=
  ⟨h.1, fun j => by rw [State.wg, h.2]; rfl⟩

theorem likeWg_map_tiles (g : Workgroup → List Tile) (y : Option Workgroup) :
    Claims.likeWg (y.map fun w => { w with tiles := g w }) y := by
  cases y <;> rfl

/-- A workgroup that is like a given one is that one with other tiles. -/
theorem exists_of_likeWg_some {y : Option Workgroup} {m : Workgroup} (h : Claims.likeWg y (some m)) :
    ∃ ts, y = some { m with tiles := ts } := by
  obtain ⟨v, rfl, hv⟩ := Option.map_eq_some_iff.mp (Eq.trans h rfl)
  have hback := congrArg (fun w : Workgroup => { w with tiles := v.tiles }) hv
  exact ⟨v.tiles, congrArg some hback⟩

theorem wg_updWg_map (s : State) (k : Nat) (g : Workgroup → Workgroup) : (s.updWg k g).wg k = (s.wg k).map g := by
  cases h : s.wg k with
  | none => rw [State.updWg_eq, State.wg_setWgs, Tbl.upd_of_none h]; exact h
  | some w => rw [State.wg_updWg_self g h, Option.map_some]

theorem tilesAlone_updWg (s : State) (k : Nat) (g : Workgroup → List Tile) :
    TilesAlone s (s.updWg k fun w => { w with tiles := g w }) := by
  refine ⟨rfl, fun j => ?_⟩
  by_cases hj : j = k
  · rw [hj, wg_updWg_map]
    exact likeWg_map_tiles g _
  · rw [State.wg_updWg_ne s _ hj]
    rfl

theorem tilesAlone_syncAt (s : State) (w : Workgroup) (uid : Nat) (acq rel : Bool) (p : SyncPoint) :
    TilesAlone s (s.syncAt w uid acq rel p) := by
  unfold State.syncAt
  split
  · cases acq <;> cases rel
    · exact tilesAlone_updWg s w.key fun w => w.tiles
    · exact tilesAlone_updWg s w.key fun w => (w.handOn uid p).tiles
    · exact tilesAlone_updWg s w.key fun w => (w.takeUp uid p).tiles
    · exact tilesAlone_updWg s w.key fun w => ((w.takeUp uid p).handOn uid p).tiles
  · exact TilesAlone.refl s

theorem tilesAlone_endHanded (s : State) (x : Option Nat × Nat) (n : Nat) : TilesAlone s (s.endHanded x n) := by
  unfold State.endHanded
  split
  · refine ⟨rfl, fun j => ?_⟩
    rw [State.wg_setWgs, Tbl.find_each]
    exact likeWg_map_tiles _ _
  · exact TilesAlone.refl s

/-- A store that disturbs no object leaves its further trace on tiles alone (09 R197; 08 R152). -/
theorem tilesAlone_afterStore {x : Option Nat × Nat} {n : Nat} {kind : StoreKind} (h : old.disturbs x n kind = [])
    (s : State) (c : Option Nat) : TilesAlone s (s.afterStore old c x n kind) := by
  have hflips : TilesAlone s ((s.stirObjs c x.1 (old.disturbs x n kind)).forgetFlips x n) := by
    rw [h]
    exact tilesAlone_of_eq ⟨rfl, rfl⟩
  unfold State.afterStore
  dsimp only
  split
  · exact hflips
  · exact hflips.trans (tilesAlone_endHanded _ x n)

theorem tilesAlone_refreshStash (s : State) (core k o n : Nat) : TilesAlone s (s.refreshStash core k o n) := by
  unfold State.refreshStash
  split
  · exact tilesAlone_of_eq (refresh_mem s core _ n)
  · exact TilesAlone.refl s

end

/-! ## Bytes of scratchpad that no mapping covers -/

/-- A workgroup once bytes have been stored in its scratchpad: sectors written whole lose their marks (21 R373). -/
def Workgroup.withBytes (w : Workgroup) (o : Nat) (bs : List Byte) : Workgroup :=
  { w with mem := cellWrite w.mem o bs, poison := w.poison.filter fun k => !(wholeSectors o bs.length).contains k }

section
variable {s : State} {k o : Nat} {m : Workgroup}

theorem stashLine_unmapped (hm : s.wg k = some m) (hmap : m.mapAt o = none) (a : DWord) :
    s.stashLine k o a = .ok (none, s) := by
  simp only [State.stashLine, hm, hmap]

theorem scratchStorage_unmapped (hm : s.wg k = some m) (hmap : m.mapAt o = none) : s.scratchStorage k o = (some k, o) := by
  simp only [State.scratchStorage, hm, hmap]

theorem scratchWrite_unmapped (hm : s.wg k = some m) (hmap : m.mapAt o = none) (bs : List Byte) (a : DWord) :
    s.scratchWrite k o bs a = .ok (s.putWg k (m.withBytes o bs)) := by
  simp only [State.scratchWrite, stashLine_unmapped hm hmap, State.updWg_eq, Tbl.upd_of_find hm]
  rfl

/-- After such a store and what follows it, exactly its bytes of the target's scratchpad have changed. -/
theorem withBytes_then {t : State} {bs : List Byte} (hwf : Memory.wf m.mem = true)
    (h : TilesAlone (s.putWg k (m.withBytes o bs)) t) :
    ∃ m1, t.wg k = some m1 ∧ t.mem = s.mem ∧ (∀ x, cellGet m1.mem x = Claims.storedByte bs o x (cellGet m.mem x)) ∧
      { m1 with mem := m.mem, poison := m.poison, tiles := m.tiles } = m ∧ ∀ j, j ≠ k → Claims.likeWg (t.wg j) (s.wg j) := by
  obtain ⟨hmem, hlike⟩ := h
  have hk := hlike k
  rw [State.wg_putWg_self] at hk
  obtain ⟨ts, hts⟩ := exists_of_likeWg_some hk
  refine ⟨_, hts, hmem, fun x => cellGet_cellWrite bs m.mem o x hwf, rfl, fun j hj => ?_⟩
  rw [← State.wg_putWg_ne s (m.withBytes o bs) hj]
  exact hlike j

end

/-! ## An access that passes its checks -/

section
variable {wk : Nat} {w : Workgroup} {strand : Nat} {f : Fibre} {s : State} {a : DWord} {q : Acc} {k o : Nat}

/-- A fibre without unperformed stores performs none: only its loads are fixed. -/
theorem flush_of_no_stores (h : f.stq = []) (strand core : Nat) (q : Acc) (s : State) :
    f.flush (q.agent strand) core s = (Claims.fixedFor q strand f, s) := by
  have hkeep : f.without [] = f := by
    simp only [Fibre.without, List.any_nil, Bool.not_false, List.filter_true, List.all_nil]
  unfold Fibre.flush Fibre.perform
  dsimp only
  rw [h, State.dueStores, hkeep]
  rfl

/-- A store to scratchpad that passes its checks: performed with its access after the fibre's own stores, or later. -/
theorem access_scratchStore (haddr : addrFault false q.spaces q.n a = none)
    (hplace : placeOf s wk w f.win a q.n = .ok (.scratch k o)) (hkind : q.kind = .store)
    (hfab : q.sysRelease a = true → f.fabErr = false)
    (hwaits : s.accessWaits wk f w.tenant (.scratch k o) a q (q.agent strand) = false) :
    access wk w strand f s a q =
      (if q.flushes s w (.scratch k o) then
          scratchAccess w (f.flush (q.agent strand) w.core s).1 (f.flush (q.agent strand) w.core s).2 (q.agent strand) k o a q false
        else scratchAccess w f s (q.agent strand) k o a q true).synced w (.scratch k o) q := by
  have haddr' : addrFault (q.kind = .rmw) q.spaces q.n a = none := by rw [hkind]; exact haddr
  have hmark : (q.sysRelease a && f.fabErr) = false := by
    cases hs : q.sysRelease a
    · rfl
    · rw [hfab hs]
      rfl
  unfold access
  simp only [haddr', hplace, hmark, hwaits, Bool.false_eq_true, if_false]
  cases q.flushes s w (.scratch k o) <;> rfl

theorem synced_ok (w : Workgroup) (p : Place) (q : Acc) (f : Fibre) (s : State) (bs : List Byte) (flags : Word) (tags : List Nat)
    (late : Bool) :
    ∃ t, (AccRes.ok f s bs flags tags late).synced w p q = .ok f t bs flags tags late ∧ TilesAlone s t := by
  refine ⟨_, rfl, ?_⟩
  split
  · exact tilesAlone_syncAt ..
  · exact TilesAlone.refl s

theorem synced_unordered (h : q.ordered = false) (r : AccRes) (w : Workgroup) (p : Place) : r.synced w p q = r := by
  cases r with
  | ok => simp only [AccRes.synced, h, Bool.false_eq_true, if_false]
  | trap => rfl
  | wait => rfl

/-- A store that leaves earlier ones behind is not ordered. -/
theorem unordered_of_not_flushes {p : Place} (hkind : q.kind = .store) (h : q.flushes s w p = false) : q.ordered = false := by
  cases hord : q.ordered
  · rfl
  · simp [Acc.flushes, hkind, hord] at h

/-! ## The store, performed at once or later -/

section
variable (haddr : addrFault false q.spaces q.n a = none) (hplace : placeOf s wk w f.win a q.n = .ok (.scratch k o))
  (hkind : q.kind = .store) (hfab : q.sysRelease a = true → f.fabErr = false)
  (hwaits : s.accessWaits wk f w.tenant (.scratch k o) a q (q.agent strand) = false)
include haddr hplace hkind hfab hwaits

theorem scratchStore_now {m : Workgroup} (hnow : q.flushes s w (.scratch k o) = true) (hstq : f.stq = [])
    (hm : s.wg k = some m) (hmap : m.mapAt o = none)
    (hdist : s.disturbs (some k, o) q.data.length (if q.ordered then .release else .plain) = []) :
    ∃ t, access wk w strand f s a q = .ok (Claims.fixedFor q strand f) t [] 0 [] false ∧
      TilesAlone (s.putWg k (m.withBytes o q.data)) t := by
  rw [access_scratchStore haddr hplace hkind hfab hwaits, if_pos hnow, flush_of_no_stores hstq]
  simp only [scratchAccess, hkind, scratchWrite_unmapped hm hmap, scratchStorage_unmapped hm hmap, Bool.false_eq_true, if_false]
  obtain ⟨t, ht, htiles⟩ := synced_ok w (.scratch k o) q (Claims.fixedFor q strand f) _ [] 0 [] false
  exact ⟨t, ht, ((tilesAlone_refreshStash _ w.core k o q.n).trans (tilesAlone_afterStore hdist _ _)).trans htiles⟩

theorem scratchStore_later (hlater : q.flushes s w (.scratch k o) = false) :
    access wk w strand f s a q = s.bufferScratch f (q.agent strand) k o a q := by
  rw [access_scratchStore haddr hplace hkind hfab hwaits, hlater,
    synced_unordered (unordered_of_not_flushes hkind hlater)]
  simp only [scratchAccess, hkind, Bool.false_eq_true, if_false, if_true]

end

end

theorem bufferScratch_unmapped {s : State} {k o : Nat} {m : Workgroup} (hm : s.wg k = some m) (hmap : m.mapAt o = none)
    (f : Fibre) (who : Option Nat) (a : DWord) (q : Acc) :
    s.bufferScratch f who k o a q = .ok (f.buffer who (some k, o) (some k, o) q.data q.nc) s [] 0 [] false := by
  simp only [State.bufferScratch, stashLine_unmapped hm hmap]

/-- A store to a line that the stash holds joins the unperformed ones for the global location (07 R132). -/
theorem bufferScratch_mapped {s : State} {k o : Nat} {m : Workgroup} {l : StashLine} (hm : s.wg k = some m)
    (hmap : m.mapAt o ≠ none) (hl : (m.lines.find? fun l => l.off == o / 128 * 128) = some l)
    (f : Fibre) (who : Option Nat) (a : DWord) (q : Acc) :
    s.bufferScratch f who k o a q =
      if l.w then .ok (f.buffer who (some k, o) (none, l.pa + o % 128) q.data q.nc) s [] 0 [] false
      else .trap f s { code := .protection, sub := 2, addr := a, replay := false } := by
  obtain ⟨x, hx⟩ := Option.ne_none_iff_exists'.mp hmap
  have hline : s.stashLine k o a = .ok (some l, s) := by simp only [State.stashLine, hm, hx, lineOf, hl]
  simp only [State.bufferScratch, hline]
  cases l.w <;> rfl

/-- When a store to scratchpad is performed later, it leaves its bytes there, and tiles apart nothing else. -/
theorem performSt_scratch {s : State} {k : Nat} {p : PendStore} {m : Workgroup} (hkey : p.key = some k) (hm : s.wg k = some m)
    (hmap : m.mapAt p.addr = none) (hdist : s.disturbs (some k, p.addr) p.bytes.length .plain = []) (core : Nat) :
    TilesAlone (s.putWg k (m.withBytes p.addr p.bytes)) (s.performSt core p) := by
  simp only [State.performSt, hkey, scratchWrite_unmapped hm hmap, scratchStorage_unmapped hm hmap]
  exact tilesAlone_afterStore hdist _ _

/-- Settles O26: a store to a place without a mapping writes the target's bytes, and what follows it touches tiles alone. -/
theorem scratchStoresWrite : Obligations.ScratchStoresWrite := by
  refine ⟨fun wk w strand f s a q k o haddr hplace hkind hfab hwaits => ⟨?_, fun hlater => ⟨?_, ?_⟩⟩, ?_⟩
  · intro m hnow hstq hm hmap hwf hdist
    obtain ⟨t, ht, htiles⟩ := scratchStore_now haddr hplace hkind hfab hwaits hnow hstq hm hmap hdist
    obtain ⟨m1, hm1, hmem, hbytes, hrest, hothers⟩ := withBytes_then hwf htiles
    exact ⟨t, m1, ht, hm1, hmem, hbytes, hrest, hothers⟩
  · intro m hm hmap
    rw [scratchStore_later haddr hplace hkind hfab hwaits hlater, bufferScratch_unmapped hm hmap]
  · intro m l hm hmap hl
    rw [scratchStore_later haddr hplace hkind hfab hwaits hlater, bufferScratch_mapped hm hmap hl]
  · intro s core k p m hkey hm hmap hwf hdist
    obtain ⟨m1, hm1, hmem, hbytes, -⟩ := withBytes_then hwf (performSt_scratch hkey hm hmap hdist core)
    exact ⟨m1, hm1, hmem, hbytes⟩

end Sys2Proof.Machine
end

section
/-! # Completions, write-backs and imprecise faults (07 R132, R138, R139, R143; 08 R151; 18 R320) -/

namespace Sys2Proof.Machine

/-! ## Which accesses are late (07 R138, R139, R142) -/

theorem dropOne_eq_erase {α : Type} [DecidableEq α] (x : α) (l : List α) : dropOne x l = l.erase x := by
  induction l with
  | nil => rfl
  | cons y ys ih =>
    rw [dropOne, List.erase_cons, ih]
    simp only [beq_iff_eq]

theorem lateAfter_eq_isLate (slack : BitVec 12) (late : Bool) (ticks : Nat) :
    lateAfter slack late ticks = Claims.isLate slack late ticks := by
  have hslack : (slack != 0xFFF) = decide (slack ≠ 0xFFF) := by
    rw [Bool.eq_iff_iff, bne_iff_ne, decide_eq_true_eq]
  rw [lateAfter, Claims.isLate, hslack]
  rfl

/-- The late ones of a list of accesses, of which the n-th has waited the n-th value drawn from b on. -/
theorem lateAccs_fst (slack : BitVec 12) (all : Bool) (b : Nat) (accs : List (DWord × Bool)) : ∀ (n : Nat) (s : State),
    s.free = b + n →
      (lateAccs slack (accs.map fun e => (e.1, e.2 || all)) s).1 =
        ((accs.zipIdx n).filter fun e => Claims.isLate slack (e.1.2 || all) (Config.queueTicks (b + e.2))).map (·.1.1) := by
  induction accs with
  | nil => intro _ _ _; rfl
  | cons x xs ih =>
    intro n s hs
    have hrest := ih (n + 1) (s.draw Config.queueTicks).2 (by rw [State.draw_snd_free, hs, Nat.add_assoc])
    have hticks : (s.draw Config.queueTicks).1 = Config.queueTicks (b + n) := congrArg Config.queueTicks hs
    simp only [List.map_cons, lateAccs, hrest, hticks, lateAfter_eq_isLate, List.zipIdx_cons, List.filter_cons]
    split <;> rfl

theorem lateAccs_snd (slack : BitVec 12) (accs : List (DWord × Bool)) (s : State) :
    ∃ n, (lateAccs slack accs s).2 = { s with free := n } := by
  induction accs generalizing s with
  | nil => exact ⟨s.free, rfl⟩
  | cons x xs ih =>
    obtain ⟨n, hn⟩ := ih (s.draw Config.queueTicks).2
    exact ⟨n, hn⟩

theorem lateAccs_eq_lateOf (x : Outstanding) (slack : BitVec 12) (all : Bool) (s : State) :
    (lateAccs slack (x.accs.map fun e => (e.1, e.2 || all)) s).1 =
      Claims.lateOf x slack all fun n => Config.queueTicks (s.free + n) :=
  lateAccs_fst slack all s.free x.accs 0 s rfl

/-- A request keeps its slack, or it takes that of the instruction of its core that it was merged with. -/
theorem mergedWith_merges (s : State) (core ten : Nat) (x : Outstanding) :
    Claims.Merges s core x (s.mergedWith core ten x).1.1 (s.mergedWith core ten x).1.2 := by
  unfold State.mergedWith
  dsimp only
  split
  · exact .inl ⟨rfl, rfl⟩
  split
  · exact .inl ⟨rfl, rfl⟩
  rename_i y hy
  obtain ⟨w, hw, hin⟩ := List.mem_flatMap.mp (List.mem_of_getElem? hy)
  split at hin
  · rename_i hcore
    obtain ⟨f, hf, hfilter⟩ := List.mem_flatMap.mp hin
    exact .inr ⟨w, hw, hcore.1, f, hf, y, (List.mem_filter.mp hfilter).1, rfl, rfl⟩
  · cases hin

theorem mergedWith_snd (s : State) (core ten : Nat) (x : Outstanding) :
    ∃ n, (s.mergedWith core ten x).2 = { s with free := n } := by
  unfold State.mergedWith
  dsimp only
  split
  · exact ⟨s.free, rfl⟩
  · split <;> exact ⟨s.free + 1, rfl⟩

/-! ## What a completion leaves of the fibre (07 R143; 18 R320) -/

/-- Counting a late completion changes LATEC, FSTAT and what is reported of it, nothing else. -/
theorem countLate_eq (f : Fibre) (det : Bool) (pc a : DWord) :
    f.countLate det pc a =
      { f with
        latec := if f.latec = 0xFFFFFFFF then f.latec else f.latec + 1
        fstat := f.fstat ||| 0x8000
        imprecise := (Claims.lateReport f det pc a).1
        lateInTrap := (Claims.lateReport f det pc a).2 } := by
  have htm : bit (f.fstat ||| 0x8000) 5 = f.fstat.getLsbD 5 := by simp [bit]
  have htrap : bit f.fctl 1 = f.fctl.getLsbD 1 := rfl
  unfold Fibre.countLate Claims.lateReport
  simp only [Fibre.tm, Fibre.latetrap, htm, htrap]
  cases det
  case true => rfl
  cases f.fstat.getLsbD 5
  case true => cases f.lateInTrap <;> rfl
  cases f.fctl.getLsbD 1
  case false => rfl
  cases f.imprecise.any fun x => x.code == .late <;> rfl

/-- The fibre without an instruction that is performed: its loads are fixed, and rows discarded by `vshrink` go once no
result is in flight (04 R90). -/
def Fibre.released (f : Fibre) (x : Outstanding) : Fibre :=
  { f with
    outs := f.outs.erase x
    lq := f.lq.filter fun y => !x.loads.contains y.serial
    shed := if Fibre.noneInFlight { f with outs := f.outs.erase x } then 0 else f.shed }

/-- The fibre once an instruction of it is performed, its late accesses given. -/
def Fibre.finished (f : Fibre) (det : Bool) (x : Outstanding) (late : List DWord) : Fibre :=
  (({ f with outs := dropOne x f.outs }.fixOf x).performed det x late).drainShed

theorem drainShed_eq (f : Fibre) : f.drainShed = { f with shed := if f.noneInFlight then 0 else f.shed } := by
  unfold Fibre.drainShed
  split <;> rfl

section
variable {f : Fibre} {det : Bool} {x : Outstanding}

theorem finished_of_not_counted {late : List DWord} (h : late = [] ∨ x.again = true) :
    f.finished det x late = f.released x := by
  have hperformed (g : Fibre) : g.performed det x late = g := by
    rcases h with rfl | hagain
    · rfl
    · cases late with
      | nil => rfl
      | cons a as => rw [Fibre.performed, if_pos hagain]
  rw [Fibre.finished, hperformed, drainShed_eq, dropOne_eq_erase]
  rfl

theorem finished_of_late (hagain : x.again = false) (a : DWord) (as : List DWord) :
    f.finished det x (a :: as) =
      { f.released x with
        latec := if f.latec = 0xFFFFFFFF then f.latec else f.latec + 1
        fstat := f.fstat ||| 0x8000
        imprecise := (Claims.lateReport f det x.pc a).1
        lateInTrap := (Claims.lateReport f det x.pc a).2
        lateSeen := if x.whole then f.lateSeen else some x.pc } := by
  rw [Fibre.finished, Fibre.performed, drainShed_eq, dropOne_eq_erase]
  simp only [hagain, Bool.false_eq_true, if_false, countLate_eq]
  cases x.whole <;> rfl

end

/-! ## Completions (08 R151) -/

/-- When an instruction is performed, the ticks that its accesses have waited are drawn one after another. -/
theorem complete_eq (s : State) (wk : Nat) (w : Workgroup) (f : Fibre) (x : Outstanding) :
    ∃ slack all ticks n, Claims.Merges s w.core x slack all ∧
      s.complete wk w f x = { s.putFibre wk (f.finished w.hdr.det x (Claims.lateOf x slack all ticks)) with free := n } := by
  have hmerges := mergedWith_merges s w.core w.tenant x
  obtain ⟨_, hfree⟩ := mergedWith_snd s w.core w.tenant x
  rw [State.complete]
  generalize s.mergedWith w.core w.tenant x = m at *
  obtain ⟨n, hdrawn⟩ := lateAccs_snd m.1.1 (x.accs.map fun e => (e.1, e.2 || m.1.2)) m.2
  refine ⟨m.1.1, m.1.2, fun k => Config.queueTicks (m.2.free + k), n, hmerges, ?_⟩
  dsimp only
  rw [hdrawn, lateAccs_eq_lateOf, hfree]
  rfl

theorem exists_getElem?_mod {α : Type} {l : List α} (h : l ≠ []) (n : Nat) : ∃ x ∈ l, l[n % l.length]? = some x := by
  have hlt : n % l.length < l.length := Nat.mod_lt _ (List.length_pos_iff.mpr h)
  exact ⟨_, List.getElem_mem hlt, List.getElem?_eq_getElem hlt⟩

/-- Where some instruction of an ended fibre waits for nothing, one such is picked. -/
theorem pickOut_some {l : List Outstanding} (h : (l.any fun x => x.tags.isEmpty) = true) (n : Nat) :
    ∃ x ∈ l, x.tags = [] ∧ pickOut l [] n = some x := by
  obtain ⟨y, hy, htags⟩ := List.any_eq_true.mp h
  have hat : ∀ x : Outstanding, x.atEnd [] = x.tags.isEmpty := fun x => by simp [Outstanding.atEnd]
  have hne : (l.filter fun x => x.atEnd []) ≠ [] := List.ne_nil_of_mem (List.mem_filter.mpr ⟨hy, (hat y).trans htags⟩)
  obtain ⟨x, hx, hpick⟩ := exists_getElem?_mod hne n
  obtain ⟨hmem, hend⟩ := List.mem_filter.mp hx
  refine ⟨x, hmem, List.isEmpty_iff.mp ((hat x).symm.trans hend), ?_⟩
  rw [pickOut, if_neg (by simpa using hne), hpick]

theorem exec_accessCompletion (wk fid : Nat) (s : State) :
    exec (.accessCompletion wk fid) s = execAccessCompletion wk fid s := rfl

theorem orphanCompletion_happens {wk fid : Nat} {s : State} {w : Workgroup} (hw : s.wg wk = some w) (hfid : 32 ≤ fid)
    (hsome : (w.orphans.any fun x => x.tags.isEmpty) = true) :
    ∃ x ∈ w.orphans, x.tags = [] ∧
      exec (.accessCompletion wk fid) s =
        .next { s.putWg wk { w with orphans := w.orphans.erase x } with free := s.free + 1 } := by
  obtain ⟨x, hx, htags, hpick⟩ := pickOut_some hsome (s.draw Config.choose).1
  refine ⟨x, hx, htags, ?_⟩
  have hw' : (s.draw Config.choose).2.wgs.find wk = some w := hw
  rw [exec_accessCompletion, execAccessCompletion]
  simp only [hw, hfid, if_true, hpick, State.updWg_eq, Tbl.upd_of_find hw', dropOne_eq_erase]
  rfl

/-- What the table says of the fibre h that f becomes when an instruction of it is performed, its late accesses given. -/
theorem finished_says (f : Fibre) (det : Bool) (x : Outstanding) (late : List DWord) :
    let h := f.finished det x late
    h.outs = f.outs.erase x ∧ h.lq = (f.lq.filter fun y => !x.loads.contains y.serial) ∧
      { h with outs := f.outs, lq := f.lq, latec := f.latec, fstat := f.fstat, imprecise := f.imprecise,
               lateInTrap := f.lateInTrap, lateSeen := f.lateSeen, shed := f.shed } = f ∧
      h.shed = (if Fibre.noneInFlight { f with outs := f.outs.erase x } then 0 else f.shed) ∧
      (match late.head?, x.again with
       | some a, false =>
         h.latec = (if f.latec = 0xFFFFFFFF then f.latec else f.latec + 1) ∧ h.fstat = f.fstat ||| 0x8000 ∧
           (h.imprecise, h.lateInTrap) = Claims.lateReport f det x.pc a ∧
           h.lateSeen = (if x.whole then f.lateSeen else some x.pc)
       | _, _ => h = { f with outs := f.outs.erase x, lq := h.lq, shed := h.shed }) := by
  intro h
  rcases late with _ | ⟨a, as⟩
  · have hh : h = f.released x := finished_of_not_counted (.inl rfl)
    rw [hh]
    exact ⟨rfl, rfl, rfl, rfl, rfl⟩
  · cases hagain : x.again
    · have hh : h = _ := finished_of_late hagain a as
      rw [hh]
      exact ⟨rfl, rfl, rfl, rfl, rfl, rfl, rfl, rfl⟩
    · have hh : h = f.released x := finished_of_not_counted (.inr hagain)
      rw [hh]
      exact ⟨rfl, rfl, rfl, rfl, rfl⟩

/-- One of a fibre's possible completions is taken. -/
theorem exists_exec_completion {wk fid : Nat} {s : State} {w : Workgroup} {f : Fibre} (hw : s.wg wk = some w) (hfid : ¬32 ≤ fid)
    (hf : w.fibres.find fid = some f) (hsome : f.completions ≠ []) :
    ∃ c ∈ f.completions, exec (.accessCompletion wk fid) s =
      .next (match c with
        | .store p => (s.draw Config.choose).2.performOne wk w.core f p
        | .again x => (s.draw Config.choose).2.loadAgain wk w.core f x
        | .done x => (s.draw Config.choose).2.complete wk w f x) := by
  obtain ⟨c, hc, hpick⟩ := exists_getElem?_mod hsome (s.draw Config.choose).1
  refine ⟨c, hc, ?_⟩
  rw [exec_accessCompletion, execAccessCompletion]
  simp only [hw, hfid, if_false, hf, hpick]
  cases c <;> rfl

theorem accessCompletion_happens {wk fid : Nat} {s : State} {effect : State → Prop}
    (h : Claims.accessSteps (.accessCompletion wk fid) s = some effect) :
    ∃ t, exec (.accessCompletion wk fid) s = .next t ∧ effect t := by
  simp only [Claims.accessSteps, Option.bind_eq_bind, Option.bind_eq_some_iff] at h
  obtain ⟨w, hw, h⟩ := h
  by_cases hfid : 32 ≤ fid
  · simp only [hfid, if_true, Option.bind_eq_some_iff, Option.guard_eq_some', Option.pure_def, Option.some.injEq] at h
    obtain ⟨-, hsome, rfl⟩ := h
    obtain ⟨x, hx, htags, ht⟩ := orphanCompletion_happens hw hfid hsome
    exact ⟨_, ht, x, hx, htags, s.free + 1, rfl⟩
  · simp only [hfid, if_false, Option.bind_eq_some_iff, Option.guard_eq_some', Option.pure_def, Option.some.injEq] at h
    obtain ⟨f, hf, -, hsome, rfl⟩ := h
    have hne : f.completions ≠ [] := by simpa using hsome
    obtain ⟨c, hc, hexec⟩ := exists_exec_completion hw hfid hf hne
    refine ⟨_, hexec, ?_⟩
    simp only [Fibre.completions, List.mem_append, List.mem_map, List.mem_filter] at hc
    rcases hc with (⟨p, hp, rfl⟩ | ⟨x, hx, rfl⟩) | ⟨x, ⟨hx, hend⟩, rfl⟩
    · exact .inl ⟨p, hp, rfl⟩
    · exact .inr (.inl ⟨x, hx, rfl⟩)
    · obtain ⟨slack, all, ticks, n, hmerges, ht⟩ := complete_eq (s.draw Config.choose).2 wk w f x
      exact .inr (.inr ⟨x, hx, hend, slack, all, ticks, n, _, hmerges, ht,
        finished_says f w.hdr.det x (Claims.lateOf x slack all ticks)⟩)

/-! ## Write-backs -/

theorem Tbl.mem_of_find {α : Type} {t : Tbl α} {k : Nat} {a : α} (h : t.find k = some a) : (k, a) ∈ t := by
  induction t with
  | nil => cases h
  | cons e t ih =>
    obtain ⟨j, b⟩ := e
    rw [Tbl.find] at h
    split at h
    · rename_i hk
      cases h
      rw [hk]
      exact List.mem_cons_self
    · exact List.mem_cons_of_mem _ (ih h)

/-- Bytes that memory takes from the point of coherence show there as before, whatever dirty lines still stand over them. -/
theorem cohByte_of_cellGet_eq {m1 m2 : List Host.Cell} {pa : Nat} : ∀ {wgs : Tbl Workgroup},
    cellGet m1 pa = cohByte wgs m2 pa → cohByte wgs m1 pa = cohByte wgs m2 pa
  | [], h => h
  | (k, w) :: t, h => by
    rw [cohByte] at h ⊢
    rw [cohByte]
    split
    · rfl
    · rename_i hnone
      rw [hnone] at h
      exact cohByte_of_cellGet_eq h

/-- What a recall leaves of a line that some stash holds. -/
theorem recallLine_held {s : State} {keep : Bool} {line : Nat}
    (h : (s.wgs.any fun e => e.2.lines.any fun l => l.pa == line) = true) :
    (s.recallLine keep line).mem = cellWrite s.mem line (s.coh line 128) ∧
      (s.recallLine keep line).wgs = s.wgs.each fun _ w => w.recall keep line := by
  unfold State.recallLine
  rw [if_pos h]
  exact ⟨by simp only [State.setWgs_rest, State.setMem_mem], State.setWgs_wgs ..⟩

theorem recallLine_unheld {s : State} {keep : Bool} {line : Nat}
    (h : ¬(s.wgs.any fun e => e.2.lines.any fun l => l.pa == line) = true) : s.recallLine keep line = s := by
  unfold State.recallLine
  rw [if_neg h]

/-- A recall of what is no line (its address is not aligned) changes no byte either: no address lies in it. -/
theorem byteAt_recallLine_unaligned (s : State) (keep : Bool) {line : Nat} (x : Nat) (hl : line % 128 ≠ 0) (hm : s.memCanonical) :
    (s.recallLine keep line).byteAt x = s.byteAt x := by
  by_cases hheld : (s.wgs.any fun e => e.2.lines.any fun l => l.pa == line) = true
  · obtain ⟨hmem, hwgs⟩ := recallLine_held (keep := keep) hheld
    have hne : lineOf x ≠ line := by
      unfold lineOf
      omega
    have hrecall := cohByte_map (fun w => w.recall keep line) _ _ x (fun w => recall_mem w keep line)
      (fun w => recall_find w keep line x hne) (rfl : cellGet (cellWrite s.mem line (s.coh line 128)) x = _) s.wgs
    have hget := cellGet_cellWrite (s.coh line 128) s.mem line x hm
    have hlen : (s.coh line 128).length = 128 := by simp [State.coh]
    rw [State.byteAt, hmem, hwgs]
    refine hrecall.trans ?_
    by_cases hx : line ≤ x ∧ x < line + 128
    · rw [hlen, if_pos hx] at hget
      have hlt : x - line < 128 := by omega
      refine cohByte_of_cellGet_eq (hget.trans ?_)
      simp [State.coh, hlt, show line + (x - line) = x by omega]
    · rw [hlen, if_neg hx] at hget
      exact cohByte_congr_mem hget s.wgs
  · rw [recallLine_unheld hheld]

theorem sameBytes_writeBack (s : State) (l : StashLine) (hm : s.memCanonical) : Claims.sameBytes s (s.writeBack l) := fun x => by
  by_cases hl : l.pa % 128 = 0
  · exact byteAt_recallLine s true l.pa x hl hm
  · exact byteAt_recallLine_unaligned s true x hl hm

/-! ## What a recall leaves of the rest of the state -/

theorem sameRest_l2Room (s : State) (line : Nat) : Claims.sameRest s (s.l2Room line) := by
  unfold State.l2Room
  dsimp only
  split <;> rfl

theorem sameRest_modifyLine (s : State) (line : Nat) : Claims.sameRest s (s.modifyLine line) := by
  unfold State.modifyLine
  dsimp only
  split
  · rfl
  · rfl
  · split
    · exact sameRest_l2Room s line
    · split <;> rfl

section
variable {s t : State} (h : Claims.sameRest s t)
include h

theorem sameRest_setMem (m : List Host.Cell) : Claims.sameRest s (t.setMem m) := h
theorem sameRest_setWgs (x : Tbl Workgroup) : Claims.sameRest s (t.setWgs x) := h
theorem sameRest_setPoison (p : List Nat) : Claims.sameRest s (t.setPoison p) := h
theorem sameRest_setStale (p : List Nat) : Claims.sameRest s (t.setStale p) := h

end

theorem sameRest_recallLine (s : State) (keep : Bool) (line : Nat) : Claims.sameRest s (s.recallLine keep line) := by
  unfold State.recallLine
  split
  · refine sameRest_setWgs (sameRest_setMem ?_ _) _
    split
    · exact sameRest_setStale (sameRest_setPoison (sameRest_modifyLine s line) _) _
    · rfl
  · rfl

theorem exec_lazyStashWriteBack (wk off : Nat) (s : State) :
    exec (.lazyStashWriteBack wk off) s = execLazyStashWriteBack wk off s := rfl

theorem lazyStashWriteBack_happens {wk off : Nat} {s : State} {effect : State → Prop}
    (h : Claims.accessSteps (.lazyStashWriteBack wk off) s = some effect) :
    ∃ t, exec (.lazyStashWriteBack wk off) s = .next t ∧ effect t := by
  simp only [Claims.accessSteps, Option.bind_eq_bind, Option.bind_eq_some_iff, Option.guard_eq_some', Option.pure_def,
    Option.some.injEq] at h
  obtain ⟨w, hw, l, hl, -, hwf, rfl⟩ := h
  refine ⟨s.writeBack l, ?_, sameBytes_writeBack s l hwf, sameRest_recallLine s true l.pa, ?_⟩
  · rw [exec_lazyStashWriteBack, execLazyStashWriteBack]
    simp only [hw, hl]
  · intro w' hw' l' hl' hpa
    have hheld : (s.wgs.any fun e => e.2.lines.any fun x => x.pa == l.pa) = true :=
      List.any_eq_true.mpr ⟨(wk, w), Tbl.mem_of_find hw,
        List.any_eq_true.mpr ⟨l, List.mem_of_find?_eq_some hl, beq_self_eq_true _⟩⟩
    have hrecalled : (s.writeBack l).wg wk = some (w.recall true l.pa) := by
      have hw0 : s.wgs.find wk = some w := hw
      rw [State.wg, State.writeBack, (recallLine_held hheld).2, Tbl.find_each, hw0, Option.map_some]
    rw [hrecalled] at hw'
    cases hw'
    exact recall_clean w true l.pa l' hl' hpa

/-! ## Imprecise faults -/

theorem exec_lateTrap (wk fid : Nat) (s : State) : exec (.lateTrap wk fid) s = execLateTrap wk fid s := rfl

theorem lateTrap_happens {wk fid : Nat} {s : State} {effect : State → Prop}
    (h : Claims.accessSteps (.lateTrap wk fid) s = some effect) :
    ∃ t, exec (.lateTrap wk fid) s = .next t ∧ effect t := by
  simp only [Claims.accessSteps, Option.bind_eq_bind, Option.bind_eq_some_iff, Option.guard_eq_some', Option.pure_def,
    Prod.exists, Option.some.injEq] at h
  obtain ⟨w, f, hf, -, hready, x, hx, rfl⟩ := h
  have hx' : f.nextImprecise = some x := hx
  have hgo : (!f.atBoundary || f.spilled) = false := by
    rw [← Bool.not_eq_true', Bool.not_or, Bool.not_not]
    exact hready
  rw [exec_lateTrap, execLateTrap]
  simp only [hf, hgo, hx', Bool.false_eq_true, if_false]
  exact ⟨_, rfl, rfl⟩

/-- Settles O21: which access completes is the model's draw among the possible ones; an instruction's completion is counted
as `Fibre.finished` says, and a write-back is a recall, which moves bytes and changes none. -/
theorem accessesComplete : Obligations.AccessesComplete := by
  intro i s effect h
  have hstep := h
  unfold Claims.accessSteps at h
  split at h
  · exact accessCompletion_happens hstep
  · exact lazyStashWriteBack_happens hstep
  · exact lateTrap_happens hstep
  · cases h

end Sys2Proof.Machine
end

section
/-! # Byte-count barriers: what an addition leaves of the object (08 R159) -/

namespace Sys2Proof.Machine

/-! ## Words in little-endian bytes (01 R34) -/

@[simp] theorem length_leBytes : ∀ n x : Nat, (leBytes n x).length = n
  | 0, _ => rfl
  | n + 1, x => congrArg Nat.succ (length_leBytes n (x / 256))

theorem leNat_leBytes : ∀ n x : Nat, leNat (leBytes n x) = x % 256 ^ n
  | 0, x => (Nat.mod_one x).symm
  | n + 1, x => by
    rw [leBytes, leNat, leNat_leBytes n, BitVec.toNat_ofNat, Nat.mod_mod, pow_succ', Nat.mod_mul]

/-- The first of several words. -/
@[simp] theorem wordAt_head (x : Word) (bs : List Byte) : wordAt (leBytes 4 x.toNat ++ bs) 0 = x := by
  rw [wordAt, List.drop_zero, List.take_left' (length_leBytes 4 _), leNat_leBytes,
    Nat.mod_eq_of_lt (show x.toNat < 256 ^ 4 from x.isLt),
    BitVec.ofNat_toNat, BitVec.setWidth_eq]

/-- A later one. -/
theorem wordAt_tail (x o : Nat) (bs : List Byte) : wordAt (leBytes 4 x ++ bs) (4 + o) = wordAt bs o := by
  rw [wordAt, wordAt, ← List.drop_drop, List.drop_left' (length_leBytes 4 x)]

/-! ## The object (08 Table 8-3) -/

@[simp] theorem wordAt_barrierObject_expect (e a p f : Word) : wordAt (Claims.barrierObject e a p f) 0 = e := by
  simp only [Claims.barrierObject, List.append_assoc, wordAt_head]

@[simp] theorem wordAt_barrierObject_arrived (e a p f : Word) : wordAt (Claims.barrierObject e a p f) 4 = a := by
  simp only [Claims.barrierObject, List.append_assoc, wordAt_tail _ 0, wordAt_head]

@[simp] theorem wordAt_barrierObject_phase (e a p f : Word) : wordAt (Claims.barrierObject e a p f) 8 = p := by
  simp only [Claims.barrierObject, List.append_assoc, wordAt_tail _ 4, wordAt_tail _ 0, wordAt_head]

@[simp] theorem wordAt_barrierObject_flags (e a p f : Word) : wordAt (Claims.barrierObject e a p f) 12 = f := by
  rw [← List.append_nil (Claims.barrierObject e a p f)]
  simp only [Claims.barrierObject, List.append_assoc, wordAt_tail _ 8, wordAt_tail _ 4, wordAt_tail _ 0, wordAt_head]

/-- Inverting bit 0 of a number, as the model writes it, is an exclusive or with 1. -/
theorem toNat_xor_one (x : Word) : (x ^^^ 1).toNat = if x.toNat % 2 = 1 then x.toNat - 1 else x.toNat + 1 := by
  rw [BitVec.toNat_xor, show (1 : Word).toNat = 1 from rfl]
  split
  · next h => exact Nat.xor_one_of_odd (Nat.odd_iff.mpr h)
  · next h => exact Nat.xor_one_of_even (Nat.even_iff.mpr (by omega))

/-- ARRIVED saturates, so what a flip leaves of it fits in its word. -/
theorem toNat_ofNat_left {m : Nat} (x k : Nat) (h : m = min 4294967295 x) (b : Bool) :
    (BitVec.ofNat 32 (if b then m - k else m)).toNat = if b then m - k else m := by
  rw [BitVec.toNat_ofNat, Nat.mod_eq_of_lt]
  split <;> omega

/-- Settles O33: the words of the object before, the one flip, and what is left of ARRIVED. -/
theorem barrierAdditions : Obligations.BarrierAdditions := by
  intro expect arrived phase flags n add sum flips rest err
  have hflips : (expect.toNat ≠ 0 ∧ expect.toNat ≤ min 4294967295 (arrived.toNat + n)) ↔ flips = true := by
    rw [Bool.and_eq_true, decide_eq_true_eq, decide_eq_true_eq]
    exact and_congr_left' (not_congr (BitVec.toNat_inj (y := 0)))
  have herr : (4294967295 < arrived.toNat + n ∨ (flips = true ∧ expect.toNat ≤ rest)) ↔ err = true := by
    simp only [err, Bool.or_eq_true, Bool.and_eq_true, decide_eq_true_eq]
  have hrest : (BitVec.ofNat 32 rest).toNat = rest := toNat_ofNat_left (arrived.toNat + n) expect.toNat rfl flips
  have hphase : (if flips then phase ^^^ 1 else phase).toNat =
      if flips then (if phase.toNat % 2 = 1 then phase.toNat - 1 else phase.toNat + 1) else phase.toNat := by
    rw [apply_ite BitVec.toNat, toNat_xor_one]
  rw [barrierSum]
  simp only [wordAt_barrierObject_expect, wordAt_barrierObject_arrived, wordAt_barrierObject_phase,
    wordAt_barrierObject_flags, hflips]
  rw [if_congr herr rfl rfl, Claims.barrierObject, hrest, hphase]

end Sys2Proof.Machine
end

section
/-! # Physical memory stays in its canonical form (08 R145, 07 R134) -/

-- The declarations below are many and short: elaborating them in order is cheaper than a thread for each.
set_option Elab.async false

namespace Sys2Proof.Machine

/-! ## What an outcome leaves of memory -/

/-- What a computation that may fail answers meets p. -/
def IfOk {ε β : Type} (p : β → Prop) : Except ε β → Prop
  | .ok b => p b
  | .error _ => True

/-- What a computation that may answer nothing answers meets p. -/
def IfSome {β : Type} (p : β → Prop) : Option β → Prop
  | some b => p b
  | none => True

/-- A failure meets q, an answer p. -/
def EitherWay {ε β : Type} (q : ε → Prop) (p : β → Prop) : Except ε β → Prop
  | .ok b => p b
  | .error e => q e

/-- The next state of an outcome has canonical memory. -/
def Out.memCanonical : Out → Prop
  | .next s => s.memCanonical
  | _ => True

/-- The state in which a word's own effect ends has canonical memory. -/
def Res.memCanonical : Res → Prop
  | .done _ s => s.memCanonical
  | .jump _ s _ => s.memCanonical
  | .trap _ s _ _ => s.memCanonical
  | .wait _ s _ => s.memCanonical
  | .ends _ s => s.memCanonical

/-- The state that an access leaves has canonical memory. -/
def AccRes.memCanonical : AccRes → Prop
  | .ok _ s _ _ _ _ => s.memCanonical
  | .trap _ s _ => s.memCanonical
  | .wait _ s => s.memCanonical

/-- The state that a custom word of Samovar leaves has canonical memory. -/
def SamRes.memCanonical : SamRes → Prop
  | .done _ s => s.memCanonical
  | .wait _ s => s.memCanonical
  | .fault _ _ => True

/-- The state of a loop over strands has canonical memory. -/
def MemLoop.memCanonical (m : MemLoop) : Prop := m.s.memCanonical

/-- The state of a commit has canonical memory. -/
def Commit.memCanonical (c : Commit) : Prop := c.s.memCanonical

/-- The state of a command in execution has canonical memory. -/
def Run1.memCanonical (r : Run1) : Prop := r.s.memCanonical

theorem IfOk.map {ε α β : Type} {p : α → Prop} {q : β → Prop} {f : α → β} {x : Except ε α} (h : IfOk p x)
    (hf : ∀ r, p r → q (f r)) : IfOk q (x.map f) := by
  cases x with
  | error e => trivial
  | ok r => exact hf r h

theorem IfOk.bind {ε α β : Type} {p : α → Prop} {q : β → Prop} {x : Except ε α} {f : α → Except ε β}
    (h : IfOk p x) (hf : ∀ r, p r → IfOk q (f r)) : IfOk q (x >>= f) := by
  cases x with
  | error e => trivial
  | ok r => exact hf r h

theorem EitherWay.map {ε α β : Type} {e : ε → Prop} {p : α → Prop} {q : β → Prop} {f : α → β} {x : Except ε α}
    (h : EitherWay e p x) (hf : ∀ r, p r → q (f r)) : EitherWay e q (x.map f) := by
  cases x with
  | error t => exact h
  | ok r => exact hf r h

theorem IfOk.mapError {ε δ α : Type} {p : α → Prop} {q : δ → Prop} {f : ε → δ} {x : Except ε α} (h : IfOk p x)
    (hf : ∀ e, q (f e)) : EitherWay q p (x.mapError f) := by
  cases x with
  | error e => exact hf e
  | ok r => exact h

theorem IfSome.map {α β : Type} {p : α → Prop} {q : β → Prop} {f : α → β} {x : Option α} (h : IfSome p x)
    (hf : ∀ r, p r → q (f r)) : IfSome q (x.map f) := by
  cases x with
  | none => trivial
  | some r => exact hf r h

theorem IfOk.toOption {ε α : Type} {p : α → Prop} {x : Except ε α} (h : IfOk p x) : IfSome p x.toOption := by
  cases x with
  | error e => trivial
  | ok r => exact h

theorem IfSome.getD {α : Type} {p : α → Prop} {x : Option α} {d : α} (h : IfSome p x) (hd : p d) : p (x.getD d) := by
  cases x with
  | none => exact hd
  | some r => exact h

/-- A run over parts keeps what each part keeps. -/
theorem IfOk.overParts {ε α : Type} {p : α → Prop} {g : Nat × Nat → α → Except ε α}
    (hg : ∀ x a, p a → IfOk p (g x a)) : ∀ {ps : List (Nat × Nat)} {a : α}, p a → IfOk p (overParts g ps a)
  | [], _, h => h
  | x :: ps, a, h => by
    have hx := hg x a h
    rw [Machine.overParts]
    cases hc : g x a with
    | error t => trivial
    | ok b => exact IfOk.overParts hg (by rwa [hc] at hx)

theorem EitherWay.overParts {ε α : Type} {q : ε → Prop} {p : α → Prop} {g : Nat × Nat → α → Except ε α}
    (hg : ∀ x a, p a → EitherWay q p (g x a)) :
    ∀ {ps : List (Nat × Nat)} {a : α}, p a → EitherWay q p (overParts g ps a)
  | [], _, h => h
  | x :: ps, a, h => by
    have hx := hg x a h
    rw [Machine.overParts]
    cases hc : g x a with
    | error t => rwa [hc] at hx
    | ok b => exact EitherWay.overParts hg (by rwa [hc] at hx)

/-- A fold over the state keeps the canonical form if each of its steps does. -/
theorem canonical_foldl {β : Type} {f : State → β → State} {l : List β} {s : State} (h : s.memCanonical)
    (hf : ∀ t b, t.memCanonical → (f t b).memCanonical) : (l.foldl f s).memCanonical :=
  List.foldlRecOn _ _ h fun t ht b _ => hf t b ht

section
variable {s : State}

/-! ## The memory system: L1 and L2, stash lines, translation, scratchpad (07)

Of the functions from here on only few write the memory list itself: `recallLine` and `physWrite` (proved above),
`loseL2`, `cold`, `debugPut` and `corrupt`. They do so by `cellWrite`, `cellPut` or a filter. Every other function
updates other parts of the state, or is composed of functions that keep the form along each of its branches: its
proof names the ones it is composed of. -/

theorem canonical_draw {α : Type} {f : Nat → α} (h : s.memCanonical) : (s.draw f).2.memCanonical := h

theorem canonical_freeBytes : ∀ {n} {s : State}, s.memCanonical → (freeBytes n s).2.memCanonical
  | 0, _, h => h
  | n + 1, _, h => canonical_freeBytes (n := n) (canonical_draw (f := Config.freeByte) h)

theorem canonical_setPoison {p} (h : s.memCanonical) : (s.setPoison p).memCanonical := h

theorem canonical_setStale {p} (h : s.memCanonical) : (s.setStale p).memCanonical := h

theorem canonical_setCores {t} (h : s.memCanonical) : (s.setCores t).memCanonical := h

theorem canonical_setClusters {t} (h : s.memCanonical) : (s.setClusters t).memCanonical := h

theorem canonical_setWgs {t} (h : s.memCanonical) : (s.setWgs t).memCanonical := h

theorem canonical_setWatches {t} (h : s.memCanonical) : (s.setWatches t).memCanonical := h

theorem canonical_setLaunches {t} (h : s.memCanonical) : (s.setLaunches t).memCanonical := h

theorem canonical_emit {o} (h : s.memCanonical) : (s.emit o).memCanonical := h

theorem canonical_putCore {c x} (h : s.memCanonical) : (s.putCore c x).memCanonical := canonical_setCores h

theorem canonical_putCluster {c x} (h : s.memCanonical) : (s.putCluster c x).memCanonical := canonical_setClusters h

theorem canonical_putWg {wk w} (h : s.memCanonical) : (s.putWg wk w).memCanonical := canonical_setWgs h

theorem canonical_updWg {wk g} (h : s.memCanonical) : (s.updWg wk g).memCanonical := canonical_setWgs h

theorem canonical_putLaunch {l x} (h : s.memCanonical) : (s.putLaunch l x).memCanonical := canonical_setLaunches h

theorem canonical_updLaunch {l g} (h : s.memCanonical) : (s.updLaunch l g).memCanonical := canonical_setLaunches h

theorem canonical_evalWatches {pa n} (h : s.memCanonical) : (s.evalWatches pa n).memCanonical := by
  unfold State.evalWatches
  grind [State.memCanonical, canonical_setWatches]

theorem canonical_setL2 {t} (h : s.memCanonical) : (s.setL2 t).memCanonical := h

theorem canonical_l2Room {line} (h : s.memCanonical) : (s.l2Room line).memCanonical := by
  unfold State.l2Room
  grind [canonical_draw, canonical_setL2]

theorem canonical_modifyLine {line} (h : s.memCanonical) : (s.modifyLine line).memCanonical := by
  unfold State.modifyLine
  grind [canonical_setL2, canonical_l2Room, canonical_draw]

theorem canonical_modify {pa n} (h : s.memCanonical) : (s.modify pa n).memCanonical := by
  unfold State.modify
  grind [canonical_modifyLine, canonical_foldl]

/-- A line that an L2 loses goes back to its bytes before it was modified, by a write to the cells (21 Table 21-8). -/
theorem canonical_loseL2 {lost} (h : s.memCanonical) : (s.loseL2 lost).memCanonical := by
  unfold State.loseL2
  refine canonical_foldl h fun t e ht => ?_
  dsimp only
  split
  · split
    · exact ht
    · exact wf_cellWrite _ _ _ ht
  · exact ht

theorem canonical_disown {keep line} (h : s.memCanonical) : (s.disown keep line).memCanonical := by
  unfold State.disown
  grind [canonical_setCores]

theorem canonical_own {c line rel} (h : s.memCanonical) : (s.own c line rel).memCanonical := by
  unfold State.own
  grind [canonical_disown, canonical_putCore]

theorem canonical_poisonSectors {ks} (h : s.memCanonical) : (s.poisonSectors ks).memCanonical := h

theorem canonical_poisonAt {pa n} (h : s.memCanonical) : (s.poisonAt pa n).memCanonical := canonical_poisonSectors h

theorem canonical_verify {pa n} (h : s.memCanonical) : (s.verify pa n).memCanonical := by
  unfold State.verify
  grind [canonical_poisonSectors]

theorem canonical_sliceRead {c pa n} (h : s.memCanonical) : (s.sliceRead c pa n).2.memCanonical := by
  unfold State.sliceRead
  grind [canonical_verify, canonical_disown, canonical_recall]

theorem canonical_refresh {c pa n} (h : s.memCanonical) : (s.refresh c pa n).memCanonical := by
  unfold State.refresh
  grind [canonical_putCore]

theorem canonical_afterWalk {ten va} (h : s.memCanonical) : (s.afterWalk ten va).memCanonical := by
  unfold State.afterWalk
  grind [canonical_sliceRead, canonical_foldl]

theorem canonical_page {cl ten va a} (h : s.memCanonical) : IfOk (·.2.memCanonical) (s.page cl ten va a) := by
  unfold State.page
  grind [IfOk, canonical_draw, canonical_putCluster, canonical_afterWalk]

theorem canonical_countTraffic {ten n sure} (h : s.memCanonical) : (s.countTraffic ten n sure).memCanonical := h

theorem canonical_faultWalk {ten va t} (h : s.memCanonical) : (s.faultWalk ten va t).memCanonical := by
  unfold State.faultWalk
  grind [canonical_afterWalk, canonical_verify]

theorem canonical_translate {cl ten va n store a} (h : s.memCanonical) :
    IfOk (·.2.2.memCanonical) (s.translate cl ten va n store a) := by
  unfold State.translate
  grind [IfOk, canonical_page, canonical_countTraffic]

theorem canonical_l1Look {c asid va} (h : s.memCanonical) : (s.l1Look c asid va).2.memCanonical := by
  unfold State.l1Look
  grind [canonical_draw, canonical_putCore]

theorem canonical_fillRead {pa} (h : s.memCanonical) : (s.fillRead pa).memCanonical := canonical_sliceRead h

theorem canonical_l1Fill {c asid va pa e ks} (h : s.memCanonical) : (s.l1Fill c asid va pa e ks).memCanonical := by
  unfold State.l1Fill
  grind [canonical_draw, canonical_putCore]

theorem canonical_l1Trim {c} (h : s.memCanonical) : (s.l1Trim c).memCanonical := canonical_putCore h

theorem canonical_acquire {c scope} (h : s.memCanonical) : (s.acquire c scope).memCanonical := by
  unfold State.acquire
  grind [canonical_putCore]

theorem canonical_iLook {c asid va} (h : s.memCanonical) : (s.iLook c asid va).2.memCanonical := by
  unfold State.iLook
  grind [canonical_draw, canonical_putCore]

theorem canonical_iFill {c asid va bs} (h : s.memCanonical) : (s.iFill c asid va bs).memCanonical :=
  canonical_putCore h

theorem canonical_stashLine {wk off a} (h : s.memCanonical) : IfOk (·.2.memCanonical) (s.stashLine wk off a) := by
  unfold State.stashLine
  grind [IfOk, canonical_translate, canonical_disown, canonical_recall, canonical_refresh, canonical_updWg]

theorem canonical_scratchRead {wk off n a} (h : s.memCanonical) :
    IfOk (·.2.memCanonical) (s.scratchRead wk off n a) := by
  unfold State.scratchRead
  grind [IfOk, canonical_stashLine]

theorem canonical_scratchWrite {wk off bs a} (h : s.memCanonical) :
    IfOk (·.memCanonical) (s.scratchWrite wk off bs a) := by
  unfold State.scratchWrite
  grind [IfOk, canonical_stashLine, canonical_updWg, canonical_evalWatches, canonical_refresh]

theorem canonical_writeBack {l} (h : s.memCanonical) : (s.writeBack l).memCanonical := by
  unfold State.writeBack
  grind [canonical_recallLine]

theorem canonical_writeBackAll {wk} (h : s.memCanonical) : (s.writeBackAll wk).memCanonical := by
  unfold State.writeBackAll
  grind [canonical_writeBack, canonical_foldl]

/-! ## Issuing, retiring, queue ports, taking an exception, and agents without a core (01, 08, 18) -/

theorem canonical_stirObjs {core key rs} (h : s.memCanonical) : (s.stirObjs core key rs).memCanonical := by
  unfold State.stirObjs
  split
  · exact h
  · refine canonical_foldl h fun t r ht => ?_
    have hq : (freeBytes r.2 t).2.memCanonical := canonical_freeBytes ht
    cases key with
    | none => exact canonical_physWrite _ _ _ _ hq
    | some k => exact IfSome.getD (canonical_scratchWrite hq).toOption hq

theorem canonical_forgetFlips {x n} (h : s.memCanonical) : (s.forgetFlips x n).memCanonical := h

theorem canonical_syncAt {w uid acq rel p} (h : s.memCanonical) : (s.syncAt w uid acq rel p).memCanonical := by
  unfold State.syncAt
  grind [canonical_updWg]

theorem canonical_endHanded {x n} (h : s.memCanonical) : (s.endHanded x n).memCanonical := by
  unfold State.endHanded
  grind [canonical_setWgs]

theorem canonical_afterStore {old : State} {core x n k} (h : s.memCanonical) :
    (s.afterStore old core x n k).memCanonical := by
  unfold State.afterStore
  grind [canonical_forgetFlips, canonical_stirObjs, canonical_endHanded]

theorem canonical_stirVa {old : State} {ten va n k} (h : s.memCanonical) :
    (s.stirVa old ten va n k).memCanonical := by
  unfold State.stirVa
  grind [canonical_afterStore, canonical_foldl]

theorem canonical_l1Drop {core pa} (h : s.memCanonical) : (s.l1Drop core pa).memCanonical := by
  unfold State.l1Drop
  grind [canonical_putCore]

theorem canonical_performSt {core p} (h : s.memCanonical) : (s.performSt core p).memCanonical := by
  unfold State.performSt
  grind [IfOk, canonical_physWrite, canonical_afterStore, canonical_l1Drop, canonical_scratchWrite]

theorem canonical_perform {f : Fibre} {want core} (h : s.memCanonical) : (f.perform want core s).2.memCanonical := by
  unfold Fibre.perform
  grind [canonical_performSt, canonical_foldl]

theorem canonical_flush {f : Fibre} {who core} (h : s.memCanonical) : (f.flush who core s).2.memCanonical :=
  canonical_perform h

theorem canonical_drainOver {wk x n} (h : s.memCanonical) : (s.drainOver wk x n).memCanonical := by
  unfold State.drainOver
  grind [canonical_perform, canonical_updWg, canonical_foldl]

theorem canonical_agentWalk {ten va n} (h : s.memCanonical) : (s.agentWalk ten va n).memCanonical := by
  unfold State.agentWalk
  grind [canonical_afterWalk, canonical_foldl]

theorem canonical_afterAgent {ten va n} (h : s.memCanonical) : (s.afterAgent ten va n).memCanonical := by
  unfold State.afterAgent
  grind [canonical_countTraffic, canonical_afterWalk]

theorem canonical_agentRead {ten va n} (h : s.memCanonical) :
    EitherWay (·.2.memCanonical) (·.2.2.memCanonical) (s.agentRead ten va n) := by
  unfold State.agentRead
  refine IfOk.mapError (IfOk.overParts (fun x a ha => ?_) h) fun _ => canonical_agentWalk h
  split
  · trivial
  · dsimp only [IfOk]
    exact canonical_physRead _ _ _ _ (canonical_afterAgent ha)

theorem canonical_agentPut {ten va bs k} (h : s.memCanonical) :
    EitherWay (·.2.memCanonical) (·.memCanonical) (s.agentPut ten va bs k) := by
  unfold State.agentPut
  refine IfOk.mapError (IfOk.map (p := (·.2.memCanonical)) (IfOk.overParts (fun x a ha => ?_) h) fun _ hr => hr)
    fun _ => canonical_agentWalk h
  split
  · trivial
  · exact canonical_afterStore (canonical_physWrite _ _ _ _ (canonical_afterAgent ha))

theorem canonical_agentWrite {ten va bs} (h : s.memCanonical) :
    EitherWay (·.2.memCanonical) (·.memCanonical) (s.agentWrite ten va bs) := canonical_agentPut h

theorem canonical_agentWord {ten va} (h : s.memCanonical) :
    EitherWay (·.2.memCanonical) (·.2.memCanonical) (s.agentWord ten va) := by
  unfold State.agentWord
  grind [EitherWay, canonical_agentRead]

theorem canonical_putAgentWord {ten va x} (h : s.memCanonical) :
    EitherWay (·.2.memCanonical) (·.memCanonical) (s.putAgentWord ten va x) := canonical_agentWrite h

theorem canonical_eitherState {x : Except (Trap × State) State}
    (hx : EitherWay (·.2.memCanonical) (·.memCanonical) x) :
    (eitherState x).memCanonical := by
  unfold eitherState
  grind [EitherWay]

theorem canonical_agentPutOr {ten va bs k} (h : s.memCanonical) : (s.agentPutOr ten va bs k).memCanonical := by
  unfold State.agentPutOr
  grind [canonical_eitherState, canonical_agentPut]

theorem canonical_fqHeader {ten fq} (h : s.memCanonical) : (s.fqHeader ten fq).2.memCanonical := by
  unfold State.fqHeader
  grind [EitherWay, canonical_agentRead]

theorem canonical_writeRecord {ten fq launch r} (h : s.memCanonical) :
    (s.writeRecord ten fq launch r).2.memCanonical := by
  have hheader : (s.fqHeader ten fq).2.memCanonical := canonical_fqHeader h
  unfold State.writeRecord
  split
  · exact h
  · split
    · next s1 hs1 => rw [hs1] at hheader; exact hheader
    · next x s1 hs1 =>
      rw [hs1] at hheader
      split
      · grind [EitherWay, canonical_putAgentWord, canonical_emit]
      · grind [EitherWay, canonical_agentWrite, canonical_agentPut, canonical_emit]

theorem canonical_putFibre {wk f} (h : s.memCanonical) : (s.putFibre wk f).memCanonical := canonical_updWg h

theorem canonical_poisonClaim {wk w} (h : s.memCanonical) : (s.poisonClaim wk w).memCanonical := by
  unfold State.poisonClaim
  grind [IfOk, EitherWay, canonical_agentRead, canonical_agentPutOr, canonical_scratchRead, canonical_scratchWrite]

theorem canonical_stopWg {wk x} (h : s.memCanonical) : (s.stopWg wk x).memCanonical := by
  unfold State.stopWg
  grind [canonical_poisonClaim, canonical_updLaunch, canonical_updWg]

theorem canonical_alsoFatal {wk w y x} (h : s.memCanonical) : (s.alsoFatal wk w y x).memCanonical := by
  unfold State.alsoFatal
  grind [canonical_updWg, canonical_foldl]

theorem canonical_fatal {wk x} (h : s.memCanonical) : (s.fatal wk x).memCanonical := by
  unfold State.fatal
  grind [canonical_updLaunch, canonical_alsoFatal, canonical_stopWg, canonical_foldl]

theorem canonical_raise {wk w f t strand impr trappc resume} (h : s.memCanonical) :
    (s.raise wk w f t strand impr trappc resume).memCanonical := by
  unfold State.raise
  grind [canonical_writeRecord, canonical_emit, canonical_putFibre, canonical_fatal]

theorem canonical_raiseAt {wk w f t strand} (h : s.memCanonical) : (s.raiseAt wk w f t strand).memCanonical :=
  canonical_raise h

theorem canonical_raiseFetch {wk w f t} (h : s.memCanonical) : (s.raiseFetch wk w f t).memCanonical :=
  canonical_raise h

theorem canonical_updQueue {w slot g} (h : s.memCanonical) : (s.updQueue w slot g).memCanonical := by
  unfold State.updQueue
  grind [canonical_updLaunch]

theorem canonical_requestSlots {w f k} (h : s.memCanonical) : (requestSlots s w f k).2.memCanonical := by
  unfold requestSlots
  grind [canonical_updQueue]

theorem canonical_syncQueue {w uid slot push} (h : s.memCanonical) : (s.syncQueue w uid slot push).memCanonical := by
  unfold State.syncQueue
  grind [canonical_syncAt]

theorem canonical_pushPort {w f k x} (h : s.memCanonical) : (pushPort s w f k x).2.memCanonical := by
  unfold pushPort
  grind [canonical_updQueue, canonical_syncQueue]

theorem canonical_popQueue {w uid slot} (h : s.memCanonical) : (s.popQueue w uid slot).memCanonical := by
  unfold State.popQueue
  grind [canonical_acquire, canonical_updQueue, canonical_syncQueue]

theorem canonical_popPort {w n f} (h : s.memCanonical) : (popPort w n f s).2.memCanonical := by
  unfold popPort
  grind [canonical_popQueue]

theorem canonical_popPorts {w} : ∀ {l f} {s : State}, s.memCanonical → (popPorts w l f s).2.memCanonical
  | [], _, _, h => h
  | _ :: l, _, _, h => canonical_popPorts (l := l) (canonical_popPort h)

theorem canonical_pushPorts {w old} : ∀ {l f} {s : State}, s.memCanonical → (pushPorts w old l f s).2.memCanonical
  | [], _, _, h => h
  | _ :: l, _, _, h => canonical_pushPorts (l := l) (canonical_pushPort h)

theorem canonical_retireTo {wk w u n old f pc} (h : s.memCanonical) :
    (s.retireTo wk w u n old f pc).memCanonical := by
  unfold State.retireTo
  grind [canonical_updWg, canonical_raise, canonical_putFibre]

theorem canonical_endFibre {wk f} (h : s.memCanonical) : (s.endFibre wk f).memCanonical := by
  unfold State.endFibre
  grind [canonical_flush, canonical_setWatches, canonical_updWg]

theorem canonical_settleRes {r : Res} {wk w u n old} (hr : r.memCanonical) :
    (settleRes wk w u n old r).memCanonical := by
  unfold settleRes
  grind [Res.memCanonical, canonical_pushPorts, canonical_retireTo, canonical_raiseAt, canonical_putFibre,
    canonical_endFibre, canonical_updWg]

theorem canonical_requestAll {w : Workgroup} {f : Fibre} {l : List Nat} (h : s.memCanonical) :
    (l.foldl (fun (r : Fibre × State) n => requestSlots r.2 w r.1 (n - 48)) (f, s)).2.memCanonical :=
  List.foldlRecOn (motive := fun (r : Fibre × State) => r.2.memCanonical) _ _ h
    fun _ hr _ _ => canonical_requestSlots hr

theorem canonical_operandWait {w u f} (h : s.memCanonical) :
    (operandWait w u f s).2.1.memCanonical ∧ IfSome (·.memCanonical) (operandWait w u f s).2.2 := by
  have hpops := canonical_popPorts (w := w) (l := popsOf f u) (f := f) h
  have hasked := canonical_requestAll (w := w) (f := (popPorts w (popsOf f u) f s).1) (l := pushesOf f u) hpops
  unfold operandWait
  grind [IfSome, Res.memCanonical]

theorem canonical_emptyRes {body : List Nat → Fibre → State → Res} {u f} (h : s.memCanonical)
    (hbody : ∀ a b t, t.memCanonical → (body a b t).memCanonical) :
    (emptyRes u f s body).2.memCanonical := by
  unfold emptyRes
  grind [Res.memCanonical]

theorem canonical_beforeWord {w u f} (h : s.memCanonical) : (beforeWord w u f s).2.memCanonical := by
  unfold beforeWord
  grind [canonical_flush]

theorem canonical_runWord {body : List Nat → Fibre → State → Res} {wk w u pre f}
    (hbody : ∀ a b t, t.memCanonical → (body a b t).memCanonical) (h : s.memCanonical) :
    (runWord wk w u pre body f s).memCanonical := by
  unfold runWord
  grind [IfSome, canonical_raiseAt, canonical_putFibre, canonical_emptyRes, canonical_retireTo, canonical_beforeWord,
    canonical_operandWait, canonical_settleRes]

theorem canonical_wordBy {body : Nat → Workgroup → List Nat → Fibre → State → Res} {u pre}
    (hbody : ∀ a b c d t, t.memCanonical → (body a b c d t).memCanonical) (h : s.memCanonical) :
    Out.memCanonical (wordBy u pre body s) := by
  unfold wordBy
  grind [Out.memCanonical, canonical_runWord]

/-- A word keeps the form if its own effect does; the words of the sets below come by it. -/
theorem canonical_word {body : Nat → Workgroup → List Nat → Fibre → State → Res} {u pre}
    (hbody : ∀ a b c d t, t.memCanonical → (body a b c d t).memCanonical) (h : s.memCanonical) :
    Out.memCanonical (word u pre body s) := by
  unfold word
  grind [canonical_wordBy]

/-! ## Words of registers and control, fibres, windows and spills (03, 04, 05) -/

theorem canonical_laneWord {sc g reads d l val} (h : s.memCanonical) :
    Out.memCanonical (laneWord sc g reads d l val s) := by
  unfold laneWord
  grind [Res.memCanonical, canonical_word]

theorem canonical_laneR {o destr l op} (h : s.memCanonical) : Out.memCanonical (laneR o destr l op s) :=
  canonical_laneWord h

theorem canonical_laneA {o l op} (h : s.memCanonical) : Out.memCanonical (laneA o l op s) := canonical_laneWord h

theorem canonical_laneCmp {o l k} (h : s.memCanonical) : Out.memCanonical (laneCmp o l k s) := by
  unfold laneCmp
  grind [Res.memCanonical, canonical_word]

theorem canonical_execLPset {o} (h : s.memCanonical) : Out.memCanonical (execLPset o s) := by
  unfold execLPset
  grind [Res.memCanonical, canonical_word]

theorem canonical_uniWord {u d l val} (h : s.memCanonical) : Out.memCanonical (uniWord u d l val s) := by
  unfold uniWord
  grind [Res.memCanonical, canonical_word]

theorem canonical_uniR {o destr l op} (h : s.memCanonical) : Out.memCanonical (uniR o destr l op s) :=
  canonical_uniWord h

theorem canonical_uniD {o destr l op} (h : s.memCanonical) : Out.memCanonical (uniD o destr l op s) :=
  canonical_uniWord h

theorem canonical_uniA {o l op} (h : s.memCanonical) : Out.memCanonical (uniA o l op s) := canonical_uniWord h

theorem canonical_uniI {o destr val} (h : s.memCanonical) : Out.memCanonical (uniI o destr val s) :=
  canonical_uniWord h

theorem canonical_uniCmp {sc g reads c l val} (h : s.memCanonical) :
    Out.memCanonical (uniCmp sc g reads c l val s) := by
  unfold uniCmp
  grind [Res.memCanonical, canonical_word]

theorem canonical_uniWide {u d val} (h : s.memCanonical) : Out.memCanonical (uniWide u d val s) := by
  unfold uniWide
  grind [Res.memCanonical, canonical_word]

theorem canonical_transfer {f g t} (h : s.memCanonical) : (transfer f g s t).memCanonical := by
  unfold transfer
  grind [Res.memCanonical]

theorem canonical_execBr {o} (h : s.memCanonical) : Out.memCanonical (execBr o s) := by
  unfold execBr
  grind [canonical_word, canonical_transfer]

theorem canonical_execCall {o} (h : s.memCanonical) : Out.memCanonical (execCall o s) := by
  unfold execCall
  grind [canonical_word, canonical_transfer]

theorem canonical_execJr {o} (h : s.memCanonical) : Out.memCanonical (execJr o s) := by
  unfold execJr
  grind [canonical_word, canonical_transfer]

theorem canonical_execCallr {o} (h : s.memCanonical) : Out.memCanonical (execCallr o s) := by
  unfold execCallr
  grind [canonical_word, canonical_transfer]

theorem canonical_execRet {o} (h : s.memCanonical) : Out.memCanonical (execRet o s) := by
  unfold execRet
  grind [canonical_word, canonical_transfer]

theorem canonical_execLoopW {o} (h : s.memCanonical) : Out.memCanonical (execLoopW o s) := by
  unfold execLoopW
  grind [Res.memCanonical, canonical_word, canonical_transfer]

theorem canonical_rotWord {o ok act} (h : s.memCanonical) : Out.memCanonical (rotWord o ok act s) := by
  unfold rotWord
  grind [Res.memCanonical, canonical_word]

theorem canonical_execRotset {o} (h : s.memCanonical) : Out.memCanonical (execRotset o s) := canonical_rotWord h

theorem canonical_execRotbase {o} (h : s.memCanonical) : Out.memCanonical (execRotbase o s) := canonical_rotWord h

theorem canonical_execTrap {o} (h : s.memCanonical) : Out.memCanonical (execTrap o s) := by
  unfold execTrap
  grind [Res.memCanonical, canonical_word]

theorem canonical_execBrk {o} (h : s.memCanonical) : Out.memCanonical (execBrk o s) := by
  unfold execBrk
  grind [Res.memCanonical, canonical_wordBy]

theorem canonical_execTret {o} (h : s.memCanonical) : Out.memCanonical (execTret o s) := by
  unfold execTret
  grind [canonical_word, canonical_transfer, canonical_afterWalk]

theorem canonical_execNop {o} (h : s.memCanonical) : Out.memCanonical (execNop o s) := by
  unfold execNop
  grind [Res.memCanonical, canonical_word]

theorem canonical_bindStart {w f} (h : s.memCanonical) : (s.bindStart w f).memCanonical := by
  unfold State.bindStart
  grind [canonical_updQueue, canonical_foldl]

theorem canonical_addFibre {wk w f} (h : s.memCanonical) : (s.addFibre wk w f).memCanonical := by
  unfold State.addFibre
  grind [canonical_bindStart, canonical_updWg]

theorem canonical_tryFork {wk w f pc v} (h : s.memCanonical) : IfSome (·.2.memCanonical) (s.tryFork wk w f pc v) := by
  unfold State.tryFork
  grind [IfSome, canonical_l1Trim, canonical_updWg, canonical_addFibre]

theorem canonical_execFork {o} (h : s.memCanonical) : Out.memCanonical (execFork o s) := by
  unfold execFork
  grind [IfSome, Res.memCanonical, canonical_word, canonical_tryFork]

theorem canonical_execFctlEnd {o} (h : s.memCanonical) : Out.memCanonical (execFctlEnd o s) := by
  unfold execFctlEnd
  grind [Res.memCanonical, canonical_word]

theorem canonical_execYield {o} (h : s.memCanonical) : Out.memCanonical (execYield o s) := by
  unfold execYield
  grind [Res.memCanonical, canonical_wordBy]

theorem canonical_execVgrow {o} (h : s.memCanonical) : Out.memCanonical (execVgrow o s) := by
  unfold execVgrow
  grind [Res.memCanonical, canonical_word, canonical_l1Trim, canonical_putFibre]

theorem canonical_execVshrink {o} (h : s.memCanonical) : Out.memCanonical (execVshrink o s) := by
  unfold execVshrink
  grind [Res.memCanonical, canonical_word]

theorem canonical_placeFork {wk fid} (h : s.memCanonical) : (s.placeFork wk fid).memCanonical := by
  unfold State.placeFork
  grind [IfSome, canonical_tryFork, canonical_putFibre]

theorem canonical_grantWindow {wk fid} (h : s.memCanonical) : (s.grantWindow wk fid).memCanonical := by
  unfold State.grantWindow
  grind [canonical_l1Trim, canonical_putFibre]

theorem canonical_execForkPlacement {wk fid} (h : s.memCanonical) :
    Out.memCanonical (execForkPlacement wk fid s) := by
  unfold execForkPlacement
  grind [Out.memCanonical, canonical_placeFork]

theorem canonical_execVgrowGrant {wk fid} (h : s.memCanonical) : Out.memCanonical (execVgrowGrant wk fid s) := by
  unfold execVgrowGrant
  grind [Out.memCanonical, canonical_grantWindow]

theorem canonical_unspill {wk fid} (h : s.memCanonical) : (s.unspill wk fid).memCanonical := by
  unfold State.unspill
  grind [canonical_l1Trim, canonical_putFibre]

theorem canonical_grantOldest {o} (h : s.memCanonical) : (s.grantOldest o).memCanonical := by
  unfold State.grantOldest
  grind [canonical_unspill, canonical_grantWindow, canonical_placeFork]

theorem canonical_spillFor {core o} : ∀ {n} {s : State}, s.memCanonical → IfSome (·.memCanonical)
    (spillFor core o n s)
  | 0, _, _ => trivial
  | n + 1, s, h => by
    have ih := @canonical_spillFor core o n
    unfold spillFor
    grind [IfSome, canonical_grantOldest, canonical_putFibre]

theorem canonical_execCoreSpill {core} (h : s.memCanonical) : Out.memCanonical (execCoreSpill core s) := by
  unfold execCoreSpill
  simp only [Out.memCanonical]
  split
  · split
    · exact h
    · exact IfSome.getD (canonical_spillFor h) h
  · exact h

theorem canonical_execSpillRestore {wk fid} (h : s.memCanonical) : Out.memCanonical (execSpillRestore wk fid s) := by
  unfold execSpillRestore
  grind [Out.memCanonical, canonical_unspill]

/-! ## Accesses of a fibre (09) -/

theorem canonical_globLoad {core ten va n coherent q who a} (h : s.memCanonical) :
    IfOk (·.2.2.memCanonical) (s.globLoad core ten va n coherent q who a) := by
  unfold State.globLoad
  grind [IfOk, canonical_l1Look, canonical_translate, canonical_physRead, canonical_l1Fill]

theorem canonical_globLoads {core ten va n coherent q who a} (h : s.memCanonical) :
    IfOk (·.2.2.memCanonical) (s.globLoads core ten va n coherent q who a) := by
  unfold State.globLoads
  split
  · refine IfOk.overParts (fun x b hb => ?_) h
    grind [IfOk, canonical_globLoad]
  · exact canonical_globLoad h

theorem canonical_storePa {core ten va a} (h : s.memCanonical) :
    IfOk (·.2.memCanonical) (s.storePa core ten va a) := by
  unfold State.storePa
  grind [IfOk, canonical_l1Look, canonical_countTraffic, canonical_translate]

theorem canonical_physStore {core pa bs} (h : s.memCanonical) : (s.physStore core pa bs).memCanonical := by
  unfold State.physStore
  grind [canonical_physWrite, canonical_foldl]

theorem canonical_globStore {core ten va bs nc rel a} (h : s.memCanonical) :
    IfOk (·.memCanonical) (s.globStore core ten va bs nc rel a) := by
  unfold State.globStore
  grind [IfOk, canonical_storePa, canonical_physStore, canonical_afterStore, canonical_l1Drop, canonical_own]

theorem canonical_hostRmw {core pa host g a} (h : s.memCanonical) :
    IfOk (·.2.memCanonical) (s.hostRmw core pa host g a) := by
  unfold State.hostRmw
  grind [IfOk, canonical_draw, canonical_physRead, canonical_physWrite]

theorem canonical_globRmw {core ten va host g a} (h : s.memCanonical) :
    IfOk (·.2.memCanonical) (s.globRmw core ten va host g a) := by
  have hpa : IfOk (·.2.memCanonical) (s.storePa core ten va a) := canonical_storePa h
  unfold State.globRmw
  split
  · trivial
  · next pa t ht =>
    rw [ht] at hpa
    split
    · trivial
    · split
      · exact (canonical_hostRmw hpa).map fun _ hr => canonical_afterStore hr
      · exact canonical_afterStore (canonical_physWrite _ _ _ _ (canonical_physRead _ _ _ _ (canonical_own hpa)))

theorem canonical_scratchRmw {wk core off host g a} (h : s.memCanonical) :
    IfOk (·.2.memCanonical) (s.scratchRmw wk core off host g a) := by
  have hread : IfOk (·.2.memCanonical) (s.scratchRead wk off 4 a) := canonical_scratchRead h
  have hwrite : ∀ (t : State) bs (x : Word), t.memCanonical →
      IfOk (·.2.memCanonical) ((t.scratchWrite wk off bs a).map fun s => (x, s)) :=
    fun t bs x ht => (canonical_scratchWrite ht).map fun _ hr => hr
  unfold State.scratchRmw
  grind [IfOk, canonical_hostRmw]

theorem canonical_accElem {w uid slot k} (h : s.memCanonical) : (accElem w uid slot k s).2.memCanonical := by
  unfold accElem
  grind [canonical_draw]

theorem canonical_accRead {w uid slot off n a} (h : s.memCanonical) :
    IfOk (·.2.memCanonical) (accRead w uid slot off n a s) := by
  unfold accRead
  dsimp only
  split
  · trivial
  · exact List.foldlRecOn (motive := fun (r : List Byte × State) => r.2.memCanonical) _ _ h
      fun _ hr _ _ => canonical_accElem hr

theorem canonical_launchPkt {p ue} (h : s.memCanonical) : (s.launchPkt p ue).memCanonical := h

theorem canonical_queued {slack late} (h : s.memCanonical) : (s.queued slack late).2.memCanonical := by
  unfold State.queued
  grind [canonical_draw]

theorem canonical_sendFab {x} (h : s.memCanonical) : (s.sendFab x).2.memCanonical := by
  unfold State.sendFab
  grind [State.memCanonical, canonical_queued, canonical_countTraffic, canonical_launchPkt]

theorem canonical_fabAccess {wk w f x va strand a q} (h : s.memCanonical) :
    (fabAccess wk w f s x va strand a q).memCanonical := by
  unfold fabAccess
  grind [AccRes.memCanonical, Res.memCanonical, canonical_acquire, canonical_sendFab]

theorem canonical_refreshStash {core k off n} (h : s.memCanonical) : (s.refreshStash core k off n).memCanonical := by
  unfold State.refreshStash
  grind [canonical_refresh]

theorem canonical_faultFill {k off t} (h : s.memCanonical) : (s.faultFill k off t).memCanonical := by
  unfold State.faultFill
  grind [canonical_faultWalk]

theorem canonical_bufferGlob {w f who va a q} (h : s.memCanonical) : (s.bufferGlob w f who va a q).memCanonical := by
  unfold State.bufferGlob
  grind [IfOk, AccRes.memCanonical, Res.memCanonical, canonical_storePa, canonical_faultWalk]

theorem canonical_bufferScratch {f who k o a q} (h : s.memCanonical) :
    (s.bufferScratch f who k o a q).memCanonical := by
  unfold State.bufferScratch
  grind [IfOk, AccRes.memCanonical, Res.memCanonical, canonical_stashLine, canonical_faultFill]

theorem canonical_scratchAccess {w f who k o a q later} (h : s.memCanonical) :
    (scratchAccess w f s who k o a q later).memCanonical := by
  unfold scratchAccess
  grind [IfOk, AccRes.memCanonical, Res.memCanonical, canonical_scratchRead, canonical_faultFill,
    canonical_refreshStash, canonical_acquire, canonical_bufferScratch, canonical_scratchWrite, canonical_afterStore,
    canonical_scratchRmw]

theorem canonical_globAccess {w f who va a q later} (h : s.memCanonical) :
    (globAccess w f s who va a q later).memCanonical := by
  unfold globAccess
  grind [IfOk, AccRes.memCanonical, Res.memCanonical, canonical_globLoads, canonical_faultWalk, canonical_acquire,
    canonical_bufferGlob, canonical_globStore, canonical_globRmw]

theorem canonical_synced {r : AccRes} {w p q} (hr : r.memCanonical) : (r.synced w p q).memCanonical := by
  unfold AccRes.synced
  grind [AccRes.memCanonical, Res.memCanonical, canonical_syncAt]

theorem canonical_access {wk w strand f a q} (h : s.memCanonical) : (access wk w strand f s a q).memCanonical := by
  unfold access
  grind [IfOk, AccRes.memCanonical, Res.memCanonical, canonical_flush, canonical_fabAccess, canonical_accRead,
    canonical_synced, canonical_scratchAccess, canonical_globAccess]

theorem canonical_aliased {r : AccRes} {old a q} (hr : r.memCanonical) : (r.aliased old a q).memCanonical := by
  unfold AccRes.aliased
  grind [AccRes.memCanonical, Res.memCanonical]

theorem canonical_memLoop {wk w old addr req deliver} : ∀ {l n m}, m.memCanonical →
    (memLoop wk w old addr req deliver l n m).1.memCanonical
  | [], _, _, h => h
  | i :: l, n, m, h => by
    have ih := @canonical_memLoop wk w old addr req deliver l (n + 1)
    have hacc : ((access wk w i m.f m.s (addr i n) (req i n)).aliased old (addr i n) (req i n)).memCanonical :=
      canonical_aliased (canonical_access h)
    unfold memLoop
    split
    · exact ih h
    · split
      · next ht => rw [ht] at hacc; exact hacc
      · next ht => rw [ht] at hacc; exact hacc
      · next ht => rw [ht] at hacc; exact ih hacc

theorem canonical_memEnd {r : MemLoop × Option Stop} {old ld st} (hr : r.1.memCanonical) :
    (memEnd old ld st r).memCanonical := by
  unfold memEnd
  grind [MemLoop.memCanonical, Res.memCanonical]

theorem canonical_laneMem {u b a ld st req deliver} (h : s.memCanonical) :
    Out.memCanonical (laneMem u b a ld st req deliver s) := by
  unfold laneMem
  grind [MemLoop.memCanonical, Res.memCanonical, canonical_word, canonical_memEnd, canonical_memLoop]

theorem canonical_laneLoad {o nc} (h : s.memCanonical) : Out.memCanonical (laneLoad o nc s) := canonical_laneMem h

theorem canonical_laneStore {o nc} (h : s.memCanonical) : Out.memCanonical (laneStore o nc s) := canonical_laneMem h

theorem canonical_execLLdAcq {o} (h : s.memCanonical) : Out.memCanonical (execLLdAcq o s) := canonical_laneMem h

theorem canonical_execLStRel {o} (h : s.memCanonical) : Out.memCanonical (execLStRel o s) := canonical_laneMem h

theorem canonical_laneAtom {o aop} (h : s.memCanonical) : Out.memCanonical (laneAtom o aop s) := canonical_laneMem h

theorem canonical_ratomWord {sc g d b aop} (h : s.memCanonical) : Out.memCanonical (ratomWord sc g d b aop s) := by
  unfold ratomWord
  grind [AccRes.memCanonical, Res.memCanonical, canonical_word, canonical_access]

theorem canonical_prefetch {w a} (h : s.memCanonical) : (prefetch w a s).memCanonical := by
  unfold prefetch
  grind [IfOk, canonical_translate, canonical_faultWalk, canonical_l1Fill, canonical_fillRead]

theorem canonical_pfLoop {w addr} : ∀ {l n} {s : State}, s.memCanonical → (pfLoop w addr l n s).1.memCanonical
  | [], _, _, h => h
  | _ :: l, n, _, h => by
    have ih := @canonical_pfLoop w addr l (n + 1)
    unfold pfLoop
    grind [canonical_prefetch]

theorem canonical_execLPf {o} (h : s.memCanonical) : Out.memCanonical (execLPf o s) := by
  unfold execLPf
  grind [Res.memCanonical, canonical_word, canonical_pfLoop]

theorem canonical_uniMem {u ld st addr req deliver} (h : s.memCanonical) :
    Out.memCanonical (uniMem u ld st addr req deliver s) := by
  unfold uniMem
  grind [AccRes.memCanonical, Res.memCanonical, canonical_word, canonical_access]

theorem canonical_uniAtom {o aop} (h : s.memCanonical) : Out.memCanonical (uniAtom o aop s) := canonical_uniMem h

theorem canonical_releaseLine {c line} (h : s.memCanonical) : (s.releaseLine c line).memCanonical := by
  unfold State.releaseLine
  grind [canonical_putCore]

theorem canonical_stashLineCtl {r : Bool × State} {wk drop off} (hr : r.2.memCanonical) :
    (stashLineCtl wk drop off r).2.memCanonical := by
  unfold stashLineCtl
  grind [canonical_recall]

theorem canonical_globalLineCtl {r : Bool × State} {core ten drop va} (hr : r.2.memCanonical) :
    (globalLineCtl core ten drop va r).2.memCanonical := by
  unfold globalLineCtl
  grind [canonical_afterWalk, canonical_recall, canonical_releaseLine]

theorem canonical_dropRange {core ten va n} (h : s.memCanonical) : (s.dropRange core ten va n).memCanonical :=
  canonical_putCore h

theorem canonical_rangeCtl {o drop} (h : s.memCanonical) : Out.memCanonical (rangeCtl o drop s) := by
  unfold rangeCtl
  refine canonical_word (fun wk w _ f t ht => ?_) h
  have hstash : ∀ l : List Nat, (l.foldl (fun r off => stashLineCtl wk drop off r) (false, t)).2.memCanonical :=
    fun l => List.foldlRecOn (motive := fun (r : Bool × State) => r.2.memCanonical) _ _ ht
      fun _ hr _ _ => canonical_stashLineCtl hr
  have hglob : ∀ l : List Nat,
      (l.foldl (fun r va => globalLineCtl w.core w.tenant drop va r) (false, t)).2.memCanonical :=
    fun l => List.foldlRecOn (motive := fun (r : Bool × State) => r.2.memCanonical) _ _ ht
      fun _ hr _ _ => canonical_globalLineCtl hr
  grind [Res.memCanonical, canonical_dropRange]

theorem canonical_execSmap {o} (h : s.memCanonical) : Out.memCanonical (execSmap o s) := by
  unfold execSmap
  grind [Res.memCanonical, canonical_word, canonical_updWg]

theorem canonical_unmapLine {wk filled off} (h : s.memCanonical) : (unmapLine wk filled s off).memCanonical := by
  unfold unmapLine
  grind [canonical_updWg, canonical_writeBack, canonical_freeBytes]

theorem canonical_execSunmap {o} (h : s.memCanonical) : Out.memCanonical (execSunmap o s) := by
  unfold execSunmap
  grind [Res.memCanonical, canonical_word, canonical_unmapLine, canonical_updWg, canonical_foldl]

theorem canonical_execLazyStashWriteBack {wk off} (h : s.memCanonical) :
    Out.memCanonical (execLazyStashWriteBack wk off s) := by
  unfold execLazyStashWriteBack
  grind [Out.memCanonical, canonical_writeBack]

theorem canonical_cwait {o k} (h : s.memCanonical) : Out.memCanonical (cwait o k s) := by
  unfold cwait
  grind [Res.memCanonical, canonical_word]

theorem canonical_execCwaitEng {o} (h : s.memCanonical) : Out.memCanonical (execCwaitEng o s) := by
  unfold execCwaitEng
  grind [Res.memCanonical, canonical_word, canonical_updWg]

theorem canonical_lateAccs {slack} : ∀ {l} {s : State}, s.memCanonical → (lateAccs slack l s).2.memCanonical
  | [], _, h => h
  | _ :: l, _, h => canonical_lateAccs (l := l) (canonical_draw (f := Config.queueTicks) h)

theorem canonical_performOne {wk core f p} (h : s.memCanonical) : (s.performOne wk core f p).memCanonical := by
  unfold State.performOne
  grind [canonical_perform, canonical_updWg]

theorem canonical_readAgain {core x k} (h : s.memCanonical) : IfSome (·.2.memCanonical) (s.readAgain core x k) := by
  unfold State.readAgain
  split
  · split
    · trivial
    · exact canonical_physRead _ _ _ _ h
  · exact (canonical_scratchRead h).toOption

theorem canonical_loadAgain {wk core f x} (h : s.memCanonical) : (s.loadAgain wk core f x).memCanonical := by
  unfold State.loadAgain
  grind [IfSome, canonical_draw, canonical_readAgain, canonical_updWg]

theorem canonical_mergedWith {core ten x} (h : s.memCanonical) : (s.mergedWith core ten x).2.memCanonical := by
  unfold State.mergedWith
  grind [canonical_draw]

theorem canonical_complete {wk w f x} (h : s.memCanonical) : (s.complete wk w f x).memCanonical := by
  unfold State.complete
  grind [canonical_mergedWith, canonical_lateAccs, canonical_putFibre]

theorem canonical_execAccessCompletion {wk fid} (h : s.memCanonical) :
    Out.memCanonical (execAccessCompletion wk fid s) := by
  unfold execAccessCompletion
  grind [Out.memCanonical, canonical_draw, canonical_updWg, canonical_performOne, canonical_loadAgain,
    canonical_complete]

theorem canonical_execLateTrap {wk fid} (h : s.memCanonical) : Out.memCanonical (execLateTrap wk fid s) := by
  unfold execLateTrap
  grind [Out.memCanonical, canonical_raise]

/-! ## Barriers, tickets, queues, watches and tokens (08, 09) -/

theorem canonical_objRead {w p n coherent a} (h : s.memCanonical) :
    IfOk (·.2.memCanonical) (objRead s w p n coherent a) := by
  unfold objRead
  split
  · exact canonical_scratchRead h
  · exact (canonical_globLoad h).map fun _ hr => hr
  · trivial

theorem canonical_objWrite {w p bs a} (h : s.memCanonical) : IfOk (·.memCanonical) (objWrite s w p bs a) := by
  unfold objWrite
  grind [IfOk, canonical_scratchWrite, canonical_storePa, canonical_physWrite]

theorem canonical_placeFaulted {w p t} (h : s.memCanonical) : (s.placeFaulted w p t).memCanonical := by
  unfold State.placeFaulted
  grind [canonical_faultWalk, canonical_faultFill]

theorem canonical_reach {f : Fibre} {core x n write} (h : s.memCanonical) :
    (f.reach core x n write s).2.memCanonical := by
  unfold Fibre.reach
  grind [canonical_perform]

theorem canonical_noteBar {x isOpen} (h : s.memCanonical) : (s.noteBar x isOpen).memCanonical := by
  unfold State.noteBar
  grind [State.memCanonical]

theorem canonical_noteFlip {x old new} (h : s.memCanonical) : (s.noteFlip x old new).memCanonical := by
  unfold State.noteFlip
  grind [State.memCanonical]

theorem canonical_dropFlip {x} (h : s.memCanonical) : (s.dropFlip x).memCanonical := h

theorem canonical_barSum {x bs n flags} (h : s.memCanonical) : (s.barSum x bs n flags).2.memCanonical := by
  unfold State.barSum
  grind [canonical_freeBytes]

theorem canonical_noteSum {x bs} (h : s.memCanonical) : (s.noteSum x bs).memCanonical := by
  unfold State.noteSum
  grind [canonical_noteBar]

theorem canonical_barrierAdd {wk w p a n flags} (h : s.memCanonical) :
    EitherWay (·.2.memCanonical) (·.memCanonical) (s.barrierAdd wk w p a n flags) := by
  unfold State.barrierAdd
  grind [IfOk, EitherWay, canonical_objRead, canonical_placeFaulted, canonical_barSum, canonical_objWrite,
    canonical_noteFlip, canonical_noteSum]

theorem canonical_arm {key pa mask operand cond who} (h : s.memCanonical) :
    (s.arm key pa mask operand cond who).memCanonical := canonical_setWatches h

theorem canonical_barWait {wk f b} (h : s.memCanonical) : (barWait wk f b s).memCanonical := by
  unfold barWait
  grind [Res.memCanonical, canonical_updWg]

theorem canonical_execBarArrive {o} (h : s.memCanonical) : Out.memCanonical (execBarArrive o s) := by
  unfold execBarArrive
  grind [Res.memCanonical, canonical_word, canonical_putWg]

theorem canonical_execBarWait {o} (h : s.memCanonical) : Out.memCanonical (execBarWait o s) := by
  unfold execBarWait
  grind [Res.memCanonical, canonical_word, canonical_barWait]

theorem canonical_execBarSync {o} (h : s.memCanonical) : Out.memCanonical (execBarSync o s) := by
  unfold execBarSync
  grind [Res.memCanonical, canonical_word, canonical_barWait, canonical_putWg]

theorem canonical_wakeKnot {launch entry} (h : s.memCanonical) : (s.wakeKnot launch entry).memCanonical :=
  canonical_setWgs h

theorem canonical_settleKnot {launch entry} (h : s.memCanonical) : (s.settleKnot launch entry).memCanonical := by
  unfold State.settleKnot
  grind [canonical_wakeKnot, canonical_putLaunch]

theorem canonical_knotArrive {wk uid w k e x} (h : s.memCanonical) :
    IfOk (·.memCanonical) (knotArrive s wk uid w k e x) := by
  unfold knotArrive
  grind [IfOk, canonical_updWg, canonical_syncAt, canonical_updLaunch, canonical_settleKnot]

theorem canonical_knotWait {wk f k} (h : s.memCanonical) : (knotWait wk f k s).memCanonical := by
  unfold knotWait
  grind [Res.memCanonical, canonical_acquire, canonical_syncAt]

theorem canonical_knotWord {o arrive wait} (h : s.memCanonical) : Out.memCanonical (knotWord o arrive wait s) := by
  unfold knotWord
  grind [IfOk, Res.memCanonical, canonical_word, canonical_knotWait, canonical_knotArrive]

theorem canonical_execQbind {o} (h : s.memCanonical) : Out.memCanonical (execQbind o s) := by
  unfold execQbind
  grind [Res.memCanonical, canonical_word, canonical_updQueue]

theorem canonical_execQgive {o} (h : s.memCanonical) : Out.memCanonical (execQgive o s) := by
  unfold execQgive
  grind [Res.memCanonical, canonical_word, canonical_requestSlots, canonical_pushPort]

theorem canonical_execQtry {o} (h : s.memCanonical) : Out.memCanonical (execQtry o s) := by
  unfold execQtry
  grind [Res.memCanonical, canonical_word, canonical_popQueue]

theorem canonical_unbind {w p} (h : s.memCanonical) : (s.unbind w p).memCanonical := by
  unfold State.unbind
  grind [canonical_updQueue]

theorem canonical_execQclose {o} (h : s.memCanonical) : Out.memCanonical (execQclose o s) := by
  unfold execQclose
  grind [Res.memCanonical, canonical_word, canonical_unbind]

theorem canonical_viaWindow {wk w f align a q} (h : s.memCanonical) :
    IfSome (·.memCanonical) (viaWindow wk w f s align a q) := by
  unfold viaWindow
  grind [IfSome, canonical_fabAccess]

theorem canonical_andThen {r : AccRes} {go : Fibre → State → List Byte → List Nat → Bool → Res} (hr : r.memCanonical)
    (hgo : ∀ a t b c d, t.memCanonical → (go a t b c d).memCanonical) :
    (r.andThen go).memCanonical := by
  unfold AccRes.andThen
  grind [AccRes.memCanonical, Res.memCanonical]

theorem canonical_tkCheck {wk w a write clash} (h : s.memCanonical) :
    EitherWay (·.2.memCanonical) (·.2.2.memCanonical) (tkCheck s wk w a write clash) := by
  unfold tkCheck
  grind [IfOk, EitherWay, canonical_objRead, canonical_placeFaulted]

theorem canonical_tkSync {wk w uid pass a} (h : s.memCanonical) : (s.tkSync wk w uid pass a).memCanonical := by
  unfold State.tkSync
  grind [canonical_syncAt]

theorem canonical_execTkwait {o} (h : s.memCanonical) : Out.memCanonical (execTkwait o s) := by
  unfold execTkwait
  grind [EitherWay, Res.memCanonical, canonical_word, canonical_reach, canonical_tkCheck, canonical_updWg,
    canonical_acquire, canonical_tkSync]

theorem canonical_Lingering_advance {x : Lingering} (h : s.memCanonical) : (x.advance s).memCanonical := by
  unfold Lingering.advance
  cases x.key with
  | none => exact canonical_agentPutOr h
  | some k => exact IfSome.getD (canonical_scratchWrite h).toOption h

theorem canonical_passClaims : ∀ {n} {s : State}, s.memCanonical → (passClaims n s).memCanonical
  | 0, _, h => h
  | n + 1, s, h => by
    unfold passClaims
    split
    · exact h
    · exact canonical_passClaims (n := n) (canonical_Lingering_advance h)

theorem canonical_State_passClaims (h : s.memCanonical) : s.passClaims.memCanonical := canonical_passClaims h

theorem canonical_execTkpass {o} (h : s.memCanonical) : Out.memCanonical (execTkpass o s) := by
  unfold execTkpass
  grind [IfOk, EitherWay, Res.memCanonical, canonical_word, canonical_tkCheck, canonical_objWrite,
    canonical_placeFaulted, canonical_State_passClaims, canonical_updWg, canonical_tkSync]

theorem canonical_execTkpoll {o} (h : s.memCanonical) : Out.memCanonical (execTkpoll o s) := by
  unfold execTkpoll
  grind [EitherWay, Res.memCanonical, canonical_word, canonical_reach, canonical_tkCheck, canonical_updWg,
    canonical_acquire, canonical_tkSync]

theorem canonical_objLoad {w f p n a} (h : s.memCanonical) : IfOk (·.2.memCanonical) (objLoad s w f p n a) := by
  unfold objLoad
  split
  · exact (canonical_scratchRead h).map fun _ hr => hr
  · exact (canonical_globLoad h).map fun _ hr => hr
  · trivial

theorem canonical_readRecord {wk w f a} (h : s.memCanonical) :
    EitherWay (·.2.memCanonical) (·.2.memCanonical) (readRecord s wk w f a) := by
  unfold readRecord
  split
  · exact h
  · refine EitherWay.overParts (fun x b hb => ?_) h
    grind [EitherWay, IfOk, canonical_objLoad, canonical_placeFaulted]

theorem canonical_watchedPa {w a} (h : s.memCanonical) :
    EitherWay (·.2.memCanonical) (·.2.memCanonical) (watchedPa s w a) := by
  unfold watchedPa
  grind [IfOk, EitherWay, canonical_translate, canonical_faultWalk]

theorem canonical_armWith {o wk w a f bs tags late} (h : s.memCanonical) :
    (armWith o wk w a f s bs tags late).memCanonical := by
  unfold armWith
  grind [EitherWay, Res.memCanonical, canonical_watchedPa, canonical_reach, canonical_arm]

theorem canonical_execWatchArm {o} (h : s.memCanonical) : Out.memCanonical (execWatchArm o s) := by
  unfold execWatchArm
  grind [IfSome, EitherWay, Res.memCanonical, canonical_word, canonical_viaWindow, canonical_andThen,
    canonical_armWith, canonical_readRecord]

theorem canonical_execWwait {o} (h : s.memCanonical) : Out.memCanonical (execWwait o s) := by
  unfold execWwait
  grind [Res.memCanonical, canonical_word, canonical_acquire, canonical_setWatches]

theorem canonical_execDisarm {o} (h : s.memCanonical) : Out.memCanonical (execDisarm o s) := by
  unfold execDisarm
  grind [Res.memCanonical, canonical_word, canonical_setWatches]

theorem canonical_passToken {wk w count} (h : s.memCanonical) : (s.passToken wk w count).memCanonical := by
  unfold State.passToken
  grind [canonical_updWg, canonical_updLaunch]

theorem canonical_execTokpass {o} (h : s.memCanonical) : Out.memCanonical (execTokpass o s) := by
  unfold execTokpass
  grind [Res.memCanonical, canonical_word, canonical_passToken]

theorem canonical_execTokq {o} (h : s.memCanonical) : Out.memCanonical (execTokq o s) := by
  unfold execTokq
  grind [Res.memCanonical, canonical_word]

theorem canonical_execTrig {o} (h : s.memCanonical) : Out.memCanonical (execTrig o s) := by
  unfold execTrig
  grind [Res.memCanonical, canonical_word, canonical_updLaunch, canonical_updWg]

theorem canonical_bcWord {u a slept write far act}
    (hact : ∀ wk w f (t : State) p x, t.memCanonical → Res.memCanonical (act wk w f t p x)) (h : s.memCanonical) :
    Out.memCanonical (bcWord u a slept write far act s) := by
  unfold bcWord
  refine canonical_word (fun wk w _ f t ht => ?_) h
  have hfar : IfSome (·.2.memCanonical)
      (far.bind fun e => (viaWindow wk w f t 16 (f.getS64 a.toNat) (e.acc f)).map fun r => (e, r)) := by
    cases far with
    | none => trivial
    | some e => exact (canonical_viaWindow ht).map fun _ hr => hr
  dsimp only
  split
  · exact ht
  · split
    · next hr =>
      rw [hr] at hfar
      exact canonical_andThen hfar fun _ _ _ _ _ hs => hs
    · split
      · exact ht
      · exact hact _ _ _ _ _ _ (canonical_reach ht)

theorem canonical_execBcinit {o} (h : s.memCanonical) : Out.memCanonical (execBcinit o s) := by
  unfold execBcinit
  grind [IfOk, Res.memCanonical, canonical_bcWord, canonical_objWrite, canonical_placeFaulted, canonical_dropFlip,
    canonical_noteBar]

theorem canonical_execBcwait {o} (h : s.memCanonical) : Out.memCanonical (execBcwait o s) := by
  unfold execBcwait
  grind [IfOk, Res.memCanonical, canonical_bcWord, canonical_objRead, canonical_placeFaulted, canonical_acquire,
    canonical_updWg]

theorem canonical_execBcadd {o} (h : s.memCanonical) : Out.memCanonical (execBcadd o s) := by
  unfold execBcadd
  grind [EitherWay, Res.memCanonical, canonical_bcWord, canonical_barrierAdd]

theorem canonical_execBcphase {o} (h : s.memCanonical) : Out.memCanonical (execBcphase o s) := by
  unfold execBcphase
  grind [Res.memCanonical, canonical_word, canonical_andThen, canonical_access]

/-! ## Reads and writes of the engines, and the matrix engine (11, 12) -/

theorem canonical_blockGlob {core ten va n q a} (h : s.memCanonical) :
    IfOk (·.2.memCanonical) (blockGlob core ten va n q a s) := by
  unfold blockGlob
  refine IfOk.overParts (fun x b hb => ?_) h
  grind [IfOk, canonical_globLoad]

theorem canonical_blockRead {wk w f a n} (h : s.memCanonical) : (blockRead wk w f s a n).memCanonical := by
  unfold blockRead
  grind [IfOk, AccRes.memCanonical, Res.memCanonical, canonical_scratchRead, canonical_faultFill,
    canonical_blockGlob, canonical_faultWalk, canonical_fabAccess]

theorem canonical_endTarget {wk w win align n a} (h : s.memCanonical) :
    EitherWay (·.2.memCanonical) (·.memCanonical) (endTarget s wk w win align n a) := by
  unfold endTarget
  split
  · exact h
  · split
    · exact h
    · split <;> exact h
    · refine EitherWay.overParts (fun x t ht => ?_) h
      grind [EitherWay, IfOk, canonical_translate, canonical_faultWalk]
    · exact h

theorem canonical_engScratch {wk off n a} (h : s.memCanonical) :
    IfOk (·.2.memCanonical) (s.engScratch wk off n a) := by
  unfold State.engScratch
  grind [IfOk, canonical_stashLine, canonical_freeBytes, canonical_faultFill]

theorem canonical_engGlob {w va n a} (h : s.memCanonical) : IfOk (·.2.memCanonical) (s.engGlob w va n a) := by
  unfold State.engGlob
  grind [IfOk, canonical_translate, canonical_physRead]

theorem canonical_observed {w p x n} (h : s.memCanonical) : (s.observed w p x n).memCanonical := by
  unfold State.observed
  grind [canonical_drainOver]

theorem canonical_engFaulted {w p x t} (h : s.memCanonical) : (s.engFaulted w p x t).memCanonical := by
  unfold State.engFaulted
  grind [canonical_faultFill, canonical_faultWalk]

theorem canonical_engRead {w p n a} (h : s.memCanonical) : (s.engRead w p n a).2.1.memCanonical := by
  unfold State.engRead
  refine List.foldlRecOn (motive := fun (r : List MByte × State × Option Trap) => r.2.1.memCanonical) _ _ h
    fun r hr x _ => ?_
  have hs : (r.2.1.observed w p x.1 x.2).memCanonical := canonical_observed hr
  grind [IfOk, canonical_engScratch, canonical_engGlob, canonical_engFaulted]

theorem canonical_scratchPoison {wk off n} (h : s.memCanonical) : (s.scratchPoison wk off n).memCanonical := by
  unfold State.scratchPoison
  grind [State.memCanonical, canonical_putWg]

theorem canonical_markScratch {wk off bs} (h : s.memCanonical) : (s.markScratch wk off bs).memCanonical := by
  unfold State.markScratch
  grind [canonical_scratchPoison]

theorem canonical_engPut {w data p x bs a} (h : s.memCanonical) :
    IfOk (·.memCanonical) (s.engPut w data p x bs a) := by
  unfold State.engPut
  grind [IfOk, canonical_scratchWrite, canonical_markScratch, canonical_afterStore, canonical_translate,
    canonical_physWrite, canonical_poisonAt]

theorem canonical_engWrite {w data p bs a} (h : s.memCanonical) : (s.engWrite w data p bs a).2.1.memCanonical := by
  unfold State.engWrite
  refine List.foldlRecOn (motive := fun (r : Nat × State × Option Trap) => r.2.1.memCanonical) _ _ h
    fun r hr x _ => ?_
  have hs : (r.2.1.observed w p x.1 x.2).memCanonical := canonical_observed hr
  grind [IfOk, canonical_engPut, canonical_engFaulted]

theorem canonical_engStore {wk w data a bs} (h : s.memCanonical) :
    EitherWay (·.2.memCanonical) (·.memCanonical) (s.engStore wk w data a bs) := by
  unfold State.engStore
  grind [EitherWay, canonical_engWrite]

theorem canonical_engAdd {wk w a n flags} (h : s.memCanonical) :
    EitherWay (·.2.memCanonical) (·.memCanonical) (s.engAdd wk w a n flags) := by
  unfold State.engAdd
  grind [EitherWay, canonical_engRead, canonical_barSum, canonical_engStore, canonical_noteFlip, canonical_noteSum]

theorem canonical_engineRecord {own kind chan t impr} (h : s.memCanonical) :
    (s.engineRecord own kind chan t impr).memCanonical := by
  unfold State.engineRecord
  grind [canonical_draw, canonical_writeRecord]

theorem canonical_preceded {own i} (h : s.memCanonical) : (s.preceded own i).memCanonical := by
  unfold State.preceded
  grind [canonical_perform, canonical_putFibre]

theorem canonical_engoDone {own} (h : s.memCanonical) : (s.engoDone own).memCanonical := by
  unfold State.engoDone
  grind [canonical_putFibre]

theorem canonical_deliverS {own d x} (h : s.memCanonical) : (s.deliverS own d x).memCanonical := by
  unfold State.deliverS
  grind [canonical_updWg, canonical_putFibre]

theorem canonical_cmdLate {slack t} (h : s.memCanonical) : (s.cmdLate slack t).2.memCanonical := by
  unfold State.cmdLate
  grind [canonical_draw]

theorem canonical_mmaCheck {wk w x c a} (h : s.memCanonical) :
    EitherWay (·.2.memCanonical) (·.memCanonical) (mmaCheck s wk w x c a) := by
  unfold mmaCheck
  grind [EitherWay, canonical_endTarget]

theorem canonical_enqueueM {wk f op slack} (h : s.memCanonical) : (s.enqueueM wk f op slack).memCanonical :=
  canonical_updWg h

theorem canonical_execMma {o} (h : s.memCanonical) : Out.memCanonical (execMma o s) := by
  unfold execMma
  grind [EitherWay, AccRes.memCanonical, Res.memCanonical, canonical_word, canonical_blockRead, canonical_mmaCheck,
    canonical_enqueueM, canonical_updWg]

theorem canonical_execMswap {o} (h : s.memCanonical) : Out.memCanonical (execMswap o s) := by
  unfold execMswap
  grind [Res.memCanonical, canonical_word, canonical_enqueueM]

theorem canonical_execMclr {o} (h : s.memCanonical) : Out.memCanonical (execMclr o s) := by
  unfold execMclr
  grind [Res.memCanonical, canonical_word, canonical_updWg, canonical_enqueueM]

theorem canonical_execMflag {o} (h : s.memCanonical) : Out.memCanonical (execMflag o s) := by
  unfold execMflag
  grind [Res.memCanonical, canonical_word, canonical_enqueueM]

theorem canonical_readElem {wk w o force l k} (h : s.memCanonical) :
    EitherWay (·.2.memCanonical) (·.2.memCanonical) (readElem s wk w o force l k) := by
  unfold readElem
  grind [EitherWay, canonical_engRead]

theorem canonical_readLine {wk w o force n} : ∀ {l} {s : State}, s.memCanonical →
    EitherWay (·.2.memCanonical) (·.2.memCanonical) (readLine wk w o force n l s)
  | [], _, h => h
  | k :: l, s, h => by
    have ih := @canonical_readLine wk w o force n l
    unfold readLine
    grind [EitherWay, canonical_readElem]

theorem canonical_readLines {wk w o force ks} : ∀ {l} {s : State}, s.memCanonical →
    EitherWay (·.2.memCanonical) (·.2.memCanonical) (readLines wk w o force ks l s)
  | [], _, h => h
  | k :: l, s, h => by
    have ih := @canonical_readLines wk w o force ks l
    unfold readLines
    grind [EitherWay, canonical_readLine]

theorem canonical_elemRun {int sat} : ∀ {as bs c fl psn} {s : State}, s.memCanonical →
    (elemRun int sat as bs c fl psn s).2.2.2.memCanonical
  | [], _, _, _, _, _, h => h
  | _ :: _, [], _, _, _, _, h => h
  | a :: as, b :: bs, c, fl, psn, s, h => by
    unfold elemRun
    split
    · exact canonical_elemRun (as := as) (bs := bs) h
    · exact canonical_elemRun (as := as) (bs := bs) h

theorem canonical_runTile {c as bs b} (h : s.memCanonical) : (runTile c as bs b s).2.2.memCanonical := by
  unfold runTile
  exact List.foldlRecOn (motive := fun (r : Bank × Bool × State) => r.2.2.memCanonical) _ _ h
    fun _ hr _ _ => canonical_elemRun hr

theorem canonical_runSteps {wk w c k0 k1 force} (h : s.memCanonical) :
    EitherWay (·.2.memCanonical) (·.2.memCanonical) (runSteps s wk w c k0 k1 force) := by
  unfold runSteps
  grind [EitherWay, canonical_readLines, canonical_runTile, canonical_updWg]

theorem canonical_setHead {wk c} (h : s.memCanonical) : (s.setHead wk c).memCanonical := canonical_updWg h

theorem canonical_popHead {wk} (h : s.memCanonical) : (s.popHead wk).memCanonical := canonical_updWg h

theorem canonical_setRun {core r} (h : s.memCanonical) : (s.setRun core r).memCanonical := canonical_putCore h

theorem canonical_startHead {wk w c} (h : s.memCanonical) : (s.startHead wk w c).memCanonical := by
  unfold State.startHead
  grind [canonical_setRun, canonical_setHead, canonical_cmdLate, canonical_preceded, canonical_updWg,
    canonical_popHead, canonical_putFibre, canonical_engoDone, canonical_deliverS, canonical_putWg]

theorem canonical_mRound {core bids won} (h : s.memCanonical) : (s.mRound core bids won).memCanonical := by
  unfold State.mRound
  grind [canonical_putCore, canonical_updWg, canonical_foldl]

theorem canonical_execMmaStart {wk} (h : s.memCanonical) : Out.memCanonical (execMmaStart wk s) := by
  unfold execMmaStart
  grind [Out.memCanonical, canonical_startHead, canonical_mRound]

theorem canonical_stallQueue {wk core c t} (h : s.memCanonical) : (s.stallQueue wk core c t).memCanonical := by
  unfold State.stallQueue
  grind [canonical_engineRecord, canonical_setRun, canonical_setHead]

theorem canonical_execMmaGranule {wk} (h : s.memCanonical) : Out.memCanonical (execMmaGranule wk s) := by
  unfold execMmaGranule
  grind [EitherWay, Out.memCanonical, canonical_runSteps, canonical_stallQueue, canonical_setRun, canonical_setHead]

theorem canonical_retireM {wk core c m} (h : s.memCanonical) : (s.retireM wk core c m).memCanonical := by
  unfold State.retireM
  grind [canonical_engoDone, canonical_setRun, canonical_updWg, canonical_popHead]

theorem canonical_completeM {wk w c m} (h : s.memCanonical) : (s.completeM wk w c m).memCanonical := by
  unfold State.completeM
  grind [EitherWay, canonical_retireM, canonical_engineRecord, canonical_engAdd, canonical_stallQueue]

theorem canonical_execMmaCompletion {wk} (h : s.memCanonical) : Out.memCanonical (execMmaCompletion wk s) := by
  unfold execMmaCompletion
  grind [EitherWay, Out.memCanonical, canonical_runSteps, canonical_stallQueue, canonical_completeM,
    canonical_setHead]

theorem canonical_endCheck {wk w win align n a} (h : s.memCanonical) :
    EitherWay (·.2.memCanonical) (·.memCanonical) (endCheck s wk w win align n a) := by
  unfold endCheck
  grind [EitherWay, canonical_endTarget]

theorem canonical_copyCheck {wk w x slk bar crec needRec a} (h : s.memCanonical) :
    EitherWay (·.2.memCanonical) (·.memCanonical) (copyCheck s wk w x slk bar crec needRec a) := by
  unfold copyCheck
  grind [EitherWay, canonical_endCheck]

theorem canonical_enqueueC {w chan c} (h : s.memCanonical) : (s.enqueueC w chan c).memCanonical := by
  unfold State.enqueueC
  grind [canonical_updWg, canonical_putCore]

theorem canonical_copyWord {u p chan slot mk} (h : s.memCanonical) :
    Out.memCanonical (copyWord u p chan slot mk s) := by
  unfold copyWord
  grind [EitherWay, AccRes.memCanonical, Res.memCanonical, canonical_word, canonical_blockRead, canonical_copyCheck,
    canonical_enqueueC]

theorem canonical_execCpy {o} (h : s.memCanonical) : Out.memCanonical (execCpy o s) := canonical_copyWord h

theorem canonical_execCpyMc {o} (h : s.memCanonical) : Out.memCanonical (execCpyMc o s) := canonical_copyWord h

theorem canonical_execCpyr {o} (h : s.memCanonical) : Out.memCanonical (execCpyr o s) := canonical_copyWord h

theorem canonical_execGath {o} (h : s.memCanonical) : Out.memCanonical (execGath o s) := canonical_copyWord h

theorem canonical_execQdual {o} (h : s.memCanonical) : Out.memCanonical (execQdual o s) := canonical_copyWord h

theorem canonical_execLdrain {o} (h : s.memCanonical) : Out.memCanonical (execLdrain o s) := canonical_copyWord h

/-! ## Page descriptors and Caddy (13) -/

theorem canonical_setDesc {die i d} (h : s.memCanonical) : (s.setDesc die i d).memCanonical := h

theorem canonical_holdPage {die i up} (h : s.memCanonical) : (s.holdPage die i up).memCanonical := by
  unfold State.holdPage
  grind [canonical_setDesc]

theorem canonical_updCaddy {die g} (h : s.memCanonical) : (s.updCaddy die g).memCanonical := h

theorem canonical_takeFrame {used n free} (h : s.memCanonical) :
    IfSome (·.2.memCanonical) (s.takeFrame used n free) := by
  unfold State.takeFrame
  grind [IfSome, canonical_draw]

theorem canonical_takeHbm {die} (h : s.memCanonical) : IfSome (·.2.memCanonical) (s.takeHbm die) :=
  canonical_takeFrame h

theorem canonical_takeLp {die} (h : s.memCanonical) : IfSome (·.2.memCanonical) (s.takeLp die) := by
  unfold State.takeLp
  grind [canonical_takeFrame]

theorem canonical_newPage {die ten model tier pinned moving} (h : s.memCanonical) :
    IfSome (·.2.memCanonical) (s.newPage die ten model tier pinned moving) := by
  unfold State.newPage
  grind [IfSome, canonical_takeHbm, canonical_takeLp, canonical_updCaddy]

theorem canonical_stirPage {die i} (h : s.memCanonical) : (s.stirPage die i).memCanonical := by
  unfold State.stirPage
  grind [canonical_agentWalk, canonical_freeBytes, canonical_physWrite, canonical_foldl]

theorem canonical_allocPage {die ten model tier pinned} (h : s.memCanonical) :
    IfSome (·.2.memCanonical) (s.allocPage die ten model tier pinned) :=
  (canonical_newPage h).map fun _ hr => canonical_stirPage hr

theorem canonical_updDesc {die i g} (h : s.memCanonical) : (s.updDesc die i g).memCanonical := by
  unfold State.updDesc
  grind [canonical_setDesc]

theorem canonical_wakeModels (h : s.memCanonical) : s.wakeModels.memCanonical := h

theorem canonical_sweepPages {die} (h : s.memCanonical) : (s.sweepPages die).memCanonical := by
  unfold State.sweepPages
  grind [canonical_wakeModels, canonical_updCaddy]

theorem canonical_caddyRead {ten va n} (h : s.memCanonical) :
    EitherWay (·.2.memCanonical) (·.2.memCanonical) (s.caddyRead ten va n) := by
  unfold State.caddyRead
  refine EitherWay.overParts (fun x a ha => ?_) h
  split
  · exact canonical_agentWalk ha
  · dsimp only [EitherWay]
    exact canonical_physRead _ _ _ _ (canonical_afterAgent ha)

theorem canonical_caddyWrite {ten va bs} (h : s.memCanonical) :
    EitherWay (·.2.memCanonical) (·.memCanonical) (s.caddyWrite ten va bs) := by
  unfold State.caddyWrite
  refine EitherWay.map (p := (·.2.memCanonical)) (EitherWay.overParts (fun x a ha => ?_) h) fun _ hr => hr
  split
  · exact canonical_agentWalk ha
  · have hw := canonical_physWrite _ none ‹Nat› ((a.1.take x.2).map (·.1))
      (canonical_afterAgent (ten := ten) (va := x.1) (n := x.2) ha)
    dsimp only
    split
    · exact canonical_poisonAt hw
    · exact hw

theorem canonical_pageWrite {ten va bs} (h : s.memCanonical) :
    EitherWay (·.2.memCanonical) (·.memCanonical) (s.pageWrite ten va bs) :=
  (canonical_caddyWrite h).map fun _ hr => canonical_stirVa hr

theorem canonical_copyFrame {ten src dst n} (h : s.memCanonical) :
    EitherWay (·.2.memCanonical) (·.memCanonical) (s.copyFrame ten src dst n) := by
  unfold State.copyFrame
  grind [EitherWay, canonical_caddyRead, canonical_pageWrite]

theorem canonical_pageResult {o res status} (h : s.memCanonical) : (s.pageResult o res status).memCanonical := by
  unfold State.pageResult
  grind [canonical_deliverS]

theorem canonical_pageDone {o res status} (h : s.memCanonical) : (s.pageDone o res status).memCanonical := by
  unfold State.pageDone
  grind [canonical_pageResult, canonical_engoDone]

theorem canonical_startMove {die page k o} (h : s.memCanonical) : (s.startMove die page k o).memCanonical :=
  canonical_updCaddy h

theorem canonical_cowEntry {o} (h : s.memCanonical) : (cowEntry s o).2.memCanonical := by
  unfold cowEntry
  grind [EitherWay, canonical_endTarget, canonical_engRead]

theorem canonical_cowStore {o id} (h : s.memCanonical) : (cowStore s o id).memCanonical := by
  unfold cowStore
  grind [canonical_eitherState, canonical_engStore]

theorem canonical_cowGo {die page o x} (h : s.memCanonical) : (cowGo s die page o x).memCanonical := by
  unfold cowGo
  grind [canonical_pageDone, canonical_updDesc, canonical_cowStore, canonical_startMove, canonical_pageResult]

theorem canonical_serveCow {die page d o} (h : s.memCanonical) :
    IfSome (·.memCanonical) (serveCow s die page d o) := by
  have hentry : (cowEntry s o).2.memCanonical := canonical_cowEntry h
  unfold serveCow
  split
  · next s1 hs => rw [hs] at hentry; exact canonical_pageDone hentry
  · next e s1 hs =>
    rw [hs] at hentry
    have hnew : IfSome (·.2.memCanonical) (s1.newPage die d.ten d.model 0 false true) := canonical_newPage hentry
    have hextra : IfSome (·.2.memCanonical)
        ((s1.newPage die d.ten d.model 0 false true).map fun r => (some r.1, r.2)) := hnew.map fun _ hr => hr
    grind [IfSome, canonical_pageDone, canonical_cowGo, canonical_takeHbm, canonical_updDesc, canonical_startMove]

theorem canonical_serveEvict {die page d o} (h : s.memCanonical) :
    IfSome (·.memCanonical) (serveEvict s die page d o) := by
  unfold serveEvict
  grind [IfSome, canonical_pageDone, canonical_updDesc, canonical_startMove, canonical_pageResult, canonical_takeLp]

theorem canonical_servePromote {die page d o} (h : s.memCanonical) :
    IfSome (·.memCanonical) (servePromote s die page d o) := by
  unfold servePromote
  grind [IfSome, canonical_pageDone, canonical_takeHbm, canonical_updDesc, canonical_startMove, canonical_pageResult]

theorem canonical_serveSend {die page d o} (h : s.memCanonical) :
    IfSome (·.memCanonical) (serveSend s die page d o) := by
  unfold serveSend
  grind [IfSome, canonical_draw, canonical_pageDone, canonical_startMove, canonical_updDesc]

theorem canonical_serveOp {die o} (h : s.memCanonical) : IfSome (·.memCanonical) (serveOp s die o) := by
  unfold serveOp
  grind [IfSome, canonical_allocPage, canonical_pageDone, canonical_updDesc, canonical_serveCow,
    canonical_serveEvict, canonical_servePromote, canonical_serveSend]

theorem canonical_leaves {o : CaddyOp} (h : s.memCanonical) : (o.leaves s).2.memCanonical := by
  unfold CaddyOp.leaves
  grind [canonical_cmdLate]

theorem canonical_serveList {die} : ∀ {l shut} {s : State}, s.memCanonical → (serveList die l shut s).2.memCanonical
  | [], _, _, h => h
  | o :: l, shut, s, h => by
    have ih := @canonical_serveList die l
    have hserve : IfSome (·.memCanonical) (serveOp (o.leaves s).2 die (o.leaves s).1) :=
      canonical_serveOp (canonical_leaves h)
    have hleft : (o.leaves s).2.memCanonical := canonical_leaves h
    unfold serveList
    grind [IfSome]

theorem canonical_pumpOne {die m} (h : s.memCanonical) : IfSome (·.2.memCanonical) (pumpOne s die m) := by
  have hsend : ∀ x, (s.sendFab x).2.memCanonical := fun _ => canonical_sendFab h
  unfold pumpOne
  split
  · trivial
  · next d _ =>
    dsimp only
    split
    · trivial
    · split
      · grind [IfSome]
      · have hread : ∀ va n, EitherWay (·.2.memCanonical) (·.2.memCanonical) (s.caddyRead d.ten va n) :=
          fun _ _ => canonical_caddyRead h
        split
        · trivial
        · split
          · split
            · grind [IfSome, EitherWay, canonical_engineRecord]
            · grind [IfSome, EitherWay, canonical_sendFab]
          · trivial
      · trivial

theorem canonical_pumpMove {die} : ∀ {n m} {s : State}, s.memCanonical → (pumpMove die n m s).2.memCanonical
  | 0, _, _, h => h
  | n + 1, m, s, h => by
    have ih := @canonical_pumpMove die n
    have hone : IfSome (·.2.memCanonical) (pumpOne s die m) := canonical_pumpOne h
    unfold pumpMove
    grind [IfSome]

theorem canonical_pumpMoves {die} : ∀ {l} {s : State}, s.memCanonical → (pumpMoves die l s).2.memCanonical
  | [], _, h => h
  | _ :: l, _, h => canonical_pumpMoves (l := l) (canonical_pumpMove h)

theorem canonical_pumpRels {die} : ∀ {l} {s : State}, s.memCanonical → (pumpRels die l s).2.memCanonical
  | [], _, h => h
  | _ :: l, s, h => by
    have ih := @canonical_pumpRels die l
    unfold pumpRels
    grind [canonical_sendFab]

theorem canonical_roomSince {old : State} {die} (h : s.memCanonical) : (s.roomSince old die).memCanonical := by
  unfold State.roomSince
  grind [canonical_wakeModels]

theorem canonical_freeSlots (h : s.memCanonical) : s.freeSlots.memCanonical := by
  unfold State.freeSlots
  grind [State.memCanonical, canonical_wakeModels]

theorem canonical_serveCaddy {die} (h : s.memCanonical) : (s.serveCaddy die).memCanonical := by
  unfold State.serveCaddy
  grind [canonical_serveList, canonical_sweepPages, canonical_updCaddy, canonical_pumpMoves, canonical_pumpRels,
    canonical_freeSlots, canonical_roomSince]

theorem canonical_submitPage {die o} (h : s.memCanonical) : (s.submitPage die o).memCanonical := by
  unfold State.submitPage
  grind [canonical_serveCaddy, canonical_updCaddy]

theorem canonical_unrefPage {ten id slack late slot} (h : s.memCanonical) :
    (s.unrefPage ten id slack late slot).memCanonical := canonical_submitPage h

theorem canonical_evictPage {die i d} (h : s.memCanonical) : IfSome (·.memCanonical) (evictPage s die i d) := by
  unfold evictPage
  split
  · exact canonical_updDesc h
  · dsimp only
    split
    · exact canonical_startMove (canonical_updDesc h)
    · exact (canonical_takeLp h).map fun _ hr => canonical_startMove (canonical_updDesc hr)

theorem canonical_evictSome {die} : ∀ {n} {s : State}, s.memCanonical → (evictSome die n s).memCanonical
  | 0, _, h => h
  | n + 1, s, h => by
    have ih := @canonical_evictSome die n
    unfold evictSome
    grind [IfSome, canonical_evictPage]

theorem canonical_autoEvict {die} (h : s.memCanonical) : (s.autoEvict die).memCanonical := by
  unfold State.autoEvict
  grind [canonical_evictSome]

/-! ## Commands of the copy engines (13) -/

theorem canonical_faulted {c t} (h : s.memCanonical) : (faulted c s t).memCanonical := by
  unfold faulted
  grind [Run1.memCanonical]

theorem canonical_wpAdd {c n} (h : s.memCanonical) : (wpAdd c s n).memCanonical := canonical_updWg h

theorem canonical_advance {c n} (h : s.memCanonical) : (advance c s n).memCanonical := by
  unfold advance
  grind [Run1.memCanonical, canonical_wpAdd]

theorem canonical_sendEng {c x strand} (h : s.memCanonical) : (sendEng c s x strand).memCanonical := by
  unfold sendEng
  grind [Run1.memCanonical, canonical_sendFab]

theorem canonical_readReply {c fw n a} (h : s.memCanonical) :
    EitherWay (·.memCanonical) (·.2.2.memCanonical) (readReply c s fw n a) := by
  unfold readReply
  grind [EitherWay, Run1.memCanonical, canonical_freeBytes]

theorem canonical_engFetch {c w a n} (h : s.memCanonical) :
    EitherWay (·.memCanonical) (·.2.2.1.memCanonical) (engFetch c s w a n) := by
  unfold engFetch
  grind [EitherWay, canonical_sendEng, canonical_readReply, canonical_engRead]

theorem canonical_engDeliver {c w a bs} (h : s.memCanonical) : (engDeliver c s w a bs).memCanonical := by
  unfold engDeliver
  grind [Run1.memCanonical, canonical_sendEng, canonical_engWrite, canonical_advance, canonical_faulted]

theorem canonical_writeReply {c fw n a} (h : s.memCanonical) : (writeReply c s fw n a).memCanonical := by
  unfold writeReply
  grind [Run1.memCanonical, canonical_advance]

theorem canonical_freeWhere {g} : ∀ {n l} {s : State}, s.memCanonical → (freeWhere g n l s).2.memCanonical
  | _, [], _, h => h
  | n, b :: l, s, h => by
    refine canonical_freeWhere (n := n + 1) (l := l) ?_
    split
    · exact canonical_draw (f := Config.freeByte) h
    · exact h

theorem canonical_drainRead {c w slot k} (h : s.memCanonical) : (drainRead c w slot k s).2.memCanonical := by
  unfold drainRead
  grind [canonical_draw, canonical_accElem]

theorem canonical_drainBytes {c w x} : ∀ {k n} {s : State}, s.memCanonical → (drainBytes c w x k n s).2.2.memCanonical
  | _, 0, _, h => h
  | _, n + 1, _, h => canonical_drainBytes (n := n) (canonical_drainRead h)

theorem canonical_drainFlags {c w slot} (h : s.memCanonical) : (drainFlags c w slot s).2.memCanonical :=
  canonical_updWg h

theorem canonical_cpySource {c w x so d n} (h : s.memCanonical) :
    EitherWay (·.memCanonical) (·.2.2.1.memCanonical) (cpySource c s w x so d n) := by
  unfold cpySource
  grind [EitherWay, canonical_engFetch, canonical_drainFlags, canonical_drainBytes]

theorem canonical_spoil {x : CpyParm} {c w base d bs} (h : s.memCanonical) :
    (x.spoil c w base d bs s).2.memCanonical :=
  canonical_freeWhere h

theorem canonical_mcDeliver {w x d bs} : ∀ {ms got c} {s : State}, s.memCanonical →
    (mcDeliver w x d bs ms got c s).2.1.memCanonical
  | [], _, _, _, h => h
  | (m, g) :: ms, got, c, s, h => by
    have ih := @canonical_mcDeliver w x d bs ms
    have hsent : ∀ p b a, ((x.spoil c w (peerAddr m (x.dst.toNat % 2 ^ 32)) (d + g) (bs.drop g) s).2.engWrite w true
      p b
        a).2.1.memCanonical := fun _ _ _ => canonical_engWrite (canonical_spoil h)
    unfold mcDeliver
    dsimp only
    split
    · exact hsent _ _ _
    · exact ih (hsent _ _ _)

theorem canonical_mcStep {c w x d bs ms} (h : s.memCanonical) : (mcStep c s w x d bs ms).memCanonical := by
  unfold mcStep
  grind [Run1.memCanonical, canonical_mcDeliver, canonical_wpAdd, canonical_faulted]

theorem canonical_cpyDeliver {c w x d bs} (h : s.memCanonical) : (cpyDeliver c s w x d bs).memCanonical := by
  unfold cpyDeliver
  grind [canonical_advance, canonical_updWg, canonical_mcStep, canonical_spoil, canonical_engDeliver]

theorem canonical_cpyStep {x n c} (h : s.memCanonical) : (cpyStep x n c s).memCanonical := by
  unfold cpyStep
  grind [EitherWay, Run1.memCanonical, canonical_drainFlags, canonical_writeReply, canonical_cpySource,
    canonical_cpyDeliver, canonical_faulted]

theorem canonical_dropHold {c} (h : s.memCanonical) : (dropHold c s).2.memCanonical := by
  unfold dropHold
  grind [canonical_serveCaddy, canonical_holdPage]

theorem canonical_gathOpen {c w bt t model pt} (h : s.memCanonical) :
    EitherWay (·.memCanonical) (·.2.memCanonical) (gathOpen c s w bt t model pt) := by
  unfold gathOpen
  grind [EitherWay, Run1.memCanonical, canonical_engFetch, canonical_faulted, canonical_holdPage]

theorem canonical_gathClose {c die i} (h : s.memCanonical) : (gathClose c s die i).2.memCanonical := by
  unfold gathClose
  grind [canonical_setDesc, canonical_dropHold]

theorem canonical_gathBytes {c w die d m o n a} (h : s.memCanonical) :
    EitherWay (·.memCanonical) (·.2.2.1.memCanonical) (gathBytes c s w die d m o n a) := by
  unfold gathBytes
  grind [EitherWay, canonical_sendEng, canonical_readReply, canonical_engRead]

theorem canonical_gathStep {layer parts bt t0 nt kdst vdst dstr model n c} (h : s.memCanonical) :
    (gathStep layer parts bt t0 nt kdst vdst dstr model n c s).memCanonical := by
  unfold gathStep
  split
  · next w m _ _ =>
    dsimp only
    by_cases hrows : nt * (if parts = 3 then 2 else 1) * m.rb ≤ c.done
    · rw [if_pos hrows]
      exact h
    · rw [if_neg hrows]
      have hopen : ∀ t pt, EitherWay (·.memCanonical) (·.2.memCanonical) (gathOpen c s w bt t model pt) :=
        fun _ _ => canonical_gathOpen h
      split
      · next r he =>
        split at he
        · cases he
        · exact (congrArg (EitherWay _ _) he).mp (hopen _ _)
      · next c1 s1 ho =>
        have h1 : s1.memCanonical := by
          split at ho
          · cases ho
            exact h
          · exact (congrArg (EitherWay _ _) ho).mp (hopen _ _)
        grind [EitherWay, Run1.memCanonical, canonical_gathBytes, canonical_engDeliver, canonical_faulted,
          canonical_gathClose]
  · exact h

theorem canonical_qdRead {x n c w} (h : s.memCanonical) : (qdRead x n c s w).memCanonical := by
  unfold qdRead
  grind [EitherWay, Run1.memCanonical, canonical_engFetch, canonical_faulted]

theorem canonical_qdWrite {x w} : ∀ {l n c} {s : State}, s.memCanonical → (qdWrite x w l n c s).memCanonical
  | [], _, _, _, h => h
  | (row, scale, off, bs) :: l, n, c, s, h => by
    have ih := @canonical_qdWrite x w l
    have hfree : ∀ g k y, (freeWhere g k y s).2.memCanonical := fun _ _ _ => canonical_freeWhere h
    unfold qdWrite
    grind [Run1.memCanonical, canonical_advance, canonical_updWg, canonical_engDeliver]

theorem canonical_qdualStep {x n c} (h : s.memCanonical) : (qdualStep x n c s).memCanonical := by
  unfold qdualStep
  grind [Run1.memCanonical, canonical_qdRead, canonical_qdWrite]

theorem canonical_ldrainRows {c w x} : ∀ {n r d fl} {s : State}, s.memCanonical →
    (ldrainRows c w x n r d fl s).2.2.memCanonical
  | 0, _, _, _, _, h => h
  | n + 1, _, _, _, _, h => canonical_ldrainRows (n := n) (canonical_drainRead h)

theorem canonical_ldrainStart {c w x} (h : s.memCanonical) :
    EitherWay (·.memCanonical) (·.2.2.2.2.memCanonical) (ldrainStart c w x s) := by
  unfold ldrainStart
  grind [EitherWay, canonical_engFetch, canonical_faulted]

theorem canonical_ldrainStep {x c} (h : s.memCanonical) : (ldrainStep x c s).memCanonical := by
  unfold ldrainStep
  grind [EitherWay, Run1.memCanonical, canonical_ldrainStart, canonical_drainFlags, canonical_ldrainRows]

theorem canonical_CCmd_step {c : CCmd} {n} (h : s.memCanonical) : (c.step n s).memCanonical := by
  unfold CCmd.step
  split
  · exact canonical_cpyStep h
  · exact canonical_gathStep h
  · exact canonical_qdualStep h
  · exact canonical_ldrainStep h
  · grind [EitherWay, Run1.memCanonical, canonical_engFetch, canonical_faulted]

theorem canonical_runTo {limit} : ∀ {n c} {s : State}, s.memCanonical → (runTo limit n c s).memCanonical
  | 0, _, _, h => h
  | n + 1, c, s, h => by
    have ih := @canonical_runTo limit n
    have hstep : ∀ k, (c.step k s).memCanonical := fun _ => canonical_CCmd_step h
    unfold runTo
    grind [Run1.memCanonical]

theorem canonical_begin {c : CCmd} (h : s.memCanonical) : (c.begin s).2.memCanonical := by
  unfold CCmd.begin
  grind [canonical_cmdLate, canonical_preceded]

theorem canonical_recorded {c : CCmd} (h : s.memCanonical) : (c.recorded s).memCanonical := by
  unfold CCmd.recorded
  grind [Run1.memCanonical, canonical_advance]

theorem canonical_unrecorded {c : CCmd} {t} (h : s.memCanonical) : (c.unrecorded s t).memCanonical := by
  unfold CCmd.unrecorded
  grind [Run1.memCanonical, canonical_engineRecord]

theorem canonical_writeRec {c w} (h : s.memCanonical) : (writeRec c s w).memCanonical := by
  unfold writeRec
  grind [EitherWay, Run1.memCanonical, canonical_unrecorded, canonical_sendEng, canonical_recorded,
    canonical_engStore]

theorem canonical_addBar {c w} (h : s.memCanonical) : (addBar c s w).memCanonical := by
  unfold addBar
  grind [EitherWay, Run1.memCanonical, canonical_engineRecord, canonical_engAdd]

theorem canonical_finish {c} (h : s.memCanonical) : (finish c s).memCanonical := by
  unfold finish
  grind [Run1.memCanonical, canonical_writeRec, canonical_addBar]

theorem canonical_runEnd {c} (h : s.memCanonical) : (runEnd c s).memCanonical := by
  unfold runEnd
  grind [Run1.memCanonical, canonical_begin, canonical_runTo, canonical_dropHold, canonical_finish]

theorem canonical_runGranule {c} (h : s.memCanonical) : (runGranule c s).memCanonical := by
  unfold runGranule
  grind [Run1.memCanonical, canonical_begin, canonical_runTo]

theorem canonical_cpyrElems {w rop dst} :
    ∀ {n c} {s : State}, s.memCanonical → (cpyrElems w rop dst n c s).memCanonical
  | 0, _, _, h => h
  | n + 1, c, s, h => by
    have ih := @canonical_cpyrElems w rop dst n
    have hread : ∀ p a, (s.engRead w p 4 a).2.1.memCanonical := fun _ _ => canonical_engRead h
    unfold cpyrElems
    grind [Run1.memCanonical, canonical_engDeliver, canonical_faulted]

theorem canonical_cpyrRun {c w rop dst len seq seqw cur} (h : s.memCanonical) :
    (cpyrRun c s w rop dst len seq seqw cur).memCanonical := by
  unfold cpyrRun
  grind [EitherWay, Run1.memCanonical, canonical_cpyrElems, canonical_engStore, canonical_faulted]

theorem canonical_sliceRun {c w} (h : s.memCanonical) : (sliceRun c s w).memCanonical := by
  unfold sliceRun
  grind [Run1.memCanonical, canonical_engRead, canonical_faulted, canonical_cpyrRun, canonical_finish]

theorem canonical_setChan {core ch q} (h : s.memCanonical) : (s.setChan core ch q).memCanonical := canonical_putCore h

theorem canonical_setHeadC {core ch c} (h : s.memCanonical) : (s.setHeadC core ch c).memCanonical := by
  unfold State.setHeadC
  grind [canonical_engoDone, canonical_setChan]

theorem canonical_cpyrHome {c} (h : s.memCanonical) :
    EitherWay (·.2.memCanonical) (·.2.memCanonical) (cpyrHome c s) := by
  unfold cpyrHome
  grind [IfOk, EitherWay, canonical_translate, canonical_faultWalk]

theorem canonical_reduceHead {c core ch die} (h : s.memCanonical) :
    ((reduceHead c s core ch die).1.memCanonical ∧ (reduceHead c s core ch die).2.memCanonical) := by
  unfold reduceHead
  grind [State.memCanonical, Run1.memCanonical, canonical_sliceRun, canonical_setHeadC, canonical_setChan]

theorem canonical_runHead {c core ch} (h : s.memCanonical) :
    ((runHead c s core ch).1.memCanonical ∧ (runHead c s core ch).2.memCanonical) := by
  unfold runHead
  grind [EitherWay, State.memCanonical, Run1.memCanonical, canonical_begin, canonical_runTo, canonical_runEnd,
    canonical_setHeadC, canonical_cpyrHome, canonical_faulted, canonical_reduceHead]

theorem canonical_headRun {c core ch} (h : s.memCanonical) : (headRun c s core ch).memCanonical := by
  unfold headRun
  grind [canonical_runGranule, canonical_runHead]

theorem canonical_cRound {core n bids won} (h : s.memCanonical) : (s.cRound core n bids won).memCanonical := by
  unfold State.cRound
  grind [canonical_putCore, canonical_setChan, canonical_foldl]

theorem canonical_granted {core ch} (h : s.memCanonical) : IfSome (·.2.memCanonical) (s.granted core ch) := by
  unfold State.granted
  dsimp only
  split
  · trivial
  · split
    · cases s.goes core ch with
      | none => trivial
      | some c => exact canonical_cRound h
    · trivial

theorem canonical_execCopyGranule {core ch} (h : s.memCanonical) : Out.memCanonical (execCopyGranule core ch s) := by
  unfold execCopyGranule
  grind [IfSome, Out.memCanonical, Run1.memCanonical, canonical_granted, canonical_runGranule, canonical_setHeadC]

theorem canonical_execCopyCommandEnd {core ch} (h : s.memCanonical) :
    Out.memCanonical (execCopyCommandEnd core ch s) := by
  unfold execCopyCommandEnd
  grind [IfSome, Out.memCanonical, Run1.memCanonical, canonical_granted, canonical_runGranule, canonical_runEnd,
    canonical_setHeadC, canonical_runHead]

theorem canonical_stallChannel {core ch c t} (h : s.memCanonical) : (s.stallChannel core ch c t).memCanonical := by
  unfold State.stallChannel
  grind [canonical_engineRecord, canonical_setHeadC]

theorem canonical_execEngineTranslationStall {core ch} (h : s.memCanonical) :
    Out.memCanonical (execEngineTranslationStall core ch s) := by
  unfold execEngineTranslationStall
  grind [IfSome, Out.memCanonical, Run1.memCanonical, canonical_granted, canonical_runGranule, canonical_runEnd,
    canonical_runHead, canonical_stallChannel]

theorem canonical_execCpyrApply {n} (h : s.memCanonical) : Out.memCanonical (execCpyrApply n s) := by
  unfold execCpyrApply
  grind [Out.memCanonical, State.memCanonical, Run1.memCanonical, canonical_sliceRun, canonical_engoDone,
    canonical_engineRecord]

theorem canonical_pgopWord {o op} (h : s.memCanonical) : Out.memCanonical (pgopWord o op s) := by
  unfold pgopWord
  refine canonical_word (fun wk w _ f t ht => ?_) h
  have hblock : ∀ a, (blockRead wk w f t a 32).memCanonical := fun _ => canonical_blockRead ht
  grind [Res.memCanonical, AccRes.memCanonical, EitherWay, canonical_endCheck, canonical_putFibre,
    canonical_submitPage]

theorem canonical_pullData {ten va} : ∀ {l} {s : State}, s.memCanonical →
    EitherWay (·.2.memCanonical) (·.memCanonical) (pullData ten va l s)
  | [], _, h => h
  | (i, b) :: l, s, h => by
    have ih := @canonical_pullData ten va l
    unfold pullData
    grind [EitherWay, canonical_pageWrite]

theorem canonical_moveData {die m d} (h : s.memCanonical) :
    EitherWay (·.2.memCanonical) (·.memCanonical) (moveData s die m d) := by
  unfold moveData
  grind [EitherWay, canonical_copyFrame, canonical_pullData]

theorem canonical_moveDesc {die m} (h : s.memCanonical) : (moveDesc s die m).memCanonical := by
  unfold moveDesc
  grind [canonical_holdPage, canonical_updDesc, canonical_updCaddy]

theorem canonical_setMove {die n m} (h : s.memCanonical) : (s.setMove die n m).memCanonical := canonical_updCaddy h

theorem canonical_stallMove {die n m t} (h : s.memCanonical) : (s.stallMove die n m t).memCanonical := by
  unfold State.stallMove
  grind [canonical_setMove, canonical_engineRecord]

theorem canonical_lostMove {m t} (h : s.memCanonical) : (s.lostMove m t).memCanonical := by
  unfold State.lostMove
  grind [canonical_engineRecord]

theorem canonical_moveBar {m} (h : s.memCanonical) : EitherWay (·.2.memCanonical) (·.memCanonical) (moveBar s m) := by
  unfold moveBar
  grind [EitherWay, canonical_engAdd]

theorem canonical_endMove {die n m} (h : s.memCanonical) : (endMove s die n m).memCanonical := by
  unfold endMove
  grind [EitherWay, canonical_setMove, canonical_serveCaddy, canonical_engoDone, canonical_lostMove,
    canonical_moveBar, canonical_stallMove]

theorem canonical_afterData {die n m} (h : s.memCanonical) : (afterData s die n m).memCanonical := by
  unfold afterData
  grind [canonical_moveDesc, canonical_setMove, canonical_serveCaddy, canonical_cowGo, canonical_endMove,
    canonical_pageResult]

theorem canonical_failMove {die n m status} (h : s.memCanonical) : (failMove s die n m status).memCanonical := by
  unfold failMove
  grind [canonical_setMove, canonical_updDesc, canonical_updCaddy, canonical_serveCaddy, canonical_pageDone]

theorem canonical_moveDone {die n} (h : s.memCanonical) : (s.moveDone die n).memCanonical := by
  unfold State.moveDone
  grind [EitherWay, canonical_endMove, canonical_failMove, canonical_serveCaddy, canonical_setMove,
    canonical_afterData, canonical_moveData, canonical_stallMove, canonical_lostMove]

theorem canonical_execCaddyDataMoveDone {die n} (h : s.memCanonical) :
    Out.memCanonical (execCaddyDataMoveDone die n s) := by
  unfold execCaddyDataMoveDone
  grind [Out.memCanonical, canonical_roomSince, canonical_moveDone]

theorem canonical_finishEvictions {die} : ∀ {n} {s : State}, s.memCanonical → (finishEvictions die n s).memCanonical
  | 0, _, h => h
  | n + 1, s, h => by
    unfold finishEvictions
    split
    · exact h
    · exact canonical_finishEvictions (n := n) (canonical_roomSince (canonical_moveDone h))

theorem canonical_pageBytesIn {die page tag bs} (h : s.memCanonical) :
    (s.pageBytesIn die page tag bs).memCanonical := by
  unfold State.pageBytesIn
  grind [canonical_serveCaddy, canonical_setMove]

theorem canonical_pageAck {die page tag id} (h : s.memCanonical) : (s.pageAck die page tag id).memCanonical := by
  unfold State.pageAck
  grind [canonical_roomSince, canonical_failMove, canonical_updDesc, canonical_endMove, canonical_setMove,
    canonical_pageResult, canonical_serveCaddy]

theorem canonical_pageErr {die page tag} (h : s.memCanonical) : (s.pageErr die page tag).memCanonical := by
  unfold State.pageErr
  grind [canonical_roomSince, canonical_failMove, canonical_serveCaddy]

theorem canonical_execAutomaticEviction {die} (h : s.memCanonical) :
    Out.memCanonical (execAutomaticEviction die s) := by
  unfold execAutomaticEviction
  grind [Out.memCanonical, canonical_roomSince, canonical_serveCaddy, canonical_autoEvict]

/-! ## Sequences, launches, placement and the end of launches (14, 17) -/

theorem canonical_loadParts {wk w a c} : ∀ {n k f} {s : State} {acc}, s.memCanonical →
    (loadParts wk w a c n k f s acc).memCanonical
  | 0, _, _, _, _, h => h
  | n + 1, k, f, s, acc, h => by
    have ih := @canonical_loadParts wk w a c n
    have hacc : ∀ b q, (access wk w 0 f s b q).memCanonical := fun _ _ => canonical_access h
    unfold loadParts
    grind [AccRes.memCanonical]

theorem canonical_plainLoad {wk w f spaces align c n a} (h : s.memCanonical) :
    (plainLoad wk w f s spaces align c n a).memCanonical := by
  unfold plainLoad
  grind [AccRes.memCanonical, Res.memCanonical, canonical_fabAccess, canonical_loadParts]

theorem canonical_storeParts {wk w a c} : ∀ {n k bs f} {s : State}, s.memCanonical →
    (storeParts wk w a c n k bs f s).memCanonical
  | 0, _, _, _, _, h => h
  | n + 1, k, bs, f, s, h => by
    have ih := @canonical_storeParts wk w a c n
    have hacc : ∀ b q, (access wk w 0 f s b q).memCanonical := fun _ _ => canonical_access h
    unfold storeParts
    grind [AccRes.memCanonical]

theorem canonical_plainStore {wk w f spaces align c n bs a} (h : s.memCanonical) :
    (plainStore wk w f s spaces align c n bs a).memCanonical := by
  unfold plainStore
  grind [AccRes.memCanonical, Res.memCanonical, canonical_fabAccess, canonical_storeParts]

theorem canonical_watchWord {ten va v who} (h : s.memCanonical) :
    EitherWay (·.memCanonical) (·.memCanonical) (s.watchWord ten va v who) := by
  unfold State.watchWord
  grind [EitherWay, canonical_agentWalk, canonical_arm]

theorem canonical_unwatch {who} (h : s.memCanonical) : (s.unwatch who).memCanonical := canonical_setWatches h

theorem canonical_ringTry {ten ring len e} (h : s.memCanonical) : (ringTry s ten ring len e).2.memCanonical := by
  unfold ringTry
  grind [EitherWay, canonical_agentWord, canonical_agentWrite, canonical_agentPut]

theorem canonical_setSlot {n k} (h : s.memCanonical) : (s.setSlot n k).memCanonical := h

theorem canonical_unrefTable {ten slot} :
    ∀ {bs n} {s : State}, s.memCanonical → (unrefTable ten slot bs n s).memCanonical
  | _, 0, _, h => h
  | bs, n + 1, s, h => by
    refine canonical_unrefTable (bs := bs.drop 4) (n := n) ?_
    split
    · exact h
    · exact canonical_unrefPage h

theorem canonical_freeSlot {n k} (h : s.memCanonical) : (freeSlot s n k).memCanonical := by
  unfold freeSlot
  grind [EitherWay, canonical_unwatch, canonical_agentRead, canonical_emit, canonical_unrefTable,
    canonical_freeSlots, canonical_setSlot]

theorem canonical_waitRoom {n k} (h : s.memCanonical) : (waitRoom s n k).memCanonical := by
  unfold waitRoom
  grind [EitherWay, canonical_unwatch, canonical_agentWord, canonical_setSlot, canonical_watchWord]

theorem canonical_drainSlot {n k} (h : s.memCanonical) : (drainSlot s n k).memCanonical := by
  unfold drainSlot
  grind [canonical_freeSlot, canonical_ringTry, canonical_waitRoom, canonical_emit]

theorem canonical_toDrain {n k final} (h : s.memCanonical) : (toDrain s n k final).memCanonical := by
  unfold toDrain
  grind [canonical_drainSlot, canonical_unwatch]

theorem canonical_unpark {n k} (h : s.memCanonical) : (unpark s n k).memCanonical := by
  unfold unpark
  grind [canonical_ringTry, canonical_waitRoom, canonical_toDrain, canonical_emit, canonical_unwatch,
    canonical_setSlot]

theorem canonical_commitGo {n k t} (h : s.memCanonical) : (commitGo s n k t).memCanonical := by
  unfold commitGo
  grind [Commit.memCanonical, canonical_emit, canonical_ringTry, canonical_toDrain, canonical_setSlot,
    canonical_waitRoom]

theorem canonical_commit {m n t} (h : s.memCanonical) : (commit s m n t).memCanonical := by
  unfold commit
  grind [Commit.memCanonical, canonical_commitGo]

theorem canonical_slotWord {go : KModel → Nat → Fibre → State → Fibre × State} {u x}
    (hgo : ∀ a b c t, t.memCanonical → (go a b c t).2.memCanonical) (h : s.memCanonical) :
    Out.memCanonical (slotWord u x go s) := by
  unfold slotWord
  grind [Res.memCanonical, canonical_word]

theorem canonical_execTokdlv {o} (h : s.memCanonical) : Out.memCanonical (execTokdlv o s) := by
  unfold execTokdlv
  grind [Commit.memCanonical, canonical_slotWord, canonical_commit]

theorem canonical_execSeqstop {o} (h : s.memCanonical) : Out.memCanonical (execSeqstop o s) := by
  unfold execSeqstop
  grind [canonical_slotWord, canonical_setSlot]

theorem canonical_execRepW {o} (h : s.memCanonical) : Out.memCanonical (execRepW o s) := by
  unfold execRepW
  grind [canonical_slotWord, canonical_setSlot]

theorem canonical_execSeqnext {o} (h : s.memCanonical) : Out.memCanonical (execSeqnext o s) := by
  unfold execSeqnext
  grind [AccRes.memCanonical, Res.memCanonical, canonical_word, canonical_plainStore]

theorem canonical_execRng {o} (h : s.memCanonical) : Out.memCanonical (execRng o s) := by
  unfold execRng
  grind [AccRes.memCanonical, Res.memCanonical, canonical_word, canonical_plainLoad]

theorem canonical_execSamp {o} (h : s.memCanonical) : Out.memCanonical (execSamp o s) := by
  unfold execSamp
  grind [AccRes.memCanonical, Res.memCanonical, canonical_word, canonical_plainLoad]

theorem canonical_readCaps {ten knott} : ∀ {l t} {s : State}, s.memCanonical →
    EitherWay (·.memCanonical) (·.2.memCanonical) (readCaps s ten knott l t)
  | [], _, _, h => h
  | k :: l, t, s, h => by
    have ih := @canonical_readCaps ten knott l
    unfold readCaps
    grind [EitherWay, canonical_agentWord]

theorem canonical_cleanRead {ten a n} (h : s.memCanonical) :
    EitherWay (·.memCanonical) (·.2.memCanonical) (s.cleanRead ten a n) := by
  unfold State.cleanRead
  grind [EitherWay, canonical_agentRead]

theorem canonical_readLaunch {q} (h : s.memCanonical) : (readLaunch s q).2.2.memCanonical := by
  unfold readLaunch
  grind [EitherWay, State.memCanonical, canonical_cleanRead, canonical_readCaps]

theorem canonical_writeSignal {ten sig val status} (h : s.memCanonical) :
    (s.writeSignal ten sig val status).memCanonical := by
  unfold State.writeSignal
  grind [EitherWay, canonical_agentWrite, canonical_agentPutOr]

theorem canonical_recordEnd {id status trig} (h : s.memCanonical) : (s.recordEnd id status trig).memCanonical := by
  unfold State.recordEnd
  grind [State.memCanonical]

theorem canonical_accept {q} (h : s.memCanonical) : (s.accept q).2.memCanonical := by
  unfold State.accept
  grind [State.memCanonical, canonical_readLaunch, canonical_writeSignal, canonical_recordEnd]

theorem canonical_failPlan {model slots} (h : s.memCanonical) : (failPlan model slots s).memCanonical := by
  unfold failPlan
  grind [canonical_toDrain, canonical_foldl]

theorem canonical_advanceChunks {model es} (h : s.memCanonical) : (advanceChunks model es s).memCanonical := by
  unfold advanceChunks
  grind [canonical_setSlot, canonical_foldl]

theorem canonical_endIteration {model m} (h : s.memCanonical) : (endIteration s model m).memCanonical := by
  unfold endIteration
  grind [State.memCanonical, canonical_advanceChunks]

theorem canonical_kettleEnded {model id status} (h : s.memCanonical) :
    (kettleEnded s model id status).memCanonical := by
  unfold kettleEnded
  grind [State.memCanonical, canonical_failPlan, canonical_endIteration]

theorem canonical_closeLaunch {id status} (h : s.memCanonical) : (s.closeLaunch id status).memCanonical := by
  unfold State.closeLaunch
  grind [State.memCanonical, canonical_writeSignal, canonical_recordEnd, canonical_kettleEnded]

theorem canonical_cancelDependants : ∀ {n} {s : State}, s.memCanonical → (cancelDependants n s).memCanonical
  | 0, _, h => h
  | n + 1, s, h => by
    unfold cancelDependants
    split
    · exact h
    · exact canonical_cancelDependants (n := n) (canonical_closeLaunch h)

theorem canonical_endLaunch {id status} (h : s.memCanonical) : (s.endLaunch id status).memCanonical := by
  unfold State.endLaunch
  grind [canonical_cancelDependants, canonical_closeLaunch]

theorem canonical_settleLaunch {id} (h : s.memCanonical) : (s.settleLaunch id).memCanonical := by
  unfold State.settleLaunch
  grind [canonical_endLaunch]

theorem canonical_refreshRing {r who} (h : s.memCanonical) : (refreshRing s r who).2.memCanonical := by
  unfold refreshRing
  grind [EitherWay, canonical_unwatch, canonical_watchWord]

theorem canonical_pollRing {r who} (h : s.memCanonical) : (pollRing s r who).2.memCanonical := by
  unfold pollRing
  grind [EitherWay, canonical_agentWord, canonical_watchWord]

theorem canonical_refreshHost (h : s.memCanonical) : s.refreshHost.memCanonical := by
  unfold State.refreshHost
  grind [State.memCanonical, canonical_refreshRing, canonical_foldl]

theorem canonical_execHostLaunchQueueEntry {qid} (h : s.memCanonical) :
    Out.memCanonical (execHostLaunchQueueEntry qid s) := by
  unfold execHostLaunchQueueEntry
  grind [EitherWay, Out.memCanonical, State.memCanonical, canonical_refreshHost, canonical_cleanRead,
    canonical_agentPutOr, canonical_accept]

theorem canonical_execPost {o} (h : s.memCanonical) : Out.memCanonical (execPost o s) := by
  unfold execPost
  grind [Res.memCanonical, canonical_word, canonical_accept]

theorem canonical_setTree {w n t} (h : s.memCanonical) : (s.setTree w n t).memCanonical := canonical_putCore h

theorem canonical_execTset {o} (h : s.memCanonical) : Out.memCanonical (execTset o s) := by
  unfold execTset
  grind [Res.memCanonical, canonical_word, canonical_setTree]

theorem canonical_execTanc {o} (h : s.memCanonical) : Out.memCanonical (execTanc o s) := by
  unfold execTanc
  grind [Res.memCanonical, canonical_word]

theorem canonical_execTdepth {o} (h : s.memCanonical) : Out.memCanonical (execTdepth o s) := by
  unfold execTdepth
  grind [Res.memCanonical, canonical_word]

theorem canonical_execTclr {o} (h : s.memCanonical) : Out.memCanonical (execTclr o s) := by
  unfold execTclr
  grind [Res.memCanonical, canonical_word, canonical_setTree]

theorem canonical_putPlacer {die p} (h : s.memCanonical) : (s.putPlacer die p).memCanonical := h

theorem canonical_setQueue {die qid q} (h : s.memCanonical) : (s.setQueue die qid q).memCanonical :=
  canonical_putPlacer h

theorem canonical_dropReservations {die gone} (h : s.memCanonical) : (s.dropReservations die gone).memCanonical :=
  canonical_putPlacer h

theorem canonical_takeUnit {die c} (h : s.memCanonical) : (s.takeUnit die c).memCanonical := by
  unfold State.takeUnit
  grind [canonical_dropReservations, canonical_setQueue, canonical_putPlacer]

theorem canonical_discardUnits {launch} (h : s.memCanonical) : (s.discardUnits launch).memCanonical := by
  unfold State.discardUnits
  grind [canonical_setQueue, canonical_dropReservations, canonical_foldl]

theorem canonical_startFibres {wk} : ∀ {n k row} {s : State}, s.memCanonical → (startFibres wk n k row s).memCanonical
  | 0, _, _, _, h => h
  | n + 1, k, row, s, h => by
    have ih := @canonical_startFibres wk n
    unfold startFibres
    grind [canonical_addFibre]

theorem canonical_arrive {launch core} (h : s.memCanonical) : (s.arrive launch core).memCanonical := by
  unfold State.arrive
  grind [canonical_updLaunch, canonical_putCore]

theorem canonical_admitMember {id wgid core} (h : s.memCanonical) : (s.admitMember id wgid core).memCanonical := by
  unfold State.admitMember
  grind [State.memCanonical, canonical_acquire, canonical_putWg, canonical_arrive, canonical_startFibres]

theorem canonical_admitUnit {e cores} (h : s.memCanonical) : (s.admitUnit e cores).memCanonical := by
  unfold State.admitUnit
  grind [canonical_admitMember, canonical_foldl]

theorem canonical_unitDie {l u} (h : s.memCanonical) : (s.unitDie l u).2.memCanonical := by
  unfold State.unitDie
  grind [canonical_agentWalk]

theorem canonical_enqueueUnits {id l} (h : s.memCanonical) : (s.enqueueUnits id l).memCanonical := by
  unfold State.enqueueUnits
  grind [canonical_unitDie, canonical_setQueue, canonical_foldl]

theorem canonical_execLaunchDispatch {qid} (h : s.memCanonical) : Out.memCanonical (execLaunchDispatch qid s) := by
  unfold execLaunchDispatch
  grind [Out.memCanonical, State.memCanonical, canonical_endLaunch, canonical_enqueueUnits, canonical_updLaunch]

theorem canonical_freeTrees {wk core} (h : s.memCanonical) : (s.freeTrees wk core).memCanonical := canonical_putCore h

theorem canonical_releaseLines {core} (h : s.memCanonical) : (s.releaseLines core).memCanonical := canonical_putCore h

theorem canonical_leaveClaim {wk w} (h : s.memCanonical) : (s.leaveClaim wk w).memCanonical := by
  unfold State.leaveClaim
  grind [State.memCanonical, canonical_State_passClaims]

theorem canonical_leaveToken {wk w} (h : s.memCanonical) : (s.leaveToken wk w).memCanonical := by
  unfold State.leaveToken
  grind [canonical_passToken, canonical_updLaunch]

theorem canonical_sweepUnit {w} (h : s.memCanonical) : (s.sweepUnit w).memCanonical := by
  unfold State.sweepUnit
  grind [canonical_setWgs]

theorem canonical_restSlice {w} (h : s.memCanonical) : (s.restSlice w).memCanonical := canonical_updLaunch h

theorem canonical_exitWg {wk w} (h : s.memCanonical) : (s.exitWg wk w).memCanonical := by
  unfold State.exitWg
  grind [canonical_releaseLines, canonical_writeBackAll, canonical_leaveClaim, canonical_unbind, canonical_freeTrees,
    canonical_updLaunch, canonical_leaveToken, canonical_settleKnot, canonical_updWg, canonical_settleLaunch,
    canonical_sweepUnit, canonical_restSlice, canonical_foldl]

theorem canonical_execWorkgroupExit {wk} (h : s.memCanonical) : Out.memCanonical (execWorkgroupExit wk s) := by
  unfold execWorkgroupExit
  grind [Out.memCanonical, canonical_exitWg]

theorem canonical_execPlacerRound {die} (h : s.memCanonical) : Out.memCanonical (execPlacerRound die s) := by
  unfold execPlacerRound
  grind [Out.memCanonical, canonical_admitUnit, canonical_takeUnit]

theorem canonical_execHeadReservation {die qid} (h : s.memCanonical) :
    Out.memCanonical (execHeadReservation die qid s) := by
  unfold execHeadReservation
  grind [Out.memCanonical, canonical_putPlacer]

theorem canonical_stopUnits {launch units} (h : s.memCanonical) : (s.stopUnits launch units).memCanonical :=
  canonical_setWgs h

theorem canonical_execTimeSliceExpiry {launch cluster} (h : s.memCanonical) :
    Out.memCanonical (execTimeSliceExpiry launch cluster s) := by
  unfold execTimeSliceExpiry
  grind [Out.memCanonical, canonical_updLaunch, canonical_stopUnits]

/-! ## Kettle, contexts, teardown and cancellation (14, 18) -/

theorem canonical_unqueue {launch unit} (h : s.memCanonical) : (s.unqueue launch unit).memCanonical := by
  unfold State.unqueue
  grind [canonical_setQueue, canonical_dropReservations, canonical_foldl]

theorem canonical_stopLaunch {launch} (h : s.memCanonical) : (s.stopLaunch launch).memCanonical := by
  unfold State.stopLaunch
  grind [canonical_unqueue, canonical_stopWg, canonical_foldl]

theorem canonical_endUnplaced {launch} (h : s.memCanonical) : (s.endUnplaced launch).memCanonical := by
  unfold State.endUnplaced
  grind [canonical_updLaunch, canonical_discardUnits]

theorem canonical_wideTeardown {launch r} (h : s.memCanonical) : (s.wideTeardown launch r).memCanonical := by
  unfold State.wideTeardown
  grind [canonical_endUnplaced, canonical_stopLaunch, canonical_writeRecord]

theorem canonical_cancelLaunch {launch status} (h : s.memCanonical) :
    (s.cancelLaunch launch status).memCanonical := by
  unfold State.cancelLaunch
  grind [canonical_endLaunch, canonical_updLaunch, canonical_settleLaunch, canonical_wideTeardown]

theorem canonical_dropChannels {wk core} (h : s.memCanonical) : (s.dropChannels wk core).memCanonical := by
  unfold State.dropChannels
  grind [canonical_dropHold, canonical_putCore, canonical_foldl]

theorem canonical_dropSlices {wk} (h : s.memCanonical) : (s.dropSlices wk).memCanonical := h

theorem canonical_releaseWg {wk w fatal} (h : s.memCanonical) : (s.releaseWg wk w fatal).memCanonical := by
  unfold State.releaseWg
  grind [State.memCanonical, canonical_dropChannels, canonical_releaseLines, canonical_writeBackAll,
    canonical_freeTrees, canonical_dropSlices, canonical_unbind, canonical_setWatches, canonical_updLaunch,
    canonical_leaveToken, canonical_foldl]

theorem canonical_writeStops {w} : ∀ {l} {s : State}, s.memCanonical → (s.writeStops w l).2.memCanonical
  | [], _, h => h
  | _ :: l, _, h => canonical_writeStops (l := l) (canonical_writeRecord h)

theorem canonical_tearDown {wk} (h : s.memCanonical) : (s.tearDown wk).2.memCanonical := by
  unfold State.tearDown
  grind [canonical_writeStops, canonical_releaseWg]

theorem canonical_tearAll : ∀ {l} {s : State}, s.memCanonical → (tearAll l s).2.memCanonical
  | [], _, h => h
  | _ :: l, _, h => canonical_tearAll (l := l) (canonical_tearDown h)

theorem canonical_execUnitTeardown {wk} (h : s.memCanonical) : Out.memCanonical (execUnitTeardown wk s) := by
  unfold execUnitTeardown
  grind [Out.memCanonical, canonical_tearAll, canonical_unqueue, canonical_setWgs, canonical_wideTeardown,
    canonical_updLaunch, canonical_settleLaunch, canonical_restSlice]

theorem canonical_execWatchdogExpiry {wk} (h : s.memCanonical) : Out.memCanonical (execWatchdogExpiry wk s) := by
  unfold execWatchdogExpiry
  grind [Out.memCanonical, canonical_fatal]

theorem canonical_replayFibre {wk fid} (h : s.memCanonical) : (s.replayFibre wk fid).memCanonical := by
  unfold State.replayFibre
  grind [canonical_putFibre]

theorem canonical_unresolveFibre {wk fid} (h : s.memCanonical) : (s.unresolveFibre wk fid).memCanonical := by
  unfold State.unresolveFibre
  grind [canonical_raise]

theorem canonical_execResolutionLimitExpiry {wk fid} (h : s.memCanonical) :
    Out.memCanonical (execResolutionLimitExpiry wk fid s) := by
  unfold execResolutionLimitExpiry
  grind [Out.memCanonical, canonical_unresolveFibre]

theorem canonical_onStalled {core ch g} (h : s.memCanonical) : (s.onStalled core ch g).memCanonical := by
  unfold State.onStalled
  grind [State.memCanonical, canonical_setChan]

theorem canonical_replay {p} (h : s.memCanonical) : (s.replay p).memCanonical := by
  unfold State.replay
  grind [canonical_replayFibre, canonical_onStalled, canonical_updWg, canonical_serveCaddy, canonical_setMove]

theorem canonical_unresolve {p} (h : s.memCanonical) : (s.unresolve p).memCanonical := by
  unfold State.unresolve
  grind [canonical_unresolveFibre, canonical_onStalled, canonical_updWg, canonical_setMove]

theorem canonical_execSubmissionTailFire {q} (h : s.memCanonical) :
    Out.memCanonical (execSubmissionTailFire q s) := by
  unfold execSubmissionTailFire
  grind [Out.memCanonical, State.memCanonical, canonical_refreshRing]

theorem canonical_headRecord {r} (h : s.memCanonical) :
    EitherWay (·.memCanonical) (·.2.memCanonical) (headRecord s r) := canonical_cleanRead h

theorem canonical_consumed {q r turn} (h : s.memCanonical) : (s.consumed q r turn).memCanonical := by
  unfold State.consumed
  grind [State.memCanonical, canonical_agentPutOr]

theorem canonical_refuse {vf b} (h : s.memCanonical) : (refuse s vf b).memCanonical := by
  unfold refuse
  grind [State.memCanonical, canonical_emit, canonical_ringTry]

theorem canonical_execSubmitRecord {q} (h : s.memCanonical) : Out.memCanonical (execSubmitRecord q s) := by
  unfold execSubmitRecord
  grind [EitherWay, Out.memCanonical, State.memCanonical, canonical_headRecord, canonical_emit, canonical_consumed,
    canonical_refuse, canonical_wakeModels, canonical_setSlot]

theorem canonical_execCancelRecord {q} (h : s.memCanonical) : Out.memCanonical (execCancelRecord q s) := by
  unfold execCancelRecord
  grind [EitherWay, Out.memCanonical, State.memCanonical, canonical_headRecord, canonical_consumed, canonical_emit,
    canonical_wakeModels]

theorem canonical_execConsWatchFire {slot} (h : s.memCanonical) : Out.memCanonical (execConsWatchFire slot s) := by
  unfold execConsWatchFire
  grind [Out.memCanonical, canonical_wakeModels, canonical_setSlot, canonical_unwatch]

theorem canonical_execParkLimit {slot} (h : s.memCanonical) : Out.memCanonical (execParkLimit slot s) := by
  unfold execParkLimit
  grind [Out.memCanonical, canonical_emit, canonical_setSlot]

theorem canonical_pollCons {n k} (h : s.memCanonical) : (pollCons s n k).memCanonical := by
  unfold pollCons
  grind [EitherWay, canonical_wakeModels, canonical_setSlot, canonical_agentWord, canonical_watchWord]

theorem canonical_pollWords (h : s.memCanonical) : s.pollWords.memCanonical := by
  unfold State.pollWords
  grind [State.memCanonical, canonical_pollRing, canonical_pollCons, canonical_foldl]

theorem canonical_execPollTimer (h : s.memCanonical) : Out.memCanonical (execPollTimer s) := by
  unfold execPollTimer
  grind [Out.memCanonical, canonical_pollWords]

theorem canonical_eachSlot {g : State → Nat → KSlot → State} {model} (h : s.memCanonical)
    (hg : ∀ t a b, t.memCanonical → (g t a b).memCanonical) :
    (s.eachSlot model g).memCanonical := by
  unfold State.eachSlot
  grind [canonical_foldl]

theorem canonical_applyEnd {n k} (h : s.memCanonical) : (applyEnd s n k).memCanonical := by
  unfold applyEnd
  grind [canonical_toDrain]

theorem canonical_applyRoom {n k} (h : s.memCanonical) : (applyRoom s n k).memCanonical := by
  unfold applyRoom
  grind [canonical_unpark, canonical_drainSlot]

theorem canonical_takePages {die ten model} :
    ∀ {n} {s : State}, s.memCanonical → (takePages die ten model n s).2.memCanonical
  | 0, _, h => h
  | n + 1, s, h => by
    have ih := @canonical_takePages die ten model n
    unfold takePages
    grind [IfSome, canonical_allocPage]

theorem canonical_admitOne {m pt n k} (h : s.memCanonical) : IfSome (·.memCanonical) (admitOne m pt s n k) := by
  unfold admitOne
  dsimp only
  split
  · trivial
  · generalize bestBy _ _ = die
    cases die with
    | none => trivial
    | some d => exact canonical_setSlot (canonical_agentPutOr (canonical_takePages h))

theorem canonical_admitList {m pt} : ∀ {l} {s : State}, s.memCanonical → (admitList m pt l s).memCanonical
  | [], _, h => h
  | (n, k) :: l, s, h => by
    have ih := @canonical_admitList m pt l
    unfold admitList
    grind [IfSome, canonical_admitOne]

theorem canonical_evictFirst {die} (h : s.memCanonical) : (s.evictFirst die).memCanonical := by
  unfold State.evictFirst
  grind [canonical_serveCaddy, canonical_autoEvict, canonical_finishEvictions]

/-- `fillTable` over any way to make room, so that unfolding it does not evaluate the eviction itself. -/
def fillTableBy (evict : State → Nat → State) (m : KModel) (n : Nat) (k : KSlot) : Nat → Nat → State → Bool × State
  | 0, _, s => (true, s)
  | fuel + 1, e, s =>
    match s.agentWord k.vf (tableAddr m n e) with
    | .error (_, s) => (false, s)
    | .ok (x, s) =>
      if x ≠ 0xFFFFFFFF then fillTableBy evict m n k fuel (e + 1) s
      else
        match (evict s k.home).allocPage k.home k.vf k.model 0 false with
        | none => (false, evict s k.home)
        | some (i, s) =>
          fillTableBy evict m n k fuel (e + 1)
            (s.agentPutOr k.vf (tableAddr m n e) (leBytes 4 (pageId k.home i).toNat) .plain)

theorem fillTable_eq (m : KModel) (n : Nat) (k : KSlot) : fillTable m n k = fillTableBy State.evictFirst m n k := by
  delta fillTable fillTable._f fillTableBy fillTableBy._f
  generalize State.evictFirst = evict
  rfl

theorem canonical_fillTableBy {evict m n k} (hevict : ∀ (t : State) d, t.memCanonical → (evict t d).memCanonical) :
    ∀ {fuel e} {s : State}, s.memCanonical → (fillTableBy evict m n k fuel e s).2.memCanonical
  | 0, _, _, h => h
  | fuel + 1, e, s, h => by
    have ih := @canonical_fillTableBy evict m n k hevict fuel (e + 1)
    have hword : EitherWay (·.2.memCanonical) (·.2.memCanonical) (s.agentWord k.vf (tableAddr m n e)) :=
      canonical_agentWord h
    unfold fillTableBy
    grind [EitherWay, IfSome, canonical_allocPage, canonical_agentPutOr]

theorem canonical_fillTable {m n k fuel e} (h : s.memCanonical) : (fillTable m n k fuel e s).2.memCanonical := by
  rw [fillTable_eq]
  exact canonical_fillTableBy (fun _ _ ht => canonical_evictFirst ht) h

theorem canonical_coverSlot {m pt n k} (h : s.memCanonical) : (coverSlot m pt s n k).memCanonical := by
  unfold coverSlot
  grind [canonical_fillTable, canonical_setSlot]

theorem canonical_badToken {ten} : ∀ {a n} {s : State}, s.memCanonical → (badToken s ten a n).2.memCanonical
  | _, 0, _, h => h
  | a, n + 1, s, h => by
    have ih := @canonical_badToken ten (a + 4) n
    unfold badToken
    grind [EitherWay, canonical_agentWord]

theorem canonical_planPrefill {m} : ∀ {l n} {s : State}, s.memCanonical → (planPrefill m l n s).2.memCanonical
  | [], _, _, h => h
  | (n, k) :: l, budget, s, h => by
    have ih := @canonical_planPrefill m l
    unfold planPrefill
    grind [EitherWay, canonical_cleanRead, canonical_badToken, canonical_emit, canonical_toDrain]

theorem canonical_readTemplate {m} : ∀ {n f} {s : State}, s.memCanonical →
    EitherWay (·.2.memCanonical) (·.2.memCanonical) (readTemplate s m n f)
  | 0, _, _, h => h
  | n + 1, f, s, h => by
    have ih := @canonical_readTemplate m n (f + 1)
    unfold readTemplate
    grind [EitherWay, canonical_cleanRead]

theorem canonical_launchEntries {model m ib counts slack} : ∀ {l ids} {s : State}, s.memCanonical →
    (launchEntries model m ib counts slack l ids s).memCanonical
  | [], _, _, h => h
  | _ :: l, _, _, h => canonical_launchEntries (l := l) (canonical_accept (canonical_agentPutOr h))

theorem canonical_settleEntries {model} (h : s.memCanonical) : (settleEntries model s).memCanonical := by
  unfold settleEntries
  grind [canonical_kettleEnded, canonical_foldl]

theorem canonical_boundary {model m pt} (h : s.memCanonical) : (boundary model m pt s).memCanonical := by
  unfold boundary
  grind [canonical_pollWords, canonical_eachSlot, canonical_applyEnd, canonical_applyRoom, canonical_setSlot,
    canonical_admitList, canonical_coverSlot]

theorem canonical_runPlan {model m now plan} (h : s.memCanonical) : (runPlan model m now plan s).memCanonical := by
  unfold runPlan
  grind [EitherWay, State.memCanonical, canonical_eachSlot, canonical_setSlot, canonical_agentPutOr,
    canonical_readTemplate, canonical_endIteration, canonical_failPlan, canonical_emit, canonical_settleEntries,
    canonical_launchEntries]

theorem canonical_execIterationForm {model} (h : s.memCanonical) : Out.memCanonical (execIterationForm model s) := by
  unfold execIterationForm
  grind [Out.memCanonical, State.memCanonical, canonical_boundary, canonical_planPrefill, canonical_runPlan]

theorem canonical_imageOf {w} (h : s.memCanonical) : (imageOf s w).2.memCanonical := by
  unfold imageOf
  grind [canonical_freeBytes]

theorem canonical_parkCommands {wk w} (h : s.memCanonical) : (s.parkCommands wk w).memCanonical := by
  unfold State.parkCommands
  grind [canonical_updWg, canonical_putCore]

theorem canonical_parkTrees {wk w} (h : s.memCanonical) : (s.parkTrees wk w).memCanonical := by
  unfold State.parkTrees
  grind [canonical_updWg, canonical_freeTrees]

theorem canonical_saveWg {wk} (h : s.memCanonical) : (s.saveWg wk).memCanonical := by
  unfold State.saveWg
  grind [State.memCanonical, canonical_parkCommands, canonical_acquire, canonical_releaseLines,
    canonical_writeBackAll, canonical_parkTrees, canonical_imageOf, canonical_updWg, canonical_updLaunch]

theorem canonical_execContextSave {wk} (h : s.memCanonical) : Out.memCanonical (execContextSave wk s) := by
  unfold execContextSave
  grind [Out.memCanonical, canonical_stopUnits, canonical_saveWg, canonical_setQueue, canonical_foldl]

theorem canonical_placeTrees {wk core} :
    ∀ {l m} {s : State}, s.memCanonical → (placeTrees wk core l m s).2.memCanonical
  | [], _, _, h => h
  | (n, t) :: l, m, s, h => by
    have ih := @canonical_placeTrees wk core l
    unfold placeTrees
    grind [canonical_putCore]

theorem canonical_unparkCommands {core cs} (h : s.memCanonical) : (s.unparkCommands core cs).memCanonical := by
  unfold State.unparkCommands
  grind [canonical_setChan, canonical_foldl]

theorem canonical_restoreWg {wk core} (h : s.memCanonical) : (s.restoreWg wk core).memCanonical := by
  unfold State.restoreWg
  grind [canonical_arrive, canonical_placeTrees, canonical_unparkCommands, canonical_acquire, canonical_putWg]

theorem canonical_execContextRestore {wk} (h : s.memCanonical) : Out.memCanonical (execContextRestore wk s) := by
  unfold execContextRestore
  grind [Out.memCanonical, canonical_restoreWg, canonical_takeUnit, canonical_foldl]

theorem canonical_execTokenPass {launch} (h : s.memCanonical) : Out.memCanonical (execTokenPass launch s) := by
  unfold execTokenPass
  grind [Out.memCanonical, canonical_passToken]

theorem canonical_execTokenReceipt {launch} (h : s.memCanonical) : Out.memCanonical (execTokenReceipt launch s) := by
  unfold execTokenReceipt
  grind [Out.memCanonical, canonical_acquire, canonical_updWg, canonical_updLaunch]

theorem canonical_execDeterministicSave {launch} (h : s.memCanonical) :
    Out.memCanonical (execDeterministicSave launch s) := by
  unfold execDeterministicSave
  grind [Out.memCanonical, canonical_stopUnits]

theorem canonical_afterMask {go : Fibre → State → Res} {f} (h : s.memCanonical)
    (hgo : ∀ a t, t.memCanonical → (go a t).memCanonical) :
    (afterMask f s go).memCanonical := by
  unfold afterMask
  grind [Res.memCanonical]

theorem canonical_execLDmark {o} (h : s.memCanonical) : Out.memCanonical (execLDmark o s) := by
  unfold execLDmark
  grind [Res.memCanonical, canonical_word]

theorem canonical_execLDbr {o} (h : s.memCanonical) : Out.memCanonical (execLDbr o s) := by
  unfold execLDbr
  grind [Res.memCanonical, canonical_word]

theorem canonical_execLJoin {o} (h : s.memCanonical) : Out.memCanonical (execLJoin o s) := by
  unfold execLJoin
  grind [Res.memCanonical, canonical_word, canonical_afterMask]

theorem canonical_execLExit {o} (h : s.memCanonical) : Out.memCanonical (execLExit o s) := by
  unfold execLExit
  grind [Res.memCanonical, canonical_word, canonical_afterMask]

/-! ## Packets that arrive, custody and resets (20, 21) -/

theorem canonical_setFabric {fb} (h : s.memCanonical) : (s.setFabric fb).memCanonical := h

theorem canonical_replyFab {p op aux payload bad} (h : s.memCanonical) :
    (s.replyFab p op aux payload bad).memCanonical := by
  unfold State.replyFab
  grind [canonical_queued, canonical_launchPkt, canonical_setFabric]

theorem canonical_errFab {p reason} (h : s.memCanonical) : (s.errFab p reason).memCanonical := by
  unfold State.errFab
  grind [canonical_queued, canonical_launchPkt]

theorem canonical_recvFab {p} (h : s.memCanonical) :
    IfSome (·.memCanonical) (s.recvFab p).1 ∧ (s.recvFab p).2.memCanonical := by
  generalize hx : s.recvFab p = x
  unfold State.recvFab at hx
  grind [IfSome, canonical_errFab, canonical_setFabric]

theorem canonical_dropPkt (h : s.memCanonical) : s.dropPkt.memCanonical := canonical_setFabric h

theorem canonical_arrives {g : Packet → State → State} {p} (hg : ∀ a t, t.memCanonical → (g a t).memCanonical)
    (h : s.memCanonical) :
    Out.memCanonical (arrives p g s) := by
  unfold arrives
  grind [IfSome, Out.memCanonical, State.memCanonical, canonical_dropPkt, canonical_recvFab]

theorem canonical_serveReq {g : Nat → Option Counter → State → Except (Nat × State) State} {p}
    (hg : ∀ a b t, t.memCanonical → EitherWay (·.2.memCanonical) (·.memCanonical) (g a b t)) (h : s.memCanonical) :
    (serveReq p g s).memCanonical := by
  unfold serveReq
  grind [EitherWay, canonical_errFab]

theorem canonical_orReason {α : Type} {p : α → Prop} {x : Except (Trap × State) α}
    (h : EitherWay (·.2.memCanonical) p x) : EitherWay (·.2.memCanonical) p (orReason x) := by
  unfold orReason
  cases x with
  | error e => exact h
  | ok r => exact h

theorem canonical_counterAdd {ten c n} (h : s.memCanonical) :
    EitherWay (·.2.memCanonical) (·.memCanonical) (counterAdd s ten c n) := by
  unfold counterAdd
  grind [EitherWay, canonical_agentRead, canonical_agentPut]

theorem canonical_writeBytes {ten p k} (h : s.memCanonical) :
    EitherWay (·.2.memCanonical) (·.memCanonical) (writeBytes s ten p k) := by
  unfold writeBytes
  grind [EitherWay, canonical_caddyWrite, canonical_agentWalk, canonical_stirVa]

theorem canonical_serveWrite {counted k p} (h : s.memCanonical) : (serveWrite counted k p s).memCanonical := by
  unfold serveWrite
  refine canonical_serveReq (fun ten c t ht => ?_) h
  have hbytes : EitherWay (·.2.memCanonical) (·.memCanonical) (orReason (writeBytes t ten p k)) :=
    canonical_orReason (canonical_writeBytes ht)
  split
  · next he => rw [he] at hbytes; exact hbytes
  · next s1 hs =>
    rw [hs] at hbytes
    have hcount : ∀ c, EitherWay (·.2.memCanonical) (·.memCanonical)
        (orReason (counterAdd s1 ten c p.payload.length)) :=
      fun _ => canonical_orReason (canonical_counterAdd hbytes)
    have hplain : EitherWay (·.2.memCanonical) (·.memCanonical) (orReason (.ok s1)) := hbytes
    cases c with
    | none => exact canonical_replyFab hbytes
    | some c => cases counted <;> grind [EitherWay, canonical_replyFab]

theorem canonical_execFabWr {p} (h : s.memCanonical) : Out.memCanonical (execFabWr p s) := by
  unfold execFabWr
  grind [canonical_arrives, canonical_serveWrite]

theorem canonical_execFabWrrel {p} (h : s.memCanonical) : Out.memCanonical (execFabWrrel p s) := by
  unfold execFabWrrel
  grind [canonical_arrives, canonical_serveWrite]

theorem canonical_readAnswer {p b} (h : s.memCanonical) : (readAnswer p b s).memCanonical := canonical_replyFab h

theorem canonical_execFabRd {p} (h : s.memCanonical) : Out.memCanonical (execFabRd p s) := by
  unfold execFabRd
  refine canonical_arrives (fun q t ht => canonical_serveReq (fun ten c u hu => ?_) ht) h
  have hread : EitherWay (·.2.memCanonical) (·.2.memCanonical) (orReason (u.caddyRead ten q.addr.toNat (readLen q)))
    :=
    canonical_orReason (canonical_caddyRead hu)
  grind [EitherWay, canonical_readAnswer]

theorem canonical_execFabAt {p} (h : s.memCanonical) : Out.memCanonical (execFabAt p s) := by
  unfold execFabAt
  grind [EitherWay, canonical_arrives, canonical_serveReq, canonical_agentWalk, canonical_afterAgent, canonical_draw,
    canonical_replyFab, canonical_physRead, canonical_afterStore, canonical_physWrite]

theorem canonical_execFabPgrd {p} (h : s.memCanonical) : Out.memCanonical (execFabPgrd p s) := by
  unfold execFabPgrd
  refine canonical_arrives (fun q t ht => canonical_serveReq (fun ten c u hu => ?_) ht) h
  have hread : ∀ va n, EitherWay (·.2.memCanonical) (·.2.memCanonical) (orReason (u.caddyRead ten va n)) :=
    fun _ _ => canonical_orReason (canonical_caddyRead hu)
  grind [EitherWay, canonical_readAnswer]

theorem canonical_execFabPgrel {p} (h : s.memCanonical) : Out.memCanonical (execFabPgrel p s) := by
  unfold execFabPgrel
  grind [EitherWay, canonical_arrives, canonical_serveReq, canonical_replyFab, canonical_unrefPage]

theorem canonical_openPageIn {p ten} (h : s.memCanonical) : (openPageIn p ten s).2.memCanonical := by
  unfold openPageIn
  grind [IfSome, canonical_newPage]

theorem canonical_storePart {p ten x} (h : s.memCanonical) :
    EitherWay (·.2.memCanonical) (·.memCanonical) (storePart p ten x s) := by
  unfold storePart
  grind [EitherWay, canonical_pageWrite]

theorem canonical_execFabPgxfer {p} (h : s.memCanonical) : Out.memCanonical (execFabPgxfer p s) := by
  unfold execFabPgxfer
  grind [EitherWay, canonical_arrives, canonical_serveReq, canonical_openPageIn, canonical_storePart,
    canonical_unrefPage, canonical_updDesc, canonical_errFab, canonical_setFabric, canonical_replyFab,
    canonical_serveCaddy]

theorem canonical_serveAll (h : s.memCanonical) : s.serveAll.memCanonical := by
  unfold State.serveAll
  grind [canonical_serveCaddy, canonical_foldl]

theorem canonical_toLoad {wk fid uid tag late r} (h : s.memCanonical) :
    (s.toLoad wk fid uid tag late r).memCanonical := by
  unfold State.toLoad
  grind [canonical_putFibre]

theorem canonical_toEngine {core ch tag late r} (h : s.memCanonical) :
    (s.toEngine core ch tag late r).memCanonical := by
  unfold State.toEngine
  grind [State.memCanonical, canonical_setChan]

theorem canonical_storeAnswered {wk fid uid tag addr late bad} (h : s.memCanonical) :
    (s.storeAnswered wk fid uid tag addr late bad).memCanonical := canonical_updWg h

theorem canonical_storeRecord {q reason} (h : s.memCanonical) : (s.storeRecord q reason).memCanonical := by
  unfold State.storeRecord
  grind [canonical_writeRecord]

theorem canonical_poisonRecord {q r} (h : s.memCanonical) : (s.poisonRecord q r).memCanonical := by
  unfold State.poisonRecord
  grind [canonical_draw, canonical_storeRecord]

theorem canonical_deliverFab {q p r} (h : s.memCanonical) : (s.deliverFab q p r).memCanonical := by
  unfold State.deliverFab
  grind [canonical_toLoad, canonical_settleLaunch, canonical_storeAnswered, canonical_poisonRecord,
    canonical_toEngine]

theorem canonical_replied {g : Packet → FabReq → State → State} {p}
    (hg : ∀ a b t, t.memCanonical → (g a b t).memCanonical) (h : s.memCanonical) :
    Out.memCanonical (replied p g s) := by
  unfold replied
  grind [canonical_arrives, canonical_serveAll, canonical_setFabric]

theorem canonical_execFabRdrsp {p} (h : s.memCanonical) : Out.memCanonical (execFabRdrsp p s) := by
  unfold execFabRdrsp
  grind [canonical_replied, canonical_pageBytesIn, canonical_deliverFab]

theorem canonical_execFabAtrsp {p} (h : s.memCanonical) : Out.memCanonical (execFabAtrsp p s) := by
  unfold execFabAtrsp
  grind [canonical_replied, canonical_deliverFab]

theorem canonical_execFabDone {p} (h : s.memCanonical) : Out.memCanonical (execFabDone p s) := by
  unfold execFabDone
  grind [canonical_replied, canonical_deliverFab]

theorem canonical_fabFails {q late reason} (h : s.memCanonical) : (s.fabFails q late reason).memCanonical := by
  unfold State.fabFails
  grind [canonical_toLoad, canonical_settleLaunch, canonical_storeAnswered, canonical_storeRecord,
    canonical_toEngine, canonical_pageErr, canonical_serveAll]

theorem canonical_failPkt {p hit late reason} (h : s.memCanonical) : (s.failPkt p hit late reason).memCanonical := by
  unfold State.failPkt
  grind [canonical_fabFails, canonical_setFabric]

theorem canonical_uetReason {reason} (h : s.memCanonical) : (s.uetReason reason).2.memCanonical := by
  unfold State.uetReason
  grind [canonical_draw]

theorem canonical_execFabErr {p} (h : s.memCanonical) : Out.memCanonical (execFabErr p s) := by
  unfold execFabErr
  grind [Out.memCanonical, canonical_dropPkt, canonical_uetReason, canonical_failPkt]

theorem canonical_execFabPgack {p} (h : s.memCanonical) : Out.memCanonical (execFabPgack p s) := by
  unfold execFabPgack
  grind [canonical_arrives, canonical_serveAll, canonical_pageAck]

theorem canonical_execCustodyAck {n} (h : s.memCanonical) : Out.memCanonical (execCustodyAck n s) := by
  unfold execCustodyAck
  grind [Out.memCanonical, canonical_setFabric]

theorem canonical_execCustodyResend {n} (h : s.memCanonical) : Out.memCanonical (execCustodyResend n s) := by
  unfold execCustodyResend
  grind [Out.memCanonical, canonical_emit, canonical_setFabric]

theorem canonical_reason {c : Custody} (h : s.memCanonical) : IfSome (·.2.memCanonical) (c.reason s) := by
  unfold Custody.reason
  grind [IfSome, canonical_uetReason]

theorem canonical_endCustody {n c reason} (h : s.memCanonical) : (s.endCustody n c reason).memCanonical := by
  unfold State.endCustody
  grind [canonical_failPkt, canonical_setFabric]

theorem canonical_execCustodyTimeout {n} (h : s.memCanonical) : Out.memCanonical (execCustodyTimeout n s) := by
  unfold execCustodyTimeout
  grind [IfSome, Out.memCanonical, canonical_reason, canonical_endCustody]

theorem canonical_execLinkLevelRetry {n} (h : s.memCanonical) : Out.memCanonical (execLinkLevelRetry n s) := by
  unfold execLinkLevelRetry
  grind [Out.memCanonical, canonical_setFabric]

theorem canonical_execBadpktDrop {header} (h : s.memCanonical) : Out.memCanonical (execBadpktDrop header s) := by
  unfold execBadpktDrop
  grind [Out.memCanonical, canonical_errFab]

theorem canonical_execUetUnsupportedPacketDrop {port} (h : s.memCanonical) :
    Out.memCanonical (execUetUnsupportedPacketDrop port s) := by
  unfold execUetUnsupportedPacketDrop
  grind [Out.memCanonical, canonical_dropPkt]

theorem canonical_powered {g : State → State} (hg : ∀ t, t.memCanonical → (g t).memCanonical) (h : s.memCanonical) :
    Out.memCanonical (powered g s) := by
  unfold powered
  grind [Out.memCanonical]

theorem canonical_destroyUnit {w} (h : s.memCanonical) : (s.destroyUnit w).memCanonical := by
  unfold State.destroyUnit
  grind [canonical_stopWg, canonical_releaseWg, canonical_setWgs, canonical_unqueue, canonical_settleLaunch,
    canonical_updLaunch, canonical_restSlice, canonical_foldl]

theorem canonical_destroyUnits {hit} : ∀ {n} {s : State}, s.memCanonical → (destroyUnits hit n s).memCanonical
  | 0, _, h => h
  | n + 1, s, h => by
    unfold destroyUnits
    split
    · exact h
    · exact canonical_destroyUnits (n := n) (canonical_destroyUnit h)

theorem canonical_destroyWhere {hit} (h : s.memCanonical) : (s.destroyWhere hit).memCanonical :=
  canonical_destroyUnits h

theorem canonical_destroyLaunch {id} (h : s.memCanonical) : (s.destroyLaunch id).memCanonical := by
  unfold State.destroyLaunch
  grind [canonical_cancelLaunch, canonical_destroyWhere]

theorem canonical_clearCore {core held keep} (h : s.memCanonical) : (s.clearCore core held keep).memCanonical :=
  canonical_putCore h

theorem canonical_execCoreReset {core} (h : s.memCanonical) : Out.memCanonical (execCoreReset core s) := by
  unfold execCoreReset
  grind [canonical_powered, canonical_clearCore, canonical_destroyWhere]

theorem canonical_execClusterReset {cluster} (h : s.memCanonical) :
    Out.memCanonical (execClusterReset cluster s) := by
  unfold execClusterReset
  grind [canonical_powered, canonical_destroyWhere, canonical_clearCore, canonical_putCluster, canonical_foldl]

theorem canonical_execMatrixEngineReset {core} (h : s.memCanonical) :
    Out.memCanonical (execMatrixEngineReset core s) := by
  unfold execMatrixEngineReset
  grind [State.memCanonical, canonical_powered, canonical_engoDone, canonical_updWg, canonical_setRun,
    canonical_cancelLaunch, canonical_foldl]

theorem canonical_endProt : ∀ {n c} {s : State}, s.memCanonical → (endProt n c s).memCanonical
  | 0, _, _, h => canonical_engoDone h
  | n + 1, c, s, h => by
    have ih := @canonical_endProt n
    have hend : (runEnd c s).memCanonical := canonical_runEnd h
    unfold endProt
    grind [Run1.memCanonical, canonical_engoDone]

theorem canonical_endCommand {c} (h : s.memCanonical) : (s.endCommand c).memCanonical := by
  unfold State.endCommand
  grind [canonical_draw, canonical_endProt]

theorem canonical_execCopyEngineReset {core} (h : s.memCanonical) :
    Out.memCanonical (execCopyEngineReset core s) := by
  unfold execCopyEngineReset
  grind [canonical_powered, canonical_putCore, canonical_endCommand, canonical_setWgs, canonical_cancelLaunch,
    canonical_foldl]

theorem canonical_dropMoves {die} : ∀ {n} {s : State}, s.memCanonical → (dropMoves die n s).memCanonical
  | 0, _, h => h
  | n + 1, s, h => by
    have ih := @canonical_dropMoves die n
    unfold dropMoves
    grind [canonical_updDesc, canonical_setMove, canonical_updCaddy, canonical_engoDone, canonical_pageDone]

theorem canonical_resetCaddy {die} (h : s.memCanonical) : (s.resetCaddy die).memCanonical := by
  unfold State.resetCaddy
  grind [canonical_updCaddy, canonical_pageDone, canonical_dropMoves, canonical_freeSlots, canonical_foldl]

theorem canonical_execCaddyReset {die} (h : s.memCanonical) : Out.memCanonical (execCaddyReset die s) := by
  unfold execCaddyReset
  grind [canonical_powered, canonical_sweepPages, canonical_resetCaddy]

theorem canonical_execKettleReset (h : s.memCanonical) : Out.memCanonical (execKettleReset s) := by
  unfold execKettleReset
  grind [State.memCanonical, canonical_powered, canonical_failPlan, canonical_foldl]

theorem canonical_timeOutCustody : ∀ {l} {s : State}, s.memCanonical → (timeOutCustody l s).memCanonical
  | [], _, h => h
  | (k, c) :: l, s, h => by
    refine canonical_timeOutCustody (l := l) ?_
    split
    · exact canonical_endCustody h
    · exact h

theorem canonical_sendAgain (h : s.memCanonical) : s.sendAgain.memCanonical := h

theorem canonical_resetPort {port} (h : s.memCanonical) : (s.resetPort port).memCanonical := by
  unfold State.resetPort
  grind [canonical_setFabric, canonical_serveAll, canonical_sendAgain, canonical_timeOutCustody]

theorem canonical_execFabricPortReset {port} (h : s.memCanonical) :
    Out.memCanonical (execFabricPortReset port s) := by
  unfold execFabricPortReset
  grind [canonical_powered, canonical_resetPort]

theorem canonical_resetFunction {vf} (h : s.memCanonical) : (s.resetFunction vf).memCanonical := by
  unfold State.resetFunction
  grind [State.memCanonical, canonical_setWatches, canonical_cancelLaunch, canonical_foldl]

theorem canonical_execHostFunctionReset {vf} (h : s.memCanonical) :
    Out.memCanonical (execHostFunctionReset vf s) := by
  unfold execHostFunctionReset
  grind [canonical_powered, canonical_resetFunction]

theorem canonical_putSam {k x} (h : s.memCanonical) : (s.putSam k x).memCanonical := h

theorem canonical_freeSamWatches {k} (h : s.memCanonical) : (s.freeSamWatches k).memCanonical :=
  canonical_setWatches h

theorem canonical_resetSam {core} (h : s.memCanonical) : (s.resetSam core).memCanonical := by
  unfold State.resetSam
  grind [canonical_freeSamWatches, canonical_putSam]

theorem canonical_execSamovarCoreReset {core} (h : s.memCanonical) :
    Out.memCanonical (execSamovarCoreReset core s) := by
  unfold execSamovarCoreReset
  grind [canonical_powered, canonical_resetSam]

theorem canonical_dropDieWatches {die} (h : s.memCanonical) : (s.dropDieWatches die).memCanonical := by
  unfold State.dropDieWatches
  grind [State.memCanonical, canonical_setWatches]

theorem canonical_settleAll (h : s.memCanonical) : s.settleAll.memCanonical := by
  unfold State.settleAll
  grind [canonical_settleLaunch, canonical_foldl]

theorem canonical_clearDie {die keep} (h : s.memCanonical) : (s.clearDie die keep).memCanonical := by
  unfold State.clearDie
  grind [State.memCanonical, canonical_destroyWhere, canonical_resetCaddy, canonical_endCommand, canonical_settleAll,
    canonical_setFabric, canonical_dropDieWatches, canonical_clearCore, canonical_sweepPages, canonical_setClusters,
    canonical_foldl]

theorem canonical_resetHostSide (h : s.memCanonical) : s.resetHostSide.memCanonical := by
  unfold State.resetHostSide
  grind [canonical_resetFunction, canonical_resetSam, canonical_foldl]

theorem canonical_resetDie {die} (h : s.memCanonical) : (s.resetDie die).memCanonical := by
  unfold State.resetDie
  grind [State.memCanonical, canonical_clearDie, canonical_resetPort, canonical_resetHostSide, canonical_loseL2,
    canonical_foldl]

theorem canonical_execDieReset {die} (h : s.memCanonical) : Out.memCanonical (execDieReset die s) := by
  unfold execDieReset
  grind [canonical_powered, canonical_resetDie]

/-- A filter keeps the canonical form. -/
theorem wfFrom_filter (p : Host.Cell → Bool) : ∀ {m : List Host.Cell} {lo : Nat}, wfFrom lo m = true →
    wfFrom lo (m.filter p) = true
  | [], _, _ => rfl
  | e :: m, lo, h => by
    simp only [wfFrom, Bool.and_eq_true, decide_eq_true_eq] at h
    obtain ⟨⟨hlo, hval⟩, hm⟩ := h
    rw [List.filter_cons]
    split
    · simp only [wfFrom, Bool.and_eq_true, decide_eq_true_eq]
      exact ⟨⟨hlo, hval⟩, wfFrom_filter p hm⟩
    · exact wfFrom_filter p (wfFrom_le (by omega) hm)

/-- A cold reset keeps host memory alone (21 Table 21-8). -/
theorem canonical_cold (h : s.memCanonical) : s.cold.memCanonical := wfFrom_filter _ h

theorem canonical_execPackageColdReset (h : s.memCanonical) : Out.memCanonical (execPackageColdReset s) := by
  unfold execPackageColdReset
  grind [Out.memCanonical, canonical_cold]

theorem canonical_execPackageWarmReset (h : s.memCanonical) : Out.memCanonical (execPackageWarmReset s) := by
  unfold execPackageWarmReset
  grind [State.memCanonical, canonical_powered, canonical_loseL2, canonical_destroyLaunch, canonical_foldl]

theorem canonical_execResetComplete {unit} (h : s.memCanonical) : Out.memCanonical (execResetComplete unit s) := by
  unfold execResetComplete
  grind [State.memCanonical, canonical_powered, canonical_serveAll, canonical_putCluster, canonical_putCore,
    canonical_setFabric]

theorem canonical_off (h : s.memCanonical) : s.off.memCanonical := by
  unfold State.off
  grind [State.memCanonical, canonical_cold]

theorem canonical_execPowerLoss (h : s.memCanonical) : Out.memCanonical (execPowerLoss s) := by
  unfold execPowerLoss
  grind [Out.memCanonical, canonical_off]

/-! ## Firmware, management, the host's interface, lane exchanges and Samovar's words (05, 21) -/

theorem canonical_serviceOr {g : State → Except State (Nat × State)} {who ten}
    (hg : ∀ t, t.memCanonical → EitherWay (·.memCanonical) (·.2.memCanonical) (g t)) (h : s.memCanonical) :
    Out.memCanonical (serviceOr who ten g s) := by
  unfold serviceOr
  grind [EitherWay, canonical_powered, canonical_emit]

theorem canonical_service {g : State → Option (Nat × State)} {who ten}
    (hg : ∀ t, t.memCanonical → IfSome (·.2.memCanonical) (g t)) (h : s.memCanonical) :
    Out.memCanonical (service who ten g s) := by
  unfold service
  grind [IfSome, EitherWay, canonical_serviceOr]

theorem canonical_updTenant {n g} (h : s.memCanonical) : (s.updTenant n g).memCanonical := h

theorem canonical_execSetAsidRoot {who tenant asid root} (h : s.memCanonical) :
    Out.memCanonical (execSetAsidRoot who tenant asid root s) := by
  unfold execSetAsidRoot
  grind [IfSome, canonical_service, canonical_updTenant]

theorem canonical_invalidate {asid lo len} (h : s.memCanonical) : (s.invalidate asid lo len).memCanonical := by
  unfold State.invalidate
  grind [canonical_setClusters, canonical_setCores]

theorem canonical_execInvalidateTranslation {who asid lo len} (h : s.memCanonical) :
    Out.memCanonical (execInvalidateTranslation who asid lo len s) := by
  unfold execInvalidateTranslation
  grind [IfSome, canonical_service, canonical_invalidate]

theorem canonical_execResolveFault {who place entries} (h : s.memCanonical) :
    Out.memCanonical (execResolveFault who place entries s) := by
  unfold execResolveFault
  grind [IfSome, canonical_service, canonical_physWrite, canonical_replay, canonical_foldl]

theorem canonical_execDeclareUnresolved {who place} (h : s.memCanonical) :
    Out.memCanonical (execDeclareUnresolved who place s) := by
  unfold execDeclareUnresolved
  grind [IfSome, canonical_service, canonical_unresolve]

theorem canonical_execRegisterModel {who p} (h : s.memCanonical) : Out.memCanonical (execRegisterModel who p s) := by
  unfold execRegisterModel
  grind [EitherWay, State.memCanonical, canonical_serviceOr, canonical_readTemplate]

theorem canonical_ringWalks {p} (h : s.memCanonical) : (ringWalks s p).memCanonical := by
  unfold ringWalks
  grind [canonical_agentWalk, canonical_foldl]

theorem canonical_execRegisterQueue {who p} (h : s.memCanonical) : Out.memCanonical (execRegisterQueue who p s) := by
  unfold execRegisterQueue
  grind [EitherWay, State.memCanonical, canonical_serviceOr, canonical_ringWalks, canonical_unwatch,
    canonical_watchWord]

theorem canonical_execSetBudgets {who p} (h : s.memCanonical) : Out.memCanonical (execSetBudgets who p s) := by
  unfold execSetBudgets
  grind [IfSome, canonical_service, canonical_updTenant]

theorem canonical_fabricWrite {x} (h : s.memCanonical) : IfSome (·.memCanonical) (s.fabricWrite x) := by
  unfold State.fabricWrite
  grind [IfSome, canonical_setFabric, canonical_updTenant]

theorem canonical_execFabricSetup {who p} (h : s.memCanonical) : Out.memCanonical (execFabricSetup who p s) := by
  unfold execFabricSetup
  exact canonical_service (fun t ht => (canonical_fabricWrite ht).map fun _ hr => hr) h

theorem canonical_execPortPersonalitySelect {port hawser} (h : s.memCanonical) :
    Out.memCanonical (execPortPersonalitySelect port hawser s) := by
  unfold execPortPersonalitySelect
  grind [IfSome, canonical_service, canonical_serveAll, canonical_setFabric]

theorem canonical_execCancelLaunch {who launch} (h : s.memCanonical) :
    Out.memCanonical (execCancelLaunch who launch s) := by
  unfold execCancelLaunch
  grind [IfSome, canonical_service, canonical_cancelLaunch]

theorem canonical_execSizePools {who p} (h : s.memCanonical) : Out.memCanonical (execSizePools who p s) := by
  unfold execSizePools
  grind [IfSome, canonical_service, canonical_updCaddy, canonical_serveCaddy, canonical_wakeModels]

theorem canonical_setFw {fw} (h : s.memCanonical) : (s.setFw fw).memCanonical := h

theorem canonical_managed {g : State → State} (hg : ∀ t, t.memCanonical → (g t).memCanonical) (h : s.memCanonical) :
    Out.memCanonical (managed g s) := by
  unfold managed
  grind [canonical_powered]

theorem canonical_runImage {x} (h : s.memCanonical) : (s.runImage x).memCanonical := canonical_setFw h

theorem canonical_execBootRom (h : s.memCanonical) : Out.memCanonical (execBootRom s) := by
  unfold execBootRom
  grind [canonical_powered, canonical_runImage, canonical_setFw]

theorem canonical_execRecoveryImage {img} (h : s.memCanonical) : Out.memCanonical (execRecoveryImage img s) := by
  unfold execRecoveryImage
  grind [canonical_powered, canonical_emit, canonical_runImage]

theorem canonical_pldm {name from_ g} (h : s.memCanonical) : Out.memCanonical (pldm name from_ g s) := by
  unfold pldm
  grind [canonical_managed, canonical_emit, canonical_setFw]

theorem canonical_execRequestUpdate (h : s.memCanonical) : Out.memCanonical (execRequestUpdate s) := canonical_pldm h

theorem canonical_execPassComponentTable (h : s.memCanonical) : Out.memCanonical (execPassComponentTable s) :=
  canonical_pldm h

theorem canonical_execUpdateComponent {img} (h : s.memCanonical) : Out.memCanonical (execUpdateComponent img s) :=
  canonical_pldm h

theorem canonical_execTransferComplete (h : s.memCanonical) : Out.memCanonical (execTransferComplete s) :=
  canonical_pldm h

theorem canonical_stageImage {session img} (h : s.memCanonical) : (s.stageImage session img).memCanonical := by
  unfold State.stageImage
  grind [canonical_emit, canonical_setFw]

theorem canonical_eraseStaged {name} (h : s.memCanonical) : (s.eraseStaged name).memCanonical := by
  unfold State.eraseStaged
  grind [canonical_emit, canonical_setFw]

theorem canonical_execVerifyComplete (h : s.memCanonical) : Out.memCanonical (execVerifyComplete s) := by
  unfold execVerifyComplete
  grind [canonical_managed, canonical_emit, canonical_setFw, canonical_eraseStaged]

theorem canonical_execApplyComplete (h : s.memCanonical) : Out.memCanonical (execApplyComplete s) := canonical_pldm h

theorem canonical_restartSam (h : s.memCanonical) : s.restartSam.memCanonical := by
  unfold State.restartSam
  grind [canonical_freeSamWatches, canonical_putSam]

theorem canonical_execActivateFirmware (h : s.memCanonical) : Out.memCanonical (execActivateFirmware s) := by
  unfold execActivateFirmware
  grind [canonical_managed, canonical_emit, canonical_eraseStaged, canonical_restartSam, canonical_setFw]

theorem canonical_execImageReportsReady (h : s.memCanonical) : Out.memCanonical (execImageReportsReady s) := by
  unfold execImageReportsReady
  grind [canonical_powered, canonical_setFw]

theorem canonical_execUpdateReadyTimeout (h : s.memCanonical) : Out.memCanonical (execUpdateReadyTimeout s) := by
  unfold execUpdateReadyTimeout
  grind [canonical_powered, canonical_restartSam, canonical_setFw]

theorem canonical_execSecurityVersionFuse (h : s.memCanonical) : Out.memCanonical (execSecurityVersionFuse s) := by
  unfold execSecurityVersionFuse
  grind [canonical_powered, canonical_setFw]

theorem canonical_spdmAsk {g : State → State} {name ok} (hg : ∀ t, t.memCanonical → (g t).memCanonical)
    (h : s.memCanonical) :
    Out.memCanonical (spdmAsk name ok g s) := by
  unfold spdmAsk
  grind [canonical_managed, canonical_emit]

theorem canonical_spdmBytes {what} (h : s.memCanonical) : (s.spdmBytes what).memCanonical := by
  unfold State.spdmBytes
  grind [canonical_draw, canonical_emit]

theorem canonical_execGetVersion (h : s.memCanonical) : Out.memCanonical (execGetVersion s) := by
  unfold execGetVersion
  grind [canonical_spdmAsk, canonical_setFw]

theorem canonical_execGetCapabilities (h : s.memCanonical) : Out.memCanonical (execGetCapabilities s) := by
  unfold execGetCapabilities
  grind [canonical_spdmAsk, canonical_setFw]

theorem canonical_execNegotiateAlgorithms {offer} (h : s.memCanonical) :
    Out.memCanonical (execNegotiateAlgorithms offer s) := by
  unfold execNegotiateAlgorithms
  grind [canonical_spdmAsk, canonical_setFw]

theorem canonical_execGetDigests (h : s.memCanonical) : Out.memCanonical (execGetDigests s) := by
  unfold execGetDigests
  grind [canonical_spdmAsk, canonical_spdmBytes]

theorem canonical_execGetCertificate {slot} (h : s.memCanonical) : Out.memCanonical (execGetCertificate slot s) := by
  unfold execGetCertificate
  grind [canonical_spdmAsk, canonical_spdmBytes]

theorem canonical_execSpdmChallenge {n} (h : s.memCanonical) : Out.memCanonical (execSpdmChallenge n s) := by
  unfold execSpdmChallenge
  grind [canonical_spdmAsk, canonical_spdmBytes]

theorem canonical_execGetMeasurements {index} (h : s.memCanonical) :
    Out.memCanonical (execGetMeasurements index s) := by
  unfold execGetMeasurements
  grind [canonical_spdmAsk, canonical_emit]

theorem canonical_execKeyExchange {session} (h : s.memCanonical) : Out.memCanonical (execKeyExchange session s) := by
  unfold execKeyExchange
  grind [canonical_managed, canonical_emit, canonical_setFw]

theorem canonical_execSpdmFinish {session} (h : s.memCanonical) : Out.memCanonical (execSpdmFinish session s) := by
  unfold execSpdmFinish
  grind [canonical_managed, canonical_emit, canonical_draw, canonical_setFw]

theorem canonical_execEndSession {session} (h : s.memCanonical) : Out.memCanonical (execEndSession session s) := by
  unfold execEndSession
  grind [canonical_managed, canonical_emit, canonical_setFw]

theorem canonical_cancelTenant {n} (h : s.memCanonical) : (s.cancelTenant n).memCanonical := by
  unfold State.cancelTenant
  grind [canonical_cancelLaunch, canonical_foldl]

theorem canonical_execIdeKmRequest {stream key vfs} (h : s.memCanonical) :
    Out.memCanonical (execIdeKmRequest stream key vfs s) := by
  unfold execIdeKmRequest
  grind [canonical_managed, canonical_emit, canonical_setFw, canonical_updTenant, canonical_foldl]

theorem canonical_disableVfs {were} (h : s.memCanonical) : (s.disableVfs were).memCanonical := by
  unfold State.disableVfs
  grind [canonical_resetFunction, canonical_foldl]

theorem canonical_execIdeStreamInsecure {stream} (h : s.memCanonical) :
    Out.memCanonical (execIdeStreamInsecure stream s) := by
  unfold execIdeStreamInsecure
  grind [canonical_powered, canonical_setFw, canonical_disableVfs, canonical_updTenant, canonical_cancelTenant,
    canonical_foldl]

theorem canonical_notePeaks (h : s.memCanonical) : s.notePeaks.memCanonical := by
  unfold State.notePeaks
  grind [State.memCanonical]

theorem canonical_execGetSensorReading {id} (h : s.memCanonical) : Out.memCanonical (execGetSensorReading id s) := by
  unfold execGetSensorReading
  grind [canonical_powered, canonical_emit, canonical_draw, canonical_setFw]

theorem canonical_clearPeak {id} (h : s.memCanonical) : (s.clearPeak id).memCanonical := canonical_setFw h

theorem canonical_sensorAway {id away} (h : s.memCanonical) : (s.sensorAway id away).memCanonical := canonical_setFw h

theorem canonical_execDebugTokenRequest {target tenant} (h : s.memCanonical) :
    Out.memCanonical (execDebugTokenRequest target tenant s) := by
  unfold execDebugTokenRequest
  grind [canonical_managed, canonical_emit, canonical_draw, canonical_setFw]

theorem canonical_execLifecycleChange {target} (h : s.memCanonical) :
    Out.memCanonical (execLifecycleChange target s) := by
  unfold execLifecycleChange
  grind [canonical_managed, canonical_emit, canonical_disableVfs, canonical_setFw]

/-- A debugger writes one byte of memory at most (21 R372). -/
theorem canonical_debugPut {n x} (h : s.memCanonical) : (s.debugPut n x).memCanonical := by
  unfold State.debugPut
  split
  case h_1 b => exact wfFrom_cellPut b h (Nat.zero_le n)
  all_goals exact h

theorem canonical_debugRead {k n} (h : s.memCanonical) : (s.debugRead k n).memCanonical := by
  unfold State.debugRead
  grind [canonical_emit]

theorem canonical_debugWrite {n x} (h : s.memCanonical) : (s.debugWrite n x).memCanonical := by
  unfold State.debugWrite
  grind [canonical_debugPut, canonical_emit]

theorem canonical_retainDie {d} (h : s.memCanonical) : (s.retainDie d).memCanonical := by
  unfold State.retainDie
  grind [State.memCanonical, canonical_clearDie]

theorem canonical_execPowerStateChange {target} (h : s.memCanonical) :
    Out.memCanonical (execPowerStateChange target s) := by
  unfold execPowerStateChange
  grind [canonical_powered, canonical_putCluster, canonical_putCore, canonical_emit, canonical_retainDie,
    canonical_setFw, canonical_off]

theorem canonical_overLimit {die} (h : s.memCanonical) : (s.overLimit die).2.memCanonical := by
  unfold State.overLimit
  grind [canonical_draw]

theorem canonical_throttle {die} : ∀ {n} {s : State}, s.memCanonical → (throttle die n s).memCanonical
  | 0, _, h => h
  | n + 1, s, h => by
    have ih := @canonical_throttle die n
    unfold throttle
    grind [canonical_draw, canonical_putCluster, canonical_overLimit]

theorem canonical_throttled {die} (h : s.memCanonical) : (s.throttled die).memCanonical := by
  unfold State.throttled
  grind [canonical_throttle, canonical_setFw]

theorem canonical_execThermalThrottle {die} (h : s.memCanonical) : Out.memCanonical (execThermalThrottle die s) := by
  unfold execThermalThrottle
  grind [canonical_powered, canonical_throttled]

theorem canonical_execPowerCapWrite {watts} (h : s.memCanonical) : Out.memCanonical (execPowerCapWrite watts s) := by
  unfold execPowerCapWrite
  grind [State.memCanonical, canonical_managed, canonical_emit, canonical_overLimit, canonical_setFw,
    canonical_throttled]

theorem canonical_execThermalDieReset {die} (h : s.memCanonical) : Out.memCanonical (execThermalDieReset die s) := by
  unfold execThermalDieReset
  grind [canonical_powered, canonical_resetDie, canonical_setFw]

theorem canonical_fullServe (h : s.memCanonical) : s.fullServe.memCanonical := h

theorem canonical_execTrainingStepComplete {ok} (h : s.memCanonical) :
    Out.memCanonical (execTrainingStepComplete ok s) := by
  unfold execTrainingStepComplete
  grind [canonical_powered, canonical_setFw, canonical_fullServe]

theorem canonical_hostPut {kind} : ∀ {ps bs} {s : State}, s.memCanonical → (s.hostPut ps bs kind).memCanonical
  | [], _, _, h => h
  | _ :: ps, _, _, h => canonical_hostPut (ps := ps) (canonical_afterStore (canonical_physWrite _ _ _ _ h))

theorem canonical_hostGet : ∀ {ps} {s : State}, s.memCanonical → (s.hostGet ps).2.memCanonical
  | [], _, h => h
  | _ :: ps, _, h => canonical_hostGet (ps := ps) (canonical_physRead _ _ _ _ h)

theorem canonical_tlp {g : State → State} {fn ok} (hg : ∀ t, t.memCanonical → (g t).memCanonical)
    (h : s.memCanonical) :
    Out.memCanonical (tlp fn ok g s) := by
  unfold tlp
  grind [canonical_powered, canonical_emit]

theorem canonical_execHostWriteTlp {fn pa bytes ep} (h : s.memCanonical) :
    Out.memCanonical (execHostWriteTlp fn pa bytes ep s) := by
  unfold execHostWriteTlp
  grind [canonical_tlp, canonical_hostPut, canonical_poisonAt]

theorem canonical_execHostReadTlp {fn pa len} (h : s.memCanonical) :
    Out.memCanonical (execHostReadTlp fn pa len s) := by
  unfold execHostReadTlp
  grind [canonical_tlp, canonical_hostGet, canonical_emit]

theorem canonical_execHostAtomicop {fn op wide pa x y} (h : s.memCanonical) :
    Out.memCanonical (execHostAtomicop fn op wide pa x y s) := by
  unfold execHostAtomicop
  grind [canonical_tlp, canonical_emit, canonical_physRead, canonical_afterStore, canonical_physWrite]

theorem canonical_execMmioRegisterWrite {fn off val} (h : s.memCanonical) :
    Out.memCanonical (execMmioRegisterWrite fn off val s) := by
  unfold execMmioRegisterWrite
  grind [canonical_tlp, canonical_setFw]

theorem canonical_mmioRead {fn off} (h : s.memCanonical) : (s.mmioRead fn off).memCanonical := by
  unfold State.mmioRead
  grind [canonical_emit, canonical_draw]

theorem canonical_armMsix {vf vector va mask operand cond} (h : s.memCanonical) :
    (s.armMsix vf vector va mask operand cond).memCanonical := by
  unfold State.armMsix
  grind [canonical_emit, canonical_agentWalk, canonical_arm]

theorem canonical_exchange {sc g reads d a src} (h : s.memCanonical) :
    Out.memCanonical (exchange sc g reads d a src s) := by
  unfold exchange
  grind [Res.memCanonical, canonical_word]

theorem canonical_chainSeed {o ident act f} (h : s.memCanonical) : (chainSeed o ident act f s).2.memCanonical := by
  unfold chainSeed
  grind [canonical_draw]

theorem canonical_scanWord {o op ident} (h : s.memCanonical) : Out.memCanonical (scanWord o op ident s) := by
  unfold scanWord
  grind [Res.memCanonical, canonical_word, canonical_chainSeed]

theorem canonical_redWord {o op ident} (h : s.memCanonical) : Out.memCanonical (redWord o op ident s) := by
  unfold redWord
  grind [Res.memCanonical, canonical_word, canonical_chainSeed]

theorem canonical_redixWord {o better ident} (h : s.memCanonical) :
    Out.memCanonical (redixWord o better ident s) := by
  unfold redixWord
  grind [Res.memCanonical, canonical_word]

theorem canonical_execLPick {o} (h : s.memCanonical) : Out.memCanonical (execLPick o s) := by
  unfold execLPick
  grind [Res.memCanonical, canonical_word]

theorem canonical_execLVoteAny {o} (h : s.memCanonical) : Out.memCanonical (execLVoteAny o s) := by
  unfold execLVoteAny
  grind [Res.memCanonical, canonical_word]

theorem canonical_execLVoteAll {o} (h : s.memCanonical) : Out.memCanonical (execLVoteAll o s) := by
  unfold execLVoteAll
  grind [Res.memCanonical, canonical_word]

theorem canonical_execLBallot {o} (h : s.memCanonical) : Out.memCanonical (execLBallot o s) := by
  unfold execLBallot
  grind [Res.memCanonical, canonical_word]

theorem canonical_samRead {a n} (h : s.memCanonical) : IfOk (·.2.memCanonical) (s.samRead a n) := by
  unfold State.samRead
  grind [IfOk, canonical_hostGet]

theorem canonical_samStore {p bs kind} (h : s.memCanonical) : (s.samStore p bs kind).memCanonical := by
  unfold State.samStore
  grind [State.memCanonical, canonical_hostPut]

theorem canonical_samWrite {a bs kind} (h : s.memCanonical) : IfOk (·.memCanonical) (s.samWrite a bs kind) := by
  unfold State.samWrite
  grind [IfOk, canonical_samStore]

theorem canonical_freeSleep {k c} (h : s.memCanonical) : (s.freeSleep k c).memCanonical := by
  unfold State.freeSleep
  grind [canonical_setWatches]

theorem canonical_samWord {body : Nat → SamCore → State → SamRes} {o}
    (hbody : ∀ a b t, t.memCanonical → (body a b t).memCanonical) (h : s.memCanonical) :
    Out.memCanonical (samWord o body s) := by
  unfold samWord
  grind [Out.memCanonical, SamRes.memCanonical, Res.memCanonical, canonical_putSam, canonical_freeSleep]

theorem canonical_ringFetch {d dst} (h : s.memCanonical) : IfOk (·.2.memCanonical) (ringFetch d dst s) := by
  unfold ringFetch
  dsimp only
  split
  · trivial
  · refine IfOk.bind (canonical_samRead h) fun t ht => IfOk.bind (canonical_samRead ht) fun e he => ?_
    split
    · trivial
    · split
      · exact he
      · exact IfOk.bind (canonical_samRead he) fun b hb => IfOk.bind (canonical_samWrite hb) fun u hu =>
          IfOk.bind (canonical_samWrite hu) fun v hv => hv

theorem canonical_execRgfetch {o} (h : s.memCanonical) : Out.memCanonical (execRgfetch o s) := by
  unfold execRgfetch
  grind [IfOk, SamRes.memCanonical, Res.memCanonical, canonical_samWord, canonical_samRead, canonical_ringFetch]

theorem canonical_execBfext {o} (h : s.memCanonical) : Out.memCanonical (execBfext o s) := by
  unfold execBfext
  grind [SamRes.memCanonical, Res.memCanonical, canonical_samWord]

theorem canonical_freeSamAt {k pa} (h : s.memCanonical) : (s.freeSamAt k pa).memCanonical := canonical_setWatches h

theorem canonical_execSigwait {o} (h : s.memCanonical) : Out.memCanonical (execSigwait o s) := by
  unfold execSigwait
  grind [IfOk, SamRes.memCanonical, Res.memCanonical, canonical_samWord, canonical_samRead, canonical_freeSamAt,
    canonical_arm]

theorem canonical_execDispatch {o} (h : s.memCanonical) : Out.memCanonical (execDispatch o s) := by
  unfold execDispatch
  grind [SamRes.memCanonical, Res.memCanonical, canonical_samWord, canonical_accept]

theorem canonical_execSysr {o} (h : s.memCanonical) : Out.memCanonical (execSysr o s) := by
  unfold execSysr
  grind [Res.memCanonical, canonical_word]

theorem canonical_execSysw {o} (h : s.memCanonical) : Out.memCanonical (execSysw o s) := by
  unfold execSysw
  grind [Res.memCanonical, canonical_word]

theorem canonical_execSlackImm {o} (h : s.memCanonical) : Out.memCanonical (execSlackImm o s) := by
  unfold execSlackImm
  grind [Res.memCanonical, canonical_word]

theorem canonical_execSlackReg {o} (h : s.memCanonical) : Out.memCanonical (execSlackReg o s) := by
  unfold execSlackReg
  grind [Res.memCanonical, canonical_word]

theorem canonical_execRdcnt {o} (h : s.memCanonical) : Out.memCanonical (execRdcnt o s) := by
  unfold execRdcnt
  grind [Res.memCanonical, canonical_word]

/-! ## The dispatch, base code of Samovar, outside events and the step (02, 21) -/

/-- Every row of the dispatch, words and outside events alike. -/
theorem canonical_exec {i} (h : s.memCanonical) : Out.memCanonical (exec i s) := by
  cases i with
  | lAdd o | lAddSatI32 o | lAddSatN32 o | lSub o | lSubSatI32 o | lSubSatN32 o | lMul o | lMulhI32 o | lMulhN32 o
  | lMad o | lMinI32 o | lMinN32 o | lMaxI32 o | lMaxN32 o | lAnd o | lOr o | lXor o | lAndn o | lShl o | lShr o
  | lSar o | lRol o | lBfxI32 o | lBfxN32 o | lBfi o | lAminI32 o | lAminN32 o | lAmaxI32 o | lAmaxN32 o | lFadd o
  | lFsub o | lFmul o | lFfma o | lFmin o | lFmax o | lFminNan o | lFmaxNan o | lCvtfBf16x2F32 o | lCvtfF16x2F32 o
  | lHadd2Bf16 o | lHadd2F16 o | lHmul2Bf16 o | lHmul2F16 o | lHfma2Bf16 o | lHfma2F16 o | lFcopysign o
    => exact canonical_laneR h
  | lPopc o | lClz o | lBrev o | lFfs o | lFrcp o | lFrsq o | lFex2 o | lFlg2 o | lCvtiI32F32 o | lCvtiN32F32 o
  | lCvtiF32I32 o | lCvtiF32N32 o | lCvtfF32Bf16 o | lCvtfF32F16 o | lCvt8F32E4m3 o | lCvt8F32E5m2 o | lFabs o
  | lFneg o => exact canonical_laneA h
  | lSel o | lMov o | lSid o | lLid o | lCvt8E4m3F32 o | lCvt8E5m2F32 o | lPget o | lAddi o | lMovi o | lMuli o
    => exact canonical_laneWord h
  | lCmpI32 o | lCmpN32 o | lFcmp o | lFcmpUn o => exact canonical_laneCmp h
  | lXch o | lXchImm o | lXchXor o | lShup o | lShdn o | lShupWrap o | lShdnWrap o => exact canonical_exchange h
  | lScanAddI32 o | lScanAddF32 o | lScanMinI32 o | lScanMaxI32 o => exact canonical_scanWord h
  | lRedAddI32 o | lRedAddF32 o | lRedAnd o | lRedOr o => exact canonical_redWord h
  | lRedixMinI32 o | lRedixMinN32 o | lRedixMaxI32 o | lRedixMaxN32 o => exact canonical_redixWord h
  | lPick o => exact canonical_execLPick h
  | lVoteAny o => exact canonical_execLVoteAny h
  | lVoteAll o => exact canonical_execLVoteAll h
  | lBallot o => exact canonical_execLBallot h
  | lDbr o => exact canonical_execLDbr h
  | lDmark o => exact canonical_execLDmark h
  | lJoin o => exact canonical_execLJoin h
  | lExit o => exact canonical_execLExit h
  | lPset o => exact canonical_execLPset h
  | lLd o | lLdNc o => exact canonical_laneLoad h
  | lSt o | lStNc o => exact canonical_laneStore h
  | lLdAcq o => exact canonical_execLLdAcq h
  | lStRel o => exact canonical_execLStRel h
  | lAtom o | lAtomxXchg o | lAtomxCas o | lAtomxAddF32 o => exact canonical_laneAtom h
  | lRatom o | lRatomAddF32 o => exact canonical_ratomWord h
  | lPf o => exact canonical_execLPf h
  | uAdd o | uAddSatI32 o | uAddSatN32 o | uSub o | uSubSatI32 o | uSubSatN32 o | uMul o | uMulhI32 o | uMulhN32 o
  | uMad o | uMinI32 o | uMinN32 o | uMaxI32 o | uMaxN32 o | uAnd o | uOr o | uXor o | uAndn o | uShl o | uShr o
  | uSar o | uRol o | uAminI32 o | uAminN32 o | uAmaxI32 o | uAmaxN32 o | uDivI32 o | uDivN32 o | uRemI32 o
  | uRemN32 o => exact canonical_uniR h
  | uPopc o | uClz o | uBrev o | uFfs o | uFrcp o | uFrsq o | uFex2 o | uFlg2 o | uCvtiI32F32 o | uCvtiN32F32 o
  | uCvtiF32I32 o | uCvtiF32N32 o => exact canonical_uniA h
  | uBfxI32 o | uBfxN32 o | uBfi o | uFadd o | uFsub o | uFmul o | uFfma o | uFmin o | uFmax o | uFminNan o
  | uFmaxNan o => exact canonical_uniD h
  | uSel o | uLit o => exact canonical_uniWord h
  | uCmpI32 o | uCmpN32 o | uCmp64 o | uFcmp o | uFcmpUn o | uCmpi o => exact canonical_uniCmp h
  | uAdd64 o | uSub64 o | uAddi64 o => exact canonical_uniWide h
  | uAddi o | uLi o | uLui o | uMuli o => exact canonical_uniI h
  | br o => exact canonical_execBr h
  | call o => exact canonical_execCall h
  | jr o => exact canonical_execJr h
  | callr o => exact canonical_execCallr h
  | ret o => exact canonical_execRet h
  | loopW o => exact canonical_execLoopW h
  | rotset o => exact canonical_execRotset h
  | rotbase o => exact canonical_execRotbase h
  | fork o => exact canonical_execFork h
  | forkPlacement wk fid => exact canonical_execForkPlacement h
  | fctlEnd o => exact canonical_execFctlEnd h
  | yield o => exact canonical_execYield h
  | vgrow o => exact canonical_execVgrow h
  | vgrowGrant wk fid => exact canonical_execVgrowGrant h
  | vshrink o => exact canonical_execVshrink h
  | coreSpill core => exact canonical_execCoreSpill h
  | spillRestore wk fid => exact canonical_execSpillRestore h
  | trap o => exact canonical_execTrap h
  | tret o => exact canonical_execTret h
  | brk o => exact canonical_execBrk h
  | nop o => exact canonical_execNop h
  | lateTrap wk fid => exact canonical_execLateTrap h
  | accessCompletion wk fid => exact canonical_execAccessCompletion h
  | uLd o | uSt o | uLdAcq o | uStRel o => exact canonical_uniMem h
  | uAtom o | uAtomxXchg o | uAtomxCas o | uAtomxAddF32 o => exact canonical_uniAtom h
  | wb o | inv o => exact canonical_rangeCtl h
  | smap o => exact canonical_execSmap h
  | sunmap o => exact canonical_execSunmap h
  | lazyStashWriteBack wk off => exact canonical_execLazyStashWriteBack h
  | cwaitLd o | cwaitSt o => exact canonical_cwait h
  | cwaitEng o => exact canonical_execCwaitEng h
  | barArrive o => exact canonical_execBarArrive h
  | barWait o => exact canonical_execBarWait h
  | barSync o => exact canonical_execBarSync h
  | knotArrive o | knotWait o | knotSync o => exact canonical_knotWord h
  | qbind o => exact canonical_execQbind h
  | qgive o => exact canonical_execQgive h
  | qtry o => exact canonical_execQtry h
  | qclose o => exact canonical_execQclose h
  | tkwait o => exact canonical_execTkwait h
  | tkpass o => exact canonical_execTkpass h
  | tkpoll o => exact canonical_execTkpoll h
  | watchArm o => exact canonical_execWatchArm h
  | wwait o => exact canonical_execWwait h
  | disarm o => exact canonical_execDisarm h
  | tokpass o => exact canonical_execTokpass h
  | tokq o => exact canonical_execTokq h
  | trig o => exact canonical_execTrig h
  | post o => exact canonical_execPost h
  | bcinit o => exact canonical_execBcinit h
  | bcwait o => exact canonical_execBcwait h
  | bcadd o => exact canonical_execBcadd h
  | bcphase o => exact canonical_execBcphase h
  | mma o => exact canonical_execMma h
  | mmaStart wk => exact canonical_execMmaStart h
  | mmaGranule wk => exact canonical_execMmaGranule h
  | mmaCompletion wk => exact canonical_execMmaCompletion h
  | mswap o => exact canonical_execMswap h
  | mclr o => exact canonical_execMclr h
  | mflag o => exact canonical_execMflag h
  | cpy o => exact canonical_execCpy h
  | cpyMc o => exact canonical_execCpyMc h
  | cpyr o => exact canonical_execCpyr h
  | cpyrApply n => exact canonical_execCpyrApply h
  | gath o => exact canonical_execGath h
  | qdual o => exact canonical_execQdual h
  | ldrain o => exact canonical_execLdrain h
  | copyGranule core ch => exact canonical_execCopyGranule h
  | copyCommandEnd core ch => exact canonical_execCopyCommandEnd h
  | engineTranslationStall core ch => exact canonical_execEngineTranslationStall h
  | samp o => exact canonical_execSamp h
  | rng o => exact canonical_execRng h
  | repW o => exact canonical_execRepW h
  | seqnext o => exact canonical_execSeqnext h
  | tokdlv o => exact canonical_execTokdlv h
  | seqstop o => exact canonical_execSeqstop h
  | pgopAlloc o | pgopRef o | pgopUnref o | pgopCow o | pgopEvict o | pgopPromote o | pgopSend o
    => exact canonical_pgopWord h
  | caddyDataMoveDone die n => exact canonical_execCaddyDataMoveDone h
  | automaticEviction die => exact canonical_execAutomaticEviction h
  | tset o => exact canonical_execTset h
  | tanc o => exact canonical_execTanc h
  | tdepth o => exact canonical_execTdepth h
  | tclr o => exact canonical_execTclr h
  | sysr o => exact canonical_execSysr h
  | sysw o => exact canonical_execSysw h
  | slackImm o => exact canonical_execSlackImm h
  | slackReg o => exact canonical_execSlackReg h
  | rdcnt o => exact canonical_execRdcnt h
  | workgroupExit wk => exact canonical_execWorkgroupExit h
  | hostLaunchQueueEntry qid => exact canonical_execHostLaunchQueueEntry h
  | launchDispatch qid => exact canonical_execLaunchDispatch h
  | placerRound die => exact canonical_execPlacerRound h
  | headReservation die qid => exact canonical_execHeadReservation h
  | timeSliceExpiry launch cluster => exact canonical_execTimeSliceExpiry h
  | contextSave wk => exact canonical_execContextSave h
  | contextRestore wk => exact canonical_execContextRestore h
  | watchdogExpiry wk => exact canonical_execWatchdogExpiry h
  | unitTeardown wk => exact canonical_execUnitTeardown h
  | resolutionLimitExpiry wk fid => exact canonical_execResolutionLimitExpiry h
  | tokenPass launch => exact canonical_execTokenPass h
  | tokenReceipt launch => exact canonical_execTokenReceipt h
  | deterministicSave launch => exact canonical_execDeterministicSave h
  | submissionTailFire q => exact canonical_execSubmissionTailFire h
  | submitRecord q => exact canonical_execSubmitRecord h
  | cancelRecord q => exact canonical_execCancelRecord h
  | iterationForm model => exact canonical_execIterationForm h
  | consWatchFire slot => exact canonical_execConsWatchFire h
  | parkLimit slot => exact canonical_execParkLimit h
  | pollTimer => exact canonical_execPollTimer h
  | fabWr p => exact canonical_execFabWr h
  | fabWrrel p => exact canonical_execFabWrrel h
  | fabRd p => exact canonical_execFabRd h
  | fabRdrsp p => exact canonical_execFabRdrsp h
  | fabAt p => exact canonical_execFabAt h
  | fabAtrsp p => exact canonical_execFabAtrsp h
  | fabDone p => exact canonical_execFabDone h
  | fabErr p => exact canonical_execFabErr h
  | fabPgxfer p => exact canonical_execFabPgxfer h
  | fabPgack p => exact canonical_execFabPgack h
  | fabPgrel p => exact canonical_execFabPgrel h
  | fabPgrd p => exact canonical_execFabPgrd h
  | custodyAck n => exact canonical_execCustodyAck h
  | custodyResend n => exact canonical_execCustodyResend h
  | custodyTimeout n => exact canonical_execCustodyTimeout h
  | packageColdReset => exact canonical_execPackageColdReset h
  | packageWarmReset => exact canonical_execPackageWarmReset h
  | dieReset die => exact canonical_execDieReset h
  | clusterReset cluster => exact canonical_execClusterReset h
  | coreReset core => exact canonical_execCoreReset h
  | matrixEngineReset core => exact canonical_execMatrixEngineReset h
  | copyEngineReset core => exact canonical_execCopyEngineReset h
  | caddyReset die => exact canonical_execCaddyReset h
  | kettleReset => exact canonical_execKettleReset h
  | fabricPortReset port => exact canonical_execFabricPortReset h
  | hostFunctionReset vf => exact canonical_execHostFunctionReset h
  | samovarCoreReset core => exact canonical_execSamovarCoreReset h
  | powerStateChange target => exact canonical_execPowerStateChange h
  | powerCapWrite watts => exact canonical_execPowerCapWrite h
  | thermalThrottle die => exact canonical_execThermalThrottle h
  | thermalDieReset die => exact canonical_execThermalDieReset h
  | bootRom => exact canonical_execBootRom h
  | recoveryImage img => exact canonical_execRecoveryImage h
  | requestUpdate => exact canonical_execRequestUpdate h
  | passComponentTable => exact canonical_execPassComponentTable h
  | updateComponent img => exact canonical_execUpdateComponent h
  | transferComplete => exact canonical_execTransferComplete h
  | verifyComplete => exact canonical_execVerifyComplete h
  | applyComplete => exact canonical_execApplyComplete h
  | activateFirmware => exact canonical_execActivateFirmware h
  | updateReadyTimeout => exact canonical_execUpdateReadyTimeout h
  | securityVersionFuse => exact canonical_execSecurityVersionFuse h
  | getVersion => exact canonical_execGetVersion h
  | getCapabilities => exact canonical_execGetCapabilities h
  | negotiateAlgorithms offer => exact canonical_execNegotiateAlgorithms h
  | getDigests => exact canonical_execGetDigests h
  | getCertificate slot => exact canonical_execGetCertificate h
  | spdmChallenge nonce => exact canonical_execSpdmChallenge (n := nonce) h
  | getMeasurements index => exact canonical_execGetMeasurements h
  | keyExchange session => exact canonical_execKeyExchange h
  | spdmFinish session => exact canonical_execSpdmFinish h
  | endSession session => exact canonical_execEndSession h
  | ideStreamInsecure stream => exact canonical_execIdeStreamInsecure h
  | getSensorReading id => exact canonical_execGetSensorReading h
  | setAsidRoot who tenant asid root => exact canonical_execSetAsidRoot h
  | invalidateTranslation who asid lo len => exact canonical_execInvalidateTranslation h
  | resolveFault who place entries => exact canonical_execResolveFault h
  | declareUnresolved who place => exact canonical_execDeclareUnresolved h
  | registerModel who p => exact canonical_execRegisterModel h
  | registerQueue who p => exact canonical_execRegisterQueue h
  | setBudgets who p => exact canonical_execSetBudgets h
  | fabricSetup who p => exact canonical_execFabricSetup h
  | portPersonalitySelect port hawser => exact canonical_execPortPersonalitySelect h
  | cancelLaunch who launch => exact canonical_execCancelLaunch h
  | sizePools who p => exact canonical_execSizePools h
  | debugTokenRequest target tenant => exact canonical_execDebugTokenRequest h
  | lifecycleChange target => exact canonical_execLifecycleChange h
  | hostWriteTlp fn pa bytes ep => exact canonical_execHostWriteTlp h
  | hostReadTlp fn pa len => exact canonical_execHostReadTlp h
  | hostAtomicop fn op wide pa x y => exact canonical_execHostAtomicop h
  | mmioRegisterWrite fn off val => exact canonical_execMmioRegisterWrite h
  | rgfetch o => exact canonical_execRgfetch h
  | bfext o => exact canonical_execBfext h
  | sigwait o => exact canonical_execSigwait h
  | dispatch o => exact canonical_execDispatch h
  | linkLevelRetry link => exact canonical_execLinkLevelRetry (n := link) h
  | badpktDrop p => exact canonical_execBadpktDrop h
  | uetUnsupportedPacketDrop port => exact canonical_execUetUnsupportedPacketDrop h
  | trainingStepComplete ok => exact canonical_execTrainingStepComplete h
  | resetComplete unit => exact canonical_execResetComplete h
  | powerLoss => exact canonical_execPowerLoss h
  | imageReportsReady => exact canonical_execImageReportsReady h
  | ideKmRequest stream key vfs => exact canonical_execIdeKmRequest h

theorem canonical_rvLoad {f3 a} (h : s.memCanonical) : IfOk (·.2.memCanonical) (s.rvLoad f3 a) := by
  unfold State.rvLoad
  grind [IfOk, canonical_samRead]

theorem canonical_rvStore {f3 a v} (h : s.memCanonical) : IfOk (·.memCanonical) (s.rvStore f3 a v) := by
  unfold State.rvStore
  grind [IfOk, canonical_samWrite]

theorem canonical_rvLr {f3 c a} (h : s.memCanonical) : IfOk (·.2.2.memCanonical) (rvLr f3 c a s) := by
  unfold rvLr
  grind [IfOk]

theorem canonical_rvSc {f3 c a v} (h : s.memCanonical) : IfOk (·.2.2.memCanonical) (rvSc f3 c a v s) := by
  unfold rvSc
  grind [IfOk, canonical_samStore]

theorem canonical_rvAmoAt {f3 f5 a v} (h : s.memCanonical) : IfOk (·.2.memCanonical) (rvAmoAt f3 f5 a v s) := by
  unfold rvAmoAt
  grind [IfOk, canonical_samRead, canonical_samStore]

theorem canonical_rvCsr {k c x next} (h : s.memCanonical) : IfOk (·.2.memCanonical) (rvCsr k c x next s) := by
  unfold rvCsr
  grind [IfOk]

theorem canonical_rvSystem {k c x next} (h : s.memCanonical) : IfOk (·.2.memCanonical) (rvSystem k c x next s) := by
  unfold rvSystem
  grind [IfOk, canonical_rvCsr]

theorem canonical_rvAtomic {k c x next} (h : s.memCanonical) : IfOk (·.2.memCanonical) (rvAtomic k c x next s) := by
  unfold rvAtomic
  dsimp only
  split
  · trivial
  · split
    · split
      · trivial
      · exact (canonical_rvLr h).map fun _ hr => hr
    · split
      · exact (canonical_rvSc h).map fun _ hr => hr
      · split
        · trivial
        · exact (canonical_rvAmoAt h).map fun _ hr => hr

theorem canonical_rvExec {k c x next} (h : s.memCanonical) : IfOk (·.2.memCanonical) (rvExec k c x next s) := by
  have hload : ∀ f3 a, IfOk (·.2.memCanonical) ((s.rvLoad f3 a).map fun r => (c.put x r.1 next, r.2)) :=
    fun _ _ => (canonical_rvLoad h).map fun _ hr => hr
  have hstore : ∀ f3 a b, IfOk (·.2.memCanonical)
      ((s.rvStore f3 a b).map fun t => ({ samAgain k c t with pc := next }, t)) :=
    fun _ _ _ => (canonical_rvStore h).map fun _ hr => hr
  have hvalue : ∀ v : Option DWord, IfOk (·.2.memCanonical) (match v with
      | none => (.error (2, x.setWidth 64) : RvRes)
      | some v => .ok (c.put x v next, s)) := by
    rintro (_ | v)
    · trivial
    · exact h
  unfold rvExec
  grind [IfOk, canonical_rvAtomic, canonical_rvSystem]

theorem canonical_samFetch {k} (h : s.memCanonical) : (s.samFetch k).2.memCanonical := by
  unfold State.samFetch
  grind [IfOk, canonical_samRead]

theorem canonical_samBase {r : RvRes} {k} (h : s.memCanonical) (hr : IfOk (·.2.memCanonical) r) :
    (s.samBase k r).memCanonical := by
  unfold State.samBase
  grind [IfOk, canonical_putSam]

theorem canonical_samStep {k x} (h : s.memCanonical) : (s.samStep k x).memCanonical := by
  unfold State.samStep
  grind [IfOk, canonical_samBase, canonical_rvExec]

theorem canonical_upset {pa} (h : s.memCanonical) : (s.upset pa).memCanonical := by
  unfold State.upset
  grind [canonical_poisonAt]

theorem canonical_scratchUpset {wk off} (h : s.memCanonical) : (s.scratchUpset wk off).memCanonical := by
  unfold State.scratchUpset
  grind [canonical_scratchPoison]

theorem canonical_bankUpset {wk slot second} (h : s.memCanonical) : (s.bankUpset wk slot second).memCanonical :=
  canonical_updWg h

theorem canonical_l1Upset {core va} (h : s.memCanonical) : (s.l1Upset core va).memCanonical := canonical_putCore h

theorem canonical_scaleUpset {wk off} (h : s.memCanonical) : (s.scaleUpset wk off).memCanonical := by
  unfold State.scaleUpset
  grind [canonical_draw, canonical_updWg]

theorem canonical_rowUpset {wk fid row} (h : s.memCanonical) : (s.rowUpset wk fid row).memCanonical := by
  unfold State.rowUpset
  grind [canonical_freeBytes, canonical_updWg]

/-- An upset that no code sees puts other bytes in one sector (21 R370). -/
theorem canonical_corrupt {pa bytes} (h : s.memCanonical) : (s.corrupt pa bytes).memCanonical := by
  have hwrite : (s.setMem (cellWrite s.mem (32 * (pa / 32)) (bytes.take 32))).memCanonical := wf_cellWrite _ _ _ h
  unfold State.corrupt
  grind [canonical_setStale]

theorem canonical_samInterrupt {k pending} (h : s.memCanonical) : (s.samInterrupt k pending).memCanonical := by
  unfold State.samInterrupt
  grind [canonical_putSam]

theorem canonical_stimulate {x} (h : s.memCanonical) : Out.memCanonical (stimulate x s) := by
  cases x with
  | row i =>
    unfold stimulate
    dsimp only
    split
    · exact canonical_exec h
    · exact h
  | corrected => exact canonical_powered (fun _ ht => canonical_setFw ht) h
  | upset pa => exact canonical_powered (fun _ ht => canonical_upset ht) h
  | scratchUpset wk off => exact canonical_powered (fun _ ht => canonical_scratchUpset ht) h
  | bankUpset wk slot second => exact canonical_powered (fun _ ht => canonical_bankUpset ht) h
  | l1Upset core va => exact canonical_powered (fun _ ht => canonical_l1Upset ht) h
  | scaleUpset wk off => exact canonical_powered (fun _ ht => canonical_scaleUpset ht) h
  | rowUpset wk fid row => exact canonical_powered (fun _ ht => canonical_rowUpset ht) h
  | corrupt pa bytes => exact canonical_powered (fun _ ht => canonical_corrupt ht) h
  | debugRead k n => exact canonical_powered (fun _ ht => canonical_debugRead ht) h
  | debugWrite n x => exact canonical_powered (fun _ ht => canonical_debugWrite ht) h
  | samInterrupt k p => exact canonical_powered (fun _ ht => canonical_samInterrupt ht) h
  | clearPeak id => exact canonical_managed (fun _ ht => canonical_clearPeak ht) h
  | sensorAway id away => exact canonical_powered (fun _ ht => canonical_sensorAway ht) h
  | mmioRead fn off => exact canonical_powered (fun _ ht => canonical_mmioRead ht) h
  | armMsix vf v va mask operand cond => exact canonical_powered (fun _ ht => canonical_armMsix ht) h
  | stageImage session img => exact canonical_powered (fun _ ht => canonical_stageImage ht) h

theorem canonical_issueCustom {k x} (h : s.memCanonical) : Out.memCanonical (issueCustom k x s) := by
  unfold issueCustom
  grind [Out.memCanonical, State.memCanonical, canonical_exec, canonical_putSam]

theorem canonical_issueSam {k} (h : s.memCanonical) : Out.memCanonical (issueSam k s) := by
  unfold issueSam
  grind [Out.memCanonical, canonical_putSam, canonical_samFetch, canonical_issueCustom, canonical_samStep]

theorem canonical_fetchWord {w a} (h : s.memCanonical) : IfOk (·.2.memCanonical) (fetchWord s w a) := by
  unfold fetchWord
  grind [IfOk, canonical_translate, canonical_iLook, canonical_sliceRead, canonical_iFill]

theorem canonical_fetchBytes {w f} (h : s.memCanonical) : IfOk (·.2.memCanonical) (fetchBytes s w f) := by
  unfold fetchBytes
  grind [IfOk, canonical_fetchWord]

theorem canonical_lookAround {wk w i} (h : s.memCanonical) : (s.lookAround wk w i).memCanonical := by
  unfold State.lookAround
  grind [canonical_updWg]

theorem canonical_issueFibre {wk fid} (h : s.memCanonical) : Out.memCanonical (issueFibre wk fid s) := by
  unfold issueFibre
  split
  · trivial
  · next w _ =>
    split
    · trivial
    · next f _ =>
      have hfetch : IfOk (·.2.memCanonical) (fetchBytes { s with cur := ⟨wk, fid, 4⟩ } w f) := canonical_fetchBytes h
      dsimp only
      split
      · exact canonical_raiseFetch (canonical_faultWalk (s := { s with cur := ⟨wk, fid, 4⟩ }) h)
      · next b t ht =>
        rw [ht] at hfetch
        split
        · exact canonical_raiseAt hfetch
        · split
          · exact canonical_exec (canonical_putFibre (canonical_lookAround hfetch))
          · exact canonical_putFibre (s := t) hfetch

theorem canonical_act {a} (h : s.memCanonical) : Out.memCanonical (act a s) := by
  unfold act
  grind [Out.memCanonical, State.memCanonical, canonical_issueFibre, canonical_issueSam, canonical_exec,
    canonical_stimulate]

theorem canonical_State_advance (h : s.memCanonical) : s.advance.memCanonical := by
  unfold State.advance
  grind [State.memCanonical, canonical_notePeaks, canonical_State_passClaims]

theorem canonical_oneActs {as} (h : s.memCanonical) : Out.memCanonical (oneActs as s) := by
  unfold oneActs
  grind [Out.memCanonical, State.memCanonical, canonical_act]

/-- What a step of the system answers is canonical again. -/
theorem canonical_step (h : s.memCanonical) : Out.memCanonical (step s) := by
  unfold step
  grind [canonical_oneActs, canonical_State_advance]

end

/-- Settles O57: each function that a step runs keeps the form (`canonical_step`). -/
theorem stepKeepsMemoryCanonical : Obligations.StepKeepsMemoryCanonical := by
  intro s t h hst
  have ht : Out.memCanonical (step s) := canonical_step h
  rw [hst] at ht
  exact ht

end Sys2Proof.Machine
end

section
/-! # Queue ports: a pop takes the oldest element, a push appends (09 R182, R183) -/

namespace Sys2Proof.Machine
variable {s : State} {w : Workgroup} {slot : Nat} {q : KQueue}

/-- The queue of a slot stands in the launches: states with the same launches have the same queues. -/
theorem queueAt_congr {t : State} (h : t.launches = s.launches) (w : Workgroup) (slot : Nat) :
    t.queueAt w slot = s.queueAt w slot := by
  simp only [State.queueAt, State.knotAt, State.launch, h]

theorem launches_syncQueue (s : State) (w : Workgroup) (uid slot : Nat) (push : Bool) :
    (s.syncQueue w uid slot push).launches = s.launches := by
  unfold State.syncQueue
  split
  · unfold State.syncAt
    split <;> rfl
  · rfl

theorem launches_acquire (s : State) (c scope : Nat) : (s.acquire c scope).launches = s.launches := by
  unfold State.acquire
  split <;> rfl

/-- A change of a slot's queue is a change of the queue that the slot then has. -/
theorem queueAt_updQueue (h : s.queueAt w slot = some q) (g : KQueue → KQueue) :
    (s.updQueue w slot g).queueAt w slot = some (g q) := by
  unfold State.queueAt State.knotAt at h
  cases hknot : w.knotOf slot with
  | none => simp [hknot] at h
  | some e =>
    cases hlaunch : s.launch w.launch with
    | none => simp [hknot, hlaunch] at h
    | some l =>
      cases hk : l.knots.find e with
      | none => simp [hknot, hlaunch, hk] at h
      | some k =>
        have hq : k.queue = some q := by simpa [hknot, hlaunch, hk] using h
        simp [State.queueAt, State.knotAt, State.updQueue, hknot, State.launch_updLaunch_self _ hlaunch,
          Tbl.upd_of_find hk, Tbl.find_put_self, hq]

/-- A pop takes the oldest element off the queue, which its acquire leaves alone. -/
theorem queueAt_popQueue (h : s.queueAt w slot = some q) (uid : Nat) :
    (s.popQueue w uid slot).queueAt w slot = some { q with elems := q.elems.drop 1 } := by
  have hsync : (s.syncQueue w uid slot false).queueAt w slot = some q := by
    rw [queueAt_congr (launches_syncQueue s w uid slot false), h]
  rw [State.popQueue, queueAt_congr (launches_acquire _ _ _), queueAt_updQueue hsync]

theorem port_setPort_self {f : Fibre} {n : Nat} (hn : n < 8) (p : Port) : (f.setPort n p).port n = p := by
  simp [Fibre.port, Fibre.setPort, vget, vset, Vector.getElem?_setIfInBounds_self_of_lt hn]

/-- A read of a register whose popped value is kept reads that value, whichever pipe reads. -/
theorem getS_of_popped {f : Fibre} {n : Nat} {x : Word} (h : Tbl.find f.popped n = some x) :
    f.getS n = x ∧ f.laneS n = x := by
  simp only [Fibre.getS, Fibre.laneS, h, and_self]

theorem popPort_eq {n : Nat} {f : Fibre} {x : Word} {xs : List Word}
    (hq : s.queueAt w (f.port (n - 48)).slot = some q) (helems : q.elems = x :: xs) :
    popPort w n f s = ({ f with popped := f.popped.put n x }, s.popQueue w f.uid (f.port (n - 48)).slot) := by
  unfold popPort
  dsimp only
  rw [hq]
  dsimp only
  rw [helems]
  rfl

/-- Settles O9: a pop keeps the head of the queue for the word and drops it; a push appends behind the others. -/
theorem portsMoveQueueElements : Obligations.PortsMoveQueueElements := by
  refine ⟨fun w n f s q x xs hq helems => ?_, fun w n f s q x hn hq => ?_⟩
  · have hpop : popPorts w [n] f s = popPort w n f s := rfl
    rw [popPort_eq hq helems] at hpop
    have hqueue := queueAt_popQueue hq f.uid
    rw [helems] at hqueue
    have hkept : Tbl.find ({ f with popped := f.popped.put n x } : Fibre).popped n = some x :=
      Tbl.find_put_self ..
    obtain ⟨huniform, hlane⟩ := getS_of_popped hkept
    exact ⟨_, _, hpop, huniform, hlane, hqueue, rfl⟩
  · have hsync : (s.syncQueue w f.uid (f.port n).slot true).queueAt w (f.port n).slot = some q := by
      rw [queueAt_congr (launches_syncQueue ..), hq]
    refine ⟨_, _, rfl, ?_, queueAt_updQueue hsync _⟩
    rw [port_setPort_self hn]

end Sys2Proof.Machine
end

section
/-! # Repeated atomics: one access, and what each strand fetches (09 R174) -/

namespace Sys2Proof.Machine

/-- The model rebuilds the strands' values and flags with accumulators. -/
theorem ratomFetch_eq (aop : Nat) : ∀ (ds : List Word) (old fl : Word) (out : List Word),
    ratomFetch aop ds old fl out = (out ++ Claims.fetched aop old ds, fl ||| Claims.fetchFlags aop old ds)
  | [], old, fl, out => by simp [ratomFetch, Claims.fetched, Claims.fetchFlags]
  | d :: ds, old, fl, out => by
    rw [ratomFetch, ratomFetch_eq aop ds, Claims.fetched, Claims.fetchFlags, List.append_assoc, BitVec.or_assoc]
    rfl

theorem ratomFetch_start (aop : Nat) (ds : List Word) (old : Word) :
    ratomFetch aop ds old 0 [] = (Claims.fetched aop old ds, Claims.fetchFlags aop old ds) := by
  rw [ratomFetch_eq]
  exact Prod.ext rfl BitVec.zero_or

theorem ratomEnds {i : Instr} {sc g0 : BitVec 2} {d b : BitVec 6} {aop : Nat}
    (he : ∀ s, exec i s = ratomWord sc g0 d b aop s) : Claims.RatomEnds i sc g0 d b aop := by
  intro s w f act g s1 u a ds hwf h htoken k t by_ fl tags late hacc
  refine ends_of_effect (he s) h ?_
  dsimp only
  rw [htoken, hacc]
  simp only [ratomFetch_start]
  rfl

/-- Settles O17: both forms are the one access whose answer the strands' operands are applied to in turn. -/
theorem repeatedAtomics : Obligations.RepeatedAtomics :=
  ⟨fun _ => ratomEnds fun _ => rfl, fun _ => ratomEnds fun _ => rfl⟩

end Sys2Proof.Machine
end

section
/-! # Stash mappings and counter waits (09 R176, R178) -/

namespace Sys2Proof.Machine

/-! ## Mappings (R176) -/

theorem addressBits (a : DWord) : BitVec.ofNat 64 (a.toNat % 2 ^ 56) = a &&& 0xFFFFFFFFFFFFFF := by
  apply BitVec.eq_of_toNat_eq
  rw [BitVec.toNat_and, BitVec.toNat_ofNat, show (0xFFFFFFFFFFFFFF : DWord).toNat = 2 ^ 56 - 1 from rfl,
    Nat.and_two_pow_sub_one_eq_mod]
  omega

/-- The marks that a new mapping hides are those of its range. -/
theorem outside_iff (off len k : Nat) :
    (!(decide (off ≤ 32 * k) && decide (32 * k < off + len))) = (decide (32 * k < off) || decide (off + len ≤ 32 * k)) := by
  simp only [Bool.not_and, ← decide_not, Nat.not_le, Nat.not_lt]

/-! ## Counter waits (R178) -/

theorem covered_cons (uid n : Nat) (t : Tile) (ts : List Tile) :
    Claims.covered uid n (t :: ts) =
      (if t.done && t.own.uid == uid && decide (n ≤ (ts.filter fun x => x.own.uid == uid).length) then
        { t with seenBy := t.seenBy ++ [uid] } else t) :: Claims.covered uid n ts := by
  simp only [Claims.covered, List.zipIdx_cons', List.map_cons, List.map_map]
  rfl

/-- The model walks the tiles; the table counts those behind each. -/
theorem coverOwn_eq_covered (uid n : Nat) : ∀ l : List Tile, coverOwn uid n l = Claims.covered uid n l
  | [] => rfl
  | t :: ts => by
    rw [coverOwn, covered_cons, coverOwn_eq_covered uid n ts]

theorem cwait_eq (o : SGIB) (k : Nat) (s : State) :
    cwait o k s = word (uUse o.s o.g (opB o.i o.b) []) noPre (fun _ _ _ f s =>
      if f.counter k ≤ (f.uB o.i o.b).toNat then .done f s else .wait f s (.cwait k (f.uB o.i o.b).toNat)) s := rfl

theorem cacheWords_end : Claims.WordsEnd Claims.cacheWords := by
  intro i r s w f act g s1 hi hwf h hfires
  unfold Claims.cacheWords at hi
  split at hi <;> cases hi
  case h_1 o =>
    have he : exec (.smap o) s = execSmap o s := rfl
    refine ends_of_effect he h ?_
    dsimp only
    simp only [tokenStall_eq_needsToken, addressBits, outside_iff, issues_cur h]
    rfl
  case h_2 o =>
    have he : exec (.cwaitLd o) s = cwait o 0 s := rfl
    exact ends_of_effect (he.trans (cwait_eq o 0 s)) h rfl
  case h_3 o =>
    have he : exec (.cwaitSt o) s = cwait o 1 s := rfl
    exact ends_of_effect (he.trans (cwait_eq o 1 s)) h rfl
  case h_4 o =>
    have he : exec (.cwaitEng o) s = execCwaitEng o s := rfl
    refine ends_of_effect he h ?_
    simp only [Workgroup.observeOwn, coverOwn_eq_covered, issues_cur h, ← Nat.not_le, ite_not]

/-- Settles O20: the model's ranges and its walk over the tiles are those of the table. -/
theorem mappingsAndCounters : Obligations.MappingsAndCounters := cacheWords_end

end Sys2Proof.Machine
end

section
/-! # The commit token, the trigger, `post` and the queue words (09 R181, R184, R185, R192 to R194) -/

namespace Sys2Proof.Machine

/-! ## The commit token and the trigger (R192, R193; 18 R333) -/

theorem not_needsToken (s : State) (w : Workgroup) : (!Claims.needsToken s w) = (!w.hdr.det || s.holdsToken w) := by
  rw [← tokenStall_eq_needsToken, State.tokenStall, Bool.not_and, Bool.not_not]

/-- In deterministic mode the word needs the token that its workgroup does not hold. -/
theorem needsToken_of_det {s : State} {w : Workgroup} (hdet : w.hdr.det = true) :
    Claims.needsToken s w = !s.holdsToken w := by
  rw [← tokenStall_eq_needsToken, State.tokenStall, hdet, Bool.true_and]

theorem tokenWords_end : Claims.WordsEnd Claims.tokenWords := by
  intro i r s w f act g s1 hi hwf h hfires
  unfold Claims.tokenWords at hi
  split at hi <;> cases hi
  case h_1 o =>
    have he : exec (.tokpass o) s = execTokpass o s := rfl
    refine ends_of_effect he h ?_
    dsimp only
    rw [issues_cur h]
    cases hdet : w.hdr.det
    · rfl
    · rw [needsToken_of_det hdet]
      rfl
  case h_2 o =>
    have he : exec (.tokq o) s = execTokq o s := rfl
    refine ends_of_effect he h ?_
    rw [← not_needsToken]
  case h_3 o =>
    have he : exec (.trig o) s = execTrig o s := rfl
    refine ends_of_effect he h ?_
    dsimp only
    rw [issues_cur h, tokenStall_eq_needsToken]
    rfl

/-- Settles O31: passing, asking for and setting are those of the table. -/
theorem tokenAndTrigger : Obligations.TokenAndTrigger := tokenWords_end

/-! ## `post` (R194) -/

/-- Settles O40: the neighbour's number and the order of the checks are those of the table. -/
theorem posting : Obligations.Posting := by
  intro i r s w f act g s1 hi hwf h hfires
  unfold Claims.postWords at hi
  split at hi <;> cases hi
  case h_1 o =>
    have he : exec (.post o) s = execPost o s := rfl
    refine ends_of_effect he h ?_
    dsimp only
    rw [tokenStall_eq_needsToken, postCluster, Nat.mul_comm 16]
    simp only [Bool.or_eq_true, decide_eq_true_eq]
    rfl

/-! ## Queue words (R184) -/

theorem closed_iff (q : KQueue) : q.closed = true ↔ q.hadOut = true ∧ q.outBinds = 0 := by
  simp [KQueue.closed]

theorem on_iff (x : BitVec 1) : on x = true ↔ x = 1 := by
  simp [on]

/-- A word goes on with the port that it names, or meets the port's fault. -/
theorem portNamed_elim {f : Fibre} {a : BitVec 6} {want : Option Bool} {out : Bool → Bool} {s : State}
    {go : Nat → Port → Res} (hout : ∀ b, out b = true ↔ want.getD b = b) :
    (match portNamed f a want with
      | .error t => Res.trap f s t 0
      | .ok (n, p) => go n p) = Claims.namedPort f a out s go := by
  unfold portNamed Claims.namedPort
  cases hbound : f.bound a.toNat with
  | none => rfl
  | some p =>
    dsimp only
    rw [if_congr (hout p.out) rfl rfl]
    by_cases h : want.getD p.out = p.out
    · rw [if_pos h, if_pos h]
    · rw [if_neg h, if_neg h]; rfl

/-- The port that a register names when it is bound is bound. -/
theorem bound_of_bound {f : Fibre} {n : Nat} {p : Port} (h : f.bound n = some p) : p.bound = true := by
  unfold Fibre.bound at h
  split at h
  · cases h
  · dsimp only at h
    split at h
    · rename_i hb
      cases h
      exact hb
    · cases h

theorem execQbind_eq (o : SGDRK) (s : State) :
    execQbind o s =
      word (uUse o.s o.g [] []) noPre (fun _ w _ f s => Claims.withToken s w f (
        if (f.port (o.d.toNat - 48)).bound then Claims.fault .queueState 1 0 f s
        else if w.hdr.knots.getLsbD o.k.toNat = false ∨ s.knotAt w o.k.toNat = none then Claims.fault .reservedField 0 0 f s
        else match s.queueAt w o.k.toNat with
          | none => Claims.fault .queueState 7 0 f s
          | some q =>
            if o.r = 1 ∧ q.hadOut = true ∧ q.outBinds = 0 then Claims.fault .queueState 6 0 f s
            else .done (f.setPort (o.d.toNat - 48) { bound := true, out := o.r == 1, slot := o.k.toNat, allow := 0 })
              (if o.r = 1 then s.updQueue w o.k.toNat KQueue.bindOut else s))) s := by
  unfold execQbind
  simp only [tokenStall_eq_needsToken, Bool.or_eq_true, Bool.not_eq_true', Option.isNone_iff_eq_none, Bool.and_eq_true,
    on_iff, closed_iff, bit]
  rfl

/-- A closed queue, or none, takes no element. -/
theorem givesNothing_iff (q : Option KQueue) (full go : Res) :
    (if ((q.map KQueue.closed).getD true) = true then full else go) =
      match q with
      | none => full
      | some x => if x.hadOut = true ∧ x.outBinds = 0 then full else go := by
  cases q with
  | none => rfl
  | some x => exact if_congr (closed_iff x) rfl rfl

theorem execQgive_eq (o : SGICAB) (s : State) :
    execQgive o s =
      word (uUse o.s o.g (opB o.i o.b) [.c o.c.toNat]).syncing noPre (fun _ w _ f s =>
        Claims.withToken s w f (Claims.namedPort f o.a id s fun n p =>
          match s.queueAt w p.slot with
          | none => .done (f.putC o.c.toNat false) s
          | some q =>
            if q.hadOut = true ∧ q.outBinds = 0 then .done (f.putC o.c.toNat false) s
            else
              let r := requestSlots s w f n
              if (r.1.port n).allow = 0 then .done (r.1.putC o.c.toNat false) r.2
              else .done ((pushPort r.2 w r.1 n (f.uB o.i o.b)).1.putC o.c.toNat true)
                (pushPort r.2 w r.1 n (f.uB o.i o.b)).2)) s := by
  unfold execQgive
  simp only [tokenStall_eq_needsToken, givesNothing_iff]
  simp only [← portNamed_elim (want := some true) (out := id) (fun b => eq_comm)]
  rfl

theorem execQtry_eq (o : SGCAB) (s : State) :
    execQtry o s =
      word (uUse o.s o.g [] [.c o.c.toNat, .s o.b.toNat]).acquiring noPre (fun _ w _ f s =>
        Claims.withToken s w f (Claims.namedPort f o.a not s fun _ p =>
          match s.queueAt w p.slot with
          | none => .done (f.putC o.c.toNat false) s
          | some q => match q.elems with
            | x :: _ => .done ((f.putS o.b.toNat x).putC o.c.toNat true) (s.popQueue w f.uid p.slot)
            | [] => .done ((f.putS o.b.toNat (if q.hadOut && q.outBinds == 0 then 1 else 0)).putC o.c.toNat false) s)) s := by
  unfold execQtry
  simp only [tokenStall_eq_needsToken]
  simp only [← portNamed_elim (want := some false) (out := not) (fun b => by cases b <;> decide)]
  rfl

/-- A port that a register names gives back its allowance and its binding if it is an out port. -/
theorem unbind_eq {f : Fibre} {a : BitVec 6} {p : Port} (h : f.bound a.toNat = some p) (s : State) (w : Workgroup) :
    s.unbind w p =
      if p.out then s.updQueue w p.slot fun q => { q with reserved := q.reserved - p.allow, outBinds := q.outBinds - 1 }
      else s := by
  rw [State.unbind, bound_of_bound h, Bool.true_and]

theorem execQclose_eq (o : SGA) (s : State) :
    execQclose o s =
      word (uUse o.s o.g [] []) noPre (fun _ w _ f s =>
        Claims.withToken s w f (Claims.namedPort f o.a (fun _ => true) s fun n p =>
          .done (f.setPort n { bound := false, out := false, slot := 0, allow := 0 }) (s.unbind w p))) s := by
  unfold execQclose
  simp only [tokenStall_eq_needsToken]
  simp only [← portNamed_elim (want := none) (out := fun _ => true) (fun b => by simp)]
  rfl

/-- Two ways to go on agree if they agree on the port that is named. -/
theorem namedPort_congr {f : Fibre} {a : BitVec 6} {out : Bool → Bool} {s : State} {go go' : Nat → Port → Res}
    (h : ∀ p, f.bound a.toNat = some p → go (a.toNat - 48) p = go' (a.toNat - 48) p) :
    Claims.namedPort f a out s go = Claims.namedPort f a out s go' := by
  unfold Claims.namedPort
  cases hbound : f.bound a.toNat with
  | none => rfl
  | some p => simp only [h p hbound]

/-- Settles O28: the model's checks of ports and queues are those of the table. -/
theorem queueWords : Obligations.QueueWords := by
  intro i r s w f act g s1 hi hwf h hfires
  unfold Claims.queueWords at hi
  split at hi <;> cases hi
  case h_1 o =>
    have he : exec (.qbind o) s = execQbind o s := rfl
    exact ends_of_effect (he.trans (execQbind_eq o s)) h rfl
  case h_2 o =>
    have he : exec (.qgive o) s = execQgive o s := rfl
    exact ends_of_effect (he.trans (execQgive_eq o s)) h rfl
  case h_3 o =>
    have he : exec (.qtry o) s = execQtry o s := rfl
    exact ends_of_effect (he.trans (execQtry_eq o s)) h rfl
  case h_4 o =>
    have he : exec (.qclose o) s = execQclose o s := rfl
    refine ends_of_effect (he.trans (execQclose_eq o s)) h ?_
    exact congrArg _ (namedPort_congr fun p hp => by rw [unbind_eq hp])

end Sys2Proof.Machine
end

section
/-! # Words on objects: tickets (09 R186, R187) -/

namespace Sys2Proof.Machine

theorem ok_of_toOption {ε α : Type} {x : Except ε α} {a : α} (h : x.toOption = some a) : x = .ok a := by
  cases x <;> simp_all [Except.toOption]

/-- The model says with `!=` that two things differ, the table with `≠`. -/
theorem bne_eq_decide_ne {α : Type} [BEq α] [LawfulBEq α] [DecidableEq α] (a b : α) : (a != b) = decide (a ≠ b) := by
  simp [bne, Bool.beq_eq_decide_eq]

theorem objToken_eq (s : State) (w : Workgroup) (a : DWord) : objToken s w a = Claims.objectNeedsToken s w a := by
  rw [objToken, Claims.objectNeedsToken, tokenStall_eq_needsToken, bne_eq_decide_ne]
  rfl

/-- A word that may go on for the table does not wait for the token. -/
theorem objToken_false {s : State} {w : Workgroup} {a : DWord} (h : (!Claims.objectNeedsToken s w a) = true) :
    objToken s w a = false := by
  rw [objToken_eq, ← Bool.not_eq_true', h]

theorem objToken_slept {s : State} {w : Workgroup} {a : DWord} {x : Bool}
    (h : (!Claims.objectNeedsToken s w a || x) = true) : (objToken s w a && !x) = false := by
  rw [objToken_eq, ← Bool.not_eq_true', Bool.not_and, Bool.not_not, h]

section
variable {s t : State} {wk : Nat} {w : Workgroup} {inAddr : Bool} {n : Nat} {a : DWord} {bs : List Byte} {p : Place}

/-- An object that is found has a place, and its bytes can be read there. -/
theorem objectAt_eq_some (h : Claims.objectAt wk w inAddr n a s = some (bs, p, t)) :
    objPlace s wk w inAddr n n a = .ok p ∧ objRead s w p n true a = .ok (bs, t) := by
  unfold Claims.objectAt at h
  cases hplace : objPlace s wk w inAddr n n a with
  | error => simp [hplace] at h
  | ok q =>
    cases hread : objRead s w q n true a with
    | error => simp [hplace, hread] at h
    | ok r =>
      simp only [hplace, hread, Option.some.injEq, Prod.mk.injEq] at h
      obtain ⟨hbs, rfl, ht⟩ := h
      exact ⟨rfl, hread.trans (congrArg Except.ok (Prod.ext hbs ht))⟩

/-- The checks of a ticket that is found and, for a `tkpass`, may be written: the claim, then POISON. -/
theorem tkCheck_of_objectAt (h : Claims.objectAt wk w true 8 a s = some (bs, p, t)) {write : Bool}
    (hwrite : write = true → ∀ va, p = .glob va → ∃ r, t.storePa w.core w.tenant va a = .ok r)
    (clash : Place → Option Trap) :
    tkCheck s wk w a write clash =
      match clash p with
      | some x => .error (x, t)
      | none => if poisonBit bs then .error (trapOf .ticketPoison 0 a, t) else .ok (bs, p, t) := by
  obtain ⟨hplace, hread⟩ := objectAt_eq_some h
  unfold tkCheck
  simp only [hplace, hread]
  cases p with
  | glob va =>
    cases write with
    | false => rfl
    | true =>
      obtain ⟨r, hr⟩ := hwrite rfl va rfl
      simp only [hr] <;> rfl
  | scratch | window | acc | fab => rfl

theorem claimClash_eq (s : State) (wk : Nat) (w : Workgroup) (p : Place) (n : Word) :
    claimClash s wk w p n = Claims.otherClaim wk s w p n := by
  unfold claimClash Claims.otherClaim
  cases w.claim with
  | none => rfl
  | some c => exact congrArg (_ || ·) (bne_eq_decide_ne c.2 n)

/-- A claim that clashes faults QUEUE_STATE 0x10, a poisoned object TICKET_POISON. -/
theorem tkCheck_claim (h : Claims.objectAt wk w true 8 a s = some (bs, p, t)) (m : Word) :
    tkCheck s wk w a false (fun p => if claimClash s wk w p m then some (qFault 0x10) else none) =
      if Claims.otherClaim wk s w p m then .error (qFault 0x10, t)
      else if (wordAt bs 4).getLsbD 0 then .error (trapOf .ticketPoison 0 a, t)
      else .ok (bs, p, t) := by
  rw [tkCheck_of_objectAt h (fun hw => absurd hw (by decide)), claimClash_eq]
  change _ = if _ then _ else if poisonBit bs = true then _ else _
  split_ifs <;> rfl

/-- A `tkwait` or `tkpoll` on an object that is found ends as the table says if its own part does. -/
theorem claim_elim (h : Claims.objectAt wk w true 8 a s = some (bs, p, t)) {m : Word} {f : Fibre} {x : Option Res} {e : Res}
    {go : List Byte → State → Res}
    (hres : (if Claims.otherClaim wk s w p m then pure (Claims.fault .queueState 0x10 0 f t)
      else if (wordAt bs 4).getLsbD 0 then pure (Claims.fault .ticketPoison 0 a f t) else x) = some e)
    (hgo : x = some e → go bs t = e) :
    (match tkCheck s wk w a false fun p => if claimClash s wk w p m then some (qFault 0x10) else none with
      | .error (x, s) => .trap f s x 0
      | .ok (bs, _, s) => go bs s) = e := by
  rw [tkCheck_claim h]
  split at hres
  case isTrue hclaim => cases hres; rw [if_pos hclaim]; rfl
  case isFalse hclaim =>
    rw [if_neg hclaim]
    split at hres
    case isTrue hpoison => cases hres; rw [if_pos hpoison]; rfl
    case isFalse hpoison => rw [if_neg hpoison]; exact hgo hres

/-- The checks of a `tkpass` on an object that may be written: another claim faults QUEUE_STATE 0x11. -/
theorem tkCheck_pass (h : Claims.objectAt wk w true 8 a s = some (bs, p, t))
    (hwrite : ∀ va, p = .glob va → ∃ r, t.storePa w.core w.tenant va a = .ok r) :
    tkCheck s wk w a true (fun p => if claimAt s wk w p then none else some (qFault 0x11)) =
      if claimAt s wk w p = false then .error (qFault 0x11, t)
      else if (wordAt bs 4).getLsbD 0 then .error (trapOf .ticketPoison 0 a, t)
      else .ok (bs, p, t) := by
  rw [tkCheck_of_objectAt h fun _ => hwrite]
  change _ = if _ then _ else if poisonBit bs = true then _ else _
  cases claimAt s wk w p <;> rfl

end

section
variable {r : Claims.ObjectRule} {s s1 : State} {w : Workgroup} {f g : Fibre} {act : List Nat} {e : Res}

theorem ends_tkwait {o : SGIAB} (hi : Claims.tickets (.tkwait o) = some r) (h : Issues r.use noPre s w f act g s1)
    (hres : r.res s1 w g = some e) : Ends (.tkwait o) s w r.use act f e := by
  cases hi
  simp only [Option.bind_eq_bind, Option.bind_eq_some_iff, Option.guard_eq_some', Claims.reached, issues_cur h] at hres
  have he : exec (.tkwait o) s = execTkwait o s := rfl
  obtain ⟨-, htoken, ⟨bs, p, t⟩, hobj, hres⟩ := hres
  refine ends_of_effect he h ?_
  dsimp only
  rw [objToken_slept htoken, if_neg Bool.false_ne_true]
  refine claim_elim hobj hres fun hx => ?_
  dsimp only at hx
  split at hx
  case isTrue hturn => cases hx; exact if_pos hturn
  case isFalse hturn => cases hx; exact if_neg hturn

theorem ends_tkpoll {o : SGICAB} (hi : Claims.tickets (.tkpoll o) = some r) (h : Issues r.use noPre s w f act g s1)
    (hres : r.res s1 w g = some e) : Ends (.tkpoll o) s w r.use act f e := by
  cases hi
  simp only [Option.bind_eq_bind, Option.bind_eq_some_iff, Option.guard_eq_some', Claims.reached, issues_cur h] at hres
  have he : exec (.tkpoll o) s = execTkpoll o s := rfl
  obtain ⟨-, htoken, ⟨bs, p, t⟩, hobj, hres⟩ := hres
  refine ends_of_effect he h ?_
  dsimp only
  rw [objToken_false htoken, if_neg Bool.false_ne_true]
  refine claim_elim hobj hres fun hx => ?_
  dsimp only at hx
  split at hx
  case isTrue hturn => cases hx; exact if_pos hturn
  case isFalse hturn => cases hx; exact if_neg hturn

theorem ends_tkpass {o : SGA} (hi : Claims.tickets (.tkpass o) = some r) (h : Issues r.use noPre s w f act g s1)
    (hres : r.res s1 w g = some e) : Ends (.tkpass o) s w r.use act f e := by
  cases hi
  simp only [Option.bind_eq_bind, Option.bind_eq_some_iff, Option.guard_eq_some', issues_cur h] at hres
  have he : exec (.tkpass o) s = execTkpass o s := rfl
  obtain ⟨-, htoken, ⟨bs, p, t⟩, hobj, _, hperm, hres⟩ := hres
  have hwrite : ∀ va, p = .glob va → ∃ r, t.storePa w.core w.tenant va (g.getS64 o.a.toNat) = .ok r := by
    rintro va rfl
    obtain ⟨r, hr, -⟩ := Option.map_eq_some_iff.mp hperm
    exact ⟨r, ok_of_toOption hr⟩
  refine ends_of_effect he h ?_
  dsimp only
  rw [objToken_false htoken, if_neg Bool.false_ne_true, tkCheck_pass hobj hwrite]
  split at hres
  case isTrue hclaim => cases hres; rw [if_pos hclaim]; rfl
  case isFalse hclaim =>
    rw [if_neg hclaim]
    split at hres
    case isTrue hpoison => cases hres; rw [if_pos hpoison]; rfl
    case isFalse hpoison =>
      rw [if_neg hpoison]
      cases hw : w.claim with
      | none => simp [hw] at hres
      | some c =>
        simp only [hw, Option.bind_some] at hres
        split at hres
        case isFalse hturn => cases hres; exact if_pos hturn
        case isTrue hturn =>
          refine (if_neg (not_not.mpr hturn)).trans ?_
          simp only [Bool.and_eq_true, beq_iff_eq]
          split at hres
          case isTrue hfab => cases hres; exact if_pos hfab
          case isFalse hfab =>
            rw [if_neg hfab]
            split at hres
            case isTrue hheld => cases hres; exact if_pos hheld
            case isFalse hheld =>
              rw [if_neg hheld]
              obtain ⟨u, hu, hdone⟩ := Option.bind_eq_some_iff.mp hres
              cases hdone
              simp only [Option.map_some, Option.getD_some, ok_of_toOption hu]

end

/-- Settles O29: the model's checks and turns are those of the table, wherever the object is found. -/
theorem tickets : Obligations.Tickets := by
  intro i r s w f act g s1 e hi hwf h hres
  have hword := hi
  unfold Claims.tickets at hword
  split at hword
  case h_1 => exact ends_tkwait hi h hres
  case h_2 => exact ends_tkpoll hi h hres
  case h_3 => exact ends_tkpass hi h hres
  case h_4 => cases hword

end Sys2Proof.Machine
end

section
/-! # Watches (09 R189, R191) -/

namespace Sys2Proof.Machine

/-- An entry is armed as the table says, once the record has been read. -/
theorem armWith_eq {o : SGDAK3} {wk : Nat} {w : Workgroup} {a : DWord} {f : Fibre} {t : State} {bs : List Byte}
    {tags : List Nat} {late : Bool} {e : Res}
    (h : (do
      let (pa, t) ← (watchedPa t w (dwordAt bs 0)).toOption
      let (f, t) := f.reach w.core (some (none, pa)) 8 false t
      match t.freeGeneral (watchGroup pa) with
      | none => pure (Claims.fault .watchFull 0 0 f t)
      | some key =>
        if 8 ≤ f.watches.length then pure (Claims.fault .watchFull 1 0 f t)
        else pure (.done
          (({ f with watches := f.watches ++ [key] }.putS o.d.toNat (BitVec.ofNat 32 key)).countObject t a tags late)
          (t.arm key pa (dwordAt bs 8) (dwordAt bs 16) o.k (.fibre wk f.fid f.uid)))) = some e) :
    armWith o wk w a f t bs tags late = e := by
  obtain ⟨⟨pa, u⟩, hpa, harmed⟩ := Option.bind_eq_some_iff.mp h
  rw [armWith, ok_of_toOption hpa]
  dsimp only at harmed ⊢
  cases hfree : (f.reach w.core (some (none, pa)) 8 false u).2.freeGeneral (watchGroup pa) with
  | none =>
    simp only [hfree] at harmed
    cases harmed
    rfl
  | some key =>
    simp only [hfree] at harmed
    dsimp only
    split at harmed
    case isTrue hfull => cases harmed; exact if_pos hfull
    case isFalse hroom => cases harmed; exact if_neg hroom

section
variable {r : Claims.ObjectRule} {s s1 : State} {w : Workgroup} {f g : Fibre} {act : List Nat} {e : Res}

/-- The commit token that a word does not need does not stall it. -/
theorem not_tokenStall (h : (!Claims.needsToken s w) = true) : s.tokenStall w = false := by
  rw [tokenStall_eq_needsToken, ← Bool.not_eq_true', h]

theorem ends_watchArm {o : SGDAK3} (hi : Claims.watchWords (.watchArm o) = some r)
    (h : Issues r.use noPre s w f act g s1) (hres : r.res s1 w g = some e) : Ends (.watchArm o) s w r.use act f e := by
  cases hi
  have he : exec (.watchArm o) s = execWatchArm o s := rfl
  obtain ⟨_, hguard, hfar⟩ := Option.bind_eq_some_iff.mp hres
  have htoken : s1.tokenStall w = false := not_tokenStall (by simpa only [Option.guard_eq_some'] using hguard)
  refine ends_of_effect he h ?_
  dsimp only
  rw [htoken, if_neg Bool.false_ne_true]
  rw [issues_cur h] at hfar
  dsimp only at hfar
  cases hvia : viaWindow s.cur.wk w g s1 8 (g.getS64 o.a.toNat) (Acc.load 24 false) with
  | none =>
    rw [hvia] at hfar
    obtain ⟨⟨bs, t⟩, hread, harmed⟩ := Option.bind_eq_some_iff.mp hfar
    dsimp only
    rw [ok_of_toOption hread]
    exact armWith_eq harmed
  | some x =>
    rw [hvia] at hfar
    cases x with
    | ok => exact armWith_eq hfar
    | trap => cases hfar; rfl
    | wait => cases hfar; rfl

/-- An entry that is not the fibre's is none that it may wait for. -/
theorem ends_wwait {o : SGDA} (hi : Claims.watchWords (.wwait o) = some r)
    (h : Issues r.use noPre s w f act g s1) (hres : r.res s1 w g = some e) : Ends (.wwait o) s w r.use act f e := by
  cases hi
  have he : exec (.wwait o) s = execWwait o s := rfl
  refine ends_of_effect he h ?_
  dsimp only at hres ⊢
  rw [tokenStall_eq_needsToken]
  split at hres
  case isTrue htoken => cases hres; exact if_pos htoken
  case isFalse htoken =>
    rw [if_neg htoken]
    cases hown : g.watches.contains (g.getS o.a.toNat).toNat
    · rw [hown] at hres
      cases hres
      rfl
    · rw [hown] at hres
      simp only [if_true] at hres
      simp only [Bool.not_true, Bool.false_eq_true, if_false]
      cases hentry : s1.watches.find (g.getS o.a.toNat).toNat with
      | none => rw [hentry] at hres; cases hres; rfl
      | some x =>
        simp only [hentry] at hres
        dsimp only
        split at hres
        case isTrue hfired => cases hres; exact if_pos hfired
        case isFalse hfired => cases hres; exact if_neg hfired

theorem ends_disarm {o : SGA} (hi : Claims.watchWords (.disarm o) = some r)
    (h : Issues r.use noPre s w f act g s1) (hres : r.res s1 w g = some e) : Ends (.disarm o) s w r.use act f e := by
  cases hi
  have he : exec (.disarm o) s = execDisarm o s := rfl
  cases hres
  refine ends_of_effect he h ?_
  dsimp only
  rw [tokenStall_eq_needsToken, Claims.withToken]
  cases g.watches.contains (g.getS o.a.toNat).toNat <;> rfl

end

/-- Settles O30: arming, waiting and giving back are those of the table, wherever record and word are read. -/
theorem watches : Obligations.Watches := by
  intro i r s w f act g s1 e hi hwf h hres
  have hword := hi
  unfold Claims.watchWords at hword
  split at hword
  case h_1 => exact ends_watchArm hi h hres
  case h_2 => exact ends_wwait hi h hres
  case h_3 => exact ends_disarm hi h hres
  case h_4 => cases hword

end Sys2Proof.Machine
end

section
/-! # Byte-count barrier words (09 R195 to R198) -/

namespace Sys2Proof.Machine

/-! ## The bytes of a fresh object -/

theorem leBytes_zero_append (m : Nat) : ∀ (n x : Nat), x < 2 ^ (8 * n) → leBytes (n + m) x = leBytes n x ++ leBytes m 0
  | 0, x, h => by
    rw [Nat.lt_one_iff.mp h, Nat.zero_add]
    rfl
  | n + 1, x, h => by
    have hx : x / 256 < 2 ^ (8 * n) := by
      rw [Nat.div_lt_iff_lt_mul (by decide)]
      calc x < 2 ^ (8 * (n + 1)) := h
        _ = 2 ^ (8 * n) * 256 := by rw [Nat.mul_add, Nat.pow_add]
    rw [Nat.add_right_comm, leBytes, leBytes, leBytes_zero_append m n _ hx]
    rfl

/-- EXPECT fits its four bytes: a literal exponent is below 32 in every well-formed word. -/
theorem expectOf_lt {o : SGIAB} (hwf : (Instr.bcinit o).wf = true) (f : Fibre) : Claims.expectOf o.i o.b f < 2 ^ (8 * 4) := by
  unfold Claims.expectOf
  split
  case isTrue hi =>
    have hb : even o.a = true ∧ o.b.toNat < 32 := by simpa [Instr.wf, hi] using hwf
    exact Nat.pow_lt_pow_right (by decide) hb.2
  case isFalse => exact (f.getS o.b.toNat).isLt

theorem freshBytes {o : SGIAB} (hwf : (Instr.bcinit o).wf = true) (f : Fibre) :
    leBytes 16 (bcExpect f o.i o.b) = leBytes 4 (Claims.expectOf o.i o.b f) ++ leBytes 12 0 :=
  leBytes_zero_append 12 4 _ (expectOf_lt hwf f)

/-! ## The words -/

/-- The stores that an object word performs change no S register. -/
@[simp] theorem reach_getS (f : Fibre) (core : Nat) (x : Option (Option Nat × Nat)) (n : Nat) (write : Bool) (s : State)
    (b : Nat) : (f.reach core x n write s).1.getS b = f.getS b := by
  unfold Fibre.reach
  cases x with
  | none => rfl
  | some x => cases write <;> rfl

theorem expectOf_reach (f : Fibre) (core : Nat) (x : Option (Option Nat × Nat)) (n : Nat) (write : Bool) (s : State)
    (i : BitVec 1) (b : BitVec 6) : Claims.expectOf i b (f.reach core x n write s).1 = Claims.expectOf i b f := by
  unfold Claims.expectOf
  rw [reach_getS]

/-- A packet's answer ends the word as the access does. -/
theorem byPacket_eq (r : AccRes) (a : DWord) (fin : Fibre → List Byte → Fibre) :
    (r.andThen fun f s b tags late => .done ((fin f b).countObject s a tags late) s) = Claims.byPacket r a fin := by
  cases r <;> rfl

section
variable {r : Claims.ObjectRule} {s s1 : State} {w : Workgroup} {f g : Fibre} {act : List Nat} {e : Res}

theorem ends_bcinit {o : SGIAB} (hi : Claims.byteBarriers (.bcinit o) = some r) (hwf : (Instr.bcinit o).wf = true)
    (h : Issues r.use noPre s w f act g s1) (hres : r.res s1 w g = some e) : Ends (.bcinit o) s w r.use act f e := by
  cases hi
  have he : exec (.bcinit o) s = execBcinit o s := rfl
  unfold execBcinit bcWord at he
  simp only [Option.bind_eq_bind, Option.bind_eq_some_iff, Option.guard_eq_some', Claims.reached, issues_cur h] at hres
  obtain ⟨-, htoken, hfar⟩ := hres
  refine ends_of_effect he h ?_
  dsimp only
  simp only [objToken_false htoken, Bool.false_and, Bool.false_eq_true, if_false, Option.bind_some, freshBytes hwf,
    expectOf_reach]
  cases hvia : viaWindow s.cur.wk w g s1 16 (g.getS64 o.a.toNat)
    (Acc.store (leBytes 4 (Claims.expectOf o.i o.b g) ++ leBytes 12 0) false) with
  | some x =>
    rw [hvia] at hfar
    cases hfar
    exact byPacket_eq ..
  | none =>
    simp only [hvia, Option.bind_eq_some_iff] at hfar
    obtain ⟨p, hplace, t, hwritten, hdone⟩ := hfar
    cases hdone
    simp only [Option.map_none, ok_of_toOption hplace, ok_of_toOption hwritten]

theorem ends_bcwait {o : SGIDAB} (hi : Claims.byteBarriers (.bcwait o) = some r)
    (h : Issues r.use noPre s w f act g s1) (hres : r.res s1 w g = some e) : Ends (.bcwait o) s w r.use act f e := by
  cases hi
  have he : exec (.bcwait o) s = execBcwait o s := rfl
  unfold execBcwait bcWord at he
  simp only [Option.bind_eq_bind, Option.bind_eq_some_iff, Option.guard_eq_some', Claims.reached, issues_cur h] at hres
  obtain ⟨-, htoken, p, hplace, ⟨bs, t⟩, hread, hend⟩ := hres
  refine ends_of_effect he h ?_
  dsimp only at hend ⊢
  rw [Bool.true_and, objToken_slept htoken]
  simp only [Bool.false_eq_true, if_false, Option.bind_none, ok_of_toOption hplace, ok_of_toOption hread, bne_iff_ne, ne_eq,
    ite_not]
  split at hend
  case isTrue hsame => cases hend; exact if_pos hsame
  case isFalse hflip => cases hend; exact if_neg hflip

theorem ends_bcadd {o : SGIAB} (hi : Claims.byteBarriers (.bcadd o) = some r)
    (h : Issues r.use noPre s w f act g s1) (hres : r.res s1 w g = some e) : Ends (.bcadd o) s w r.use act f e := by
  cases hi
  have he : exec (.bcadd o) s = execBcadd o s := rfl
  unfold execBcadd bcWord at he
  simp only [Option.bind_eq_bind, Option.bind_eq_some_iff, Option.guard_eq_some', Claims.reached, issues_cur h] at hres
  obtain ⟨-, htoken, p, hplace, ⟨bs, t⟩, hread, -, hwhole, u, hwritten, hdone⟩ := hres
  have hsum (n flags : Nat) :
      t.barSum (t.objStorage s.cur.wk w (g.getS64 o.a.toNat)) bs n flags = (barrierSum bs n flags, t) := by
    rw [Bool.not_eq_true'] at hwhole
    rw [State.barSum, hwhole, if_neg Bool.false_ne_true]
  cases hdone
  refine ends_of_effect he h ?_
  dsimp only
  simp only [objToken_false htoken, Bool.false_and, Bool.false_eq_true, if_false, Option.bind_none, ok_of_toOption hplace,
    State.barrierAdd, ok_of_toOption hread, hsum, ok_of_toOption hwritten]

theorem ends_bcphase {o : SGDA} (hi : Claims.byteBarriers (.bcphase o) = some r)
    (h : Issues r.use noPre s w f act g s1) (hres : r.res s1 w g = some e) : Ends (.bcphase o) s w r.use act f e := by
  cases hi
  have he : exec (.bcphase o) s = execBcphase o s := rfl
  simp only [Option.bind_eq_bind, Option.bind_eq_some_iff, Option.guard_eq_some', issues_cur h] at hres
  obtain ⟨-, htoken, hload⟩ := hres
  refine ends_of_effect he h ?_
  dsimp only at hload ⊢
  rw [objToken_false htoken, if_neg Bool.false_ne_true]
  cases hbad : addrFault false [0x0, 0x8, 0x9] 16 (g.getS64 o.a.toNat) with
  | some x => rw [hbad] at hload; cases hload; rfl
  | none => rw [hbad] at hload; cases hload; exact byPacket_eq ..

end

/-- Settles O32: initialising, waiting, adding and reading are those of the table, wherever the object is reached. -/
theorem byteBarrierWords : Obligations.ByteBarrierWords := by
  intro i r s w f act g s1 e hi hwf h hres
  have hword := hi
  unfold Claims.byteBarriers at hword
  split at hword
  case h_1 => exact ends_bcinit hi hwf h hres
  case h_2 => exact ends_bcwait hi h hres
  case h_3 => exact ends_bcadd hi h hres
  case h_4 => exact ends_bcphase hi h hres
  case h_5 => cases hword

end Sys2Proof.Machine
end

section
/-! # A lane load through a fabric window whose reply has more bytes than it asked for (09 R165) -/

namespace Sys2Proof.Machine
open Sys2Proof.Claims

/-- `ld.bs` of v4 from the base pair s0:s1 and the offsets of v0: in strand 0, the signed byte at address 0. -/
def laneLoadSignedByte : SGZDAB := ⟨0, 0, 1, 4, 0, 0⟩

/-- The fibre of `overlongState`, which has strand 0 alone: its load through the window has been answered with two bytes. -/
def overlongLane : State :=
  overlongState.updWg 0 fun w => { w with fibres := w.fibres.upd 0 fun f => { f with active := 1 } }

/-- What v4 of strand 0 holds in a state. -/
def laneLoadedIn (s : State) : Option Word := ((s.wg 0).bind fun w => w.fibres.find 0).map fun f => f.readNow (.v (f.phys 4) 0)

/-- The same after a step. -/
def laneLoadedBy : Host.Outcome State Fault Refusal → Option Word
  | .next s => laneLoadedIn s
  | _ => none

/-- What v4 holds once a lane memory word has issued, made its accesses and retired as its rule says; nothing where one of
these does not happen. -/
def laneLoadedByRule (r : MemRule) (s : State) : Option Word :=
  match s.wg s.cur.wk with
  | none => none
  | some w =>
    match (w.fibres.find s.cur.fid).map (issueOf r.use) with
    | none => none
    | some f =>
      let act := runners r.use f
      let x := operandWait w r.use (beforeWord w r.use f s).1 (beforeWord w r.use f s).2
      if act ≠ [] ∧ issueFault r.use none f act = none ∧ syncHold s.cur.wk r.use f s = false ∧ x.2.2 = none ∧
          tokenWait x.2.1 w (r.ld && !r.st && !(r.req x.1 0 0).ordered) ((positions act).map fun e => r.addr x.1 e.1 e.2) =
            false then
        match memLoop s.cur.wk w x.1.beforeLanes (r.addr x.1) (r.req x.1) r.deliver act 0 ⟨x.1, x.2.1, [], []⟩ with
        | (m, none) =>
          laneLoadedIn (settleRes s.cur.wk w r.use act.length (beforeWord w r.use f s).1 (.done (countedOnce r true m) m.s))
        | _ => none
      else none

/-- The statement says of v4 what the rule gives. -/
theorem laneLoadedBy_of_laneMemoryEnds {table : Instr → Option MemRule} {i : Instr} {r : MemRule} {s : State} {v : Word}
    (h : LaneMemoryEnds table) (hr : table i = some r) (hwf : i.wf = true) (hv : laneLoadedByRule r s = some v) :
    laneLoadedBy (exec i s) = some v := by
  unfold laneLoadedByRule at hv
  split at hv
  · cases hv
  next w hw =>
  split at hv
  · cases hv
  next f hf =>
  dsimp only at hv
  split at hv
  case isFalse => cases hv
  case isTrue hok =>
  obtain ⟨hact, hclear, hhold, hports, htoken⟩ := hok
  split at hv
  case h_2 => cases hv
  case h_1 m hloop =>
  have issued : Issues r.use noPre s w f (runners r.use f) _ _ :=
    ⟨hw, hf, rfl, hact, hclear, hhold, Prod.ext rfl (Prod.ext rfl hports)⟩
  have said := h i r s w f _ _ _ m hr hwf issued
  dsimp only at said
  rw [htoken] at said
  have finished := said.1 hloop
  unfold Finishes Ends at finished
  rw [finished]
  exact hv

/-- The model extends the number that all the bytes of the reply make: 456 + 0xFFFFFF00. -/
theorem laneLoadedBy_overlong : laneLoadedBy (exec (.lLd laneLoadSignedByte) overlongLane) = some 0xC8 := by
  decide +kernel

/-- The statement extends the byte 0xC8. -/
theorem laneLoadedByRule_overlong :
    (laneMemory (.lLd laneLoadSignedByte)).bind (fun r => laneLoadedByRule r overlongLane) = some 0xFFFFFFC8 := by
  decide +kernel

/-- Refutes O15: a fabric load of one signed byte may be answered with two bytes (no state excludes such a reply), in a lane
word as in a uniform one (O16). Of 0xC8, 1 the statement delivers 0xC8 extended, and the model 0x1C8 + 0xFFFFFF00. -/
theorem not_laneMemoryWords : ¬ Obligations.LaneMemoryWords := by
  unfold Obligations.LaneMemoryWords
  intro h
  obtain ⟨r, hr, hv⟩ := Option.bind_eq_some_iff.mp laneLoadedByRule_overlong
  have said := laneLoadedBy_of_laneMemoryEnds h hr (by decide) hv
  rw [laneLoadedBy_overlong] at said
  exact absurd said (by decide)

end Sys2Proof.Machine
end

section
/-! # A barrier wait whose operand comes from a queue port in direct mode (09 R179, R182; 12 R240) -/

namespace Sys2Proof.Machine
open Sys2Proof.Claims

/-- `bar.wait` on the barrier that the queue of port 0 names. -/
def waitOnPopped : SGIB := ⟨0, 0, 0, 48⟩

/-- A tile that nobody has seen; it has been handed on with the element of the queue. -/
def handedTile : Tile :=
  { slot := 0, r0 := 0, c0 := 0, m := 1, n := 1, own := ⟨0, 0, 1, 0⟩, bar := 0, done := true, seenBy := []
    handed := [.elem 0 0] }

/-- A knot with a queue of one element: barrier 0. -/
def oneElement : Knot :=
  { members := [0], phase := false, arrived := [], failed := false
    queue := some { cap := 4, elems := [0], pushed := 1, reserved := 0, outBinds := 1, hadOut := true } }

/-- The fibre has arrived at barrier 0, whose phase is open, and port 0 takes from slot 0. -/
def arrivedFibre (f : Fibre) : Fibre :=
  { f.setPort 0 { bound := true, out := false, slot := 0, allow := 0 } with rv := 1, rp := 0 }

/-- The workgroup in direct mode, with barrier 0, the knot at slot 0 and the tile. -/
def directWg (w : Workgroup) : Workgroup :=
  { w with
    hdr := { w.hdr with accm := true, nbar := 1, knots := 1 }
    knots := vset w.knots 0 (some 0), tiles := [handedTile], fibres := w.fibres.upd 0 arrivedFibre }

/-- One fibre that waits on the barrier whose number it takes from the queue. -/
def poppedWait : State :=
  ((State.reset.withFetchWord 32 0).updWg 0 directWg).updLaunch 0 fun l => { l with knots := [(0, oneElement)] }

/-- Who has seen the tiles of workgroup 0. -/
def tilesSeen (s : State) : Option (List (List Nat)) := (s.wg 0).map fun w => w.tiles.map (·.seenBy)

/-- The same after a step. -/
def tilesSeenAfter : Host.Outcome State Fault Refusal → Option (List (List Nat))
  | .next s => tilesSeen s
  | _ => none

/-- The tiles once a word has issued and ended as its rule says; nothing where it does not issue. -/
def tilesSeenByRule (r : WordRule) (s : State) : Option (List (List Nat)) :=
  match s.wg s.cur.wk with
  | none => none
  | some w =>
    match (w.fibres.find s.cur.fid).map (issueOf r.use) with
    | none => none
    | some f =>
      let act := runners r.use f
      let x := operandWait w r.use (beforeWord w r.use f s).1 (beforeWord w r.use f s).2
      if act ≠ [] ∧ issueFault r.use (r.pre f) f act = none ∧ syncHold s.cur.wk r.use f s = false ∧ x.2.2 = none ∧
          r.fires w f = true then
        tilesSeen (settleRes s.cur.wk w r.use act.length (beforeWord w r.use f s).1 (r.res x.2.1 w act x.1))
      else none

/-- The statement says of the tiles what the rule gives. -/
theorem tilesSeen_of_wordsEnd {table : Instr → Option WordRule} {i : Instr} {r : WordRule} {s : State}
    {v : List (List Nat)} (h : WordsEnd table) (hr : table i = some r) (hwf : i.wf = true)
    (hv : tilesSeenByRule r s = some v) : tilesSeenAfter (exec i s) = some v := by
  unfold tilesSeenByRule at hv
  split at hv
  · cases hv
  next w hw =>
  split at hv
  · cases hv
  next f hf =>
  dsimp only at hv
  split at hv
  case isFalse => cases hv
  case isTrue hok =>
  obtain ⟨hact, hclear, hhold, hports, hfires⟩ := hok
  have issued : Issues r.use r.pre s w f (runners r.use f) _ _ :=
    ⟨hw, hf, rfl, hact, hclear, hhold, Prod.ext rfl (Prod.ext rfl hports)⟩
  have ended := h i r s w f _ _ _ hr hwf issued hfires
  unfold Ends at ended
  rw [ended]
  exact hv

/-- In the model the pop's acquire stands: the fibre has seen the tile. -/
theorem tilesSeenAfter_poppedWait : tilesSeenAfter (exec (.barWait waitOnPopped) poppedWait) = some [[0]] := by
  decide +kernel

/-- The statement puts back the workgroup as it was before the pop. -/
theorem tilesSeenByRule_poppedWait :
    (barriers (.barWait waitOnPopped)).bind (fun r => tilesSeenByRule r poppedWait) = some [[]] := by
  decide +kernel

/-- Refutes O27: a `bar.wait` that takes its barrier's number from a queue acquires with the element (12 R240); the
statement's sleep in the waiter mask puts back the workgroup as it was before that, and the model's does not. -/
theorem not_barriersAndKnots : ¬ Obligations.BarriersAndKnots := by
  unfold Obligations.BarriersAndKnots
  rintro ⟨h, -⟩
  obtain ⟨r, hr, hv⟩ := Option.bind_eq_some_iff.mp tilesSeenByRule_poppedWait
  have said := tilesSeen_of_wordsEnd h hr (by decide) hv
  rw [tilesSeenAfter_poppedWait] at said
  exact absurd said (by decide)

end Sys2Proof.Machine
end

section
/-! # Accesses that synchronise, where the table of workgroups is out of order (09 R166, R170, R171; 12 R240) -/

namespace Sys2Proof.Machine
open Sys2Proof.Claims

/-- The first line of a scratchpad is mapped over the physical line at 0x20200, and dirty. -/
def dirtyLine : StashLine := { off := 0, pa := 0x20200, w := true, dirty := true }

/-- A workgroup with the line; its first byte there is 0xAA. -/
def firstHolder (w : Workgroup) : Workgroup := { w with lines := [dirtyLine], mem := cellWrite w.mem 0 [0xAA] }

/-- Workgroup 3 of the launch, in direct mode, with a dirty line over the same physical line. -/
def secondHolder (w : Workgroup) : Workgroup := { w with lines := [dirtyLine], wgid := 3, hdr := { w.hdr with accm := true } }

/-- The workgroup at the first word, in its place two more: their keys 5 and 3 stand out of order. -/
def outOfOrder : State :=
  let s := State.reset.withFetchWord 32 0
  s.setWgs (s.wgs.vals.flatMap fun w => [(5, firstHolder w), (3, secondHolder w)])

/-- The workgroup that makes the access, and its fibre. -/
def synchroniser : Workgroup := (outOfOrder.wg 3).getD (newWorkgroup outOfOrder 0 probeLaunch 0 0 0)
def itsFibre : Fibre := (synchroniser.fibres.find 0).getD (startFibre synchroniser 0 (0, 0) 0 0 0)

/-- The checks of an access at 0x20100, as one that can be evaluated. -/
def reachesHere (q : Acc) : Bool :=
  (addrFault (decide (q.kind = .rmw)) q.spaces q.n 0x20100).isNone &&
    (match placeOf outOfOrder 3 synchroniser itsFibre.win 0x20100 q.n with
     | .ok (.glob va) => va == 0x20100
     | _ => false) && !q.sysRelease 0x20100 &&
    !outOfOrder.accessWaits 3 itsFibre synchroniser.tenant (.glob 0x20100) 0x20100 q (q.agent 0)

/-- Every line of memory keeps its form: the order of the workgroups is no part of it. -/
theorem canonical_outOfOrder : outOfOrder.memCanonical := by
  unfold State.memCanonical
  decide +kernel

theorem reaches_here {q : Acc} (h : reachesHere q = true) :
    Reaches 3 synchroniser 0 itsFibre outOfOrder 0x20100 q 0x20100 := by
  simp only [reachesHere, Bool.and_eq_true, Bool.not_eq_true', Option.isNone_iff_eq_none] at h
  obtain ⟨⟨⟨hsel, hplace⟩, hrel⟩, hwaits⟩ := h
  refine ⟨hsel, ?_, fun h => absurd (h.symm.trans hrel) (by decide), hwaits, canonical_outOfOrder⟩
  split at hplace
  case h_1 va hva => rw [hva, beq_iff_eq.mp hplace]
  case h_2 => cases hplace

/-- The access goes to the page that is mapped onto itself, where there is no poison and no object to disturb. -/
theorem storePa_here :
    ((outOfOrder.storePa synchroniser.core synchroniser.tenant 0x20100 0x20100).toOption.map fun r =>
      (r.1, r.2.poisoned r.1 4, r.2.disturbs (none, r.1) 4 .release, r.2.disturbs (none, r.1) 4 .atomic)) =
      some (0x20100, false, [], []) := by
  decide +kernel

/-- A byte after an access that succeeds. -/
def byteAfter (r : AccRes) (x : Nat) : Option Byte :=
  match r with
  | .ok _ t _ _ _ _ => some (t.byteAt x)
  | _ => none

theorem byteAt_outOfOrder : outOfOrder.byteAt 0x20200 = 0xAA := by decide +kernel

/-! A store-release, an acquire load and an atomic at 0x20100: each leaves what it observed with its own workgroup, whose
entry a put in a table out of order places before that of workgroup 5. The byte at 0x20200 is then its, which is 0. -/

theorem byteAfter_rel :
    byteAfter (access 3 synchroniser 0 itsFibre outOfOrder 0x20100 (Acc.rel [1, 2, 3, 4] 1)) 0x20200 = some 0 := by
  decide +kernel

theorem byteAfter_acq : byteAfter (access 3 synchroniser 0 itsFibre outOfOrder 0x20100 (Acc.acq 1)) 0x20200 = some 0 := by
  decide +kernel

theorem byteAfter_rmw : byteAfter (access 3 synchroniser 0 itsFibre outOfOrder 0x20100 (Acc.rmw 0 5 0)) 0x20200 = some 0 := by
  decide +kernel

/-- An access after which the byte reads as before is none of these. -/
theorem not_kept {q : Acc} {h : Fibre} {t : State} {b : List Byte} {fl : Word} {tags : List Nat} {late : Bool}
    (hafter : byteAfter (access 3 synchroniser 0 itsFibre outOfOrder 0x20100 q) 0x20200 = some 0)
    (hacc : access 3 synchroniser 0 itsFibre outOfOrder 0x20100 q = .ok h t b fl tags late)
    (hkept : t.byteAt 0x20200 = outOfOrder.byteAt 0x20200) : False := by
  rw [hacc] at hafter
  have hbyte : t.byteAt 0x20200 = 0 := Option.some.inj hafter
  rw [hbyte, byteAt_outOfOrder] at hkept
  exact absurd hkept (by decide)

/-- Refutes O23: no premise puts the table of workgroups in order. A store-release in direct mode puts its workgroup back,
and where keys stand out of order that changes whose dirty line gives the byte at 0x20200, far from the store. -/
theorem not_globalStoresWrite : ¬ Obligations.GlobalStoresWrite := by
  unfold Obligations.GlobalStoresWrite GlobalStoreWrites
  rintro ⟨h, -⟩
  obtain ⟨⟨pa, s1⟩, hstore, hfound⟩ := Option.map_eq_some_iff.mp storePa_here
  simp only [Prod.mk.injEq] at hfound
  obtain ⟨rfl, -, hfree, -⟩ := hfound
  obtain ⟨t, hacc, hbytes⟩ := (h 3 synchroniser 0 itsFibre outOfOrder 0x20100 (Acc.rel [1, 2, 3, 4] 1) 0x20100 0x20100 s1
    (reaches_here (by decide +kernel)) rfl (ok_of_toOption hstore)).1 (by decide +kernel) (by decide +kernel) hfree
  exact not_kept byteAfter_rel hacc (hbytes 0x20200)

/-- Refutes O24, as O23: an acquire load in direct mode puts its workgroup back, too. -/
theorem not_globalLoadsRead : ¬ Obligations.GlobalLoadsRead := by
  unfold Obligations.GlobalLoadsRead GlobalLoadReads
  rintro ⟨-, h⟩
  have hfound : ((outOfOrder.translate (clusterOf synchroniser.core) synchroniser.tenant 0x20100 4 false 0x20100).toOption.map
      fun r => r.2.2.poisoned r.1 4) = some false := by decide +kernel
  obtain ⟨⟨pa, e, s1⟩, htranslate, hpoison⟩ := Option.map_eq_some_iff.mp hfound
  have hcopy : noCopy outOfOrder synchroniser.core synchroniser.tenant 0x20100 (Acc.acq 1).nc := by
    left
    decide +kernel
  obtain ⟨g, t, hacc, hbytes, -⟩ := (h 3 synchroniser 0 itsFibre outOfOrder 0x20100 (Acc.acq 1) 0x20100
    (reaches_here (by decide +kernel)) rfl (.inr (by decide +kernel))).1 pa e s1 (by decide) hcopy
      (ok_of_toOption htranslate) hpoison
  exact not_kept byteAfter_acq hacc (hbytes 0x20200)

/-- Refutes O25, as O23: an atomic in direct mode puts its workgroup back, too. -/
theorem not_globalAtomicsSwap : ¬ Obligations.GlobalAtomicsSwap := by
  unfold Obligations.GlobalAtomicsSwap GlobalAtomicSwaps
  rintro ⟨h, -⟩
  obtain ⟨⟨pa, s1⟩, hstore, hfound⟩ := Option.map_eq_some_iff.mp storePa_here
  simp only [Prod.mk.injEq] at hfound
  obtain ⟨rfl, hpoison, -, hfree⟩ := hfound
  obtain ⟨t, hacc, hbytes⟩ := h 3 synchroniser 0 itsFibre outOfOrder 0x20100 (Acc.rmw 0 5 0) 0x20100 0x20100 s1
    (reaches_here (by decide +kernel)) rfl (by decide +kernel) (ok_of_toOption hstore) (by decide +kernel) hpoison hfree
  exact not_kept byteAfter_rmw hacc ((hbytes 0x20200).trans (if_neg (by rw [length_leBytes]; decide)))

end Sys2Proof.Machine
end

section
/-! # Reads that change no byte: `pf` (09 R163, R169) -/

namespace Sys2Proof.Machine

/-! ## What a read of memory may change -/

/-- A state with the memory and what L2 holds of it, workgroups, cores, translation units, count of traffic, poison and check
marks of another. -/
def withCopiesOf (s t : State) : State :=
  { t with
    mem := s.mem, wgs := s.wgs, cores := s.cores, clusters := s.clusters, free := s.free, l2 := s.l2
    traffic := s.traffic, poison := s.poison, stale := s.stale
    fw := { t.fw with poisonedCount := s.fw.poisonedCount } }

/-- Nothing else differs. -/
def SameButCopies (s t : State) : Prop := withCopiesOf s t = s

theorem SameButCopies.trans {s t u : State} (hst : SameButCopies s t) (htu : SameButCopies t u) : SameButCopies s u :=
  calc withCopiesOf s u = withCopiesOf s (withCopiesOf t u) := rfl
    _ = withCopiesOf s t := congrArg (withCopiesOf s) htu
    _ = s := hst

section
variable {s t : State} (h : SameButCopies s t)
include h

theorem SameButCopies.setMem (m : List Host.Cell) : SameButCopies s (t.setMem m) := h
theorem SameButCopies.setWgs (x : Tbl Workgroup) : SameButCopies s (t.setWgs x) := h
theorem SameButCopies.setPoison (p : List Nat) : SameButCopies s (t.setPoison p) := h
theorem SameButCopies.setStale (p : List Nat) : SameButCopies s (t.setStale p) := h
theorem SameButCopies.setCores (x : Tbl CoreState) : SameButCopies s (t.setCores x) := h
theorem SameButCopies.setClusters (x : Tbl ClusterState) : SameButCopies s (t.setClusters x) := h
theorem SameButCopies.draw {α : Type} (g : Nat → α) : SameButCopies s (t.draw g).2 := h
theorem SameButCopies.countTraffic (ten n : Nat) (sure : Bool) : SameButCopies s (t.countTraffic ten n sure) := h

end

/-- What reads leave: memory in its form, every byte as agents read it, and all but copies. -/
structure OnlyCopies (s t : State) : Prop where
  canonical : t.memCanonical
  bytes : Claims.sameBytes s t
  rest : SameButCopies s t

theorem OnlyCopies.refl {s : State} (hm : s.memCanonical) : OnlyCopies s s := ⟨hm, fun _ => rfl, rfl⟩

theorem OnlyCopies.trans {s t u : State} (hst : OnlyCopies s t) (htu : OnlyCopies t u) : OnlyCopies s u :=
  ⟨htu.canonical, fun x => (htu.bytes x).trans (hst.bytes x), hst.rest.trans htu.rest⟩

/-- Reads one after the other are such, too. -/
theorem onlyCopies_foldl {α : Type} {g : State → α → State} (hg : ∀ s a, s.memCanonical → OnlyCopies s (g s a)) :
    ∀ (l : List α) (s : State), s.memCanonical → OnlyCopies s (l.foldl g s)
  | [], _, hm => .refl hm
  | a :: l, s, hm => (hg s a hm).trans (onlyCopies_foldl hg l _ (hg s a hm).canonical)

/-! ## Recalls and reads at a slice -/

theorem sameButCopies_modifyLine (s : State) (line : Nat) : SameButCopies s (s.modifyLine line) := by
  have hroom : SameButCopies s (s.l2Room line) := by
    unfold State.l2Room
    dsimp only
    split <;> rfl
  unfold State.modifyLine
  dsimp only
  split
  · rfl
  · rfl
  · split
    · exact hroom
    · split <;> rfl

theorem sameButCopies_recallLine (s : State) (keep : Bool) (line : Nat) : SameButCopies s (s.recallLine keep line) := by
  unfold State.recallLine
  split
  · refine SameButCopies.setWgs (SameButCopies.setMem ?_ _) _
    split
    · exact ((sameButCopies_modifyLine s line).setPoison _).setStale _
    · rfl
  · rfl

theorem sameButCopies_recall (keep : Bool) (pa n : Nat) (s : State) : SameButCopies s (s.recall keep pa n) := by
  unfold State.recall
  induction linesTouched pa n generalizing s with
  | nil => rfl
  | cons line ls ih => exact (sameButCopies_recallLine s keep line).trans (ih _)

theorem sameButCopies_verify (s : State) (pa n : Nat) : SameButCopies s (s.verify pa n) := by
  unfold State.verify
  dsimp only
  split <;> rfl

theorem sameButCopies_sliceRead (s : State) (c : Option Nat) (pa n : Nat) : SameButCopies s (s.sliceRead c pa n).2 := by
  have hdisown (t : State) (line : Nat) : SameButCopies t (t.disown c line) := by
    unfold State.disown
    split <;> rfl
  exact ((sameButCopies_recall true pa n s).trans (hdisown _ _)).trans (sameButCopies_verify _ pa n)

section
variable {s : State} (hm : s.memCanonical)
include hm

theorem onlyCopies_recall (keep : Bool) (pa n : Nat) : OnlyCopies s (s.recall keep pa n) :=
  ⟨canonical_recall s keep pa n hm, fun x => byteAt_recall s keep pa n x hm, sameButCopies_recall keep pa n s⟩

theorem onlyCopies_verify (pa n : Nat) : OnlyCopies s (s.verify pa n) :=
  ⟨canonical_verify hm, byteAt_congr (verify_mem s pa n).1 (verify_mem s pa n).2, sameButCopies_verify s pa n⟩

theorem onlyCopies_sliceRead (c : Option Nat) (pa n : Nat) : OnlyCopies s (s.sliceRead c pa n).2 :=
  ⟨canonical_sliceRead hm, sameBytes_sliceRead s c pa n hm, sameButCopies_sliceRead s c pa n⟩

end

/-! ## Page walks and fills -/

theorem onlyCopies_afterWalk {s : State} (hm : s.memCanonical) (ten va : Nat) : OnlyCopies s (s.afterWalk ten va) := by
  unfold State.afterWalk
  split
  · exact .refl hm
  · exact onlyCopies_foldl (fun t a ht => onlyCopies_sliceRead ht none a 8) _ s hm

section
variable {s t : State} (h : OnlyCopies s t)
include h

theorem OnlyCopies.putCluster (cl : Nat) (x : ClusterState) : OnlyCopies s (t.putCluster cl x) :=
  ⟨h.canonical, h.bytes, h.rest.setClusters _⟩

theorem OnlyCopies.putCore (c : Nat) (x : CoreState) : OnlyCopies s (t.putCore c x) :=
  ⟨h.canonical, h.bytes, h.rest.setCores _⟩

theorem OnlyCopies.draw {α : Type} (g : Nat → α) : OnlyCopies s (t.draw g).2 := ⟨h.canonical, h.bytes, h.rest.draw g⟩

theorem OnlyCopies.countTraffic (ten n : Nat) (sure : Bool) : OnlyCopies s (t.countTraffic ten n sure) :=
  ⟨h.canonical, h.bytes, h.rest.countTraffic ten n sure⟩

end

section
variable {s : State} (hm : s.memCanonical) (cl ten va n : Nat) (a : DWord)
include hm

theorem onlyCopies_page {e : TlbEntry} {t : State} (h : s.page cl ten va a = .ok (e, t)) : OnlyCopies s t := by
  have hfilled (u : State) (hu : OnlyCopies s u) (x : ClusterState) :
      OnlyCopies s ((u.afterWalk ten va).putCluster cl x) :=
    (hu.trans (onlyCopies_afterWalk hu.canonical ten va)).putCluster cl x
  unfold State.page at h
  dsimp only at h
  split at h
  case h_1 held _ =>
    split at h
    · cases h
      exact (OnlyCopies.refl hm).draw _
    · split at h
      · cases h
      · cases h
        exact hfilled _ ((OnlyCopies.refl hm).draw _) _
  case h_2 =>
    split at h
    · cases h
    · cases h
      exact hfilled s (.refl hm) _

theorem onlyCopies_translate {pa : Nat} {store : Bool} {e : TlbEntry} {t : State}
    (h : s.translate cl ten va n store a = .ok (pa, e, t)) : OnlyCopies s t := by
  unfold State.translate at h
  split at h
  · cases h
  case h_2 e' u hpage =>
    have hu := onlyCopies_page hm cl ten va a hpage
    split at h
    · cases h
    · split at h
      · cases h
      · cases h
        exact hu.countTraffic ..

theorem onlyCopies_faultWalk (t : Trap) : OnlyCopies s (s.faultWalk ten va t) := by
  have hwalk := onlyCopies_afterWalk hm ten va
  unfold State.faultWalk
  dsimp only
  split
  · exact hwalk.trans (onlyCopies_verify hwalk.canonical ..)
  · exact hwalk

theorem onlyCopies_prefetch (w : Workgroup) : OnlyCopies s (prefetch w a s) := by
  unfold prefetch
  split
  · exact .refl hm
  dsimp only
  split
  · exact .refl hm
  split
  · exact onlyCopies_faultWalk hm ..
  case h_2 pa e t ht =>
    have hfill := (onlyCopies_translate hm _ _ _ _ _ ht)
    have hread := hfill.trans (onlyCopies_sliceRead hfill.canonical none (lineOf pa) 128)
    exact (hread.draw _).putCore ..

end

/-! ## The strands of a `pf` -/

theorem onlyCopies_pfLoop (w : Workgroup) (addr : Nat → Nat → DWord) :
    ∀ (is : List Nat) (j : Nat) (s : State), s.memCanonical → OnlyCopies s (pfLoop w addr is j s).1
  | [], _, _, hm => .refl hm
  | i :: is, j, s, hm => by
    rw [pfLoop]
    split
    · exact .refl hm
    · split
      · exact .refl hm
      · have hone := onlyCopies_prefetch hm (addr i j) w
        exact hone.trans (onlyCopies_pfLoop w addr is (j + 1) _ hone.canonical)

/-- The strands end without a fault if `pf` accepts each address. -/
theorem pfLoop_fault (w : Workgroup) (addr : Nat → Nat → DWord) : ∀ (is : List Nat) (j : Nat) (s : State),
    (pfLoop w addr is j s).2 = none ↔ ((is.zipIdx j).all fun e => Claims.prefetchable (addr e.1 e.2)) = true
  | [], _, _ => by simp [pfLoop]
  | i :: is, j, s => by
    rw [pfLoop, List.zipIdx_cons, List.all_cons, Bool.and_eq_true]
    unfold Claims.prefetchable
    cases hsel : selFault false (addr i j) with
    | some t => simp
    | none =>
      by_cases halias : selOf (addr i j) = 0xA
      · simp [halias]
      · simp only [if_neg halias, pfLoop_fault w addr is (j + 1)]
        simp [halias, Claims.prefetchable]

/-- Settles O18: every read of a `pf` recalls lines and moves bytes without changing one, and its loop over the strands stops at
the first address that it does not accept. -/
theorem prefetchChangesNothing : Obligations.PrefetchChangesNothing := by
  intro o s w f act g s1 u addrs hwf h hm
  have he : exec (.lPf o) s = execLPf o s := rfl
  have hloop := onlyCopies_pfLoop w (g.laneAddr o.b o.a) act 0 s1 hm
  refine ⟨(pfLoop w (g.laneAddr o.b o.a) act 0 s1).1, hloop.bytes, hloop.canonical, hloop.rest, ?_⟩
  have hfault : (pfLoop w (g.laneAddr o.b o.a) act 0 s1).2 = none ↔ addrs.all Claims.prefetchable = true := by
    rw [pfLoop_fault, List.all_map]
    rfl
  cases hend : (pfLoop w (g.laneAddr o.b o.a) act 0 s1).2 with
  | none =>
    rw [if_pos (hfault.mp hend)]
    refine ends_of_effect he h ?_
    simp only [hend]
  | some x =>
    rw [if_neg fun hall => absurd (hfault.mpr hall) (by simp [hend])]
    refine ⟨x.1, x.2, ends_of_effect he h ?_⟩
    simp only [hend]

end Sys2Proof.Machine
end

section
/-! # `wb`, `inv` and `sunmap` (09 R175, R177; 18 R332) -/

namespace Sys2Proof.Machine

/-! ## What the fibre keeps -/

theorem dueStores_all (s : State) : ∀ l : List PendStore, s.dueStores (fun p => inOrder p.agent none) l = l
  | [] => rfl
  | p :: ps => by
    have hp : inOrder p.agent none = true := by simp [inOrder]
    rw [State.dueStores, dueStores_all s ps, hp, Bool.true_or, if_pos rfl]

/-- A flush of the whole fibre leaves it no store to perform. -/
theorem flush_stq (f : Fibre) (core : Nat) (s : State) : (f.flush none core s).1.stq = [] := by
  change (f.without (s.dueStores (fun p => inOrder p.agent none) f.stq)).stq = []
  rw [dueStores_all]
  exact List.filter_eq_nil_iff.mpr fun p hp => by simpa using ⟨p, hp, rfl⟩

/-- A word that synchronises goes on with no store of its fibre to perform. -/
theorem issues_stq {u : Use} {pre : Fibre → Option Trap} {s s1 : State} {w : Workgroup} {f g : Fibre} {act : List Nat}
    (h : Issues u pre s w f act g s1) (hsync : u.sync = true) : g.stq = [] := by
  have hports := onlyPorts_operandWait h.ports
  have hflush : (beforeWord w u f s).1 = (f.flush none w.core s).1 := by
    rw [beforeWord, Use.flushes, hsync, Bool.true_or, if_pos rfl]
  rw [hflush] at hports
  exact (congrArg Fibre.stq hports).trans (flush_stq f w.core s)

/-- Of a fibre without such stores a count changes the outstanding instructions alone. -/
theorem count_of_no_stores {g : Fibre} (hstq : g.stq = []) (s : State) (ld st : Bool) (accs : List (DWord × Bool))
    (tags : List Nat) (whole : Bool) :
    { g.count s ld st accs tags whole with outs := g.outs, lateSeen := g.lateSeen } = g := by
  have hnew : ((g.stq.filter fun p => !p.named).map (·.serial)).isEmpty = true := by rw [hstq]; rfl
  unfold Fibre.count
  simp only [hnew, if_true]
  by_cases hagain : (whole && g.lateSeen == some g.pc) = true
  · simp only [hagain, if_true]
    repeat' split
    all_goals rfl
  · simp only [hagain]
    repeat' split
    all_goals rfl

/-! ## Ranges (R175) -/

theorem onlyCopies_foldl_pair {g : Nat → Bool × State → Bool × State}
    (hg : ∀ a r, r.2.memCanonical → OnlyCopies r.2 (g a r).2) :
    ∀ (l : List Nat) (r : Bool × State), r.2.memCanonical → OnlyCopies r.2 (l.foldl (fun r a => g a r) r).2
  | [], _, hm => .refl hm
  | a :: l, r, hm => (hg a r hm).trans (onlyCopies_foldl_pair hg l _ (hg a r hm).canonical)

theorem onlyCopies_stashLineCtl (wk : Nat) (drop : Bool) (off : Nat) (r : Bool × State) (hm : r.2.memCanonical) :
    OnlyCopies r.2 (stashLineCtl wk drop off r).2 := by
  unfold stashLineCtl
  split
  · exact .refl hm
  · split
    · exact .refl hm
    · exact onlyCopies_recall hm ..

theorem onlyCopies_releaseLine {s : State} (hm : s.memCanonical) (core line : Nat) :
    OnlyCopies s (s.releaseLine core line) := by
  unfold State.releaseLine
  split
  · exact (OnlyCopies.refl hm).putCore ..
  · exact .refl hm

theorem onlyCopies_globalLineCtl (core ten : Nat) (drop : Bool) (va : Nat) (r : Bool × State) (hm : r.2.memCanonical) :
    OnlyCopies r.2 (globalLineCtl core ten drop va r).2 := by
  have hwalk := onlyCopies_afterWalk hm ten va
  unfold globalLineCtl
  split
  · exact .refl hm
  · split
    · exact hwalk
    case h_2 e _ =>
      dsimp only
      split
      · have hrecall := hwalk.trans (onlyCopies_recall hwalk.canonical (!drop) (lineOf (e.at va)) 128)
        exact hrecall.trans (onlyCopies_releaseLine hrecall.canonical ..)
      · exact hwalk.trans (onlyCopies_releaseLine hwalk.canonical ..)

/-- After a drop no plain copy of the range is left in the core's L1. -/
theorem dropRange_l1 {s : State} {core ten va n : Nat} {l : L1Line} (hl : l ∈ ((s.dropRange core ten va n).core core).l1)
    (hasid : l.asid = (s.tenant ten).asid.toNat) : l.va < va ∨ va + n ≤ l.va := by
  unfold State.dropRange at hl
  rw [State.core_putCore_self] at hl
  have hkept := (List.mem_filter.mp hl).2
  simp only [hasid, beq_self_eq_true, Bool.true_and, Bool.not_eq_true', Bool.and_eq_false_iff, decide_eq_false_iff_not,
    Nat.not_le, Nat.not_lt] at hkept
  exact hkept

/-- Tenants are no copies. -/
theorem OnlyCopies.tenant {s t : State} (h : OnlyCopies s t) (ten : Nat) : t.tenant ten = s.tenant ten := by
  have hrest : withCopiesOf s t = s := h.rest
  have htenants : (withCopiesOf s t).tenants = s.tenants := by rw [hrest]
  change t.tenants = s.tenants at htenants
  rw [State.tenant, htenants, State.tenant]

theorem exec_rangeWord {i : Instr} {o : SGIAB} {drop : Bool} (hi : Claims.rangeWord i = some (o, drop)) (s : State) :
    exec i s = rangeCtl o drop s := by
  unfold Claims.rangeWord at hi
  split at hi <;> cases hi <;> rfl

/-- The checks of a range on a legal selector. -/
theorem rangeFault_of_legal {a : DWord} (hsel : selFault false a = none) (n : Nat) :
    rangeFault a n = if a.toNat % 128 ≠ 0 ∨ n % 128 ≠ 0 then some (trapOf .misalign 0 a)
      else if selOf a = 0 ∨ selOf a = 8 then none else some (trapOf .protection 9 a) := by
  rw [rangeFault, hsel]

/-- A word that has written something back counts as a store, else not at all. -/
theorem countedIf {g : Fibre} (hstq : g.stq = []) (c : Bool) (s : State) (accs : List (DWord × Bool)) :
    { (if c then g.count s false true accs [] true else g) with outs := g.outs, lateSeen := g.lateSeen } = g := by
  cases c
  · rfl
  · exact count_of_no_stores hstq ..

/-- The lines of a range of the scratchpad: whether something was written back, and the state. -/
def stashRange (wk : Nat) (drop : Bool) (a : DWord) (n : Nat) (s : State) : Bool × State :=
  (linesOf (a.toNat % 2 ^ 32) n).foldl (fun r off => stashLineCtl wk drop off r) (false, s)

/-- Those of a global range, before an `inv` drops the core's plain copies. -/
def globalRange (w : Workgroup) (drop : Bool) (va n : Nat) (s : State) : Bool × State :=
  (linesOf va n).foldl (fun r va => globalLineCtl w.core w.tenant drop va r) (false, s)

/-- The end of a word on a range: one that has written something back counts as a store. -/
def rangeDone (g : Fibre) (a : DWord) (wrote : Bool) (t : State) : Res :=
  .done (if wrote then g.count t false true [(a, false)] [] true else g) t

theorem onlyCopies_stashRange {s : State} (hm : s.memCanonical) (wk : Nat) (drop : Bool) (a : DWord) (n : Nat) :
    OnlyCopies s (stashRange wk drop a n s).2 :=
  onlyCopies_foldl_pair (fun off r hr => onlyCopies_stashLineCtl wk drop off r hr) _ (false, s) hm

theorem onlyCopies_globalRange {s : State} (hm : s.memCanonical) (w : Workgroup) (drop : Bool) (va n : Nat) :
    OnlyCopies s (globalRange w drop va n s).2 :=
  onlyCopies_foldl_pair (fun va r hr => onlyCopies_globalLineCtl w.core w.tenant drop va r hr) _ (false, s) hm

section
variable {i : Instr} {o : SGIAB} {drop : Bool} {s s1 : State} {w : Workgroup} {f g : Fibre} {act : List Nat}

/-- The usage of a word on a range. -/
def rangeUse (o : SGIAB) : Use := (uUse o.s o.g (.s2 o.a.toNat :: opB o.i o.b) []).syncing

theorem range_waits (hi : Claims.rangeWord i = some (o, drop)) (h : Issues (rangeUse o) noPre s w f act g s1)
    (hsel : selOf (g.getS64 o.a.toNat) = 0 ∨ selOf (g.getS64 o.a.toNat) = 9) (htoken : Claims.needsToken s1 w = true) :
    Ends i s w (rangeUse o) act f (.wait g s1 .token) := by
  refine ends_of_effect (exec_rangeWord hi s) h (if_pos ?_)
  rw [tokenStall_eq_needsToken, htoken]
  simpa using hsel

/-- A word that need not wait for the token meets the fault of its range, or does its lines. -/
theorem range_goes (hi : Claims.rangeWord i = some (o, drop)) (h : Issues (rangeUse o) noPre s w f act g s1)
    (hgo : (selOf (g.getS64 o.a.toNat) ≠ 0 ∧ selOf (g.getS64 o.a.toNat) ≠ 9) ∨ Claims.needsToken s1 w = false) :
    Ends i s w (rangeUse o) act f
      (let a := g.getS64 o.a.toNat
       let n := Claims.lengthAsked o.i o.b g
       match rangeFault a n with
        | some t => .trap g s1 t 0
        | none =>
          if selOf a = 8 then
            rangeDone g a (stashRange s.cur.wk drop a n s1).1 (stashRange s.cur.wk drop a n s1).2
          else
            let r := globalRange w drop (a.toNat % 2 ^ 56) n s1
            rangeDone g a r.1 (if drop then r.2.dropRange w.core w.tenant (a.toNat % 2 ^ 56) n else r.2)) := by
  refine ends_of_effect (exec_rangeWord hi s) h (if_neg ?_)
  rw [tokenStall_eq_needsToken]
  rcases hgo with ⟨h0, h9⟩ | htoken
  · simp [h0, h9]
  · simp [htoken]

/-- A good range ends the word so, and no byte nor register has changed; after an `inv` of a global range the L1 holds none
of it. -/
theorem range_done (hi : Claims.rangeWord i = some (o, drop)) (h : Issues (rangeUse o) noPre s w f act g s1)
    (hgo : (selOf (g.getS64 o.a.toNat) ≠ 0 ∧ selOf (g.getS64 o.a.toNat) ≠ 9) ∨ Claims.needsToken s1 w = false)
    (hfault : rangeFault (g.getS64 o.a.toNat) (Claims.lengthAsked o.i o.b g) = none) (hm : s1.memCanonical) :
    let a := g.getS64 o.a.toNat
    let n := Claims.lengthAsked o.i o.b g
    let va := a.toNat % 2 ^ 56
    ∃ x t, Finishes i s w (rangeUse o) act f x t ∧ Claims.sameBytes s1 t ∧ t.memCanonical ∧
      { x with outs := g.outs, lateSeen := g.lateSeen } = g ∧
      (selOf a = 0 → drop = true → ∀ l ∈ (t.core w.core).l1,
        l.asid = (s1.tenant w.tenant).asid.toNat → l.va < va ∨ va + n ≤ l.va) := by
  intro a n va
  have hstq : g.stq = [] := issues_stq h rfl
  have hends := range_goes hi h hgo
  dsimp only at hends
  rw [hfault] at hends
  by_cases h8 : selOf a = 8
  · have hlines := onlyCopies_stashRange hm s.cur.wk drop a n
    rw [if_pos h8] at hends
    exact ⟨_, _, hends, hlines.bytes, hlines.canonical, countedIf hstq _ _ _, fun h0 => absurd (h8.symm.trans h0) (by decide)⟩
  · have hlines := onlyCopies_globalRange hm w drop va n
    have hdropped : OnlyCopies s1 (if drop then (globalRange w drop va n s1).2.dropRange w.core w.tenant va n
        else (globalRange w drop va n s1).2) := by
      split
      · exact hlines.putCore ..
      · exact hlines
    rw [if_neg h8] at hends
    refine ⟨_, _, hends, hdropped.bytes, hdropped.canonical, countedIf hstq _ _ _, fun h0 hdrop l hl hasid => ?_⟩
    subst hdrop
    rw [if_pos rfl] at hl
    exact dropRange_l1 hl (hasid.trans (congrArg (·.asid.toNat) (hlines.tenant w.tenant).symm))

end

/-- R175, by the branches of the range's checks. -/
theorem rangeWordsEnd : Claims.RangeWordsEnd := by
  intro i o drop s w f act g s1 u a n va hi hwf h
  refine ⟨range_waits hi h, fun hgo => ⟨fun t ht => ?_, fun hsel hbad => ?_, fun hsel hal hn h0 h8 => ?_,
    fun hsel hal hn hgood hm => range_done hi h hgo ?_ hm⟩⟩
  · have hends := range_goes hi h hgo
    dsimp only at hends
    rw [rangeFault, ht] at hends
    exact hends
  · have hends := range_goes hi h hgo
    dsimp only at hends
    rw [rangeFault_of_legal hsel, if_pos hbad] at hends
    exact hends
  · have hends := range_goes hi h hgo
    dsimp only at hends
    rw [rangeFault_of_legal hsel, if_neg (not_or.mpr ⟨not_not.mpr hal, not_not.mpr hn⟩),
      if_neg (not_or.mpr ⟨h0, h8⟩)] at hends
    exact hends
  · rw [rangeFault_of_legal hsel, if_neg (not_or.mpr ⟨not_not.mpr hal, not_not.mpr hn⟩), if_pos hgood]

/-! ## One mapping undone (R177) -/

/-- No line of the workgroup is dirty. -/
def Clean (w : Workgroup) : Prop := ∀ l ∈ w.lines, l.dirty = false

/-- A clean workgroup shows no byte of memory. -/
theorem find_dirty_of_clean {w : Workgroup} (h : Clean w) (x : Nat) :
    (w.lines.find? fun l => l.dirty && l.pa == lineOf x) = none :=
  List.find?_eq_none.mpr fun l hl => by simp [h l hl]

/-- A clean workgroup that takes the place of a clean one, wherever a put sets it, changes no byte. -/
theorem cohByte_put {k : Nat} {v : Workgroup} (hv : Clean v) (mem : List Host.Cell) (x : Nat) :
    ∀ wgs : Tbl Workgroup, (∀ w, Tbl.find wgs k = some w → Clean w) → cohByte (wgs.put k v) mem x = cohByte wgs mem x
  | [], _ => by simp [Tbl.put, cohByte, find_dirty_of_clean hv]
  | (j, b) :: wgs, hw => by
    unfold Tbl.put
    split
    · rw [cohByte, find_dirty_of_clean hv]
    · split
      case isTrue heq =>
        have hb : Clean b := hw b (by rw [Tbl.find, if_pos heq.symm])
        rw [cohByte, cohByte, find_dirty_of_clean hv, find_dirty_of_clean hb]
      case isFalse hne =>
        rw [cohByte, cohByte, cohByte_put hv mem x wgs fun w h => hw w (by rw [Tbl.find, if_neg (Ne.symm hne), h])]

theorem freeBytes_mem : ∀ (n : Nat) (s : State), (freeBytes n s).2.mem = s.mem ∧ (freeBytes n s).2.wgs = s.wgs
  | 0, _ => ⟨rfl, rfl⟩
  | n + 1, s => freeBytes_mem n (s.draw Config.freeByte).2

section
variable {s : State} {wk : Nat} {w : Workgroup} (hw : s.wg wk = some w)
include hw

theorem sameBytes_updWg {g : Workgroup → Workgroup} (hclean : Clean w) (hg : Clean (g w)) :
    Claims.sameBytes s (s.updWg wk g) := fun x => by
  have hfind : Tbl.find s.wgs wk = some w := hw
  rw [State.byteAt, State.updWg_eq, State.byteAt]
  change cohByte (s.wgs.upd wk g) s.mem x = _
  rw [Tbl.upd_of_find hfind]
  refine cohByte_put hg s.mem x s.wgs fun v hv => ?_
  rw [hfind] at hv
  cases hv
  exact hclean

/-- A write-back leaves the workgroup its mappings. -/
theorem writeBack_wg (l : StashLine) : ∃ v, (s.writeBack l).wg wk = some v ∧ v.maps = w.maps := by
  have hfind : Tbl.find s.wgs wk = some w := hw
  by_cases hheld : (s.wgs.any fun e => e.2.lines.any fun x => x.pa == l.pa) = true
  · refine ⟨w.recall true l.pa, ?_, rfl⟩
    rw [State.wg, State.writeBack, (recallLine_held hheld).2, Tbl.find_each, hfind, Option.map_some]
  · exact ⟨w, by rw [State.writeBack, recallLine_unheld hheld, hw], rfl⟩

/-- What becomes of the workgroup and of the bytes when one line is unmapped. -/
theorem unmapLine_wg (filled : List Nat) (off : Nat) :
    ∃ v, (unmapLine wk filled s off).wg wk = some v ∧ v.maps = w.maps ∧
      (Clean w → Clean v ∧ Claims.sameBytes s (unmapLine wk filled s off)) := by
  unfold unmapLine
  rw [hw]
  dsimp only
  split
  case h_1 l hl =>
    cases hdirty : l.dirty
    case true =>
      obtain ⟨v, hv, hmaps⟩ := writeBack_wg hw l
      refine ⟨_, State.wg_updWg_self _ (by simpa using hv), hmaps, fun hclean => ?_⟩
      exact absurd ((hclean l (List.mem_of_find?_eq_some hl)).symm.trans hdirty) (by decide)
    case false =>
      have hkept (hclean : Clean w) : Clean { w with lines := w.lines.filter fun l => l.off != off } :=
        fun x hx => hclean x (List.mem_filter.mp hx).1
      exact ⟨_, State.wg_updWg_self _ hw, rfl, fun hclean => ⟨hkept hclean, sameBytes_updWg hw hclean (hkept hclean)⟩⟩
  case h_2 =>
    split
    · exact ⟨w, hw, rfl, fun hclean => ⟨hclean, fun _ => rfl⟩⟩
    · have hfree := freeBytes_mem 128 s
      generalize freeBytes 128 s = r at hfree ⊢
      have hw' : r.2.wg wk = some w := by rw [State.wg, hfree.2]; exact hw
      exact ⟨_, State.wg_updWg_self _ hw', rfl, fun hclean => ⟨hclean, fun x =>
        (sameBytes_updWg hw' hclean hclean x).trans (byteAt_congr hfree.1 hfree.2 x)⟩⟩

end

theorem unmapLines_wg {wk : Nat} (filled : List Nat) : ∀ (offs : List Nat) {s : State} {w : Workgroup}, s.wg wk = some w →
    ∃ v, (offs.foldl (unmapLine wk filled) s).wg wk = some v ∧ v.maps = w.maps ∧
      (Clean w → Clean v ∧ Claims.sameBytes s (offs.foldl (unmapLine wk filled) s))
  | [], s, w, hw => ⟨w, hw, rfl, fun hclean => ⟨hclean, fun _ => rfl⟩⟩
  | off :: offs, s, w, hw => by
    obtain ⟨v, hv, hmaps, hone⟩ := unmapLine_wg hw filled off
    obtain ⟨u, hu, hmaps', hrest⟩ := unmapLines_wg filled offs hv
    refine ⟨u, hu, hmaps'.trans hmaps, fun hclean => ?_⟩
    obtain ⟨hv', hsame⟩ := hone hclean
    exact ⟨(hrest hv').1, fun x => ((hrest hv').2 x).trans (hsame x)⟩

/-- The state once the mapping m of n bytes at an offset is undone. -/
def unmapped (wk : Nat) (m : StashMap) (off n : Nat) (s : State) : State :=
  ((linesOf off n).foldl (unmapLine wk m.filled) s).updWg wk fun w => { w with maps := w.maps.filter (· != m) }

theorem unmapEnds : Claims.UnmapEnds := by
  intro o s w w0 f act g s1 u off n hwf h hw0
  have he : exec (.sunmap o) s = execSunmap o s := rfl
  have hstq : g.stq = [] := issues_stq h rfl
  have hnow : s1.wgNow s.cur.wk w = w0 := by rw [State.wgNow, hw0, Option.getD_some]
  cases hmap : w0.maps.find? fun m => m.off == off && m.len == n with
  | none =>
    have hnone : (w0.maps.find? fun m => m.off == (g.getS o.d.toNat).toNat && m.len == g.lenOp o.i o.b) = none := hmap
    refine ends_of_effect he h ?_
    dsimp only
    rw [hnow, hnone]
    rfl
  | some m =>
    have hsome : (w0.maps.find? fun m => m.off == (g.getS o.d.toNat).toNat && m.len == g.lenOp o.i o.b) = some m := hmap
    obtain ⟨v, hv, hmaps, hlines⟩ := unmapLines_wg m.filled (linesOf off n) hw0
    have hends : Finishes (.sunmap o) s w u act f
        (if w0.lines.any fun l => l.dirty && off ≤ l.off && l.off < off + n then
          g.count (unmapped s.cur.wk m off n s1) false true [(0x8000000000000000 + BitVec.ofNat 64 off, false)] [] true else g)
        (unmapped s.cur.wk m off n s1) := by
      refine ends_of_effect he h ?_
      dsimp only
      rw [hnow, hsome]
      rfl
    refine ⟨_, _, hends, countedIf hstq _ _ _, ⟨_, State.wg_updWg_self _ hv, congrArg (List.filter (· != m)) hmaps⟩,
      fun hclean => ?_⟩
    obtain ⟨hv', hsame⟩ := hlines hclean
    exact fun x => (sameBytes_updWg hv hv' hv' x).trans (hsame x)

/-- Settles O19: a range word recalls and releases lines, which moves bytes without changing one; unmapping keeps the other
mappings, and lines that are not dirty show nothing. -/
theorem rangesAndMappings : Obligations.RangesAndMappings := ⟨rangeWordsEnd, unmapEnds⟩

end Sys2Proof.Machine
end

section
/-! # Matrix words (12 R219 to R231, R235 to R239) -/

namespace Sys2Proof.Machine

/-! ## Reading a parameter block leaves the agent that acts (12 R225) -/

theorem scratchRead_cur {s t : State} {wk off n : Nat} {a : DWord} {b : List Byte}
    (h : s.scratchRead wk off n a = .ok (b, t)) : t.cur = s.cur := by
  unfold State.scratchRead at h
  split at h
  · cases h
  · rename_i hline
    split at h
    · cases h
      exact stashLine_cur hline
    · split at h
      · cases h
      · cases h
        exact stashLine_cur hline

@[simp] theorem l1Look_cur (s : State) (c asid va : Nat) : (s.l1Look c asid va).2.cur = s.cur := by
  unfold State.l1Look
  dsimp only
  split
  · rfl
  · split <;> rfl

@[simp] theorem physRead_cur (s : State) (c : Option Nat) (pa n : Nat) : (s.physRead c pa n).2.cur = s.cur := by
  have hverify : (((s.recall true pa n).disown c (lineOf pa)).verify pa n).cur = s.cur :=
    (verify_cur _ pa n).trans ((disown_cur _ c _).trans (recall_cur s true pa n))
  cases c with
  | none => exact hverify
  | some k => exact (refresh_cur _ k pa n).trans hverify

theorem globLoad_cur {core ten va n : Nat} {coherent : Bool} {q : List PendStore} {who : Option Nat} {a : DWord} (s : State) :
    IfOk (·.2.2.cur = s.cur) (s.globLoad core ten va n coherent q who a) := by
  have hlook : (if coherent then (none, s) else s.l1Look core (s.tenant ten).asid.toNat va).2.cur = s.cur := by
    split
    · rfl
    · exact l1Look_cur ..
  unfold State.globLoad
  dsimp only
  split
  · split
    · trivial
    · exact hlook
  · split
    · trivial
    case h_2 htranslate =>
      split
      · trivial
      · have hread (pa : Nat) := (physRead_cur _ (some core) pa n).trans ((translate_cur htranslate).trans hlook)
        dsimp only [IfOk]
        split
        · exact hread _
        · exact hread _

theorem blockGlob_cur {core ten va n : Nat} {q : List PendStore} {a : DWord} (s : State) :
    IfOk (·.2.cur = s.cur) (blockGlob core ten va n q a s) := by
  refine IfOk.overParts (p := fun r : List Byte × State => r.2.cur = s.cur) (fun x r hr => ?_) rfl
  have hload := globLoad_cur (core := core) (ten := ten) (va := va + x.1) (n := x.2) (coherent := false) (q := q)
    (who := none) (a := a) r.2
  split
  · trivial
  · rename_i heq
    rw [heq] at hload
    exact Eq.trans hload hr

theorem fabAccess_load_cur {wk : Nat} {w : Workgroup} {f g : Fibre} {s t : State} {x : FabWindow} {va strand n : Nat} {a : DWord}
    {nc : Bool} {b : List Byte} {fl : Word} {tags : List Nat} {late : Bool}
    (h : fabAccess wk w f s x va strand a (Acc.load n nc) = .ok g t b fl tags late) : t.cur = s.cur := by
  unfold fabAccess at h
  split at h
  · split at h
    · cases h
    · dsimp only at h
      split at h
      · cases h
      · cases h
        split <;> rfl
  · split at h
    · cases h
    · cases h

theorem blockRead_cur {wk n : Nat} {w : Workgroup} {f g : Fibre} {s t : State} {a : DWord} {b : List Byte} {fl : Word}
    {tags : List Nat} {late : Bool} (h : blockRead wk w f s a n = .ok g t b fl tags late) : t.cur = s.cur := by
  unfold blockRead at h
  split at h
  · cases h
  split at h
  · cases h
  · split at h
    · cases h
    · rename_i hread
      cases h
      exact scratchRead_cur hread
  · rename_i va _
    have hcur := blockGlob_cur (core := w.core) (ten := w.tenant) (va := va) (n := n) (q := f.stq) (a := a) s
    split at h
    · cases h
    · rename_i hread
      rw [hread] at hcur
      cases h
      exact hcur
  · exact fabAccess_load_cur h
  · cases h

theorem endTarget_cur {wk : Nat} {w : Workgroup} {win : Bool} {align n : Nat} {a : DWord} (s : State) :
    IfOk (·.cur = s.cur) (endTarget s wk w win align n a) := by
  unfold endTarget
  split
  · trivial
  split
  · trivial
  · split
    · rfl
    · trivial
  · refine IfOk.overParts (p := fun u : State => u.cur = s.cur) (fun x u hu => ?_) rfl
    split
    · trivial
    · split
      · trivial
      · rename_i htranslate
        exact (translate_cur htranslate).trans hu
  · rfl

theorem barTarget_cur {wk : Nat} {w : Workgroup} {bar : DWord} (s : State) :
    IfOk (·.cur = s.cur) (if bar = 0 then .ok s else endTarget s wk w false 16 16 bar) := by
  split
  · rfl
  · exact endTarget_cur s

/-! ## Table 12-4 -/

/-- A check that the model makes in a row's place gives the row's fault, or goes on to the rows below. -/
theorem firstOf_row {p : Prop} [Decidable p] {q : Bool} {x : Trap} {r : Option Trap} {rows : List (Bool × Trap)} (hpq : p ↔ q = true)
    (hrest : q = false → r = Claims.firstOf rows) : (if p then some x else r) = Claims.firstOf ((q, x) :: rows) := by
  cases q with
  | true => exact if_pos (hpq.mpr rfl)
  | false => exact (if_neg fun hp => Bool.false_ne_true (hpq.mp hp)).trans (hrest rfl)

theorem blk_whole (b : List Byte) (o : Nat) : Claims.blk b o 0 32 = (wordAt b o).toNat := by
  rw [Claims.blk, Nat.pow_zero, Nat.div_one, Nat.mod_eq_of_lt (wordAt b o).isLt]

/-- A bit is 1. -/
theorem blk_bit (b : List Byte) (o k : Nat) : (Claims.blk b o k 1 == 1) = bitN (wordAt b o).toNat k := rfl

theorem blk_bits (b : List Byte) (o lo n : Nat) : Claims.blk b o lo n = bitsN (wordAt b o).toNat lo n := rfl

/-! ### Formats (11 Table 11-1) -/

theorem elementBits_eq {c : Nat} (h : c < 8) : Claims.elementBits c = fmtBits c := by
  interval_cases c <;> rfl

theorem rateGroup_eq {c : Nat} (h : c < 8) : Claims.rateGroup c = fmtGroup c := by
  interval_cases c <;> rfl

theorem mayScale_eq (c : Nat) : Claims.mayScale c = fmtScaled c := by
  rw [Bool.eq_iff_iff]
  simp only [Claims.mayScale, fmtScaled, List.contains_iff_mem, List.mem_cons, List.not_mem_nil, or_false, Bool.and_eq_true,
    decide_eq_true_eq]
  omega

/-! ### Operand maps (12 R226, R227) -/

theorem aligned_eq (o : OpMap) :
    o.aligned =
      (let unit := if o.swz = 0 then 4 else if o.swz = 1 then 128 else 256
       o.base % unit == 0 && (o.swz == 0 || o.stride % unit == 0) && o.soff % 4 == 0) := by
  obtain ⟨_, _, _, _, _, swz, _, _⟩ := o
  rcases swz with _ | _ | _ <;> rfl

theorem span_eq (o : OpMap) (k : Nat) :
    o.span k =
      (let n := ceilDiv (k * fmtBits o.fmt) 8
       if o.swz = 0 then n else if o.swz = 1 then 128 * ceilDiv n 128 else 256 * ceilDiv n 256) := by
  obtain ⟨_, _, _, _, _, swz, _, _⟩ := o
  rcases swz with _ | _ | _ <;> rfl

theorem mapAligned_eq (b : List Byte) (o src fmt : Nat) (scl : Bool) :
    Claims.mapAligned b o = (opMapAt b o src fmt scl).aligned := by
  rw [aligned_eq]
  simp only [Claims.mapAligned, blk_whole]
  rfl

theorem mapFootprint_eq (b : List Byte) (o src fmt lines k : Nat) (scl : Bool) :
    Claims.mapFootprint b o lines k (fmtBits fmt) = (opMapAt b o src fmt scl).footprint lines k := by
  rw [OpMap.footprint, span_eq]
  simp only [Claims.mapFootprint, blk_whole]
  rfl

theorem mapScaleEnd_eq (b : List Byte) (o src fmt lines k : Nat) (scl : Bool) :
    Claims.mapScaleEnd b o lines k = (opMapAt b o src fmt scl).scaleEnd lines k := rfl

/-! ### The rows -/

/-- Row 6: the model's bits are those of the table, field by field. -/
theorem mmaReserved_eq (b : List Byte) :
    mmaReserved (mmaBlock b) =
      let ctrl := Claims.blk b 0x00
      let org := Claims.blk b 0x0C
      (ctrl 27 5 != 0 || Claims.blk b 0x08 12 20 != 0 || org 24 8 != 0 || org 14 2 != 0 || org 7 1 != 0 ||
        Claims.blk b 0x28 2 30 != 0 || Claims.blk b 0x3C 2 30 != 0 ||
        ctrl 14 2 == 3 || ctrl 22 2 == 3 || Claims.blk b 0x28 0 2 == 3 || Claims.blk b 0x3C 0 2 == 3 ||
        ctrl 16 1 == 1 && ctrl 0 4 != 7 ||
        !(ctrl 21 1 == 1) && ctrl 18 3 != 0 || !(ctrl 22 2 != 0) && ctrl 24 3 != 0 || ctrl 22 2 != 2 && org 16 8 != 0) := by
  have hbit : (Claims.blk b 0x0C 7 1 != 0) = bitN (wordAt b 0x0C).toNat 7 := by
    rw [← blk_bit]
    have hlt : Claims.blk b 0x0C 7 1 < 2 := Nat.mod_lt _ (by decide)
    generalize Claims.blk b 0x0C 7 1 = x at hlt
    interval_cases x <;> rfl
  dsimp only
  rw [hbit]
  simp only [mmaReserved, bne, Bool.not_not]
  rfl

/-- Row 11. -/
theorem barFault_row (bar : DWord) {r : Option Trap} {rows : List (Bool × Trap)} (hrest : r = Claims.firstOf rows) :
    (if (barFault? bar).isSome then barFault? bar else r) =
      Claims.firstOf ((Claims.misplaced bar 16, Claims.trapAt .engineParam 0x09 bar) :: rows) := by
  have hcond : Claims.misplaced bar 16 = true ↔
      (bar ≠ 0 ∧ (bar.toNat % 16 ≠ 0 ∨ [0x0, 0x8, 0x9].contains (selOf bar) = false)) := by
    simp only [Claims.misplaced, Bool.and_eq_true, Bool.or_eq_true, bne_iff_ne, Bool.not_eq_true', selOf]
  unfold barFault?
  cases hbar : Claims.misplaced bar 16 with
  | true =>
    rw [if_pos (hcond.mp hbar)]
    rfl
  | false =>
    rw [if_neg fun h => Bool.false_ne_true (hbar.symm.trans (hcond.mpr h))]
    exact hrest

section
variable (s : State) (wk : Nat) (w : Workgroup) (b : List Byte) (slot : Nat) (sc : DWord)

theorem mmaCmd_opA : (mmaCmd s wk w b slot sc).opA =
    opMapAt b 0x18 (operandSource s wk w (Claims.blk b 0 21 1 == 1) (Claims.blk b 0 18 3)) (Claims.blk b 0 0 4)
      (Claims.blk b 0 8 1 == 1) := rfl

theorem mmaCmd_opB : (mmaCmd s wk w b slot sc).opB =
    opMapAt b 0x2C (operandSource s wk w (Claims.blk b 0 22 2 != 0) (Claims.blk b 0 24 3)) (Claims.blk b 0 4 4)
      (Claims.blk b 0 9 1 == 1) := rfl

theorem mmaCmd_m : (mmaCmd s wk w b slot sc).m = 16 * 2 ^ Claims.blk b 0 12 2 := Nat.pow_add ..

theorem mmaCmd_n : (mmaCmd s wk w b slot sc).n = 16 * 2 ^ Claims.blk b 0 14 2 := Nat.pow_add ..

theorem mmaCmd_k : (mmaCmd s wk w b slot sc).k = Claims.blk b 4 0 32 := (blk_whole b 4).symm

/-- The checks of the model are the rows of the table, in the table's order. -/
theorem mmaFault_eq (a : DWord) :
    mmaFault s w (mmaBlock b) (mmaCmd s wk w b slot sc) a = Claims.firstOf (Claims.mmaRows s wk w b a) := by
  have hbase (o : Nat) : (wordAt b o).toNat = Claims.blk b o 0 32 := (blk_whole b o).symm
  unfold mmaFault Claims.mmaRows
  rw [mmaCmd_opA, mmaCmd_opB, mmaCmd_m, mmaCmd_n, mmaCmd_k]
  refine firstOf_row decide_eq_true_iff.symm fun hformats => ?_
  obtain ⟨hfa, hfb⟩ : Claims.blk b 0 0 4 < 8 ∧ Claims.blk b 0 4 4 < 8 := by
    simpa only [decide_eq_false_iff_not, not_or, Nat.not_le] using hformats
  rw [rateGroup_eq hfa, rateGroup_eq hfb, mayScale_eq, mayScale_eq, elementBits_eq hfa, elementBits_eq hfb]
  refine firstOf_row ?_ fun _ => ?_
  · rw [Bool.or_eq_true, Bool.or_eq_true, bne_iff_ne, or_assoc]
    rfl
  refine firstOf_row (by rw [mmaReserved_eq]) fun _ => ?_
  refine firstOf_row decide_eq_true_iff.symm fun _ => ?_
  refine firstOf_row decide_eq_true_iff.symm fun _ => ?_
  refine firstOf_row (by rw [← mapAligned_eq, ← mapAligned_eq]) fun _ => ?_
  refine firstOf_row ?_ fun _ => barFault_row _ ?_
  · rw [decide_eq_true_iff, ← mapFootprint_eq, ← mapFootprint_eq, ← hbase 0x1C, ← hbase 0x30]
    rfl
  refine firstOf_row Iff.rfl fun _ => firstOf_row Iff.rfl fun _ => ?_
  refine firstOf_row ?_ fun _ => firstOf_row ?_ fun _ => ?_
  · rw [decide_eq_true_iff, ← hbase 0x18, ← hbase 0x1C]
    rfl
  · rw [decide_eq_true_iff, ← hbase 0x2C, ← hbase 0x30]
    rfl
  refine firstOf_row ?_ fun _ => firstOf_row ?_ fun _ => rfl
  · rfl
  · rfl

end

theorem mmaCheck_eq (s : State) (wk : Nat) (w : Workgroup) (b : List Byte) (slot : Nat) (sc a : DWord) :
    mmaCheck s wk w (mmaBlock b) (mmaCmd s wk w b slot sc) a =
      match Claims.firstOf (Claims.mmaRows s wk w b a) with
      | some t => .error (t, s)
      | none => if (mmaCmd s wk w b slot sc).bar = 0 then .ok s
          else endTarget s wk w false 16 16 (mmaCmd s wk w b slot sc).bar := by
  rw [mmaCheck, mmaFault_eq]
  rfl

/-! ## Entering the queue (12 R219; 18 R332) -/

theorem enqueueM_eq (s : State) (f : Fibre) (op : MOp) (slack : BitVec 12) :
    s.enqueueM s.cur.wk f op slack = Claims.queued s f op slack := rfl

theorem cmdSlack_eq (f : Fibre) (slk : Word) : cmdSlack f slk = Claims.slackOf f slk := by
  have hzero : (slk.extractLsb' 0 12 = 0) ↔ slk.toNat % 4096 = 0 := by
    rw [BitVec.toNat_eq, BitVec.extractLsb'_toNat]
    rfl
  simp only [cmdSlack, Claims.slackOf, hzero]

theorem scaleUse_eq (x : BitVec 6) : scaleUse x.toNat = if x = 0 then [.s 1] else [.s2 x.toNat] := by
  have hzero : x = 0 ↔ x.toNat = 0 := by
    rw [BitVec.toNat_eq]
    rfl
  simp only [scaleUse, hzero]

/-- A slot is judged where the word reads a slot. -/
theorem flagFault_eq (w : Workgroup) (t : BitVec 1) (k : Nat) :
    (if on t then none else slotFault w k) = if t = 0 ∧ w.hdr.accslots ≤ k then some (engParam 0x04 0) else none := by
  by_cases ht : t = 0
  · subst ht
    simp only [slotFault, true_and]
    rfl
  · have hon : on t = true := by
      rw [(BitVec.eq_zero_or_eq_one t).resolve_left ht]
      rfl
    rw [if_pos hon, if_neg fun h => ht h.1]

/-- Operands of a peer stand in bits [23:21] of CTRL. -/
theorem mmaToken_eq (b : List Byte) :
    mmaToken (mmaBlock b) =
      (Claims.blk b 0x00 21 3 != 0 || (dwordAt b 0x10 != 0 && tokenSel (dwordAt b 0x10))) := by
  have hpeer : (bitN (wordAt b 0).toNat 21 || bitsN (wordAt b 0).toNat 22 2 != 0) = (Claims.blk b 0x00 21 3 != 0) := by
    rw [Bool.eq_iff_iff]
    simp only [bitN, bitsN, Claims.blk, Bool.or_eq_true, beq_iff_eq, bne_iff_ne]
    omega
  rw [← hpeer]
  rfl

section
variable {r : Claims.ObjectRule} {s s1 : State} {w : Workgroup} {f g : Fibre} {act : List Nat} {e : Res}

theorem ends_mma {o : SGPXK} (hi : Claims.matrixWords (.mma o) = some r) (h : Issues r.use noPre s w f act g s1)
    (hres : r.res s1 w g = some e) : Ends (.mma o) s w r.use act f e := by
  cases hi
  have he : exec (.mma o) s = execMma o s := rfl
  unfold execMma at he
  rw [scaleUse_eq] at he
  refine ends_of_effect he h ?_
  dsimp only at hres ⊢
  rw [issues_cur h] at hres
  simp only [tokenStall_eq_needsToken, mmaToken_eq, Fibre.scales]
  split at hres
  case isTrue htoken => cases hres; exact if_pos htoken
  case isFalse htoken =>
  rw [if_neg htoken]
  split at hres
  case isTrue hfull => cases hres; exact if_pos (decide_eq_true hfull)
  case isFalse hfull =>
  refine (if_neg (hfull ∘ of_decide_eq_true)).trans ?_
  split at hres
  case isTrue hslot => cases hres; exact if_pos hslot
  case isFalse hslot =>
  rw [if_neg hslot]
  cases hread : blockRead s.cur.wk w g s1 (g.getS64 o.p.toNat) 64 with
  | trap => rw [hread] at hres; cases hres; rfl
  | wait => rw [hread] at hres; cases hres; rfl
  | ok h' t b fl tags late =>
    rw [hread] at hres
    dsimp only at hres ⊢
    split at hres
    case isTrue htok => cases hres; exact if_pos htok
    case isFalse htok =>
    rw [if_neg htok, mmaCheck_eq]
    cases hrows : Claims.firstOf (Claims.mmaRows t s.cur.wk w b (g.getS64 o.p.toNat)) with
    | some x => rw [hrows] at hres; cases hres; rfl
    | none =>
      rw [hrows] at hres
      dsimp only at hres ⊢
      generalize mmaCmd t s.cur.wk w b o.k.toNat _ = c at hres ⊢
      split at hres
      case h_1 hbar => cases hres; rw [hbar]
      case h_2 u hbar =>
        cases hres
        have htarget := barTarget_cur (wk := s.cur.wk) (w := w) (bar := c.bar) t
        rw [hbar] at htarget ⊢
        have hcur : u.cur = s.cur := Eq.trans htarget ((blockRead_cur hread).trans (issues_cur h))
        dsimp only
        rw [cmdSlack_eq, ← hcur]
        rfl

theorem ends_mswap {o : SGK} (hi : Claims.matrixWords (.mswap o) = some r) (h : Issues r.use noPre s w f act g s1)
    (hres : r.res s1 w g = some e) : Ends (.mswap o) s w r.use act f e := by
  cases hi
  have he : exec (.mswap o) s = execMswap o s := rfl
  refine ends_of_effect he h ?_
  dsimp only at hres ⊢
  rw [← issues_cur h, slotFault]
  split at hres
  case isTrue hslot => cases hres; rw [if_pos hslot]; rfl
  case isFalse hslot =>
  rw [if_neg hslot]
  split at hres
  case isTrue hmode => cases hres; exact if_pos hmode
  case isFalse hmode =>
  refine (if_neg hmode).trans ?_
  split at hres
  case isTrue hwoken => cases hres; exact if_pos hwoken
  case isFalse hwoken =>
  refine (if_neg hwoken).trans ?_
  split at hres
  case isTrue hheld => cases hres; exact if_pos hheld
  case isFalse hheld => cases hres; exact if_neg hheld

theorem ends_mclr {o : SGVK} (hi : Claims.matrixWords (.mclr o) = some r) (h : Issues r.use noPre s w f act g s1)
    (hres : r.res s1 w g = some e) : Ends (.mclr o) s w r.use act f e := by
  cases hi
  have he : exec (.mclr o) s = execMclr o s := rfl
  refine ends_of_effect he h ?_
  dsimp only at hres ⊢
  rw [← issues_cur h, slotFault]
  split at hres
  case isTrue hslot => cases hres; rw [if_pos hslot]; rfl
  case isFalse hslot =>
  rw [if_neg hslot]
  split at hres
  case isTrue hfull => cases hres; exact if_pos (decide_eq_true hfull)
  case isFalse hfull => cases hres; exact if_neg (hfull ∘ of_decide_eq_true)

theorem ends_mflag {o : SGXCTWK} (hi : Claims.matrixWords (.mflag o) = some r) (h : Issues r.use noPre s w f act g s1)
    (hres : r.res s1 w g = some e) : Ends (.mflag o) s w r.use act f e := by
  cases hi
  have he : exec (.mflag o) s = execMflag o s := rfl
  refine ends_of_effect he h ?_
  dsimp only at hres ⊢
  rw [← issues_cur h, flagFault_eq]
  split at hres
  case isTrue hslot => cases hres; rw [if_pos hslot]; rfl
  case isFalse hslot =>
  rw [if_neg hslot]
  cases hport : (g.bound o.x.toNat).isSome with
  | true =>
    simp only [hport, if_true] at hres
    simp only [Bool.true_and, beq_iff_eq, if_true]
    split at hres
    case isTrue hwoken => cases hres; exact if_pos hwoken
    case isFalse hwoken =>
    refine (if_neg hwoken).trans ?_
    split at hres
    case isTrue hheld => cases hres; exact if_pos hheld
    case isFalse hheld => cases hres; exact if_neg hheld
  | false =>
    simp only [hport, Bool.false_eq_true, if_false] at hres
    simp only [Bool.false_and, Bool.false_or, Bool.false_eq_true, if_false]
    split at hres
    case isTrue hfull => cases hres; exact if_pos (decide_eq_true hfull)
    case isFalse hfull => cases hres; exact if_neg (hfull ∘ of_decide_eq_true)

end

/-- Settles O34: the model's checks of a block are the rows of Table 12-4 in their order, and what enters the queue is the
table's command. -/
theorem matrixWords : Obligations.MatrixWords := by
  intro i r s w f act g s1 e hi hwf h hres
  have hword := hi
  unfold Claims.matrixWords at hword
  split at hword
  case h_1 => exact ends_mma hi h hres
  case h_2 => exact ends_mswap hi h hres
  case h_3 => exact ends_mclr hi h hres
  case h_4 => exact ends_mflag hi h hres
  case h_5 => cases hword

end Sys2Proof.Machine
end

section
/-! # Steps of the matrix engine (12 R220, R232 to R239; 07 R140; 13 R376) -/

namespace Sys2Proof.Machine

/-! ## What the stores of a fibre leave of matrix queues and accumulators (08 R158) -/

/-- The matrix queue and the accumulator slots of a workgroup. -/
def Workgroup.matrixPart (w : Workgroup) : List MCmd × List AccSlot := (w.mq, w.acc)

/-- Those of every workgroup. -/
def State.matrixParts (s : State) (k : Nat) : Option (List MCmd × List AccSlot) := (s.wg k).map Workgroup.matrixPart

theorem wg_of_matrixParts {s : State} {k : Nat} {q : List MCmd} {a : List AccSlot} (h : s.matrixParts k = some (q, a)) :
    ∃ v, s.wg k = some v ∧ v.mq = q ∧ v.acc = a := by
  obtain ⟨v, hv, hparts⟩ := Option.map_eq_some_iff.mp h
  exact ⟨v, hv, congrArg Prod.fst hparts, congrArg Prod.snd hparts⟩

theorem foldl_matrixParts {α : Type} {g : State → α → State} (h : ∀ s a, (g s a).matrixParts = s.matrixParts) (l : List α)
    (s : State) : (l.foldl g s).matrixParts = s.matrixParts :=
  List.foldlRecOn (motive := fun t => t.matrixParts = s.matrixParts) l g rfl fun t ht a _ => (h t a).trans ht

theorem updWg_matrixParts (s : State) (k : Nat) {g : Workgroup → Workgroup} (h : ∀ w, (g w).matrixPart = w.matrixPart) :
    (s.updWg k g).matrixParts = s.matrixParts := by
  funext j
  by_cases hj : j = k
  · rw [hj, State.matrixParts, wg_updWg_map, Option.map_map, funext (f := Workgroup.matrixPart ∘ g) h]
    rfl
  · rw [State.matrixParts, State.wg_updWg_ne s g hj]
    rfl

theorem setWgs_each_matrixParts (s t : State) {g : Nat → Workgroup → Workgroup} (h : ∀ j w, (g j w).matrixPart = w.matrixPart) :
    (t.setWgs (s.wgs.each g)).matrixParts = s.matrixParts := by
  funext j
  rw [State.matrixParts, State.wg_setWgs, Tbl.find_each, Option.map_map, funext (f := Workgroup.matrixPart ∘ g j) (h j)]
  rfl

@[simp] theorem recall_matrixParts (s : State) (keep : Bool) (pa n : Nat) : (s.recall keep pa n).matrixParts = s.matrixParts := by
  refine foldl_matrixParts (fun s line => ?_) _ s
  unfold State.recallLine
  split
  · exact setWgs_each_matrixParts _ _ fun _ _ => by rfl
  · rfl

@[simp] theorem disown_matrixParts (s : State) (keep : Option Nat) (line : Nat) : (s.disown keep line).matrixParts = s.matrixParts := by
  unfold State.disown
  split <;> rfl

@[simp] theorem verify_matrixParts (s : State) (pa n : Nat) : (s.verify pa n).matrixParts = s.matrixParts := by
  unfold State.verify
  dsimp only
  split <;> rfl

@[simp] theorem refresh_matrixParts (s : State) (c pa n : Nat) : (s.refresh c pa n).matrixParts = s.matrixParts := by
  unfold State.refresh
  dsimp only
  split <;> rfl

@[simp] theorem evalWatches_matrixParts (s : State) (pa n : Nat) : (s.evalWatches pa n).matrixParts = s.matrixParts := rfl

@[simp] theorem countTraffic_matrixParts (s : State) (ten n : Nat) (sure : Bool) :
    (s.countTraffic ten n sure).matrixParts = s.matrixParts := rfl

@[simp] theorem l2Room_matrixParts (s : State) (line : Nat) : (s.l2Room line).matrixParts = s.matrixParts := by
  unfold State.l2Room
  dsimp only
  split <;> rfl

@[simp] theorem modify_matrixParts (s : State) (pa n : Nat) : (s.modify pa n).matrixParts = s.matrixParts := by
  refine foldl_matrixParts (fun s line => ?_) _ s
  unfold State.modifyLine
  dsimp only
  split
  · rfl
  · rfl
  · split
    · exact l2Room_matrixParts s line
    · split <;> rfl

@[simp] theorem physWrite_matrixParts (s : State) (c : Option Nat) (pa : Nat) (bs : List Byte) :
    (s.physWrite c pa bs).matrixParts = s.matrixParts := by
  have hmodify : ((((s.recall false pa bs.length).disown c (lineOf pa))).modify pa bs.length).matrixParts = s.matrixParts :=
    (modify_matrixParts _ pa _).trans ((disown_matrixParts _ c _).trans (recall_matrixParts s false pa _))
  unfold State.physWrite
  dsimp only
  rw [evalWatches_matrixParts]
  cases c with
  | none => dsimp only; split <;> exact hmodify
  | some k => dsimp only; rw [refresh_matrixParts]; split <;> exact hmodify

@[simp] theorem afterWalk_matrixParts (s : State) (ten va : Nat) : (s.afterWalk ten va).matrixParts = s.matrixParts := by
  unfold State.afterWalk
  split
  · rfl
  · exact foldl_matrixParts (fun s a => (verify_matrixParts _ a 8).trans
      ((disown_matrixParts _ none _).trans (recall_matrixParts s true a 8))) _ s

theorem page_matrixParts {s t : State} {cl ten va : Nat} {a : DWord} {e : TlbEntry} (h : s.page cl ten va a = .ok (e, t)) :
    t.matrixParts = s.matrixParts := by
  unfold State.page at h
  dsimp only at h
  split at h
  · split at h
    · cases h
      rfl
    · split at h
      · cases h
      · cases h
        exact afterWalk_matrixParts (s.draw Config.tlbHolds).2 ten va
  · split at h
    · cases h
    · cases h
      exact afterWalk_matrixParts s ten va

theorem translate_matrixParts {s t : State} {cl ten va n pa : Nat} {store : Bool} {a : DWord} {e : TlbEntry}
    (h : s.translate cl ten va n store a = .ok (pa, e, t)) : t.matrixParts = s.matrixParts := by
  unfold State.translate at h
  split at h
  · cases h
  · rename_i hpage
    split at h
    · cases h
    · split at h
      · cases h
      · cases h
        exact (countTraffic_matrixParts ..).trans (page_matrixParts hpage)

theorem fillLine_matrixPart (w : Workgroup) (l : StashLine) (bs : List Byte) :
    (w.fillLine l bs).matrixPart = w.matrixPart := rfl

theorem noteFill_matrixPart (w : Workgroup) (lo : Nat) : (w.noteFill lo).matrixPart = w.matrixPart := rfl

theorem stashLine_matrixParts {s t : State} {wk off : Nat} {a : DWord} {l : Option StashLine}
    (h : s.stashLine wk off a = .ok (l, t)) : t.matrixParts = s.matrixParts := by
  unfold State.stashLine at h
  split at h
  · cases h
    rfl
  split at h
  · cases h
    rfl
  dsimp only at h
  split at h
  · cases h
    rfl
  split at h
  · cases h
  rename_i htranslate
  split at h
  · cases h
  cases h
  rw [refresh_matrixParts]
  refine (updWg_matrixParts _ wk fun w => (fillLine_matrixPart ..).trans (noteFill_matrixPart w _)).trans ?_
  rw [disown_matrixParts, recall_matrixParts, translate_matrixParts htranslate]

theorem scratchWrite_matrixParts {s t : State} {wk off : Nat} {bs : List Byte} {a : DWord}
    (h : s.scratchWrite wk off bs a = .ok t) : t.matrixParts = s.matrixParts := by
  unfold State.scratchWrite at h
  split at h
  · cases h
  · rename_i hline
    split at h
    · split at h
      · cases h
      · cases h
        rw [evalWatches_matrixParts, refresh_matrixParts]
        exact (updWg_matrixParts _ wk fun _ => by rfl).trans (stashLine_matrixParts hline)
    · cases h
      exact (updWg_matrixParts _ wk fun _ => by rfl).trans (stashLine_matrixParts hline)

@[simp] theorem freeBytes_matrixParts (n : Nat) (s : State) : (freeBytes n s).2.matrixParts = s.matrixParts := by
  induction n generalizing s with
  | zero => rfl
  | succ n ih => exact ih _

@[simp] theorem stirObjs_matrixParts (s : State) (core key : Option Nat) (rs : List (Nat × Nat)) :
    (s.stirObjs core key rs).matrixParts = s.matrixParts := by
  unfold State.stirObjs
  split
  · rfl
  · refine (foldl_matrixParts (fun s r => ?_) rs _).trans rfl
    cases key with
    | none => exact (physWrite_matrixParts _ core r.1 _).trans (freeBytes_matrixParts r.2 s)
    | some k =>
      dsimp only
      cases hwrite : (freeBytes r.2 s).2.scratchWrite k r.1 (freeBytes r.2 s).1 0 with
      | error => exact freeBytes_matrixParts r.2 s
      | ok t => exact (scratchWrite_matrixParts hwrite).trans (freeBytes_matrixParts r.2 s)

@[simp] theorem endHanded_matrixParts (s : State) (x : Option Nat × Nat) (n : Nat) : (s.endHanded x n).matrixParts = s.matrixParts := by
  unfold State.endHanded
  split
  · exact setWgs_each_matrixParts _ _ fun _ _ => by rfl
  · rfl

@[simp] theorem afterStore_matrixParts (s old : State) (core : Option Nat) (x : Option Nat × Nat) (n : Nat) (k : StoreKind) :
    (s.afterStore old core x n k).matrixParts = s.matrixParts := by
  have hstir : ((s.stirObjs core x.1 (old.disturbs x n k)).forgetFlips x n).matrixParts = s.matrixParts :=
    stirObjs_matrixParts s core x.1 _
  unfold State.afterStore
  dsimp only
  split
  · exact hstir
  · exact (endHanded_matrixParts ..).trans hstir

@[simp] theorem l1Drop_matrixParts (s : State) (core pa : Nat) : (s.l1Drop core pa).matrixParts = s.matrixParts := by
  unfold State.l1Drop
  dsimp only
  split <;> rfl

@[simp] theorem performSt_matrixParts (s : State) (core : Nat) (p : PendStore) : (s.performSt core p).matrixParts = s.matrixParts := by
  unfold State.performSt
  split
  · rw [afterStore_matrixParts]
    split
    · exact (l1Drop_matrixParts _ core _).trans (physWrite_matrixParts s _ _ _)
    · exact physWrite_matrixParts s _ _ _
  · split
    · rfl
    · rename_i hwrite
      exact (afterStore_matrixParts ..).trans (scratchWrite_matrixParts hwrite)

@[simp] theorem putFibre_matrixParts (s : State) (k : Nat) (f : Fibre) : (s.putFibre k f).matrixParts = s.matrixParts :=
  updWg_matrixParts s k fun _ => by rfl

/-- What precedes a command's effect changes no matrix queue and no accumulator. -/
@[simp] theorem preceded_matrixParts (s : State) (own : Owner) (i : Issue) : (s.preceded own i).matrixParts = s.matrixParts := by
  unfold State.preceded
  split
  · exact (putFibre_matrixParts ..).trans (foldl_matrixParts (fun s p => performSt_matrixParts s _ p) _ s)
  · rfl

@[simp] theorem engoDone_matrixParts (s : State) (own : Owner) : (s.engoDone own).matrixParts = s.matrixParts := by
  unfold State.engoDone
  split
  · rfl
  · exact putFibre_matrixParts ..

/-! ## The round of the arbiter (07 R140) -/

/-- A round changes the queues of the workgroups that lose it, and no fibre. -/
theorem mRound_fibres (s : State) (core : Nat) (bids : List Bid) (won : Bid) (k : Nat) :
    ((s.mRound core bids won).wg k).map Workgroup.fibres = (s.wg k).map Workgroup.fibres := by
  refine List.foldlRecOn (motive := fun t => (State.wg t k).map Workgroup.fibres = (s.wg k).map Workgroup.fibres) bids _ rfl
    fun t ht b _ => ?_
  split
  · exact ht
  · by_cases hk : k = b.key
    · rw [hk, wg_updWg_map, Option.map_map, ← hk, ← ht]
      refine congrArg (Option.map · _) (funext fun w => ?_)
      dsimp only [Function.comp_apply]
      split <;> rfl
    · rw [State.wg_updWg_ne _ _ hk]
      exact ht

/-- The winner of a round keeps its queue. -/
theorem mRound_won (s : State) (core : Nat) (bids : List Bid) (won : Bid) :
    (s.mRound core bids won).wg won.key = s.wg won.key := by
  refine List.foldlRecOn (motive := fun t => State.wg t won.key = s.wg won.key) bids _ rfl fun t ht b _ => ?_
  split
  · exact ht
  case isFalse hkey => exact (State.wg_updWg_ne _ _ (Ne.symm hkey)).trans ht

theorem ownerFibre_eq (s : State) (own : Owner) :
    s.ownerFibre own = ((s.wg own.wk).map Workgroup.fibres).bind fun fibres =>
      (fibres.find own.fid).bind fun f => if f.uid = own.uid then some f else none := by
  unfold State.ownerFibre
  cases s.wg own.wk <;> rfl

theorem ownerFibre_congr {s t : State} {own : Owner}
    (h : (t.wg own.wk).map Workgroup.fibres = (s.wg own.wk).map Workgroup.fibres) : t.ownerFibre own = s.ownerFibre own := by
  rw [ownerFibre_eq, ownerFibre_eq, h]

theorem updWg_fibres (s : State) (k : Nat) {g : Workgroup → Workgroup} (h : ∀ w, (g w).fibres = w.fibres) (j : Nat) :
    ((s.updWg k g).wg j).map Workgroup.fibres = (s.wg j).map Workgroup.fibres := by
  by_cases hj : j = k
  · rw [hj, wg_updWg_map, Option.map_map, funext (f := Workgroup.fibres ∘ g) h]
  · rw [State.wg_updWg_ne s g hj]

/-! ## MMA_START -/

section
variable {s s1 : State} {wk : Nat} {w : Workgroup} {c : MCmd}

/-- The granted head: what the model starts, in a state that has the workgroup and all fibres as before the round. -/
theorem granted_elim (h : Claims.granted s wk = some (w, c, s1)) :
    exec (.mmaStart wk) s = .next (s1.startHead wk w { c with lost := 0 }) ∧ s1.wg wk = some w ∧
      ∀ own, s1.ownerFibre own = s.ownerFibre own := by
  simp only [Claims.granted, Option.bind_eq_bind, Option.bind_eq_some_iff, Option.guard_eq_some', Option.pure_def,
    Option.some.injEq, Prod.mk.injEq, beq_iff_eq] at h
  obtain ⟨w', hw, -, hfree, b, hgrant, -, rfl, c', hhead, rfl, rfl, rfl⟩ := h
  have he : exec (.mmaStart b.key) s = execMmaStart b.key s := rfl
  refine ⟨he.trans ?_, (mRound_won ..).trans hw, fun own => ownerFibre_congr (mRound_fibres ..)⟩
  simp only [execMmaStart, hw, hfree, hgrant, Workgroup.mhead, hhead, if_true]

theorem wg_popHead (hw : s.wg wk = some w) : (s.popHead wk).wg wk = some { w with mq := w.mq.tail } := by
  rw [State.popHead, State.wg_updWg_self _ hw, List.drop_one]

theorem wg_setHead (hw : s.wg wk = some w) (c : MCmd) :
    (s.setHead wk c).wg wk = some { w with mq := c :: w.mq.tail } := by
  rw [State.setHead, State.wg_updWg_self _ hw, List.drop_one]

/-- The head leaves its queue and the workgroup changes by g, whatever else changes. -/
theorem wg_popped (hw : s.wg wk = some w) {g : Workgroup → Workgroup} {t : State}
    (ht : t.matrixParts = ((s.popHead wk).updWg wk g).matrixParts) :
    ∃ v, t.wg wk = some v ∧ v.mq = (g { w with mq := w.mq.tail }).mq ∧ v.acc = (g { w with mq := w.mq.tail }).acc := by
  refine wg_of_matrixParts (ht ▸ ?_)
  rw [State.matrixParts, State.wg_updWg_self _ (wg_popHead hw)]
  rfl

/-- A product in a queue that stands as w has it takes the head's place and the engine. -/
theorem wg_productStarted (hparts : s.matrixParts wk = some (w.mq, w.acc)) (c : MCmd) (slot : Nat) (g : AccSlot → AccSlot)
    (core : Nat) {t : State} (ht : t = ((s.setHead wk c).updWg wk fun w => w.updSlot slot g).setRun core (some wk)) :
    ∃ v, t.wg wk = some v ∧ (t.core core).mrun = some wk ∧ v.mq = c :: w.mq.tail ∧ v.acc = w.acc.modify slot g := by
  obtain ⟨u, hu, hmq, hacc⟩ := wg_of_matrixParts hparts
  subst ht
  refine ⟨_, State.wg_updWg_self _ (wg_setHead hu c), ?_, ?_, ?_⟩
  · rw [State.setRun, State.core_putCore_self]
  · rw [← hmq]; rfl
  · rw [← hacc]; rfl

theorem mma_starts {m : MmaCmd} (hw : s1.wg wk = some w) (hop : c.op = .mma m) (hstarted : c.started = false) {t : State}
    (ht : t = s1.startHead wk w { c with lost := 0 }) :
    ∃ v, t.wg wk = some v ∧ (t.core w.core).mrun = some wk ∧
      (∃ c', v.mq = c' :: w.mq.tail ∧ c'.op = .mma m ∧ c'.started = true ∧ c'.k = c.k) ∧
      v.acc = w.acc.modify m.slot fun x => { x with work := m.prepare x.work } := by
  have hparts : ((s1.preceded c.own c.iss).cmdLate c.slack c.tick).2.matrixParts wk = some (w.mq, w.acc) := by
    refine (congrFun (preceded_matrixParts s1 c.own c.iss) wk).trans ?_
    rw [State.matrixParts, hw]
    rfl
  simp only [State.startHead, hop, hstarted, Bool.false_eq_true, if_false] at ht
  obtain ⟨v, hv, hrun, hmq, hacc⟩ := wg_productStarted hparts _ m.slot _ w.core ht
  exact ⟨v, hv, hrun, ⟨_, hmq, rfl, rfl, rfl⟩, hacc⟩

/-- An exchange wakes its fibre, as the fibre stood before the round. -/
theorem mswap_starts {slot : Nat} (hw : s1.wg wk = some w) (hop : c.op = .mswap slot)
    (hdrain : s1.draining wk w slot c.iss = false) {t : State} (ht : t = s1.startHead wk w { c with lost := 0 }) :
    ∃ v, t.wg wk = some v ∧ v.mq = w.mq.tail ∧ v.acc = (w.acc.modify slot fun x => { work := x.vis, vis := x.work }) ∧
      ∀ f, s1.ownerFibre c.own = some f → v.fibres = w.fibres.put f.fid { f with sleep := .woken } := by
  simp only [State.startHead, hop, hdrain, Bool.false_eq_true, if_false] at ht
  have howner : ((s1.popHead wk).updWg wk fun w => w.updSlot slot fun x => { work := x.vis, vis := x.work }).ownerFibre c.own =
      s1.ownerFibre c.own :=
    ownerFibre_congr ((updWg_fibres _ wk (fun _ => by rfl) _).trans (updWg_fibres s1 wk (fun _ => by rfl) _))
  rw [howner] at ht
  cases hf : s1.ownerFibre c.own with
  | none =>
    rw [hf] at ht
    subst ht
    exact ⟨_, State.wg_updWg_self _ (wg_popHead hw), rfl, rfl, fun f h => by cases h⟩
  | some f =>
    rw [hf] at ht
    subst ht
    exact ⟨_, State.wg_updWg_self _ (State.wg_updWg_self _ (wg_popHead hw)), rfl, rfl, fun g h => by cases h; rfl⟩

theorem mclr_starts {slot : Nat} {vis : Bool} (hw : s1.wg wk = some w) (hop : c.op = .mclr slot vis)
    (hdrain : (vis && !w.hdr.accm && s1.draining wk w slot c.iss) = false) {t : State}
    (ht : t = s1.startHead wk w { c with lost := 0 }) :
    ∃ v, t.wg wk = some v ∧ v.mq = w.mq.tail ∧
      v.acc = w.acc.modify slot fun x =>
        if vis = true ∧ w.hdr.accm = false then { x with vis := { x.vis with el := [], flags := 0, psn := false } }
        else { x with work := { x.work with el := [], flags := 0, psn := false } } := by
  simp only [State.startHead, hop, hdrain, Bool.false_eq_true, if_false, Bool.and_eq_true, Bool.not_eq_true'] at ht
  exact wg_popped hw ((congrArg State.matrixParts ht).trans (engoDone_matrixParts ..))

end

theorem mmaStart_happens {wk : Nat} {s : State} {effect : State → Prop}
    (h : Claims.matrixSteps (.mmaStart wk) s = some effect) : ∃ t, exec (.mmaStart wk) s = .next t ∧ effect t := by
  simp only [Claims.matrixSteps, Option.bind_eq_bind, Option.bind_eq_some_iff, Prod.exists] at h
  obtain ⟨w, c, s1, hgrant, h⟩ := h
  obtain ⟨he, hw, howner⟩ := granted_elim hgrant
  refine ⟨_, he, ?_⟩
  generalize ht : s1.startHead wk w { c with lost := 0 } = t
  cases hop : c.op with
  | mma m =>
    simp only [hop, Option.bind_eq_some_iff, Option.guard_eq_some', Option.pure_def, Option.some.injEq,
      Bool.not_eq_true'] at h
    obtain ⟨-, hstarted, rfl⟩ := h
    exact mma_starts hw hop hstarted ht.symm
  | mswap slot =>
    simp only [hop, Option.bind_eq_some_iff, Option.guard_eq_some', Option.pure_def, Option.some.injEq,
      Bool.not_eq_true'] at h
    obtain ⟨-, hdrain, rfl⟩ := h
    rw [← howner c.own]
    exact mswap_starts hw hop hdrain ht.symm
  | mclr slot vis =>
    simp only [hop, Option.bind_eq_some_iff, Option.guard_eq_some', Option.pure_def, Option.some.injEq,
      Bool.not_eq_true'] at h
    obtain ⟨-, hdrain, rfl⟩ := h
    exact mclr_starts hw hop hdrain ht.symm
  | mflag d slot clr stk wb =>
    simp only [hop, Option.pure_def, Option.some.injEq] at h
    subst h
    simp only [← ht, State.startHead, hop]

/-! ## MMA_GRANULE and MMA_COMPLETION (13 R376) -/

section
variable {s : State} {wk : Nat} {w : Workgroup} {c : MCmd} {m : MmaCmd}

theorem running_of_runningOf (h : Claims.runningOf s wk = some (w, c, m)) : s.running wk = some (w, c, m) := by
  simp only [Claims.runningOf, Option.bind_eq_bind, Option.bind_eq_some_iff, Option.guard_eq_some', beq_iff_eq] at h
  obtain ⟨w', hw, -, hrun, c', hhead, h⟩ := h
  split at h
  case h_1 m' hop =>
    cases h
    simp only [State.running, hw, hrun, Workgroup.mhead, hhead, hop, if_true]
  case h_2 => cases h

theorem boundary_eq_nextStop (m : MmaCmd) (k : Nat) : m.boundary k = Claims.nextStop m k := rfl

/-- LATE and ERR of the addition (08 Table 8-3). -/
theorem additionFlags (late psn : Bool) :
    (if late then 1 else 0) + (if psn then 2 else 0) = if late then (if psn then 3 else 1) else if psn then 2 else 0 := by
  cases late <;> cases psn <;> rfl

end

theorem mmaGranule_happens {wk : Nat} {s : State} {effect : State → Prop}
    (h : Claims.matrixSteps (.mmaGranule wk) s = some effect) : ∃ t, exec (.mmaGranule wk) s = .next t ∧ effect t := by
  have he : exec (.mmaGranule wk) s = execMmaGranule wk s := rfl
  simp only [Claims.matrixSteps, Option.bind_eq_bind, Option.bind_eq_some_iff, Prod.exists, Option.guard_eq_some'] at h
  obtain ⟨w, c, m, hrun, -, hgranule, h⟩ := h
  refine ⟨_, he, ?_⟩
  simp only [running_of_runningOf hrun, boundary_eq_nextStop, hgranule, if_true]
  cases hsteps : runSteps s wk w m c.k (Claims.nextStop m c.k) c.failed with
  | error e => rw [hsteps] at h; cases h; rfl
  | ok r => rw [hsteps] at h; cases h; rfl

theorem mmaCompletion_happens {wk : Nat} {s : State} {effect : State → Prop}
    (h : Claims.matrixSteps (.mmaCompletion wk) s = some effect) : ∃ t, exec (.mmaCompletion wk) s = .next t ∧ effect t := by
  have he : exec (.mmaCompletion wk) s = execMmaCompletion wk s := rfl
  simp only [Claims.matrixSteps, Option.bind_eq_bind, Option.bind_eq_some_iff, Prod.exists, Option.guard_eq_some'] at h
  obtain ⟨w, c, m, hrun, -, hlast, h⟩ := h
  refine ⟨_, he, ?_⟩
  simp only [running_of_runningOf hrun, boundary_eq_nextStop, Nat.not_lt.mpr hlast, if_false]
  cases hsteps : runSteps s wk w m c.k m.k c.failed with
  | error e => rw [hsteps] at h; cases h; rfl
  | ok r =>
    rw [hsteps] at h
    cases h
    dsimp only
    unfold State.completeM Claims.becomes
    rw [Nat.mul_assoc, additionFlags]
    rfl

/-- Settles O35: a round of the arbiter and the stores that precede a product leave the head's queue and its accumulators, so
what the model starts, runs and completes is what the table says. -/
theorem matrixEngine : Obligations.MatrixEngine := by
  intro i s effect h
  have hstep := h
  unfold Claims.matrixSteps at h
  split at h
  · exact mmaStart_happens hstep
  · exact mmaGranule_happens hstep
  · exact mmaCompletion_happens hstep
  · cases h

end Sys2Proof.Machine
end

section
/-! # Page operations and Caddy (13 R257 to R260, R377) -/

namespace Sys2Proof.Machine

/-! ## The checks of a record (R377) -/

/-- A mask of bits [lo + n - 1 : lo] leaves nothing of a word just where the field there is 0. -/
theorem and_fieldMask_eq_zero_iff {mask : Word} {lo n : Nat} (x : Word)
    (hmask : ∀ i < 32, mask.getLsbD i = (decide (lo ≤ i) && decide (i < lo + n))) : x &&& mask = 0 ↔ x.toNat / 2 ^ lo % 2 ^ n = 0 := by
  have hfield : x.toNat / 2 ^ lo % 2 ^ n = (x.extractLsb' lo n).toNat := by
    rw [BitVec.extractLsb'_toNat, Nat.shiftRight_eq_div_pow]
  have hzero : (x.extractLsb' lo n).toNat = 0 ↔ x.extractLsb' lo n = 0#n := by rw [BitVec.toNat_eq, BitVec.toNat_zero]
  rw [hfield, hzero]
  constructor
  · intro h
    refine BitVec.eq_of_getLsbD_eq fun i hi => ?_
    have hbit := congrArg (·.getLsbD (lo + i)) h
    by_cases hlt : lo + i < 32
    · simpa [hmask _ hlt, hi] using hbit
    · simp [BitVec.getLsbD_of_ge x (lo + i) (Nat.le_of_not_lt hlt)]
  · intro h
    refine BitVec.eq_of_getLsbD_eq fun i hi => ?_
    have hbit := congrArg (·.getLsbD (i - lo)) h
    rw [BitVec.getLsbD_and, hmask i hi]
    by_cases hrange : lo ≤ i ∧ i < lo + n
    · have hlt : i - lo < n := by omega
      simpa [hrange.1, hrange.2, hlt, Nat.add_sub_cancel' hrange.1] using hbit
    · rw [← Bool.decide_and, decide_eq_false hrange]
      simp

/-- The bits of ARG that an operation leaves unused are not all 0 (Table 13-12). -/
def argUnused (b : List Byte) : Nat → Bool
  | 0 => Claims.blk b 0x04 18 14 != 0 || Claims.blk b 0x04 9 6 != 0
  | 1 | 2 => Claims.blk b 0x04 16 16 != 0 || Claims.blk b 0x04 0 15 != 0
  | 3 => false
  | 6 => Claims.blk b 0x04 14 18 != 0
  | _ => Claims.blk b 0x04 0 32 != 0

/-- The bits that the model masks out are the fields of Table 13-12. -/
theorem argUnused_eq_true_iff (b : List Byte) {op : Nat} (hop : op < 7) : wordAt b 4 &&& ~~~argUsed op ≠ 0 ↔ argUnused b op = true := by
  have hone {m : Word} {lo n : Nat} (hm : ∀ i < 32, m.getLsbD i = (decide (lo ≤ i) && decide (i < lo + n))) :
      wordAt b 4 &&& m = 0 ↔ (Claims.blk b 0x04 lo n != 0) = false := by
    rw [bne_eq_false_iff_eq]
    exact and_fieldMask_eq_zero_iff _ hm
  have htwo {m m' : Word} {lo n lo' n' : Nat} (hm : ∀ i < 32, m.getLsbD i = (decide (lo ≤ i) && decide (i < lo + n)))
      (hm' : ∀ i < 32, m'.getLsbD i = (decide (lo' ≤ i) && decide (i < lo' + n'))) :
      wordAt b 4 &&& (m ||| m') = 0 ↔ (Claims.blk b 0x04 lo n != 0 || Claims.blk b 0x04 lo' n' != 0) = false := by
    rw [Bool.or_eq_false_iff, ← hone hm, ← hone hm', BitVec.and_or_distrib_left]
    exact BitVec.or_eq_zero_iff
  rw [← not_iff_not, not_not, Bool.not_eq_true]
  interval_cases op
  · exact htwo (m := 0xFFFC0000) (m' := 0x00007E00) (by decide) (by decide)
  · exact htwo (m := 0xFFFF0000) (m' := 0x00007FFF) (by decide) (by decide)
  · exact htwo (m := 0xFFFF0000) (m' := 0x00007FFF) (by decide) (by decide)
  · exact iff_of_true (BitVec.and_zero) rfl
  · exact hone (m := 0xFFFFFFFF) (by decide)
  · exact hone (m := 0xFFFFFFFF) (by decide)
  · exact hone (m := 0xFFFFC000) (by decide)

/-- The first check of a record: fields that are reserved, or that the operation leaves unused. -/
def recordUnused (op : Nat) (b : List Byte) : Bool :=
  Claims.blk b 0x1C 0 32 != 0 || Claims.blk b 0x18 12 20 != 0 || op != 3 && dwordAt b 0x08 != 0 || op == 0 && Claims.blk b 0x00 0 32 != 0 ||
    argUnused b op

theorem pageRows_eq (s : State) (w : Workgroup) (op : Nat) (b : List Byte) (a : DWord) :
    Claims.pageRows s w op b a =
      (recordUnused op b, Claims.trapAt .engineParam 0x03 a) ::
      (Claims.misplaced (dwordAt b 0x10) 16, Claims.trapAt .engineParam 0x09 (dwordAt b 0x10)) ::
      (((if op = 3 then addrFault false anySel 1 (dwordAt b 0x08) else none).map fun t => (true, t)).toList ++
      [(op == 6 && (!s.fabric.populated.contains ((wordAt b 0x04).extractLsb' 0 12) ||
        !(s.tenant w.tenant).nodeSet.contains ((wordAt b 0x04).extractLsb' 0 12)), Claims.trapAt .peerInvalid 0x04 a)]) := rfl

/-- A fault of its own that stands in the place of a row. -/
theorem firstOf_fault (x : Option Trap) (rows : List (Bool × Trap)) :
    Claims.firstOf ((x.map fun t => (true, t)).toList ++ rows) = if x.isSome then x else Claims.firstOf rows := by
  cases x <;> rfl

/-- The checks of the model are those of R377, in its order. -/
theorem pgopFault_eq (s : State) (w : Workgroup) {op : Nat} (hop : op < 7) (b : List Byte) (a : DWord) :
    pgopFault s w op b a = Claims.firstOf (Claims.pageRows s w op b a) := by
  rw [pageRows_eq]
  unfold pgopFault
  have hnonzero (x : Word) : x.toNat ≠ 0 ↔ x ≠ 0 := not_congr (BitVec.toNat_eq (y := 0#32)).symm
  have hslack : Claims.blk b 0x18 12 20 = (wordAt b 0x18).toNat / 4096 :=
    Nat.mod_eq_of_lt (Nat.div_lt_of_lt_mul (wordAt b 0x18).isLt)
  refine firstOf_row ?_ fun _ => barFault_row _ ?_
  · simp only [recordUnused, Bool.or_eq_true, Bool.and_eq_true, bne_iff_ne, beq_iff_eq, ← argUnused_eq_true_iff b hop, or_assoc,
      hslack, blk_whole, hnonzero, and_comm (a := op ≠ 3)]
  rw [firstOf_fault]
  by_cases hcow : op = 3
  · simp only [hcow, true_and, if_true]
    rfl
  · simp only [hcow, false_and, if_false, Option.isSome_none, Bool.false_eq_true]
    refine firstOf_row ?_ fun _ => rfl
    simp only [Bool.and_eq_true, Bool.or_eq_true, beq_iff_eq, Bool.not_eq_true']

/-- A page id is a word, so that nothing stands above its die. -/
theorem pgopDie_eq (op : Nat) (b : List Byte) :
    pgopDie op b = if op = 0 then (wordAt b 4).toNat / 65536 % 4 else (wordAt b 0).toNat / 2 ^ 30 := by
  have hpage : (wordAt b 0).toNat / 2 ^ 30 < 2 ^ 2 := by
    have := (wordAt b 0).isLt
    omega
  simp only [pgopDie, bitsN, Nat.mod_eq_of_lt hpage]
  rfl

/-! ## The words -/

theorem issued_eq_loadedBlock (f : Fibre) (s : State) (a : DWord) (late : Bool) : f.issued s a late = Claims.loadedBlock f s a late := rfl

section
variable {s s1 : State} {w : Workgroup} {f g : Fibre} {act : List Nat} {e : Res}

/-- A word that is `pgopWord` of an operation ends as the rule of that operation says. -/
theorem ends_pgop {i : Instr} {o : SGPX} {op : Nat} (hop : op < 7) (he : exec i s = pgopWord o op s)
    (h : Issues (Claims.pageRule o op).use noPre s w f act g s1) (hres : (Claims.pageRule o op).res s1 w g = some e) :
    Ends i s w (Claims.pageRule o op).use act f e := by
  unfold pgopWord at he
  refine ends_of_effect he h ?_
  simp only [Claims.pageRule] at hres
  rw [issues_cur h] at hres
  simp only [tokenStall_eq_needsToken]
  split at hres
  case isTrue htoken => cases hres; exact if_pos htoken
  case isFalse htoken =>
  rw [if_neg htoken]
  cases hread : blockRead s.cur.wk w g s1 (g.getS64 o.p.toNat) 32 with
  | trap => rw [hread] at hres; cases hres; rfl
  | wait => rw [hread] at hres; cases hres; rfl
  | ok h' t b fl tags late =>
    rw [hread] at hres
    dsimp only at hres ⊢
    rw [pgopFault_eq t w hop, endCheck]
    cases hrows : Claims.firstOf (Claims.pageRows t w op b (g.getS64 o.p.toNat)) with
    | some x => rw [hrows] at hres; cases hres; rfl
    | none =>
      rw [hrows] at hres
      dsimp only at hres ⊢
      cases hbar : (if dwordAt b 0x10 = 0 then .ok t else endTarget t s.cur.wk w false 16 16 (dwordAt b 0x10)) with
      | error x => rw [hbar] at hres; cases hres; rfl
      | ok u =>
        rw [hbar] at hres
        simp only [Option.bind_eq_bind, Option.bind_eq_some_iff, Option.pure_def, Option.some.injEq] at hres
        obtain ⟨v, hv, k, hk, rfl⟩ := hres
        have hpair : o.x.toNat = 0 ↔ o.x = 0 := by
          rw [BitVec.toNat_eq]
          rfl
        simp only [pgopDie_eq, cmdSlack_eq, hpair, issued_eq_loadedBlock, ownerOf, hv, Option.bind_some, hk]

end

theorem pageWordsEnd : Claims.ObjectWordsEnd Claims.pageWords := by
  intro i r s w f act g s1 e hi hwf h hres
  unfold Claims.pageWords at hi
  split at hi <;> cases hi <;> exact ends_pgop (by decide) rfl h hres

/-! ## Caddy's steps (R258, R259, R376) -/

theorem caddyDataMoveDone_happens {die n : Nat} {s : State} {effect : State → Prop}
    (h : Claims.caddySteps (.caddyDataMoveDone die n) s = some effect) :
    ∃ t, exec (.caddyDataMoveDone die n) s = .next t ∧ effect t := by
  have he : exec (.caddyDataMoveDone die n) s = execCaddyDataMoveDone die n s := rfl
  simp only [Claims.caddySteps, Option.bind_eq_bind, Option.bind_eq_some_iff, Option.guard_eq_some', Option.pure_def, Option.some.injEq,
    Bool.and_eq_true, Bool.not_eq_true', beq_iff_eq] at h
  obtain ⟨m, hm, -, ⟨⟨hstalled, hmoved⟩, hfailed⟩, d, hd, -, hcomplete, rfl⟩ := h
  refine ⟨_, he, ?_⟩
  unfold Claims.becomes State.moveDone
  have hsend : m.cannotSend = false := by simp only [Move.cannotSend, hfailed, Bool.false_and]
  simp only [hm, hstalled, hmoved, hsend, hd, hcomplete, hfailed]
  rfl

theorem automaticEviction_happens {die : Nat} {s : State} {effect : State → Prop}
    (h : Claims.caddySteps (.automaticEviction die) s = some effect) :
    ∃ t, exec (.automaticEviction die) s = .next t ∧ effect t := by
  have he : exec (.automaticEviction die) s = execAutomaticEviction die s := rfl
  simp only [Claims.caddySteps, Option.bind_eq_bind, Option.bind_eq_some_iff, Option.guard_eq_some', Option.pure_def, Option.some.injEq] at h
  obtain ⟨-, hlow, rfl⟩ := h
  have hevicts : s.autoEvict die = evictSome die (s.caddyOf die).descs.length s := if_pos hlow
  refine ⟨_, he, ?_⟩
  rw [hevicts]
  rfl

theorem caddyStepsHappen : Claims.StepsHappen Claims.caddySteps := by
  intro i s effect h
  have hstep := h
  unfold Claims.caddySteps at h
  split at h
  · exact caddyDataMoveDone_happens hstep
  · exact automaticEviction_happens hstep
  · cases h

/-- Settles O38: the model's checks of a record are those of R377 in their order, what reaches Caddy is the table's operation, and
the model's ways for a move to end come down to those of the table where no fault has stopped the move before. -/
theorem pageOperations : Obligations.PageOperations := ⟨pageWordsEnd, caddyStepsHappen⟩

end Sys2Proof.Machine
end

section
/-! # A `gath` whose block table runs past offset 2^32 of a scratchpad of 2^40 bytes (13 R247, R254) -/

namespace Sys2Proof.Machine
open Sys2Proof.Claims

/-- The operands of a `gath` on channel 2 with its parameter block at the address in s8:s9. -/
def gatherOperands : SGPK := ⟨0, 0, 8, 2⟩

/-- K of one token, token 4 of a block table at offset 2^32 - 4 of the own scratchpad, into rows 32 bytes apart. With pages of four
tokens its entry lies 4 bytes on, where the offset has left its 32 bits. -/
def gatherBlock : List Byte :=
  [(0x00, 1), (0x18, 0xFFFFFFFC), (0x1C, 0x80000000), (0x20, 4), (0x24, 1), (0x30, 32)].foldl
    (fun b e => b.take e.1 ++ leBytes 4 e.2 ++ b.drop (e.1 + 4)) (List.replicate 64 0)

/-- The scratchpad has 2^40 bytes, and the block lies at offset 0x100 of it. -/
def withGatherBlock (w : Workgroup) : Workgroup :=
  { w with hdr := { w.hdr with scratch := 2 ^ 40 }, mem := cellWrite w.mem 0x100 gatherBlock
           fibres := w.fibres.upd 0 fun f => (f.putS 8 0x100).putS 9 0x80000000 }

/-- One fibre at the word; model 0 has pages of four tokens. -/
def gatherState : State :=
  { (State.reset.withFetchWord 32 0).updWg 0 withGatherBlock with
    caddyModels := [(0, { tenant := 0, ptl := 2, layers := 1, rb := 32 })] }

/-- The state after a word on an object that has issued and ended as its rule says; nothing where it does not issue, or the rule
does not say. -/
def ruleOutcome (r : ObjectRule) (s : State) : Option State :=
  match s.wg s.cur.wk with
  | none => none
  | some w =>
    match (w.fibres.find s.cur.fid).map (issueOf r.use) with
    | none => none
    | some f =>
      let act := runners r.use f
      let x := operandWait w r.use (beforeWord w r.use f s).1 (beforeWord w r.use f s).2
      if act ≠ [] ∧ issueFault r.use none f act = none ∧ syncHold s.cur.wk r.use f s = false ∧ x.2.2 = none then
        (r.res x.2.1 w x.1).map fun e => settleRes s.cur.wk w r.use act.length (beforeWord w r.use f s).1 e
      else none

/-- The statement says of a word what its rule gives. -/
theorem exec_of_objectWordsEnd {table : Instr → Option ObjectRule} {i : Instr} {r : ObjectRule} {s t : State}
    (h : ObjectWordsEnd table) (hr : table i = some r) (hwf : i.wf = true) (ht : ruleOutcome r s = some t) :
    exec i s = .next t := by
  unfold ruleOutcome at ht
  split at ht
  case h_1 => cases ht
  case h_2 w hw =>
  split at ht
  case h_1 => cases ht
  case h_2 f hf =>
  dsimp only at ht
  split at ht
  case isFalse => cases ht
  case isTrue hok =>
  obtain ⟨hact, hclear, hhold, hports⟩ := hok
  obtain ⟨e, he, rfl⟩ := Option.map_eq_some_iff.mp ht
  exact h i r s w f (runners r.use f) _ _ e hr hwf ⟨hw, hf, rfl, hact, hclear, hhold, Prod.ext rfl (Prod.ext rfl hports)⟩ he

/-- How many commands stand in channel 2 of core 0 after a step. -/
def enteredBy : Host.Outcome State Fault Refusal → Option Nat
  | .next t => some (t.chan 0 2).length
  | _ => none

/-- The model sees bits above the offset's 32, and refuses the block with SCRATCH_BOUNDS SUB 0x05. -/
theorem enteredBy_gather : enteredBy (exec (.gath gatherOperands) gatherState) = some 0 := by decide +kernel

/-- The statement compares the end of the range with the scratchpad, and lets the command enter. -/
theorem ruleOutcome_gather :
    ((copyWords (.gath gatherOperands)).bind fun r => (ruleOutcome r gatherState).map fun t => (t.chan 0 2).length) = some 1 := by
  decide +kernel

/-- Refutes O36: no premise bounds a scratchpad by 2^32 bytes. Where it is larger, a block table whose entry lies beyond offset 2^32
is out of bounds for the model, whose offsets have 32 bits, and within the allocation for the statement. -/
theorem not_copyWords : ¬ Obligations.CopyWords := by
  unfold Obligations.CopyWords
  intro h
  obtain ⟨r, hr, hrule⟩ := Option.bind_eq_some_iff.mp ruleOutcome_gather
  obtain ⟨t, ht, hlen⟩ := Option.map_eq_some_iff.mp hrule
  have hmodel := enteredBy_gather
  rw [exec_of_objectWordsEnd h hr (by decide) ht] at hmodel
  exact absurd (hlen.symm.trans (Option.some.inj hmodel)) (by decide)

end Sys2Proof.Machine
end

section
/-! # A fill whose slack runs out while it waits for the grant (07 R139; 13 R243) -/

namespace Sys2Proof.Machine
open Sys2Proof.Claims

/-- A started fill of 8 KiB of scale memory. It has lost a round since tick 0, when its slack was 5 ticks. -/
def waitingFill : CCmd :=
  { op := .cpy none 1 2 0 false false 0 0x11223344 4096 8192 1 1 0 0 0 0, own := { wk := 0, fid := 0, uid := 0, pc := 0x10040 }, chan := 0
    iss := { cycle := 0, lane := 0, serial := 0, mark := 0, made := 0 }, slack := 5, tick := 0, bar := 0, crec := 0, started := true
    done := 0, ahead := [], flags := 0, code := 0, aux := 0, late := false, lostRounds := 1, stage := 0, lost := false, stalled := none
    failed := false, fab := none, hold := none, blind := [], data := [] }

/-- It heads channel 0 at cycle 200, which is tick 6. -/
def waitingState : State :=
  let s := { State.reset.withFetchWord 32 0 with cycles := 200 }
  s.putCore 0 { s.core 0 with chans := vset (s.core 0).chans 0 [waitingFill] }

theorem wg_waitingState : ∃ w, waitingState.wg 0 = some w := Option.isSome_iff_exists.mp (by decide +kernel)

/-- The arbiter grants the fill. -/
theorem granted_waitingFill : (waitingState.granted 0 0).map (·.1) = some waitingFill := by decide +kernel

/-- Whether the head of channel 0 is late after a step. -/
def headLate : Host.Outcome State Fault Refusal → Option Bool
  | .next t => ((t.chan 0 0).head?).map (·.late)
  | _ => none

/-- Six ticks have used up a slack of five: the command is late. -/
theorem headLate_copyGranule : headLate (exec (.copyGranule 0 0) waitingState) = some true := by decide +kernel

/-- Refutes O37: the slack of a fill runs out while it waits for the grant, and it goes on late (07 R139, 12 R234). The statement of
the fill lets its slack, tick and lost rounds differ after a granule, but not that. -/
theorem not_copyEngine : ¬ Obligations.CopyEngine := by
  unfold Obligations.CopyEngine
  rintro ⟨-, hfills, -⟩
  obtain ⟨⟨c, s0⟩, hgrant, rfl⟩ := Option.map_eq_some_iff.mp granted_waitingFill
  obtain ⟨w, hw⟩ := wg_waitingState
  obtain ⟨t, c1, hexec, -, hchan, -, hc1⟩ :=
    (hfills waitingState s0 0 0 waitingFill w 0x11223344 4096 8192 hgrant hw rfl rfl rfl rfl rfl rfl rfl rfl (by decide)
      (by decide) (by decide)).1 (by decide)
  have hlate : c1.late = false := congrArg CCmd.late hc1
  have hmodel := headLate_copyGranule
  rw [hexec, headLate, hchan, List.head?_cons, Option.map_some, hlate] at hmodel
  exact absurd hmodel (by decide)

end Sys2Proof.Machine
end

section
/-! # Words of a sequence, and tree words (14 R273 to R284, R287, R288) -/

namespace Sys2Proof.Machine

/-! ## Slots (R273, R277) -/

/-- The check of R273 on a slot number refuses what the rule refuses. -/
theorem slotBad_iff (s : State) (model n : Nat) :
    slotBad s model n = true ↔ 16384 ≤ n ∨ (s.kslots.find n).any (fun k => k.model != model) = true := by
  unfold slotBad
  cases s.kslots.find n <;> simp

/-- `seqstop` marks running and parked sequences. -/
theorem running_or_parked_iff (k : KSlot) : (Claims.running k || k.state == .deliveryWait) = true ↔
    k.state = .prefill ∨ k.state = .decode ∨ k.state = .deliveryWait := by
  simp [Claims.running, or_assoc]

/-! ## The words -/

/-- A word of the control fibre waits for the token where its rule does, and ends as the rule says if the rest of it does. -/
theorem token_elim {s : State} {w : Workgroup} {f : Fibre} {rest : Res} {rule : Option Res} {e : Res}
    (hres : (if Claims.needsToken s w = true then some (.wait f s .token) else rule) = some e) (hrest : rule = some e → rest = e) :
    (if s.tokenStall w = true then .wait f s .token else rest) = e := by
  rw [tokenStall_eq_needsToken]
  split at hres
  case isTrue htoken => cases hres; exact if_pos htoken
  case isFalse htoken => rw [if_neg htoken]; exact hrest hres

section
variable {i : Instr} {s s1 : State} {w : Workgroup} {f g : Fibre} {act : List Nat} {e : Res}

/-- A word on a slot ends as its rule says if its own part is that of the rule. -/
theorem ends_slotWord {u : Use} {x : BitVec 6} {go part : KModel → Nat → Fibre → State → Fibre × State}
    (he : exec i s = slotWord u x go s) (hpart : ∀ m n f s, go m n f s = part m n f s) (h : Issues u noPre s w f act g s1)
    (hres : (Claims.slotRule u x part).res s1 w g = some e) : Ends i s w u act f e := by
  unfold slotWord at he
  refine ends_of_effect he h ?_
  unfold Claims.slotRule at hres
  dsimp only at hres
  refine token_elim hres fun hres => ?_
  cases hk : kettleOf s1 w with
  | none => rw [hk] at hres; cases hres; rfl
  | some k =>
    obtain ⟨model, m, ib⟩ := k
    rw [hk] at hres
    dsimp only at hres ⊢
    simp only [slotBad_iff, hpart]
    split at hres
    case isTrue hbad => cases hres; exact if_pos hbad
    case isFalse hbad => cases hres; exact if_neg hbad

theorem ends_seqstop {o : SGXK} {r : Claims.ObjectRule} (hi : Claims.sequenceWords (.seqstop o) = some r)
    (h : Issues r.use noPre s w f act g s1) (hres : r.res s1 w g = some e) : Ends (.seqstop o) s w r.use act f e := by
  cases hi
  have he : exec (.seqstop o) s = execSeqstop o s := rfl
  refine ends_slotWord he (fun _ n f s => ?_) h hres
  cases s.kslots.find n with
  | none => rfl
  | some k =>
    simp only [Option.filter_some, running_or_parked_iff]
    split_ifs <;> rfl

theorem ends_seqnext {o : SGPX} {r : Claims.ObjectRule} (hi : Claims.sequenceWords (.seqnext o) = some r)
    (h : Issues r.use noPre s w f act g s1) (hres : r.res s1 w g = some e) : Ends (.seqnext o) s w r.use act f e := by
  cases hi
  have he : exec (.seqnext o) s = execSeqnext o s := rfl
  refine ends_of_effect he h ?_
  dsimp only at hres ⊢
  rw [issues_cur h] at hres
  refine token_elim hres fun hres => ?_
  cases hk : kettleOf s1 w with
  | none => rw [hk] at hres; cases hres; rfl
  | some k =>
    obtain ⟨model, m, ib⟩ := k
    rw [hk] at hres
    dsimp only at hres ⊢
    cases hstore : plainStore s.cur.wk w g s1 [0x0, 0x8] 16 16 17 (planBuffer m (g.getS o.x.toNat)).2 (g.getS64 o.p.toNat) <;>
      rw [hstore] at hres <;> cases hres <;> rfl

theorem ends_rng {o : SGPXH} {r : Claims.ObjectRule} (hi : Claims.sequenceWords (.rng o) = some r)
    (h : Issues r.use noPre s w f act g s1) (hres : r.res s1 w g = some e) : Ends (.rng o) s w r.use act f e := by
  cases hi
  have he : exec (.rng o) s = execRng o s := rfl
  refine ends_of_effect he h ?_
  dsimp only at hres ⊢
  rw [issues_cur h] at hres
  refine token_elim hres fun hres => ?_
  simp only [on_iff]
  cases hload : plainLoad s.cur.wk w g s1 [0x0, 0x8, 0x9] 16 16 1 (g.getS64 o.p.toNat) <;>
    rw [hload] at hres <;> cases hres <;> rfl

theorem ends_samp {o : SGPX} {r : Claims.ObjectRule} (hi : Claims.sequenceWords (.samp o) = some r)
    (h : Issues r.use noPre s w f act g s1) (hres : r.res s1 w g = some e) : Ends (.samp o) s w r.use act f e := by
  cases hi
  have he : exec (.samp o) s = execSamp o s := rfl
  refine ends_of_effect he h ?_
  dsimp only at hres ⊢
  rw [issues_cur h] at hres
  refine token_elim hres fun hres => ?_
  cases hload : plainLoad s.cur.wk w g s1 [0x0, 0x8, 0x9, 0xA, 0xB] 32 32 17 (g.getS64 o.p.toNat) with
  | trap => rw [hload] at hres; cases hres; rfl
  | wait => rw [hload] at hres; cases hres; rfl
  | ok h' t b fl tags late =>
    rw [hload] at hres
    cases hres
    dsimp only
    cases t.kslots.find (g.getS o.x.toNat).toNat with
    | none => rfl
    | some k =>
      have hlive : (k.state == .prefill || k.state == .decode) = Claims.running k := rfl
      simp only [hlive, Option.filter_some]
      cases Claims.running k <;> rfl

end

theorem sequenceWordsEnd : Claims.ObjectWordsEnd Claims.sequenceWords := by
  intro i r s w f act g s1 e hi hwf h hres
  have hword := hi
  unfold Claims.sequenceWords at hword
  split at hword
  case h_1 o =>
    cases hi
    exact ends_slotWord (show exec (.tokdlv o) s = execTokdlv o s from rfl) (fun _ _ _ _ => rfl) h hres
  case h_2 => exact ends_seqstop hi h hres
  case h_3 o =>
    cases hi
    refine ends_slotWord (show exec (.repW o) s = execRepW o s from rfl) (fun _ n f s => ?_) h hres
    simp only [on_iff]
  case h_4 => exact ends_seqnext hi h hres
  case h_5 => exact ends_rng hi h hres
  case h_6 => exact ends_samp hi h hres
  case h_7 => cases hword

/-! ## Tree words (R287, R288) -/

theorem TreeReg.foreign_iff (t : TreeReg) (wk : Nat) : t.foreign wk = true ↔ t.holder ≠ none ∧ t.holder ≠ some wk := by
  unfold TreeReg.foreign
  cases t.holder <;> simp

/-- The checks on a register and a node that a word names are those of the table, in its order. -/
theorem treeChecks_eq_elim (t : TreeReg) (s : State) (f : Fibre) (node : Nat) (r : Res) :
    Claims.treeChecks t s f node r = (treeFault t s.cur.wk (some node)).elim r fun x => .trap f s x 0 := by
  unfold treeFault Claims.treeChecks
  simp only [TreeReg.foreign_iff]
  split_ifs <;> rfl

/-- A word that names no node meets the check on the register alone. -/
theorem treeChecks_zero_eq_elim (t : TreeReg) (s : State) (f : Fibre) (r : Res) :
    Claims.treeChecks t s f 0 r = (treeFault t s.cur.wk none).elim r fun x => .trap f s x 0 := by
  unfold treeFault Claims.treeChecks
  simp only [TreeReg.foreign_iff, if_neg (show ¬ 64 ≤ 0 by decide)]
  split_ifs <;> rfl

theorem treeWordsEnd : Claims.WordsEnd Claims.treeWords := by
  intro i r s w f act g s1 hi hwf h hfires
  unfold Claims.treeWords at hi
  split at hi <;> cases hi
  case h_1 o =>
    have he : exec (.tset o) s = execTset o s := rfl
    refine ends_of_effect he h ?_
    dsimp only
    rw [← issues_cur h, treeChecks_eq_elim]
    simp only [Option.isNone_iff_eq_none]
    cases treeFault (s1.treeReg w o.n.toNat) s1.cur.wk (some (g.getS o.a.toNat).toNat) <;> rfl
  case h_2 o =>
    have he : exec (.tanc o) s = execTanc o s := rfl
    refine ends_of_effect he h ?_
    dsimp only
    rw [← issues_cur h, treeChecks_eq_elim]
    cases treeFault (s1.treeReg w o.n.toNat) s1.cur.wk (some (g.getS o.a.toNat).toNat) <;> rfl
  case h_3 o =>
    have he : exec (.tdepth o) s = execTdepth o s := rfl
    refine ends_of_effect he h ?_
    dsimp only
    rw [← issues_cur h, treeChecks_eq_elim]
    simp only [Option.isNone_iff_eq_none]
    cases treeFault (s1.treeReg w o.n.toNat) s1.cur.wk (some (g.getS o.a.toNat).toNat) <;> rfl
  case h_4 o =>
    have he : exec (.tclr o) s = execTclr o s := rfl
    refine ends_of_effect he h ?_
    dsimp only
    rw [← issues_cur h, treeChecks_zero_eq_elim]
    cases treeFault (s1.treeReg w o.n.toNat) s1.cur.wk none <;> rfl

/-- Settles O39: the model's checks on launch, slot, register and node are those of the table in its order, and what each word
delivers is what its rule says. -/
theorem sequencesAndTrees : Obligations.SequencesAndTrees := ⟨sequenceWordsEnd, treeWordsEnd⟩

end Sys2Proof.Machine
end

section
/-! # Kettle and the launch front end (14 R262 to R281; 17 R301) -/

namespace Sys2Proof.Machine

/-! ## What reads by an agent without a core leave -/

theorem sameButCopies_afterWalk (s : State) (ten va : Nat) : SameButCopies s (s.afterWalk ten va) := by
  unfold State.afterWalk
  split
  · rfl
  · exact List.foldlRecOn (motive := SameButCopies s) _ _ rfl fun t ht a _ => ht.trans (sameButCopies_sliceRead t none a 8)

theorem sameButCopies_agentWalk (s : State) (ten va n : Nat) : SameButCopies s (s.agentWalk ten va n) := by
  unfold State.agentWalk
  refine List.foldlRecOn (motive := SameButCopies s) _ _ rfl fun t ht p _ => ?_
  split
  · exact ht
  · exact ht.trans (sameButCopies_afterWalk t ten p.1)

/-- An agent's read leaves all but copies, whether it answers or fails. -/
theorem sameButCopies_agentRead (s : State) (ten va n : Nat) :
    EitherWay (fun e => SameButCopies s e.2) (fun r => SameButCopies s r.2.2) (s.agentRead ten va n) := by
  unfold State.agentRead
  refine IfOk.mapError (IfOk.overParts (fun p acc hacc => ?_) rfl) fun _ => sameButCopies_agentWalk s ten va n
  split
  · trivial
  · have hwalk := (hacc.trans (sameButCopies_afterWalk acc.2.2 ten p.1)).countTraffic ten (requestBytes p.1 p.2) false
    -- a read at the point of coherence without a core is a read at the slice
    exact hwalk.trans (sameButCopies_sliceRead _ none _ _)

theorem sameButCopies_agentWord (s : State) (ten va : Nat) :
    EitherWay (fun e => SameButCopies s e.2) (fun r => SameButCopies s r.2) (s.agentWord ten va) := by
  have hread := sameButCopies_agentRead s ten va 4
  unfold State.agentWord
  cases hr : s.agentRead ten va 4 with
  | error e => rwa [hr] at hread
  | ok r =>
    rw [hr] at hread
    dsimp only
    split <;> exact hread

/-! ## What arming and freeing watches leave (R263, R281) -/

/-- Nothing but copies and the table of watches differs. -/
def SameButWatches (s t : State) : Prop := SameButCopies s (t.setWatches s.watches)

theorem SameButWatches.trans {s t u : State} (hst : SameButWatches s t) (htu : SameButWatches t u) : SameButWatches s u :=
  calc withCopiesOf s (u.setWatches s.watches) = withCopiesOf s ((withCopiesOf t (u.setWatches t.watches)).setWatches s.watches) := rfl
    _ = withCopiesOf s (t.setWatches s.watches) := congrArg (fun t => withCopiesOf s (t.setWatches s.watches)) htu
    _ = s := hst

theorem SameButWatches.cycles {s t : State} (h : SameButWatches s t) : t.cycles = s.cycles :=
  congrArg (a₁ := withCopiesOf s (t.setWatches s.watches)) State.cycles h

theorem SameButWatches.kqueues {s t : State} (h : SameButWatches s t) : t.kqueues = s.kqueues :=
  congrArg (a₁ := withCopiesOf s (t.setWatches s.watches)) State.kqueues h

theorem SameButCopies.sameButWatches {s t : State} (h : SameButCopies s t) : SameButWatches s t := by
  unfold SameButWatches SameButCopies
  calc withCopiesOf s (t.setWatches s.watches) = (withCopiesOf s t).setWatches s.watches := rfl
    _ = s := congrArg (State.setWatches · s.watches) h

theorem sameButWatches_unwatch (s : State) (who : Waiter) : SameButWatches s (s.unwatch who) := rfl

theorem sameButWatches_watchWord (s : State) (ten va : Nat) (v : Word) (who : Waiter) :
    EitherWay (SameButWatches s) (SameButWatches s) (s.watchWord ten va v who) := by
  have hwalk := (sameButCopies_agentWalk s ten va 4).sameButWatches
  unfold State.watchWord
  dsimp only
  split
  · exact hwalk
  · split
    · exact hwalk
    · split <;> exact hwalk

/-! ## Rings (R263, R281) -/

/-- A ring whose TAIL watch has fired has seen what the watch saw, and nothing but copies and watches has changed. -/
theorem refreshRing_of_fired {s : State} {r : Ring} {who : Waiter} {v : Word} (h : Claims.tailSeen s who = some v) :
    (∃ polled, (refreshRing s r who).1 = { r with seen := v, polled := polled }) ∧
      SameButWatches s (refreshRing s r who).2 := by
  simp only [Claims.tailSeen, Option.bind_eq_bind, Option.bind_eq_some_iff, Option.guard_eq_some', Option.pure_def,
    Option.some.injEq] at h
  obtain ⟨⟨key, x⟩, hx, -, hfired, rfl⟩ := h
  unfold refreshRing
  simp only [hx, if_pos hfired]
  have harm := sameButWatches_watchWord (s.unwatch who) r.tenant r.tail.toNat x.word who
  cases hw : (s.unwatch who).watchWord r.tenant r.tail.toNat x.word who <;> rw [hw] at harm <;>
    exact ⟨⟨_, rfl⟩, (sameButWatches_unwatch s who).trans harm⟩

/-- The clock does not move while polled words are read. -/
theorem pollRing_cycles (s : State) (r : Ring) (who : Waiter) : (pollRing s r who).2.cycles = s.cycles := by
  unfold pollRing
  split
  · rfl
  have hword := sameButCopies_agentWord s r.tenant r.tail.toNat
  cases hw : s.agentWord r.tenant r.tail.toNat with
  | error e =>
    rw [hw] at hword
    exact hword.sameButWatches.cycles
  | ok x =>
    obtain ⟨v, t⟩ := x
    rw [hw] at hword
    have harm := sameButWatches_watchWord t r.tenant r.tail.toNat v who
    dsimp only
    cases ha : t.watchWord r.tenant r.tail.toNat v who <;> rw [ha] at harm <;>
      exact (hword.sameButWatches.trans harm).cycles

theorem pollCons_cycles (s : State) (n : Nat) (k : KSlot) : (pollCons s n k).cycles = s.cycles := by
  have htry (t : State) : (if k.consRoom then t else (t.setSlot n { k with consRoom := true }).wakeModels).cycles = t.cycles := by
    split <;> rfl
  unfold pollCons
  split
  · rfl
  have hprod := sameButCopies_agentWord s k.vf k.ring.toNat
  dsimp only
  cases hp : s.agentWord k.vf k.ring.toNat with
  | error e =>
    rw [hp] at hprod
    exact (htry _).trans hprod.sameButWatches.cycles
  | ok x =>
    obtain ⟨prod, t⟩ := x
    rw [hp] at hprod
    have hcons := sameButCopies_agentWord t k.vf (k.ring.toNat + 0x40)
    dsimp only
    cases hc : t.agentWord k.vf (k.ring.toNat + 0x40) with
    | error e =>
      rw [hc] at hcons
      exact (htry _).trans (hprod.trans hcons).sameButWatches.cycles
    | ok y =>
      obtain ⟨cons, u⟩ := y
      rw [hc] at hcons
      have harm := sameButWatches_watchWord u k.vf (k.ring.toNat + 0x40) cons (.kettleCons n)
      have hread := (hprod.trans hcons).sameButWatches
      dsimp only
      cases ha : u.watchWord k.vf (k.ring.toNat + 0x40) cons (.kettleCons n) <;> rw [ha] at harm <;> dsimp only <;>
        split <;> exact (hread.trans harm).cycles

theorem foldl_cycles {α : Type} {g : State → α → State} (h : ∀ s a, (g s a).cycles = s.cycles) (l : List α) (s : State) :
    (l.foldl g s).cycles = s.cycles :=
  List.foldlRecOn (motive := fun t => t.cycles = s.cycles) l g rfl fun t ht a _ => (h t a).trans ht

/-- Polling notes the cycle in which it began. -/
theorem pollWords_lastPoll (s : State) : s.pollWords.lastPoll = s.cycles := by
  refine (foldl_cycles (fun s n => ?_) _ _).trans ((foldl_cycles (fun s q => ?_) _ _).trans (foldl_cycles (fun s q => ?_) _ _))
  · cases s.kslots.find n with
    | none => rfl
    | some k => exact pollCons_cycles s n k
  · cases s.hostQueues.find q with
    | none => rfl
    | some r => exact pollRing_cycles s r (.launchQueue q)
  · cases s.kqueues.find q with
    | none => rfl
    | some r => exact pollRing_cycles s r (.kettleTail q)

/-! ## Kettle's steps -/

section
variable {s : State} {effect : State → Prop} {q n : Nat}

theorem submissionTailFire_happens (h : Claims.kettleSteps (.submissionTailFire q) s = some effect) :
    ∃ t, exec (.submissionTailFire q) s = .next t ∧ effect t := by
  have he : exec (.submissionTailFire q) s = execSubmissionTailFire q s := rfl
  simp only [Claims.kettleSteps, Option.bind_eq_bind, Option.bind_eq_some_iff, Option.pure_def, Option.some.injEq] at h
  obtain ⟨r, hr, v, hv, rfl⟩ := h
  obtain ⟨⟨polled, hring⟩, hrest⟩ := refreshRing_of_fired (r := r) hv
  refine ⟨_, he, polled, ?_⟩
  simp only [hr, hring, hrest.kqueues]

theorem submitRecord_happens (h : Claims.kettleSteps (.submitRecord q) s = some effect) :
    ∃ t, exec (.submitRecord q) s = .next t ∧ effect t := by
  have he : exec (.submitRecord q) s = execSubmitRecord q s := rfl
  simp only [Claims.kettleSteps, Option.bind_eq_bind, Option.bind_eq_some_iff, Option.guard_eq_some', Option.pure_def, beq_iff_eq,
    bne_iff_ne] at h
  obtain ⟨⟨k, turn⟩, hk, r, hr, -, rfl, ⟨b, s1⟩, hb, -, hop, heffect⟩ := h
  refine ⟨_, he, ?_⟩
  simp only [hk, hr, ok_of_toOption hb, ne_eq, not_true_eq_false, if_false, if_neg hop]
  split at heffect
  case isTrue hbad => cases heffect; exact if_pos hbad
  case isFalse hbad => cases heffect; exact if_neg hbad

theorem cancelRecord_happens (h : Claims.kettleSteps (.cancelRecord q) s = some effect) :
    ∃ t, exec (.cancelRecord q) s = .next t ∧ effect t := by
  have he : exec (.cancelRecord q) s = execCancelRecord q s := rfl
  simp only [Claims.kettleSteps, Option.bind_eq_bind, Option.bind_eq_some_iff, Option.guard_eq_some', Option.pure_def, beq_iff_eq,
    Bool.and_eq_true, Bool.not_eq_true', Option.some.injEq] at h
  obtain ⟨⟨k, turn⟩, hk, r, hr, -, rfl, ⟨b, s1⟩, hb, -, ⟨hop, hctl⟩, rfl⟩ := h
  refine ⟨_, he, ?_⟩
  have hlive (k : KSlot) : k.live = true ↔ k.state ≠ .drain := bne_iff_ne
  simp only [hk, hr, ok_of_toOption hb, hop, hctl, ne_eq, not_true_eq_false, if_false, Bool.false_eq_true, hlive]
  rfl

theorem consWatchFire_happens (h : Claims.kettleSteps (.consWatchFire n) s = some effect) :
    ∃ t, exec (.consWatchFire n) s = .next t ∧ effect t := by
  have he : exec (.consWatchFire n) s = execConsWatchFire n s := rfl
  simp only [Claims.kettleSteps, Option.bind_eq_bind, Option.bind_eq_some_iff, Option.guard_eq_some', Option.pure_def,
    Option.some.injEq] at h
  obtain ⟨⟨key, x⟩, hx, k, hk, -, hfired, rfl⟩ := h
  refine ⟨_, he, ?_⟩
  simp only [hx, hk, if_pos hfired]
  refine ⟨rfl, fun m hm => ?_⟩
  simp only [State.wakeModels, Tbl.vals, Tbl.each, List.map_map, List.mem_map, Function.comp] at hm
  obtain ⟨_, -, rfl⟩ := hm
  rfl

theorem parkLimit_happens (h : Claims.kettleSteps (.parkLimit n) s = some effect) :
    ∃ t, exec (.parkLimit n) s = .next t ∧ effect t := by
  have he : exec (.parkLimit n) s = execParkLimit n s := rfl
  simp only [Claims.kettleSteps, Option.bind_eq_bind, Option.bind_eq_some_iff, Option.guard_eq_some', Option.pure_def,
    Option.some.injEq, Bool.and_eq_true, beq_iff_eq, decide_eq_true_eq, Bool.not_eq_true', and_assoc] at h
  obtain ⟨k, hk, m, hm, -, hstate, hlimit, hevent, rfl⟩ := h
  refine ⟨_, he, ?_⟩
  simp only [hk, hm, Option.map_some, Option.getD_some, if_pos (And.intro hstate (And.intro hlimit hevent))]
  exact ⟨rfl, rfl⟩

theorem pollTimer_happens (h : Claims.kettleSteps .pollTimer s = some effect) :
    ∃ t, exec .pollTimer s = .next t ∧ effect t := by
  have he : exec .pollTimer s = execPollTimer s := rfl
  simp only [Claims.kettleSteps, Option.bind_eq_bind, Option.bind_eq_some_iff, Option.guard_eq_some', Option.pure_def,
    Option.some.injEq, decide_eq_true_eq] at h
  obtain ⟨-, hdue, rfl⟩ := h
  refine ⟨_, he, ?_⟩
  rw [if_pos hdue]
  exact pollWords_lastPoll s

theorem iterationForm_happens (h : Claims.kettleSteps (.iterationForm n) s = some effect) :
    ∃ t, exec (.iterationForm n) s = .next t ∧ effect t := by
  have he : exec (.iterationForm n) s = execIterationForm n s := rfl
  simp only [Claims.kettleSteps, Option.bind_eq_bind, Option.bind_eq_some_iff, Option.guard_eq_some', Option.pure_def,
    Option.some.injEq] at h
  obtain ⟨m, hm, -, hready, rfl⟩ := h
  have hready : m.ready = true := hready
  refine ⟨_, he, ?_⟩
  simp only [hm, hready, Bool.not_true, Bool.false_eq_true, if_false]
  rfl

theorem hostLaunchQueueEntry_happens (h : Claims.kettleSteps (.hostLaunchQueueEntry q) s = some effect) :
    ∃ t, exec (.hostLaunchQueueEntry q) s = .next t ∧ effect t := by
  have he : exec (.hostLaunchQueueEntry q) s = execHostLaunchQueueEntry q s := rfl
  simp only [Claims.kettleSteps, Option.bind_eq_bind, Option.bind_eq_some_iff, Option.guard_eq_some', Option.pure_def, beq_iff_eq,
    Bool.and_eq_true, Bool.not_eq_true', Option.some.injEq] at h
  obtain ⟨-, ⟨hhold, hfull⟩, ⟨k, ptr, turn⟩, hturn, r, hr, -, rfl, ⟨b, s2⟩, hb, rfl⟩ := h
  refine ⟨_, he, ?_⟩
  simp only [hhold, hfull, hturn, hr, ok_of_toOption hb, Bool.not_true, Bool.or_false, Bool.false_eq_true, if_false, ne_eq,
    not_true_eq_false]
  rfl

end

/-- Settles O42: each step finds the state in which the table gives it an effect in the branch of the model that has that effect;
reads and watches of an agent without a core leave the rings and the clock. -/
theorem kettleSteps : Obligations.KettleSteps := by
  intro i s effect h
  have hstep := h
  unfold Claims.kettleSteps at h
  split at h
  · exact submissionTailFire_happens hstep
  · exact submitRecord_happens hstep
  · exact cancelRecord_happens hstep
  · exact consWatchFire_happens hstep
  · exact parkLimit_happens hstep
  · exact pollTimer_happens hstep
  · exact iterationForm_happens hstep
  · exact hostLaunchQueueEntry_happens hstep
  · cases h

end Sys2Proof.Machine
end
